-- ==== Sys2Proof/Word.lean ====
section
/-!
DEFINITION. The word types of the LY5120 model and their plainest arithmetic: bytes, 32-bit and 64-bit words,
and the sorted map that every sparse table of the part is held in (00_scope.md R2 to R4).
-/
namespace Sys2Proof

/-- One byte of a frame, a deck or a memory. -/
abbrev Byte := BitVec 8

/-- A 32-bit word: a general register, a record word, a carried-half word. -/
abbrev W32 := BitVec 32

/-- A 64-bit word: a register (R5). -/
abbrev W64 := BitVec 64

/-- A table sparse in a numbered key: pairs with strictly rising keys. -/
abbrev KMap (α : Type) := List (Nat × α)

end Sys2Proof
end

