-- ==== Sys2Proof/Syntax.lean ====
section
/-!
DEFINITION. The commands of the LY5120 block: one constructor for each row of spec/opcode_table.json, with the
operands the row's rule names. A session operand is the session that sends the transaction; an operand the spec
leaves to the outside world (a frame, a measured phase, a link event, an error in a stored word) is the input the
command brings. Widths and ranges are checked in WellFormed.lean.
Log entries: 5, 8.
-/
namespace Sys2Proof

/-- A supply rail of Table 18.2 (R383, R409). -/
inductive Rail
  | vddCore | vddSram | vddLane | vddaLane | vddHbm | vddqHbm | vppHbm | vddIo | vddioKeep | vddKeep
deriving DecidableEq, Repr

/-- What triggered a kitty save (R398, Table 17.9 byte 26). -/
inductive SaveTrigger
  | pwrwarn | vddCore
deriving DecidableEq, Repr

/-- How a received frame ends at the MAC (R106, R107): with a good or bad FCS, cut short by its link going down, or
still arriving when its first 128 B are in (its end comes with DEFERRED_CHECK), with its FCS good or bad then. -/
inductive FrameEnd
  | good | bad | aborted | lateGood | lateBad
deriving DecidableEq, Repr

/-- What a read of an HBM sector finds (R327): no error, a single-bit error, an uncorrectable error. -/
inductive EccFault
  | clean | single | double
deriving DecidableEq, Repr

/-- An error in the header of the cell that hand `hand` sends in this cell time (R249). -/
structure HdrFault where
  hand : Nat
  uncorrectable : Bool
deriving DecidableEq, Repr

/-- A register whose new record is written to the kitty error log (R402). -/
inductive ErrLog
  | wdogLog | ucodeLog | rowErrLast | hbmErrLast | deckFail | rstLast | clockFailed
deriving DecidableEq, Repr

/-- A Zatas key slot: 32 key bytes and a level, 0 when empty (R341). -/
structure KeySlot where
  key   : List Byte
  level : Nat
deriving DecidableEq, Repr

/-- A deck-key slot: 1 Ed25519 with 32 B, 2 P-384 with 96 B (R51). -/
structure DeckKey where
  alg : Nat
  key : List Byte
deriving DecidableEq, Repr

/-- The fuse array: the 512 shadow words, the key slots, the base MAC address, the grade and the core voltage target
(R51, R341, R391, Tables 0.5, 18.14). Which words hold which key the spec does not say. -/
structure Fuses where
  words    : KMap W64
  deckKeys : KMap DeckKey
  zatKeys  : KMap KeySlot
  macBase  : Nat
  grade    : Nat
  avsMv    : Nat
deriving DecidableEq, Repr

/-- The board's and the fuse array's answers during a power-on sequence (Table 17.4): the CFGSEL voltage in units of
0.1 mV (R389), the fuse array as read, whether a word needed a retry and whether one failed three times (R391),
the AVSBus result (R410), the 640 lane words that training finds, 160 a stack (R329), and flash slots that cannot be read (R58). -/
structure PowerOnFacts where
  cfgsel     : Nat
  fuses      : Fuses
  trimRetry  : Bool
  trimHalt   : Bool
  avsAcked   : Bool
  training   : List W64
  flashFault : List Nat
deriving DecidableEq, Repr

/-- The commands of the block (spec/opcode_table.json). -/
inductive Instr
  /-- CONTROL_FRAME_RECEIVE (R335). -/
  | controlFrameReceive (cp : Nat) (frame : List Byte) (fcsOk : Bool)
  /-- ACK_ONLY_FRAME (R345). -/
  | ackOnlyFrame (session : Nat) (ack sack : W32)
  /-- ACK_ONLY_SEND (R345). -/
  | ackOnlySend (session : Nat)
  /-- FRAME_EXECUTE (R346). -/
  | frameExecute (session : Nat)
  /-- CHALLENGE_TIMEOUT (R339). -/
  | challengeTimeout (session : Nat)
  /-- SESSION_IDLE_TIMEOUT (R382). -/
  | sessionIdleTimeout (session : Nat)
  /-- NEIGHBOUR_SOLICITATION (R334). -/
  | neighbourSolicitation (cp : Nat) (frame : List Byte)
  /-- HELLO (R339). -/
  | hello (cp : Nat) (peer : List Byte)
  /-- AUTH (R340). -/
  | auth (cp : Nat) (peer message : List Byte)
  /-- PING (R349). -/
  | ping (session : Nat) (data : List Byte)
  /-- READ (R349). -/
  | read (session addr : Nat)
  /-- WRITE (R349). -/
  | write (session addr : Nat) (value : W64)
  /-- RMW (R349). -/
  | rmw (session addr : Nat) (mask value : W64)
  /-- BULK_READ (R349). -/
  | bulkRead (session addr count : Nat)
  /-- BULK_WRITE (R349). -/
  | bulkWrite (session addr : Nat) (data : List Byte)
  /-- SNAPSHOT (R365). -/
  | snapshot (session group : Nat)
  /-- TABLE_READ (R350). -/
  | tableRead (session kind index : Nat) (data : List Byte)
  /-- TABLE_WRITE (R350). -/
  | tableWrite (session kind index : Nat) (data : List Byte)
  /-- TABLE_INSERT (R151). -/
  | tableInsert (session kind index : Nat) (data : List Byte)
  /-- TABLE_DELETE (R350). -/
  | tableDelete (session kind index : Nat) (data : List Byte)
  /-- FLOW_READ (R351). -/
  | flowRead (session : Nat) (data : List Byte)
  /-- FLOW_READ_INDEX (R351). -/
  | flowReadIndex (session index : Nat)
  /-- FLOW_INSERT (R351). -/
  | flowInsert (session : Nat) (data : List Byte)
  /-- FLOW_UPDATE (R351). -/
  | flowUpdate (session : Nat) (data : List Byte)
  /-- FLOW_DELETE (R351). -/
  | flowDelete (session : Nat) (data : List Byte)
  /-- FLOW_KEEP_SET (R351). -/
  | flowKeepSet (session : Nat) (data : List Byte)
  /-- FLOW_KEEP_CLEAR (R351). -/
  | flowKeepClear (session : Nat) (data : List Byte)
  /-- DEAL (R54). -/
  | deal (session offset : Nat) (data : List Byte)
  /-- DEAL_COMMIT_VERIFY (R55). -/
  | dealCommitVerify (session source : Nat)
  /-- DEAL_COMMIT_HOT (R61). -/
  | dealCommitHot (session source : Nat)
  /-- EPOCH_SWITCH (R61). -/
  | epochSwitch
  /-- EPOCH_RETIRE (R61). -/
  | epochRetire
  /-- DEAL_COMMIT_REDEAL (R59). -/
  | dealCommitRedeal (session source : Nat)
  /-- FOLD (R396). -/
  | fold (session block unit : Nat) (all : Bool)
  /-- FORCED_FOLD (R269). -/
  | forcedFold (session block unit : Nat) (all : Bool)
  /-- FOLD_COMPLETE (R396). -/
  | foldComplete (block unit : Nat)
  /-- UNFOLD (R397). -/
  | unfold (session block unit : Nat) (all : Bool)
  /-- SUBSCRIBE (R353). -/
  | subscribe (session ring credits : Nat)
  /-- UNSUBSCRIBE (R353). -/
  | unsubscribe (session ring : Nat)
  /-- EXCEPT (R353). -/
  | except (session ring credits : Nat)
  /-- STREAM_FRAME_SEND (R353). -/
  | streamFrameSend (ring : Nat)
  /-- INJECT_PARSE (R354). -/
  | injectParse (session port : Nat) (frame : List Byte)
  /-- INJECT_QUEUE (R354). -/
  | injectQueue (session queue : Nat) (frame : List Byte)
  /-- TIME_READ (R297). -/
  | timeRead (session : Nat)
  /-- TIME_SET (R295). -/
  | timeSet (session seconds ns frac : Nat)
  /-- TIME_UNLOCK (R296). -/
  | timeUnlock (session : Nat)
  /-- TIME_LEAP (R297). -/
  | timeLeap (session second action : Nat)
  /-- RESET_REQ_L2 (R356). -/
  | resetReqL2 (session : Nat)
  /-- RESET_REQ_L3 (R356). -/
  | resetReqL3 (session : Nat)
  /-- POWER_ON_RESET (R390). -/
  | powerOnReset (facts : PowerOnFacts)
  /-- RAIL_FAIL (R383). -/
  | railFail (rail : Rail) (pulse : Bool)
  /-- PIN_RESET (R386). -/
  | pinReset (facts : PowerOnFacts)
  /-- HOST_WDOG_EXPIRE (R385). -/
  | hostWdogExpire (facts : PowerOnFacts)
  /-- HOST_WDOG_KICK (R385). -/
  | hostWdogKick (session : Nat)
  /-- HOST_WDOG_PERIOD (R385). -/
  | hostWdogPeriod (session : Nat) (period : W32)
  /-- DEBUG_RESET (R383). -/
  | debugReset (toL2 : Bool) (facts : PowerOnFacts)
  /-- L2_RESET (R388). -/
  | l2Reset (facts : PowerOnFacts)
  /-- L3_RESET (R388). -/
  | l3Reset
  /-- CLOCK_BAD (R393). -/
  | clockBad (clock : Nat) (facts : PowerOnFacts)
  /-- CLOCK_GOOD (R393). -/
  | clockGood (clock : Nat)
  /-- LANE_PLL_UNLOCK (R392). -/
  | lanePllUnlock (half : Nat)
  /-- TIME_REF_LOSS (R393). -/
  | timeRefLoss
  /-- KITTY_SAVE (R399). -/
  | kittySave (trigger : SaveTrigger) (micros : Nat)
  /-- THERMTRIP (R421). -/
  | thermtrip
  /-- TEMP_SAMPLE (R421). -/
  | tempSample (core hbm0 hbm1 hbm2 hbm3 : Byte)
  /-- PEAK_CLEAR (R424). -/
  | peakClear (session : Nat)
  /-- KITTY_MIRROR (R220). -/
  | kittyMirror
  /-- KITTY_SUMMARY (R402). -/
  | kittySummary
  /-- ERROR_LOG_WRITE (R402). -/
  | errorLogWrite (log : ErrLog)
  /-- KEPT_REINSERT (R222). -/
  | keptReinsert
  /-- MAC_FRAME_RECEIVE (R106). -/
  | macFrameReceive (port : Nat) (frame : List Byte) (fin : FrameEnd)
  /-- PFC_RECEIVE (R112). -/
  | pfcReceive (port : Nat) (enable : Byte) (quanta : List (BitVec 16))
  /-- PAUSE_RECEIVE (R112). -/
  | pauseReceive (port : Nat) (quanta : BitVec 16)
  /-- PAUSE_EXPIRE (R112). -/
  | pauseExpire (port cls : Nat)
  /-- FLOW_CONTROL_SEND (R111). -/
  | flowControlSend (port : Nat)
  /-- PFC_REPEAT (R111). -/
  | pfcRepeat (port : Nat)
  /-- LINK_UP (R104). -/
  | linkUp (port : Nat)
  /-- LINK_DOWN (R105). -/
  | linkDown (port : Nat)
  /-- AUTONEG_RESTART (R104). -/
  | autonegRestart (port : Nat)
  /-- LANE_GROUP_START (R115). -/
  | laneGroupStart (group : Nat)
  /-- BRINGUP_GO (R115). -/
  | bringupGo (session : Nat)
  /-- LANE_TEST_WRITE (R116). -/
  | laneTestWrite (session lane : Nat) (value : W64)
  /-- PRBS_INJECT (R116). -/
  | prbsInject (session lane : Nat)
  /-- EYE_SCAN_START (R117). -/
  | eyeScanStart (session lane : Nat) (value : W64)
  /-- EYE_SCAN_DONE (R117). -/
  | eyeScanDone (lane errors : Nat)
  /-- PORT_CTL_WRITE (R114). -/
  | portCtlWrite (session port : Nat) (value : W64)
  /-- MAC_TRANSMIT (R265). -/
  | macTransmit (port : Nat) (underrun : Bool)
  /-- PARSE_TAKE (R120). -/
  | parseTake (hand : Nat)
  /-- WALK_STATE (R122). -/
  | walkState (hand vec : Nat)
  /-- DEFERRED_CHECK (R131). -/
  | deferredCheck (hand vec : Nat)
  /-- SLOW_PATH_ITEM (R136). -/
  | slowPathItem (hand : Nat)
  /-- MICROWORD_ISSUE (R69). -/
  | microwordIssue (dealer : Nat)
  /-- STAGE_HANDOFF (R68). -/
  | stageHandoff (dealer : Nat)
  /-- MATCH_LOOKUP (R147). -/
  | matchLookup (dealer ctx slot : Nat)
  /-- POOL_LOOKUP (R160). -/
  | poolLookup (dealer ctx slot : Nat)
  /-- SHUFFLE_LOOKUP (R167). -/
  | shuffleLookup (dealer ctx : Nat)
  /-- LOOKUP_RESULT (R150). -/
  | lookupResult (dealer ctx slot : Nat) (poison : Bool)
  /-- LOOKUP_TIMEOUT (R87). -/
  | lookupTimeout (dealer ctx slot : Nat)
  /-- WATCHDOG_FIRE (R94). -/
  | watchdogFire (dealer ctx : Nat)
  /-- LOOKUP (R188). -/
  | lookup (dealer ctx suit : Nat)
  /-- LOOKUP_CREATE (R185). -/
  | lookupCreate (dealer ctx suit : Nat) (out : W32)
  /-- LOOKUP_CREATE_SYN (R174). -/
  | lookupCreateSyn (dealer ctx suit : Nat) (out : W32)
  /-- FLOW_OP_READ (R75). -/
  | flowOpRead (dealer ctx : Nat)
  /-- FLOW_OP_WRITE (R174). -/
  | flowOpWrite (dealer ctx suit field : Nat) (out : W32)
  /-- FLOW_OP_ADD (R174). -/
  | flowOpAdd (dealer ctx suit field : Nat) (out : W32)
  /-- FLOW_OP_OR (R174). -/
  | flowOpOr (dealer ctx suit field : Nat) (out : W32)
  /-- FSM_STEP (R200). -/
  | fsmStep (dealer ctx suit : Nat) (out : W32)
  /-- TOUCH (R174). -/
  | touch (dealer ctx suit : Nat)
  /-- FLOW_OP_DELETE (R186). -/
  | flowOpDelete (dealer ctx suit : Nat)
  /-- PIN (R168). -/
  | pin (dealer ctx suit : Nat)
  /-- KEEP_SET (R220). -/
  | keepSet (dealer ctx suit : Nat)
  /-- KEEP_CLEAR (R220). -/
  | keepClear (dealer ctx suit : Nat)
  /-- LOOKUP_INDEX (R175). -/
  | lookupIndex (dealer ctx suit : Nat) (out : W32)
  /-- SCAN (R194). -/
  | scan (dealer ctx suit : Nat)
  /-- FLOW_OP_INSERT (R185). -/
  | flowOpInsert (dealer ctx suit : Nat)
  /-- RELOCATE (R185). -/
  | relocate (dealer ctx suit : Nat)
  /-- WRITEBACK (R182). -/
  | writeback (dealer ctx suit : Nat)
  /-- TASK_POST (R228). -/
  | taskPost (dealer ctx suit field : Nat) (out : W32)
  /-- TASK_CANCEL (R238). -/
  | taskCancel (dealer ctx : Nat) (out : W32)
  /-- FETCH_COMPLETE (R184). -/
  | fetchComplete (line : Nat) (poison : Bool)
  /-- SNAP_FETCH_COMPLETE (R192). -/
  | snapFetchComplete (line : Nat) (poison : Bool)
  /-- STOCK_REENTRY (R236). -/
  | stockReentry (hand : Nat)
  /-- INSERT_WINDOW_ROLL (R193). -/
  | insertWindowRoll (bank : Nat)
  /-- SCAN_TASK_POST (R230). -/
  | scanTaskPost
  /-- MATCH_MOVE (R152). -/
  | matchMove
  /-- MATCH_SCRUB (R155). -/
  | matchScrub (bad : Bool)
  /-- DELAY_LIST_TICK (R232). -/
  | delayListTick (list : Nat)
  /-- TASK_DISPATCH (R234). -/
  | taskDispatch
  /-- LIST_CFG_WRITE (R233). -/
  | listCfgWrite (session list : Nat) (value : W64)
  /-- CELL_CUT (R246). -/
  | cellCut (hand : Nat)
  /-- STAGING_FILL (R247). -/
  | stagingFill (hand : Nat)
  /-- PLANE_MATCH (R248). -/
  | planeMatch (plane : Nat) (hdr : List HdrFault)
  /-- CELL_ARRIVE (R252). -/
  | cellArrive (pot hand : Nat)
  /-- CELL_RELEASE (R252). -/
  | cellRelease (pot hand : Nat)
  /-- RESEQ_TIMEOUT (R253). -/
  | reseqTimeout (pot hand : Nat)
  /-- TM_SELECT (R272). -/
  | tmSelect (pot : Nat)
  /-- SHAPER_CFG (R277). -/
  | shaperCfg (session : Nat) (value : W64)
  /-- QUEUE_CFG_WRITE (R289). -/
  | queueCfgWrite (session queue word : Nat) (value : W64)
  /-- POLICER_CFG_WRITE (R285). -/
  | policerCfgWrite (session policer word : Nat) (value : W64)
  /-- TM_SWEEP (R285). -/
  | tmSweep
  /-- SAMPLE_BOUNDARY (R286). -/
  | sampleBoundary (group : Nat)
  /-- PPS_EDGE (R293). -/
  | ppsEdge (phase : Int)
  /-- TOD_SENTENCE (R293). -/
  | todSentence (sentence : List Byte)
  /-- HOLDOVER_ENTER (R294). -/
  | holdoverEnter
  /-- HOLDOVER_OUT (R294). -/
  | holdoverOut
  /-- LEAP_INSTANT (R298). -/
  | leapInstant
  /-- PPS_OUT_EDGE (R299). -/
  | ppsOutEdge (output : Nat)
  /-- TOD_OUT (R299). -/
  | todOut
  /-- PTP_MESSAGE_DUE (R304). -/
  | ptpMessageDue (port : Nat) (unicast : Option Nat) (announce : Bool)
  /-- TX_STAMP_RETURN (R302). -/
  | txStampReturn (octet : Nat)
  /-- UNICAST_EXPIRY (R307). -/
  | unicastExpiry (entry : Nat)
  /-- LAUNCH_RELEASE (R310). -/
  | launchRelease (queue : Nat)
  /-- GATE_CHANGE (R311). -/
  | gateChange (list : Nat)
  /-- GATE_LIST_START (R312). -/
  | gateListStart (list : Nat)
  /-- HBM_COMMAND_ISSUE (R324). -/
  | hbmCommandIssue (pc : Nat) (err : EccFault)
  /-- HBM_REFRESH (R326). -/
  | hbmRefresh (stack : Nat)
  /-- HBM_SCRUB (R328). -/
  | hbmScrub (stack : Nat) (err : EccFault)
  /-- RETRAIN (R331). -/
  | retrain (session : Nat) (value : W64)
  /-- RETRAIN_DONE (R331). -/
  | retrainDone (lanes : List W64)
  /-- GRAIN_WRITE (R320). -/
  | grainWrite (session : Nat) (second : Bool) (value : W64)
  /-- HBM_HW_CLEAR (R333). -/
  | hbmHwClear (session : Nat)
  /-- CONF_LATCH (R43). -/
  | confLatch (session : Nat)
  /-- NOW_S_LATCH (R318). -/
  | nowSLatch (session : Nat)
  /-- XQ_HW_CLEAR (R29). -/
  | xqHwClear (session : Nat)
  /-- WALK_HW_CLEAR (R142). -/
  | walkHwClear (session : Nat)
  /-- STOCK_HW_CLEAR (R198). -/
  | stockHwClear (session : Nat)
  /-- LEVEL_HW_CLEAR (R242). -/
  | levelHwClear (session level : Nat)
  /-- VKEY_COMMIT (R341). -/
  | vkeyCommit (session slot level : Nat)
  /-- VKEY_CLEAR (R341). -/
  | vkeyClear (session slot : Nat)
  /-- COUNTER_WRITE (R369). -/
  | counterWrite (session addr : Nat) (value : W64)
  /-- REGISTER_WRITE (R7). -/
  | registerWrite (session addr : Nat) (value : W64)
  /-- RING_ITEM_WRITE (R261). -/
  | ringItemWrite (ring : Nat) (item : List Byte)
  /-- EXPORT_PERIOD (R371). -/
  | exportPeriod
  /-- PACKET_SAMPLE (R372). -/
  | packetSample (hand : Nat)
  /-- DUMP_CAPTURE (R373). -/
  | dumpCapture (engine : Nat)
  /-- CONTROL_LINK_UP (R118). -/
  | controlLinkUp (cp : Nat)
  /-- CONTROL_LINK_DOWN (R118). -/
  | controlLinkDown (cp : Nat)
  /-- TIME_REF_RETURN (R393). -/
  | timeRefReturn
deriving DecidableEq, Repr

end Sys2Proof
end

