-- ==== Sys2Proof/Machine/State.lean ====
section
/-!
DEFINITION. The state of the LY5120 as plain data: every register (by address), every table, buffer, queue and
sequencer the spec names, and the queue of waiting commands. Registers whose value is a function of the typed
fields below (status fields, windows) are computed by Machine/Derived.lean and are not stored twice.
The spec's rule for each field is named in its docstring.
Log entries: 2, 5, 6.
-/

namespace Sys2Proof.Machine

open Sys2Proof

/-- Byte memory: pairs with strictly rising addresses and no pair equal to what an unlisted address reads as (0x00). -/
abbrev Mem := List Host.Cell

/-- Reasons to stop. No command of this model faults: every failure the spec describes is a status code, a counter,
a log or a reset, and is a next state. The one constructor is never raised. -/
inductive Fault
  /-- Raised by nobody; kept so that the type has a name for a stop. Safe: no step answers it. -/
  | never
deriving DecidableEq, Repr

/-- Refusals. -/
inductive Refusal
  /-- A command without a meaning in this model. Safe: nothing is proved of it. -/
  | notModelled (mnemonic : String)
deriving DecidableEq, Repr

/-! ## What leaves the part -/

/-- A Zatas transaction as a frame carries it (R337). -/
structure Txn where
  op   : Nat
  tag  : Nat
  addr : Nat
  data : List Byte
deriving DecidableEq, Repr

/-- A completed transaction: the STATUS of Table 15.6 and the response data of Table 15.7. -/
structure TxnRes where
  op     : Nat
  tag    : Nat
  status : Nat
  addr   : Nat
  data   : List Byte
deriving DecidableEq, Repr

/-- What has left the part. -/
inductive Out
  /-- A frame at a data port's MDI with its FCS as sent; `stomped` when the FCS is inverted (R264). -/
  | frame (port : Nat) (bytes : List Byte) (stomped : Bool)
  /-- A flow-control frame: its port and source address, the PFC class enables (none for PAUSE), and the quanta, eight
  for PFC and one for PAUSE (R111). -/
  | flowControl (port src : Nat) (classes : Option Byte) (quanta : List Nat)
  /-- A frame at a control port (R334). -/
  | control (cp : Nat) (bytes : List Byte)
  /-- The outcome of a transaction that was given as a command of its own. -/
  | response (session : Nat) (res : TxnRes)
  /-- A 1PPS pulse: its output, and how many ns it stays high (R299). -/
  | pps (output width : Nat)
  /-- A ToD sentence (R299). -/
  | tod (sentence : List Byte)
  /-- THERMTRIP_N asserted (R421). -/
  | thermtrip
  /-- The core voltage target in mV, written to the VDD_CORE regulator over AVSBus (R410). -/
  | avsTarget (mv : Nat)
deriving DecidableEq, Repr

/-! ## Deck, epochs, contract (R31 to R66) -/

/-- DECK.STATUS.STATE, Table 3.7. -/
inductive DeckPhase
  | empty | loading | active | hotPending | retiring | redealing
deriving DecidableEq, Repr

/-- DECK.FAIL, Table 3.12. -/
structure FailRec where
  code     : Nat
  segIndex : Nat
  segType  : Nat
  detail   : Nat
  source   : Nat
deriving DecidableEq, Repr

/-- A hot load that waits for its switch (R61). -/
structure HotLoad where
  session : Nat
  source  : Nat
  number  : Nat
  deckId  : Nat
deriving DecidableEq, Repr

structure Deck where
  phase        : DeckPhase
  stagedOk     : Bool
  source       : Nat
  upperActive  : Bool
  fallback     : Bool
  failSticky   : Bool
  commits      : Nat
  deckId       : Nat
  number       : Nat
  current      : Bool
  retiring     : Bool
  switchClk    : Nat
  inflight0    : Nat
  inflight1    : Nat
  held0        : Nat
  held1        : Nat
  fail         : FailRec
  owner        : Option Nat
  hot          : Option HotLoad
  /-- DECK.CONTRACT fields that are not fixed by the code: ACTIVE, GEOMETRY, TABLE_CLEARED (Table 2.4). -/
  contract     : Nat
  geometry     : Nat
  tableCleared : Bool
  /-- A deck has been applied since the last L1 or L2 (R59, R320). -/
  dealt        : Bool
  /-- clk at which the present deck was applied (start window, R193). -/
  appliedClk   : Nat
deriving DecidableEq, Repr

/-! ## Packets -/

/-- A check met before the frame's end had arrived (R131). -/
inductive DefChk
  /-- `lim`: where the packet of an enclosing IP header ends (R130). -/
  | eth (value hdrEnd lim : Nat)
  | ip (reason need start lim : Nat)
deriving DecidableEq, Repr

/-- A parse walk (R121 to R125, R140). -/
structure Walk where
  unit     : Bool
  done     : Bool
  accepted : Bool
  excepted : Bool
  /-- The reason code the walker set. -/
  reason   : Nat
  state    : Nat
  p        : Nat
  base     : Nat
  trans    : Nat
  heads    : List Nat
  /-- Start and L3_LEN of the last IP header, until the header that follows it is entered (R128). -/
  ip       : Option (Nat × Nat)
  /-- An IP header precedes in this pass. -/
  ipSeen   : Bool
  /-- Start and L3_LEN of the last IP header entered (R285). -/
  lastIp   : Option (Nat × Nat)
  deferred : List DefChk
deriving DecidableEq, Repr

/-- One packet vector and the frame it describes (R14, R15, Table 6.9, R138). -/
structure Pkt where
  cv      : List Byte
  kv      : List Byte
  frame   : List Byte
  port    : Nat
  /-- The frame's last byte has arrived. -/
  ended   : Bool
  /-- What the FCS and the MAC say of the frame once it has ended. -/
  bad     : Bool
  walk    : Walk
  /-- Rate-buffer entries the frame holds, and its class (R110); 0 for an injected frame. -/
  entries : Nat
  cls     : Nat
  rxTime  : Nat
  /-- Egress: the global queue the frame came from, and the timebase at its enqueue (R300). -/
  queue   : Nat
  enqTime : Nat
  cut     : Bool
  /-- The 8,192-bit range vector, made at the hand-off to KEY (R157), bit `k` for comparator `k`. -/
  ranges  : Nat
  /-- clk of the hand-off to KEY, once it has happened. -/
  rangeClk : Option Nat
  /-- EDIT operations 8 to 10, for the MAC: op, OFFSET, value. -/
  macEd   : List (Nat × Nat × W32)
deriving DecidableEq, Repr

/-- A frame in a rate buffer, or delivered by INJECT, that PARSE has not taken (R120). -/
structure RbFrame where
  port    : Nat
  frame   : List Byte
  fin     : FrameEnd
  cls     : Nat
  entries : Nat
  rxTime  : Nat
  /-- The session whose INJECT delivered it. -/
  inject  : Option Nat
  /-- clk in which it became eligible (R120). -/
  clk     : Nat
deriving DecidableEq, Repr

/-! ## Dealers and tricks (R67 to R96) -/

/-- An outstanding lookup of a result slot (R74, R150): 0 match, 1 pool, 2 shuffle; its result once compared, with poison. -/
structure Look where
  kind   : Nat
  table  : Nat
  key    : List Byte
  issued : Nat
  result : Option (W64 × Bool)
deriving DecidableEq, Repr

/-- A task body (Table 10.3). -/
structure TaskBody where
  args    : List W32
  suit    : Option Nat
  succ    : Option Nat
  routine : Nat
  list    : Nat
  urgent  : Bool
  level   : Nat
  delay   : Nat
  origin  : Nat
deriving DecidableEq, Repr

/-- A held effect of a routine (Table 14.4 of 04, R84 to R86). -/
inductive Effect
  /-- op 5 WRITE, 6 ADD, 7 OR of a record word. -/
  | word (op field : Nat) (value : W32)
  | create (syn : Bool) (fsmId age : Nat)
  | fsm (next age : Option Nat)
  | touch
  | delete
  | pin (table index : Nat) (value : W32)
  | keep (on : Bool)
  | insert
  | relocate
  | writeback
  | post (handle : Nat) (body : TaskBody)
  | cancel (handle : Nat)
  | bump (k : Nat)
  | sample
  | launch
  | metaW (target : Nat) (value : W32)
  | edit (op offset : Nat) (value : W32)
  | pvset (offset : Nat) (value : W32)
  | queue (value : W32)
  /-- The queue choice of QSEL 1 or 2: its shuffle result once returned, and whether it may still write the queue and
  the egress port, which a write logged later takes from it (R76, R86). -/
  | qsel (res : Option W32) (queue port : Bool)
  | recirc
  | drop
  | exc
deriving DecidableEq, Repr

/-- Where the record a trick has latched stands; `gather`: no record, but the PENDING line of this digest gathers what
SNAP let through (R192). -/
inductive RecAt
  | line (n : Nat)
  | index (n : Nat)
  | gather (line digest : Nat)
deriving DecidableEq, Repr

/-- A logged effect, with the record that was latched when it was logged (R86). -/
structure Logged where
  eff : Effect
  at_ : Option RecAt
deriving DecidableEq, Repr

/-- What a routine sees of the flow unit: the latched image, FLOW_NEW, the FIELD 63 position, and the trick flags. -/
structure FlowView where
  image   : Option (List W32)
  flowNew : Bool
  fsmRes  : W32
  tf      : Byte
deriving DecidableEq, Repr

structure FlowDue where
  at_   : Nat
  waits : Bool
  view  : FlowView
deriving DecidableEq, Repr

/-- What suspends a trick (R69, R188). -/
inductive WaitOn
  /-- Waits to take a suit for flow operation `op` with this OUT. -/
  | suit (n op : Nat) (out : W32)
  /-- Waits in its context for a fetch, after COMMIT. -/
  | fetch (line op : Nat) (out : W32)
  /-- Has its suit or its fetch: the flow operation completes at the dealer's next issue. -/
  | woken (op : Nat) (out : W32)
  /-- Not a routine: a host FLOW task that waits RUNNING in its context for a suit (R235). -/
  | host (n : Nat)
  /-- A host TABLE INSERT whose task runs until the match unit has made its move (R22, R152). -/
  | unit
deriving DecidableEq, Repr

/-- A trick context (Table 4.2) with its result slots and pending log. -/
structure Trick where
  pkt       : Nat
  task      : Option Nat
  g         : List W32
  addr      : Nat
  tf        : Byte
  z         : Bool
  n         : Bool
  c         : Bool
  v         : Bool
  ls        : List W64
  pend      : KMap Look
  pos       : List Nat
  committed : Bool
  /-- clk of its COMMIT (R125). -/
  commitClk : Nat
  slot      : Bool
  avfen     : Bool
  routine   : Nat
  restarts  : Nat
  /-- Number of this attempt (R88). -/
  attempt   : Nat
  preempted : Bool
  /-- Entered by preemption 0, restarted after preemption 1, otherwise 2 (R69). -/
  rank      : Nat
  age       : Nat
  readyAt   : Nat
  entryClk  : Nat
  wait      : Option WaitOn
  /-- The result slot whose lookup MATCH.WAIT waits for (R74). -/
  mwait     : Option Nat
  ended     : Bool
  log       : List Logged
  image     : Option (List W32)
  recAt     : Option RecAt
  flowNew   : Bool
  suit      : Option Nat
  /-- Suits it held before it took the present one, not released before COMMIT (Table 4.14). -/
  more      : List Nat
  fsmRes    : W32
  /-- A flow result on its way: its clk, whether FLOW.WAIT waits for it, and what the routine sees until then (R71, R75). -/
  flowDue   : Option FlowDue
  /-- FSM_ID and AGE_CLASS of the create that FLOW_NEW stands for (R200). -/
  created   : Option (Nat × Nat)
  /-- Carried-half bytes that its own applied effects have changed: offset ↦ changed bits, value at entry (R85). -/
  undo      : KMap (Nat × Nat)
  /-- The scan cursor as this attempt has moved it (R84, R194). -/
  scanPos   : Option Nat
  shuf      : Option (Nat × Nat × W32)
  cursor    : Nat
  reentry   : Bool
  poison    : Bool
  recirc    : Bool
  drop      : Bool
  exc       : Bool
  sample    : Bool
  bumps     : List Nat
  counterBase : Nat
  pclass    : Nat
  posted    : List Nat
  /-- A RELEASE operation has been issued: the suit is released once COMMIT has passed (R75). -/
  releaseAt : Bool
  /-- The stage has settled the ended trick: what becomes of its packet (0: it goes on). -/
  settled   : Option Nat
  /-- The policer's colour at ACT entry (R212). -/
  pol       : Nat
  /-- Microwords of the present attempt: address, CLASS, slot-clocks, bubble (R377). -/
  spent     : List (Nat × Nat × Nat × Bool)
  /-- The queue last written through META target 3 in this run (R76). -/
  metaQ     : Option W32
deriving DecidableEq, Repr

/-! ## Flow cache, suits, stock (R178 to R198) -/

/-- LSTATE of Table 8.6. -/
inductive LState
  | free | record | pending | absent
deriving DecidableEq, Repr

/-- A cache line (Table 8.6). `words` holds the record's words; a record line keeps them whole so that a
PROVISIONAL record, which has no place in HBM yet, loses none (R185). -/
structure Line where
  digest      : Nat
  index       : Nat
  lstate      : LState
  dirty       : Bool
  provisional : Bool
  words       : List W32
  /-- The key whose fetch is pending, or of an ABSENT or PROVISIONAL line. -/
  key         : List Byte
  hint        : Option Nat
  /-- SNAP: the first create image gathered, and the summed TOUCH effects: packets, bytes, flags (R192). -/
  gathered    : Option (List W32)
  touches     : Nat × Nat × Nat
deriving DecidableEq, Repr

/-- Who holds a suit (R188). -/
inductive Holder
  | trick (dealer ctx : Nat)
  | task (handle : Nat)
  | chain
deriving DecidableEq, Repr

/-- A suit: its holder, the tricks and tasks that wait for it in arrival order, and the stock slots chained to it. -/
structure Suit where
  holder  : Option Holder
  waiters : List Holder
  chain   : List Nat
deriving DecidableEq, Repr

/-- A stock slot (R15, R189). -/
structure Parked where
  pkt     : Pkt
  hand    : Nat
  routine : Nat
  suit    : Nat
  head    : Bool
  /-- Restarts in a row so far, and whether the fetch it waited for came back poisoned (R327, R89). -/
  restarts : Nat
  poison  : Bool
  /-- Watchdog clocks used before it parked (R94). -/
  wd      : Nat
deriving DecidableEq, Repr

/-! ## Task scheduler (R224 to R242) -/

/-- Table 10.2. -/
inductive TState
  | free | reserved | delayed | waiting | ready | suitWait | running
deriving DecidableEq, Repr

/-- What the part or the host posted a task for (Table 10.4). -/
inductive TaskKind
  | micro
  | host (wait : Nat)
  | insert (line : Nat)
  | scan (next last : Nat)
  | exporting
  | reentry
deriving DecidableEq, Repr

/-- A post of the part that found the pool empty, until the next tick of its list (R230): the next scan task, the
periodic export, a ring's threshold export, an engine's dump, the mirroring of records, the kitty's summary. -/
inductive HeldPost
  | scan
  | period
  | ring (r : Nat)
  | dump (e : Nat)
  | mirror
  | summary
deriving DecidableEq, Repr

/-- A task entry (Table 10.1) with its body. -/
structure Task where
  state   : TState
  count   : Nat
  level   : Nat
  list    : Nat
  urgent  : Bool
  hand    : Nat
  stock   : Nat
  expiry  : Nat
  delayed : Bool
  order   : Nat
  /-- clk in which the entry became READY (R239), and its place within that clk: the list it expired on, 16 a decrement,
  17 a post (R232). -/
  readyClk : Nat
  via      : Nat
  body    : TaskBody
  kind    : TaskKind
deriving DecidableEq, Repr

/-! ## Match unit (R143 to R155) -/

structure Row where
  value  : Nat
  mask   : Nat
  trump  : Nat
  result : Nat
  v0     : Bool
  v1     : Bool
deriving DecidableEq, Repr

/-- An INSERT that waits for the unit, or runs (R152): the free row still to be filled moves toward `at_`. -/
structure Move where
  wait  : Nat
  table : Nat
  at_   : Nat
  hole  : Option Nat
  row   : Row
deriving DecidableEq, Repr

/-! ## Fabric and pots (R243 to R270) -/

/-- A segment of a cell header (Table 11.2). -/
structure Seg where
  stop  : Nat
  start : Bool
  last  : Bool
  bad   : Bool
  epoch : Bool
deriving DecidableEq, Repr

structure Cell where
  src     : Nat
  dst     : Nat
  seq     : Nat
  segs    : List Seg
  payload : List Byte
  /-- Order in which open cells were begun (R247). -/
  age     : Nat
  /-- It has closed and waits for a place in the cut queue (R246). -/
  closed  : Bool
deriving DecidableEq, Repr

/-- A frame that SEND is cutting (R243): its packet and pot, whether its header is cut, and the edited bytes not yet
appended. -/
structure SendItem where
  vec     : Nat
  pot     : Nat
  started : Bool
  stream  : List Byte
deriving DecidableEq, Repr

/-- The credits and next SEQ of a hand and pot (R247, R251). -/
structure Pair where
  seq     : Nat
  credits : Nat
deriving DecidableEq, Repr

/-- The frame of a pair that a pot is receiving: its queue and number, or discarded. -/
inductive Recv
  | none
  | into (queue frame : Nat)
  | discard
deriving DecidableEq, Repr

/-- A resequencer pair (Table 11.14). -/
structure Reseq where
  expect : Nat
  held   : List Cell
  recv   : Recv
deriving DecidableEq, Repr

/-- A frame in a pot queue: its frame header (Table 11.1), its bytes so far, whether it is visible, whole, started. -/
structure PotFrame where
  id       : Nat
  hdr      : List Byte
  bytes    : List Byte
  slot     : Bool
  whole    : Bool
  bad      : Bool
  visible  : Bool
  cut      : Bool
  started  : Bool
  /-- The pot cells it stands in, in order (R254). -/
  cells    : List Nat
  enqTime  : Nat
  relClk   : Nat
  gateHeld : Bool
  launched : Bool
  /-- Edits at the MAC that a generated message brings with it (R306). -/
  macEd    : List (Nat × Nat × W32)
  /-- clk from which the traffic manager can select it (R275). -/
  fromClk  : Nat
  /-- A word of it carries a poison tag (R262). -/
  poison   : Bool
deriving DecidableEq, Repr

/-- The turn of a group at its port (R274). -/
structure GroupTurn where
  deficit : Int
  turn    : Bool
  /-- It has not stayed eligible: its turn passes on. -/
  lost    : Bool
deriving DecidableEq, Repr

/-- A shaper (R276): TOKENS in 25ths of 2^-16 byte, and the clk to which it is up to date. -/
structure Shaper where
  tokens : Int
  at_    : Nat
deriving DecidableEq, Repr

/-- Sampling figures of a queue (R286). -/
structure QSample where
  minDepth   : Nat
  maxDepth   : Nat
  maxSojourn : Nat
  frames     : Nat
deriving DecidableEq, Repr

structure PQueue where
  frames  : List PotFrame
  avg     : Nat
  deficit : Int
  turn    : Bool
  /-- It has not stayed eligible: its turn passes on (R274). -/
  lost    : Bool
  sample  : QSample
deriving DecidableEq, Repr

/-- A frame at the MAC (R265): the frame as FINISH leaves it, its edits at the MAC, and what it is charged to. -/
structure TxFrame where
  pkt   : Pkt
  edits : List (Nat × Nat × W32)
  stomp : Bool
  frame : Nat
deriving DecidableEq, Repr

/-- A transmit stamp on its way back (R302): its class, its time in 2^-16 ns, the frame's scratch word and bytes. -/
structure TxStamp where
  port    : Nat
  cls     : Nat
  time    : Nat
  scratch : W32
  frame   : List Byte
deriving DecidableEq, Repr

structure PortState where
  up       : Bool
  anState  : Nat
  /-- Quanta left per paused class (R112), and the classes held off (R111). -/
  paused   : KMap Nat
  xoff     : Byte
  txq      : List TxFrame
  stamps   : List TxStamp
  /-- The gate state presented to the traffic manager (R278). -/
  gates    : Byte
deriving DecidableEq, Repr

/-! ## Time unit (R290 to R318) -/

inductive TimeSt
  | freeRun | acquiring | locked | holdover | holdoverOut | hostSet
deriving DecidableEq, Repr

/-- What a gate list is made of (R314): its port, BASE in ns, CYCLE, and the gate byte and interval of each entry. -/
structure GateList where
  port    : Nat
  base    : Nat
  cycle   : Nat
  entries : List (Nat × Nat)
deriving DecidableEq, Repr

/-- An activated gate list with its content at activation (R312): the timebase ns at which it starts, and whether it
has started. -/
structure GateRun where
  list    : Nat
  what    : GateList
  start   : Nat
  running : Bool
  entry   : Nat
  cycle   : Nat
deriving DecidableEq, Repr

/-- A message of the PTP generator that waits to be sent (R308): an Announce or a Sync that is due, to an entry of the
unicast table or to the group; the Follow_Up of a Sync whose stamp has returned. -/
inductive GenMsg
  | due (port : Nat) (unicast : Option Nat) (announce : Bool)
  | followUp (stamp : TxStamp)
deriving DecidableEq, Repr

structure TimeUnit where
  /-- The timebase in units of 2^-48 ns (R290). -/
  base     : Nat
  /-- Sixteenths of a CK_TIME clock passed since its last edge; one clk is five of them. -/
  phase16  : Nat
  rate     : Int
  state    : TimeSt
  cameFrom : TimeSt
  valid    : Bool
  steppedBy : Nat
  unlocked : Bool
  ppsOk    : Bool
  refOk    : Bool
  alarm    : Bool
  holdFrom : Nat
  integral : Int
  run      : Nat
  /-- The last 1PPS edge in 2^-8 ns of the timebase, and whether it passed its interval test and waits for a sentence. -/
  lastEdge : Option Int
  waitTod  : Bool
  lastUtc  : Option Nat
  tod      : Option Nat
  /-- The sentence that should label the next edge was bad, and has been counted (R293). -/
  todBad   : Bool
  edgeRef  : Nat
  phase    : Int
  utcOff   : Int
  pending  : Nat
  leapAt   : Nat
  gates    : List GateRun
  lateList : Nat
  late     : Bool
  seqIds   : KMap (Nat × Nat × Nat)
  /-- The second whose edge each 1PPS output gave last (R299). -/
  ppsSec   : KMap Int
  /-- When each stream of generated messages was last due, in ns of the timebase (R304, R307). -/
  msgAt    : KMap Nat
  /-- clk from which the generator may send again, and the messages that wait for it (R308). -/
  genNext  : Nat
  genDue   : List GenMsg
deriving DecidableEq, Repr

/-! ## HBM controller (R319 to R333) -/

/-- A request that stands in a bank queue: `len` bytes at window offset `addr`; the line of the cache it reads tags for
(2^22 and up: none); when it came, and its place in the order of its stack; its data has moved. -/
structure HbmReq where
  source : Nat
  addr   : Nat
  len    : Nat
  line   : Nat
  clk    : Nat
  seq    : Nat
  done   : Bool
deriving DecidableEq, Repr

/-- Tag sectors that a fetch has read: where, the bytes, and whether one was poisoned. -/
structure TagRead where
  addr  : Nat
  bytes : List Byte
  bad   : Bool
deriving DecidableEq, Repr

structure Hbm where
  trained     : Nat
  trainFail   : Nat
  retrain     : Option Nat
  retrainFail : Nat
  /-- clk at which training ended (R326), and the clks at which the stacks last began a refresh. -/
  epoch       : Option Nat
  refAt       : KMap Nat
  /-- Waiting requests by pseudo-channel × 48 + bank; the bank each pseudo-channel last served. -/
  reqs        : KMap (List HbmReq)
  /-- Requests queued so far; the tag sectors read for the PENDING lines, by line. -/
  seq         : Nat
  tags        : KMap (List TagRead)
  lastBank    : KMap Nat
  columns     : KMap Nat
  poison      : List Nat
  scrub       : KMap Nat
  errSector   : Nat
  errSource   : Nat
  errValid    : Bool
  high        : KMap Nat
deriving DecidableEq, Repr

/-! ## Control ports and sessions (R334 to R361) -/

/-- Where a control frame came from: port, source MAC, tag bytes, and under UDP the addresses and ports (R334). -/
structure Encap where
  cp   : Nat
  mac  : List Byte
  vlan : List Byte
  ip   : Option (List Byte × List Byte × Nat × Nat)
deriving DecidableEq, Repr

/-- What a transaction waits for. -/
inductive WaitFor
  /-- A hot commit: its switch (R61). -/
  | hot
  /-- A fold: its targets read folded; what a forced fold has discarded for it (R396). -/
  | fold (block unit : Nat) (all forced : Bool) (count : Nat)
  /-- A match INSERT: its move (R152). -/
  | matchMove
  /-- A host TABLE or FLOW task: its end (R350, R351). -/
  | hostTask
  /-- An UNSUBSCRIBE: the end of the item partly sent (R353). -/
  | unsub (ring : Nat)
  /-- An INJECT: a PARSE that takes frames, or the pipeline's release (R354, R358). -/
  | inject
  /-- A redeal or a RESET_REQ for L3: the pipeline's release (R59, R356). -/
  | release
deriving DecidableEq, Repr

/-- A transaction that has begun and not completed (R346); `direct` when it was given as a command of its own. -/
structure Waiting where
  session : Nat
  direct  : Bool
  txn     : Txn
  what    : WaitFor
deriving DecidableEq, Repr

/-- A request frame being executed (R346). -/
structure Exec where
  seq   : Nat
  enc   : Encap
  flags : Nat
  done  : List TxnRes
  rest  : List Txn
  wait  : Option Nat
deriving DecidableEq, Repr

structure Req where
  enc   : Encap
  flags : Nat
  txns  : List Txn
deriving DecidableEq, Repr

/-- Table 15.4. -/
inductive SessSt
  | free | challenged | opened
deriving DecidableEq, Repr

structure Session where
  state   : SessSt
  level   : Nat
  slot    : Nat
  enc     : Encap
  next    : Nat
  hack    : Nat
  sack    : Nat
  stream  : Nat
  np      : List Byte
  ks      : List Byte
  order   : Nat
  lastClk : Nat
  /-- Frames received and not executed, by SEQ (R343). -/
  rx      : KMap Req
  /-- Responses kept for retransmission, by SEQ (R344). -/
  kept    : KMap (List Byte)
  exec    : Option Exec
  ackDue  : Bool
deriving DecidableEq, Repr

structure Zat where
  link0    : Bool
  link1    : Bool
  sessions : KMap Session
  vkeys    : KMap KeySlot
  staged   : KMap (List Byte)
  nextOrd  : Nat
  waits    : KMap Waiting
  nextWait : Nat
deriving DecidableEq, Repr

/-! ## Rings and dumps (R261, R370 to R374) -/

/-- A slot of a LENGTH_SLOT ring behind one that holds no length yet: its reservation, and its item and poison mark once
the item has ended (R260). -/
structure RingSlot where
  ticket : Nat
  item   : Option (List Byte × Bool)
deriving DecidableEq, Repr

structure Ring where
  items   : List (List Byte × Bool)
  head    : Nat
  tail    : Nat
  reader  : Option Nat
  exc     : Bool
  credits : Nat
  /-- Bytes of the head item already sent (R353). -/
  part    : Nat
  armed   : Bool
  slots   : List RingSlot
deriving DecidableEq, Repr

structure Dump where
  seq     : Nat
  slot    : Nat
  headers : Bool
  skipped : Bool
deriving DecidableEq, Repr

/-- An item that waits for its frame's last byte: a slow-path item of a reason (R136), or a packet sample of a
stage (R372), with the packet as it stood when the routine ended. -/
structure LateItem where
  hand   : Nat
  ring   : Nat
  snap   : Nat
  slowp  : Bool
  /-- SOURCE of Table 6.8, or the stage code of a sample. -/
  source : Nat
  reason : Nat
  pkt    : Pkt
  /-- Its reservation in a LENGTH_SLOT ring. -/
  ticket : Option Nat
deriving DecidableEq, Repr

/-! ## Reset, power, kitty (R383 to R407, R421) -/

/-- RST.FOLD codes (Table 17.15). -/
inductive FoldSt
  | open_ | folding | folded
deriving DecidableEq, Repr

structure Rst where
  /-- RST.SEQ.STEP, Table 17.4; 15 = done. -/
  step      : Nat
  halted    : Bool
  trimRetry : Bool
  startClk  : Nat
  elapsed   : Nat
  cause     : Byte
  lastLevel : Nat
  lastSrc   : Nat
  lastTime  : Nat
  strap     : Nat
  good      : Nat
  failed    : Nat
  wdogClk   : Nat
  l2Due     : Bool
  foldIntake : KMap FoldSt
  foldPot   : KMap FoldSt
  foldFlow  : FoldSt
  avsAcked  : Bool
  avsFail   : Bool
  tripped   : Bool
  groups    : Nat
  groupsDue : List Nat
  goHeld    : Bool
  /-- clk at which the running L3 releases the pipeline (Table 2.3). -/
  heldTill  : Nat
deriving DecidableEq, Repr

structure Keep where
  /-- The record each kitty slot mirrors (R220). -/
  slots    : KMap Nat
  queue    : List Nat
  restore  : Nat
  armed    : Bool
  imageB   : Bool
  seq      : Nat
  restored : Nat
  skipped  : Bool
  /-- Restored or kept records that await re-insertion (R222). -/
  due      : Bool
deriving DecidableEq, Repr

/-! ## Observation (R43, R365) -/

/-- The CONF interval counts (Tables 2.11, 2.12). -/
structure Conf where
  maxNs : Nat
  minNs : Nat
  overs  : Nat
  qual  : Nat
  hit   : Nat
  miss  : Nat
  rmw   : Nat
  /-- Timebase ns at which the interval began. -/
  since : Nat
  /-- Frames on their way that took a flow-cache hit, by ingress port and RX_TS (R41). -/
  hot   : List Nat
deriving DecidableEq, Repr

/-! ## The whole part -/

structure State where
  /-- Waiting commands, first in first out. -/
  pending : List Instr
  /-- CK_CORE clocks since the model began. -/
  clk     : Nat
  /-- Free values drawn so far: the model's own counter. -/
  fresh   : Nat
  /-- What has left the part. -/
  sent    : List Out
  /-- Stored register words by address; an absent one reads its reset or deck value (R5, R10). -/
  regs    : KMap W64
  /-- W1C bits that the part set, by address: the clk of the latest set and the bits set in it (R9). -/
  sets    : KMap (Nat × Nat)
  /-- RS latches of groups CONF and TIME (R8). -/
  latchConf : List W64
  latchTime : List W64
  conf    : Conf
  snapSeq : KMap Nat
  fuses   : Fuses
  rst     : Rst
  keep    : Keep
  kitty   : Mem
  mram    : Mem
  flash   : Mem
  hbm     : Mem
  hbmc    : Hbm
  deck    : Deck
  /-- Cold segment bodies of the applied deck, and the hot bodies of the two epoch slots, by segment type (R47, R61). -/
  cold    : KMap (List Byte)
  hot0    : KMap (List Byte)
  hot1    : KMap (List Byte)
  rows    : KMap Row
  moves   : List Move
  scrubRow : Nat
  pool    : Mem
  /-- INDEX entries written since the pool was cleared: byte address of the entry (R161). -/
  poolSet : List Nat
  /-- Flow seeds and digest key in use: SEED_A, SEED_B, SEED_C, DKEY (R176, Table 8.8). -/
  seeds   : List Nat
  /-- The seeds and the key drawn at the latest L1 or L2, for a deck with RANDOM (Table 8.4). -/
  drawn   : List Nat
  lines   : KMap Line
  suits   : KMap Suit
  windows : KMap (Nat × Nat)
  stock   : KMap Parked
  tasks   : KMap Task
  listNow : KMap Nat
  /-- A TICK written and not yet in effect (R233). -/
  tickNew : KMap Nat
  order   : Nat
  scanAt  : Nat
  scanRem : Nat
  tricks  : KMap Trick
  pkts    : KMap Pkt
  rb      : KMap (List RbFrame)
  occ     : KMap Nat
  recircq : KMap (List Nat)
  /-- Slot-clocks of PARSE given to recirculated passes: their clks, by hand (R18). -/
  takes   : KMap (List Nat)
  admits  : KMap (List Nat)
  walkHw  : KMap Nat
  buckets : KMap (Nat × Nat)
  late    : List LateItem
  opens   : KMap Cell
  cutq    : KMap (List Cell)
  staged  : KMap (List Cell)
  sendq   : KMap (List SendItem)
  pairs   : KMap Pair
  grantp  : KMap Nat
  acceptp : KMap Nat
  crossing : KMap (List Cell)
  reseq   : KMap Reseq
  queues  : KMap PQueue
  holds   : KMap Byte
  frameNo : Nat
  shapers : KMap Shaper
  grpDef  : KMap GroupTurn
  policers : KMap (Nat × Nat × Nat)
  ports   : KMap PortState
  potTurn : KMap Nat
  laneTest : KMap W64
  time    : TimeUnit
  zat     : Zat
  rings   : KMap Ring
  dumps   : KMap Dump
  temps   : List Byte
  peak    : Byte
  tempOk  : Bool
  high    : KMap Nat
  /-- Dealer performance (R377 to R379): CLOCKS and FRONT as last set and slot-clocks not FRONT since, by dealer × 16
  + account, and events counted toward samples; the clks at which they were set, and of the last sample; the clk of
  the last L1 or L2. -/
  perfCnt : KMap Nat
  perfLast : KMap Nat
  perfAt  : Nat
  /-- Tricks abandoned to a time-triggered arrival, by dealer, oldest first (R91). -/
  displaced : KMap (List Trick)
  /-- Lookups accepted in a clk, by hand and port kind (R150). -/
  lports  : KMap (Nat × Nat)
  /-- Issue slots a dealer has given to microwords of more than one clk: the clks at which they are free (R69). -/
  slots   : KMap (List Nat)
  /-- The 15 pseudo-LRU bits of each cache set (R182), and the clk of the last record write applied in it (R33). -/
  plru    : KMap Nat
  setWrote : KMap Nat
  /-- Entries of the other crossing queues that passed in this clk, by index of Table 1.10 (R28). -/
  xq      : KMap (List (List Byte))
  /-- Entries of the core time queue: gate changes on their way to the traffic manager, port and gate byte (R28). -/
  coreTime : List (Nat × Nat)
  /-- Posts of the part that found the pool empty; retried at the next tick of their list (R230). -/
  postHeld : List HeldPost
  /-- clk of the last task dispatch (R234), and the clk until which each delay list's mover is busy (R232). -/
  lastDisp : Option Nat
  moverAt : KMap Nat
deriving DecidableEq, Repr

/-- The encapsulation of a session that has heard nothing. -/
def Encap.none : Encap := ⟨0, [], [], Option.none⟩

/-- FAIL reads no failure, not tied to a segment (Table 3.12). -/
def FailRec.none : FailRec := ⟨0, 0xFF, 0, 0, 0⟩

def Deck.reset : Deck where
  phase := .empty
  stagedOk := false
  source := 0
  upperActive := false
  fallback := false
  failSticky := false
  commits := 0
  deckId := 0
  number := 0
  current := false
  retiring := false
  switchClk := 0
  inflight0 := 0
  inflight1 := 0
  held0 := 0
  held1 := 0
  fail := FailRec.none
  owner := none
  hot := none
  contract := 0
  geometry := 0
  tableCleared := false
  dealt := false
  appliedClk := 0

def TimeUnit.reset : TimeUnit where
  base := 0
  phase16 := 0
  rate := 0
  state := .freeRun
  cameFrom := .freeRun
  valid := false
  steppedBy := 0
  unlocked := false
  ppsOk := false
  refOk := false
  alarm := false
  holdFrom := 0
  integral := 0
  run := 0
  lastEdge := none
  waitTod := false
  lastUtc := none
  tod := none
  todBad := false
  edgeRef := 0
  phase := 0
  utcOff := 0
  pending := 0
  leapAt := 0
  gates := []
  lateList := 0
  late := false
  seqIds := []
  ppsSec := []
  msgAt := []
  genNext := 0
  genDue := []

def Hbm.reset : Hbm where
  trained := 0
  trainFail := 0
  retrain := none
  retrainFail := 0
  epoch := none
  refAt := []
  reqs := []
  seq := 0
  tags := []
  lastBank := []
  columns := []
  poison := []
  scrub := []
  errSector := 0
  errSource := 0
  errValid := false
  high := []

def Zat.reset : Zat where
  link0 := false
  link1 := false
  sessions := []
  vkeys := []
  staged := []
  nextOrd := 0
  waits := []
  nextWait := 0

def Rst.reset : Rst where
  step := 1
  halted := false
  trimRetry := false
  startClk := 0
  elapsed := 0
  cause := 1
  lastLevel := 1
  lastSrc := 0
  lastTime := 0
  strap := 0
  good := 0
  failed := 0
  wdogClk := 0
  l2Due := false
  foldIntake := []
  foldPot := []
  foldFlow := .open_
  avsAcked := false
  avsFail := false
  tripped := false
  groups := 0
  groupsDue := []
  goHeld := false
  heldTill := 0

def Keep.reset : Keep where
  slots := []
  queue := []
  restore := 0
  armed := false
  imageB := false
  seq := 0
  restored := 0
  skipped := false
  due := false

def Conf.reset : Conf where
  maxNs := 0
  minNs := 0xFFFF
  overs := 0
  qual := 0
  hit := 0
  miss := 0
  rmw := 0
  since := 0
  hot := []

/-- The fuse array of a part nobody has programmed (assumption 5, DESIGN CHOICE). -/
def Fuses.blank : Fuses := ⟨[], [], [], 0, 0, 0⟩

/-- The part right after an L1, before step 1 of the power-on sequence (Table 17.4). -/
def State.reset : State where
  pending := []
  clk := 0
  fresh := 0
  sent := []
  regs := []
  sets := []
  latchConf := [0xFFFF0000#64, 0, 0, 0, 0, 0]
  latchTime := [0, 0]
  conf := Conf.reset
  snapSeq := []
  fuses := Fuses.blank
  rst := Rst.reset
  keep := Keep.reset
  kitty := []
  mram := []
  flash := []
  hbm := []
  hbmc := Hbm.reset
  deck := Deck.reset
  cold := []
  hot0 := []
  hot1 := []
  rows := []
  moves := []
  scrubRow := 0
  pool := []
  poolSet := []
  seeds := [0, 0, 0, 0]
  drawn := [0, 0, 0, 0]
  lines := []
  suits := []
  windows := []
  stock := []
  tasks := []
  listNow := []
  tickNew := []
  order := 0
  scanAt := 0
  scanRem := 0
  tricks := []
  pkts := []
  rb := []
  occ := []
  recircq := []
  takes := []
  admits := []
  walkHw := []
  buckets := []
  late := []
  opens := []
  cutq := []
  staged := []
  sendq := []
  pairs := []
  grantp := []
  acceptp := []
  crossing := []
  reseq := []
  queues := []
  holds := []
  frameNo := 0
  shapers := []
  grpDef := []
  policers := []
  ports := []
  potTurn := []
  laneTest := []
  time := TimeUnit.reset
  zat := Zat.reset
  rings := []
  dumps := []
  temps := [0, 0, 0, 0, 0]
  peak := 0x80
  tempOk := false
  high := []
  perfCnt := []
  perfLast := []
  perfAt := 0
  displaced := []
  lports := []
  slots := []
  plru := []
  setWrote := []
  xq := []
  coreTime := []
  postHeld := []
  lastDisp := none
  moverAt := []

end Sys2Proof.Machine
end

