-- ==== Sys2Proof/WellFormed.lean ====
section
/-!
DEFINITION. Which commands name something that exists: each operand within the numbering the spec gives it. A
command outside it is no event of the part, and a meaning leaves the state unchanged on it (assumption 7, DESIGN CHOICE).
Log entries: 7.
-/
namespace Sys2Proof

/-- Sessions are numbered 1 to 64 (R339). -/
def okSession (n : Nat) : Bool := 1 ≤ n && n ≤ 64
/-- Control ports CP0 and CP1 (R334). -/
def okCp (n : Nat) : Bool := n < 2
/-- Data ports 0 to 255 (R97). -/
def okPort (n : Nat) : Bool := n < 256
/-- Data lanes 0 to 255 (R97). -/
def okLane (n : Nat) : Bool := n < 256
/-- Lanes with an eye scan: the data lanes and the control lanes 256, 257 (R118, R119). -/
def okEyeLane (n : Nat) : Bool := n < 258
/-- Hands, pots and octets 0 to 31 (R14). -/
def okHand (n : Nat) : Bool := n < 32
/-- Packet vectors 0 to 255 of a hand (R15). -/
def okVec (n : Nat) : Bool := n < 256
/-- Dealers 0 to 287 (R67). -/
def okDealer (n : Nat) : Bool := n < 288
/-- Trick contexts 0 to 255 of a dealer (R68). -/
def okCtx (n : Nat) : Bool := n < 256
/-- Result slots 0 to 3 (R68). -/
def okSlot (n : Nat) : Bool := n < 4
/-- SUIT operand of a flow operation: 0 to 3 (Table 4.8). -/
def okSuitSel (n : Nat) : Bool := n < 4
/-- FIELD of a microword: a record word, 63 for the FSM result, or the count and flag of a task post (R75). -/
def okField (n : Nat) : Bool := n < 64
/-- A 16-bit operand. -/
def ok16 (n : Nat) : Bool := n < 2 ^ 16
/-- A 48-bit control address (R27). -/
def okAddr (n : Nat) : Bool := n < 2 ^ 48
/-- Record rings 0 to 8,191 (R261). -/
def okRing (n : Nat) : Bool := n < 8192
/-- Egress queues 0 to 65,535. -/
def okQueue (n : Nat) : Bool := n < 65536
/-- Cache lines 0 to 3,145,727: the largest cache of a contract (Table 2.3 of R24). -/
def okLine (n : Nat) : Bool := n < 3145728
/-- Flow banks: at most 48 (R178). -/
def okBank (n : Nat) : Bool := n < 64
/-- Delay lists 0 to 15 (R231). -/
def okList (n : Nat) : Bool := n < 16
/-- Priority levels 0 to 7 (R225). -/
def okLevel (n : Nat) : Bool := n < 8
/-- Fabric planes 0 to 3 (R248). -/
def okPlane (n : Nat) : Bool := n < 4
/-- HBM stacks 0 to 3 (R319). -/
def okStack (n : Nat) : Bool := n < 4
/-- Pseudo-channels 0 to 127 (R319). -/
def okPc (n : Nat) : Bool := n < 128
/-- Dump engines 0 to 7 (R373). -/
def okEngine (n : Nat) : Bool := n < 8
/-- Lane groups 0 to 15 (R115). -/
def okGroup (n : Nat) : Bool := n < 16
/-- Clock monitors 0 to 24: the bits of RST.CLOCK.GOOD (Table 17.14). -/
def okClock (n : Nat) : Bool := n < 25
/-- Half-octets 0 to 63, one lane PLL each (R99, R392). -/
def okHalf (n : Nat) : Bool := n < 64
/-- PPS outputs 0 to 3 (R299). -/
def okPps (n : Nat) : Bool := n < 4
/-- Sampling groups (R286). -/
def okSampleGroup (n : Nat) : Bool := n < 16
/-- Gate lists 0 to 1,023 (R314). -/
def okGate (n : Nat) : Bool := n < 1024
/-- Unicast grants 0 to 4,095 (R307). -/
def okGrant (n : Nat) : Bool := n < 4096
/-- Key slots 0 to 15 (R341). -/
def okKeySlot (n : Nat) : Bool := n < 16
/-- Traffic classes 0 to 7 (R110). -/
def okClass (n : Nat) : Bool := n < 8
/-- Three deck sources (R55). -/
def okSource (n : Nat) : Bool := n < 4
/-- Policers 0 to 65,535 (R283). -/
def okPolicer (n : Nat) : Bool := n < 65536
/-- A MAC address of a HELLO's sender: six bytes (R334). -/
def okPeer (p : List Byte) : Bool := p.length == 6
/-- One quanta word for each of eight classes (R112). -/
def okQuanta (q : List (BitVec 16)) : Bool := q.length == 8
/-- A headers-in-error list names each hand once at most (R249). -/
def okHdr (h : List HdrFault) : Bool := h.all (fun f => f.hand < 32) && (h.map (·.hand)).Nodup
/-- A fuse array: words 0 to 511, eight deck keys and eight Zatas keys of their lengths (R51, R341, R391). -/
def okFuses (f : Fuses) : Bool :=
  f.words.all (fun e => e.1 < 512)
  && f.deckKeys.all (fun e => e.1 < 8 && ((e.2.alg == 1 && e.2.key.length == 32) || (e.2.alg == 2 && e.2.key.length == 96)))
  && f.zatKeys.all (fun e => e.1 < 8 && e.2.key.length == 32 && 1 ≤ e.2.level && e.2.level < 4)
  && f.macBase < 2 ^ 48 && f.grade < 16 && f.avsMv < 1024
/-- Facts of a power-on: a fuse array, 160 training words a stack, flash slots 1 and 2 (R55, R391, R329). -/
def okFacts (f : PowerOnFacts) : Bool :=
  okFuses f.fuses && f.training.length == 640 && f.flashFault.all (fun k => 1 ≤ k && k < 3)

/-- The operand ranges of each command. -/
def Instr.wellFormed : Instr → Bool
  | .controlFrameReceive cp _ _ | .neighbourSolicitation cp _ | .controlLinkUp cp | .controlLinkDown cp => okCp cp
  | .ackOnlyFrame n _ _ | .ackOnlySend n | .frameExecute n | .challengeTimeout n | .sessionIdleTimeout n => okSession n
  | .hello cp p => okCp cp && okPeer p
  | .auth cp p _ => okCp cp && okPeer p
  | .ping n _ => okSession n
  | .read n a | .write n a _ | .rmw n a _ _ | .bulkWrite n a _ | .counterWrite n a _ | .registerWrite n a _ =>
      okSession n && okAddr a
  | .bulkRead n a c => okSession n && okAddr a && ok16 c
  | .snapshot n g => okSession n && ok16 g
  | .tableRead n k i _ | .tableWrite n k i _ | .tableInsert n k i _ | .tableDelete n k i _ =>
      okSession n && k < 16 && i < 2 ^ 40
  | .flowRead n _ | .flowInsert n _ | .flowUpdate n _ | .flowDelete n _ | .flowKeepSet n _ | .flowKeepClear n _ =>
      okSession n
  | .flowReadIndex n i => okSession n && i < 2 ^ 40
  | .deal n o _ => okSession n && okAddr o
  | .dealCommitVerify n s | .dealCommitHot n s | .dealCommitRedeal n s => okSession n && okSource s
  | .epochSwitch | .epochRetire => true
  | .fold n b u _ | .forcedFold n b u _ | .unfold n b u _ => okSession n && b < 256 && u < 32
  | .foldComplete b u => b < 256 && u < 32
  | .subscribe n r c | .except n r c => okSession n && okRing r && ok16 c
  | .unsubscribe n r => okSession n && okRing r
  | .streamFrameSend r => okRing r
  | .injectParse n p _ => okSession n && okPort p
  | .injectQueue n q _ => okSession n && okQueue q
  | .timeRead n | .timeUnlock n | .resetReqL2 n | .resetReqL3 n | .hostWdogKick n | .peakClear n | .bringupGo n
  | .hbmHwClear n | .confLatch n | .nowSLatch n | .xqHwClear n | .walkHwClear n | .stockHwClear n => okSession n
  | .timeSet n sec ns fr => okSession n && sec < 2 ^ 48 && ns < 10 ^ 9 && ok16 fr
  | .timeLeap n sec a => okSession n && sec < 2 ^ 48 && a < 256
  | .powerOnReset f | .pinReset f | .hostWdogExpire f | .debugReset _ f | .l2Reset f => okFacts f
  | .railFail _ _ | .l3Reset | .timeRefLoss | .timeRefReturn | .thermtrip | .tempSample _ _ _ _ _ => true
  | .hostWdogPeriod n _ => okSession n
  | .clockBad c f => okClock c && okFacts f
  | .clockGood c => okClock c
  | .lanePllUnlock h => okHalf h
  | .kittySave _ us => us < 2 ^ 16
  | .kittyMirror | .kittySummary | .errorLogWrite _ | .keptReinsert => true
  | .macFrameReceive p _ _ | .pauseReceive p _ | .flowControlSend p | .pfcRepeat p | .linkUp p | .linkDown p
  | .autonegRestart p | .macTransmit p _ => okPort p
  | .pfcReceive p _ q => okPort p && okQuanta q
  | .pauseExpire p c => okPort p && okClass c
  | .laneGroupStart g => okGroup g
  | .laneTestWrite n l _ | .prbsInject n l => okSession n && okLane l
  | .eyeScanStart n l _ => okSession n && okEyeLane l
  | .eyeScanDone l e => okEyeLane l && e < 2 ^ 41
  | .portCtlWrite n p _ => okSession n && okPort p
  | .parseTake h | .slowPathItem h | .stockReentry h | .cellCut h | .stagingFill h | .packetSample h => okHand h
  | .walkState h v | .deferredCheck h v => okHand h && okVec v
  | .microwordIssue d | .stageHandoff d => okDealer d
  | .matchLookup d c k | .poolLookup d c k | .lookupResult d c k _ => okDealer d && okCtx c && okSlot k
  | .lookupTimeout d c k => okDealer d && okCtx c && k ≤ 4
  | .shuffleLookup d c | .watchdogFire d c | .flowOpRead d c | .taskCancel d c _ => okDealer d && okCtx c
  | .lookup d c su | .touch d c su | .flowOpDelete d c su | .pin d c su | .keepSet d c su | .keepClear d c su
  | .scan d c su | .flowOpInsert d c su | .relocate d c su | .writeback d c su => okDealer d && okCtx c && okSuitSel su
  | .lookupCreate d c su _ | .lookupCreateSyn d c su _ | .fsmStep d c su _ | .lookupIndex d c su _ =>
      okDealer d && okCtx c && okSuitSel su
  | .flowOpWrite d c su f _ | .flowOpAdd d c su f _ | .flowOpOr d c su f _ | .taskPost d c su f _ =>
      okDealer d && okCtx c && okSuitSel su && okField f
  | .fetchComplete l _ | .snapFetchComplete l _ => okLine l
  | .insertWindowRoll b => okBank b
  | .scanTaskPost | .matchMove | .matchScrub _ | .taskDispatch | .tmSweep | .exportPeriod => true
  | .delayListTick k => okList k
  | .listCfgWrite n k _ => okSession n && okList k
  | .planeMatch p h => okPlane p && okHdr h
  | .cellArrive p h | .cellRelease p h | .reseqTimeout p h => okHand p && okHand h
  | .tmSelect p => okHand p
  | .shaperCfg n _ => okSession n
  | .queueCfgWrite n q w _ => okSession n && okQueue q && w < 4
  | .policerCfgWrite n p w _ => okSession n && okPolicer p && w < 4
  | .sampleBoundary g => okSampleGroup g
  | .ppsEdge _ | .todSentence _ | .holdoverEnter | .holdoverOut | .leapInstant | .todOut => true
  | .ppsOutEdge o => okPps o
  | .ptpMessageDue p u _ => okPort p && (match u with | some k => okGrant k | none => true)
  | .txStampReturn o => okHand o
  | .unicastExpiry k => okGrant k
  | .launchRelease q => okQueue q
  | .gateChange l | .gateListStart l => okGate l
  | .hbmCommandIssue pc _ => okPc pc
  | .hbmRefresh s | .hbmScrub s _ => okStack s
  | .retrain n _ | .grainWrite n _ _ => okSession n
  | .retrainDone ls => ls.length == 160
  | .levelHwClear n l => okSession n && okLevel l
  | .vkeyCommit n v l => okSession n && okKeySlot v && l < 4
  | .vkeyClear n v => okSession n && okKeySlot v
  | .ringItemWrite r it => okRing r && it.length < 16384
  | .dumpCapture e => okEngine e

end Sys2Proof
end

