-- ==== Sys2Proof/Machine/Cmd.lean ====
section
/-!
DEFINITION. The form every meaning has: a command in range changes the part in no time and leaves the queue of
waiting commands alone; one out of range names nothing of the part and changes nothing (assumption 7, DESIGN CHOICE).
Log entries: 7.
-/
namespace Sys2Proof.Machine

open Sys2Proof

/-- What no command of the running part writes: the queue, the clock, the fuse array, the flash and the MRAM that a
save alone writes, and the cold segments that a redeal alone replaces. -/
def keepFixed (s t : State) : State :=
  { t with pending := s.pending, clk := s.clk, fuses := s.fuses, flash := s.flash, mram := s.mram, cold := s.cold }

/-- A command of the running part. -/
def cmd (i : Instr) (s : State) (f : State → State) : Host.Outcome State Fault Refusal :=
  .next (if i.wellFormed then keepFixed s (f s) else s)

/-- What a deck load, a redeal and an L3 leave alone: the queue, the clock, the fuse array, the flash and the MRAM. -/
def keepStores (s t : State) : State :=
  { t with pending := s.pending, clk := s.clk, fuses := s.fuses, flash := s.flash, mram := s.mram }

/-- A command that can apply another deck or run an L3. -/
def cmdDeck (i : Instr) (s : State) (f : State → State) : Host.Outcome State Fault Refusal :=
  .next (if i.wellFormed then keepStores s (f s) else s)

/-- A command that can power the part up, reset it or save the kitty: it keeps the queue, the clock and the flash. -/
def cmdBig (i : Instr) (s : State) (f : State → State) : Host.Outcome State Fault Refusal :=
  .next (if i.wellFormed then { f s with pending := s.pending, clk := s.clk, flash := s.flash } else s)

end Sys2Proof.Machine
end

