-- ==== Sys2Proof/Machine/Util.lean ====
section
/-!
DEFINITION. Bit fields and byte strings: the one place where byte order is decided (00_scope.md R2, R4).
-/
namespace Sys2Proof.Machine

open Sys2Proof

/-- Bits [hi:lo] of `x` (R2). -/
def bits (x hi lo : Nat) : Nat := x / 2 ^ lo % 2 ^ (hi + 1 - lo)

/-- Bit `i` of `x`. -/
def bit (x i : Nat) : Bool := x / 2 ^ i % 2 == 1

/-- 1 for true. -/
def b2n (b : Bool) : Nat := if b then 1 else 0

/-- `x` with bits [hi:lo] replaced by `v`. -/
def setBits (x hi lo v : Nat) : Nat :=
  let w := 2 ^ (hi + 1 - lo)
  x - (x / 2 ^ lo % w) * 2 ^ lo + (v % w) * 2 ^ lo

/-- Most significant byte first (R4). -/
def beFold (acc : Nat) (bs : List Byte) : Nat :=
  match bs with
  | [] => acc
  | b :: r => beFold (acc * 256 + b.toNat) r

/-- The number that a byte string spells, most significant byte first (R4). -/
def ofBytes (bs : List Byte) : Nat := beFold 0 bs

/-- `x` as `n` bytes, most significant first (R4). -/
def toBytes (n x : Nat) : List Byte :=
  match n with
  | 0 => []
  | k + 1 => BitVec.ofNat 8 (x / 256 ^ k) :: toBytes k x

/-- `n` bytes of `bs` from offset `off`; bytes past the end read 0. -/
def slice (bs : List Byte) (off n : Nat) : List Byte :=
  let t := (bs.drop off).take n
  t ++ List.replicate (n - t.length) 0

/-- The `n`-byte field of `bs` at offset `off`. -/
def fld (bs : List Byte) (off n : Nat) : Nat := ofBytes (slice bs off n)

/-- `bs` with the bytes from `off` replaced by `new`, inside its length. -/
def patch (bs : List Byte) (off : Nat) (new : List Byte) : List Byte :=
  match bs, off with
  | [], _ => []
  | b :: r, 0 => match new with | [] => b :: r | n :: ns => n :: patch r 0 ns
  | b :: r, k + 1 => b :: patch r k new

/-- The low `k` bits set. -/
def ones (k : Nat) : Nat := 2 ^ k - 1

/-- Two's complement reading of the low `w` bits. -/
def sint (w x : Nat) : Int := if 2 * (x % 2 ^ w) < 2 ^ w then Int.ofNat (x % 2 ^ w) else Int.ofNat (x % 2 ^ w) - 2 ^ w

/-- The low `w` bits of the two's complement of `x`. -/
def uns (w : Nat) (x : Int) : Nat := (x % (2 ^ w : Nat)).toNat

/-- The elements of `xs` with their positions, from `i` on. -/
def enum {α : Type} (i : Nat) (xs : List α) : List (Nat × α) :=
  match xs with
  | [] => []
  | x :: r => (i, x) :: enum (i + 1) r

/-- Element `i`, or `d`. -/
def nth {α : Type} (xs : List α) (i : Nat) (d : α) : α :=
  match xs, i with
  | [], _ => d
  | x :: _, 0 => x
  | _ :: r, k + 1 => nth r k d

/-- Replace element `i`. -/
def setNth {α : Type} (xs : List α) (i : Nat) (v : α) : List α :=
  match xs, i with
  | [], _ => []
  | _ :: r, 0 => v :: r
  | x :: r, k + 1 => x :: setNth r k v

/-- Cut `bs` into pieces of `n` bytes; fuel is the length. -/
def chunksGo (fuel n : Nat) (bs : List Byte) : List (List Byte) :=
  match fuel with
  | 0 => []
  | k + 1 => if bs.isEmpty then [] else bs.take n :: chunksGo k n (bs.drop n)

def chunks (n : Nat) (bs : List Byte) : List (List Byte) := chunksGo bs.length n bs

/-- The least index from `lo`, at most `n` of them, that satisfies `p`. -/
def findUp (n lo : Nat) (p : Nat → Bool) : Option Nat :=
  match n with
  | 0 => none
  | k + 1 => if p lo then some lo else findUp k (lo + 1) p

/-- Fold `f` over lo, lo+1, …, `n` of them. -/
def iter {σ : Type} (n lo : Nat) (f : σ → Nat → σ) (s : σ) : σ :=
  match n with
  | 0 => s
  | k + 1 => iter k (lo + 1) f (f s lo)

/-- Put `x` in its place in a rising list, once. -/
def sortInsert (x : Nat) (ys : List Nat) : List Nat :=
  match ys with
  | [] => [x]
  | y :: r => if x < y then x :: y :: r else if x = y then y :: r else y :: sortInsert x r

/-- The numbers of a list in rising order, each once. -/
def sortNat (xs : List Nat) : List Nat := xs.foldl (fun ys x => sortInsert x ys) []

/-- Ceiling of a quotient. -/
def cdiv (a b : Nat) : Nat := (a + b - 1) / b

/-- Saturating difference of a counter modulo `2^w`. -/
def wrapSub (w a b : Nat) : Nat := (a + 2 ^ w - b % 2 ^ w) % 2 ^ w

end Sys2Proof.Machine
end

