-- ==== Sys2Proof/Machine/Hash.lean ====
section
/-!
DEFINITION. CRC-32C and Toeplitz (07_match_and_shuffle.md R166), SipHash-2-4 with 128-bit output (08_flow_records.md),
and the cuckoo walk (R426).
-/
namespace Sys2Proof.Machine

open Sys2Proof

/-- One bit of the reflected CRC-32C register. -/
def crcBit (c : W32) : W32 := if c.getLsbD 0 then (c >>> 1) ^^^ 0x82F63B78#32 else c >>> 1

/-- The raw CRC-32C register advanced over one byte, reflected input (R166, R72). -/
def crcByte (c : W32) (b : Byte) : W32 :=
  crcBit (crcBit (crcBit (crcBit (crcBit (crcBit (crcBit (crcBit (c ^^^ b.zeroExtend 32))))))))

/-- The raw register advanced over a byte string. -/
def crcRaw (c : W32) (bs : List Byte) : W32 := bs.foldl crcByte c

/-- CRC-32C of R166: an initial value, reflected, final XOR all ones. -/
def crc32c (init : Nat) (bs : List Byte) : Nat := (crcRaw (BitVec.ofNat 32 init) bs ^^^ 0xFFFFFFFF#32).toNat

/-- Toeplitz hash: for each set input bit, XOR in the 32 key bits that start at its position (R166). -/
def toeplitzGo (bs : List Byte) (key : Nat) (keyBits pos acc : Nat) : Nat :=
  match bs with
  | [] => acc
  | b :: r =>
    let acc := (List.range 8).foldl (fun a i =>
      if bit b.toNat (7 - i) then a ^^^ (key * 2 ^ 32 / 2 ^ (keyBits - (pos + i)) % 2 ^ 32) else a) acc
    toeplitzGo r key keyBits (pos + 8) acc

def toeplitz (tkey bs : List Byte) : Nat := toeplitzGo bs (ofBytes tkey) (8 * tkey.length) 0 0

/-! ## SipHash-2-4 -/

structure Sip where
  v0 : W64
  v1 : W64
  v2 : W64
  v3 : W64

def sipRound (s : Sip) : Sip :=
  let a0 := s.v0 + s.v1
  let a1 := s.v1.rotateLeft 13 ^^^ a0
  let a0 := a0.rotateLeft 32
  let a2 := s.v2 + s.v3
  let a3 := s.v3.rotateLeft 16 ^^^ a2
  let b0 := a0 + a3
  let b3 := a3.rotateLeft 21 ^^^ b0
  let b2 := a2 + a1
  let b1 := a1.rotateLeft 17 ^^^ b2
  ⟨b0, b1, b2.rotateLeft 32, b3⟩

/-- Absorb one 64-bit little-endian word. -/
def sipWord (s : Sip) (m : W64) : Sip :=
  let s := sipRound (sipRound { s with v3 := s.v3 ^^^ m })
  { s with v0 := s.v0 ^^^ m }

/-- The little-endian number of a byte string. -/
def leNat (bs : List Byte) : Nat := ofBytes bs.reverse

/-- Absorb whole 8-byte words, then the last word with the length in its top byte; fuel bounds the words. -/
def sipAbsorb (fuel len : Nat) (s : Sip) (bs : List Byte) : Sip :=
  match fuel with
  | 0 => s
  | k + 1 =>
    if bs.length < 8 then sipWord s (BitVec.ofNat 64 (leNat bs + len % 256 * 2 ^ 56))
    else sipAbsorb k len (sipWord s (BitVec.ofNat 64 (leNat (bs.take 8)))) (bs.drop 8)

/-- SipHash-2-4 with 128-bit output under key words `k0`, `k1`: the first 64-bit output word, then the second. -/
def siphash128 (k0 k1 : W64) (bs : List Byte) : W64 × W64 :=
  let s : Sip := ⟨k0 ^^^ 0x736f6d6570736575#64, k1 ^^^ 0x646f72616e646f6d#64 ^^^ 0xee#64,
    k0 ^^^ 0x6c7967656e657261#64, k1 ^^^ 0x7465646279746573#64⟩
  let s := sipAbsorb (bs.length + 1) bs.length s bs
  let s := { s with v2 := s.v2 ^^^ 0xee#64 }
  let s := sipRound (sipRound (sipRound (sipRound s)))
  let o1 := s.v0 ^^^ s.v1 ^^^ s.v2 ^^^ s.v3
  let s := { s with v1 := s.v1 ^^^ 0xdd#64 }
  let s := sipRound (sipRound (sipRound (sipRound s)))
  (o1, s.v0 ^^^ s.v1 ^^^ s.v2 ^^^ s.v3)

/-! ## The cuckoo walk -/

/-- The walk of R426: from bucket `cur` at step `k`, at most `m` relocations. The answer lists the places (bucket,
place) of the path in order, ending with the free place; `used b i` says that place `i` of bucket `b` holds an entry
and `other b i` is that entry's other bucket. -/
def cuckooWalk (fuel m e : Nat) (used : Nat → Nat → Bool) (other : Nat → Nat → Nat) (cur k : Nat)
    (path : List (Nat × Nat)) : Option (List (Nat × Nat)) :=
  match fuel with
  | 0 => none
  | f + 1 =>
    if m ≤ k then none
    else
      match findUp e 0 fun i => (findUp e 0 fun j => !used (other cur i) j).isSome with
      | some i => (findUp e 0 fun j => !used (other cur i) j).map fun j => path ++ [(cur, i), (other cur i, j)]
      | none => cuckooWalk f m e used other (other cur (k % e)) (k + 1) (path ++ [(cur, k % e)])

end Sys2Proof.Machine
end

