-- ==== Sys2Proof/Machine/Microword.lean ====
section
/-!
DEFINITION. Microwords: the native and the Avfen layout read into one structure, and the ALU
(04_dealers_and_microcode.md R70 to R73, R78, R79, Tables 4.3 to 4.11).
-/
namespace Sys2Proof.Machine

open Sys2Proof

/-- A decoded microword (Tables 4.3 and 4.11). -/
structure Mw where
  next   : Nat
  alt    : Nat
  cond   : Nat
  cyc    : Nat
  commit : Bool
  cls    : Nat
  exOff  : Nat
  exLen  : Nat
  exSlot : Nat
  kOp    : Nat
  kBuf   : Nat
  kSlot  : Nat
  kOff   : Nat
  kLen   : Nat
  mTab   : Nat
  mIss   : Bool
  mWait  : Bool
  mSlot  : Nat
  fOp    : Nat
  fField : Nat
  fSuit  : Nat
  fWait  : Bool
  aOp    : Nat
  aA     : Nat
  aB     : Nat
  aD     : Nat
  eOp    : Nat
  eOff   : Nat
  eSrc   : Nat
  vsrc   : Bool
  target : Nat
  imm    : Nat
  qSrc   : Nat
  qTab   : Nat
  sample : Bool
  bumpK  : Nat
  launch : Bool
  recirc : Bool
  drop   : Bool
  exc    : Bool
  bubble : Bool
deriving DecidableEq, Repr

/-- END (R78). -/
def endAddr : Nat := 0x3FFF

/-- Where a trick stands whose slot lacks its routine: no address of a store. -/
def lostAddr : Nat := 2 ^ 14

/-- A native word of 160 bits (Table 4.3). -/
def nativeWord (w : Nat) : Mw where
  next := bits w 159 146
  alt := bits w 145 132
  cond := bits w 131 126
  cyc := bits w 125 124 + 1
  commit := bit w 123
  cls := bits w 122 121
  exOff := bits w 120 113
  exLen := bits w 112 108
  exSlot := bits w 107 104
  kOp := bits w 103 102
  kBuf := bits w 101 100
  kSlot := bits w 99 96
  kOff := bits w 95 92
  kLen := bits w 91 88
  mTab := bits w 87 80
  mIss := bit w 79
  mWait := bit w 78
  mSlot := bits w 77 76
  fOp := bits w 75 71
  fField := bits w 70 65
  fSuit := bits w 64 63
  fWait := bit w 62
  aOp := bits w 59 55
  aA := bits w 54 51
  aB := bits w 50 47
  aD := bits w 46 44
  eOp := bits w 43 40
  eOff := bits w 39 32
  eSrc := bits w 31 28
  vsrc := bit w 27
  target := bits w 26 23
  imm := bits w 22 16
  qSrc := bits w 15 14
  qTab := bits w 13 8
  sample := bit w 7
  bumpK := bits w 6 4
  launch := bit w 3
  recirc := bit w 2
  drop := bit w 1
  exc := bit w 0
  bubble := w % 2 ^ 124 == 0

/-- Signed displacement of an Avfen branch from `addr` + 1, on 14-bit addresses (Table 4.11). -/
def avfenTarget (addr disp : Nat) : Nat := ((Int.ofNat addr + 1 + sint 9 disp) % 2 ^ 14).toNat

/-- An Avfen word at `addr`, in bits [159:32] of its control-store word (R79). -/
def avfenWord (addr w160 : Nat) : Mw :=
  let w := w160 / 2 ^ 32
  let br := bits w 127 112
  let kind := bits br 15 14
  { next := if kind = 3 then endAddr else if kind = 2 then bits br 13 0 else (addr + 1) % 2 ^ 14
    alt := if kind = 1 then avfenTarget addr (bits br 8 0) else 0
    cond := if kind = 1 then bits br 13 9 else 0
    cyc := 1
    commit := bit w 111
    cls := bits w 110 109
    exOff := bits w 108 102
    exLen := bits w 101 98
    exSlot := bits w 97 94
    kOp := bits w 93 92
    kBuf := bits w 91 90
    kSlot := bits w 89 86
    kOff := bits w 85 83
    kLen := bits w 82 80
    mTab := bits w 79 74
    mIss := bit w 73
    mWait := bit w 72
    mSlot := bits w 71 70
    fOp := bits w 69 66
    fField := bits w 65 61
    fSuit := bits w 60 59
    fWait := bit w 58
    aOp := bits w 57 54
    aA := bits w 53 50
    aB := bits w 49 46
    aD := if bits w 45 44 = 3 then 6 else bits w 45 44
    eOp := bits w 43 40
    eOff := bits w 39 33
    eSrc := bits w 32 30
    vsrc := bit w 29
    target := bits w 28 25
    imm := bits w 24 20
    qSrc := bits w 19 18
    qTab := bits w 17 14
    sample := bit w 13
    bumpK := bits w 12 10
    launch := bit w 9
    recirc := bit w 8
    drop := bit w 7
    exc := bit w 6
    bubble := w160 % 2 ^ 124 == 0 }

/-- A word in the format of its routine. -/
def readWord (avfen : Bool) (addr w : Nat) : Mw := if avfen then avfenWord addr w else nativeWord w

/-! ## The ALU -/

/-- What an ALU operation leaves: its result (none for NOP, CMP and TSTB), the flags Z, N, C, V, and the trick flag it
sets (Table 4.5, R72). -/
structure AluOut where
  res  : Option W32
  z    : Bool
  n    : Bool
  c    : Bool
  v    : Bool
  setf : Option (Nat × Bool)
deriving DecidableEq, Repr

/-- 16-bit ones'-complement sum. -/
def ones16 (a b : Nat) : Nat := let t := a % 65536 + b % 65536; t % 65536 + t / 65536

/-- Leading zeros of a 32-bit word. -/
def clz32 (a : W32) : Nat := match findUp 32 0 fun i => a.getLsbD (31 - i) with | some i => i | none => 32

/-- The bytes of a word reversed. -/
def bswap32 (a : W32) : W32 := BitVec.ofNat 32 (leNat (toBytes 4 a.toNat))

/-- Result of the operations that set Z and N and clear C and V. -/
def aluPlain (op : Nat) (a b : W32) : W32 :=
  let sh := b.toNat % 32
  match op with
  | 1 => a
  | 4 => a &&& b
  | 5 => a ||| b
  | 6 => a ^^^ b
  | 7 => a <<< sh
  | 8 => a >>> sh
  | 10 => if a.toNat ≤ b.toNat then a else b
  | 11 => if a.toNat ≤ b.toNat then b else a
  | 12 => BitVec.ofNat 32 (ones16 a.toNat b.toNat)
  | 13 => BitVec.ofNat 32 (ones16 (a.toNat / 65536) a.toNat)
  | 14 => if a = 0 then 0 else a - 1
  | 16 => a
  | 17 => BitVec.ofNat 32 (a.toNat % 65536 * (b.toNat % 65536))
  | 18 => crcRaw b (toBytes 4 a.toNat)
  | 19 => bswap32 a
  | 20 => BitVec.ofNat 32 (a.toNat / 2 ^ sh % 2 ^ (bits b.toNat 9 5 + 1))
  | 21 => a.rotateLeft sh
  | 23 => BitVec.ofNat 32 (clz32 a)
  | _ => 0

/-- Carry and overflow of A + B (R72). -/
def addCV (a b : W32) : Bool × Bool :=
  let r := a + b
  (decide (2 ^ 32 ≤ a.toNat + b.toNat), (a.msb == b.msb) && (r.msb != a.msb))

/-- Carry and overflow of A − B: C is 1 when the subtraction does not borrow (R72). -/
def subCV (a b : W32) : Bool × Bool :=
  let r := a - b
  (decide (b.toNat ≤ a.toNat), (a.msb != b.msb) && (r.msb != a.msb))

/-- The ALU (R72, Table 4.5); `old` gives the flags that NOP leaves. -/
def alu (op : Nat) (a b : W32) (old : AluOut) : AluOut :=
  match op with
  | 0 => { old with res := none, setf := none }
  | 2 => let r := a + b; ⟨some r, r == 0, r.msb, (addCV a b).1, (addCV a b).2, none⟩
  | 3 => let r := a - b; ⟨some r, r == 0, r.msb, (subCV a b).1, (subCV a b).2, none⟩
  | 9 => let r := a - b; ⟨none, r == 0, r.msb, (subCV a b).1, (subCV a b).2, none⟩
  | 15 => ⟨none, !a.getLsbD (b.toNat % 32), false, false, false, none⟩
  | 16 => ⟨some a, a == 0, a.msb, false, false, some (b.toNat % 8, a != 0)⟩
  | 22 =>
    let r := if b.toNat ≤ a.toNat then a - b else 0
    ⟨some r, r == 0, r.msb, (subCV a b).1, (subCV a b).2, none⟩
  | _ => let r := aluPlain op a b; ⟨some r, r == 0, r.msb, false, false, none⟩

/-- ALU operations that read no source, or A alone (Table 4.5). -/
def aluReads (op : Nat) : Nat := if op = 0 then 0 else if [1, 13, 14, 19, 23].contains op then 1 else 2

end Sys2Proof.Machine
end

