-- ==== Sys2Proof/Config.lean ====
section
/-!
DEFINITION. What the spec leaves open and the machine goes on with: an uninterpreted stream of free values, and one of soft errors.
Log entries: 3, 50.
-/
namespace Sys2Proof.Config

/-- The free values of the model (assumption 3, DESIGN CHOICE): the `n`-th value the part draws where the spec names a value and
does not say which one (random seeds and nonces, servo results, bytes of an unspecified template). It has no body that
a proof could use. -/
opaque freeWord : Nat → BitVec 64

/-- Whether a word of the part's `n`-th pot frame fails its parity when it is read for transmission (R262; assumption 50,
DESIGN CHOICE: no command brings a soft error, so the spec leaves it open for each frame). It has no body. -/
opaque softError : Nat → Bool

end Sys2Proof.Config
end

