-- ==== Sys2Proof/Machine/KMap.lean ====
section
/-!
DEFINITION. Sorted maps keyed by naturals, the model's form of every sparse table: one way to read, write and
remove an entry, each keeping the keys strictly rising, so that equal tables are equal data.
-/
namespace Sys2Proof.Machine

open Sys2Proof

variable {α β : Type}

/-- The entry at key `k`. -/
def kget (m : KMap α) (k : Nat) : Option α :=
  match m with
  | [] => none
  | (j, v) :: r => if j = k then some v else kget r k

/-- The entry at key `k`, or `d` where there is none. -/
def kgetD (m : KMap α) (k : Nat) (d : α) : α := (kget m k).getD d

/-- Write `v` at `k`. -/
def kset (m : KMap α) (k : Nat) (v : α) : KMap α :=
  match m with
  | [] => [(k, v)]
  | (j, w) :: r => if k < j then (k, v) :: (j, w) :: r else if j = k then (k, v) :: r else (j, w) :: kset r k v

/-- Remove the entry at `k`. -/
def kdel (m : KMap α) (k : Nat) : KMap α :=
  match m with
  | [] => []
  | (j, w) :: r => if j = k then kdel r k else (j, w) :: kdel r k

/-- Write an optional entry: `none` removes. -/
def kput (m : KMap α) (k : Nat) (v : Option α) : KMap α :=
  match v with
  | some a => kset m k a
  | none => kdel m k

/-- Change the entry at `k`, starting from `d` where there is none. -/
def kmod (m : KMap α) (k : Nat) (d : α) (f : α → α) : KMap α := kset m k (f (kgetD m k d))

/-- Change the entry at `k` where there is one. -/
def kadj (m : KMap α) (k : Nat) (f : α → α) : KMap α :=
  match kget m k with
  | some v => kset m k (f v)
  | none => m

/-- The entry that stands at `k` satisfies `p`. -/
def khas (m : KMap α) (k : Nat) : Bool := (kget m k).isSome

/-- Keep the entries that satisfy `p`. -/
def kfilter (m : KMap α) (p : Nat → α → Bool) : KMap α := m.filter fun e => p e.1 e.2

/-- Apply `f` to every entry. -/
def kmap (m : KMap α) (f : Nat → α → β) : KMap β := m.map fun e => (e.1, f e.1 e.2)

/-- The first entry that satisfies `p`. -/
def kfind (m : KMap α) (p : Nat → α → Bool) : Option (Nat × α) := m.find? fun e => p e.1 e.2

/-- The keys rise strictly. -/
def ksorted (m : KMap α) : Bool :=
  match m with
  | [] => true
  | (j, _) :: r => (match r with | [] => true | (k, _) :: _ => decide (j < k)) && ksorted r

/-- The lowest key from `lo` on, below `hi`, that has no entry. -/
def kfree (m : KMap α) (lo hi : Nat) : Option Nat :=
  match m with
  | [] => if lo < hi then some lo else none
  | (j, _) :: r => if j < lo then kfree r lo hi else if j = lo then kfree r (lo + 1) hi
      else if lo < hi then some lo else none

/-- How many entries have a key in [lo, hi). -/
def kcount (m : KMap α) (lo hi : Nat) : Nat := (m.filter fun e => lo ≤ e.1 && e.1 < hi).length

/-- The `n`-th key, counted from 0, in [lo, hi) that has no entry. -/
def kfreeNth (m : KMap α) (lo hi n : Nat) : Option Nat :=
  match m with
  | [] => if lo + n < hi then some (lo + n) else none
  | (j, _) :: r =>
    if j < lo then kfreeNth r lo hi n
    else if lo + n < j then (if lo + n < hi then some (lo + n) else none)
    else kfreeNth r (j + 1) hi (n - (j - lo))

end Sys2Proof.Machine
end

