-- ==== Sys2Proof/Machine/Mem.lean ====
section
/-!
DEFINITION. Byte memories (HBM, pool, kitty, MRAM, flash) in canonical form: addresses strictly rising, and no
entry equal to the byte an unlisted address reads as.
Log entries: 2.
-/
namespace Sys2Proof.Machine

open Sys2Proof

/-- What a byte that nothing has written reads as (assumption 2; kitty and pool are cleared to it, Table 17.2, R158). -/
def Mem.blank : Byte := 0x00

/-- The byte at `a`. -/
def memGet (m : Mem) (a : Nat) : Byte := kgetD m a Mem.blank

/-- Write one byte; writing the blank byte removes the entry. -/
def memSet (m : Mem) (a : Nat) (b : Byte) : Mem := if b = Mem.blank then kdel m a else kset m a b

/-- The canonical form of a byte memory. -/
def Mem.wf (m : Mem) : Bool := ksorted m && m.all fun e => e.2 != Mem.blank

/-- `n` bytes from `a`. -/
def memRead (m : Mem) (a n : Nat) : List Byte :=
  match n with
  | 0 => []
  | k + 1 => memGet m a :: memRead m (a + 1) k

/-- The listed bytes from `a`, `n` of them, most significant first, as a number. -/
def memNat (m : Mem) (a n : Nat) : Nat := ofBytes (memRead m a n)

/-- Store a byte string from `a` up. -/
def memWrite (m : Mem) (a : Nat) (bs : List Byte) : Mem :=
  match bs with
  | [] => m
  | b :: r => memWrite (memSet m a b) (a + 1) r

/-- Clear the bytes of [lo, hi). -/
def memClear (m : Mem) (lo hi : Nat) : Mem := m.filter fun e => e.1 < lo || hi ≤ e.1

end Sys2Proof.Machine
end

