-- ==== Sys2Proof/Machine/Deck.lean ====
section
/-!
DEFINITION. The applied deck as the blocks see it: segment bodies in the deck's own layout, read by byte offset
(03_deck.md R44 to R48), and what the contract fixes (02_contracts_and_floors.md R31, Table 2.1).
-/
namespace Sys2Proof.Machine

open Sys2Proof

/-- Segment types of Table 3.4. -/
def tyContract : Nat := 0x01
def tyPortmap : Nat := 0x02
def tyClocks : Nat := 0x03
def tyParse : Nat := 0x10
def tyFormats : Nat := 0x11
def tyExceptions : Nat := 0x12
def tyMatchgeom : Nat := 0x20
def tyMatchrows : Nat := 0x21
def tyRanges : Nat := 0x22
def tyPool : Nat := 0x23
def tyShuffle : Nat := 0x24
def tyFlowgeom : Nat := 0x30
def tyFlowfsm : Nat := 0x31
def tyStore : Nat := 0x40
def tyRoutines : Nat := 0x48
def tyQueues : Nat := 0x50
def tyTm : Nat := 0x51
def tyCurves : Nat := 0x52
def tyTime : Nat := 0x60
def tyGates : Nat := 0x61
def tyZatas : Nat := 0x70
def tyObs : Nat := 0x71
def tyNote : Nat := 0x7F

/-- The body of a cold segment of the applied deck; empty when no deck is applied. -/
def coldBody (s : State) (ty : Nat) : List Byte := kgetD s.cold ty []

/-- The body of a hot segment in epoch slot `e` (R61). -/
def hotBody (s : State) (e : Bool) (ty : Nat) : List Byte := kgetD (if e then s.hot1 else s.hot0) ty []

/-- An `n`-byte field of a cold body (R4). -/
def coldF (s : State) (ty off n : Nat) : Nat := fld (coldBody s ty) off n

/-- An `n`-byte field of a hot body of slot `e` (R4). -/
def hotF (s : State) (e : Bool) (ty off n : Nat) : Nat := fld (hotBody s e ty) off n

/-- Write back a hot body of slot `e` (a host TABLE write). -/
def setHot (s : State) (e : Bool) (ty : Nat) (b : List Byte) : State :=
  if e then { s with hot1 := kset s.hot1 ty b } else { s with hot0 := kset s.hot0 ty b }

/-- A deck is applied: DECK.CONTRACT.ACTIVE is not 0 (Table 2.4). -/
def hasDeck (s : State) : Bool := s.deck.contract != 0

/-- An L3 holds the pipeline (R38, Table 2.3). -/
def held (s : State) : Bool := s.clk < s.rst.heldTill

/-- Contract codes (Table 2.1). -/
def ctSnap : Nat := 2
def ctLongSuit : Nat := 3
def ctDeepPot : Nat := 4
def ctLowStakes : Nat := 5

def isSnap (s : State) : Bool := s.deck.contract == ctSnap

/-- Pot cells of one pot (Table 2.1). -/
def potCells (s : State) : Nat := match s.deck.contract with
  | 0 => 0 | 3 => 16384 | 4 => 32768 | _ => 24576

/-- Pot buffer in MiB, all pots (Table 2.1). -/
def potMib (s : State) : Nat := match s.deck.contract with
  | 0 => 0 | 3 => 128 | 4 => 256 | _ => 192

/-- Flow cache in MiB (Table 2.1). -/
def cacheMib (s : State) : Nat := match s.deck.contract with
  | 0 => 0 | 3 => 192 | 4 => 64 | _ => 128

/-- Flow cache lines (Table 2.1). -/
def cacheLines (s : State) : Nat := cacheMib s * 16384

/-- Active flow banks (Table 2.1). -/
def banks (s : State) : Nat := match s.deck.contract with
  | 0 => 0 | 5 => 28 | _ => 32

/-- Cut-through is permitted (Table 2.1, R19). -/
def mayCut (s : State) : Bool := hasDeck s && s.deck.contract != ctDeepPot

/-- Misses park in the stock (Table 2.1). -/
def mayPark (s : State) : Bool := hasDeck s && s.deck.contract != ctSnap

/-- Packet-rate cap in Gpps (Table 2.1). -/
def rateCap (s : State) : Nat := if s.deck.contract == ctLowStakes then 56 else 0

/-- Maximum power in W (Table 2.1). -/
def powerMax (s : State) : Nat := match s.deck.contract with
  | 0 => 0 | 5 => 600 | _ => 780

/-- The contract's guaranteed latency in ns (Table 2.6, Table 2.9). -/
def latencyLimit (s : State) : Nat := match s.deck.contract with
  | 0 => 0 | 2 => 190 | 3 => 320 | 4 => 420 | _ => 250

/-- The record size in bytes of GEOMETRY 0x1 to 0x3 (Table 2.2). -/
def geomBytes (g : Nat) : Nat := match g with
  | 1 => 64 | 2 => 128 | 3 => 256 | _ => 0

/-- Record bytes of the active geometry. -/
def recBytes (s : State) : Nat := geomBytes s.deck.geometry

/-- Record words of the active geometry. -/
def recWords (s : State) : Nat := recBytes s / 4

/-- The current epoch slot. -/
def curSlot (s : State) : Bool := s.deck.current

/-- Word `n` of a byte string read as 32-bit words. -/
def wordAt (bs : List Byte) (n : Nat) : Nat := fld bs (4 * n) 4

end Sys2Proof.Machine
end

