-- ==== Sys2Proof/Machine/Hbm.lean ====
section
/-!
DEFINITION. Register words and counters, free values, and the HBM array with its counters and poison
(00_scope.md R5, R10; 16_observability.md R369; 14_hbm_controller.md R319 to R328).
Log entries: 1, 3, 12.
-/
namespace Sys2Proof.Machine

open Sys2Proof

/-- The stored word of a register, or `d` where nothing has written it. -/
def regRaw (s : State) (a d : Nat) : Nat := match kget s.regs a with | some v => v.toNat | none => d

/-- Store a register word. -/
def setReg (s : State) (a v : Nat) : State := { s with regs := kset s.regs a (BitVec.ofNat 64 v) }

/-- Forget a register word: it reads its reset or deck value again. -/
def delReg (s : State) (a : Nat) : State := { s with regs := kdel s.regs a }

/-- The part sets W1C bits `m` of the register at `a` (R9). -/
def markSet (s : State) (a m : Nat) : State :=
  let old := kgetD s.sets a (0, 0)
  { s with sets := kset s.sets a (s.clk, m ||| (if old.1 = s.clk then old.2 else 0)) }

/-- A log word whose VALID is W1C bit 63 is written. -/
def setLog (s : State) (a v : Nat) : State := markSet (setReg s a v) a (2 ^ 63)

/-- The value that a write of `v` at `a` acts with: of the register's W1C bits `m`, one that the part sets in the same
clk stays set (R9). -/
def setWins (s : State) (a m v : Nat) : Nat :=
  if m = 0 then v
  else match kget s.sets a with
  | some x => if x.1 = s.clk then v - (v &&& x.2 &&& m) else v
  | none => v

/-- Registers with W1C bits that no log word holds: RST.CAUSE, RST.CLOCK, DECK.STATUS, DECK.CONTRACT,
TIME.GATE_LATE_START, HBM.STATUS. -/
def aCause : Nat := 0x010000000000
def aClock : Nat := 0x010000000030
def aDeckStatus : Nat := 0x030000000000
def aContract : Nat := 0x030000000040
def aGateLate : Nat := 0x1C0000000030
def aHbmStatus : Nat := 0x200000000000

/-- Count `n` events in a counter of Table 5.10: COUNT wraps and sets STICKY in the same clk (R369). -/
def bumpBy (s : State) (a n : Nat) : State :=
  let w := regRaw s a 0
  let c := w % 2 ^ 48 + n
  setReg s a (c % 2 ^ 48 + b2n (bit w 63 || 2 ^ 48 ≤ c) * 2 ^ 63)

/-- Add a signed amount to a counter. -/
def addCtr (s : State) (a : Nat) (i : Int) : State :=
  if i < 0 then
    let w := regRaw s a 0
    setReg s a (uns 48 (Int.ofNat (w % 2 ^ 48) + i) + b2n (bit w 63) * 2 ^ 63)
  else bumpBy s a i.toNat

/-- Count one event (R369). -/
def bump (s : State) (a : Nat) : State := bumpBy s a 1

/-- A write of a counter: COUNT as written, STICKY kept unless CLEAR_STICKY (R369). -/
def counterWord (old new : Nat) : Nat :=
  new % 2 ^ 48 + b2n (bit old 63 && !bit new 62) * 2 ^ 63

/-- HIGH_WATER follows every rise (R29). -/
def raiseHigh (s : State) (k v : Nat) : State :=
  if kgetD s.high k 0 < v then { s with high := kset s.high k v } else s

/-- The last `n` elements of a list. -/
def lastN {α : Type} (n : Nat) (xs : List α) : List α := xs.drop (xs.length - n)

/-- Entries pass crossing queue `i` of `depth` entries: the last ones stand in it until the clk ends (R28, Table 1.10;
assumption 12, DESIGN CHOICE). -/
def cross (s : State) (i depth : Nat) (es : List (List Byte)) : State :=
  let q := lastN depth (kgetD s.xq i [] ++ es)
  raiseHigh { s with xq := kset s.xq i q } i q.length

/-- Draw one free value (assumption 3, DESIGN CHOICE). -/
def draw (s : State) : Nat × State :=
  ((Config.freeWord s.fresh).toNat, { s with fresh := s.fresh + 1 })

/-- Draw `n` 64-bit free values as one number. -/
def drawN (n : Nat) (s : State) : Nat × State :=
  match n with
  | 0 => (0, s)
  | k + 1 =>
    let d := draw s
    let r := drawN k d.2
    (d.1 * 2 ^ (64 * k) + r.1, r.2)

/-- One CK_CORE clock: the timebase advances with CK_TIME while its monitor reads good, five sixteenths of CK_CORE, by
2 ns scaled by RATE (R3, R290, R392, assumption 1, DESIGN CHOICE). -/
def tick (s : State) : State :=
  let p := s.time.phase16 + 5
  let s := { s with xq := [] }
  if !bit s.rst.good 6 then { s with clk := s.clk + 1 }
  else if 16 ≤ p then
    { s with clk := s.clk + 1,
             time := { s.time with phase16 := p - 16,
                                   base := s.time.base + (2 * (2 ^ 48 + s.time.rate)).toNat } }
  else { s with clk := s.clk + 1, time := { s.time with phase16 := p } }

/-- The timebase in ns (R290). -/
def nowNs (s : State) : Nat := s.time.base / 2 ^ 48

/-- The 40-bit ns launch-time clock: the low 40 bits of the timebase in ns (R309). -/
def now40 (s : State) : Nat := nowNs s % 2 ^ 40

/-- 1 µs is 1,600 clk (R3). -/
def usClk : Nat := 1600

/-! ## HBM -/

/-- Bytes of the window (R25). -/
def hbmBytes : Nat := 24 * 2 ^ 32

/-- The window's first address. -/
def hbmBase : Nat := 0x800000000000

/-- Registers of block HBM. -/
def aGrain0 : Nat := 0x200000000008
def aGrain1 : Nat := 0x200000000010
def aHbmErr : Nat := 0x200000000020
def aHbmSelect : Nat := 0x200000000028
/-- Counter `k` (CORR, UNCORR, REFRESH, READS, WRITES) of a stack (Table 14.6). -/
def aHbmCtr (stack k : Nat) : Nat := 0x200000000100 + stack * 0x40 + k * 8

def grain0Reset : Nat := 0x0000000DB6C924B6
def grain1Reset : Nat := 0x0000000DB6DB6DB6

/-- The grain code of a span (Table 14.4). -/
def grainCode (s : State) (span : Nat) : Nat :=
  if span < 12 then bits (regRaw s aGrain0 grain0Reset) (3 * span + 2) (3 * span)
  else bits (regRaw s aGrain1 grain1Reset) (3 * (span - 12) + 2) (3 * (span - 12))

/-- The grain of the span that holds a window offset, in bytes (R319). -/
def grainAt (s : State) (off : Nat) : Nat := 64 * 2 ^ grainCode s (off / 2 ^ 32)

/-- Where a window offset lives: pseudo-channel, bank, row, column (R319). -/
def hbmMap (s : State) (off : Nat) : Nat × Nat × Nat × Nat :=
  let n := off / 2 ^ 32
  let a := off % 2 ^ 32
  let g := grainAt s off
  let u := a / g
  let o := n * 2 ^ 25 + u / 128 * g + a % g
  (u % 128, o / 1024 % 48, o / 1024 / 48, o % 1024)

/-- The window offset of byte `o` of pseudo-channel `p`: the mapping of R319 turned round. -/
def hbmUnmap (s : State) (p o : Nat) : Nat :=
  let n := o / 2 ^ 25
  let r := o % 2 ^ 25
  let g := 64 * 2 ^ grainCode s n
  n * 2 ^ 32 + (r / g * 128 + p) * g + r % g

/-- Byte within its pseudo-channel of a window offset (R319). -/
def hbmByte (s : State) (off : Nat) : Nat :=
  let m := hbmMap s off
  (m.2.2.1 * 48 + m.2.1) * 1024 + m.2.2.2

/-- What the cells hold keeps its place in them when the grains change: `t` shows at new offsets what `s` held (R319).
A sector lies in one grain unit, so its poison moves with it. -/
def regrain (s t : State) : State :=
  let go := fun off => hbmUnmap t (hbmMap s off).1 (hbmByte s off)
  { t with hbm := s.hbm.foldl (fun m c => memSet m (go c.1) c.2) [],
           hbmc := { t.hbmc with poison := s.hbmc.poison.map fun k => go (32 * k) / 32 } }

/-- The stack that holds a window offset. -/
def stackAt (s : State) (off : Nat) : Nat := (hbmMap s off).1 / 32

/-- Bytes of the piece of [off, off+n) that one request moves: at most 1 KiB, inside one grain unit (R321). -/
def pieceLen (s : State) (off n : Nat) : Nat :=
  let g := grainAt s off
  min n (min 1024 (g - off % g))

/-- Record an uncorrectable sector (R327). -/
def hbmUncorr (s : State) (source sector : Nat) : State :=
  let s := markSet (bump s (aHbmCtr (stackAt s (sector * 32)) 1)) aHbmErr (2 ^ 63)
  { s with hbmc := { s.hbmc with errSector := sector, errSource := source, errValid := true } }

/-- A stack is stalled by its refresh: 350 ns, 560 clk (R326). -/
def inRefresh (s : State) (st : Nat) : Bool := match kget s.hbmc.refAt st with
  | some at_ => s.clk < at_ + 560
  | none => false

/-- A stack issues no request: it refreshes or retrains (R326, R331). -/
def stackHolds (s : State) (st : Nat) : Bool := inRefresh s st || s.hbmc.retrain == some st

/-- The bank queue of a window offset: pseudo-channel × 48 + bank. -/
def bankKey (s : State) (off : Nat) : Nat := (hbmMap s off).1 * 48 + (hbmMap s off).2.1

/-- Requests of a stack, in its 512 slots, its command queue and behind them (R324). -/
def stackReqs (s : State) (st : Nat) : Nat :=
  ((s.hbmc.reqs.filter fun e => e.1 / 48 / 32 == st).map fun e => e.2.length).sum

/-- A request joins the queue of its bank (R324). -/
def queueReq (s : State) (source addr len line : Nat) (done : Bool) : State :=
  let k := bankKey s addr
  let st := k / 48 / 32
  let r : HbmReq := ⟨source, addr, len, line, s.clk, s.hbmc.seq, done⟩
  let s := { s with hbmc := { s.hbmc with reqs := kset s.hbmc.reqs k (kgetD s.hbmc.reqs k [] ++ [r]), seq := s.hbmc.seq + 1 } }
  let s := raiseHigh s (97 + st) (min 512 (stackReqs s st - 512))
  { s with hbmc := { s.hbmc with high := kset s.hbmc.high st (max (kgetD s.hbmc.high st 0) (min 512 (stackReqs s st))) } }

/-- A request whose data moves in its command takes a slot too where its bank cannot serve it at once: requests wait
there, or the stack refreshes or retrains (R324, R326, R331; assumption 48, DESIGN CHOICE). -/
def postReq (s : State) (source off n : Nat) : State :=
  let k := bankKey s off
  if stackHolds s (k / 48 / 32) || khas s.hbmc.reqs k then queueReq s source off n (2 ^ 22) true else s

/-- A read returns through its stack's read-return queue, in 64 B entries (R28, Table 1.10). -/
def readReturn (s : State) (off n : Nat) : State :=
  let k := min n 32768
  cross s (101 + stackAt s off) 512 (chunks 64 (memRead s.hbm (off + n - k) k))

/-- What one read request does beside delivering its bytes: READS, and UNCORR for each poisoned sector (R327). -/
def readSectors (s : State) (source off n : Nat) : State :=
  let s := bump (readReturn s off n) (aHbmCtr (stackAt s off) 3)
  (s.hbmc.poison.filter fun k => off < 32 * k + 32 && 32 * k < off + n).foldl (fun s k => hbmUncorr s source k) s

/-- One read request (R321). -/
def readPiece (s : State) (source off n : Nat) : State := readSectors (postReq s source off n) source off n

/-- Bytes `rs`, offset and length each, cover byte `a`. -/
def covers (rs : List (Nat × Nat)) (a : Nat) : Bool := rs.any fun r => r.1 ≤ a && a < r.1 + r.2

/-- Bytes `rs` touch sector `k`; they cover it whole. -/
def touchesSector (rs : List (Nat × Nat)) (k : Nat) : Bool := rs.any fun r => r.1 < 32 * k + 32 && 32 * k < r.1 + r.2
def fillsSector (rs : List (Nat × Nat)) (k : Nat) : Bool := (List.range 32).all fun j => covers rs (32 * k + j)

/-- What one write request does beside storing its bytes: WRITES; whole sectors lose their poison, a sector written
in part keeps it and counts UNCORR once more (R328). -/
def writeSectors (s : State) (off : Nat) (rs : List (Nat × Nat)) : State :=
  let s := bump s (aHbmCtr (stackAt s off) 4)
  let hit := s.hbmc.poison.filter (touchesSector rs)
  let full := hit.filter (fillsSector rs)
  let s := { s with hbmc := { s.hbmc with poison := s.hbmc.poison.filter fun k => !full.contains k } }
  (hit.filter fun k => !full.contains k).foldl (fun s k => bump s (aHbmCtr (stackAt s (32 * k)) 1)) s

/-- Run `f` on each request-sized piece of [off, off+n); `fuel` bounds the pieces. -/
def pieces (fuel : Nat) (f : State → Nat → Nat → State) (s : State) (off n : Nat) : State :=
  match fuel with
  | 0 => s
  | k + 1 =>
    if n = 0 then s
    else
      let m := pieceLen s off n
      pieces k f (f s off m) (off + m) (n - m)

/-- A stack works: it is trained. -/
def stackUp (s : State) (st : Nat) : Bool := bit s.hbmc.trained st

/-- Some byte of [off, off+n) stands in a stack that does not work: its requests complete with poison (Table 17.5). -/
def stackDown (s : State) (off n : Nat) : Bool :=
  !(s.hbmc.trained % 16 == 15) && (List.range (n / 64 + 2)).any fun i =>
    off / 64 + i < (off + n + 63) / 64 && !stackUp s (stackAt s ((off / 64 + i) * 64))

/-- Some sector of [off, off+n) is poisoned. -/
def hbmPoisoned (s : State) (off n : Nat) : Bool :=
  stackDown s off n || s.hbmc.poison.any fun k => off < 32 * k + 32 && 32 * k < off + n

/-- The bytes a read finds; those of a stack that does not work are free values (assumption 3, DESIGN CHOICE). -/
def hbmBytesAt (s : State) (off n : Nat) : List Byte × State :=
  if stackDown s off n then
    let d := drawN (cdiv n 8) s
    (toBytes n d.1, d.2)
  else (memRead s.hbm off n, s)

/-- A sector found bad: it is poisoned until it is written whole (R327, R328). -/
def poisonSector (s : State) (k : Nat) : State :=
  if s.hbmc.poison.contains k then s else { s with hbmc := { s.hbmc with poison := s.hbmc.poison ++ [k] } }

/-- A queued tag read executes: what it finds stands with its line, unless the line's requester is gone (R184, R332). -/
def execReq (s : State) (r : HbmReq) : State :=
  if r.done then s
  else
    let b := hbmBytesAt s r.addr r.len
    let x : TagRead := ⟨r.addr, b.1, hbmPoisoned s r.addr r.len⟩
    let s := readSectors b.2 r.source r.addr r.len
    if 2 ^ 22 ≤ r.line then s
    else { s with hbmc := { s.hbmc with tags := kset s.hbmc.tags r.line (kgetD s.hbmc.tags r.line [] ++ [x]) } }

/-- Requests of one source to one bank execute in the order in which they were issued: a write waits for the reads
before it (R322). -/
def readsFirst (s : State) (source off : Nat) : State :=
  let k := bankKey s off
  match kget s.hbmc.reqs k with
  | none => s
  | some rs =>
    let s := (rs.filter fun r => r.source == source).foldl execReq s
    { s with hbmc := { s.hbmc with reqs := kset s.hbmc.reqs k (rs.map fun r => { r with done := r.done || r.source == source }) } }

/-- One write request (R321, R322). -/
def writePiece (s : State) (source off n : Nat) : State :=
  writeSectors (postReq (readsFirst s source off) source off n) off [(off, n)]

/-- One write request of several runs of bytes of one row (R321). -/
def writeRuns (s : State) (source : Nat) (rs : List (Nat × List Byte)) : State :=
  match rs with
  | [] => s
  | r :: _ =>
    let n := (rs.map fun x => x.1 + x.2.length - r.1).foldl max 0
    let s := writeSectors (postReq (readsFirst s source r.1) source r.1 n) r.1 (rs.map fun x => (x.1, x.2.length))
    { s with hbm := rs.foldl (fun m x => memWrite m x.1 x.2) s.hbm }

/-- A compare-and-set request: it writes its runs only where the word at `a` is `want` (R321). A failing one counts as
a read (assumption 48, DESIGN CHOICE). -/
def compareSet (s : State) (source a want : Nat) (rs : List (Nat × List Byte)) : Bool × State :=
  if memNat s.hbm a 4 = want then (true, writeRuns s source rs) else (false, readPiece s source a 4)

/-- Read `n` bytes of the window: the bytes, whether a sector was poisoned, and the state after (R321, R327). -/
def hbmRead (s : State) (source off n : Nat) : State × List Byte × Bool :=
  let b := hbmBytesAt s off n
  (pieces n (fun s o m => readPiece s source o m) b.2 off n, b.1, hbmPoisoned s off n)

/-- Write bytes to the window (R321, R328). -/
def hbmWrite (s : State) (source off : Nat) (bs : List Byte) : State :=
  let s := pieces bs.length (fun s o m => writePiece s source o m) s off bs.length
  { s with hbm := memWrite s.hbm off bs }

end Sys2Proof.Machine
end

