-- ==== Sys2Proof/Machine/Rings.lean ====
section
/-!
DEFINITION. The task scheduler's entries and the record rings: posting, becoming ready, ending and cancelling tasks
(10_task_scheduler_and_suits.md R224 to R240), ring writes and the freeing of items (11_fabric_and_pots.md R261;
16_observability.md R370, R371), trace items (R241).
Log entries: 3, 38, 39, 49.
-/
namespace Sys2Proof.Machine

open Sys2Proof

/-- Choose a free key of [lo, hi): which one is the part's choice, a free value (assumption 3, DESIGN CHOICE). -/
def chooseFree {α : Type} (s : State) (m : KMap α) (lo hi : Nat) : Option (Nat × State) :=
  let n := hi - lo - kcount m lo hi
  if n = 0 then none
  else
    let d := draw s
    (kfreeNth m lo hi (d.1 % n)).map fun k => (k, d.2)

/-! ## Task entries -/

/-- General-pool handles (R224). -/
def poolHandles : Nat := 0x30000

/-- The re-entry task's handle of a stock slot (R224). -/
def reentryHandle (slot : Nat) : Nat := 0x30000 + slot

def aTskLevels : Nat := 0x140000000010
def aTskTrace : Nat := 0x140000000018
/-- Counters of Table 10.10. -/
def aTskCtr (k : Nat) : Nat := 0x140000000200 + 8 * k
def aPosted : Nat := aTskCtr 0
def aDispatched : Nat := aTskCtr 1
def aTskFailed : Nat := aTskCtr 2
def aCancelled : Nat := aTskCtr 3
def aCancelReady : Nat := aTskCtr 4
def aCancelMiss : Nat := aTskCtr 5
def aPostFail : Nat := aTskCtr 6
def aDepUnderflow : Nat := aTskCtr 7
def aTskLate : Nat := aTskCtr 8
def aNoRoutine : Nat := aTskCtr 9

def tskLevelsReset : Nat := 0x8CA

/-- TSK.LEVELS: 0 HOST, 1 INSERT, 2 EXPORT, 3 DUMP, 4 MIRROR (Table 10.7). -/
def tskLevel (s : State) (k : Nat) : Nat := bits (regRaw s aTskLevels tskLevelsReset) (3 * k + 2) (3 * k)

/-- Free general-pool handles. -/
def freeHandles (s : State) : Nat := poolHandles - kcount s.tasks 0 poolHandles

/-- Entries READY at a level. -/
def levelDepth (s : State) (l : Nat) : Nat :=
  (s.tasks.filter fun e => e.2.state == .ready && e.2.level == l).length

/-- Keys of `high`: crossing queues 0 to 142, then ready levels, the stock, slot counts. -/
def hwLevel (l : Nat) : Nat := 1000 + l
def hwStock : Nat := 2000

/-- NOW of a delay list (Table 10.8). -/
def listNow (s : State) (k : Nat) : Nat := kgetD s.listNow k 0

/-- An entry whose COUNT is 0 and whose delay has passed is READY, at the end of its level; `via` places it within the
clk (R231, R232). -/
def settle (s : State) (h via : Nat) : State :=
  match kget s.tasks h with
  | none => s
  | some t =>
    if t.delayed then { s with tasks := kset s.tasks h { t with state := .delayed } }
    else if 0 < t.count then { s with tasks := kset s.tasks h { t with state := .waiting } }
    else
      let s := { s with tasks := kset s.tasks h { t with state := .ready, order := s.order, readyClk := s.clk, via := via }, order := s.order + 1 }
      raiseHigh s (hwLevel t.level) (levelDepth s t.level)

/-- The 32 B of a task body (Table 10.3). -/
def bodyBytes (b : TaskBody) : List Byte :=
  (b.args.take 4).flatMap (fun w => toBytes 4 w.toNat)
  ++ toBytes 4 (match b.suit with | some n => 2 ^ 31 + n % 2 ^ 28 | none => 0)
  ++ toBytes 4 (match b.succ with | some h => 2 ^ 31 + h % 2 ^ 18 | none => 0)
  ++ toBytes 1 b.routine ++ toBytes 1 (b.list % 16 * 16 + b2n b.urgent * 8 + b.level % 8)
  ++ toBytes 2 b.delay ++ toBytes 1 b.origin ++ toBytes 3 0

/-- Window offset of the task body area (R226). -/
def bodyArea : Nat := 0x17FB800000

/-- Post the task of an entry: it is DELAYED, WAITING or READY, and POSTED counts it (R228, R231). -/
def postAt (s : State) (h count : Nat) (b : TaskBody) (k : TaskKind) : State :=
  let t : Task :=
    { state := .waiting, count := count, level := b.level % 8, list := b.list % 16, urgent := b.urgent, hand := 0,
      stock := 0, expiry := (listNow s (b.list % 16) + b.delay + 1) % 2 ^ 21, delayed := 0 < b.delay, order := s.order, readyClk := 0, via := 17,
      body := b, kind := k }
  let s := { s with tasks := kset s.tasks h t, order := s.order + 1 }
  let s := hbmWrite s 114 (bodyArea + 32 * h) (bodyBytes b)
  settle (bump s aPosted) h 17

/-- A task posted by the part or the host; none when the pool is empty (R230). -/
def partPost (s : State) (b : TaskBody) (k : TaskKind) : Option (Nat × State) :=
  (chooseFree s s.tasks 0 poolHandles).map fun r => (r.1, postAt r.2 r.1 0 b k)

/-- A post of the part waits for the next tick of its list (R230). -/
def holdPost (s : State) (p : HeldPost) : State :=
  if s.postHeld.contains p then s else { s with postHeld := s.postHeld ++ [p] }

/-- Decrement an entry's dependence counter; at 0 it stays 0 and DEP_UNDERFLOW counts (R231). -/
def decCount (s : State) (h : Nat) : State :=
  match kget s.tasks h with
  | none => bump s aDepUnderflow
  | some t =>
    if t.count = 0 then bump s aDepUnderflow
    else
      let s := { s with tasks := kset s.tasks h { t with count := t.count - 1 } }
      if t.count = 1 && t.state == .waiting then settle s h 16 else s

/-- The end of a task: its handle is freed and its successor decremented (R231, R237). -/
def endTask (s : State) (h : Nat) : State :=
  match kget s.tasks h with
  | none => s
  | some t =>
    let s := { s with tasks := kdel s.tasks h }
    match t.body.succ with
    | some k => decCount s k
    | none => s

/-! ## Record rings -/

/-- RINGS of the OBS body (Table 16.9). -/
def obsRings (s : State) : Nat := coldF s tyObs 0 2

/-- The ring record of ring `r` in the OBS body: offset of its 16 bytes (Table 16.11). -/
def ringRec (s : State) (r : Nat) : Option Nat :=
  (findUp (obsRings s) 0 fun i => coldF s tyObs (64 + 16 * i) 2 % 8192 == r).map fun i => 64 + 16 * i

structure RingCfg where
  log2      : Nat
  byLength  : Bool
  snap      : Nat
  threshold : Nat
deriving DecidableEq, Repr

/-- The layout of a ring: its ring record, or 2 MiB, COMMIT, SNAP 2, THRESHOLD 0 (R370). -/
def ringCfg (s : State) (r : Nat) : RingCfg :=
  match ringRec s r with
  | some o => ⟨coldF s tyObs (o + 3) 1, bit (coldF s tyObs (o + 2) 1) 0, coldF s tyObs (o + 4) 1, coldF s tyObs (o + 8) 4⟩
  | none => ⟨21, false, 2, 0⟩

/-- Offset of ring `r` in the backing region: the sum of the sizes of the rings before it (R370). -/
def ringBase (s : State) (r : Nat) : Nat :=
  iter (obsRings s) 0 (fun acc i =>
    let o := 64 + 16 * i
    if coldF s tyObs o 2 % 8192 < r then acc + 2 ^ coldF s tyObs (o + 3) 1 - 2 ^ 21 else acc) (r * 2 ^ 21)

/-- Window offset of the record-ring backing region (R25, Table 16.9). -/
def ringRegion (s : State) : Nat :=
  let n := coldF s tyObs 10 1
  if n = 0 then 2 * 2 ^ 32 else (n - 1) * 2 ^ 32

def Ring.empty : Ring := ⟨[], 0, 0, none, false, 0, 0, false, []⟩

def ringOf (s : State) (r : Nat) : Ring := kgetD s.rings r Ring.empty

/-- Bytes of the slots that no reader sees yet: the reserved word, or the item behind such a slot (R260). -/
def Ring.waiting (g : Ring) : Nat := (g.slots.map fun x => match x.item with | some i => i.1.length | none => 8).sum

/-- USED: bytes held (Table 16.8). -/
def Ring.used (g : Ring) : Nat := (g.items.map fun i => i.1.length).sum + g.waiting

/-- LOST of a ring (Table 16.8). -/
def aRingLost (r : Nat) : Nat := 0x280010000010 + r * 0x20

/-- Free whole items from the oldest until `need` more bytes fit; none when the oldest is partly sent (R261). -/
def freeItems (items : List (List Byte × Bool)) (part room need : Nat) : Option (List (List Byte × Bool) × Nat) :=
  match items with
  | [] => if need ≤ room then some ([], 0) else none
  | i :: r =>
    if (((i :: r).map fun x => x.1.length).sum + need) ≤ room then some (i :: r, 0)
    else if 0 < part then none
    else (freeItems r 0 room need).map fun p => (p.1, p.2 + 1)

/-- Bytes of a ring that visible items may fill: an item still being written is never freed, nor what is behind it. -/
def ringRoom (s : State) (r : Nat) : Nat := 2 ^ (ringCfg s r).log2 - (ringOf s r).waiting

/-- The ring takes an item of `n` bytes. -/
def ringTakes (s : State) (r n : Nat) : Bool :=
  (freeItems (ringOf s r).items (ringOf s r).part (ringRoom s r) n).isSome

/-- Store an item's bytes in the backing region, wrapping at the ring's end (R370). -/
def ringStore (s : State) (r size tail : Nat) (item : List Byte) : State :=
  let base := ringRegion s + ringBase s r
  let k := min item.length (size - tail)
  let src := 96 + r % 8
  hbmWrite (hbmWrite s src (base + tail) (item.take k)) src base (item.drop k)

/-- The export task of a ring's threshold, or of EXPORT_PERIOD (R371). -/
def exportBody (s : State) (arg list delay : Nat) : TaskBody :=
  { args := [BitVec.ofNat 32 arg, 0, 0, 0], suit := none, succ := none, routine := coldF s tyObs 6 1, list := list,
    urgent := false, level := tskLevel s 2, delay := delay, origin := 2 }

/-- Threshold task of a ring (R371). -/
def ringThreshold (s : State) (r : Nat) : State :=
  let g := ringOf s r
  let t := (ringCfg s r).threshold
  if t = 0 then s
  else if g.armed then
    (if g.used < t / 2 then { s with rings := kset s.rings r { g with armed := false } } else s)
  else if t ≤ g.used then
    match partPost s (exportBody s (2 ^ 31 + r) 15 0) .exporting with
    | some p => { p.2 with rings := kset p.2.rings r { g with armed := true } }
    | none => holdPost s (.ring r)
  else s

/-- Make room for `n` bytes: oldest items are freed and counted in LOST; where that makes none, what needs the room is
discarded and counted in LOST (R261). -/
def ringFree (s : State) (r n : Nat) : Option State :=
  let g := ringOf s r
  (freeItems g.items g.part (ringRoom s r) n).map fun (kept, lost) =>
    let freed := ((g.items.take lost).map fun i => i.1.length).sum
    { bumpBy s (aRingLost r) lost with
      rings := kset s.rings r { g with items := kept, head := (g.head + freed) % 2 ^ (ringCfg s r).log2 } }

/-- An item becomes visible at the ring's tail, room for it made (R260, R261). -/
def ringPut (s : State) (r : Nat) (item : List Byte) (poison : Bool) : State :=
  match ringFree s r item.length with
  | none => bump s (aRingLost r)
  | some s =>
    let size := 2 ^ (ringCfg s r).log2
    let g := ringOf s r
    let s := ringStore s r size g.tail item
    ringThreshold { s with rings := kset s.rings r { g with items := g.items ++ [(item, poison)],
                                                            tail := (g.tail + item.length) % size } } r

/-- The slots of a ring up to the first that holds no length yet become visible, in order of reservation (R260). -/
def flushSlots (s : State) (r : Nat) (slots : List RingSlot) : State :=
  let stand := fun (xs : List RingSlot) => { s with rings := kset s.rings r { ringOf s r with slots := xs } }
  match slots with
  | [] => stand []
  | x :: rest => match x.item with
    | none => stand slots
    | some i => flushSlots (ringPut (stand rest) r i.1 i.2) r rest

/-- A slot joins a LENGTH_SLOT ring, where room can be made for its `n` bytes. -/
def addSlot (s : State) (r n : Nat) (item : Option (List Byte × Bool)) : Option State :=
  (ringFree s r n).map fun s =>
    let g := ringOf s r
    { s with rings := kset s.rings r { g with slots := g.slots ++ [⟨s.order, item⟩] }, order := s.order + 1 }

/-- Write one item to a ring (R260, R261). Behind a reserved slot it waits for that slot's length. -/
def ringWrite (s : State) (r : Nat) (item : List Byte) (poison : Bool) : State :=
  if (ringCfg s r).byLength && !(ringOf s r).slots.isEmpty then
    (addSlot s r item.length (some (item, poison))).getD (bump s (aRingLost r))
  else ringPut s r item poison

/-- An item begins: a LENGTH_SLOT ring reserves its first word (R260). The answer is its reservation. -/
def ringReserve (s : State) (r : Nat) : Option Nat × State :=
  if (ringCfg s r).byLength then
    match addSlot s r 8 none with
    | some t => (some s.order, t)
    | none => (none, bump s (aRingLost r))
  else (none, s)

/-- An item that began with `ringReserve` ends: its length is written and it becomes visible with what waited for it.
The Bool says whether the ring took it. -/
def ringEnd (s : State) (r : Nat) (ticket : Option Nat) (item : List Byte) : Bool × State :=
  if (ringCfg s r).byLength then
    let g := ringOf s r
    match g.slots.find? fun x => some x.ticket == ticket with
    | none => (false, s)
    | some x =>
      let without := { s with rings := kset s.rings r { g with slots := g.slots.erase x } }
      match ringFree without r item.length with
      | none => (false, flushSlots (bump without (aRingLost r)) r (g.slots.erase x))
      | some t =>
        (true, flushSlots t r (g.slots.map fun y => if y.ticket = x.ticket then { y with item := some (item, false) } else y))
  else (ringTakes s r item.length, ringPut s r item false)

/-- Items that will never end vanish, and what waited for them becomes visible. -/
def dropReserved (s : State) : State :=
  s.rings.foldl (fun s e => flushSlots s e.1 (e.2.slots.filter fun x => x.item.isSome)) s

/-- Pad to a multiple of 8 with 0x00. -/
def pad8 (bs : List Byte) : List Byte := bs ++ List.replicate ((8 - bs.length % 8) % 8) 0

/-! ## Trace and cancel -/

/-- Write a trace item (Table 10.5): 1 DISPATCH, 2 BLOCK, 3 CANCEL, 4 EXPIRE (R241). -/
def traceTask (s : State) (event : Nat) (race : Bool) (h : Nat) (b : Option TaskBody) (dealer ctx : Nat) : State :=
  let c := regRaw s aTskTrace 0
  let lvl := match b with | some t => t.level | none => 0
  if bit c 0 && bit (bits c 17 14) (event - 1) && (event == 2 || bit (bits c 25 18) lvl) then
    let byte3 := match b with | some t => b2n t.urgent * 128 + t.list % 16 * 8 + t.level % 8 | none => 0
    let rt := match b with | some t => t.routine | none => 0
    ringWrite s (bits c 13 1)
      (toBytes 2 16 ++ toBytes 1 (b2n race * 16 + event) ++ toBytes 1 byte3 ++ toBytes 3 (h % 2 ^ 18) ++ toBytes 1 rt
        ++ toBytes 2 dealer ++ toBytes 1 ctx ++ toBytes 5 (now40 s)) false
  else s

/-- Drop a task from a suit's waiters. -/
def unwait (s : State) (suit : Nat) (h : Nat) : State :=
  { s with suits := kadj s.suits suit fun x => { x with waiters := x.waiters.filter (· != .task h) } }

end Sys2Proof.Machine
end

