-- ==== Sys2Proof/Machine/PortOps.lean ====
section
/-!
DEFINITION. Ports and lanes: the PORTMAP and TIME bodies, stamps, the receive MAC and the rate buffer, flow control in both
directions, links, lane tests and eye scans (05_ports_and_lanes.md R97 to R119).
Log entries: 15, 16, 26.
-/
namespace Sys2Proof.Machine

open Sys2Proof

/-! ## The PORTMAP body -/

/-- A byte of the octet record of octet `o` (Table 5.2). -/
def octetF (s : State) (o off n : Nat) : Nat := coldF s tyPortmap (32 * o + off) n

/-- The lane byte of logical lane `l` (Table 5.3). -/
def laneByte (s : State) (l : Nat) : Nat := octetF s (l / 8) (l % 8) 1

/-- The mode of a lane (Table 5.1). -/
def laneMode (s : State) (l : Nat) : Nat := bits (laneByte s l) 4 0

/-- `p` is a port's first lane of the PORTMAP that the lanes run (R98). -/
def portStart (s : State) (p : Nat) : Bool := bit (laneByte s p) 7 && laneMode s p != 0 && p < 256

/-- `p` is a port's first lane under the applied deck (R119). -/
def isPort (s : State) (p : Nat) : Bool := hasDeck s && portStart s p

/-- The lanes run a PORTMAP: that of the deck, or the last one where an L3 left the part with no deck, for an L3 spares
LANE (R60, Table 17.2). -/
def lanesMapped (s : State) : Bool := khas s.cold tyPortmap

/-- Lanes of a mode (Table 5.1). -/
def modeLanes (m : Nat) : Nat := match m with
  | 6 | 8 | 10 => 2 | 9 | 11 | 13 => 4 | 12 | 14 | 15 => 8 | _ => 1

/-- Port speed of a mode in Gb/s (Table 5.1). -/
def modeSpeed (m : Nat) : Nat := match m with
  | 1 => 10 | 2 | 3 => 25 | 4 => 50 | 5 | 6 => 100 | 7 | 8 | 9 => 200 | 10 | 11 | 12 => 400 | 13 | 14 => 800
  | 15 => 1600 | _ => 0

/-- NRZ modes (Table 5.1). -/
def modeNrz (m : Nat) : Bool := m == 1 || m == 2

def portLanes (s : State) (p : Nat) : Nat := modeLanes (laneMode s p)
def portSpeed (s : State) (p : Nat) : Nat := modeSpeed (laneMode s p)

/-- The port that owns logical lane `l`: the nearest port start at or below it that reaches it (R98). -/
def ownerPort (s : State) (l : Nat) : Option Nat :=
  (findUp (l % 8 + 1) 0 fun i => portStart s (l - i)).bind fun i =>
    if l < (l - i) + portLanes s (l - i) then some (l - i) else none

/-- The OPT byte of a port (Table 5.2). -/
def portOpt (s : State) (p : Nat) : Nat := octetF s (p / 8) (16 + p % 8) 1

/-- FC: 0 none, 1 pause, 2 PFC. -/
def portFc (s : State) (p : Nat) : Nat := bits (portOpt s p) 7 6
def portAn (s : State) (p : Nat) : Bool := bit (portOpt s p) 5
def maxFrame (s : State) (p : Nat) : Nat := octetF s (p / 8) 24 2
def pfcClasses (s : State) (p : Nat) : Nat := octetF s (p / 8) 26 1
def defaultClass (s : State) (p : Nat) : Nat := octetF s (p / 8) 27 1 % 8
def xoffLane (s : State) (p : Nat) : Nat := octetF s (p / 8) 28 1
def xonLane (s : State) (p : Nat) : Nat := octetF s (p / 8) 29 1
def lossyLane (s : State) (p : Nat) : Nat :=
  let v := octetF s (p / 8) 30 1
  if v = 0 then 256 else v

/-- Physical lane that carries a logical position: RX_MAP at byte 8, TX_MAP at byte 11 (R101). -/
def laneMap (s : State) (o off i : Nat) : Nat := bits (octetF s o off 3) (23 - 3 * i) (21 - 3 * i)

/-- Logical lanes that the map at byte `off` has physical lane `l` carry. -/
def carriedBy (s : State) (off l : Nat) : List Nat :=
  (List.range 8).filterMap fun i => if laneMap s (l / 8) off i == l % 8 then some (8 * (l / 8) + i) else none

/-- Logical lanes that physical lane `l` carries on receive, and on transmit (R101). -/
def rxLogical (s : State) (l : Nat) : List Nat := carriedBy s 8 l
def txLogical (s : State) (l : Nat) : List Nat := carriedBy s 11 l

/-- A class is lossless under FC 2 when PFC_CLASSES sets it, and always under FC 1 (R110). -/
def lossless (s : State) (p c : Nat) : Bool :=
  (portFc s p == 2 && bit (pfcClasses s p) c) || portFc s p == 1

/-! ## The TIME body (13_time_and_launch.md R313) -/

/-- A field of the TIME GLOBAL record (Table 13.5). -/
def tiF (s : State) (off n : Nat) : Nat := coldF s tyTime off n
def timeCount (s : State) : Nat := (coldBody s tyTime).length / 64
/-- A field of TIME record `i` (Table 13.6). -/
def tiR (s : State) (i off n : Nat) : Nat := coldF s tyTime (64 * i + off) n
def timeFind (s : State) (kind : Nat) (p : Nat → Bool) : Option Nat :=
  findUp (timeCount s) 0 fun i => tiR s i 0 1 == kind && p i
/-- The PPS_OUT record of an output, the INSTANCE of a port, the CAL of a mode. -/
def ppsRec (s : State) (o : Nat) : Option Nat := timeFind s 1 fun i => tiR s i 1 1 == o
def instRec (s : State) (p : Nat) : Option Nat := timeFind s 2 fun i => tiR s i 1 1 == p
def calRec (s : State) (m : Nat) : Option Nat := timeFind s 3 fun i => tiR s i 1 1 == m

/-- TIME counters: LAUNCH_LATE, SILENT_DROP, TOD_ERR, PPS_MISS (Table 13.11). -/
def aTimeCtr (k : Nat) : Nat := 0x1C0000000100 + 8 * k
/-- Instance window of a port, and its trims. -/
def aInst (p w : Nat) : Nat := 0x1C0010000000 + p * 0x40 + 8 * w
def aTrim (p : Nat) (tx : Bool) : Nat := 0x1C0020000000 + p * 0x10 + (if tx then 8 else 0)
/-- A word of unicast entry `k` (Table 13.12). -/
def aUnicast (k w : Nat) : Nat := 0x1C0030000000 + k * 0x20 + 8 * w

/-! ## Stamps (R291, R300) -/

/-- The timebase in units of 2^-16 ns. -/
def now16 (s : State) : Int := Int.ofNat (s.time.base / 2 ^ 32)

/-- Correction of a stamp of port `p`, in 2^-16 ns: the CAL record of its mode plus its trim (R300). -/
def stampAdj (s : State) (p : Nat) (tx : Bool) : Int :=
  (match calRec s (laneMode s p) with
    | some i => sint 32 (tiR s i (if tx then 8 else 4) 4)
    | none => 0)
  + sint 32 (regRaw s (aTrim p tx) 0)

/-- A stamp now at port `p`, rounded to the nearest ns (R300). -/
def stampNow (s : State) (p : Nat) (tx : Bool) : Nat := ((now16 s + stampAdj s p tx + 2 ^ 15) / 2 ^ 16).toNat

/-- The same stamp in 2^-16 ns. -/
def stamp16 (s : State) (p : Nat) (tx : Bool) : Int := now16 s + stampAdj s p tx

/-- The full time congruent to the 40-bit `v` that lies nearest to `ref` (R291). -/
def resolve40 (v ref : Nat) : Nat :=
  let d := sint 40 (v + 2 ^ 40 - ref % 2 ^ 40)
  (Int.ofNat ref + d).toNat

/-! ## Port registers and state -/

def aPort (p : Nat) : Nat := 0x090000100000 + p * 0x1000
/-- Port counter `i` of Table 5.11. -/
def aPortCtr (p i : Nat) : Nat := aPort p + 0x400 + 8 * i
def aLane (l : Nat) : Nat := 0x080000100000 + l * 0x1000

/-- PORT.CTL: ENABLE is loaded with 1 when a deck that maps the port applies (assumption 15, DEDUCED). -/
def portCtl (s : State) (p : Nat) : Nat := regRaw s (aPort p) 1
def portEnabled (s : State) (p : Nat) : Bool := bit (portCtl s p) 0
def portShut (s : State) (p : Nat) : Bool := bit (portCtl s p) 1

/-- PORT.MAC_ADDR: fused base address plus port id (Table 5.9). -/
def portMac (s : State) (p : Nat) : Nat := regRaw s (aPort p + 0x10) ((s.fuses.macBase + p) % 2 ^ 48) % 2 ^ 48

def PortState.empty : PortState where
  up := false
  anState := 0
  paused := []
  xoff := 0
  txq := []
  stamps := []
  gates := 0xFF

def portOf (s : State) (p : Nat) : PortState := kgetD s.ports p PortState.empty
def setPort (s : State) (p : Nat) (x : PortState) : State := { s with ports := kset s.ports p x }

/-- Rate-buffer entries held by a class of a port. -/
def occOf (s : State) (p c : Nat) : Nat := kgetD s.occ (8 * p + c) 0
/-- PORT.STATUS.OCC. -/
def portOcc (s : State) (p : Nat) : Nat := ((List.range 8).map (occOf s p)).sum
/-- PORT.STATUS.LOSSY_OCC. -/
def lossyOcc (s : State) (p : Nat) : Nat :=
  (((List.range 8).filter fun c => !lossless s p c).map (occOf s p)).sum
/-- Rate-buffer entries of an octet. -/
def octetOcc (s : State) (o : Nat) : Nat := ((List.range 8).map fun i => portOcc s (8 * o + i)).sum

/-- Take or release rate-buffer entries. -/
def setOcc (s : State) (p c n : Nat) : State :=
  { s with occ := if n = 0 then kdel s.occ (8 * p + c) else kset s.occ (8 * p + c) n }

def takeOcc (s : State) (p c n : Nat) : State :=
  let s := setOcc s p c (occOf s p c + n)
  raiseHigh s (p / 8) (octetOcc s (p / 8))

/-- The space of a frame is released once SEND has cut its last cell or it is dropped (R14). -/
def freeOcc (s : State) (p c n : Nat) : State := setOcc s p c (occOf s p c - n)

/-! ## Receive -/

/-- EtherType of a frame. -/
def etherType (f : List Byte) : Nat := fld f 12 2

/-- A frame's class: the PCP of an outermost tag, else DEFAULT_CLASS (R109). -/
def frameClass (s : State) (p : Nat) (f : List Byte) : Nat :=
  if etherType f == 0x8100 || etherType f == 0x88A8 then bits (fld f 14 1) 7 5 else defaultClass s p

/-- A received PFC frame: counted per class; under FC 2 each enabled class stops for its quanta, and a quanta of 0
resumes it (R108, R112). -/
def rxPfc (s : State) (p : Nat) (enable : Nat) (quanta : List Nat) : State :=
  (List.range 8).foldl (fun s c =>
    if bit enable c then
      let s := bump s (aPortCtr p (12 + c))
      if portFc s p == 2 then
        let x := portOf s p
        let q := nth quanta c 0
        setPort s p { x with paused := if q = 0 then kdel x.paused c else kset x.paused c q }
      else s
    else s) s

/-- A received PAUSE frame: counted; under FC 1 every class stops (R108, R112). -/
def rxPause (s : State) (p q : Nat) : State :=
  let s := bump s (aPortCtr p 10)
  if portFc s p == 1 then
    let x := portOf s p
    setPort s p { x with paused := if q = 0 then [] else (List.range 8).map fun c => (c, q) }
  else s

/-- MAC control frames are consumed by the MAC (R108). -/
def rxControl (s : State) (p : Nat) (f : List Byte) : State :=
  if fld f 14 2 == 0x0001 then rxPause s p (fld f 16 2)
  else if fld f 14 2 == 0x0101 then rxPfc s p (fld f 16 2 % 256) ((List.range 8).map fun c => fld f (18 + 2 * c) 2)
  else bump s (aPortCtr p 28)

/-- Good frames are counted with their FCS octets (assumption 16, DESIGN CHOICE). -/
def countRx (s : State) (p len : Nat) : State := bumpBy (bump s (aPortCtr p 0)) (aPortCtr p 1) len

/-- A frame takes its place: after every frame that became eligible earlier, and of those of the same clk after the
lower ingress ports (R120). -/
def placeRb (q : List RbFrame) (f : RbFrame) : List RbFrame :=
  match q with
  | [] => [f]
  | x :: r => if x.clk = f.clk && f.port < x.port then f :: x :: r else x :: placeRb r f

/-- Put a frame in the hand's rate buffer. -/
def pushRb (s : State) (h : Nat) (f : RbFrame) : State := { s with rb := kset s.rb h (placeRb (kgetD s.rb h []) f) }

/-- RST.FOLD_INTAKE of a hand (R396). -/
def foldOfHand (s : State) (h : Nat) : FoldSt := kgetD s.rst.foldIntake h .open_

/-- A frame whose end the MAC sees later is counted there: a good one as received, a bad one in FCS_ERR (R107). -/
def countLate (s : State) (p : Nat) (f : List Byte) (fin : FrameEnd) : State :=
  match fin with
  | .lateGood => countRx s p (f.length + 4)
  | .lateBad => bump s (aPortCtr p 4)
  | _ => s

/-- Admission to the rate buffer (R110): a lossy frame only below the port's lossy cap; a frame that outgrows the
share is truncated, marked bad and counted in RB_DROP. The MAC counts what it received all the same: RX_FRAMES and
RX_BYTES, or FCS_ERR, tell of the frame on the wire (assumption 56, DESIGN CHOICE). -/
def admitRb (s : State) (p : Nat) (f : List Byte) (fin : FrameEnd) : State :=
  let w := portLanes s p
  let c := frameClass s p f
  let room := 256 * w - portOcc s p
  let need := cdiv (f.length + 4) 256
  if (!lossless s p c && lossyLane s p * w ≤ lossyOcc s p) || room = 0 then countLate (bump s (aPortCtr p 8)) p f fin
  else
    let cut := room < need
    let s := if cut then countLate (bump s (aPortCtr p 8)) p f fin else s
    let n := min need room
    let s := takeOcc s p c n
    pushRb s (p / 8)
      { port := p, frame := if cut then f.take (256 * room) else f, fin := if cut then .bad else fin, cls := c,
        entries := n, rxTime := stampNow s p false, inject := none, clk := s.clk }

/-- MAX_FRAME + 1 bytes at most are written (R107); the model's frames leave their four FCS octets out (assumption 16, DESIGN CHOICE). -/
def oversize (s : State) (p : Nat) (f : List Byte) : Bool := maxFrame s p < f.length + 4

/-- The port passes frames: it is a port of the deck and its link is up (R115). -/
def portOpen (s : State) (p : Nat) : Bool := isPort s p && (portOf s p).up

/-- The lane tests in force on the lanes that port `p` receives on: their LOOP fields (Table 5.7). -/
def portLoops (s : State) (p : Nat) : List Nat :=
  (List.range (portLanes s p)).map fun i =>
    match kget s.laneTest (8 * (p / 8) + laneMap s (p / 8) 8 ((p + i) % 8)) with
    | some v => bits v.toNat 9 8
    | none => 0

/-- The frame passes the port's FCS check. -/
def fcsGood (fin : FrameEnd) : Bool := fin == .good || fin == .lateGood

/-- The receive MAC past its gates (R106 to R108). A frame shorter than 128 B whose link goes down has no known length
and FCS, and is discarded at the MAC (assumption 56, DESIGN CHOICE). -/
def macAccept (s : State) (p : Nat) (f : List Byte) (fin : FrameEnd) : State :=
  let short := f.length + 4 < 128
  let gone := fin == .aborted
  let long := oversize s p f
  if !gone && f.length + 4 < 64 then bump s (aPortCtr p 5)
  else if gone || long then
    let s := if gone then bump s (aPortCtr p 7) else s
    let s := if long then bump s (aPortCtr p 6) else s
    if short || etherType f == 0x8808 then s
    else admitRb s p (if long then f.take (maxFrame s p - 3) else f) .bad
  else if etherType f == 0x8808 then
    if fcsGood fin then rxControl (countRx s p (f.length + 4)) p f else bump s (aPortCtr p 4)
  else match fin with
    | .bad => if short then bump s (aPortCtr p 4) else admitRb (bump s (aPortCtr p 4)) p f .bad
    | .lateBad => if short then bump s (aPortCtr p 4) else admitRb s p f .lateBad
    | .lateGood => if short then admitRb (countRx s p (f.length + 4)) p f .good else admitRb s p f .lateGood
    | _ => admitRb (countRx s p (f.length + 4)) p f .good

/-- The receive MAC (R106 to R108, R114): a loopback at the near end replaces what the peer sends, one at the far end
sends it back as it came (R116); while an L3 holds the pipeline, while ENABLE is 0 and while the hand is folded, a frame
counts in HOLD_DROP. -/
def macReceive (s : State) (p : Nat) (f : List Byte) (fin : FrameEnd) : State :=
  if !portOpen s p || (portLoops s p).any (fun l => l == 1 || l == 2) then s
  else if held s || !portEnabled s p || foldOfHand s (p / 8) != .open_ then
    let s := bump s (aPortCtr p 9)
    if (portLoops s p).all (· == 3) then { s with sent := s.sent ++ [.frame p f (!fcsGood fin)] } else s
  else macAccept s p f fin

/-- A flow-control frame that arrives: it is received as any frame is (R108, R112, R114). -/
def macControl (s : State) (p : Nat) (obey : State → State) : State :=
  if !portOpen s p || (portLoops s p).any (fun l => l == 1 || l == 2) then s
  else if held s || !portEnabled s p || foldOfHand s (p / 8) != .open_ then bump s (aPortCtr p 9)
  else obey s

/-- The port's transmitter sends frames, not idles (R114). -/
def portSends (s : State) (p : Nat) : Bool := portOpen s p && portEnabled s p && !held s

/-! ## Flow control sent -/

/-- Entries that the thresholds of class `c` are compared with: the class's own under PFC, the port's under pause. -/
def fcLevel (s : State) (p c : Nat) : Nat := if portFc s p == 1 then portOcc s p else occOf s p c

/-- Classes that flow control can hold: lossless classes under PFC, bit 0 alone under pause (Table 5.9). -/
def fcClasses (s : State) (p : Nat) : List Nat :=
  if portFc s p == 1 then [0] else if portFc s p == 2 then (List.range 8).filter fun c => bit (pfcClasses s p) c else []

/-- Send one flow-control frame with these classes and their quanta (R111). -/
def sendFc (s : State) (p : Nat) (cs : List (Nat × Nat)) : State :=
  if portFc s p == 1 then
    let s := bump s (aPortCtr p 11)
    { s with sent := s.sent ++ [.flowControl p (portMac s p) none (cs.map (·.2))] }
  else
    let s := cs.foldl (fun s x => bump s (aPortCtr p (20 + x.1))) s
    let en := (cs.map fun x => 2 ^ x.1).sum
    let q := (List.range 8).map fun c => match cs.find? (·.1 == c) with | some x => x.2 | none => 0
    { s with sent := s.sent ++ [.flowControl p (portMac s p) (some (BitVec.ofNat 8 en)) q] }

/-- Threshold crossings of the port: classes that reach XOFF get quanta 0xFFFF, held classes below XON get 0; changes
of one clock share one frame (R111). -/
def flowControl (s : State) (p : Nat) : State :=
  let w := portLanes s p
  let x := portOf s p
  let held := x.xoff.toNat
  let on := (fcClasses s p).filter fun c => !bit held c && xoffLane s p * w ≤ fcLevel s p c
  let off := (fcClasses s p).filter fun c => bit held c && fcLevel s p c < xonLane s p * w
  if on.isEmpty && off.isEmpty then s
  else
    let held' := held + (on.map fun c => 2 ^ c).sum - (off.map fun c => 2 ^ c).sum
    sendFc (setPort s p { x with xoff := BitVec.ofNat 8 held' }) p
      (on.map (fun c => (c, 0xFFFF)) ++ off.map fun c => (c, 0))

/-- Repeat for classes held off that stand at or above XON (R111). -/
def fcRepeat (s : State) (p : Nat) : State :=
  let cs := (fcClasses s p).filter fun c =>
    bit (portOf s p).xoff.toNat c && xonLane s p * portLanes s p ≤ fcLevel s p c
  if cs.isEmpty then s else sendFc s p (cs.map fun c => (c, 0xFFFF))

/-! ## The transmit queue (R265, Table 1.10) -/

/-- Entries of 256 B that the frames at port `p` fill; what is more than the port may hold waits to stream in. -/
def portTx (s : State) (p : Nat) : Nat :=
  min (4 * portLanes s p) ((portOf s p).txq.map fun e => max 1 (cdiv e.pkt.frame.length 256)).sum

/-- Transmit-queue entries of an octet. -/
def octetTx (s : State) (o : Nat) : Nat := min 32 ((List.range 8).map fun i => portTx s (8 * o + i)).sum

/-- The transmit queue of a port has room. -/
def txRoom (s : State) (p : Nat) : Bool := portTx s p < 4 * portLanes s p && octetTx s (p / 8) < 32

/-! ## Links -/

/-- The lane group of a port (R115). -/
def groupOf (p : Nat) : Nat := p / 16

/-- Lane die `d` is held in reset: one of its references is bad and FAILOVER does not switch it to the other
(R102, Table 17.5). -/
def dieHeld (s : State) (d : Nat) : Bool :=
  let a := bit s.rst.good (8 + 2 * d)
  let b := bit s.rst.good (9 + 2 * d)
  !(a && b) && !((a || b) && bit (coldF s tyClocks (128 + d) 1) 0)

/-- The lanes of port `p` have been started, and nothing keeps its link from coming up (R102, R115). -/
def portStarted (s : State) (p : Nat) : Bool :=
  isPort s p && !portShut s p && !dieHeld s (p / 32) && !s.rst.goHeld && !s.rst.groupsDue.contains (groupOf p)

/-- AN, training or adaptation ends and the port opens (R104, R115). -/
def linkUpOp (s : State) (p : Nat) : State :=
  let x := portOf s p
  if portStarted s p && !x.up then setPort s p { x with up := true, anState := if portAn s p then 2 else 0 } else s

/-- AN_STATE of a port without a link: Clause 73 runs where the port negotiates and its lanes have started, and goes on
from FAIL by itself (R104, R105). -/
def settleAn (s : State) (p : Nat) : State :=
  let x := portOf s p
  let n := if !(portStarted s p && portAn s p) then 0 else if x.anState = 3 then 3 else 1
  if x.up || n = x.anState then s else setPort s p { x with anState := n }

/-- The link goes down (R105): one LINK_DOWN; hold-off clears; frames at the MAC are lost while sending is theirs. -/
def linkDownOp (s : State) (p : Nat) : State :=
  let x := portOf s p
  if x.up then
    settleAn (setPort (bump s (aPortCtr p 34)) p { x with up := false, anState := 0, xoff := 0, paused := [] }) p
  else s

/-- A failed negotiation: AN_STATE reads FAIL while the part waits, and negotiation starts again (R104). -/
def anRestart (s : State) (p : Nat) : State :=
  let x := portOf s p
  if portStarted s p && portAn s p && !x.up then
    setPort s p { x with anState := if x.anState == 3 then 1 else 3 }
  else s

/-! ## Lanes -/

/-- Physical lane `l` is free of live ports: each port it carries has ENABLE 0 (R116). -/
def laneIdle (s : State) (l : Nat) : Bool :=
  (rxLogical s l ++ txLogical s l).all fun i => match ownerPort s i with | some p => !portEnabled s p | none => true

/-- A pattern code that suits the modulation of the logical lanes `is` (Table 5.7): 1 to 6 NRZ, 7 and 8 PAM4. -/
def patternOk (s : State) (is : List Nat) (code : Nat) : Bool :=
  match is.find? (fun i => laneMode s i != 0) with
  | some i => if modeNrz (laneMode s i) then code ≤ 6 else code == 0 || code == 7 || code == 8
  | none => code ≤ 8

/-- The TEST word: unsuitable patterns are ignored and read 0, INJECT reads 0 (R116). GEN belongs to the lane's
transmitter, CHECK to its receiver. -/
def testWord (s : State) (l v : Nat) : Nat :=
  (if patternOk s (txLogical s l) (bits v 3 0) then bits v 3 0 else 0)
  + (if patternOk s (rxLogical s l) (bits v 7 4) then bits v 7 4 else 0) * 16 + bits v 9 8 * 256

/-- LANE.TEST as it reads. -/
def testReg (s : State) (l : Nat) : Nat := testWord s l (regRaw s (aLane l + 8) 0)

/-- Stored test values take effect where the lane is idle, and stop where it is not (R116). -/
def laneSettle (s : State) (l : Nat) : State :=
  let v := if laneIdle s l then testReg s l else 0
  { s with laneTest := if v = 0 then kdel s.laneTest l else kset s.laneTest l (BitVec.ofNat 64 v) }

/-- Write LANE.TEST: INJECT counts one bit error where the lane checks its own looped-back pattern, and is otherwise
seen by the peer only (R116). -/
def wrLaneTest (s : State) (l v : Nat) : State :=
  let s := laneSettle (setReg s (aLane l + 8) (bits v 9 0)) l
  let e := (match kget s.laneTest l with | some x => x.toNat | none => 0)
  if bit v 10 && bits e 3 0 != 0 && bits e 7 4 == bits e 3 0 && (bits e 9 8 == 1 || bits e 9 8 == 2) then
    bump s (aLane l + 0x10)
  else s

/-- Write LANE.EYE_CTL: START clears DONE and begins one point (R117). -/
def wrEyeCtl (s : State) (l v : Nat) : State :=
  let s := setReg s (aLane l + 0x18) (bits v 19 0)
  if bit v 20 then setReg s (aLane l + 0x20) 0 else s

/-- The point is complete: ERRORS saturates and sets OVERFLOW, DONE is set (Table 5.7). -/
def eyeDone (s : State) (l e : Nat) : State :=
  setReg s (aLane l + 0x20)
    ((if e < 2 ^ 40 then e else ones 40) + b2n (2 ^ 40 ≤ e) * 2 ^ 62 + 2 ^ 63)

/-- RST.SEQ moves to a step (Table 17.13). -/
def setStep (s : State) (n : Nat) : State :=
  { s with rst := { s.rst with step := n, elapsed := (s.clk - s.rst.startClk) / usClk % 2 ^ 32 } }

/-- Step 9 ends, and the sequence with it, once no lane group is due (Table 17.4). -/
def groupsEnd (s : State) : State := if s.rst.step = 9 && s.rst.groupsDue.isEmpty then setStep s 15 else s

/-- Lane group `g` starts (R115). -/
def groupStart (s : State) (g : Nat) : State :=
  if hasDeck s && !s.rst.goHeld && s.rst.groupsDue.contains g then
    let s := { s with rst := { s.rst with groupsDue := s.rst.groupsDue.filter (· != g),
                                          groups := 16 - (s.rst.groupsDue.filter (· != g)).length } }
    groupsEnd ((List.range 16).foldl (fun s i => settleAn s (16 * g + i)) s)
  else s

/-- LANE.BRINGUP.GO starts the bring-up that SAFE holds (R115). -/
def bringGo (s : State) : State := { s with rst := { s.rst with goHeld := false } }

end Sys2Proof.Machine
end

