-- ==== Sys2Proof/Machine/Parser.lean ====
section
/-!
DEFINITION. The packet vector, the parse walk, reason codes and their policers, and slow-path items
(06_intake_parser.md R120 to R142).
-/
namespace Sys2Proof.Machine

open Sys2Proof

/-! ## The packet vector -/

/-- Carried-half word `n` (Table 6.9). -/
def cw (p : Pkt) (n : Nat) : Nat := wordAt p.cv n

/-- A byte field of the carried half. -/
def cvF (p : Pkt) (off n : Nat) : Nat := fld p.cv off n

/-- Write a byte field of the carried half. -/
def cvSet (p : Pkt) (off n v : Nat) : Pkt := { p with cv := patch p.cv off (toBytes n v) }

/-- Write bits [hi:lo] of carried-half word `n`. -/
def cwBits (p : Pkt) (n hi lo v : Nat) : Pkt := cvSet p (4 * n) 4 (setBits (cw p n) hi lo v)

/-- The epoch tag (R17, R62). -/
def pktEpoch (p : Pkt) : Bool := bit (cw p 0) 20
def pktOrigin (p : Pkt) : Nat := bits (cw p 0) 19 18
def pktPass (p : Pkt) : Nat := bits (cw p 0) 17 16
/-- FRAME_LEN, 0 until known (Table 6.9). -/
def pktLen (p : Pkt) : Nat := bits (cw p 0) 13 0
def pktReason (p : Pkt) : Nat := bits (cw p 2) 5 0
def pktLayer (p : Pkt) (i : Nat) : Nat := cvF p (0x30 + 2 * i) 2
def pktQueue (p : Pkt) : Nat := bits (cw p 5) 31 16
def pktPortOut (p : Pkt) : Nat := bits (cw p 5) 15 8
def pktTc (p : Pkt) : Nat := bits (cw p 5) 7 5
def pktColour (p : Pkt) : Nat := bits (cw p 5) 4 3
def pktDropPrec (p : Pkt) : Nat := bits (cw p 5) 2 1
def pktLaunch (p : Pkt) : Nat := bits (cw p 7) 31 24 * 2 ^ 32 + cw p 6
def pktEdits (p : Pkt) : Nat := bits (cw p 10) 4 0

def Walk.idle : Walk where
  unit := false
  done := true
  accepted := false
  excepted := false
  reason := 0
  state := 0
  p := 0
  base := 0
  trans := 0
  heads := []
  ip := none
  ipSeen := false
  lastIp := none
  deferred := []

/-- A first pass starts in state 0 at byte 0 (R122). -/
def Walk.first : Walk := { Walk.idle with unit := true, done := false }

/-- The carried half at a first-pass take: words 0 to 2 by intake, layers absent, the rest 0 (R137). -/
def newCv (port cls : Nat) (epoch : Bool) (origin : Nat) (fcsBad : Bool) (len rx : Nat) : List Byte :=
  toBytes 4 (port * 2 ^ 24 + cls * 2 ^ 21 + b2n epoch * 2 ^ 20 + origin * 2 ^ 18 + b2n fcsBad * 2 ^ 15 + len % 2 ^ 14)
  ++ toBytes 4 (rx % 2 ^ 32) ++ toBytes 4 (rx / 2 ^ 32 % 256 * 2 ^ 24) ++ List.replicate 36 0
  ++ List.replicate 16 0xFF ++ List.replicate 192 0

/-- The bytes `n` of the frame from `a`; bytes outside the window or the frame read 0 (R126). -/
def winBytes (p : Pkt) (a n : Nat) : List Byte :=
  (List.range n).map fun i =>
    if a + i < p.walk.base + 128 then nth p.frame (a + i) 0 else 0

/-- Where the packet of the last IP header entered ends; beyond lie trailing bytes, which no check reads (R130). -/
def l3End (p : Pkt) : Nat := match p.walk.lastIp with
  | some (i, l) => i + l
  | none => 2 ^ 16

/-- The end of what the walk's checks may read of the frame. -/
def walkEnd (p : Pkt) : Nat := min p.frame.length (l3End p)

/-- Why bytes up to `e` cannot be read: reason 3 past the window, 11 past the end of a frame, or of the packet that an
IP header defines in it (assumption 24, DEDUCED), shorter than the window (R123, R130). -/
def runOut (p : Pkt) (e : Nat) : Option Nat :=
  let lim := p.walk.base + 128
  if e ≤ min lim (walkEnd p) then none else if walkEnd p < lim then some 11 else some 3

/-! ## Parse-graph bodies -/

/-- Offset of the entry of state `st` in a PARSEGRAPH body (R126). -/
def findState (fuel : Nat) (b : List Byte) (off st : Nat) : Option Nat :=
  match fuel with
  | 0 => none
  | k + 1 =>
    if b.length ≤ off then none
    else if fld b off 1 = st then some off
    else findState k b (off + 64 + 16 * fld b (off + 2) 1) st

def stateOff (s : State) (e : Bool) (st : Nat) : Option Nat :=
  let b := hotBody s e tyParse
  findState b.length b 0 st

/-- Offset of format `id` in the FORMATS body (R127). -/
def formatOff (s : State) (e : Bool) (id : Nat) : Option Nat :=
  let b := hotBody s e tyFormats
  (findUp (b.length / 32) 0 fun i => fld b (32 * i) 1 == id).map (32 * ·)

/-- A byte field of EXCEPTIONS entry `r` (Table 6.7). -/
def exceptF (s : State) (e : Bool) (r off n : Nat) : Nat := hotF s e tyExceptions (8 * r + off) n

/-- ACTION of a reason: 0 DROP, 1 SLOW, 2 CONTINUE, 3 COPY. -/
def reasonAction (s : State) (e : Bool) (r : Nat) : Nat := exceptF s e r 0 1 % 4

/-! ## Reason counters and policers -/

/-- Counter `k` of reason `r`: 0 HITS, 1 DROPPED, 2 SLOW, 3 POLICED (Table 6.12). -/
def aReason (r k : Nat) : Nat := 0x0C0000001000 + r * 0x40 + 8 * k
def aLateLen : Nat := 0x0C0000000010

/-- A packet takes reason `r`: HITS counts it. -/
def hitReason (s : State) (r : Nat) : State := bump s (aReason r 0)

/-- Bucket units of one token: 1,000 packets/s over the 1.6 GHz clock. -/
def tokenUnit : Nat := 1600000

/-- The bucket of reason `r` brought up to date at slot `e`'s RATE and capped at its BURST (R135). -/
def bucketNow (s : State) (e : Bool) (r : Nat) : Nat :=
  let b := kgetD s.buckets r (0, 0)
  min (b.1 + exceptF s e r 4 2 * (s.clk - b.2)) (exceptF s e r 6 1 * tokenUnit)

/-- Take one token of reason `r` for a packet of slot `e`; false where none is left, and POLICED counts it (R135). -/
def takeToken (s : State) (e : Bool) (r : Nat) : Bool × State :=
  if exceptF s e r 4 2 = 0 then (true, s)
  else
    let t := bucketNow s e r
    if tokenUnit ≤ t then (true, { s with buckets := kset s.buckets r (t - tokenUnit, s.clk) })
    else (false, bump { s with buckets := kset s.buckets r (t, s.clk) } (aReason r 3))

/-- The switch discards tokens above the BURST of the new slot `e` (R135). -/
def capBuckets (s : State) (e : Bool) : State :=
  { s with buckets := kmap s.buckets fun r b => (min b.1 (exceptF s e r 6 1 * tokenUnit), b.2) }

/-- Every bucket holds the BURST tokens of slot 0 (R135). -/
def fillBuckets (s : State) : State :=
  { s with buckets := (List.range 64).map fun r => (r, (exceptF s false r 6 1 * tokenUnit, s.clk)) }

/-! ## Slow-path items -/

/-- Bytes captured: the lesser of the frame's length and SNAP × 64, the whole frame when SNAP is 0 (R136, R372). -/
def captured (snap len : Nat) : Nat := if snap = 0 then len else min len (64 * snap)

/-- The descriptor of Table 6.8 with its captured bytes (R136). -/
def slowItem (p : Pkt) (source reason snap : Nat) : List Byte :=
  let len := p.frame.length
  let c := captured snap len
  let data := pad8 (p.frame.take c)
  let flags := b2n (c < len) + b2n p.bad * 2 + b2n (pktEpoch p) * 4 + pktPass p * 8 + pktOrigin p * 32
  toBytes 2 (32 + data.length) ++ toBytes 1 (source * 64 + reason) ++ toBytes 1 p.port ++ toBytes 2 len ++ toBytes 2 c
  ++ toBytes 5 (p.rxTime % 2 ^ 40) ++ toBytes 1 flags ++ toBytes 1 (bits (cw p 2) 23 16)
  ++ toBytes 1 (bits (cw p 2) 15 11) ++ slice p.cv 0x30 16 ++ data

/-- A packet sample (Table 16.5). -/
def sampleItem (s : State) (p : Pkt) (stage hand snap : Nat) : List Byte :=
  let len := p.frame.length
  let c := captured snap len
  let data := pad8 (p.frame.take c)
  toBytes 2 (32 + data.length) ++ toBytes 1 (stage * 32 + hand) ++ toBytes 1 p.port ++ toBytes 2 len ++ toBytes 2 c
  ++ toBytes 5 (p.rxTime % 2 ^ 40) ++ toBytes 1 (b2n (pktEpoch p) + b2n p.bad * 2 + pktPass p * 4 + pktOrigin p * 16)
  ++ toBytes 1 (pktReason p) ++ toBytes 1 0 ++ toBytes 4 (cw p 5) ++ toBytes 4 (cw p 16) ++ toBytes 3 0
  ++ toBytes 5 (now40 s) ++ data

/-- The MAC counts a frame at its end: good frames in RX_FRAMES and RX_BYTES, others in FCS_ERR (R106, R107). -/
def endAtMac (s : State) (p : Pkt) : State :=
  if p.ended || p.entries = 0 then s
  else if p.bad then bump s (aPortCtr p.port 4)
  else countRx s p.port (p.frame.length + 4)

/-- Queue a slow-path delivery or copy of reason `r`; a policed one is suppressed (R135, R136). The Bool says
whether a token was left. -/
def toSlowPath (s : State) (hand : Nat) (p : Pkt) (source r : Nat) : Bool × State :=
  let e := pktEpoch p
  let t := takeToken s e r
  if t.1 then
    let ring := exceptF s e r 2 2 % 8192
    let u := ringReserve t.2 ring
    (true, { u.2 with late := u.2.late ++ [{ hand := hand, ring := ring, snap := exceptF s e r 7 1, slowp := true,
                                             source := source, reason := r, pkt := p, ticket := u.1 }] })
  else (false, t.2)

/-- Write the oldest waiting item of a hand, of the given kind, once its frame's last byte has arrived. -/
def writeLate (s : State) (hand : Nat) (slowp : Bool) : State :=
  match s.late.find? fun i => i.hand == hand && i.slowp == slowp with
  | none => s
  | some i =>
    let s := { s with late := s.late.erase i }
    if slowp then
      let t := ringEnd s i.ring i.ticket (slowItem i.pkt i.source i.reason i.snap)
      if t.1 then bump t.2 (aReason i.reason 2) else t.2
    else (ringEnd s i.ring i.ticket (sampleItem s i.pkt i.source i.hand i.snap)).2

/-! ## Packets in the part -/

/-- A packet is in flight for its epoch (R62). -/
def flightUp (s : State) (e : Bool) : State :=
  { s with deck := if e then { s.deck with inflight1 := s.deck.inflight1 + 1 }
                   else { s.deck with inflight0 := s.deck.inflight0 + 1 } }

/-- A packet has left or was dropped (R17). -/
def flightDown (s : State) (e : Bool) : State :=
  { s with deck := if e then { s.deck with inflight1 := s.deck.inflight1 - 1 }
                   else { s.deck with inflight0 := s.deck.inflight0 - 1 } }

def getPkt (s : State) (k : Nat) : Option Pkt := kget s.pkts k
def setPkt (s : State) (k : Nat) (p : Pkt) : State := { s with pkts := kset s.pkts k p }
def modPkt (s : State) (k : Nat) (f : Pkt → Pkt) : State := { s with pkts := kadj s.pkts k f }

/-- Release what a packet holds: its rate-buffer space and its in-flight count (R14, R17). -/
def releasePkt (s : State) (p : Pkt) : State :=
  let s := endAtMac s p
  let s := if p.entries = 0 then s else freeOcc s p.port p.cls p.entries
  flightDown s (pktEpoch p)

/-- Drop the packet of vector `k`. -/
def dropPkt (s : State) (k : Nat) : State :=
  match getPkt s k with
  | none => s
  | some p => releasePkt { s with pkts := kdel s.pkts k } p

/-- Key of vector `v` of hand `h`. -/
def vecKey (h v : Nat) : Nat := 256 * h + v

/-- Walk units busy in a hand (R121). -/
def walksBusy (s : State) (h : Nat) : Nat :=
  (s.pkts.filter fun e => e.1 / 256 == h && e.2.walk.unit).length

/-! ## One state of a walk -/

/-- The walk ends with reason `r` (R122). -/
def walkExcept (p : Pkt) (r : Nat) : Pkt :=
  cwBits { p with walk := { p.walk with unit := false, done := true, excepted := true, reason := r } } 2 5 0 r

/-- The length of the header at `h` under format entry `f`; none where its length word cannot be read (R127, R129). -/
def headerLen (p : Pkt) (f : List Byte) (h : Nat) : Except Nat Nat :=
  let width := bits (fld f 5 1) 3 0
  if width = 0 then .ok (fld f 3 1)
  else
    match runOut p (h + fld f 4 1 + 2) with
    | some r => .error r
    | none =>
      let w := ofBytes (winBytes p (h + fld f 4 1) 2)
      .ok (w / 2 ^ bits (fld f 5 1) 7 4 % 2 ^ width * 2 ^ bits (fld f 6 1) 2 0 + fld f 7 1)

/-- The result of a header's checks: a reason, or the packet with the flags and lengths they write. -/
inductive Checked
  | fail (r : Nat) (p : Pkt)
  | pass (p : Pkt)

/-- The bytes after the header, to `fin`, contradict an IEEE 802.3 length in a frame of `len` bytes (Table 6.5). -/
def ethBad (fin len hdrEnd v : Nat) : Bool :=
  fin - hdrEnd < v || (v < fin - hdrEnd && 64 < len + 4)

/-- Defer a check (R131). -/
def deferChk (p : Pkt) (d : DefChk) : Pkt :=
  cwBits { p with walk := { p.walk with deferred := p.walk.deferred ++ [d] } } 2 10 10 1

/-- An IP header's length against the remainder: reason `r` past it, TRAILING below it, deferred while the end has
not arrived (R129 to R131). `l` is the L3 length from the header's own field. -/
def ipLen (p : Pkt) (h l r : Nat) : Checked :=
  let q := cwBits p 4 31 16 l
  let q := { q with walk := { q.walk with ip := some (h, l), ipSeen := true, lastIp := some (h, l) } }
  if !p.ended then .pass (deferChk q (.ip r l h (l3End p)))
  else if walkEnd p - h < l then .fail r p
  else .pass (if l < walkEnd p - h then cwBits q 3 3 3 1 else q)

/-- Checks 3 to 5 of R129 and the flags of Table 6.4 for a header of kind `kind` at `h`, `len` bytes long. -/
def kindChecks (s : State) (p : Pkt) (kind h len : Nat) : Checked :=
  let b := fun i n => ofBytes (winBytes p (h + i) n)
  let eth := fun off =>
    let v := b off 2
    if 0x05DD ≤ v && v ≤ 0x05FF then Checked.fail 6 p
    else if v < 0x05DD then
      if !p.ended then .pass (deferChk p (.eth v (h + len) (l3End p)))
      else if ethBad (walkEnd p) p.frame.length (h + len) v then .fail 6 p else .pass p
    else .pass p
  match kind with
  | 1 => eth 12
  | 2 => eth 2
  | 3 =>
    let ihl := b 0 1 % 16
    if b 2 2 < 4 * ihl then .fail 8 p
    else match ipLen p h (b 2 2) 8 with
      | .fail r q => .fail r q
      | .pass q =>
        let w := b 6 2
        if bit w 13 && bits w 12 0 = 0 then .fail 1 (cwBits q 3 5 5 1)
        else if bits w 12 0 != 0 then .fail 2 (cwBits q 3 5 5 1)
        else if 5 < ihl then
          (if bit (exceptF s (pktEpoch p) 5 1 1) 0 then .fail 5 q else .pass (cwBits q 3 4 4 1))
        else .pass q
  | 4 => ipLen p h (40 + b 4 2) 9
  | 6 => if b 2 2 / 8 = 0 then .fail 1 (cwBits p 3 5 5 1) else .fail 2 (cwBits p 3 5 5 1)
  | 7 =>
    if b 12 1 / 16 < 5 || (p.walk.ipSeen && bits (cw p 4) 15 0 < b 12 1 / 16 * 4) then .fail 10 p
    else .pass (cwBits p 3 15 8 (b 13 1))
  | 9 => .pass (if b 0 1 % 16 ≤ 3 then cwBits p 3 7 7 1 else p)
  | 10 => .pass (if b 0 1 % 8 = 3 then cwBits p 3 6 6 1 else p)
  | _ => .pass p

/-- Automatic extract `i` of a state entry (Table 6.1). -/
def autoExtract (p : Pkt) (st f : List Byte) (h i : Nat) : Pkt :=
  let x := fld st (0x28 + 2 * i) 1
  if bit x 7 then
    let fo := 8 + 2 * (x % 8)
    let n := fld f (fo + 1) 1 % 32
    { p with kv := patch p.kv (fld st (0x29 + 2 * i) 1 % 128) ((winBytes p (h + fld f fo 1) n).take (128 - fld st (0x29 + 2 * i) 1 % 128)) }
  else p

/-- The target a state chooses: the first matching row, or DEFAULT; a reason where the lookahead cannot be read (R122). -/
def chooseTarget (p : Pkt) (st : List Byte) (h : Nat) : Except Nat Nat :=
  let rows := fld st 2 1
  if rows = 0 then .ok (fld st 6 2)
  else
    let a := h + fld st 4 1
    let n := fld st 5 1
    match runOut p (a + n) with
    | some r => .error r
    | none =>
      let look := ofBytes (winBytes p a n)
      match findUp rows 0 fun i => (look &&& fld st (64 + 16 * i + 8) 8) == fld st (64 + 16 * i) 8 with
      | some i => .ok (fld st (8 + 2 * i) 2)
      | none => .ok (fld st 6 2)

/-- The walk enters a state: its number and the transitions go into the vector, the header's start joins the path, and
L4_LEN is written at the header that follows an IP header (R122, R128). -/
def enterHeader (p : Pkt) : Pkt :=
  let w := p.walk
  let p := cwBits (cwBits p 2 23 16 w.state) 2 15 11 w.trans
  let p := { p with walk := { w with heads := w.heads ++ [w.p] } }
  match w.ip with
  | some (i, l) => cwBits { p with walk := { p.walk with ip := none } } 4 15 0 (l - (w.p - i))
  | none => p

/-- One state of the walk (R122): the packet after it, and the reason it took, if any. -/
def walkStep (s : State) (p : Pkt) : Pkt × Option Nat :=
  let w := p.walk
  let e := pktEpoch p
  match stateOff s e w.state with
  | none => (walkExcept p 14, some 14)
  | some so =>
    let st := slice (hotBody s e tyParse) so (64 + 16 * 16)
    let h := w.p
    let p := enterHeader p
    match formatOff s e (fld st 1 1 % 128) with
    | none => (walkExcept p 14, some 14)
    | some fo =>
      let f := slice (hotBody s e tyFormats) fo 32
      let kind := fld f 1 1
      match headerLen p f h with
      | .error r => (walkExcept p r, some r)
      | .ok len =>
        let early := if len < fld f 3 1 then some (if kind = 3 then 7 else if kind = 7 then 10 else 12)
          else runOut p (h + len)
        match early with
        | some r => (walkExcept p r, some r)
        | none =>
          match kindChecks s p kind h len with
          | .fail r p => (walkExcept p r, some r)
          | .pass p =>
            let p := cvSet p (0x30 + 2 * (fld f 2 1 % 8)) 2 h
            let p := cwBits p 3 31 16 (bits (cw p 3) 31 16 ||| fld st 0x30 2)
            let p := autoExtract (autoExtract (autoExtract (autoExtract p st f h 0) st f h 1) st f h 2) st f h 3
            match chooseTarget p st h with
            | .error r => (walkExcept p r, some r)
            | .ok t =>
              if t = 0x4000 then
                ({ p with walk := { p.walk with unit := false, done := true, accepted := true } }, none)
              else if 0x8000 ≤ t then (walkExcept p (t % 64), some (t % 64))
              else if w.trans = 24 then (walkExcept p 4, some 4)
              else
                (cwBits { p with walk := { p.walk with state := t, p := h + len, trans := w.trans + 1 } } 2 15 11 (w.trans + 1),
                  none)

/-- Run one state of the walk of vector `k`. -/
def walkOp (s : State) (k : Nat) : State :=
  match getPkt s k with
  | none => s
  | some p =>
    if p.walk.unit && !p.walk.done then
      let r := walkStep s p
      let s := setPkt s k r.1
      match r.2 with
      | some c => hitReason s c
      | none => s
    else s

/-- A deferred check fails now that the frame's length is known (R131). -/
def defFails (len : Nat) : DefChk → Option Nat
  | .eth v e lim => if ethBad (min len lim) len e v then some 6 else none
  | .ip r l h lim => if min len lim - h < l then some r else none

/-- Deferred checks that pass set TRAILING when the frame runs past the L3 end (R130). -/
def defTrailing (len : Nat) : DefChk → Bool
  | .eth .. => false
  | .ip _ l h lim => l < min len lim - h

/-- FRAME_LEN becomes known: the MAC counts the frame, the length and FCS_BAD are written, and the deferred checks
are completed, with a reason before the hand-off to KEY, where an ended routine's packet is settled anew, and a bad mark
after it (R131). -/
def deferredOp (s : State) (k : Nat) (inParse : Bool) : State :=
  match getPkt s k with
  | none => s
  | some p =>
    if p.ended then s
    else
      let s := endAtMac s p
      let len := p.frame.length
      let p := cwBits (cwBits { p with ended := true } 0 13 0 len) 0 15 15 (b2n p.bad)
      match p.walk.deferred.findSome? (defFails len) with
      | none =>
        let p := if p.walk.deferred.any (defTrailing len) then cwBits p 3 3 3 1 else p
        setPkt s k { p with walk := { p.walk with deferred := [] } }
      | some r =>
        let p := { p with walk := { p.walk with deferred := [] } }
        if inParse then
          hitReason { setPkt s k (walkExcept p r) with
            tricks := kmap s.tricks fun _ t => if t.pkt = k && t.settled == some 0 then { t with settled := none } else t } r
        else bump (setPkt s k (cwBits { p with bad := true } 0 15 15 1)) aLateLen

/-- A recirculated pass (R140). -/
def nextPass (p : Pkt) : Pkt :=
  let pass := pktPass p + 1
  let start := bits (cw p 11) 31 24
  let off := bits (cw p 11) 15 0
  let p := cwBits (cwBits p 0 17 16 pass) 0 19 18 1
  let p := cwBits (cwBits (cwBits p 2 23 16 0) 2 15 11 0) 2 5 0 0
  let p := cvSet (cwBits p 3 15 3 0) 0x10 4 0
  { p with kv := List.replicate 256 0, rangeClk := none,
           walk := { Walk.first with state := start, p := off, base := off, deferred := p.walk.deferred } }

end Sys2Proof.Machine
end

