-- ==== Sys2Proof/Machine/Lookup.lean ====
section
/-!
DEFINITION. The match unit, the range comparators, the exact/prefix pool and the shuffle tables
(07_match_and_shuffle.md R143 to R171).
Log entries: 41.
-/
namespace Sys2Proof.Machine

open Sys2Proof

/-! ## Match tables -/

/-- A byte field of block `b`'s MATCHGEOM entry (Table 7.1). -/
def blockF (s : State) (b off n : Nat) : Nat := coldF s tyMatchgeom (8 * b + off) n

/-- Blocks of a match table, in order (R144). -/
def tableBlocks (s : State) (t : Nat) : List Nat :=
  if (coldBody s tyMatchgeom).isEmpty then [] else (List.range 64).filter fun b => blockF s b 0 1 == t

/-- The gap of a table's MODE: 0 for ORDERED (Table 7.1). -/
def blockGap (s : State) (b : Nat) : Nat := match blockF s b 1 1 % 4 with
  | 1 => 8 | 2 => 16 | 3 => 32 | _ => 0

/-- A row satisfies the pre-filter of block `b` (R149). -/
def preOk (s : State) (b value mask : Nat) : Bool :=
  let pm := blockF s b 3 1
  let pv := blockF s b 2 1
  let sh := 8 * (39 - blockF s b 4 1 % 40)
  ((mask / 2 ^ sh % 256) &&& pm) == pm && ((value / 2 ^ sh % 256) &&& pm) == pv

def rowValid (r : Row) (e : Bool) : Bool := if e then r.v1 else r.v0

/-- A row matches a key (R147). -/
def rowMatches (r : Row) (e : Bool) (key : Nat) : Bool :=
  rowValid r e && ((key ^^^ r.value) &&& r.mask) == 0

/-- The winner of a search: highest TRUMP, then lowest index; and whether the top TRUMP is shared (R147). -/
def bestRow (rows : List (Nat × Row)) (acc : Option (Nat × Row × Bool)) : Option (Nat × Row × Bool) :=
  match rows with
  | [] => acc
  | (i, r) :: rest =>
    match acc with
    | none => bestRow rest (some (i, r, false))
    | some (j, q, tie) =>
      if q.trump < r.trump then bestRow rest (some (i, r, false))
      else if q.trump = r.trump then bestRow rest (some (j, q, true))
      else bestRow rest (some (j, q, tie))

def aTieCount : Nat := 0x0D0000000010
def aTieLast : Nat := 0x0D0000000018
def aSearches : Nat := 0x0D0000000020
def aBlockSearches : Nat := 0x0D0000000028
def aBlockSkips : Nat := 0x0D0000000030
def aRowErrLast : Nat := 0x0D0000000038
def aRowErr : Nat := 0x0D0000000040

/-- A key of at most 40 bytes as 320 bits; missing bytes read 0 (R146). -/
def keyNat (key : List Byte) : Nat := ofBytes (slice key 0 40)

/-- A search of table `t` under slot `e` by hand `hand`: the result of Table 7.3 and the counters (R147 to R149). -/
def matchSearch (s : State) (t : Nat) (e : Bool) (key : List Byte) (hand : Nat) : W64 × State :=
  let k := keyNat key
  let bs := tableBlocks s t
  let hit := fun b => ((k / 2 ^ (8 * (39 - blockF s b 4 1 % 40)) % 256) &&& blockF s b 3 1) == blockF s b 2 1
  let open_ := bs.filter hit
  let s := bumpBy (bumpBy (bump s aSearches) aBlockSearches open_.length) aBlockSkips (bs.length - open_.length)
  match bestRow (s.rows.filter fun x => open_.contains (x.1 / 2048) && rowMatches x.2 e k) none with
  | none => (BitVec.ofNat 64 (match bs with | b :: _ => blockF s b 5 3 % 2 ^ 20 | [] => 0), s)
  | some (i, r, tie) =>
    let s := if tie then
        setLog (bump s aTieCount) aTieLast (t % 128 + i * 2 ^ 7 + hand % 32 * 2 ^ 24 + 2 ^ 63)
      else s
    (BitVec.ofNat 64 (2 ^ 63 + b2n tie * 2 ^ 62 + i * 2 ^ 39 + r.result % 2 ^ 20), s)

/-- A row in neither slot is free: it is removed (R143). -/
def putRow (s : State) (i : Nat) (r : Row) : State :=
  { s with rows := if r.v0 || r.v1 then kset s.rows i r else kdel s.rows i }

/-- The current slot's valid bit alone (R151). -/
def rowFor (s : State) (value mask trump result : Nat) : Row :=
  ⟨value, mask, trump, result, !s.deck.current, s.deck.current⟩

/-- First and last row index of a table, exclusive end. -/
def tableSpan (s : State) (t : Nat) : Option (Nat × Nat) :=
  match tableBlocks s t with
  | [] => none
  | b :: r => some (2048 * b, 2048 * (b + r.length + 1))

/-- The rows among which an insert at `i` may move: the table, or the group that holds `i` (R152, R153). -/
def insertSpan (s : State) (t i : Nat) : Option (Nat × Nat) :=
  match tableSpan s t with
  | none => none
  | some (lo, hi) =>
    let g := blockGap s (i / 2048)
    if g = 0 then some (lo, hi) else some (i / g * g, i / g * g + g)

/-- The free row nearest to `i` in [lo, hi), the one above on a tie (R152). -/
def nearFree (s : State) (lo hi i : Nat) : Option Nat :=
  (findUp (hi - lo) 0 fun d =>
    (i + d < hi && !khas s.rows (i + d)) || (lo + d ≤ i && !khas s.rows (i - d))).map fun d =>
      if i + d < hi && !khas s.rows (i + d) then i + d else i - d

/-- Every row that the move crosses into a block of another pre-filter satisfies it, and so does the new row (R149, R152). -/
def moveOk (s : State) (f i value mask : Nat) : Bool :=
  let rows := if i ≤ f then (List.range (f - i)).map (fun d => (i + d, i + d + 1))
    else (List.range (i - 1 - f)).map fun d => (f + 1 + d, f + d)
  (rows.all fun m => match kget s.rows m.1 with
    | some r => preOk s (m.2 / 2048) r.value r.mask
    | none => true) &&
  preOk s ((if i ≤ f then i else i - 1) / 2048) value mask

/-- Move one row's content to another index, freeing its source (R152). -/
def moveRow (s : State) (src dst : Nat) : State :=
  match kget s.rows src with
  | none => { s with rows := kdel s.rows dst }
  | some r => { s with rows := kset (kdel s.rows src) dst r }

/-! ## Range comparators -/

/-- Comparator `k` holds of the extraction area (R157). -/
def rangeBit (s : State) (e : Bool) (kv : List Byte) (k : Nat) : Bool :=
  let b := hotBody s e tyRanges
  let en := fld b (8 * k) 1
  let f := fld kv (en % 128) 2
  8 * k < b.length && bit en 7 && fld b (8 * k + 2) 2 ≤ f && f ≤ fld b (8 * k + 4) 2

/-- Word `w` of the range vector (R157). -/
def rangeWord (s : State) (e : Bool) (kv : List Byte) (w : Nat) : Nat :=
  ((List.range 32).map fun i => b2n (rangeBit s e kv (32 * w + i)) * 2 ^ i).sum

/-! ## The pool -/

/-- Offset of pool table `t`'s entry in the POOL body (R158). -/
def poolOff (s : State) (t : Nat) : Option Nat :=
  (findUp ((coldBody s tyPool).length / 32) 0 fun i => coldF s tyPool (32 * i) 1 == t).map (32 * ·)

structure PoolTab where
  kind    : Nat
  keyLen  : Nat
  first   : Nat
  pages   : Nat
  missData : Nat
  seed    : Nat
  lengths : List Nat
deriving DecidableEq, Repr

def poolTab (s : State) (t : Nat) : Option PoolTab :=
  (poolOff s t).map fun o =>
    let f := fun a n => coldF s tyPool (o + a) n
    ⟨f 1 1, f 2 1, f 4 2, f 6 2, f 8 4, f 12 4, ((List.range 16).map fun i => f (16 + i) 1).filter (· != 0xFF)⟩

/-- Entry bytes of an EXACT or PREFIX table (R159). -/
def poolE (p : PoolTab) : Nat := if p.keyLen + 8 ≤ 16 then 16 else if p.keyLen + 8 ≤ 32 then 32 else 64

def poolBuckets (p : PoolTab) : Nat := p.pages * 256

/-- Candidate bucket 1 or 2 of a key with its length byte (R159). -/
def poolHash (p : PoolTab) (second : Bool) (key : List Byte) (len : Nat) : Nat :=
  crc32c (if second then p.seed ^^^ 0x5A5A5A5A else p.seed) (key ++ toBytes 1 len) % poolBuckets p

/-- Byte address of place `i` of a bucket. -/
def poolAddr (p : PoolTab) (b i : Nat) : Nat := p.first * 65536 + 256 * b + poolE p * i

def poolUsed (s : State) (p : PoolTab) (b i : Nat) : Bool := bit (memGet s.pool (poolAddr p b i)).toNat 7

/-- The stored key and length byte of a place. -/
def poolKeyAt (s : State) (p : PoolTab) (b i : Nat) : List Byte × Nat :=
  (memRead s.pool (poolAddr p b i + 8) p.keyLen, (memGet s.pool (poolAddr p b i + 1)).toNat)

/-- The place that holds a key of a length, in bucket h1 or h2 (R160). -/
def poolFind (s : State) (p : PoolTab) (key : List Byte) (len : Nat) : Option (Nat × Nat) :=
  let at_ := fun b => (findUp (256 / poolE p) 0 fun i => poolUsed s p b i && poolKeyAt s p b i == (key, len)).map fun i => (b, i)
  match at_ (poolHash p false key len) with
  | some x => some x
  | none => at_ (poolHash p true key len)

/-- A key masked to its first `len` bits (R160). -/
def maskKey (key : List Byte) (len : Nat) : List Byte :=
  let w := 8 * key.length
  toBytes key.length (ofBytes key / 2 ^ (w - len) * 2 ^ (w - len))

/-- The greatest listed length whose masked key is present (R160). -/
def prefixFind (s : State) (p : PoolTab) (key : List Byte) (ls : List Nat) (best : Option (Nat × Nat × Nat)) :
    Option (Nat × Nat × Nat) :=
  match ls with
  | [] => best
  | l :: r =>
    let better := match best with | some (b, _, _) => decide (b < l) | none => true
    match (if better then poolFind s p (maskKey key l) l else none) with
    | some (b, i) => prefixFind s p key r (some (l, b, i))
    | none => prefixFind s p key r best

def poolData (s : State) (p : PoolTab) (b i : Nat) : Nat := memNat s.pool (poolAddr p b i + 4) 4

/-- A pool lookup: the result of Table 7.3 (R160, R161). -/
def poolLookupRes (s : State) (t : Nat) (key : List Byte) : W64 :=
  match poolTab s t with
  | none => 0
  | some p =>
    let k := slice key 0 p.keyLen
    let miss := BitVec.ofNat 64 p.missData
    match p.kind with
    | 0 => match poolFind s p k 0 with
      | some (b, i) => BitVec.ofNat 64 (2 ^ 63 + poolData s p b i)
      | none => miss
    | 1 => match prefixFind s p k p.lengths none with
      | some (l, b, i) => BitVec.ofNat 64 (2 ^ 63 + l * 2 ^ 48 + poolData s p b i)
      | none => miss
    | _ =>
      let i := ofBytes k
      let a := p.first * 65536 + 4 * i
      if i < p.pages * 16384 && s.poolSet.contains a then BitVec.ofNat 64 (2 ^ 63 + memNat s.pool a 4) else miss

/-- The bytes of an entry (R159). -/
def poolEntry (p : PoolTab) (key : List Byte) (len data : Nat) : List Byte :=
  slice (toBytes 1 0x80 ++ toBytes 1 len ++ toBytes 2 0 ++ toBytes 4 data ++ key) 0 (poolE p)

/-- The bucket an entry does not occupy (R426). -/
def poolOther (s : State) (p : PoolTab) (b i : Nat) : Nat :=
  let k := poolKeyAt s p b i
  let h1 := poolHash p false k.1 k.2
  if h1 = b then poolHash p true k.1 k.2 else h1

/-- Make the relocations of a path from its end back to its start (R162). -/
def poolMoves (s : State) (p : PoolTab) (path : List (Nat × Nat)) : State :=
  match path with
  | [] => s
  | x :: rest =>
    let s := poolMoves s p rest
    match rest with
    | [] => s
    | y :: _ =>
      let bs := memRead s.pool (poolAddr p x.1 x.2) (poolE p)
      { s with pool := memWrite (memWrite s.pool (poolAddr p y.1 y.2) bs) (poolAddr p x.1 x.2) (List.replicate (poolE p) 0) }

/-- A host insert into an EXACT or PREFIX table: none where no place can be made (R162). -/
def poolInsert (s : State) (p : PoolTab) (key : List Byte) (len data : Nat) : Option State :=
  let e := 256 / poolE p
  let b1 := poolHash p false key len
  let b2 := poolHash p true key len
  let put := fun (s : State) b i => { s with pool := memWrite s.pool (poolAddr p b i) (poolEntry p key len data) }
  match findUp e 0 (fun i => !poolUsed s p b1 i) with
  | some i => some (put s b1 i)
  | none =>
    match findUp e 0 (fun i => !poolUsed s p b2 i) with
    | some i => some (put s b2 i)
    | none =>
      match cuckooWalk 9 8 e (poolUsed s p) (poolOther s p) b1 0 [] with
      | none => none
      | some path => match path with
        | [] => none
        | x :: _ => some (put (poolMoves s p path) x.1 x.2)

/-- Delete an entry's place. -/
def poolFree (s : State) (p : PoolTab) (b i : Nat) : State :=
  { s with pool := memWrite s.pool (poolAddr p b i) (List.replicate (poolE p) 0) }

/-- Write an INDEX entry (R161). -/
def poolIndexWrite (s : State) (p : PoolTab) (i data : Nat) : State :=
  let a := p.first * 65536 + 4 * i
  { s with pool := memWrite s.pool a (toBytes 4 data),
           poolSet := if s.poolSet.contains a then s.poolSet else a :: s.poolSet }

/-- Free an INDEX entry. -/
def poolIndexFree (s : State) (p : PoolTab) (i : Nat) : State :=
  let a := p.first * 65536 + 4 * i
  { s with pool := memWrite s.pool a [0, 0, 0, 0], poolSet := s.poolSet.filter (· != a) }

/-- POOL.FILL: valid entries of a table (Table 7.11). -/
def poolFill (s : State) (p : PoolTab) : Nat :=
  if p.kind = 2 then (s.poolSet.filter fun a => p.first * 65536 ≤ a && a < (p.first + p.pages) * 65536).length
  else (s.pool.filter fun c => p.first * 65536 ≤ c.1 && c.1 < (p.first + p.pages) * 65536
    && (c.1 % 256) % poolE p == 0 && bit c.2.toNat 7).length

/-! ## Shuffle -/

/-- Bytes of a table's record as a slot holds it: header and 4,096 entries (R164). -/
def shufRecLen : Nat := 64 + 4 * 4096

/-- The record of table `t` in slot `e`: a table no deck has named reads all 0 but TABLE and COUNT (R164). -/
def shufRec (s : State) (e : Bool) (t : Nat) : List Byte :=
  let b := hotBody s e tyShuffle
  match findUp (b.length / shufRecLen) 0 fun i => fld b (shufRecLen * i) 1 == t with
  | some i => slice b (shufRecLen * i) shufRecLen
  | none => slice (toBytes 1 t ++ List.replicate 55 0 ++ toBytes 2 4096) 0 shufRecLen

/-- Replace the record of table `t`. -/
def setShuf (s : State) (e : Bool) (t : Nat) (r : List Byte) : State :=
  let b := hotBody s e tyShuffle
  match findUp (b.length / shufRecLen) 0 fun i => fld b (shufRecLen * i) 1 == t with
  | some i => setHot s e tyShuffle (patch b (shufRecLen * i) r)
  | none => setHot s e tyShuffle (b ++ r)

/-- Selector `i` of a header as it reads from a carried half (R166). -/
def shufSel (hdr cv : List Byte) (i : Nat) : List Byte := slice cv (fld hdr (4 + 2 * i) 1) (fld hdr (5 + 2 * i) 1)

/-- The hash input: selectors in order, a SYM pair with its smaller first (R166). -/
def shufInput (hdr cv : List Byte) : List Byte :=
  let a := shufSel hdr cv 0
  let b := shufSel hdr cv 1
  let c := shufSel hdr cv 2
  let d := shufSel hdr cv 3
  if bit (fld hdr 2 1) 0 then
    (if ofBytes b < ofBytes a then b ++ a else a ++ b) ++ (if ofBytes d < ofBytes c then d ++ c else c ++ d)
  else a ++ b ++ c ++ d

/-- The entry index a carried half hashes to (R166). -/
def shufIndex (hdr cv : List Byte) : Nat :=
  (if fld hdr 1 1 = 0 then crc32c (fld hdr 12 4) (shufInput hdr cv)
   else toeplitz (slice hdr 16 40) (shufInput hdr cv)) % 4096

/-- Entry `i` of a record. -/
def shufEntry (r : List Byte) (i : Nat) : Nat := fld r (64 + 4 * i) 4

/-- LS3 for table, index, entry value, and whether it came from a pin (Table 7.3, R167). -/
def shufWord (t i v : Nat) (pinned : Bool) : W64 :=
  BitVec.ofNat 64 (b2n (bit v 31) * 2 ^ 63 + t % 64 * 2 ^ 56 + i % 4096 * 2 ^ 44 + b2n pinned * 2 ^ 32 + v % 2 ^ 32)

end Sys2Proof.Machine
end

