-- ==== Sys2Proof/Machine/FlowOps.lean ====
section
/-!
DEFINITION. Flow records, the flow cache, suits and the stock, and the operations on one record
(08_flow_records.md R172 to R198; 09_flow_actions.md R199 to R203, R220).
Log entries: 11, 13, 44, 48.
-/
namespace Sys2Proof.Machine

open Sys2Proof

/-! ## Geometry -/

/-- A field of the FLOWGEOM body (Table 8.4). -/
def fgF (s : State) (off n : Nat) : Nat := coldF s tyFlowgeom off n

/-- Slots per bucket (Table 8.1). -/
def slotsOf (s : State) : Nat := match s.deck.geometry with | 1 => 16 | 3 => 4 | _ => 8
/-- Tag sector bytes. -/
def tagBytes (s : State) : Nat := 4 * slotsOf s
/-- First core word `c`. -/
def coreW (s : State) : Nat := if s.deck.geometry = 1 then 4 else 12
/-- Key words. -/
def keyWords (s : State) : Nat := coreW s
/-- The TAG word's number. -/
def tagW (s : State) : Nat := recWords s - 1
def keyBytes (s : State) : Nat := fgF s 1 1
/-- Buckets of the flow table (R172). -/
def nBuckets : Nat := 2 ^ 23
/-- Records of the table. -/
def nRecords (s : State) : Nat := nBuckets * slotsOf s
/-- The hot words in ascending order (Table 8.1, HOT_MAP). -/
def hotWords (s : State) : List Nat :=
  if s.deck.geometry = 1 then (List.range 11).map (· + 4)
  else ((List.range 8).map (· + 12)) ++ sortNat ((List.range 4).map fun i => fgF s (44 + i) 1)

/-- Window offset of bucket `b` (R172). -/
def bucketOff (s : State) (b : Nat) : Nat := fgF s 13 1 * 2 ^ 32 + 1024 * b
def tagOff (s : State) (b j : Nat) : Nat := bucketOff s b + 4 * j
/-- Window offset of the record in slot `j` of bucket `b` (R183). -/
def recOff (s : State) (b j : Nat) : Nat := bucketOff s b + tagBytes s + (recBytes s - 4) * j
/-- Word `w` of a record in HBM. -/
def recWordOff (s : State) (i w : Nat) : Nat := recOff s (i / slotsOf s) (i % slotsOf s) + 4 * w

/-! ## Hashing (R178) -/

def seedA (s : State) : Nat := nth s.seeds 0 0
def seedB (s : State) : Nat := nth s.seeds 1 0
def seedC (s : State) : Nat := nth s.seeds 2 0
def dkey (s : State) : Nat := nth s.seeds 3 0

def bucket1 (s : State) (key : List Byte) : Nat := crc32c (seedA s) key % nBuckets
def bucket2 (s : State) (key : List Byte) : Nat :=
  let b := crc32c (seedB s) key % nBuckets
  if b = bucket1 s key then bucket1 s key ^^^ 1 else b
/-- Sets of the cache. -/
def cacheSets (s : State) : Nat := cacheLines s / 16
def setOf (s : State) (key : List Byte) : Nat := crc32c (seedC s) key * cacheSets s / 2 ^ 32
def bankOf (s : State) (set : Nat) : Nat := if banks s = 0 then 0 else set % banks s
/-- DIGEST: bits [95:0] of SipHash-2-4-128 under DKEY (R178). -/
def digestOf (s : State) (key : List Byte) : Nat :=
  let k := toBytes 16 (dkey s)
  let o := siphash128 (BitVec.ofNat 64 (leNat (k.take 8))) (BitVec.ofNat 64 (leNat (k.drop 8))) key
  (o.1.toNat + o.2.toNat * 2 ^ 64) % 2 ^ 96

/-- The key a packet looks up: KEY_BYTES of its flow-key area. -/
def flowKey (s : State) (p : Pkt) : List Byte := slice p.cv 0x70 (keyBytes s)

/-! ## Registers -/

/-- FLOW counters of Tables 8.11 and 9.14. -/
def aFlow (k : Nat) : Nat := 0x100000000100 + 8 * k
def aHits : Nat := aFlow 0
def aMisses : Nat := aFlow 1
def aCreates : Nat := aFlow 2
def aInsertFail : Nat := aFlow 3
def aEvictions : Nat := aFlow 4
def aWritebacks : Nat := aFlow 5
def aDigestClash : Nat := aFlow 6
def aSetHeld : Nat := aFlow 7
def aSnapNoFetch : Nat := aFlow 8
def aSnapDiscard : Nat := aFlow 9
def aInsertLimited : Nat := aFlow 10
def aFsmUndef : Nat := aFlow 11
def aTelemNone : Nat := aFlow 12
def aStockFull : Nat := 0x110000000100
def aChainDrop : Nat := 0x110000000108
def aL3Discard : Nat := 0x110000000110
def aMirrorFull : Nat := 0x020000000108

/-! ## The CONF group (02_contracts_and_floors.md R43) -/

def aConfCtl : Nat := 0x280000000200
/-- OBS.CONF_LATCH: the latches of group CONF so far (Table 2.10). -/
def aConfLatch : Nat := 0x280000000208

/-- OBS.CONF_CTL: LIMIT_NS is loaded with the contract's guaranteed latency (Table 2.9). -/
def confCtl (s : State) : Nat := regRaw s aConfCtl (latencyLimit s * 2 ^ 16)
def confOn (s : State) : Bool := bit (confCtl s) 0

/-- A frame as the CONF group knows it. -/
def confKey (port rx : Nat) : Nat := port * 2 ^ 40 + rx % 2 ^ 40

/-- Saturating count of `w` bits; the bit above it is SAT. -/
def satInc (w x : Nat) : Nat := if x + 1 < 2 ^ w then x + 1 else ones w + 2 ^ w

/-- Count a flow-cache hit, a miss, or a completed write-back in the running interval. -/
def confHit (s : State) (mark : Option Nat) : State :=
  if confOn s then
    let c := { s.conf with hit := satInc 48 (s.conf.hit % 2 ^ 48) }
    { s with conf := match mark with | some k => { c with hot := k :: c.hot.filter (· != k) } | none => c }
  else s
def confMiss (s : State) : State :=
  if confOn s then { s with conf := { s.conf with miss := satInc 48 (s.conf.miss % 2 ^ 48) } } else s
def confRmw (s : State) : State :=
  if confOn s then { s with conf := { s.conf with rmw := satInc 48 (s.conf.rmw % 2 ^ 48) } } else s

/-- Timebase seconds. -/
def nowS (s : State) : Nat := nowNs s / 10 ^ 9

/-! ## Records in HBM and in the cache -/

def tagAt (s : State) (b j : Nat) : Nat := memNat s.hbm (tagOff s b j) 4

/-- The words of a record as HBM holds it, its TAG word last (R183). -/
def hbmRecord (s : State) (i : Nat) : List W32 :=
  (List.range (tagW s)).map (fun w => BitVec.ofNat 32 (memNat s.hbm (recWordOff s i w) 4))
    ++ [BitVec.ofNat 32 (tagAt s (i / slotsOf s) (i % slotsOf s))]

/-- The key bytes of a record's words. -/
def keyOf (s : State) (ws : List W32) : List Byte :=
  ((ws.take (keyWords s)).flatMap fun w => toBytes 4 w.toNat).take (keyBytes s)

/-- The key words that hold a key (R173). -/
def keyToWords (s : State) (key : List Byte) : List W32 :=
  (List.range (keyWords s)).map fun i => BitVec.ofNat 32 (wordAt (slice key 0 (4 * keyWords s)) i)

def Line.blank : Line where
  digest := 0
  index := 0
  lstate := .free
  dirty := false
  provisional := false
  words := []
  key := []
  hint := none
  gathered := none
  touches := (0, 0, 0)

def lineOf (s : State) (n : Nat) : Line := kgetD s.lines n Line.blank
def setLine (s : State) (n : Nat) (l : Line) : State := { s with lines := kset s.lines n l }
def freeLine (s : State) (n : Nat) : State := { s with lines := kdel s.lines n }
/-- A record write is applied in the set of line `n` (R33). -/
def wroteSet (s : State) (n : Nat) : State := { s with setWrote := kset s.setWrote (n / 16) s.clk }

/-- The line form of a suit: 2^27 + line number. -/
def lineSuit (n : Nat) : Nat := 2 ^ 27 + n
/-- The suit of the record of a line. -/
def suitOf (n : Nat) (l : Line) : Nat := if l.lstate == .record && !l.provisional then l.index else lineSuit n

/-- The line of set `g` that matches a digest (R180). -/
def findLine (s : State) (g dig : Nat) : Option Nat :=
  (findUp 16 (16 * g) fun n => (lineOf s n).lstate != .free && (lineOf s n).digest == dig)

/-- The cached line of a record index. -/
def lineAt (s : State) (i : Nat) : Option Nat :=
  (kfind s.lines fun _ l => l.lstate == .record && !l.provisional && l.index == i).map (·.1)

def setWord (ws : List W32) (w v : Nat) : List W32 := setNth ws w (BitVec.ofNat 32 v)
def wordOf (ws : List W32) (w : Nat) : Nat := (nth ws w 0).toNat

/-- The whole record at an index: hot words from its line when cached, the rest from HBM (R175). -/
def fullRecord (s : State) (i : Nat) : List W32 :=
  let base := hbmRecord s i
  match lineAt s i with
  | none => base
  | some n => (hotWords s).foldl (fun ws w => setNth ws w (nth (lineOf s n).words w 0)) base

/-- The words a packet's lookup latches: the hot words, 0 elsewhere (R175). -/
def hotImage (s : State) (ws : List W32) : List W32 :=
  let hw := hotWords s
  (enum 0 ws).map fun x => if hw.contains x.1 then x.2 else 0

/-- Numbered words as runs of consecutive ones: the first word's number and the run's bytes. -/
def wordRuns : List (Nat × W32) → List (Nat × List Byte)
  | [] => []
  | x :: rest => match wordRuns rest with
    | (k, bs) :: more => if x.1 + 1 = k then (x.1, toBytes 4 x.2.toNat ++ bs) :: more
        else (x.1, toBytes 4 x.2.toNat) :: (k, bs) :: more
    | [] => [(x.1, toBytes 4 x.2.toNat)]

/-- Write words of record `i` in one request (R321). -/
def writeWords (s : State) (source i : Nat) (ws : List (Nat × W32)) : State :=
  writeRuns s source ((wordRuns ws).map fun x => (recWordOff s i x.1, x.2))

/-- HBM source of the flow bank that serves a key (Table 14.1). -/
def keySource (s : State) (key : List Byte) : Nat := bankOf s (setOf s key)
/-- HBM source of service dealer `d` (Table 14.1). -/
def recSource (d : Nat) : Nat := d - 192

/-- The window offset of a place's tag word, by record index. -/
def tagWordOff (s : State) (i : Nat) : Nat := tagOff s (i / slotsOf s) (i % slotsOf s)

/-- The runs of bytes of a whole record with its tag word (R183). -/
def recordRuns (s : State) (i : Nat) (ws : List W32) (tag : Nat) : List (Nat × List Byte) :=
  [(tagWordOff s i, toBytes 4 tag), (recWordOff s i 0, (ws.take (tagW s)).flatMap fun w => toBytes 4 w.toNat)]

/-- Write a whole record and its tag word by a compare-and-set on the tag that the search for the place found (R185,
R321). -/
def writeRecord (s : State) (i : Nat) (ws : List W32) (tag : Nat) : State :=
  (compareSet s (keySource s (keyOf s ws)) (tagWordOff s i) (memNat s.hbm (tagWordOff s i) 4) (recordRuns s i ws tag)).2

/-- Clear the tag word of record `i`. -/
def clearTag (s : State) (source i : Nat) : State := hbmWrite s source (tagWordOff s i) [0, 0, 0, 0]

/-- A tag word (R183). -/
def tagWord (second : Bool) (dig : Nat) : Nat := 2 ^ 31 + b2n second * 2 ^ 30 + dig % 2 ^ 30

/-- Write a line's hot words back to its record's slot (R182). -/
def writeBack (s : State) (n : Nat) : State :=
  let l := lineOf s n
  if l.lstate == .record && !l.provisional && l.dirty then
    let s := writeWords s (bankOf s (n / 16)) l.index ((hotWords s).map fun w => (w, nth l.words w 0))
    setLine (confRmw (bump s aWritebacks)) n { l with dirty := false }
  else s

/-! ## Suits -/

def Suit.idle : Suit := ⟨none, [], []⟩
def suitAt (s : State) (n : Nat) : Suit := kgetD s.suits n Suit.idle
def suitFree (s : State) (n : Nat) : Bool := !khas s.suits n

/-- Key of trick context `c` of dealer `d`. -/
def trickKey (d c : Nat) : Nat := 256 * d + c
def trickAt (s : State) (d c : Nat) : Option Trick := kget s.tricks (trickKey d c)
def setTrick (s : State) (d c : Nat) (t : Trick) : State := { s with tricks := kset s.tricks (trickKey d c) t }
def modTrick (s : State) (d c : Nat) (f : Trick → Trick) : State := { s with tricks := kadj s.tricks (trickKey d c) f }

/-- A trick or task takes a suit. -/
def takeSuit (s : State) (n : Nat) (h : Holder) : State :=
  { s with suits := kset s.suits n { suitAt s n with holder := some h } }

/-- Join a suit's waiters in arrival order (R188). -/
def waitSuit (s : State) (n : Nat) (h : Holder) : State :=
  { s with suits := kset s.suits n { suitAt s n with waiters := (suitAt s n).waiters ++ [h] } }

/-! ## The keep bit -/

/-- The kitty slot that mirrors a record, by index or by line-form suit (R220). -/
def keepSlotOf (s : State) (i : Nat) : Option Nat := (kfind s.keep.slots fun _ r => r == i).map (·.1)

/-- Ask the mirroring task to copy a record (R220). -/
def mirrorDue (s : State) (i : Nat) : State :=
  if s.keep.queue.contains i then s else raiseHigh { s with keep := { s.keep with queue := s.keep.queue ++ [i] } } 109 (2 * (s.keep.queue.length + 1))

/-- Free a record's kitty slot (R220). -/
def unmirror (s : State) (i : Nat) : State :=
  let s := { s with keep := { s.keep with queue := s.keep.queue.filter (· != i) } }
  match keepSlotOf s i with
  | none => s
  | some k => { s with keep := { s.keep with slots := kdel s.keep.slots k },
                       kitty := memWrite s.kitty (128 * k) [0, 0, 0, 0] }

/-! ## Suits that move -/

/-- A suit moves from the line form to the index form, or with a relocated record, without release: whoever holds,
waits for or names it goes with it, and so does the kitty slot. -/
def moveSuit (s : State) (old new : Nat) : State :=
  let x := suitAt s old
  let y := suitAt s new
  let z : Suit := { holder := match y.holder with | some h => some h | none => x.holder,
                    waiters := y.waiters ++ x.waiters, chain := y.chain ++ x.chain }
  let suits := kdel s.suits old
  let suits := if z = Suit.idle then suits else kset suits new z
  let s := { s with
    suits := suits,
    tricks := kmap s.tricks fun _ t =>
      { t with suit := if t.suit == some old then some new else t.suit,
               more := t.more.map fun n => if n = old then new else n,
               wait := match t.wait with
                 | some (.suit n op out) => if n = old then some (.suit new op out) else t.wait
                 | some (.host n) => if n = old then some (.host new) else t.wait
                 | w => w },
    tasks := kmap s.tasks fun _ t => if t.body.suit == some old then { t with body := { t.body with suit := some new } } else t,
    stock := kmap s.stock fun _ p => if p.suit = old then { p with suit := new } else p,
    keep := { s.keep with queue := s.keep.queue.map fun i => if i = old then new else i,
                          slots := kmap s.keep.slots fun _ i => if i = old then new else i } }
  -- a mirrored record's slot names its index: it is copied again (R220)
  if (keepSlotOf s new).isSome then mirrorDue s new else s

/-! ## Effects on a record's words -/

/-- Bits of word `w` that WRITE, ADD and OR may change (R174); `arm`: the same commit posts or cancels a task, so the
TIMER flag and word are open to it (R195). -/
def wordMask (s : State) (arm : Bool) (w : Nat) : Nat :=
  let c := coreW s
  let timer := arm && s.deck.geometry != 1
  if w = c then 0xFFFF00FF + b2n timer * 2 ^ 12
  else if w = c + 6 || w = c + 7 then 0
  else if w = 29 && s.deck.geometry != 1 then (if timer then ones 18 else 0)
  else if w = tagW s then 0
  else ones 32

/-- What a commit's record effects read beside the record. -/
structure RecCtx where
  arm   : Bool
  len   : Nat
  flags : Nat
deriving DecidableEq, Repr

/-- TOUCH `n` packets of `bytes` bytes with these TCP flags (R174). -/
def touchWords (s : State) (ws : List W32) (n bytes flags : Nat) : List W32 :=
  let c := coreW s
  let t := now40 s
  let pk := min (wordOf ws (c + 3) * 256 + wordOf ws (c + 4) / 2 ^ 24 + n) (ones 40)
  let by_ := min (wordOf ws (c + 4) % 2 ^ 24 * 2 ^ 24 + wordOf ws (c + 5) / 256 + bytes) (ones 48)
  let w2 := wordOf ws (c + 2)
  let ws := setWord ws (c + 1) (t / 256)
  let ws := setWord ws (c + 2) (t % 256 * 2 ^ 24 + ((bits w2 23 16 ||| flags) % 256) * 2 ^ 16 + w2 % 2 ^ 16)
  let ws := setWord ws (c + 3) (pk / 256)
  let ws := setWord ws (c + 4) (pk % 256 * 2 ^ 24 + by_ / 2 ^ 24)
  let ws := setWord ws (c + 5) (by_ % 2 ^ 24 * 256 + wordOf ws (c + 5) % 256)
  setWord ws (c + 6) (setBits (wordOf ws (c + 6)) 13 0 (nowS s))

/-- One logged effect on a record's words (R174, R202, R168). -/
def recEffect (s : State) (x : RecCtx) (ws : List W32) (e : Effect) : List W32 :=
  let c := coreW s
  match e with
  | .word op field v =>
    let old := wordOf ws field
    let new := if op = 5 then v.toNat else if op = 6 then (old + v.toNat) % 2 ^ 32 else old ||| v.toNat
    let m := wordMask s x.arm field
    setWord ws field ((old &&& (ones 32 - m)) ||| (new &&& m))
  | .fsm next age =>
    let w := wordOf ws c
    let w := match next with | some n => setBits w 31 24 n | none => w
    let w := match age with | some a => setBits w 19 16 a | none => w
    setWord ws c w
  | .touch => touchWords s ws 1 x.len x.flags
  | .pin t i v =>
    let ws := setWord ws c (setBits (wordOf ws c) 13 13 1)
    let ws := setWord ws (c + 6) (setBits (setBits (wordOf ws (c + 6)) 31 26 t) 25 14 i)
    setWord ws (c + 7) v.toNat
  | .keep on => setWord ws c (setBits (wordOf ws c) 14 14 (b2n on))
  | _ => ws

/-- The record a create builds (R174). -/
def createWords (s : State) (key : List Byte) (syn : Bool) (fsmId age : Nat) : List W32 :=
  let c := coreW s
  let ws := keyToWords s key ++ List.replicate (recWords s - keyWords s) (0 : W32)
  let ws := setWord ws c (fsmId % 16 * 2 ^ 20 + age % 16 * 2 ^ 16 + 2 ^ 15 + b2n syn * 2 ^ 11)
  let t := now40 s
  let ws := setWord ws (c + 1) (t / 256)
  let ws := setWord ws (c + 2) (t % 256 * 2 ^ 24)
  let ws := setWord ws (c + 6) (nowS s % 2 ^ 14)
  if s.deck.geometry = 1 then ws else setWord ws 28 (nowS s % 2 ^ 32)

/-- The keep bit of a record's words. -/
def keepBit (s : State) (ws : List W32) : Bool := bit (wordOf ws (coreW s)) 14
def timerBit (s : State) (ws : List W32) : Bool := bit (wordOf ws (coreW s)) 12
def pinnedBit (s : State) (ws : List W32) : Bool := bit (wordOf ws (coreW s)) 13

/-! ## The dispatcher's choice, releases and cancels (R188, R189, R234 to R239) -/

/-- Contexts in use in a dealer. -/
def tricksOf (s : State) (d : Nat) : KMap Trick := kfilter s.tricks fun k _ => k / 256 == d

def isReentry (t : Task) : Bool := match t.kind with | .reentry => true | _ => false

/-- Contexts of service dealer `d` blocked in TAKE (R93). -/
def inTake (s : State) (d : Nat) : Nat := 256 - (tricksOf s d).length

/-- The service dealer with the most contexts blocked in TAKE, the lowest on a tie (R234). -/
def takeDealer (s : State) : Nat :=
  (List.range 64).foldl (fun b i => if inTake s b < inTake s (224 + i) then 224 + i else b) 224

/-- Task `a` entered its ready list before `b` (R232). -/
def taskBefore (a b : Task) : Bool :=
  if a.readyClk != b.readyClk then a.readyClk < b.readyClk
  else if a.via != b.via then a.via < b.via else a.order < b.order

/-- The oldest of tasks. -/
def oldestTask (ts : List (Nat × Task)) : Option (Nat × Task) :=
  ts.foldl (fun b x => match b with | none => some x | some y => if taskBefore x.2 y.2 then some x else some y) none

/-- A task that holds the suit it waited for. -/
def suitGranted (s : State) (e : Nat × Task) : Bool :=
  e.2.state == .suitWait && (match e.2.body.suit with
    | some x => (suitAt s x).holder == some (.task e.1)
    | none => true)

/-- It stood on a delay list, expired, and is marked urgent (R234). -/
def urgentDue (e : Nat × Task) : Bool := e.2.urgent && 0 < e.2.body.delay && !e.2.delayed

/-- The next task by R234 and R235: urgent ones, then level by level those granted their suit, then the oldest READY. -/
def nextTask (s : State) : Option (Nat × Task) :=
  let live := s.tasks.filter fun e => !isReentry e.2 && (e.2.state == .ready || suitGranted s e)
  match oldestTask (live.filter urgentDue) with
  | some x => some x
  | none => (List.range 8).findSome? fun l =>
      let at_ := live.filter fun e => e.2.level == l
      match oldestTask (at_.filter fun e => e.2.state == .suitWait) with
      | some x => some x
      | none => oldestTask at_

/-- The scheduler would dispatch task `h` in this clk (R234): it has dispatched none yet, `h` comes next, and a context
is blocked in TAKE. -/
def dispatchesNow (s : State) (h : Nat) : Bool :=
  !held s && s.lastDisp != some s.clk && (nextTask s).map (·.1) == some h && 0 < inTake s (takeDealer s)

/-- The suit of a waiter becomes its own: a trick's flow operation completes at the dealer's next issue, and the suit it
held before stays its own too until COMMIT (Table 4.14); a task is dispatched ahead of its level (R188, R235). -/
def wakeHolder (s : State) (n : Nat) (h : Holder) : State :=
  match h with
  | .trick d c => modTrick s d c fun t =>
      { t with suit := some n, more := match t.suit with | some m => m :: t.more | none => t.more,
               wait := match t.wait with | some (.suit _ op out) => some (.woken op out) | w => w }
  | _ => s

/-- Release suit `n` (R188, R189): the chain's next packet is made ready, or the oldest waiter takes it, or it is free
and an ABSENT line of its own is freed (R184). -/
def releaseSuit (s : State) (n : Nat) : State :=
  let x := suitAt s n
  match x.chain with
  | k :: _ =>
    let s := { s with suits := kset s.suits n { x with holder := some .chain },
                      stock := kadj s.stock k fun p => { p with head := true } }
    decCount s (reentryHandle k)
  | [] => match x.waiters with
    | h :: r => wakeHolder { s with suits := kset s.suits n { x with holder := some h, waiters := r } } n h
    | [] =>
      let s := { s with suits := kdel s.suits n }
      if 2 ^ 27 ≤ n && (lineOf s (n - 2 ^ 27)).lstate == .absent then freeLine s (n - 2 ^ 27) else s

/-- Cancel a task (R238): it must be DELAYED, WAITING, READY or SUIT_WAIT, no re-entry task, and the canceller
must hold no suit or the task's own; otherwise CANCEL_MISS counts. A suit it was granted is released. It is a race when
the task became ready in this clk or would be dispatched in it (R239). -/
def cancelTask (s : State) (h : Nat) (held : Option Nat) (dealer ctx : Nat) : State :=
  match kget s.tasks h with
  | none => bump s aCancelMiss
  | some t =>
    let okState := t.state == .delayed || t.state == .waiting || t.state == .ready || t.state == .suitWait
    let okSuit := match held with | none => true | some x => t.body.suit == some x
    if okState && okSuit && !isReentry t then
      let race := (t.state == .ready && t.readyClk == s.clk) || dispatchesNow s h
      let s := match t.body.suit with
        | some x => if (suitAt s x).holder == some (.task h) then releaseSuit s x else unwait s x h
        | none => s
      let s := bump (endTask s h) aCancelled
      let s := if race then bump s aCancelReady else s
      traceTask s 3 race h (some t.body) dealer ctx
    else bump s aCancelMiss

/-! ## Placing, moving and deleting records -/

/-- A place of the flow table holds a record. -/
def placeUsed (s : State) (b j : Nat) : Bool := bit (tagAt s b j) 31

/-- The bucket that the record of a place does not occupy: its candidates come from its key words, SECOND says which
it occupies (R426). -/
def flowOther (s : State) (b j : Nat) : Nat :=
  let k := keyOf s (hbmRecord s (b * slotsOf s + j))
  if bit (tagAt s b j) 30 then bucket1 s k else bucket2 s k

/-- What tricks have latched or logged at index `i` now stands at index `j`. -/
def renameIndex (s : State) (i j : Nat) : State :=
  let go := fun (a : Option RecAt) => if a == some (.index i) then some (RecAt.index j) else a
  { s with tricks := kmap s.tricks fun _ t =>
      { t with recAt := go t.recAt, log := t.log.map fun e => { e with at_ := go e.at_ } } }

/-- Move a record to another place: written there, tag included, with its line's INDEX, before its old tag is
cleared (R185). -/
def moveRecord (s : State) (a b : Nat × Nat) : State :=
  let i := a.1 * slotsOf s + a.2
  let j := b.1 * slotsOf s + b.2
  let tag := tagAt s a.1 a.2
  let s1 := writeRecord s j (hbmRecord s i) (setBits tag 30 30 (b2n (!bit tag 30)))
  let s2 := match lineAt s1 i with
    | some n => setLine s1 n { lineOf s1 n with index := j }
    | none => s1
  clearTag (renameIndex (moveSuit s2 i j) i j) (keySource s (keyOf s (hbmRecord s i))) i

/-- Make a path's moves from its end back to its start. -/
def flowMoves (s : State) (path : List (Nat × Nat)) : State :=
  match path with
  | [] => s
  | x :: rest =>
    let s := flowMoves s rest
    match rest with
    | [] => s
    | y :: _ => moveRecord s x y

/-- A place for a key: a free slot of h1, then of h2, else the one a cuckoo path of at most 32 moves frees in h1;
none leaves everything where it stands (R185, R426). -/
def makePlace (s : State) (key : List Byte) : Option (State × Nat × Bool) :=
  let e := slotsOf s
  let b1 := bucket1 s key
  let b2 := bucket2 s key
  match findUp e 0 (fun j => !placeUsed s b1 j) with
  | some j => some (s, b1 * e + j, false)
  | none =>
    match findUp e 0 (fun j => !placeUsed s b2 j) with
    | some j => some (s, b2 * e + j, true)
    | none =>
      match cuckooWalk 33 32 e (placeUsed s) (flowOther s) b1 0 [] with
      | some (x :: rest) => some (flowMoves s (x :: rest), x.1 * e + x.2, false)
      | _ => none

/-- Words of a line that stay in the cache once its record is in HBM: the hot words. -/
def lineHot (s : State) (ws : List W32) : List W32 := hotImage s ws

/-- A PROVISIONAL line's insert lands, or fails and loses the record (R185). -/
def landLine (s : State) (n : Nat) : State :=
  let l := lineOf s n
  if l.lstate == .record && l.provisional then
    match makePlace s l.key with
    | some (s, i, second) =>
      let s := writeRecord s i l.words (tagWord second l.digest)
      moveSuit (setLine s n { l with provisional := false, dirty := false, index := i, words := lineHot s l.words })
        (lineSuit n) i
    | none => unmirror (bump (freeLine s n) aInsertFail) (lineSuit n)
  else s

/-- The task of a PROVISIONAL line's insert (R185, R229); its SERVICE routine is a free value, since no chapter
assigns one (assumption 13, DESIGN CHOICE). -/
def postInsert (s : State) (n : Nat) : Option State :=
  let d := draw s
  let b : TaskBody := { args := [0, 0, 0, 0], suit := some (lineSuit n), succ := none, routine := d.1 % 256, list := 0,
                        urgent := false, level := tskLevel s 1, delay := 0, origin := 2 }
  (partPost d.2 b (.insert n)).map (·.2)

/-- PROVISIONAL lines of a bank (R185). -/
def bankProv (s : State) (bank : Nat) : Nat :=
  (s.lines.filter fun e => e.2.provisional && bankOf s (e.1 / 16) == bank).length

/-- The start window runs (R193). -/
def inWindow (s : State) : Bool := s.clk - s.deck.appliedClk < fgF s 8 2 * 1000 * usClk

/-- A create is placed: it counts, and uses one of its bank's window (R193). -/
def countCreate (s : State) (bank : Nat) : State :=
  let s := bump s aCreates
  let w := kgetD s.windows bank (0, 0)
  if inWindow s then { s with windows := kset s.windows bank (w.1, w.2 + 1) } else s

/-- The hinted slot of an ABSENT line, while its tag is still 0 (R185). -/
def hintFree (s : State) (l : Line) : Option Nat :=
  l.hint.bind fun i => if tagAt s (i / slotsOf s) (i % slotsOf s) = 0 then some i else none

/-- A create whose hinted slot is taken: its compare-and-set fails (R185). -/
def hintMiss (s : State) (n : Nat) : State := match (lineOf s n).hint with
  | some i => (compareSet s (bankOf s (n / 16)) (tagWordOff s i) 0 []).2
  | none => s

/-- A record is written into the hinted slot `i` by compare-and-set, and the line holds it (R185). -/
def placeHinted (s : State) (n i : Nat) (ws : List W32) : State :=
  let l := lineOf s n
  let s := writeRecord s i ws (tagWord (i / slotsOf s != bucket1 s l.key) l.digest)
  moveSuit (setLine s n { l with lstate := .record, index := i, dirty := false, provisional := false,
                                 words := lineHot s ws, hint := none }) (lineSuit n) i

/-- A create places its record: into the hinted slot when its tag is still 0, else PROVISIONAL with an insert task; a
257th PROVISIONAL line of the bank is refused (R185). -/
def placeCreate (s : State) (n : Nat) (ws : List W32) : State :=
  let l := lineOf s n
  let bank := bankOf s (n / 16)
  match hintFree s l with
  | some i => wroteSet (placeHinted (countCreate s bank) n i ws) n
  | none =>
    let s := hintMiss s n
    if 256 ≤ bankProv s bank then bump s aInsertLimited
    else
      let s := setLine (countCreate s bank) n { l with lstate := .record, provisional := true, words := ws, hint := none }
      match postInsert s n with
      | some s => wroteSet s n
      | none => bump (freeLine s n) aInsertFail

/-- Words of the record where a trick latched it. -/
def wordsAt (s : State) : RecAt → List W32
  | .line n =>
    let l := lineOf s n
    if l.provisional then l.words
    else (enum 0 (hbmRecord s l.index)).map fun x => if (hotWords s).contains x.1 then nth l.words x.1 0 else x.2
  | .index i => (match lineAt s i with
    | some _ => fullRecord s i
    | none => hbmRecord s i)
  | .gather .. => []

/-- The record's suit or index, for the kitty. -/
def recName (s : State) : RecAt → Nat
  | .line n => suitOf n (lineOf s n)
  | .index i => i
  | .gather n _ => lineSuit n

/-- The place still holds a record. -/
def recLive (s : State) : RecAt → Bool
  | .line n => (lineOf s n).lstate == .record
  | .index i => (lineAt s i).isSome || placeUsed s (i / slotsOf s) (i % slotsOf s)
  | .gather .. => false

/-- Cancel the timer that a record's words name (R186, R195). -/
def cancelTimer (s : State) (ws : List W32) (held : Option Nat) (dealer ctx : Nat) : State :=
  if timerBit s ws && s.deck.geometry != 1 then cancelTask s (wordOf ws 29 % 2 ^ 18) held dealer ctx else s

/-- Delete the record of a line (R186): its line is freed, its tag cleared, its timer and a pending insert cancelled,
its kitty slot freed. -/
def deleteLine (s : State) (n : Nat) (held : Option Nat) (dealer ctx : Nat) : State :=
  let l := lineOf s n
  let s := unmirror (wroteSet (cancelTimer s (wordsAt s (.line n)) held dealer ctx) n) (suitOf n l)
  if l.provisional then
    match kfind s.tasks (fun _ t => t.kind == .insert n) with
    | some (h, _) => cancelTask (freeLine s n) h held dealer ctx
    | none => freeLine s n
  else clearTag (freeLine s n) (bankOf s (n / 16)) l.index

/-- Delete a record that no line holds. -/
def deleteIndex (s : State) (i : Nat) (held : Option Nat) (dealer ctx : Nat) : State :=
  clearTag (unmirror (cancelTimer s (hbmRecord s i) held dealer ctx) i) (recSource dealer) i

/-- Store changed words of a line: hot words in the line, dirty; cold words of a placed record in HBM. -/
def storeLine (s : State) (n : Nat) (old new : List W32) : State :=
  let l := lineOf s n
  if l.provisional then wroteSet (setLine s n { l with words := new, dirty := true }) n
  else
    let hw := hotWords s
    let s := wroteSet (writeWords s (bankOf s (n / 16)) l.index ((enum 0 new).filter fun x =>
      !hw.contains x.1 && x.1 != tagW s && x.2 != nth old x.1 0)) n
    if hotImage s new = hotImage s old then s
    else setLine s n { lineOf s n with words := lineHot s new, dirty := true }

/-- Store changed words of a record that no line holds. -/
def storeIndex (s : State) (source i : Nat) (old new : List W32) : State :=
  writeWords s source i ((enum 0 new).filter fun x => x.1 != tagW s && x.2 != nth old x.1 0)

/-- Apply the logged effects of one record as a single update (R86), with the mirroring of R220; a record that is there
no more takes none. -/
def applyRecord (s : State) (at_ : RecAt) (x : RecCtx) (es : List Effect) (held : Option Nat) (dealer ctx : Nat) : State :=
  if es.isEmpty || !recLive s at_ then s
  else if es.contains .delete then
    match at_ with
    | .gather .. => s
    | .line n => deleteLine s n held dealer ctx
    | .index i => (match lineAt s i with
      | some n => deleteLine s n held dealer ctx
      | none => deleteIndex s i held dealer ctx)
  else
    let old := wordsAt s at_
    let new := es.foldl (recEffect s x) old
    let s := match at_ with
      | .line n => storeLine s n old new
      | .index i => (match lineAt s i with
        | some n => storeLine s n old new
        | none => storeIndex s (recSource dealer) i old new)
      | .gather .. => s
    let name := recName s at_
    if keepBit s new then
      if !keepBit s old then mirrorDue s name
      else if new != old && ((keepSlotOf s name).isSome || s.keep.queue.contains name) then mirrorDue s name else s
    else if keepBit s old then unmirror s name else s

/-! ## Fetches -/

/-- The result of a fetch: the record index, or the hint of the first free slot of h1, then of h2 (R184). -/
inductive Fetched
  | found (i : Nat)
  | absent (hint : Option Nat)
deriving DecidableEq, Repr

/-- Places of h1 and then of h2 in slot order. -/
def bothPlaces (s : State) (key : List Byte) : List (Nat × Nat) :=
  ((List.range (slotsOf s)).map fun j => (bucket1 s key, j)) ++ ((List.range (slotsOf s)).map fun j => (bucket2 s key, j))

/-- A tag word as the reads of a line's fetch found it (R184, R322). -/
def lineTag (s : State) (n b j : Nat) : Nat :=
  match (kgetD s.hbmc.tags n []).find? fun r => r.addr == bucketOff s b with
  | some r => ofBytes (slice r.bytes (4 * j) 4)
  | none => 0

/-- Find a key in the HBM table by the tag words that its reads found (R184). -/
def fetchFind (tag : Nat → Nat → Nat) (s : State) (key : List Byte) : Fetched :=
  let fp := digestOf s key % 2 ^ 30
  let ps := bothPlaces s key
  match ps.find? (fun p => bit (tag p.1 p.2) 31 && tag p.1 p.2 % 2 ^ 30 == fp
      && keyOf s (hbmRecord s (p.1 * slotsOf s + p.2)) == key) with
  | some p => .found (p.1 * slotsOf s + p.2)
  | none => .absent ((ps.find? fun p => tag p.1 p.2 = 0).map fun p => p.1 * slotsOf s + p.2)

/-- Record indices that a fetch reads: those of VALID tags with its FP, in slot order of h1 and then of h2, up to the
one found (R184). -/
def fetchVisits (tag : Nat → Nat → Nat) (s : State) (key : List Byte) (r : Fetched) : List Nat :=
  let fp := digestOf s key % 2 ^ 30
  let all := ((bothPlaces s key).filter fun p => bit (tag p.1 p.2) 31 && tag p.1 p.2 % 2 ^ 30 == fp).map fun p =>
    p.1 * slotsOf s + p.2
  match r with
  | .found i => all.takeWhile (· != i) ++ [i]
  | .absent _ => all

/-- The tag sectors of both buckets are read by one request each (R184, Table 14.6). -/
def tagReads (s : State) (source : Nat) (key : List Byte) : State :=
  let s := readPiece s source (bucketOff s (bucket1 s key)) (tagBytes s)
  readPiece s source (bucketOff s (bucket2 s key)) (tagBytes s)

/-- Records `is` are read (R184). -/
def recordReads (s : State) (source : Nat) (is : List Nat) : State :=
  is.foldl (fun s i => (hbmRead s source (recWordOff s i 0) (recBytes s - 4)).1) s

/-- Some tag sector of a key's buckets is poisoned; some record of `is` is (R327). -/
def tagPoison (s : State) (key : List Byte) : Bool :=
  hbmPoisoned s (bucketOff s (bucket1 s key)) (tagBytes s) || hbmPoisoned s (bucketOff s (bucket2 s key)) (tagBytes s)
def recordPoison (s : State) (is : List Nat) : Bool := is.any fun i => hbmPoisoned s (recWordOff s i 0) (recBytes s - 4)

/-- Fetches outstanding in a bank: its PENDING lines. -/
def bankFetches (s : State) (bank : Nat) : Nat :=
  (s.lines.filter fun e => e.2.lstate == .pending && bankOf s (e.1 / 16) == bank).length

/-- Key of the high-water mark of a bank's outstanding fetches (Table 8.9). -/
def hwFetch : Nat := 3000

/-- The pseudo-LRU bits of a set after way `w` is used: the four nodes on its path point away from it (R182). -/
def plruTouch (b w : Nat) : Nat :=
  (List.range 4).foldl (fun b i =>
    let node := 2 ^ i + w / 2 ^ (4 - i)
    setBits b (node - 1) (node - 1) (1 - w / 2 ^ (3 - i) % 2)) b

/-- The way that the tree points to among candidates, from `node` down; a half without a candidate is passed by. -/
def plruPick (fuel node b : Nat) (ws : List Nat) : Option Nat :=
  match fuel with
  | 0 => ws.head?
  | k + 1 =>
    let on := bit b (node - 1)
    let here := ws.filter fun w => bit w k == on
    if here.isEmpty then plruPick k (2 * node + b2n (!on)) b ws else plruPick k (2 * node + b2n on) b here

/-- A line is used now (R182). -/
def useLine (s : State) (n : Nat) : State :=
  { s with plru := kset s.plru (n / 16) (plruTouch (kgetD s.plru (n / 16) 0) (n % 16)) }

/-- The line an ordered miss may take in set `g`: a FREE line whose line-form suit is free, else the RECORD line that
the pseudo-LRU names of those that are not PROVISIONAL and whose suit is free, clean ones first (R182). -/
def victim (s : State) (g : Nat) : Option Nat :=
  match findUp 16 (16 * g) (fun n => (lineOf s n).lstate == .free && suitFree s (lineSuit n)) with
  | some n => some n
  | none =>
    let cand := (List.range 16).filter fun w =>
      let l := lineOf s (16 * g + w)
      l.lstate == .record && !l.provisional && suitFree s l.index
    let clean := cand.filter fun w => !(lineOf s (16 * g + w)).dirty
    (plruPick 4 1 (kgetD s.plru g 0) (if clean.isEmpty then cand else clean)).map (16 * g + ·)

/-- Allocate a PENDING line for a key and issue its fetch (R182, R184). -/
def allocPending (s : State) (n : Nat) (key : List Byte) : State :=
  let l := lineOf s n
  let s := if l.lstate == .record then bump (writeBack s n) aEvictions else s
  let s := useLine (setLine s n { Line.blank with digest := digestOf s key, lstate := .pending, key := key }) n
  let bank := bankOf s (n / 16)
  let s := queueReq s bank (bucketOff s (bucket1 s key)) (tagBytes s) n false
  let s := queueReq s bank (bucketOff s (bucket2 s key)) (tagBytes s) n false
  bump (raiseHigh s hwFetch (bankFetches s bank)) aMisses

/-! ## Create limits -/

/-- Creates that window `k` of a bank admits (R193). -/
def windowQuota (s : State) (k : Nat) : Nat := (k + 1) * fgF s 6 2 / 2 - k * fgF s 6 2 / 2

/-- Creates logged for lines of a bank and not yet placed: all of them, and those of lines without a hint. -/
def createsOut (s : State) (bank : Nat) : Nat × Nat :=
  let ns := s.tricks.flatMap fun e => e.2.log.filterMap fun x => match x.eff, x.at_ with
    | .create .., some (.line n) => if bankOf s (n / 16) = bank then some n else none
    | _, _ => none
  (ns.length, (ns.filter fun n => (lineOf s n).hint.isNone).length)

/-- The bank of line `n` admits a create into it, the logged ones counted (R193, R185); it uses its window when it is
placed. -/
def createOk (s : State) (n : Nat) : Bool :=
  let bank := bankOf s (n / 16)
  let out := createsOut s bank
  let w := kgetD s.windows bank (0, 0)
  ((lineOf s n).hint.isSome || bankProv s bank + out.2 < 256) && (!inWindow s || w.2 + out.1 < windowQuota s w.1)

end Sys2Proof.Machine
end

