-- ==== Sys2Proof/Machine/TmCfg.lean ====
section
/-!
DEFINITION. Queues, groups and ports of the traffic manager as the deck and the host set them, shapers, policers,
curves and the pot's cells (11_fabric_and_pots.md R254 to R258; 12_traffic_manager.md R271 to R285).
Log entries: 17, 18, 40, 41, 50.
-/
namespace Sys2Proof.Machine

open Sys2Proof

/-! ## The QUEUES body -/

/-- A byte field of QUEUES record `i` (R258). -/
def quF (s : State) (i off n : Nat) : Nat := coldF s tyQueues (32 * i + off) n

/-- Records of the QUEUES body. -/
def quCount (s : State) : Nat := (coldBody s tyQueues).length / 32

/-- The RANGE record that covers queue `q` (Table 11.6). -/
def quRange (s : State) (q : Nat) : Option Nat :=
  findUp (quCount s) 0 fun i => quF s i 0 1 == 2 && quF s i 2 2 ≤ q && q ≤ quF s i 4 2

def queueEnabled (s : State) (q : Nat) : Bool := (quRange s q).isSome
def queueProfile (s : State) (q : Nat) : Nat := match quRange s q with | some i => quF s i 1 1 | none => 0
/-- The egress port of a queue (R244). -/
def queuePort (s : State) (q : Nat) : Nat := match quRange s q with | some i => quF s i 6 1 | none => 0

/-- The PROFILE record `n` (Table 11.5). -/
def quProfile (s : State) (n : Nat) : Option Nat :=
  findUp (quCount s) 0 fun i => quF s i 0 1 == 1 && quF s i 1 1 == n

def profileMin (s : State) (n : Nat) : Nat := match quProfile s n with | some i => quF s i 4 4 | none => 0
def profileMax (s : State) (n : Nat) : Nat := match quProfile s n with | some i => quF s i 8 4 | none => 0
def queueMin (s : State) (q : Nat) : Nat := profileMin s (queueProfile s q)
def queueMax (s : State) (q : Nat) : Nat := profileMax s (queueProfile s q)

/-- LOSSLESS, XOFF_CELLS and XON_CELLS of the GLOBAL record (Table 11.4). -/
def potLossless (s : State) : Nat := quF s 0 1 1
def xoffCells (s : State) : Nat := quF s 0 4 4
def xonCells (s : State) : Nat := quF s 0 8 4

/-- Sum of MIN over the queues of pot `p` (R255). -/
def potMinSum (s : State) (p : Nat) : Nat :=
  ((List.range (quCount s)).map fun i =>
    if quF s i 0 1 == 2 && quF s i 2 2 / 2048 == p then
      (quF s i 4 2 + 1 - quF s i 2 2) * profileMin s (quF s i 1 1) else 0).sum

/-! ## The TM body -/

def tmF (s : State) (i off n : Nat) : Nat := coldF s tyTm (32 * i + off) n
def tmCount (s : State) : Nat := (coldBody s tyTm).length / 32

/-- The record of a KIND that satisfies `p`. -/
def tmFind (s : State) (kind : Nat) (p : Nat → Bool) : Option Nat :=
  findUp (tmCount s) 0 fun i => tmF s i 0 1 == kind && p i

/-- Member `x` of a range of COUNT members from FIRST in steps of `stride`. -/
def inRange (x first count stride : Nat) : Bool :=
  first ≤ x && (x - first) % stride == 0 && (x - first) / stride < count

def tmPort (s : State) (p : Nat) : Option Nat := tmFind s 1 fun i => tmF s i 1 1 == p
def tmGroup (s : State) (g : Nat) : Option Nat := tmFind s 2 fun i => inRange g (tmF s i 2 2) (tmF s i 4 2) 1
def tmQueue (s : State) (q : Nat) : Option Nat :=
  tmFind s 3 fun i => inRange q (tmF s i 2 2) (tmF s i 4 2) (tmF s i 1 1)
def tmPolicer (s : State) (n : Nat) : Option Nat := tmFind s 4 fun i => inRange n (tmF s i 2 2) (tmF s i 4 2) 1
def tmSample (s : State) (g : Nat) : Option Nat := tmFind s 5 fun i => tmF s i 1 1 == g

/-- ECT_BIT and CE_BIT of the GLOBAL record. -/
def ectBit (s : State) : Nat := tmF s 0 1 1 % 32
def ceBit (s : State) : Nat := tmF s 0 2 1 % 32

/-! ## Windows: the deck's value, or what the host wrote since it applied (R289) -/

def aTmQueue (q w : Nat) : Nat := 0x1A0010000000 + q * 0x80 + 8 * w
def aTmGroup (g w : Nat) : Nat := 0x1A0020000000 + g * 0x20 + 8 * w
def aTmPort (p w : Nat) : Nat := 0x1A0030000000 + p * 0x20 + 8 * w
def aTmPolicer (n w : Nat) : Nat := 0x1A0040000000 + n * 0x20 + 8 * w
def aTmCtr (k : Nat) : Nat := 0x1A0000000100 + 8 * k
def aGateHoldCount : Nat := aTmCtr 0
def aSampleSkip : Nat := aTmCtr 1
def aCfgReject : Nat := aTmCtr 2
def aSGroup (g : Nat) : Nat := 0x1A0000000200 + 8 * g
/-- Queue counter `k` of Table 12.6: CURVE_DROP, CURVE_MARK, TX_FRAMES, TX_BYTES, GATE_HOLD. -/
def aTmQCtr (q k : Nat) : Nat := 0x1A0010000000 + q * 0x80 + 0x40 + 8 * k

def queueRateD (s : State) (q : Nat) : Nat := match tmQueue s q with
  | some i => tmF s i 12 4 % 2 ^ 21 + tmF s i 10 2 * 2 ^ 21 | none => 0
def queueCfgD (s : State) (q : Nat) : Nat := match tmQueue s q with
  | some i => tmF s i 8 2 + tmF s i 17 1 % 8 * 2 ^ 16 + tmF s i 16 1 % 8 * 2 ^ 19
      + (tmF s i 6 2 + (q - tmF s i 2 2) / tmF s i 1 1) % 2 ^ 13 * 2 ^ 22 + b2n (bit (tmF s i 21 1) 6) * 2 ^ 35
  | none => 0
/-- GREEN in the low byte, then YELLOW, then RED (assumption 17, DEDUCED). -/
def queueCurveD (s : State) (q : Nat) : Nat := match tmQueue s q with
  | some i => tmF s i 18 1 + tmF s i 19 1 * 2 ^ 8 + tmF s i 20 1 * 2 ^ 16 + b2n (bit (tmF s i 21 1) 7) * 2 ^ 24
      + tmF s i 21 1 % 16 * 2 ^ 25 + tmF s i 22 1 % 16 * 2 ^ 29 + b2n (bit (tmF s i 21 1) 5) * 2 ^ 33
  | none => 0

def queueRate (s : State) (q : Nat) : Nat := regRaw s (aTmQueue q 0) (queueRateD s q)
def queueCfg (s : State) (q : Nat) : Nat := regRaw s (aTmQueue q 1) (queueCfgD s q)
def queueCurve (s : State) (q : Nat) : Nat := regRaw s (aTmQueue q 2) (queueCurveD s q)

def qQuantum (s : State) (q : Nat) : Nat := bits (queueCfg s q) 15 0
def qPrio (s : State) (q : Nat) : Nat := bits (queueCfg s q) 18 16
def qTc (s : State) (q : Nat) : Nat := bits (queueCfg s q) 21 19
def qGroup (s : State) (q : Nat) : Nat := bits (queueCfg s q) 34 22
def qOverrun (s : State) (q : Nat) : Bool := bit (queueCfg s q) 35
def qCurveOf (s : State) (q colour : Nat) : Nat :=
  if colour = 0 then bits (queueCurve s q) 7 0 else if colour = 1 then bits (queueCurve s q) 15 8
  else bits (queueCurve s q) 23 16
def qMark (s : State) (q : Nat) : Bool := bit (queueCurve s q) 24
def qWeight (s : State) (q : Nat) : Nat := bits (queueCurve s q) 28 25
def qSGroup (s : State) (q : Nat) : Nat := bits (queueCurve s q) 32 29
def qSampled (s : State) (q : Nat) : Bool := bit (queueCurve s q) 33

def groupRateD (s : State) (g : Nat) : Nat := match tmGroup s g with
  | some i => tmF s i 12 4 % 2 ^ 21 + tmF s i 10 2 * 2 ^ 21 | none => 0
def groupRate (s : State) (g : Nat) : Nat := regRaw s (aTmGroup g 0) (groupRateD s g)
def gPort (s : State) (g : Nat) : Nat := match tmGroup s g with | some i => tmF s i 6 1 | none => 0
def gQuantum (s : State) (g : Nat) : Nat :=
  bits (regRaw s (aTmGroup g 1) (match tmGroup s g with | some i => tmF s i 8 2 | none => 0)) 15 0
def portRateD (s : State) (p : Nat) : Nat := match tmPort s p with
  | some i => tmF s i 4 4 % 2 ^ 21 + tmF s i 8 2 * 2 ^ 21 | none => 0
def portRate (s : State) (p : Nat) : Nat := regRaw s (aTmPort p 0) (portRateD s p)
/-- OVERHEAD, signed; 24 for a port without a PORT record (R287). -/
def portOverhead (s : State) (p : Nat) : Int :=
  sint 8 (regRaw s (aTmPort p 1) (match tmPort s p with | some i => tmF s i 2 1 | none => 24))

/-! ## Shapers (R276, R277) -/

/-- Units of one byte: the 2^16 fractional steps of TOKENS, each in 25 parts. The parts hold what RATE has accrued toward
the next step; TOKENS itself is the whole steps (assumption 40, DESIGN CHOICE). -/
def byteUnit : Int := 25 * 65536

/-- RATE and BURST word of level 0 queue, 1 group, 2 port. -/
def shaperWord (s : State) (lvl i : Nat) : Nat :=
  if lvl = 0 then queueRate s i else if lvl = 1 then groupRate s i else portRate s i

def shaperRate (s : State) (lvl i : Nat) : Nat := bits (shaperWord s lvl i) 20 0
def shaperCap (s : State) (lvl i : Nat) : Int := Int.ofNat (bits (shaperWord s lvl i) 36 21 * 64) * byteUnit
def shaperKey (lvl i : Nat) : Nat := lvl * 65536 + i

/-- TOKENS brought up to date: full since the deck applied, and BURST × 64 while unshaped (R276, R277). -/
def shaperNow (s : State) (lvl i : Nat) : Int :=
  if shaperRate s lvl i = 0 then shaperCap s lvl i
  else match kget s.shapers (shaperKey lvl i) with
    | none => shaperCap s lvl i
    | some x => min (shaperCap s lvl i) (x.tokens + Int.ofNat (shaperRate s lvl i * (s.clk - x.at_) * 128))

def setShaper (s : State) (lvl i : Nat) (t : Int) : State :=
  { s with shapers := kset s.shapers (shaperKey lvl i) ⟨t, s.clk⟩ }

/-- Deduct a charge (R273). -/
def chargeShaper (s : State) (lvl i : Nat) (c : Int) : State :=
  if shaperRate s lvl i = 0 then s else setShaper s lvl i (shaperNow s lvl i - c * byteUnit)

/-- The level has tokens: TOKENS ≥ 0, or unshaped (R276). -/
def shaperOk (s : State) (lvl i : Nat) : Bool := shaperRate s lvl i == 0 || decide (0 ≤ shaperNow s lvl i)

/-- TOKENS in whole bytes as a 32-bit field. -/
def tokensField (s : State) (lvl i : Nat) : Nat := uns 32 (shaperNow s lvl i / byteUnit)

/-- The deck uses a queue, group or port (R277). -/
def shaperUsed (s : State) (lvl i : Nat) : Bool :=
  if lvl = 0 then queueEnabled s i else if lvl = 1 then (tmGroup s i).isSome && i < 8192
  else if lvl = 2 then isPort s i else false

/-- A write of TM.SHAPER_CFG (R277). -/
def wrShaper (s : State) (v : Nat) : State :=
  let rate := bits v 20 0
  let burst := bits v 36 21
  let lvl := bits v 39 38
  let i := bits v 55 40
  if 1600000 < rate || !shaperUsed s lvl i then bump s aCfgReject
  else
    let a := if lvl = 0 then aTmQueue i 0 else if lvl = 1 then aTmGroup i 0 else aTmPort i 0
    setShaper (setReg s a (rate + burst * 2 ^ 21)) lvl i (if bit v 37 then Int.ofNat (burst * 64) * byteUnit else 0)

/-! ## Policers (R284, R285) -/

def policerCfg0D (s : State) (n : Nat) : Nat := match tmPolicer s n with
  | some i => tmF s i 8 4 % 2 ^ 28 + tmF s i 12 4 % 2 ^ 28 * 2 ^ 28 + tmF s i 1 1 / 64 * 2 ^ 56
      + b2n (bit (tmF s i 1 1) 5) * 2 ^ 58
  | none => 3 * 2 ^ 56
def policerCfg1D (s : State) (n : Nat) : Nat := match tmPolicer s n with
  | some i => tmF s i 16 3 + tmF s i 19 3 * 2 ^ 24 | none => 0
/-- A policer that no POLICER record names is disabled (assumption 18, DEDUCED). -/
def policerCfg0 (s : State) (n : Nat) : Nat := regRaw s (aTmPolicer n 0) (policerCfg0D s n)
def policerCfg1 (s : State) (n : Nat) : Nat := regRaw s (aTmPolicer n 1) (policerCfg1D s n)

def polCir (s : State) (n : Nat) : Nat := bits (policerCfg0 s n) 27 0
def polEir (s : State) (n : Nat) : Nat := bits (policerCfg0 s n) 55 28
def polAlg (s : State) (n : Nat) : Nat := bits (policerCfg0 s n) 57 56
def polAware (s : State) (n : Nat) : Bool := bit (policerCfg0 s n) 58
def polCbs (s : State) (n : Nat) : Nat := bits (policerCfg1 s n) 23 0
def polEbs (s : State) (n : Nat) : Nat := bits (policerCfg1 s n) 47 24

/-- Bucket units of one byte: a CIR of 1,000 B/s over 1.6e9 clk/s accrues one unit of 1/1,600,000 byte a clk. -/
def polUnit : Nat := 1600000

/-- The two buckets brought up to date (R284): committed, then excess or peak. Under srTCM the rate CIR fills C and
what C cannot take goes to E (RFC 2697); the other algorithms fill E at EIR or PIR. -/
def policerNow (s : State) (n : Nat) : Nat × Nat :=
  let cb := polCbs s n * polUnit
  let eb := polEbs s n * polUnit
  match kget s.policers n with
  | none => (cb, eb)
  | some (c, e, at_) =>
    let dt := s.clk - at_
    let c1 := c + polCir s n * dt
    if polAlg s n = 0 then (min cb c1, min eb (e + (c1 - cb)))
    else (min cb c1, min eb (e + polEir s n * dt))

def setPolicer (s : State) (n c e : Nat) : State := { s with policers := kset s.policers n (c, e, s.clk) }

/-- The colour of a packet of `len` bytes with pre-colour `pre` (0 green, 1 yellow, 2 red) and the buckets after it
(RFC 2697, RFC 2698, RFC 4115). -/
def policerColour (alg pre c e len : Nat) : Nat × Nat × Nat :=
  let l := len * polUnit
  if pre = 2 then (2, c, e)
  else if alg = 0 then
    if pre = 0 && l ≤ c then (0, c - l, e) else if l ≤ e then (1, c, e - l) else (2, c, e)
  else if alg = 1 then
    if e < l then (2, c, e) else if pre = 1 || c < l then (1, c, e - l) else (0, c - l, e - l)
  else
    if pre = 0 && l ≤ c then (0, c - l, e) else if l ≤ e then (1, c, e - l) else (2, c, e)

/-- Charge policer `n` and answer the result colour (R284, R285). -/
def policerCharge (s : State) (n len colour : Nat) : Nat × State :=
  let pre := if polAware s n then colour else 0
  if polAlg s n = 3 then (pre, if pre = 2 then bump s (aTmPolicer n 3) else s)
  else
    let b := policerNow s n
    let r := policerColour (polAlg s n) pre b.1 b.2 len
    let s := setPolicer s n r.2.1 r.2.2
    (r.1, if r.1 = 2 then bump s (aTmPolicer n 3) else s)

/-- The charge length of a packet at ACT entry (R285). -/
def chargeLen (s : State) (p : Pkt) : Nat :=
  if pktLen p != 0 then pktLen p
  else match p.walk.ipSeen, p.walk.lastIp with
    | true, some (h, l) => h + l
    | _, _ => maxFrame s p.port

/-- ACT entry: the policer named by POLICER is charged, the result replaces COLOUR (R212). -/
def actCharge (s : State) (k : Nat) : Nat × State :=
  match getPkt s k with
  | none => (0, s)
  | some p =>
    let n := cw p 7 % 65536
    if n = 0 then (0, s)
    else
      let r := policerCharge s n (chargeLen s p) (pktColour p)
      (r.1, setPkt r.2 k (cwBits p 5 4 3 r.1))

/-- Bring every policer and shaper up to date (R285). -/
def sweepAll (s : State) : State :=
  let s1 := { s with shapers := kmap s.shapers fun k _ => ⟨shaperNow s (k / 65536) (k % 65536), s.clk⟩ }
  { s1 with policers := kmap s.policers fun n _ => ((policerNow s n).1, (policerNow s n).2, s.clk) }

/-- A write to a policer's configuration sets both buckets full (R285). -/
def fillPolicer (s : State) (n : Nat) : State := setPolicer s n (polCbs s n * polUnit) (polEbs s n * polUnit)

/-! ## Pot queues and cells (R254 to R256) -/

def PQueue.empty : PQueue := { frames := [], avg := 0, deficit := 0, turn := false, lost := false, sample := ⟨0, 0, 0, 0⟩ }
def queueOf (s : State) (q : Nat) : PQueue := kgetD s.queues q PQueue.empty
def setQueue (s : State) (q : Nat) (x : PQueue) : State := { s with queues := kset s.queues q x }

/-- Cells of every frame of a queue (R254). -/
def qDepth (s : State) (q : Nat) : Nat := ((queueOf s q).frames.map fun f => f.cells.length).sum
/-- The queues of a pot that hold or have held frames. -/
def potQueues (s : State) (p : Nat) : List Nat := (s.queues.filter fun e => e.1 / 2048 == p).map (·.1)
/-- Cells in use in a pot. -/
def potUsed (s : State) (p : Nat) : Nat := ((potQueues s p).map (qDepth s)).sum
/-- Cells that queues of a pot have taken from the shared pool. -/
def potShared (s : State) (p : Nat) : Nat := ((potQueues s p).map fun q => qDepth s q - queueMin s q).sum
def sharedFree (s : State) (p : Nat) : Nat := potCells s - potMinSum s p - potShared s p

/-- A queue can take a cell (R255). -/
def cellTest (s : State) (q : Nat) : Bool :=
  qDepth s q < queueMin s q || (qDepth s q < queueMax s q && 0 < sharedFree s (q / 2048))

def foldOfPot (s : State) (p : Nat) : FoldSt := kgetD s.rst.foldPot p .open_

def aPotCtr (p k : Nat) : Nat := 0x190000000100 + p * 0x40 + 8 * k
def aReseqLost (p : Nat) : Nat := aPotCtr p 0
def aParityErr (p : Nat) : Nat := aPotCtr p 1
def aUnderrun (p : Nat) : Nat := aPotCtr p 2
def aFoldRefused (p : Nat) : Nat := aPotCtr p 3
def aForcedDiscard (p : Nat) : Nat := aPotCtr p 4
def aDisabledDrop (p : Nat) : Nat := aPotCtr p 5
/-- Queue counter `k`: ADMIT_DROP, TRUNC, STOMP, REWIND, CUT_THROUGH (Table 11.16). -/
def aQCtr (q k : Nat) : Nat := 0x190020000000 + q * 0x40 + 8 + 8 * k

/-- Cells of the queues of class `c` of a pot (R267). -/
def classCells (s : State) (p c : Nat) : Nat := (((potQueues s p).filter fun q => qTc s q == c).map (qDepth s)).sum

/-- The lossless hold of a pot: asserted at XOFF_CELLS, cleared below XON_CELLS (R267). -/
def settleHolds (s : State) (p : Nat) : State :=
  let old := (kgetD s.holds p 0).toNat
  let new := ((List.range 8).map fun c =>
    if bit (potLossless s) c then
      let n := classCells s p c
      b2n (xoffCells s ≤ n || (bit old c && xonCells s ≤ n)) * 2 ^ c
    else 0).sum
  { s with holds := if new = 0 then kdel s.holds p else kset s.holds p (BitVec.ofNat 8 new) }

/-- A queue's depth has changed: its figures of the interval follow it (R286), and its pot's holds (R267). -/
def noteDepth (s : State) (q : Nat) : State :=
  let x := queueOf s q
  let d := qDepth s q
  settleHolds (setQueue s q { x with sample := { x.sample with minDepth := min x.sample.minDepth d,
                                                               maxDepth := max x.sample.maxDepth d } }) (q / 2048)

/-! ## Curves (R280 to R282) -/

def curvePoint (s : State) (e : Bool) (k i : Nat) : Nat × Nat :=
  (hotF s e tyCurves (128 * k + 4 * i) 2, hotF s e tyCurves (128 * k + 4 * i + 2) 2)

/-- The probability of curve `k` at depth `a` (R281): of two points with equal DEPTH the later governs. -/
def curveProb (s : State) (e : Bool) (k a : Nat) : Nat :=
  if a < (curvePoint s e k 0).1 then 0
  else if (curvePoint s e k 31).1 ≤ a then (curvePoint s e k 31).2
  else
    match (List.range 31).reverse.find? fun i => (curvePoint s e k i).1 ≤ a with
    | none => 0
    | some i =>
      let x := curvePoint s e k i
      let y := curvePoint s e k (i + 1)
      if y.2 < x.2 then x.2 - cdiv ((x.2 - y.2) * (a - x.1)) (y.1 - x.1)
      else x.2 + (y.2 - x.2) * (a - x.1) / (y.1 - x.1)

/-- What the TM says of a frame that starts toward a queue: refused, marked, or passed (R281, R282). A mark counts once
the frame is admitted. -/
inductive CurveSays
  | pass | mark | drop
deriving DecidableEq, Repr

def curveTest (s : State) (q : Nat) (e : Bool) (colour w16 : Nat) : CurveSays × State :=
  let x := queueOf s q
  let d := qDepth s q * 256
  let avg := if x.avg ≤ d then x.avg + (d - x.avg) / 2 ^ qWeight s q else x.avg - cdiv (x.avg - d) (2 ^ qWeight s q)
  let s := setQueue s q { x with avg := avg }
  let k := qCurveOf s q colour
  if k = 0xFF then (.pass, s)
  else
    let p := curveProb s e k (avg / 256)
    let r := draw s
    if p = 0xFFFF || r.1 % 65536 < p then
      if qMark s q && bit w16 (ectBit s) then (.mark, r.2)
      else (.drop, bump r.2 (aTmQCtr q 0))
    else (.pass, r.2)

end Sys2Proof.Machine
end

