-- ==== Sys2Proof/Machine/Perf.lean ====
section
/-!
DEFINITION. Dealer performance: accounts of slot-clocks, programmable counters and precise samples
(16_observability.md R377 to R379).
-/
namespace Sys2Proof.Machine

open Sys2Proof

/-- The stage type of a dealer (Table 4.1). -/
def stageOf (d : Nat) : Nat := if d < 224 then d / 32 else 7

/-- The performance window of dealer `d` (Table 16.14). -/
def aPerf (d : Nat) : Nat := 0x040030000000 + d * 0x200
def aPerfCount (d k : Nat) : Nat := aPerf d + 0x40 + 8 * k
def aPerfCfg (d k : Nat) : Nat := aPerf d + 0x80 + 0x10 * k
def aPerfAddr (d k : Nat) : Nat := aPerf d + 0x88 + 0x10 * k
def aPerfSuppressed (d : Nat) : Nat := aPerf d + 0x100
def aPerfSample : Nat := 0x280000000300

/-- What a precise sample says of the trick and microword of its event (Table 16.15). -/
structure PerfAt where
  ctx     : Nat
  routine : Nat
  addr    : Nat
  slot    : Bool
  avfen   : Bool
  restarts : Nat
  pclass  : Nat
  cls     : Nat
  latency : Nat
  subject : Nat
  age     : Nat
  /-- The event belongs to no trick: CLOCKS and FRONT. -/
  none_   : Bool
deriving DecidableEq, Repr

/-- The events that belong to no trick. -/
def PerfAt.nobody : PerfAt := ⟨0xFF, 0, 0, false, false, 0, 0, 0, 0, 0, 0, true⟩

/-- A trick at an address and class, for its events. -/
def perfOf (s : State) (t : Trick) (c addr cls latency subject : Nat) : PerfAt :=
  ⟨c, t.routine, addr, t.slot, t.avfen, t.restarts, t.pclass, cls, latency, subject, s.clk - t.entryClk, false⟩

/-- The filters of a counter pass an event (R378). -/
def perfPass (s : State) (d k : Nat) (x : PerfAt) : Bool :=
  let c := regRaw s (aPerfCfg d k) 0
  let a := regRaw s (aPerfAddr d k) 0
  if x.none_ then bits c 12 5 == 0xFF && !bit c 13
  else bit (bits c 8 5) x.pclass && bit (bits c 12 9) x.cls
    && (!bit c 13 || (bits a 13 0 ≤ x.addr && x.addr ≤ bits a 29 16))

/-- Count `n` events of code `ev` of dealer `d` toward counter `k` of master `m`, with its samples (R379). -/
def perfCount (s : State) (m k d ev n : Nat) (x : PerfAt) : State :=
  let c := regRaw s (aPerfCfg m k) 0
  let s := bumpBy s (aPerfCount m k) n
  let period := bits c 47 24
  if bit c 23 && period != 0 then
    let key := 2 ^ 20 + m * 8 + k
    let seen := kgetD s.perfCnt key 0 + n
    let s := { s with perfCnt := kset s.perfCnt key (seen % period) }
    let p := regRaw s aPerfSample 0
    if period ≤ seen && bit p 13 then
      match kget s.perfLast (2 ^ 20 + d) with
      | some at_ =>
        if s.clk < at_ + 64 then bump s (aPerfSuppressed m)
        else { ringWrite s (bits p 12 0) (perfItem s k d ev x) false with perfLast := kset s.perfLast (2 ^ 20 + d) s.clk }
      | none => { ringWrite s (bits p 12 0) (perfItem s k d ev x) false with perfLast := kset s.perfLast (2 ^ 20 + d) s.clk }
    else s
  else s
where
  /-- The 32 B of Table 16.15. -/
  perfItem (s : State) (k d ev : Nat) (x : PerfAt) : List Byte :=
    toBytes 2 32 ++ toBytes 1 (stageOf d * 32 + ev) ++ toBytes 1 k ++ toBytes 2 d ++ toBytes 1 x.ctx ++ toBytes 1 x.routine
    ++ toBytes 2 (x.addr % 2 ^ 14 + b2n x.slot * 2 ^ 14 + b2n x.avfen * 2 ^ 15)
    ++ toBytes 1 (x.restarts % 16 * 16 + x.pclass * 4 + x.cls) ++ toBytes 1 0 ++ toBytes 4 x.latency
    ++ toBytes 4 x.subject ++ toBytes 4 x.age ++ toBytes 3 0 ++ toBytes 5 (now40 s)

/-- Performance counter configurations that are set: their dealer and counter. -/
def perfMasters (s : State) : List (Nat × Nat) :=
  s.regs.filterMap fun e =>
    let o := e.1 - 0x040030000000
    if 0x040030000000 ≤ e.1 && o < 288 * 0x200 && 0x80 ≤ o % 0x200 && o % 0x200 < 0x100 && o % 0x10 = 0 then
      some (o / 0x200, (o % 0x200 - 0x80) / 0x10) else none

/-- `n` events of code `ev` on dealer `d` (R378). -/
def perfEvent (s : State) (d ev n : Nat) (x : PerfAt) : State :=
  if n = 0 then s
  else (perfMasters s).foldl (fun s m =>
    let c := regRaw s (aPerfCfg m.1 m.2) 0
    if bits c 4 0 == ev && (m.1 == d || (m.1 < d && d ≤ bits c 22 14)) && perfPass s m.1 m.2 x then
      perfCount s m.1 m.2 d ev n x
    else s) s

/-- Slot-clocks of dealer `d` that are not FRONT (R377). -/
def perfBusy (s : State) (d n : Nat) : State :=
  { s with perfCnt := kmod s.perfCnt (16 * d + 8) 0 (· + n) }

/-- Accounts 0 to 7 of Table 16.14 that are counted as they happen. -/
def perfAcct (s : State) (d k n : Nat) : State := if n = 0 then s else bumpBy s (aPerf d + 8 * k) n

/-- A counter word `v` after `n` more events (R369). -/
def ctrAdd (v n : Nat) : Nat :=
  let c := v % 2 ^ 48 + n
  c % 2 ^ 48 + b2n (bit v 63 || 2 ^ 48 ≤ c) * 2 ^ 63

/-- CLOCKS of dealer `d` as read. -/
def perfClocks (s : State) (d : Nat) : Nat :=
  ctrAdd (kgetD s.perfCnt (16 * d) 0) (s.clk - kgetD s.perfLast (16 * d) s.perfAt)

/-- FRONT of dealer `d` as read: every slot-clock that nothing else took. -/
def perfFront (s : State) (d : Nat) : Nat :=
  ctrAdd (kgetD s.perfCnt (16 * d + 3) 0)
    (8 * (s.clk - kgetD s.perfLast (16 * d + 3) s.perfAt) - kgetD s.perfCnt (16 * d + 8) 0)

/-- A write of CLOCKS (0) or FRONT (3) of dealer `d`. -/
def wrPerfLazy (s : State) (d k v : Nat) : State :=
  let old := if k = 0 then perfClocks s d else perfFront s d
  let s := { s with perfCnt := kset s.perfCnt (16 * d + k) (counterWord old v), perfLast := kset s.perfLast (16 * d + k) s.clk }
  if k = 3 then { s with perfCnt := kset s.perfCnt (16 * d + 8) 0 } else s

/-- Where the clks are counted for which trick `c` of dealer `d` has waited on word `i` of its attempt. -/
def waitKey (d c i : Nat) : Nat := 2 ^ 24 + 2 ^ 17 * i + 256 * d + c

/-- LATENCY of word `i` of an attempt: its clks in the issue slot and those that its trick then waited on it (Table 16.15). -/
def wordLatency (s : State) (d c i cyc : Nat) : Nat := cyc + kgetD s.perfCnt (waitKey d c i) 0

/-- Word `i` of an attempt, `w`, is retired or wasted with its slot-clocks (R377). -/
def perfWord (s : State) (d c i : Nat) (t : Trick) (ok : Bool) (w : Nat × Nat × Nat × Bool) : State :=
  let x := perfOf s t c w.1 w.2.1 (wordLatency s d c i w.2.2.1) 0
  let s := { s with perfCnt := kdel s.perfCnt (waitKey d c i) }
  if ok && !w.2.2.2 then perfEvent (perfEvent (perfAcct s d 1 w.2.2.1) d 2 w.2.2.1 x) d 10 1 x
  else perfEvent (perfAcct s d 2 w.2.2.1) d 3 w.2.2.1 x

/-- An attempt of trick `c` of dealer `d` ends: its slot-clocks are retired or wasted (R377). -/
def perfAttempt (s : State) (d c : Nat) (t : Trick) (ok : Bool) : State :=
  ((List.range t.spent.length).zip t.spent).foldl (fun s w => perfWord s d c w.1 t ok w.2) s

end Sys2Proof.Machine
end

