-- ==== Sys2Proof/Machine/Suits.lean ====
section
/-!
DEFINITION. Trick contexts, suits and the stock as the dealers use them: entering a stage, reloading a context, freeing
it, releasing a suit, parking, and the ends of a trick by fault or error
(04_dealers_and_microcode.md R67, R68, R81, R88 to R93; 08_flow_records.md R188 to R190).
Log entries: 43, 49.
-/
namespace Sys2Proof.Machine

open Sys2Proof

/-! ## Numbers and names -/

/-- Event counter `k` of dealer `d`: RESTART_POISON, RESTART_TMO, RESTART_RETIRE, RESTART_PREEMPT, FAULT_DROP,
UCODE_ERR (Table 4.19), held beside the register space, which shows the dealer that SELECT names. -/
def aDlr (d k : Nat) : Nat := 2 ^ 50 + d * 64 + 8 * k
def aDlrCtl : Nat := 0x040000000000
def aWdogLog : Nat := 0x040000000008
def aUcodeLog : Nat := 0x040000000050
def dlrCtlReset : Nat := 0x0000001810010000
def dlrCtl (s : State) : Nat := regRaw s aDlrCtl dlrCtlReset
def wdogLimit (s : State) : Nat := bits (dlrCtl s) 19 0
def lookupTmo (s : State) : Nat := bits (dlrCtl s) 31 20
def restartMax (s : State) : Nat := bits (dlrCtl s) 35 32
def preemptEn (s : State) : Bool := bit (dlrCtl s) 36

/-- Packet key of a service trick, of a frame between TAKE and the MAC, and of a displaced service trick. -/
def svcKey (d c : Nat) : Nat := 2 ^ 19 + 256 * d + c
def eKey (id : Nat) : Nat := 2 ^ 64 + id
def dispKey (age : Nat) : Nat := 2 ^ 20 + age

/-- Context number that stands for a displaced trick among suit holders. -/
def dispCtx (age : Nat) : Nat := 256 + age

def Trick.blank : Trick where
  pkt := 0
  task := none
  g := [0, 0, 0, 0, 0, 0]
  addr := 0
  tf := 0
  z := false
  n := false
  c := false
  v := false
  ls := [0, 0, 0, 0]
  pend := []
  pos := [0, 0, 0, 0]
  committed := false
  commitClk := 0
  slot := false
  avfen := false
  routine := 0
  restarts := 0
  attempt := 0
  preempted := false
  rank := 2
  age := 0
  readyAt := 0
  entryClk := 0
  wait := none
  mwait := none
  ended := false
  log := []
  image := none
  recAt := none
  flowNew := false
  suit := none
  more := []
  fsmRes := 0
  flowDue := none
  created := none
  undo := []
  scanPos := none
  shuf := none
  cursor := 0
  reentry := false
  poison := false
  recirc := false
  drop := false
  exc := false
  sample := false
  bumps := []
  counterBase := 0
  pclass := 0
  posted := []
  releaseAt := false
  settled := none
  pol := 0
  spent := []
  metaQ := none

/-! ## Routines (R80, R81) -/

/-- Byte field of a ROUTINES body at entry offset `o`. -/
def rtF (s : State) (e : Bool) (o off n : Nat) : Nat := hotF s e tyRoutines (o + off) n

/-- Offset of a routine's entry. -/
def routineOff (s : State) (e : Bool) (stage num : Nat) : Option Nat :=
  let b := hotBody s e tyRoutines
  (findUp (b.length / 16) 0 fun i => fld b (16 * i) 1 == stage && fld b (16 * i + 1) 1 == num).map (16 * ·)

/-- The word of a control store (R48). -/
def storeWord (s : State) (e : Bool) (stage addr : Nat) : Nat := hotF s e (tyStore + stage) (20 * addr) 20

/-- The routine a packet runs in a stage (R81, Table 6.9). -/
def pktRoutine (p : Pkt) (stage : Nat) : Nat := match stage with
  | 0 => if pktPass p != 0 then 1 else if pktOrigin p = 2 then 2 else 0
  | 1 => bits (cw p 9) 23 16
  | 2 => bits (cw p 9) 15 8
  | 3 => bits (cw p 9) 7 0
  | 4 => bits (cw p 10) 31 24
  | 5 => bits (cw p 10) 23 16
  | 6 => bits (cw p 10) 15 8
  | _ => 0

/-- A carried-half word that PRELOAD names, or 0. -/
def preload (p : Option Pkt) (v : Nat) : W32 :=
  if v < 64 then (match p with | some q => BitVec.ofNat 32 (cw q v) | none => 0) else 0

/-- G0 to G5 at an entry or a restart (R81, R93). -/
def entryRegs (s : State) (t : Trick) (stage : Nat) : List W32 :=
  match t.task with
  | some h => (match kget s.tasks h with
    | some k => (k.body.args ++ [0, 0, 0, 0]).take 4 ++ [0, 0]
    | none => [0, 0, 0, 0, 0, 0])
  | none => match routineOff s t.slot stage t.routine with
    | some o => (List.range 6).map fun i => preload (getPkt s t.pkt) (rtF s t.slot o (6 + i) 1)
    | none => [0, 0, 0, 0, 0, 0]

/-- A context reloaded under R81: registers from the entry, everything else of the attempt cleared but the suits, which
are kept (R88). A displaced service trick whose new slot lacks its routine stands at no address, where it ends as a
microword would be issued (assumption 52, DESIGN CHOICE). -/
def reload (s : State) (stage : Nat) (t : Trick) : Trick :=
  let r := routineOff s t.slot stage t.routine
  let o := r.getD 0
  { Trick.blank with
    pkt := t.pkt, task := t.task, slot := t.slot, routine := t.routine, restarts := t.restarts, attempt := t.attempt + 1, preempted := t.preempted,
    rank := t.rank, age := t.age, entryClk := t.entryClk, suit := t.suit, more := t.more, reentry := t.reentry, pol := t.pol,
    g := entryRegs s t stage,
    addr := if r.isNone then lostAddr else rtF s t.slot o 2 2 % 2 ^ 14, avfen := bit (rtF s t.slot o 2 2) 14,
    counterBase := rtF s t.slot o 12 2, pclass := rtF s t.slot o 4 1 % 4, readyAt := s.clk }

/-! ## Contexts -/

/-- Rename a holder of suits. -/
def renameHolder (s : State) (a b : Holder) : State :=
  { s with suits := kmap s.suits fun _ x =>
      { x with holder := if x.holder == some a then some b else x.holder,
               waiters := x.waiters.map fun w => if w == a then b else w } }

/-- Free a context: a displaced trick of the dealer takes it and restarts, ahead of every arrival (R91). -/
def freeCtx (s : State) (d c : Nat) : State :=
  let s := { s with tricks := kdel s.tricks (trickKey d c) }
  match kget s.displaced d with
  | some (t :: rest) =>
    let s := { s with displaced := kput s.displaced d (if rest.isEmpty then none else some rest) }
    let s := renameHolder s (.trick d (dispCtx t.age)) (.trick d c)
    match kget s.pkts (dispKey t.age) with
    | some p =>
      let s := { s with pkts := kset (kdel s.pkts (dispKey t.age)) (svcKey d c) p }
      setTrick s d c (reload s (stageOf d) { t with rank := 1, pkt := svcKey d c })
    | none => setTrick s d c (reload s (stageOf d) { t with rank := 1 })
  | _ => s

/-- Free the handles a run reserved and has not posted (R228). -/
def freeReserved (s : State) (t : Trick) : State :=
  t.posted.foldl (fun s h => match kget s.tasks h with
    | some k => if k.state == .reserved then { s with tasks := kdel s.tasks h } else s
    | none => s) s

/-- A holder that stops waiting for any suit. -/
def forgetWaiter (s : State) (h : Holder) : State :=
  { s with suits := kmap s.suits fun _ x => { x with waiters := x.waiters.filter (· != h) } }

/-- A trick that leaves its dealer releases what it holds. -/
def dropSuit (s : State) (t : Trick) (h : Holder) : State :=
  let s := match t.wait with | some (.suit ..) => forgetWaiter s h | _ => s
  (t.suit.toList ++ t.more).foldl (fun s n => if (suitAt s n).holder == some h then releaseSuit s n else s) s

/-! ## Frames between a pot and the MAC -/

def potFrame (s : State) (q id : Nat) : Option PotFrame := (queueOf s q).frames.find? (·.id == id)

def modFrame (s : State) (q id : Nat) (f : PotFrame → PotFrame) : State :=
  let x := queueOf s q
  setQueue s q { x with frames := x.frames.map fun w => if w.id = id then f w else w }

/-- Remove a frame from its queue: its cells are freed (R254). -/
def potRemove (s : State) (q id : Nat) : State :=
  let x := queueOf s q
  noteDepth (setQueue s q { x with frames := x.frames.filter (·.id != id) }) q

/-- Frame id of an egress packet key. -/
def eId (k : Nat) : Nat := k - 2 ^ 64

/-- A packet leaves the part by a drop: an ingress packet with its rate-buffer space, an egress frame with its pot
cells, a service trick's working half with nothing. -/
def dropAt (s : State) (stage k : Nat) : State :=
  match getPkt s k with
  | none => s
  | some p =>
    if stage = 7 then { s with pkts := kdel s.pkts k }
    else if 5 ≤ stage then flightDown (potRemove { s with pkts := kdel s.pkts k } p.queue (eId k)) (pktEpoch p)
    else dropPkt s k

/-- A trick's task ends, failed or not (R237). -/
def finishTask (s : State) (d c : Nat) (t : Trick) (failed : Bool) : State :=
  match t.task with
  | none => s
  | some h =>
    let body := (kget s.tasks h).map (·.body)
    let s := if failed then bump s aTskFailed else s
    let s := endTask s h
    let s := traceTask s 2 false h body d c
    if t.committed then
      { s with deck := if t.slot then { s.deck with held1 := s.deck.held1 - 1 } else { s.deck with held0 := s.deck.held0 - 1 } }
    else s

/-- A routine counter pair of a stage type (R96). -/
def aPair (stage i : Nat) : Nat := 0x040050000000 + stage * 0x4000 + i * 0x10

/-- BYTES of the pairs a routine bumped, with the frame's length as it stands when the routine ends (R96). -/
def bumpBytes (s : State) (d : Nat) (t : Trick) : State :=
  let len := if stageOf d = 7 then 0 else (getPkt s t.pkt).elim 0 fun p => bits (cw p 0) 13 0
  t.bumps.foldl (fun s k => bumpBy s (aPair (stageOf d) (t.counterBase + k - 1) + 8) len) s

/-! ## Samples and telemetry (R213 to R215, R372) -/

def aObsTemplates (s : State) : Nat := coldF s tyObs 4 2

/-- Offset of template `n` in the OBS body (R375). -/
def templateOff (s : State) (n : Nat) : Nat := 64 + 16 * coldF s tyObs 0 2 + 64 * coldF s tyObs 2 1 + 128 * (n - 1)

/-- UTC seconds of a timebase-seconds word (Table 9.10). -/
def utcOf (s : State) (secs : Nat) : Nat := uns 32 (Int.ofNat secs - s.time.utcOff)

/-- The data record of a template from a carried half (R215). -/
def templateData (s : State) (o : Nat) (p : Pkt) : List Byte :=
  (List.range (coldF s tyObs (o + 8) 1)).flatMap fun i =>
    let off := coldF s tyObs (o + 16 + 4 * i) 1
    let b := coldF s tyObs (o + 17 + 4 * i) 1
    match b % 8 with
    | 1 => toBytes 4 (utcOf s (nowS s))
    | 2 => toBytes 4 (utcOf s (cvF p off 4))
    | _ => slice p.cv off (b / 8)

/-- The telemetry item of a template (Table 9.11). -/
def telemetryItem (s : State) (n o d : Nat) (slot : Bool) (p : Pkt) : List Byte :=
  let data := templateData s o p
  let padded := pad8 data
  toBytes 2 (16 + padded.length) ++ toBytes 2 n ++ toBytes 2 (coldF s tyObs o 2) ++ toBytes 2 data.length
  ++ toBytes 1 (stageOf d * 32 + (if stageOf d = 7 then 0 else d % 32)) ++ toBytes 1 (b2n slot) ++ toBytes 1 0
  ++ toBytes 5 (now40 s) ++ padded

/-- What a committed SAMPLE writes at the routine's end: a telemetry item, or a packet sample once its bytes are in. -/
def writeSample (s : State) (d : Nat) (t : Trick) : State :=
  match getPkt s t.pkt with
  | none => s
  | some p =>
    let n := cw p 8 / 65536
    let ring := cw p 8 % 8192
    if n = 0 then
      let u := ringReserve s ring
      { u.2 with late := u.2.late ++ [{ hand := d % 32, ring := ring, snap := (ringCfg s ring).snap, slowp := false,
                                        source := stageOf d, reason := pktReason p, pkt := p, ticket := u.1 }] }
    else if aObsTemplates s < n then bump s aTelemNone
    else ringWrite s ring (telemetryItem s n (templateOff s n) d t.slot p) false

/-- What a routine leaves behind whichever way it ends: the bytes of its bumps, and the sample it committed (R96, R214). -/
def leaveMarks (s : State) (d : Nat) (t : Trick) : State :=
  let s := bumpBytes s d t
  if t.sample then writeSample s d t else s

/-- End a trick and drop its packet, or end its task as failed; suits, handles and the context are released. -/
def killTrick (s : State) (d c : Nat) : State :=
  match trickAt s d c with
  | none => s
  | some t =>
    let s := perfAttempt s d c t t.committed
    let s := leaveMarks s d t
    let s := freeReserved s t
    let s := dropSuit s t (.trick d c)
    let s := finishTask s d c t true
    freeCtx (dropAt s (stageOf d) t.pkt) d c

/-- Record the first microcode error (R90, Table 4.20). -/
def logUcode (s : State) (d addr cause : Nat) : State :=
  let w := regRaw s aUcodeLog 0
  let s := bump s (aDlr d 5)
  if bit w 63 then s else setLog s aUcodeLog (d % 512 + addr % 2 ^ 14 * 2 ^ 9 + cause * 2 ^ 23 + 2 ^ 63)

/-- A microcode error ends the trick (R90). -/
def ucodeErr (s : State) (d c cause : Nat) : State :=
  match trickAt s d c with
  | none => s
  | some t => killTrick (logUcode s d t.addr cause) d c

/-- A fault before COMMIT: kinds 0 poison, 1 timeout, 2 retire, 3 preempt (Table 4.15). The trick restarts, or ends
once RESTART_MAX restarts in a row have not reached COMMIT (R87 to R89). The spec does not say what becomes of a
retire-race restart whose routine the current slot lacks: it ends as R81 ends a trick without its routine (assumption 52,
DESIGN CHOICE). -/
def faultTrick (s : State) (d c kind : Nat) (slot : Option Bool) : State :=
  match trickAt s d c with
  | none => s
  | some t =>
    if t.committed then s
    else if restartMax s ≤ t.restarts then
      killTrick (if t.task.isSome then s else bump s (aDlr d 4)) d c
    else if slot.isSome && (routineOff s (slot.getD t.slot) (stageOf d) t.routine).isNone then killTrick (logUcode s d t.routine 4) d c
    else
      let s := perfAttempt s d c t false
      let s := perfEvent s d 12 1 (perfOf s t c t.addr 0 0 0)
      let s := bump (freeReserved s t) (aDlr d kind)
      let s := match t.wait with | some (.suit ..) => forgetWaiter s (.trick d c) | _ => s
      setTrick s d c (reload s (stageOf d)
        { t with restarts := t.restarts + 1, slot := slot.getD t.slot })

/-- The dealer has a context for one more trick. -/
def hasRoom (s : State) (d : Nat) : Bool := (tricksOf s d).length < 256

/-- Start a trick in a free context: the routine's entry, or a microcode error where it is absent (R81). -/
def startTrick (s : State) (d c : Nat) (b : Trick) : State :=
  let t := { b with age := s.order, entryClk := s.clk }
  let s := { s with order := s.order + 1 }
  match routineOff s t.slot (stageOf d) t.routine with
  | none =>
    let s := logUcode s d t.routine 4
    freeCtx (dropAt (dropSuit s t (.trick d c)) (stageOf d) t.pkt) d c
  | some _ =>
    let t := reload s (stageOf d) t
    perfEvent (setTrick s d c t) d 11 1 (perfOf s t c t.addr 0 0 0)

/-- A packet enters a stage; none where every context is in use (R68). FLOW releases the key half (R15) and ACT is
preceded by the policer (R212). -/
def enterStage (s : State) (d k : Nat) : Option State :=
  match getPkt s k, chooseFree s s.tricks (256 * d) (256 * d + 256) with
  | some p, some (key, s) =>
    let st := stageOf d
    let s := if st = 2 then setPkt s k { p with kv := [] } else s
    let a := if st = 3 then actCharge s k else (0, s)
    some (startTrick a.2 d (key % 256)
      { Trick.blank with pkt := k, slot := pktEpoch p, routine := pktRoutine p st, pol := a.1 })
  | _, _ => none

/-! ## Parking (R189, R190) -/

/-- The trick leaves FLOW for stock slot `slot` with suit `n`. -/
def parkIn (s : State) (d c slot n : Nat) (head front : Bool) : State :=
  match trickAt s d c with
  | none => s
  | some t => match getPkt s t.pkt with
    | none => s
    | some p =>
      let hand := d % 32
      let x := suitAt s n
      let s := perfEvent (perfAttempt s d c t false) d 14 1 (perfOf s t c t.addr 0 0 n)
      let s := { s with
        stock := kset s.stock slot { pkt := p, hand := hand, routine := t.routine, suit := n, head := head,
                                     restarts := t.restarts, poison := false, wd := s.clk - t.entryClk },
        suits := kset s.suits n { x with holder := if head then some .chain else x.holder,
                                         chain := if front then slot :: x.chain else x.chain ++ [slot] },
        pkts := kdel s.pkts t.pkt,
        order := s.order + 1,
        tasks := kset s.tasks (reentryHandle slot)
          { state := .waiting, count := 1, level := fgF s 5 1 % 8, list := 0, urgent := false, hand := hand, stock := slot,
            expiry := 0, delayed := false, order := s.order, readyClk := 0, via := 17,
            body := { args := [], suit := some n, succ := none, routine := t.routine, list := 0, urgent := false,
                      level := fgF s 5 1 % 8, delay := 0, origin := 2 },
            kind := .reentry } }
      let s := raiseHigh s hwStock s.stock.length
      freeCtx ((t.suit.toList ++ t.more).foldl (fun s m => if m = n then s else releaseSuit s m) s) d c

/-- Park the trick as a chain's newcomer; a full stock drops it (R190). -/
def parkTail (s : State) (d c n : Nat) : State :=
  match chooseFree s s.stock 0 65536 with
  | none => killTrick (bump s aChainDrop) d c
  | some (slot, s) => parkIn s d c slot n (suitAt s n).chain.isEmpty false

/-- End a packet in the slow path from a trick, with or without a token (R134, R135). -/
def slowEnd (s : State) (d c source r : Nat) : State :=
  match trickAt s d c with
  | none => s
  | some t => match getPkt s t.pkt with
    | none => s
    | some p =>
      let s := leaveMarks (toSlowPath s (d % 32) p source r).2 d t
      let s := dropSuit (freeReserved s t) t (.trick d c)
      freeCtx (dropPkt s t.pkt) d c

/-- Set trick flag `i`. -/
def setTf (t : Trick) (i : Nat) : Trick := { t with tf := t.tf ||| BitVec.ofNat 8 (2 ^ i) }

/-- A lookup returns without a record: FLOW_HIT false, FLOW_NEW false. -/
def lookupEmpty (s : State) (d c : Nat) (tf5 : Bool) : State :=
  modTrick s d c fun t =>
    let t := { t with image := none, recAt := none, flowNew := false, created := none }
    if tf5 then setTf t 5 else t

/-- The stock-full action of FLOWGEOM (R190): DROP, SLOW, or PASS, which lets the lookup return empty with TF5. -/
def stockFull (s : State) (d c : Nat) : State :=
  let s := bump s aStockFull
  match trickAt s d c with
  | none => s
  | some t =>
    let act := if t.task.isSome then 2 else fgF s 3 1
    if act = 0 then killTrick s d c
    else if act = 1 then
      let r := fgF s 4 1 % 64
      slowEnd (hitReason s r) d c 3 r
    else lookupEmpty s d c true

end Sys2Proof.Machine
end

