-- ==== Sys2Proof/Machine/Effects.lean ====
section
/-!
DEFINITION. The effects of a routine: the pending log, COMMIT, telemetry and samples, and what becomes of the packet or
task when its routine ends (04_dealers_and_microcode.md R75 to R78, R84 to R86, R90, R96; 09_flow_actions.md R213 to R215;
06_intake_parser.md R134, R140; 16_observability.md R372).
Log entries: 42, 43.
-/
namespace Sys2Proof.Machine

open Sys2Proof

/-! ## Effects outside flow records -/

/-- The effect is on the latched flow record, or places one. -/
def Effect.onRecord : Effect → Bool
  | .word .. => true
  | .create .. => true
  | .fsm .. => true
  | .touch => true
  | .delete => true
  | .pin .. => true
  | .keep _ => true
  | .insert => true
  | .relocate => true
  | .writeback => true
  | _ => false

/-- The carried half after a META write of a target (Table 4.10, Table 6.9); target 15 takes stage × 256 + routine. -/
def applyMeta (p : Pkt) (target v : Nat) : Pkt :=
  match target with
  | 0 => cwBits p 3 (16 + v % 16) (16 + v % 16) 1
  | 1 => cwBits p 3 (16 + v % 16) (16 + v % 16) 0
  | 2 => cwBits p 5 15 8 v
  | 3 => cwBits p 5 31 16 v
  | 4 => cwBits p 5 7 5 v
  | 5 => cwBits p 5 4 3 v
  | 6 => cwBits p 5 2 1 v
  | 7 => cwBits p 2 5 0 v
  | 8 => cwBits p 8 12 0 v
  | 9 => cwBits p 9 31 24 v
  | 10 => cwBits p 6 31 0 v
  | 11 => cwBits p 7 31 24 v
  | 12 => cwBits p 7 23 20 v
  | 13 => cwBits p 7 15 0 v
  | 14 => cwBits p 8 31 16 v
  | _ =>
    match v / 256 % 8 with
    | 1 => cwBits p 9 23 16 (v % 256)
    | 2 => cwBits p 9 15 8 (v % 256)
    | 3 => cwBits p 9 7 0 (v % 256)
    | 4 => cwBits p 10 31 24 (v % 256)
    | 5 => cwBits p 10 23 16 (v % 256)
    | 6 => cwBits p 10 15 8 (v % 256)
    | _ => p

/-- One entry more in the edit list (Table 6.9); ops 8 to 10 go to the MAC with the frame (R301). -/
def addEdit (p : Pkt) (op off : Nat) (v : W32) : Pkt :=
  if 8 ≤ op && op ≤ 10 then { p with macEd := p.macEd ++ [(op, off, v)] }
  else
    let n := pktEdits p
    let p := cvSet (cvSet (cvSet p (0xA0 + 6 * n) 1 (op * 16)) (0xA1 + 6 * n) 1 off) (0xA2 + 6 * n) 4 v.toNat
    cwBits p 10 4 0 (n + 1)

/-- The queue choice of a shuffle result: only a valid QUEUE entry chooses (R167); the queue and the egress port stand
each unless a later effect has written it. -/
def applyChoice (p : Pkt) (v : W32) (queue port : Bool) : Pkt :=
  if bit v.toNat 31 && bits v.toNat 30 28 = 0 then
    let p := if queue then cwBits p 5 31 16 v.toNat else p
    if port then cwBits p 5 15 8 (v.toNat / 65536) else p
  else p

/-- What an effect leaves to a queue choice logged before it whose result is still out (R86). -/
def leaves (e : Effect) : Bool × Bool := match e with
  | .metaW g _ => (g != 3, g != 2)
  | .queue _ => (false, true)
  | .pvset off _ => (off != 0x14, off != 0x14)
  | .qsel (some v) .. => if bit v.toNat 31 && bits v.toNat 30 28 = 0 then (false, false) else (true, true)
  | _ => (true, true)

/-- A queue choice whose result is still out. -/
def isOut (e : Effect) : Bool := match e with | .qsel none .. => true | _ => false

/-- The choice still out in a log, with what the effects logged after it leave to it. -/
def choiceOut : List Logged → List Logged
  | [] => []
  | x :: rest => match x.eff with
    | .qsel none q pt =>
      let q := rest.foldl (fun a y => a && (leaves y.eff).1) q
      let pt := rest.foldl (fun a y => a && (leaves y.eff).2) pt
      { x with eff := .qsel none q pt } :: choiceOut rest
    | _ => choiceOut rest

/-- Bytes of the carried half that `q` changes from `p` join what a routine keeps of its entry state (R85). -/
def undoOf (u : KMap (Nat × Nat)) (p q : Pkt) : KMap (Nat × Nat) :=
  if p.cv = q.cv then u
  else (List.range 256).foldl (fun u i =>
    let a := (cvF p i 1)
    let m := a ^^^ cvF q i 1
    if m = 0 then u
    else match kget u i with
      | some (m0, v) => kset u i (m0 ||| m, (v &&& m0) ||| (a &&& (255 - m0)))
      | none => kset u i (m, a)) u

/-- A packet as its routine sees it: without the effects that the routine itself has applied (R85). -/
def seenPkt (t : Trick) (p : Pkt) : Pkt :=
  { p with cv := t.undo.foldl (fun cv e =>
      setNth cv e.1 (BitVec.ofNat 8 (((nth cv e.1 0).toNat &&& (255 - e.2.1)) ||| (e.2.2 &&& e.2.1)))) p.cv }

/-- The packet that a trick's routine sees. -/
def trickPkt (s : State) (t : Trick) : Option Pkt := (getPkt s t.pkt).map (seenPkt t)

/-- Apply one effect that is not on a record (R84). -/
def applyEffect (s : State) (d c : Nat) (e : Effect) : State :=
  match trickAt s d c with
  | none => s
  | some t =>
    let onPkt := fun (f : Pkt → Pkt) => match getPkt s t.pkt with
      | some p => setTrick (setPkt s t.pkt (f p)) d c { t with undo := undoOf t.undo p (f p) }
      | none => s
    match e with
    | .metaW g v => onPkt fun p => applyMeta p g v.toNat
    | .edit op off v => onPkt fun p => addEdit p op off v
    | .pvset off v => onPkt fun p => cvSet p off 4 v.toNat
    | .queue v => onPkt fun p => cwBits p 5 31 16 v.toNat
    | .qsel res q pt => (match res with
      | some v => onPkt fun p => applyChoice p v q pt
      | none => s)
    | .launch => onPkt fun p => cwBits p 7 19 19 1
    | .bump k => modTrick (bump s (aPair (stageOf d) (t.counterBase + k - 1))) d c fun t => { t with bumps := t.bumps ++ [k] }
    | .sample => modTrick s d c fun t => { t with sample := true }
    | .recirc => modTrick s d c fun t => { t with recirc := true }
    | .drop => modTrick s d c fun t => { t with drop := true }
    | .exc => modTrick s d c fun t => { t with exc := true }
    | .post h b => (match kget s.tasks h with
      | some k => postAt s h k.count b .micro
      | none => s)
    | .cancel h =>
      cancelTask s h t.suit d c
    | _ => s

/-! ## Record effects -/

/-- Stands for the line of a miss under SNAP that kept nothing. -/
def snapNothing : Nat := 2 ^ 22

/-- Under SNAP the PENDING line of a digest gathers the first create image and the touches; every other write is
discarded (R192). -/
def snapGather (s : State) (n dig : Nat) (p : Pkt) (es : List Effect) : State :=
  if n = snapNothing then s
  else es.foldl (fun s e =>
    let l := lineOf s n
    if l.lstate != .pending || l.digest != dig then bump s aSnapDiscard
    else match e with
      | .create syn f a =>
        if l.gathered.isNone then setLine s n { l with gathered := some (createWords s l.key syn f a) }
        else bump s aSnapDiscard
      | .touch =>
        setLine s n { l with touches := (l.touches.1 + 1, l.touches.2.1 + pktLen p, l.touches.2.2 ||| bits (cw p 3) 15 8) }
      | _ => bump s aSnapDiscard) s

/-- The record that FLOW INSERT builds in a task that is not an insert of the part: the key of the flow-key area,
VALID, and in every other word a free value, since the spec does not say where the carried half holds them. -/
def insertWords (s : State) (key : List Byte) : List W32 × State :=
  let r := drawN 32 s
  let free := (List.range (recWords s)).map fun i => BitVec.ofNat 32 (r.1 / 2 ^ (32 * i))
  let ws := keyToWords s key ++ free.drop (keyWords s)
  let c := coreW s
  let ws := setWord ws c (setBits (setBits (wordOf ws c) 15 15 1) 14 8 0)
  (setWord ws (tagW s) 0, r.2)

/-- FLOW INSERT applied (R185): the PROVISIONAL line of an insert task lands; another task's record is placed. -/
def applyInsert (s : State) (t : Trick) : State :=
  match t.task.bind (kget s.tasks) with
  | none => s
  | some k => match k.kind with
    | .insert n => landLine s n
    | _ => match getPkt s t.pkt with
      | none => s
      | some p =>
        let key := flowKey s p
        match fetchFind (tagAt s) s key with
        | .found _ => s
        | .absent _ =>
          let w := insertWords s key
          match makePlace w.2 key with
          | some (s, i, second) => bump (writeRecord s i w.1 (tagWord second (digestOf s key))) aCreates
          | none => bump w.2 aInsertFail

/-- RELOCATE: the latched record moves to a free slot of its other bucket (Table 4.8). -/
def applyRelocate (s : State) (i : Nat) : State :=
  let b := i / slotsOf s
  let o := flowOther s b (i % slotsOf s)
  match findUp (slotsOf s) 0 fun j => !placeUsed s o j with
  | some j => moveRecord s (b, i % slotsOf s) (o, j)
  | none => s

/-- The record index behind what a trick latched. -/
def indexOf (s : State) : RecAt → Option Nat
  | .index i => some i
  | .line n => let l := lineOf s n; if l.lstate == .record && !l.provisional then some l.index else none
  | .gather .. => none

/-- INSERT, RELOCATE and WRITEBACK stand between the updates of their record (R86). -/
def Effect.places : Effect → Bool
  | .insert => true
  | .relocate => true
  | .writeback => true
  | _ => false

/-- What the record effects of trick (d, c) read of its packet. -/
def recCtx (s : State) (t : Trick) (arm : Bool) : RecCtx :=
  let p := getPkt s t.pkt
  { arm := arm, len := (p.map pktLen).getD 0, flags := (p.map fun q => bits (cw q 3) 15 8).getD 0 }

/-- The logged effects on one record, as a single update (R86): a create takes the key of its line. -/
def updateRecord (s : State) (d c : Nat) (t : Trick) (at_ : RecAt) (es : List Effect) (arm : Bool) : State :=
  let x := recCtx s t arm
  match at_ with
  | .gather n dig => (match getPkt s t.pkt with | some q => snapGather s n dig q es | none => s)
  | _ =>
    let plain := es.filter fun e => match e with | .create .. => false | _ => true
    match es.findSome? (fun e => match e with | .create syn f a => some (syn, f, a) | _ => none), at_ with
    | some (syn, f, a), .line n =>
      let ws := (plain.filter (· != .delete)).foldl (recEffect s x) (createWords s (lineOf s n).key syn f a)
      let s := placeCreate s n ws
      if plain.contains .delete then applyRecord s (.line n) x [.delete] t.suit d c
      else if keepBit s ws && (lineOf s n).lstate == .record then mirrorDue s (suitOf n (lineOf s n)) else s
    | _, _ => applyRecord s at_ x plain t.suit d c

/-- INSERT, RELOCATE or WRITEBACK of what was latched. -/
def placeEffect (s : State) (t : Trick) (at_ : Option RecAt) (e : Effect) : State :=
  match e with
  | .insert => applyInsert s t
  | .relocate => (match at_.bind (indexOf s) with | some i => applyRelocate s i | none => s)
  | _ => (match at_ with
    | some (.line n) => writeBack s n
    | some (.index i) => (match lineAt s i with | some n => writeBack s n | none => s)
    | _ => s)

/-- The effects of `rest` that join the update of record `r`: those logged for it before its next INSERT, RELOCATE or
WRITEBACK; and the others. -/
def sameUpdate (r : Option RecAt) : List Logged → List Effect × List Logged
  | [] => ([], [])
  | x :: rest =>
    if x.at_ == r && x.eff.places then ([], x :: rest)
    else
      let y := sameUpdate r rest
      if x.at_ == r && x.eff.onRecord then (x.eff :: y.1, y.2) else (y.1, x :: y.2)

/-- Apply logged effects in the order they were logged, those of one record as a single update at its first (R86);
`fuel` bounds their number. -/
def applyLog (fuel : Nat) (s : State) (d c : Nat) (es : List Logged) (arm : Bool) : State :=
  match fuel, es with
  | k + 1, x :: rest =>
    if !x.eff.onRecord then applyLog k (applyEffect s d c x.eff) d c rest arm
    else match trickAt s d c with
      | none => s
      | some t =>
        if x.eff.places then applyLog k (placeEffect s t x.at_ x.eff) d c rest arm
        else match x.at_ with
          | none => applyLog k s d c rest arm
          | some r =>
            let y := sameUpdate x.at_ rest
            applyLog k (updateRecord s d c t r (x.eff :: y.1) arm) d c y.2 arm
  | _, _ => s

/-! ## COMMIT -/

/-- The suits the trick holds are released (R75). -/
def releaseHeld (s : State) (d c : Nat) : State :=
  match trickAt s d c with
  | none => s
  | some t =>
    let s := modTrick s d c fun t => { t with suit := none, more := [], releaseAt := false }
    (t.suit.toList ++ t.more).foldl (fun s n => if (suitAt s n).holder == some (.trick d c) then releaseSuit s n else s) s

/-- The trick passes COMMIT: the logged effects are applied in the order they were logged, those on one record as a
single update (R86). A queue choice whose shuffle result is still out stays logged until it returns (R76). A packet
under SNAP leaves its suit at once, its record writes applied (R33). -/
def commitTrick (s : State) (d c : Nat) : State :=
  match trickAt s d c with
  | none => s
  | some t =>
    if t.committed then s
    else
      let s := setTrick s d c { t with committed := true, commitClk := s.clk, restarts := 0, log := choiceOut t.log }
      let s := perfEvent s d 13 1 (perfOf s t c t.addr 0 0 0)
      let s := if t.task.isSome then
          { s with deck := if t.slot then { s.deck with held1 := s.deck.held1 + 1 } else { s.deck with held0 := s.deck.held0 + 1 } }
        else s
      let arm := t.log.any fun e => match e.eff with | .post .. => true | .cancel _ => true | _ => false
      let s := applyLog t.log.length s d c (t.log.filter fun e => !isOut e.eff) arm
      if t.releaseAt || (isSnap s && stageOf d == 2) then releaseHeld s d c else s

/-- Log an effect on what the trick has latched, or apply it at once after COMMIT; the 33rd is a microcode error (R84,
R86, R90). -/
def logEffect (s : State) (d c : Nat) (e : Effect) : State :=
  match trickAt s d c with
  | none => s
  | some t =>
    let x : Logged := ⟨e, t.recAt⟩
    if t.committed then
      if isOut e then setTrick s d c { t with log := t.log ++ [x] }
      else applyLog 1 (setTrick s d c { t with log := choiceOut (t.log ++ [x]) }) d c [x] false
    else if 32 ≤ t.log.length then ucodeErr s d c 1
    else setTrick s d c { t with log := t.log ++ [x] }

/-- Entries of the edit list, those logged included. -/
def editCount (t : Trick) (p : Pkt) : Nat :=
  pktEdits p + (t.log.filter fun e => match e.eff with | .edit op _ _ => !(8 ≤ op && op ≤ 10) | _ => false).length

/-! ## The end of a routine -/

/-- The packet leaves the pipeline from trick (d, c). -/
def dropTrick (s : State) (d c : Nat) : State :=
  match trickAt s d c with
  | none => s
  | some t => freeCtx (dropAt s (stageOf d) t.pkt) d c

/-- The packet goes on to the next stage when it accepts it. -/
def passOn (s : State) (d c : Nat) : State := modTrick s d c fun t => { t with settled := some 0, recirc := false }

/-- A reason's ACTION at the end of a routine (R134): DROP, SLOW, CONTINUE or COPY, with the slow-path SOURCE of the
first two. The Bool says that the packet goes on. -/
def reasonEnds (s : State) (d c r : Nat) : Bool × State :=
  match trickAt s d c with
  | none => (false, s)
  | some t => match getPkt s t.pkt with
    | none => (true, s)
    | some p =>
      match reasonAction s t.slot r with
      | 0 => (false, dropTrick (bump s (aReason r 1)) d c)
      | 1 => (false, slowEnd s d c 0 r)
      | 2 => (true, s)
      | _ => (true, (toSlowPath s (d % 32) p 1 r).2)

/-- Queue the packet for recirculation (R266). -/
def recircTrick (s : State) (d c : Nat) : State :=
  match trickAt s d c with
  | none => s
  | some t => freeCtx { s with recircq := kset s.recircq (d % 32) (kgetD s.recircq (d % 32) [] ++ [t.pkt]) } d c

/-- MISC at a routine's end: EXCEPT over DROP over RECIRC (R77); a fourth pass takes reason 13 (R140). A DROP counts
nothing of its own: the routine's BUMP is the count, and where it sets none the spec names no counter (assumption 55,
DESIGN CHOICE). -/
def miscEnds (s : State) (d c : Nat) : State :=
  match trickAt s d c with
  | none => s
  | some t =>
    let p := getPkt s t.pkt
    let r := p.elim 0 pktReason
    if t.exc then slowEnd (hitReason s r) d c 2 r
    else if t.drop then dropTrick s d c
    else if t.recirc then
      if p.elim 0 pktPass = 3 then
        let s := hitReason (modPkt s t.pkt fun q => cwBits q 2 5 0 13) 13
        let x := reasonEnds s d c 13
        if x.1 then passOn x.2 d c else x.2
      else recircTrick s d c
    else passOn s d c

/-- The fate of an ended trick. A PARSE trick is settled once its walk has ended: DROP and SLOW of a walker reason
prevail over every MISC effect (R125, R134). -/
def settleTrick (s : State) (d c : Nat) : State :=
  match trickAt s d c with
  | none => s
  | some t =>
    if !t.ended || t.settled.isSome then s
    else if stageOf d = 0 then
      match getPkt s t.pkt with
      | none => s
      | some p =>
        if !p.walk.done then s
        else if p.walk.excepted then
          let x := reasonEnds s d c p.walk.reason
          if x.1 then miscEnds x.2 d c else x.2
        else miscEnds s d c
    else miscEnds s d c

/-- The routine ends (R78, R84): it commits if it has not, its suit is released, its samples are written, and its
packet is settled or its task ends; DROP in SERVICE ends the task as failed (R77). -/
def endRoutine (s : State) (d c : Nat) : State :=
  let s := commitTrick s d c
  match trickAt s d c with
  | none => s
  | some t =>
    let s := perfEvent (perfAttempt s d c t true) d 15 1 (perfOf s t c t.addr 0 0 0)
    let s := leaveMarks s d t
    let s := dropSuit s t (.trick d c)
    let s := modTrick s d c fun t =>
      { t with ended := true, log := [], bumps := [], pend := [], spent := [], suit := none, more := [], wait := none, mwait := none }
    if stageOf d = 7 then
      let s := finishTask s d c t t.drop
      freeCtx { s with pkts := kdel s.pkts t.pkt } d c
    else settleTrick s d c

end Sys2Proof.Machine
end

