-- ==== Sys2Proof/Machine/Edits.lean ====
section
/-!
DEFINITION. The edit list applied to a frame (04_dealers_and_microcode.md Table 4.9; 01 R15; 11 R243).
Log entries: 10, 19.
-/
namespace Sys2Proof.Machine

open Sys2Proof

/-- One entry of the edit list: OP, OFFSET, value. -/
structure EditEnt where
  op  : Nat
  off : Nat
  val : Nat
deriving DecidableEq, Repr

/-- The entries of a carried half in log order (Table 6.9). -/
def editList (p : Pkt) : List EditEnt :=
  (List.range (min (pktEdits p) 16)).map fun i =>
    ⟨cvF p (0xA0 + 6 * i) 1 / 16, cvF p (0xA1 + 6 * i) 1, cvF p (0xA2 + 6 * i) 4⟩

/-- Insert an entry behind those of equal or lower OFFSET. -/
def sortEdit (e : EditEnt) (es : List EditEnt) : List EditEnt :=
  match es with
  | [] => [e]
  | x :: r => if x.off ≤ e.off then x :: sortEdit e r else e :: x :: r

/-- Ascending OFFSET, equal offsets in log order (Table 4.9). -/
def sortEdits (es : List EditEnt) : List EditEnt := es.foldl (fun acc e => sortEdit e acc) []

/-- Ones'-complement sum of a byte string's 16-bit words. -/
def csumWords (bs : List Byte) : Nat :=
  (chunks 2 bs).foldl (fun a w => ones16 a (fld w 0 2)) 0

/-- A 16-bit ones'-complement checksum adjusted by the difference of the bytes it covers (R301); a word of 0 is left
(assumption 19, DESIGN CHOICE). -/
def csumAdjust (old diff : Nat) : Nat :=
  if old = 0 then 0 else 0xFFFF - ones16 (0xFFFF - old % 65536) diff

/-- The frame during editing: its bytes, and how far received offsets have moved. -/
structure Editing where
  bytes : List Byte
  shift : Int
deriving DecidableEq, Repr

/-- Bytes that an encapsulation template inserts: the spec gives no layout of it in the pool, so their number (at most
255) and content are free values (assumption 10, DESIGN CHOICE). -/
def templateBytes (s : State) : List Byte × State :=
  let d := draw s
  let n := d.1 % 256
  let r := drawN (cdiv n 8) d.2
  (slice (toBytes (8 * cdiv n 8) r.1) 0 n, r.2)

/-- One edit (Table 4.9). An edit that reaches past the frame's end is not made (assumption 19, DESIGN CHOICE). DEC_TTL
of a 0 leaves 0 (assumption 55, DESIGN CHOICE). -/
def editOne (s : State) (x : Editing) (e : EditEnt) : Editing × State :=
  let a := Int.ofNat e.off + x.shift
  if a < 0 then (x, s)
  else
    let p := a.toNat
    let n := x.bytes.length
    let put := fun (k v : Nat) => if p + k ≤ n then { x with bytes := patch x.bytes p (toBytes k v) } else x
    match e.op with
    | 1 => (put 2 e.val, s)
    | 2 => (put 4 e.val, s)
    | 13 => (put 1 e.val, s)
    | 3 =>
      if n < p then (x, s)
      else
        let t := templateBytes s
        ({ bytes := x.bytes.take p ++ t.1 ++ x.bytes.drop p, shift := x.shift + t.1.length }, t.2)
    | 4 =>
      let k := min e.val (n - p)
      ({ bytes := x.bytes.take p ++ x.bytes.drop (p + k), shift := x.shift - k }, s)
    | 5 => (if p < n then put 1 ((nth x.bytes p 0).toNat - 1) else x, s)
    | 6 =>
      let h := 4 * ((nth x.bytes p 0).toNat % 16)
      if h < 20 || n < p + h then (x, s)
      else
        let z := patch x.bytes (p + 10) [0, 0]
        ({ x with bytes := patch z (p + 10) (toBytes 2 (0xFFFF - csumWords (slice z p h))) }, s)
    | 7 => (if p + 2 ≤ n then put 2 (csumAdjust (fld x.bytes p 2) e.val) else x, s)
    | _ => (x, s)

def editAll (s : State) (x : Editing) (es : List EditEnt) : Editing × State :=
  match es with
  | [] => (x, s)
  | e :: r => let y := editOne s x e; editAll y.2 y.1 r

/-- The frame's bytes with the packet's edit list applied (R15, R243). -/
def applyEdits (s : State) (p : Pkt) (frame : List Byte) : List Byte × State :=
  let r := editAll s ⟨frame, 0⟩ (sortEdits (editList p))
  (r.1.bytes, r.2)

end Sys2Proof.Machine
end

