-- ==== Sys2Proof/Machine/FlowTrick.lean ====
section
/-!
DEFINITION. FLOW operations of a trick: lookups with their suits, misses and creates, FSM steps, service lookups by
index and scan, task posts and cancels (04_dealers_and_microcode.md R75; 08_flow_records.md R174, R175, R180 to R195;
09_flow_actions.md R199 to R201; 10_task_scheduler_and_suits.md R227, R228, R230).
Log entries: 42, 43.
-/
namespace Sys2Proof.Machine

open Sys2Proof

/-- Suit modes of FLOW.SUIT (R75). -/
def suitNone : Nat := 0
def suitAcquire : Nat := 1
def suitHeld : Nat := 2
def suitRelease : Nat := 3

/-- The flow key of the packet as the routine sees it. -/
def trickKeyOf (s : State) (t : Trick) : List Byte := match trickPkt s t with
  | some p => flowKey s p
  | none => slice [] 0 (keyBytes s)

/-- A lookup hits the RECORD line `n` (R180, R175). -/
def lookupHit (s : State) (d c n : Nat) : State :=
  let l := lineOf s n
  let mark := match trickAt s d c with
    | some t => if t.task.isNone && !t.reentry then (getPkt s t.pkt).map fun p => confKey p.port p.rxTime else none
    | none => none
  let s := useLine (confHit (bump s aHits) mark) n
  modTrick s d c fun t => { t with image := some (hotImage s l.words), recAt := some (.line n), flowNew := false, created := none }

/-- The parsed TCP flags show SYN set and ACK clear (Table 4.8). -/
def synOnly (p : Pkt) : Bool := bit (cw p 3) 9 && !bit (cw p 3) 12

/-- The operation creates when the key is not found: LOOKUP_CREATE, or LOOKUP_CREATE_SYN on a SYN (Table 4.8). -/
def creates (s : State) (t : Trick) (op : Nat) : Bool :=
  op == 2 || (op == 3 && (match trickPkt s t with | some p => synOnly p | none => false))

/-- Log the create of a lookup: SYN_SEEN, FSM_ID and AGE_CLASS (R174). -/
def logCreate (s : State) (d c op : Nat) (out : W32) : State :=
  logEffect s d c (.create (op == 3) (bits out.toNat 7 4) (bits out.toNat 3 0))

/-- The key is not in the table: LOOKUP_CREATE logs a create, within the limits of R193 and R185. -/
def lookupCreateAt (s : State) (d c n op : Nat) (out : W32) : State :=
  match trickAt s d c with
  | none => s
  | some t =>
    if creates s t op then
      if createOk s n then
        let s := modTrick s d c fun t =>
          { t with image := none, recAt := some (.line n), flowNew := true,
                   created := some (bits out.toNat 7 4, bits out.toNat 3 0) }
        logCreate s d c op out
      else lookupEmpty (bump s aInsertLimited) d c true
    else lookupEmpty s d c false

/-- A lookup that may not park finds no record: it returns at once, empty, with TF5; the line of its digest gathers its
create and touches (R192). -/
def lookupSnap (s : State) (d c n dig op : Nat) (out : W32) : State :=
  let s := lookupEmpty s d c true
  let s := modTrick s d c fun t => { t with recAt := some (.gather n dig) }
  match trickAt s d c with
  | none => s
  | some t => if creates s t op then logCreate s d c op out else s

/-- The trick holds the suit of line `n`: a RECORD line is a hit, an ABSENT one a miss that may create, and a PENDING
one keeps the trick waiting for the fetch. -/
def lookupHeld (s : State) (d c n op : Nat) (out : W32) : State :=
  match (lineOf s n).lstate with
  | .record => lookupHit s d c n
  | .absent => lookupCreateAt s d c n op out
  | .pending => modTrick s d c fun t => { t with wait := some (.fetch n op out) }
  | .free => lookupEmpty s d c false

/-- Suit `m`, which the trick holds, becomes the one its operations go by; what it held before stays held (Table 4.14). -/
def holdSuit (s : State) (d c m : Nat) : State :=
  match trickAt s d c with
  | none => s
  | some t =>
    if t.suit == some m then s
    else setTrick s d c { t with suit := some m, more := (t.suit.toList ++ t.more).filter (· != m) }

/-- The trick takes suit `m` (R188). -/
def acquire (s : State) (d c m : Nat) : State := holdSuit (takeSuit s m (.trick d c)) d c m

/-- The packet may park: an uncommitted packet in FLOW under a contract that parks (R75). -/
def canPark (s : State) (t : Trick) : Bool := mayPark s && !t.committed && t.task.isNone

/-- A miss with no line of its own (R182, R188, R190, R192). -/
def lookupMiss (s : State) (d c op : Nat) (out : W32) : State :=
  match trickAt s d c with
  | none => s
  | some t =>
    let key := trickKeyOf s t
    let g := setOf s key
    let s := confMiss s
    if isSnap s then
      if 256 ≤ bankFetches s (bankOf s g) then lookupSnap (bump s aSnapNoFetch) d c snapNothing 0 op out
      else match victim s g with
        | none => stockFull (bump s aSetHeld) d c
        | some n => lookupSnap (allocPending s n key) d c n (digestOf s key) op out
    else
      -- a packet that re-entered under the line form of a freed line of this set fetches into it again
      let own := match t.suit with
        | some m => if 2 ^ 27 ≤ m && (m - 2 ^ 27) / 16 = g && (lineOf s (m - 2 ^ 27)).lstate == .free then
            some (m - 2 ^ 27) else none
        | none => none
      match (match own with | some n => some n | none => victim s g) with
      | none => stockFull (bump s aSetHeld) d c
      | some n =>
        if canPark s t then
          match chooseFree s s.stock 0 65536 with
          | none => stockFull s d c
          | some (slot, s) => parkIn (allocPending s n key) d c slot (lineSuit n) true own.isSome
        else
          let s := acquire (allocPending s n key) d c (lineSuit n)
          modTrick s d c fun t => { t with wait := some (.fetch n op out) }

/-- LOOKUP, LOOKUP_CREATE and LOOKUP_CREATE_SYN (ops 1 to 3) with a suit mode (R75, R180, R188 to R193). -/
def flowLookup (s : State) (d c op mode : Nat) (out : W32) : State :=
  match trickAt s d c with
  | none => s
  | some t =>
    let key := trickKeyOf s t
    match findLine s (setOf s key) (digestOf s key) with
    | none => if mode = suitNone then lookupEmpty (confMiss s) d c true else lookupMiss s d c op out
    | some n =>
      let l := lineOf s n
      if mode = suitNone then
        (if l.lstate == .record then lookupHit s d c n else lookupEmpty s d c true)
      else if isSnap s && l.lstate == .pending then lookupSnap s d c n l.digest op out
      else
        let m := suitOf n l
        let x := suitAt s m
        if x.holder == some (.trick d c) then lookupHeld (holdSuit s d c m) d c n op out
        else if x.holder.isNone && !(l.lstate == .pending && canPark s t) then
          lookupHeld (acquire s d c m) d c n op out
        else if canPark s t && (x.holder.isNone || x.holder == some .chain || !x.chain.isEmpty) then parkTail s d c m
        else modTrick (waitSuit s m (.trick d c)) d c fun t => { t with wait := some (.suit m op out) }

/-! ## Operations on the latched record -/

/-- A service trick reads record `i` whole from HBM (R175): true when the trick goes on; poison before COMMIT is a fault,
after it POISON (R87). -/
def readIndex (s : State) (d c i : Nat) : Bool × State :=
  let r := hbmRead s (recSource d) (recWordOff s i 0) (recBytes s - 4)
  match trickAt r.1 d c with
  | none => (false, r.1)
  | some t =>
    if !r.2.2 then (true, r.1)
    else if t.committed then (true, setTrick r.1 d c { t with poison := true })
    else (false, faultTrick r.1 d c 0 none)

/-- READ: the record's image is latched again. It is the image first latched: no other routine writes the record while
its suit is held, and a routine does not see its own writes (R85, Table 4.8). -/
def flowReread (s : State) (d c : Nat) : State :=
  match (trickAt s d c).bind (·.recAt) with
  | some (.index i) => (readIndex s d c i).2
  | _ => s

/-- A cell of machine `k` at state and event (Table 9.1). -/
def fsmCell (s : State) (e : Bool) (k st ev : Nat) : Nat := hotF s e tyFlowfsm (4096 * k + 4 * (32 * st + ev)) 4

/-- Machines that a slot defines (R199). -/
def fsmCount (s : State) (e : Bool) : Nat := (hotBody s e tyFlowfsm).length / 4096

/-- FSM_STEP (R200, R201): the result of Table 9.2 in the FIELD 63 position, and the state write it logs. -/
def fsmStepOp (s : State) (d c : Nat) (out : W32) : State :=
  match trickAt s d c with
  | none => s
  | some t =>
    let undef := fun (st age : Nat) =>
      modTrick (bump s aFsmUndef) d c fun t =>
        setTf { t with fsmRes := BitVec.ofNat 32 (st % 256 * 2 ^ 8 + st % 256 * 2 ^ 16 + age % 16 * 2 ^ 24 + 2 ^ 30) } 4
    let step := fun (st k age : Nat) =>
      if fsmCount s t.slot ≤ k || 32 ≤ st then undef st age
      else
        let w := fsmCell s t.slot k st (out.toNat % 32)
        let next := bits w 31 24
        let ageEn := bit w 15
        let res := bits w 23 16 + (if next = 0xFF then st else next) * 2 ^ 8 + st * 2 ^ 16
          + (if ageEn then bits w 11 8 else age) * 2 ^ 24 + b2n ageEn * 2 ^ 28 + b2n (next != 0xFF) * 2 ^ 29
        let s := modTrick s d c fun t => { t with fsmRes := BitVec.ofNat 32 res }
        if next = 0xFF && !ageEn then s
        else logEffect s d c (.fsm (if next = 0xFF then none else some next) (if ageEn then some (bits w 11 8) else none))
    match (if t.flowNew then t.created else none) with
    | some (f, a) => step 0 f a
    | none => match t.image with
      | some ws =>
        let w := wordOf ws (coreW s)
        step (bits w 31 24) (bits w 23 20) (bits w 19 16)
      | none => undef 0 0

/-- SNAP let the packet through: its writes go to a PENDING line (R192). -/
def gathers (t : Trick) : Bool := match t.recAt with | some (.gather ..) => true | _ => false

/-- A write operation needs a suit mode other than NONE and a held suit, but for packets that SNAP let through (R75, R192). -/
def suitError (t : Trick) (mode : Nat) : Bool := (mode == suitNone || t.suit.isNone) && !gathers t

/-- RELEASE: the suit goes once COMMIT has passed (R75). -/
def afterOp (s : State) (d c mode : Nat) : State :=
  if mode = suitRelease then
    match trickAt s d c with
    | some t => if t.committed then releaseHeld s d c else setTrick s d c { t with releaseAt := true }
    | none => s
  else s

/-- The trick of a context in `s` is still there in `u`, in the same attempt. -/
def sameRun (s u : State) (d c : Nat) : Bool :=
  (trickAt s d c).map (fun t => (t.age, t.attempt)) == (trickAt u d c).map fun t => (t.age, t.attempt)

/-- An operation, and its RELEASE while the trick stands. -/
def withMode (s : State) (d c mode : Nat) (f : State → State) : State :=
  if sameRun s (f s) d c then afterOp (f s) d c mode else f s

/-- A record write: the suit rule, then the log (R75). -/
def flowWrite (s : State) (d c mode : Nat) (e : Effect) : State :=
  match trickAt s d c with
  | none => s
  | some t => if suitError t mode then ucodeErr s d c 3 else withMode s d c mode fun s => logEffect s d c e

/-- FSM_STEP under the suit rule: the step of a routine without a record is undefined, not an error (R201). -/
def flowFsm (s : State) (d c mode : Nat) (out : W32) : State :=
  match trickAt s d c with
  | none => s
  | some t =>
    if (t.image.isSome || t.flowNew) && suitError t mode then ucodeErr s d c 3
    else withMode s d c mode fun s => fsmStepOp s d c out

/-- PIN: the routine's shuffle result becomes the record's pin (R168); a routine without one stores nothing. -/
def flowPin (s : State) (d c mode : Nat) : State :=
  match trickAt s d c with
  | none => s
  | some t =>
    if suitError t mode then ucodeErr s d c 3
    else match t.shuf with
      | some (tb, i, v) => withMode s d c mode fun s => logEffect s d c (.pin tb i v)
      | none => afterOp s d c mode

/-- KEEP_SET and KEEP_CLEAR. -/
def flowKeep (s : State) (d c mode : Nat) (on : Bool) : State := flowWrite s d c mode (.keep on)

/-! ## Service lookups -/

/-- Latch the whole record at index `i` (R175). -/
def latchIndex (s : State) (d c i : Nat) : State :=
  let r := readIndex s d c i
  if r.1 then
    modTrick r.2 d c fun t =>
      { t with image := some (fullRecord r.2 i), recAt := some (.index i), flowNew := false, created := none }
  else r.2

/-- The record of index `i` exists. -/
def indexValid (s : State) (i : Nat) : Bool := i < nRecords s && bit (tagAt s (i / slotsOf s) (i % slotsOf s)) 31

/-- Take the suit of an index, or wait for it (R188): true when the trick holds it now. -/
def takeIndex (s : State) (d c m op : Nat) (out : W32) : Bool × State :=
  let x := suitAt s m
  if x.holder == some (.trick d c) then (true, holdSuit s d c m)
  else if x.holder.isNone then (true, acquire s d c m)
  else (false, modTrick (waitSuit s m (.trick d c)) d c fun t => { t with wait := some (.suit m op out) })

/-- LOOKUP_INDEX: latch the record at index OUT, under its suit unless the mode is NONE (Table 4.8). -/
def lookupIndexOp (s : State) (d c mode : Nat) (out : W32) : State :=
  let i := out.toNat % 2 ^ 28
  if !indexValid s i then lookupEmpty s d c false
  else if mode = suitNone then latchIndex s d c i
  else
    let r := takeIndex s d c i 14 out
    if r.1 then latchIndex r.2 d c i else r.2

/-- A record is idle beyond the timeout of its class (R194). -/
def idleExpired (s : State) (i : Nat) : Bool :=
  let ws := fullRecord s i
  let c := coreW s
  let to_ := fgF s (48 + 2 * bits (wordOf ws c) 19 16) 2
  to_ != 0 && to_ < (nowS s + 2 ^ 14 - wordOf ws (c + 6) % 2 ^ 14) % 2 ^ 14

/-- The next expired record from `i` on, at most `n` of them. -/
def nextExpired (s : State) (i n : Nat) : Option Nat := findUp n i fun k => indexValid s k && idleExpired s k

/-- The scan cursor of the trick's task, as this attempt has moved it, and the chunk's end. -/
def scanCursor (s : State) (t : Trick) : Option (Nat × Nat) :=
  match t.task.bind (kget s.tasks) with
  | some k => (match k.kind with | .scan a b => some (t.scanPos.getD a, b) | _ => none)
  | none => none

def setCursor (s : State) (d c a : Nat) : State := modTrick s d c fun t => { t with scanPos := some a }

/-- SCAN (R194): advance to the next expired record, take its suit, test it again, and latch it; a record touched or
deleted meanwhile is passed over, its suit kept until COMMIT (Table 4.14), and the end of the chunk returns FLOW_HIT
false. -/
def scanOp (fuel : Nat) (s : State) (d c : Nat) (out : W32) : State :=
  match fuel with
  | 0 => lookupEmpty s d c false
  | k + 1 => match trickAt s d c with
    | none => s
    | some t => match scanCursor s t with
      | none => lookupEmpty s d c false
      | some (a, b) =>
        -- woken with the suit of the record at the cursor: test it again
        if t.suit == some a && t.recAt.isNone then
          if indexValid s a && idleExpired s a then latchIndex (setCursor s d c (a + 1)) d c a
          else scanOp k (setCursor s d c (a + 1)) d c out
        else match nextExpired s a (b - a) with
          | none => setCursor (lookupEmpty s d c false) d c b
          | some i =>
            let r := takeIndex (setCursor s d c i) d c i 15 out
            if r.1 then latchIndex (setCursor r.2 d c (i + 1)) d c i
            else modTrick r.2 d c fun t => { t with recAt := none, image := none, flowNew := false }

/-! ## Tasks -/

/-- The suit a TASK_POST names: none, the latched record's index, the held suit, G3 (R227). -/
def postSuit (s : State) (t : Trick) (mode : Nat) : Option Nat :=
  match mode with
  | 0 => none
  | 1 => (match t.recAt with
    | some (.line n) => some (suitOf n (lineOf s n))
    | some (.index i) => some i
    | _ => none)
  | 2 => t.suit
  | _ => some ((nth t.g 3 0).toNat % 2 ^ 28)

/-- TASK_POST (R227, R228, R230): a handle is reserved at once and posted at COMMIT; bit 31 when none is available. -/
def taskPostOp (s : State) (d c mode field : Nat) (out : W32) : State :=
  match trickAt s d c with
  | none => s
  | some t =>
    let o := out.toNat
    let fail := fun (s : State) =>
      modTrick (bump s aPostFail) d c fun t => { t with fsmRes := BitVec.ofNat 32 (2 ^ 31) }
    if freeHandles s ≤ 4097 then fail s
    else match chooseFree s s.tasks 0 poolHandles with
      | none => fail s
      | some (h, s) =>
        let body : TaskBody :=
          { args := t.g.take 4, suit := postSuit s t mode, succ := if bit field 5 then t.posted.head? else none,
            routine := bits o 7 0, list := bits o 15 12, urgent := bit o 11, level := bits o 10 8, delay := bits o 31 16,
            origin := 0 }
        let entry : Task :=
          { state := .reserved, count := field % 32, level := bits o 10 8, list := bits o 15 12, urgent := bit o 11,
            hand := 0, stock := 0, expiry := 0, delayed := false, order := s.order, readyClk := 0, via := 17, body := body,
            kind := .micro }
        let s := { s with tasks := kset s.tasks h entry }
        let s := modTrick s d c fun t => { t with fsmRes := BitVec.ofNat 32 h, posted := t.posted ++ [h] }
        logEffect s d c (.post h body)

/-- TASK_CANCEL takes effect at COMMIT (R238). -/
def taskCancelOp (s : State) (d c : Nat) (out : W32) : State := logEffect s d c (.cancel (out.toNat % 2 ^ 18))

/-- A FLOW operation by its number (Table 4.8). -/
def flowOp (s : State) (d c op field mode : Nat) (out : W32) : State :=
  match op with
  | 1 => withMode s d c mode fun s => flowLookup s d c 1 mode out
  | 2 => withMode s d c mode fun s => flowLookup s d c 2 mode out
  | 3 => withMode s d c mode fun s => flowLookup s d c 3 mode out
  | 4 => withMode s d c mode fun s => flowReread s d c
  | 5 => flowWrite s d c mode (.word 5 field out)
  | 6 => flowWrite s d c mode (.word 6 field out)
  | 7 => flowWrite s d c mode (.word 7 field out)
  | 8 => flowFsm s d c mode out
  | 9 => flowWrite s d c mode .touch
  | 10 => flowWrite s d c mode .delete
  | 11 => flowPin s d c mode
  | 12 => flowKeep s d c mode true
  | 13 => flowKeep s d c mode false
  | 14 => withMode s d c mode fun s => lookupIndexOp s d c mode out
  | 15 => withMode s d c mode fun s => scanOp 4100 s d c out
  | 16 => flowWrite s d c mode .insert
  | 17 => flowWrite s d c mode .relocate
  | 18 => flowWrite s d c mode .writeback
  | 24 => taskPostOp s d c mode field out
  | 25 => taskCancelOp s d c out
  | _ => s

/-- The flow operation of a woken trick completes (R188, R184). -/
def wakeOp (s : State) (d c : Nat) : State :=
  match trickAt s d c with
  | none => s
  | some t => match t.wait with
    | some (.woken op out) =>
      let s := setTrick s d c { t with wait := none, flowDue := none }
      if op = 14 then lookupIndexOp s d c suitAcquire out
      else if op = 15 then scanOp 4100 s d c out
      else flowLookup s d c op suitAcquire out
    | _ => s

end Sys2Proof.Machine
end

