-- ==== Sys2Proof/Machine/Issue.lean ====
section
/-!
DEFINITION. Issuing microwords, the lookups they start, and hand-offs between stages
(04_dealers_and_microcode.md R68 to R76, R87; 06_intake_parser.md R139; 07_match_and_shuffle.md R146 to R150, R157, R167, R168).
Log entries: 12, 33, 42, 43.
-/
namespace Sys2Proof.Machine

open Sys2Proof

/-- The word a trick issues next. -/
def trickWord (s : State) (d : Nat) (t : Trick) : Mw := readWord t.avfen t.addr (storeWord s t.slot (stageOf d) t.addr)

/-! ## Readiness (R69) -/

/-- A source code names a result slot that is still pending. -/
def srcPending (t : Trick) (code : Nat) : Bool := 6 ≤ code && code ≤ 9 && (kget t.pend (code - 6)).isSome

/-- EDIT operations whose SRC is a source (Table 4.9). -/
def editReads (op : Nat) : Bool := [1, 2, 3, 4, 7, 13, 14].contains op

/-- The header at the cursor: its start, if the walk reached it (R139). -/
def cursorHead (p : Pkt) (cur : Nat) : Option Nat :=
  if 0x40 ≤ cur then (if pktLayer p (cur - 0x40) = 0xFFFF then none else some (pktLayer p (cur - 0x40)))
  else if cur < p.walk.heads.length then some (nth p.walk.heads cur 0) else none

/-- A trick as its routine sees it by clk `at_`: a flow result that has not returned by then is not seen yet (R71). -/
def flowSeen (t : Trick) (at_ : Nat) : Trick := match t.flowDue with
  | some f =>
    if f.at_ ≤ at_ then t
    else { t with image := f.view.image, flowNew := f.view.flowNew, fsmRes := f.view.fsmRes, tf := f.view.tf }
  | none => t

/-- The record holds a pin and the trick has latched it (R76). -/
def latchedPin (s : State) (t : Trick) : Bool := match (flowSeen t s.clk).image with
  | some ws => pinnedBit s ws
  | none => false

/-- The word starts a shuffle lookup (R76). -/
def startsShuffle (s : State) (t : Trick) (w : Mw) : Bool := w.qSrc == 1 || (w.qSrc == 2 && !latchedPin s t)

/-- Ports of a kind in a hand (R150): 0 match, 1 pool, 2 shuffle. A service dealer has ports of its own. -/
def portKey (d kind : Nat) : Nat := 4 * (if d < 160 then d % 32 else d) + kind
def portFree (s : State) (d kind : Nat) : Bool :=
  match kget s.lports (portKey d kind) with
  | some (at_, n) => at_ != s.clk || n < (if kind = 2 then 2 else 4)
  | none => true
def usePort (s : State) (d kind : Nat) : State :=
  let k := portKey d kind
  let n := match kget s.lports k with | some (at_, n) => if at_ = s.clk then n else 0 | none => 0
  { s with lports := kset s.lports k (s.clk, n + 1) }

/-- The next microword of the trick may issue in this clk (R69). -/
def wordReady (s : State) (d : Nat) (t : Trick) (w : Mw) : Bool :=
  let p := getPkt s t.pkt
  let srcs := (1 ≤ aluReads w.aOp && srcPending t w.aA) || (2 ≤ aluReads w.aOp && srcPending t w.aB)
    || (editReads w.eOp && srcPending t w.eSrc)
  let cnd := 5 ≤ w.cond && w.cond ≤ 12 && (kget t.pend ((w.cond - 5) % 4)).isSome
  let pinW := w.fOp == 11 && (kget t.pend 3).isSome
  let ext := w.exLen != 0 && (match p with
    | some q => !q.walk.done && (cursorHead q t.cursor).isNone
    | none => false)
  let rng := w.kOp == 3 && (match p with
    | some q => (match q.rangeClk with | some k => decide (s.clk < k + 4) | none => stageOf d == 0)
    | none => false)
  let prt := (w.mIss && !portFree s d (if w.mTab < 0x80 then 0 else 1)) || (startsShuffle s t w && !portFree s d 2)
  !(srcs || cnd || pinW || ext || rng || prt)

/-- While FLOW is folded, a service trick that holds no suit waits with its flow operation (Table 17.6); one that holds
a suit goes on, so that the suit is released. -/
def foldWaits (s : State) (d : Nat) (t : Trick) (w : Mw) : Bool :=
  stageOf d == 7 && s.rst.foldFlow != .open_ && t.suit.isNone && 1 ≤ w.fOp && w.fOp < 24

/-- FLOW.WAIT suspends the trick in clk `at_` (R75). -/
def flowWaits (t : Trick) (at_ : Nat) : Bool := match t.flowDue with
  | some f => f.waits && at_ < f.at_
  | none => false

/-- The packet of the trick runs a recirculated pass in PARSE, whose slot-clocks R18 caps. -/
def recircPass (s : State) (d : Nat) (t : Trick) : Bool :=
  stageOf d == 0 && (match getPkt s t.pkt with | some p => pktPass p != 0 | none => false)

/-- Recirculated passes of PARSE `h` may take `n` slot-clocks more: 25% of the 8 slots in any 64 clk (R18). -/
def recircFits (s : State) (h n : Nat) : Bool := ((kgetD s.takes h []).filter (s.clk < · + 64)).length + n ≤ 128

/-- The trick is a candidate for an issue slot. -/
def mayIssue (s : State) (d : Nat) (t : Trick) : Bool :=
  let w := trickWord s d t
  !t.ended && t.wait.isNone && t.mwait.isNone && !flowWaits t s.clk && t.readyAt ≤ s.clk && t.addr < endAddr && wordReady s d t w && !foldWaits s d t w
    && !(recircPass s d t && !recircFits s (d % 32) w.cyc)

/-! ## Sources and conditions -/

/-- A source (Table 4.6), as the routine sees it (R85); none where nothing is latched to read. -/
def srcVal (s : State) (t : Trick) (w : Mw) (code : Nat) : Option W32 :=
  let t := flowSeen t s.clk
  if code ≤ 5 then some (nth t.g code 0)
  else if code ≤ 9 then some ((nth t.ls (code - 6) 0).truncate 32)
  else match code with
    | 10 => if w.fField = 63 then some t.fsmRes else t.image.map fun ws => nth ws w.fField 0
    | 11 => some (match trickPkt s t with | some p => BitVec.ofNat 32 (cvF p w.eOff 4) | none => 0)
    | 12 => some (BitVec.ofNat 32 w.eOff)
    | 13 => some (BitVec.ofNat 32 (now40 s))
    | 14 => some 0
    | _ => some 0xFFFFFFFF#32

/-- A source's value; a record word with no record latched is a free value (assumption 3, DESIGN CHOICE). -/
def source (s : State) (t : Trick) (w : Mw) (code : Nat) : W32 × State :=
  match srcVal s t w code with
  | some v => (v, s)
  | none => let d := draw s; (BitVec.ofNat 32 d.1, d.2)

/-- A condition (R71, Table 4.4): a subject that does not exist in the stage reads false. -/
def condTrue (s : State) (d : Nat) (t : Trick) (code : Nat) : Bool :=
  let st := stageOf d
  let on := fun (f : Pkt → Bool) => match trickPkt s t with | some p => f p | none => false
  let flag := fun (b : Nat) => match t.image with | some ws => bit (wordOf ws (coreW s)) b | none => false
  if 32 ≤ code && code ≤ 47 then on fun p => bit (cw p 3) (16 + (code - 32))
  else if 48 ≤ code && code ≤ 55 then bit t.tf.toNat (code - 48)
  else if 5 ≤ code && code ≤ 8 then (nth t.ls (code - 5) 0).getLsbD 63
  else if 9 ≤ code && code ≤ 12 then (nth t.ls (code - 9) 0).getLsbD 62
  else match code with
    | 1 => t.z
    | 2 => t.n
    | 3 => t.c
    | 4 => t.v
    | 13 => t.image.isSome && !t.flowNew
    | 14 => t.flowNew
    | 15 => flag 14
    | 16 => flag 13
    | 17 => t.reentry
    | 18 => on fun p => pktPass p != 0
    | 19 => on fun p => pktOrigin p == 2 || pktOrigin p == 3
    | 20 => on fun p => st < 5 && p.walk.accepted
    | 21 => on fun p => st < 5 && p.walk.excepted
    | 22 => on fun p => bit (cw p 3) 5
    | 23 => 4 ≤ st && st ≤ 6 && on fun p => bit (cw p 0) 15
    | 24 => 5 ≤ st && st ≤ 6 && on fun p => p.cut
    | 25 => st == 3 && t.pol == 1
    | 26 => st == 3 && t.pol == 2
    | 27 => on fun p => bit (cw p 3) 7
    | 28 => on fun p => bit (cw p 3) 6
    | 29 => 5 ≤ st && st ≤ 6 && on fun p => bit (cw p 7) 19
    | 30 => t.poison
    | 31 => t.committed
    | 63 => true
    | _ => false

/-! ## Parts of a word -/

/-- ALU, with its destination and flags (R72, Table 4.6); the result drives OUT unless DEST is NONE. -/
def aluPart (s : State) (d c : Nat) (w : Mw) : Option W32 × State :=
  match trickAt s d c with
  | none => (none, s)
  | some t =>
    let a := if 1 ≤ aluReads w.aOp then source s t w w.aA else (0, s)
    let b := if 2 ≤ aluReads w.aOp then source a.2 t w w.aB else (0, a.2)
    let r := alu w.aOp a.1 b.1 ⟨none, t.z, t.n, t.c, t.v, none⟩
    let t := { t with z := r.z, n := r.n, c := r.c, v := r.v,
                      tf := match r.setf with
                        | some (i, on) => BitVec.ofNat 8 (setBits t.tf.toNat i i (b2n on))
                        | none => t.tf }
    match r.res with
    | none => (none, setTrick b.2 d c t)
    | some v =>
      (if w.aD = 7 then none else some v, setTrick b.2 d c (if w.aD < 6 then { t with g := setNth t.g w.aD v } else t))

/-- First byte, room and bytes before it of a key buffer: K0 to K2 in the key half, 3 in the carried half (R73, R138). -/
def kbufSize (k : Nat) : Nat := if k = 3 then 48 else 40

/-- Append bytes to a key buffer: what passes its end is discarded and sets TF7 (R73). -/
def kbufAppend (s : State) (d c k : Nat) (bs : List Byte) : State :=
  match trickAt s d c with
  | none => s
  | some t =>
    let pos := nth t.pos k 0
    let take := bs.take (kbufSize k - pos)
    let s := modPkt s t.pkt fun p =>
      if k = 3 then { p with cv := patch p.cv (0x70 + pos) take } else { p with kv := patch p.kv (128 + 40 * k + pos) take }
    let own := if k = 3 then kfilter t.undo fun i _ => i < 0x70 + pos || 0x70 + pos + take.length ≤ i else t.undo
    let t := { t with pos := setNth t.pos k (pos + take.length), undo := own }
    setTrick s d c (if take.length < bs.length then setTf t 7 else t)

/-- KEY (Table 4.7): bytes past the extraction area are free values. -/
def keyPart (s : State) (d c : Nat) (w : Mw) : State :=
  match trickAt s d c with
  | none => s
  | some t =>
    let n := 2 * (w.kLen + 1)
    match w.kOp with
    | 1 => setTrick s d c { t with pos := setNth t.pos w.kBuf 0 }
    | 2 =>
      let o := 8 * w.kSlot + w.kOff
      let area := match getPkt s t.pkt with | some p => (slice p.kv 0 128) | none => List.replicate 128 0
      let have_ := (area.drop o).take n
      if have_.length = n then kbufAppend s d c w.kBuf have_
      else
        let f := drawN 4 s
        kbufAppend f.2 d c w.kBuf (have_ ++ (toBytes 32 f.1).take (n - have_.length))
    | 3 =>
      let v := match getPkt s t.pkt with | some p => p.ranges / 2 ^ (32 * (16 * w.kSlot + w.kOff)) % 2 ^ 32 | none => 0
      kbufAppend s d c w.kBuf ((toBytes 4 v).take (min n 4))
    | _ => s

/-- EXTRACT, or the cursor move of PARSE and KEY (R73, R139). -/
def extractPart (s : State) (d c : Nat) (w : Mw) : State :=
  match trickAt s d c with
  | none => s
  | some t =>
    if w.exLen = 0 then
      if stageOf d ≤ 1 && w.exOff != 0 then
        setTrick s d c { t with cursor := if w.exOff < 0x40 then w.exOff - 1 else w.exOff }
      else s
    else match getPkt s t.pkt with
      | none => s
      | some p =>
        match cursorHead p t.cursor with
        | none =>
          setTrick (setPkt s t.pkt { p with kv := patch p.kv (8 * w.exSlot) (List.replicate w.exLen 0) }) d c (setTf t 6)
        | some h =>
          let a := h + w.exOff
          let lim := min (p.walk.base + 128) p.frame.length
          let bs := winBytes p a w.exLen
          let s := setPkt s t.pkt { p with kv := patch p.kv (8 * w.exSlot) (bs.take (128 - 8 * w.exSlot)) }
          if a + w.exLen ≤ lim then s else setTrick s d c (setTf t 6)

/-- The key of a lookup (R146). -/
def lookupKey (t : Trick) (p : Pkt) (k : Nat) : List Byte :=
  if k = 3 then slice p.cv 0x70 40
  else slice ((slice p.kv (128 + 40 * k) 40).take (nth t.pos k 0)) 0 40

/-- A queue choice still out takes its result; a result that cannot come is no valid entry, so it chooses nothing (R76). -/
def fillChoice (v : W32) (x : Logged) : Logged := match x.eff with
  | .qsel none q pt => { x with eff := .qsel (some v) q pt }
  | _ => x

/-- Start a lookup in a result slot: one pending there is cancelled, its result discarded (R74). -/
def startLook (s : State) (d c slot : Nat) (l : Look) : State :=
  modTrick s d c fun t => { t with pend := kset t.pend slot l, ls := setNth t.ls slot 0,
                                   log := if slot = 3 then t.log.map (fillChoice 0) else t.log }

/-- MATCH (R74): WAIT suspends the trick until this lookup returns; without ISSUE there is none to wait for, and WAIT
does nothing, whatever a result slot still awaits (assumption 53, DESIGN CHOICE). -/
def matchPart (s : State) (d c : Nat) (w : Mw) : State :=
  if !w.mIss then s
  else match trickAt s d c with
    | none => s
    | some t =>
      let kind := if w.mTab < 0x80 then 0 else 1
      let key := match trickPkt s t with | some p => lookupKey t p w.kBuf | none => List.replicate 40 0
      let s := startLook (usePort s d kind) d c w.mSlot ⟨kind, w.mTab, key, s.clk, none⟩
      if w.mWait then modTrick s d c fun t => { t with mwait := some w.mSlot } else s

/-- LS3 of a pin (R168, Table 7.3). -/
def pinWord (s : State) (ws : List W32) : W64 :=
  let c := coreW s
  let w6 := wordOf ws (c + 6)
  shufWord (bits w6 31 26) (bits w6 25 14) (wordOf ws (c + 7)) true

/-- The shuffle lookup or pin of QSEL, issued at once to LS3 (R76, R167, R168). -/
def shufflePart (s : State) (d c : Nat) (w : Mw) : State :=
  match trickAt s d c with
  | none => s
  | some t =>
    if startsShuffle s t w then
      let key := match trickPkt s t with | some p => p.cv | none => []
      startLook (usePort s d 2) d c 3 ⟨2, w.qTab, key, s.clk, none⟩
    else if w.qSrc = 2 then
      match (flowSeen t s.clk).image with
      | some ws => startLook s d c 3 ⟨3, w.qTab, [], s.clk, some (pinWord s ws, false)⟩
      | none => s
    else s

/-- EDIT (Table 4.9): list entries, PVSET32, and the MAC's operations. -/
def editPart (s : State) (d c : Nat) (w : Mw) : State :=
  if w.eOp = 0 then s
  else match trickAt s d c with
    | none => s
    | some t =>
      let v := if editReads w.eOp then source s t w w.eSrc else (BitVec.ofNat 32 w.eSrc, s)
      let s := v.2
      if w.eOp = 14 then logEffect s d c (.pvset w.eOff v.1)
      else
        let full := !(8 ≤ w.eOp && w.eOp ≤ 10) && (match getPkt s t.pkt with | some p => 16 ≤ editCount t p | none => false)
        if full then ucodeErr s d c 2 else logEffect s d c (.edit w.eOp w.eOff v.1)

/-- META (Table 4.10): an all-zero field is no effect (Table 4.23). -/
def metaPart (s : State) (d c : Nat) (w : Mw) (out : W32) : State :=
  if w.target = 0 && !w.vsrc && w.imm = 0 then s
  else
    let v := if w.vsrc then out else BitVec.ofNat 32 w.imm
    let v := if w.target = 15 && !w.vsrc then BitVec.ofNat 32 (w.imm / 16 * 256 + w.imm % 16) else v
    let s := if w.target = 3 then modTrick s d c fun t => { t with metaQ := some v } else s
    logEffect s d c (.metaW w.target v)

/-- The queue choice of QSEL (R76). -/
def choicePart (s : State) (d c : Nat) (w : Mw) : State :=
  match w.qSrc with
  | 0 => s
  | 3 => (match (trickAt s d c).bind (·.metaQ) with
    | some v => logEffect s d c (.queue v)
    | none => s)
  | _ => logEffect s d c (.qsel none true true)

/-- MISC (R77), each bit in Table 4.3's order. -/
def miscPart (s : State) (d c : Nat) (b : Trick) (w : Mw) : State :=
  let put := fun (s : State) (on : Bool) (e : Effect) =>
    if on && (match trickAt s d c with | some t => t.age == b.age && t.attempt == b.attempt | none => false)
    then logEffect s d c e else s
  put (put (put (put (put (put s w.sample .sample) (w.bumpK != 0) (.bump w.bumpK)) w.launch .launch)
    w.recirc .recirc) w.drop .drop) w.exc .exc

/-- The word uses OUT. -/
def usesOut (w : Mw) : Bool := [2, 3, 5, 6, 7, 8, 14, 24, 25].contains w.fOp || w.vsrc

/-! ## One microword -/

/-- The trick that issued the word is still in its context, in the same attempt. -/
def alive (s : State) (d c : Nat) (b : Trick) : Bool := match trickAt s d c with
  | some t => t.age == b.age && t.attempt == b.attempt && !t.ended
  | none => false

/-- Go on only while the trick stands. -/
def while_ (s : State) (d c : Nat) (b : Trick) (f : State → State) : State := if alive s d c b then f s else s

/-- Clks from the issue of a flow operation to its result: a lookup's as Table 4.23 shows it, less the set's read where
SNAP has prefetched it (R33); FSM_STEP and TASK_POST 4 (R200, R228). For READ, LOOKUP_INDEX and SCAN the spec gives none:
as a lookup's (assumption 43, DESIGN CHOICE). -/
def flowLat (s : State) (t : Trick) (op : Nat) : Option Nat :=
  if [1, 2, 3].contains op then
    some (if isSnap s && kgetD s.setWrote (setOf s (trickKeyOf s t)) 0 ≤ t.entryClk then 9 else 13)
  else if [4, 14, 15].contains op then some 13
  else if op = 8 || op = 24 then some 4 else none

/-- The result of a flow operation is on its way: until it returns the routine sees what it saw before, and FLOW.WAIT
suspends the trick (R71, R75). A trick that waits for a suit or a fetch is suspended by that. -/
def flowReturns (s : State) (d c : Nat) (w : Mw) (before : Trick) : State :=
  match flowLat s before w.fOp, trickAt s d c with
  | some n, some t =>
    if t.wait.isSome then s
    else
      let b := flowSeen before s.clk
      setTrick s d c { t with flowDue := some ⟨s.clk + n, w.fWait, b.image, b.flowNew, b.fsmRes, b.tf⟩ }
  | _, _ => s

/-- The word's successor, and the routine's end once nothing holds the trick (R71, R78). COND is sampled at the end of
the word, after its COMMIT: COND 31 sees it (assumption 53, DESIGN CHOICE: the spec puts both there in no order). -/
def nextPart (s : State) (d c : Nat) (w : Mw) (before : Trick) : State :=
  match trickAt s d c with
  | none => s
  | some t =>
    -- the results of an operation that suspends the trick have not returned when COND is sampled
    let seen := if t.wait.isSome then
        { t with image := before.image, flowNew := before.flowNew, recAt := before.recAt, tf := before.tf }
      else flowSeen t (s.clk + w.cyc)
    let a := if condTrue s d seen w.cond then w.alt else w.next
    let s := setTrick s d c { t with addr := a }
    if a = endAddr && t.wait.isNone && t.mwait.isNone then endRoutine s d c else s

/-- A microword of the trick takes one of the dealer's issue slots for its clks (R69), counted where R18 caps them. -/
def takeSlot (s : State) (d : Nat) (t : Trick) (cyc : Nat) : State :=
  { s with slots := kset s.slots d ((kgetD s.slots d []).filter (s.clk < ·) ++ [s.clk + cyc]),
           takes := if recircPass s d t then
               kset s.takes (d % 32) ((kgetD s.takes (d % 32) []).filter (s.clk < · + 64) ++ (List.range cyc).map (s.clk + ·))
             else s.takes }

/-- Issue the next microword of a ready trick: ALU, KEY, EXTRACT, lookups, FLOW, EDIT, META, QSEL, MISC, COMMIT, COND. -/
def runWord (s : State) (d c : Nat) : State :=
  match trickAt s d c with
  | none => s
  | some t =>
    let w := trickWord s d t
    let s := setTrick s d c { t with readyAt := s.clk + w.cyc, spent := t.spent ++ [(t.addr, w.cls, w.cyc, w.bubble)] }
    let s := perfBusy (takeSlot s d t w.cyc) d w.cyc
    let a := aluPart s d c w
    let o := match a.1 with
      | some v => (v, a.2)
      | none => if usesOut w then let f := draw a.2; (BitVec.ofNat 32 f.1, f.2) else ((0 : W32), a.2)
    let out := o.1
    let s := extractPart (keyPart o.2 d c w) d c w
    let s := shufflePart (matchPart s d c w) d c w
    match trickAt s d c with
    | none => s
    | some before =>
      let s := flowOp s d c w.fOp w.fField w.fSuit out
      let s := while_ s d c t fun s => flowReturns s d c w before
      let s := while_ s d c t fun s => editPart s d c w
      let s := while_ s d c t fun s => metaPart s d c w out
      let s := while_ s d c t fun s => choicePart s d c w
      let s := while_ s d c t fun s => miscPart s d c t w
      let s := while_ s d c t fun s => if w.commit then commitTrick s d c else s
      while_ s d c t fun s => nextPart s d c w before

/-! ## MICROWORD_ISSUE -/

/-- Complete the woken tricks of a dealer, end those that waited in their last word, and those whose slot lacks their
routine (R81, R90). -/
def wakeDealer (s : State) (d : Nat) : State :=
  (tricksOf s d).foldl (fun s e =>
    let c := e.1 % 256
    let s := match e.2.wait with | some (.woken ..) => wakeOp s d c | _ => s
    match trickAt s d c with
    | some t =>
      if t.addr = lostAddr then killTrick (logUcode s d t.routine 4) d c
      else if t.addr = endAddr && !t.ended && t.wait.isNone && t.mwait.isNone then endRoutine s d c else s
    | none => s) s

/-- Issue order (R69): preemption arrivals, restarts after preemption, then age, then context. -/
def goesFirst (a b : Nat × Trick) : Bool :=
  if a.2.rank != b.2.rank then a.2.rank < b.2.rank
  else if a.2.age != b.2.age then a.2.age < b.2.age else a.1 ≤ b.1

def bestTrick (cs : List (Nat × Trick)) : Option (Nat × Trick) :=
  cs.foldl (fun b x => match b with | none => some x | some y => if goesFirst y x then some y else some x) none

/-- Issue up to `n` microwords, each of a different ready trick. -/
def issueWords (n : Nat) (s : State) (d : Nat) : State :=
  match n with
  | 0 => s
  | k + 1 => match bestTrick ((tricksOf s d).filter fun e => mayIssue s d e.2) with
    | none => s
    | some (key, _) => issueWords k (runWord s d (key % 256)) d

/-- Issue slots of a dealer that microwords occupy in this clk (R69). -/
def slotsBusy (s : State) (d : Nat) : Nat := ((kgetD s.slots d []).filter (s.clk < ·)).length

/-- One clock of a dealer (R69). -/
def issueOp (s : State) (d : Nat) : State :=
  let s := wakeDealer s d
  issueWords (8 - slotsBusy s d) s d

/-! ## Lookup results -/

/-- The hand a lookup searches for (Table 7.9). -/
def handOf (d : Nat) : Nat := d % 32

/-- The pending lookup of a trick's slot. -/
def pendAt (s : State) (d c slot : Nat) : Option Look := (trickAt s d c).bind fun t => kget t.pend slot

def setResult (s : State) (d c slot : Nat) (l : Look) (v : W64) : State :=
  modTrick s d c fun t => { t with pend := kset t.pend slot { l with result := some (v, false) } }

/-- The compare clk of a match lookup (R147, R150). -/
def matchLookupOp (s : State) (d c slot : Nat) : State :=
  match trickAt s d c, pendAt s d c slot with
  | some t, some l =>
    if l.kind = 0 && l.result.isNone then
      let r := matchSearch s l.table t.slot l.key (handOf d)
      setResult r.2 d c slot l r.1
    else s
  | _, _ => s

/-- A pool lookup reads its entries (R160, R161). -/
def poolLookupOp (s : State) (d c slot : Nat) : State :=
  match pendAt s d c slot with
  | some l => if l.kind = 1 && l.result.isNone then setResult s d c slot l (poolLookupRes s l.table l.key) else s
  | none => s

/-- A shuffle lookup hashes the carried half and reads its entry (R166, R167). -/
def shuffleLookupOp (s : State) (d c : Nat) : State :=
  match trickAt s d c, pendAt s d c 3 with
  | some t, some l =>
    if l.kind = 2 && l.result.isNone then
      let r := shufRec s t.slot l.table
      let i := shufIndex r l.key
      setResult s d c 3 l (shufWord l.table i (shufEntry r i) false)
    else s
  | _, _ => s

/-- Clear a slot wait. -/
def unslot (t : Trick) (slot : Nat) : Trick := if t.mwait == some slot then { t with mwait := none } else t

/-- A trick takes the value of a result slot; in slot 3 it is what a queue choice still out waits for (R76). -/
def takeResult (t : Trick) (slot : Nat) (v : W64) : Trick :=
  let t := unslot { t with ls := setNth t.ls slot v, pend := kdel t.pend slot } slot
  if slot = 3 then { t with log := t.log.map (fillChoice (v.truncate 32)) } else t

/-- After COMMIT a queue choice that has its result is applied (R76). -/
def lateChoice (s : State) (d c : Nat) : State :=
  match trickAt s d c with
  | none => s
  | some t =>
    if t.committed then
      (t.log.filter fun x => !isOut x.eff).foldl (fun s x => applyEffect s d c x.eff) (setTrick s d c { t with log := choiceOut t.log })
    else s

/-- A lookup's result returns (R148, R87): poison before COMMIT is a fault, after it the value stands with POISON. -/
def lookupResultOp (s : State) (d c slot : Nat) (poison : Bool) : State :=
  match trickAt s d c, pendAt s d c slot with
  | some t, some l => match l.result with
    | none => s
    | some (v, _) =>
      if poison && !t.committed then faultTrick s d c 0 none
      else
        let n := v.toNat
        let t1 := { takeResult t slot v with poison := t.poison || poison }
        let t2 := if 2 ≤ l.kind then { t1 with shuf := some (bits n 61 56, bits n 55 44, v.truncate 32) } else t1
        lateChoice (setTrick s d c t2) d c
  | _, _ => s

/-- The flow result that a trick waits for in its context is outstanding too long: past COMMIT the lookup returns
without a record (R87). -/
def fetchTimeout (s : State) (d c : Nat) : State :=
  match trickAt s d c with
  | some t => (match t.wait with
    | some (.fetch ..) =>
      if t.committed then lookupEmpty (setTrick s d c { t with wait := none }) d c false else faultTrick s d c 1 none
    | _ => s)
  | none => s

/-- A lookup that is outstanding too long (R87); slot 4 stands for a non-parking FLOW result. -/
def lookupTimeoutOp (s : State) (d c slot : Nat) : State :=
  if slot = 4 then fetchTimeout s d c
  else match trickAt s d c, pendAt s d c slot with
    | some t, some _ =>
      if t.committed then lateChoice (setTrick s d c (takeResult t slot 0)) d c else faultTrick s d c 1 none
    | _, _ => s

/-! ## STAGE_HANDOFF -/

/-- The range vector of a packet's slot over its extraction area (R157). -/
def rangeVec (s : State) (e : Bool) (kv : List Byte) : Nat :=
  ((List.range ((hotBody s e tyRanges).length / 8)).map fun k => b2n (rangeBit s e kv k) * 2 ^ k).sum

/-- The egress queue's class is held at its pot (R267). -/
def sendHeld (s : State) (q : Nat) : Bool := bit (kgetD s.holds (q / 2048) 0).toNat (qTc s q)

/-- A frame whose last byte enters the transmit queue frees its cells and is in flight no more (R254, R17). -/
def frameOut (s : State) (q id : Nat) (e : Bool) : State := flightDown (potRemove s q id) e

/-- TIME.SILENT_DROP (R317). -/
def aSilentDrop : Nat := 0x1C0000000108

/-- FINISH hands a frame to the MAC (R265). A word of it that carries a poison tag counts in PARITY_ERR, and the frame is
stomped (R262, R264). -/
def toMac (s : State) (k : Nat) (p : Pkt) : State :=
  let port := queuePort s p.queue
  let id := eId k
  let f := potFrame s p.queue id
  let whole := match f with | some w => w.whole | none => true
  let bytes := match f with | some w => w.bytes | none => p.frame
  let x := portOf s port
  let poison := match f with | some w => w.poison | none => false
  let s := if poison then bump s (aParityErr (p.queue / 2048)) else s
  let stomp := (match f with | some w => w.bad | none => false) || poison || p.macEd.any (·.1 == 10)
  let s := setPort s port { x with txq := x.txq ++ [{ pkt := { p with frame := bytes }, edits := p.macEd, stomp := stomp, frame := id }] }
  let s := raiseHigh { s with pkts := kdel s.pkts k } (32 + port / 8) (octetTx s (port / 8))
  if whole then frameOut s p.queue id (pktEpoch p) else s

/-- A suit whose packets parked: the later ones of the suit leave FLOW as their own service completes (R16). -/
def suitParked (s : State) (m : Nat) : Bool :=
  let x := suitAt s m
  !x.chain.isEmpty || (match x.holder with
    | some .chain => true
    | some (.trick d c) => (match trickAt s d c with | some t => t.reentry | none => false)
    | _ => false)

/-- The oldest ended trick of a dealer whose packet goes on. In FLOW a packet that re-entered from the stock leaves when
its own service completes; it keeps no other packet back, and neither does one that waits behind it in its suit, nor
one that missed and waits for its fetch (R16). -/
def handoffTrick (s : State) (d : Nat) : Option (Nat × Trick) :=
  let ts := tricksOf s d
  let ended := ts.filter fun e => e.2.settled == some 0
  let first := fun (cs : List (Nat × Trick)) =>
    cs.foldl (fun (b : Option (Nat × Trick)) x => match b with
      | none => some x
      | some y => if y.2.age < x.2.age then some y else some x) none
  if stageOf d = 2 then
    match first (ended.filter fun e => e.2.reentry) with
    | some x => some x
    | none => match first ended with
      | some x =>
        if ts.any fun e => !e.2.reentry && e.2.age < x.2.age && e.2.settled.isNone && !(match e.2.wait with
            | some (.suit m ..) => suitParked s m | some (.fetch ..) => true | _ => false) then none else some x
      | none => none
  else
    match first ended with
    | some x => if ts.any fun e => e.2.age < x.2.age then none else some x
    | none => none

/-- FLOW takes a packet from KEY: it is not folded, and its free contexts are more than the re-entry tasks that are
ready (R236, Table 17.6). -/
def flowTakes (s : State) (hand : Nat) : Bool :=
  s.rst.foldFlow == .open_ &&
    decide ((tricksOf s (64 + hand)).length +
      (s.tasks.filter fun e => isReentry e.2 && e.2.state == .ready && e.2.hand == hand).length < 256)

/-- The next stage does not accept the packet of dealer `d`'s next finished trick (Tables 4.18, 17.6; R265 to R267). -/
def nextRefuses (s : State) (d : Nat) (t : Trick) : Bool :=
  match getPkt s t.pkt with
  | none => false
  | some p => match stageOf d with
    | 4 => sendHeld s (pktQueue p)
    | 6 => !(!s.time.valid && p.macEd.any (·.1 == 9)) && !txRoom s (queuePort s p.queue)
    | 1 => !flowTakes s (d % 32) || !hasRoom s (d + 32)
    | 7 => false
    | _ => !hasRoom s (d + 32)

/-- Hand the packet of a dealer's next finished trick to the next stage, if that accepts it (R68, R16). -/
def handoffOp (s : State) (d : Nat) : State :=
  if stageOf d = 7 then s
  else
    let s := if stageOf d = 0 then (tricksOf s d).foldl (fun s e => settleTrick s d (e.1 % 256)) s else s
    match handoffTrick s d with
    | none => s
    | some (key, t) =>
      let c := key % 256
      match getPkt s t.pkt with
      | none => freeCtx s d c
      | some p =>
        match stageOf d with
        | 4 =>
          let q := pktQueue p
          if sendHeld s q then s
          else
            let b := applyEdits s p p.frame
            let item : SendItem := ⟨t.pkt, q / 2048, false, b.1⟩
            freeCtx { b.2 with sendq := kset b.2.sendq (d % 32) (kgetD b.2.sendq (d % 32) [] ++ [item]) } d c
        | 6 =>
          if !s.time.valid && p.macEd.any (·.1 == 9) then freeCtx (dropAt (bump s aSilentDrop) 6 t.pkt) d c
          else if txRoom s (queuePort s p.queue) then freeCtx (toMac s t.pkt p) d c else s
        | 0 =>
          let s1 := setPkt s t.pkt { p with ranges := rangeVec s t.slot p.kv, rangeClk := some s.clk }
          (match enterStage s1 (d + 32) t.pkt with
          | some s2 => freeCtx s2 d c
          | none => s)
        | 1 => if !flowTakes s (d % 32) then s else (match enterStage s (d + 32) t.pkt with
          | some s2 => freeCtx s2 d c
          | none => s)
        | _ => (match enterStage s (d + 32) t.pkt with
          | some s2 => freeCtx s2 d c
          | none => s)

end Sys2Proof.Machine
end

