-- ==== Sys2Proof/Machine/Intake.lean ====
section
/-!
DEFINITION. PARSE takes frames from recirculation, the rate buffer and INJECT (06_intake_parser.md R120, R121;
01_architecture.md R18; 02_contracts_and_floors.md R32).
Log entries: 33.
-/
namespace Sys2Proof.Machine

open Sys2Proof

/-- Walk units of a hand (R121). -/
def walkUnits : Nat := 32

/-- WALK_HW follows every rise of WALKS (Table 6.11). -/
def raiseWalks (s : State) (h : Nat) : State :=
  let w := walksBusy s h
  if kgetD s.walkHw h 0 < w then { s with walkHw := kset s.walkHw h w } else s

/-- A recirculated packet may be taken: its pass still has a slot-clock (R18). -/
def recircOk (s : State) (h : Nat) : Bool := recircFits s h 1

/-- LOW_STAKES admits at most 1,120 packets of a hand in any 1,024 clk (R32). -/
def rateOk (s : State) (h : Nat) : Bool :=
  s.deck.contract != ctLowStakes || ((kgetD s.admits h []).filter fun c => s.clk < c + 1024).length < 1120

def noteAdmit (s : State) (h : Nat) : State :=
  if s.deck.contract = ctLowStakes then
    { s with admits := kset s.admits h (((kgetD s.admits h []).filter fun c => s.clk < c + 1024) ++ [s.clk]) }
  else s

/-- The packet of a frame at its first take (R14, R62, R137): tagged with CURRENT, its walk in state 0 at byte 0. -/
def takenPkt (s : State) (f : RbFrame) : Pkt :=
  let late := f.fin == .lateGood || f.fin == .lateBad
  let bad := f.fin == .bad || f.fin == .lateBad || f.fin == .aborted
  let rx := if f.inject.isSome then nowNs s else f.rxTime
  { cv := newCv f.port f.cls (curSlot s) (if f.inject.isSome then 2 else 0) (bad && !late)
      (if late then 0 else f.frame.length) rx,
    kv := List.replicate 256 0, frame := f.frame, port := f.port, ended := !late, bad := bad, walk := Walk.first,
    entries := f.entries, cls := f.cls, rxTime := rx, queue := 0, enqTime := 0, cut := false, ranges := 0, rangeClk := none,
    macEd := [] }

/-- PARSE of hand `h` takes the next recirculated packet. -/
def takeRecirc (s : State) (h k : Nat) (rest : List Nat) : State :=
  let s1 := { s with recircq := kput s.recircq h (if rest.isEmpty then none else some rest) }
  match enterStage (modPkt s1 k nextPass) h k with
  | some t => raiseWalks t h
  | none => s

/-- PARSE of hand `h` takes the oldest eligible frame into a vector of its store; which one is the part's choice
(assumption 3, DESIGN CHOICE). -/
def takeFrame (s : State) (h : Nat) (f : RbFrame) (rest : List RbFrame) : State :=
  match chooseFree s s.pkts (256 * h) (256 * h + 256) with
  | none => s
  | some (k, s1) =>
    let s2 := { s1 with rb := kput s1.rb h (if rest.isEmpty then none else some rest) }
    let s3 := setPkt (flightUp (noteAdmit s2 h) (curSlot s)) k (takenPkt s f)
    match enterStage s3 h k with
    | some t => raiseWalks t h
    | none => s

/-- PARSE of hand `h` takes one frame, when a context and a walk unit are free: a recirculated one, unless R18 holds it
back, else the next eligible frame (R120). -/
def parseTakeOp (s : State) (h : Nat) : State :=
  if !hasDeck s || held s || !hasRoom s h || walkUnits ≤ walksBusy s h then s
  else match (if recircOk s h then kgetD s.recircq h [] else []) with
    | k :: rest => takeRecirc s h k rest
    | [] =>
      match kgetD s.rb h [] with
      | f :: rest => if foldOfHand s h == .open_ && rateOk s h then takeFrame s h f rest else s
      | [] => s

/-- The packet is still in PARSE: a trick of the hand's PARSE dealer holds it. -/
def inParse (s : State) (h k : Nat) : Bool := (tricksOf s h).any fun e => e.2.pkt == k

/-- One state of the walk of vector `k`. Where its trick has passed COMMIT in this clk, what its effects changed prevails
over the walker's write (R125). -/
def walkStateOp (s : State) (k : Nat) : State :=
  let u := walkOp s k
  match kfind s.tricks (fun _ t => t.pkt == k && t.committed && t.commitClk == s.clk), getPkt s k with
  | some (_, t), some p => modPkt u k fun q =>
      { q with cv := t.undo.foldl (fun cv e =>
          setNth cv e.1 (BitVec.ofNat 8 (((nth cv e.1 0).toNat &&& (255 - e.2.1)) ||| (cvF p e.1 1 &&& e.2.1)))) q.cv }
  | _, _ => u

/-- A flow operation given by itself acts on a trick of FLOW or SERVICE that runs and waits for nothing; the service
operations act in SERVICE alone (Table 4.8). -/
def flowRow (s : State) (d c op field mode : Nat) (out : W32) : State :=
  match trickAt s d c with
  | none => s
  | some t =>
    if !t.ended && t.wait.isNone && t.mwait.isNone && (stageOf d == 7 || (stageOf d == 2 && op ≤ 13)) then flowOp s d c op field mode out
    else s

end Sys2Proof.Machine
end

