-- ==== Sys2Proof/Machine/Tasks.lean ====
section
/-!
DEFINITION. The task scheduler at work: delay lists, dispatch, urgent arrivals, scan tasks, stock re-entry, and the end
of HBM fetches (10_task_scheduler_and_suits.md R226 to R240; 08_flow_records.md R181, R184, R185, R189, R192 to R194;
04_dealers_and_microcode.md R63, R91, R93).
Log entries: 13, 49, 51.
-/
namespace Sys2Proof.Machine

open Sys2Proof

/-! ## Delay lists (R231 to R233) -/

def aListCfg (k : Nat) : Nat := 0x140000000100 + 8 * k

/-- The reset value of TICK (Table 10.8). -/
def tickReset (k : Nat) : Nat := match k with
  | 14 => 10 | 15 => 10000
  | _ => if k < 4 then 1 else if k < 8 then 10 else if k < 12 then 100 else 1000

/-- TICK in force, in units of 100 ns. -/
def listTick (s : State) (k : Nat) : Nat := regRaw s (aListCfg k) (tickReset k)

/-- The TICK last written, which a read returns. -/
def listTickWritten (s : State) (k : Nat) : Nat := kgetD s.tickNew k (listTick s k)

/-- A write of LIST_CFG: TICK from 1 to 10,000 takes effect at the list's next boundary; lists 14 and 15 are fixed (R233). -/
def wrListCfg (s : State) (k v : Nat) : State :=
  if 14 ≤ k then s
  else { s with tickNew := kset s.tickNew k (max 1 (min 10000 (bits v 13 0))) }

/-- The boundary `e` has passed at NOW, both modulo 2^21. -/
def tickPassed (now e : Nat) : Bool := (now + 2 ^ 21 - e % 2 ^ 21) % 2 ^ 21 < 2 ^ 20

/-- Tasks standing on list `k`. -/
def listLength (s : State) (k : Nat) : Nat :=
  (s.tasks.filter fun e => e.2.state == .delayed && e.2.list == k).length

/-- Task `a` stands before `b` on a delay list: by expiry boundary, then by commit (R232). -/
def expBefore (a b : Task) : Bool :=
  if a.expiry == b.expiry then a.order < b.order else tickPassed b.expiry a.expiry

/-- Insert an expired task in the order of its list. -/
def expInsert (x : Nat × Task) (ys : List (Nat × Task)) : List (Nat × Task) :=
  match ys with
  | [] => [x]
  | y :: r =>
    if expBefore x.2 y.2 then x :: y :: r else y :: expInsert x r

/-- Move one expired task off its list (R231, R232); `late`: more than one tick after its boundary. -/
def expire (s : State) (h : Nat) (late : Bool) : State :=
  match kget s.tasks h with
  | none => s
  | some t =>
    let s := settle { s with tasks := kset s.tasks h { t with delayed := false } } h t.list
    let s := if late then bump s aTskLate else s
    traceTask s 4 false h (some t.body) 0x1FF 0xFF

/-- A tick boundary of list `k`: a written TICK takes effect, and expired tasks move in order, one a clk behind those the
list still has to move; one that moves more than a tick after its boundary is late (R232, R233). -/
def listTickOp (s : State) (k : Nat) : State :=
  let now := (listNow s k + 1) % 2 ^ 21
  let s := { s with listNow := kset s.listNow k now }
  let s := match kget s.tickNew k with
    | some t => setReg { s with tickNew := kdel s.tickNew k } (aListCfg k) t
    | none => s
  let due := (s.tasks.filter fun e => e.2.state == .delayed && e.2.list == k && tickPassed now e.2.expiry).foldl
    (fun ys x => expInsert x ys) []
  let clks := 160 * listTick s k
  let from_ := max s.clk (kgetD s.moverAt k 0)
  let s := { s with moverAt := kset s.moverAt k (from_ + due.length) }
  (enum 0 due).foldl (fun s x => expire s x.2.1 (s.clk + clks < from_ + x.1)) s

/-! ## Urgent arrivals (R91) -/

/-- The youngest trick of a dealer that a time-triggered arrival may displace (R91). -/
def youngest (s : State) (d : Nat) : Option (Nat × Trick) :=
  ((tricksOf s d).filter fun e => !e.2.committed && !e.2.preempted).foldl
    (fun b x => match b with
      | none => some x
      | some y => if y.2.age < x.2.age then some x else some y) none

/-- Abandon a trick in favour of an arrival: it restarts when a context frees, ahead of new arrivals (R91). -/
def displace (s : State) (d key : Nat) (t : Trick) : State :=
  let c := key % 256
  let s := perfEvent (perfAttempt s d c t false) d 12 1 (perfOf s t c t.addr 0 0 0)
  let s := bump (freeReserved s t) (aDlr d 3)
  let s := match t.wait with | some (.suit ..) => forgetWaiter s (.trick d c) | _ => s
  let s := renameHolder s (.trick d c) (.trick d (dispCtx t.age))
  let s := match (if stageOf d = 7 then kget s.pkts t.pkt else none) with
    | some p => { s with pkts := kset (kdel s.pkts t.pkt) (dispKey t.age) p }
    | none => s
  { s with tricks := kdel s.tricks key,
           displaced := kset s.displaced d (kgetD s.displaced d [] ++ [{ t with preempted := true, wait := none, mwait := none }]) }

/-- A context for a time-triggered arrival at dealer `d`: the lowest free one, else that of a displaced trick; and the
arrival's rank: 0 where it preempts (R69, R91). -/
def arrivalCtx (s : State) (d : Nat) : Option (Nat × Nat × State) :=
  match kfree s.tricks (256 * d) (256 * d + 256) with
  | some k => some (k % 256, 2, s)
  | none =>
    if preemptEn s then (youngest s d).map fun x => (x.1 % 256, 0, displace s d x.1 x.2) else none

/-! ## Dispatch (R234 to R237) -/

/-- The working packet of a service trick: the spec does not say what its carried half holds before the routine
writes it, so every byte is a free value (assumption 3, DESIGN CHOICE). -/
def servicePkt (s : State) : Pkt × State :=
  let r := drawN 32 s
  ({ cv := toBytes 256 r.1, kv := [], frame := [], port := 0, ended := true, bad := false, walk := Walk.idle,
     entries := 0, cls := 0, rxTime := 0, queue := 0, enqTime := 0, cut := false, ranges := 0, rangeClk := none, macEd := [] },
   r.2)

/-- What a task of the part that has no routine of its own does when it is dispatched: an insert task runs FLOW INSERT
for its line, and its context returns to TAKE (R185, assumption 13, DESIGN CHOICE). -/
def runInsert (s : State) (d c h n : Nat) (t : Task) : State :=
  let s := traceTask (bump s aDispatched) 1 false h (some t.body) d c
  let s := landLine s n
  let s := match (kget s.tasks h).bind (·.body.suit) with
    | some x => if (suitAt s x).holder == some (.task h) then releaseSuit s x else s
    | none => s
  traceTask (endTask s h) 2 false h (some t.body) d c

/-- Run task `h` in context `c` of dealer `d` (R93, R234, R237): its routine under the current slot; one that the slot
does not have ends the task as failed. -/
def runTask (s : State) (d c h : Nat) (t : Task) (rank : Nat) : State :=
  let held := match t.body.suit with
    | some x => if (suitAt s x).holder == some (.task h) then some x else none
    | none => none
  match routineOff s (curSlot s) 7 t.body.routine with
  | none =>
    let s := match held with | some x => releaseSuit s x | none => s
    freeCtx (endTask (bump (bump s aNoRoutine) aTskFailed) h) d c
  | some _ =>
    let s := bump { s with tasks := kset s.tasks h { t with state := .running } } aDispatched
    let s := renameHolder s (.task h) (.trick d c)
    let s := traceTask s 1 false h (some t.body) d c
    let p := servicePkt s
    let s := setPkt p.2 (svcKey d c) p.1
    startTrick s d c { Trick.blank with pkt := svcKey d c, task := some h, slot := curSlot s, routine := t.body.routine,
                                        suit := held, rank := rank }

/-- A READY task whose suit is held leaves its list as SUIT_WAIT; a free suit is taken (R235). -/
def takeTaskSuit (s : State) (h : Nat) (t : Task) : Bool × State :=
  match t.state, t.body.suit with
  | .ready, some x =>
    if (suitAt s x).holder.isSome || !(suitAt s x).chain.isEmpty then
      (false, waitSuit { s with tasks := kset s.tasks h { t with state := .suitWait } } x (.task h))
    else (true, takeSuit s x (.task h))
  | _, _ => (true, s)

/-! ## Scan tasks (R194, R230) -/

/-- Chunks of 4,096 records. -/
def scanChunks (s : State) : Nat := nRecords s / 4096

/-- Post the next chunk's scan task on list 14; the fraction of the spacing is carried (R230). Its routine is a free
value (assumption 13, DESIGN CHOICE). -/
def scanPostOp (s : State) : State :=
  if !hasDeck s then s
  else
    let n := scanChunks s
    let num := fgF s 10 2 * 10 ^ 6 + s.scanRem
    let d := draw s
    let b : TaskBody := { args := [0, 0, 0, 0], suit := none, succ := none, routine := d.1 % 256, list := 14, urgent := false,
                          level := fgF s 12 1 % 8, delay := num / n, origin := 2 }
    match partPost d.2 b (.scan (4096 * s.scanAt) (4096 * s.scanAt + 4096)) with
    | some (_, s) => { s with scanAt := (s.scanAt + 1) % n, scanRem := num % n }
    | none => holdPost s .scan

/-! ## Fetches that end (R181, R184, R189, R192, R327) -/

/-- Another RECORD line of the set carries the digest under a different index (R181). -/
def clashLine (s : State) (n i : Nat) : Option Nat :=
  findUp 16 (16 * (n / 16)) fun m =>
    m != n && (lineOf s m).lstate == .record && (lineOf s m).digest == (lineOf s n).digest &&
      ((lineOf s m).provisional || (lineOf s m).index != i)

/-- Whoever waits for the fetch of a line: the head of the chain is made ready, a trick in its context goes on (R189). -/
def wakeFetch (s : State) (n m : Nat) : State :=
  let x := suitAt s m
  match x.holder with
  | some .chain => (match x.chain with
    | k :: _ => decCount s (reentryHandle k)
    | [] => s)
  | some (.trick d c) => modTrick s d c fun t =>
      { t with wait := match t.wait with | some (.fetch l op out) => if l = n then some (.woken op out) else t.wait | w => w }
  | _ => s

/-- A fetch that received poison (R327): the line is freed, and whoever waits for it restarts or, past COMMIT, goes on
without a record and with POISON. -/
def fetchBad (s : State) (n : Nat) : State :=
  let m := lineSuit n
  let x := suitAt s m
  let s := freeLine s n
  match x.holder with
  | some .chain => (match x.chain with
    | k :: _ => decCount { s with stock := kadj s.stock k fun p => { p with poison := true } } (reentryHandle k)
    | [] => s)
  | some (.trick d c) => (match trickAt s d c with
    | some t =>
      if t.committed then
        lookupEmpty (setTrick s d c { t with poison := true, wait := none }) d c false
      else faultTrick s d c 0 none
    | none => s)
  | _ => s

/-- TOUCH effects summed under SNAP, applied in one update (R192). -/
def touchSum (s : State) (ws : List W32) (x : Nat × Nat × Nat) : List W32 :=
  if x.1 = 0 then ws else touchWords s ws x.1 x.2.1 x.2.2

/-- A fetch that found record `i` fills its line (R181). -/
def fetchFound (s : State) (n i : Nat) : State :=
  let l := lineOf s n
  let ws := hbmRecord s i
  let new := touchSum s ws l.touches
  let s := setLine s n { l with lstate := .record, index := i, dirty := l.touches.1 != 0, words := lineHot s new, key := [],
                                hint := none, gathered := none, touches := (0, 0, 0) }
  wakeFetch (moveSuit s (lineSuit n) i) n i

/-- A fetch that found nothing: the line is ABSENT with its hint, or free at once where nobody waits for it; under
SNAP the first create image is placed (R184, R192). -/
def fetchAbsent (s : State) (n : Nat) (hint : Option Nat) : State :=
  let l := lineOf s n
  match l.gathered with
  | some ws =>
    let u := setLine s n { l with lstate := .absent, hint := hint, gathered := none, touches := (0, 0, 0) }
    let v := if createOk u n then placeCreate u n (touchSum s ws l.touches) else bump u aInsertLimited
    if (lineOf v n).lstate == .absent && suitFree v (lineSuit n) then freeLine v n
    else wakeFetch v n (suitOf n (lineOf v n))
  | none =>
    if suitFree s (lineSuit n) then freeLine s n
    else wakeFetch (setLine s n { l with lstate := .absent, hint := hint, touches := (0, 0, 0) }) n (lineSuit n)

/-- What the tag reads of a line found is spent. Poison that the command brings is an uncorrectable error of the first
of them (R327). -/
def tagsRead (s : State) (n : Nat) (poison : Bool) : State :=
  let s := if poison then
      (match kgetD s.hbmc.tags n [] with
        | r :: _ => hbmUncorr (poisonSector s (r.addr / 32)) (bankOf s (n / 16)) (r.addr / 32)
        | [] => s)
    else s
  { s with hbmc := { s.hbmc with tags := kdel s.hbmc.tags n } }

/-- The fetch of a PENDING line ends, once its bank queues have let its reads out (R184, R324). A fill waits while the suit of the record it found, or of a line that
clashes with it, is held. -/
def fetchEnd (s : State) (n : Nat) (poison : Bool) : State :=
  let l := lineOf s n
  if l.lstate != .pending || s.hbmc.reqs.any (fun e => e.2.any (·.line == n)) then s
  else
    let r := fetchFind (lineTag s n) s l.key
    let is := fetchVisits (lineTag s n) s l.key r
    let bad := poison || (kgetD s.hbmc.tags n []).any (·.bad) || recordPoison s is
    let src := bankOf s (n / 16)
    match r with
    | .absent hint =>
      let s := tagsRead (recordReads s src is) n poison
      if bad then fetchBad s n else fetchAbsent s n hint
    | .found i =>
      let clash := clashLine s n i
      let held := match clash with | some m => !suitFree s (suitOf m (lineOf s m)) | none => false
      if !bad && (held || (suitAt s i).holder.isSome) then s
      else
        let s := tagsRead (recordReads s src is) n poison
        if bad then fetchBad s n
        else
          let s := match clash with
            | some m => bump (freeLine (writeBack s m) m) aDigestClash
            | none => s
          fetchFound s n i

/-! ## Re-entry (R189, R236) -/

/-- The ready re-entry task a hand takes next: by level, then first come. -/
def reentryNext (s : State) (hand : Nat) : Option (Nat × Task) :=
  let rs := s.tasks.filter fun e => isReentry e.2 && e.2.state == .ready && e.2.hand == hand
  (List.range 8).findSome? fun l => oldestTask (rs.filter fun e => e.2.level == l)

/-- The packet of a stock slot re-enters FLOW of its hand and takes its suit (R189, R236). -/
def reentryOp (s : State) (hand : Nat) : State :=
  let d := 64 + hand
  match reentryNext s hand with
  | none => s
  | some (h, t) => match kget s.stock t.stock with
    | none => s
    | some p =>
      match chooseFree s s.tricks (256 * d) (256 * d + 256) with
      | none => s
      | some (key, s1) => match chooseFree s1 s1.pkts (256 * hand) (256 * hand + 256) with
        | none => s
        | some (k, s2) =>
          let c := key % 256
          let x := suitAt s2 p.suit
          let s3 := { setPkt s2 k p.pkt with
            stock := kdel s2.stock t.stock, tasks := kdel s2.tasks h,
            suits := kset s2.suits p.suit { x with holder := some (.trick d c), chain := x.chain.filter (· != t.stock) } }
          let s4 := startTrick s3 d c
            { Trick.blank with pkt := k, slot := pktEpoch p.pkt, routine := p.routine, restarts := p.restarts,
                               suit := some p.suit, reentry := true }
          let s5 := modTrick s4 d c fun u => { u with entryClk := s4.clk - p.wd }
          if p.poison then faultTrick s5 d c 0 none else s5

/-! ## The start window (R193) -/

/-- A new 16 µs window of a bank begins; what the last one did not use lapses. -/
def windowRoll (s : State) (bank : Nat) : State :=
  if hasDeck s && inWindow s && bank < banks s then
    let w := kgetD s.windows bank (0, 0)
    { s with windows := kset s.windows bank (w.1 + 1, 0) }
  else s

end Sys2Proof.Machine
end

