-- ==== Sys2Proof/Machine/TimeCfg.lean ====
section
/-!
DEFINITION. The GATES bodies as the blocks read them, and gate windows (13_time_and_launch.md R311 to R314).
-/
namespace Sys2Proof.Machine

open Sys2Proof

/-! ## Gate lists (R311, R314) -/

/-- Offset of a list's record in the GATES body of a slot. -/
def findGate (fuel : Nat) (b : List Byte) (off list : Nat) : Option Nat :=
  match fuel with
  | 0 => none
  | k + 1 =>
    if b.length ≤ off then none
    else if fld b off 2 = list then some off
    else findGate k b (off + 32 + 8 * fld b (off + 4) 2) list

def gateOff (s : State) (e : Bool) (list : Nat) : Option Nat :=
  let b := hotBody s e tyGates
  findGate b.length b 0 list

/-- A field of a gate record at offset `o`. -/
def gaF (s : State) (e : Bool) (o off n : Nat) : Nat := hotF s e tyGates (o + off) n

/-- Every list of a slot's GATES body. -/
def gateLists (fuel : Nat) (b : List Byte) (off : Nat) : List Nat :=
  match fuel with
  | 0 => []
  | k + 1 => if b.length ≤ off then [] else fld b off 2 :: gateLists k b (off + 32 + 8 * fld b (off + 4) 2)

/-- A list of a slot. -/
def gateList (s : State) (e : Bool) (list : Nat) : Option GateList :=
  (gateOff s e list).map fun o =>
    { port := gaF s e o 2 1, base := gaF s e o 8 6 * 10 ^ 9 + gaF s e o 14 4, cycle := gaF s e o 18 4,
      entries := (List.range (gaF s e o 4 2)).map fun i => (gaF s e o (32 + 8 * i) 1, gaF s e o (36 + 8 * i) 4) }

/-- Where entry `i` of a cycle ends, from the cycle's start; the last entry holds until the cycle ends (R311). -/
def entryEnd (g : GateList) (i : Nat) : Nat :=
  if g.entries.length ≤ i + 1 then g.cycle else ((g.entries.take (i + 1)).map (·.2)).sum

/-- When the gate of class `c` next closes, from entry `i` of the cycle that starts at `t` on; none when it never does. -/
def closesFrom (fuel : Nat) (g : GateList) (t i c : Nat) : Option Nat :=
  match fuel with
  | 0 => none
  | k + 1 =>
    let last := g.entries.length ≤ i + 1
    let j := if last then 0 else i + 1
    if bit (nth g.entries j (0, 0)).1 c then closesFrom k g (if last then t + g.cycle else t) j c
    else some (t + entryEnd g i)

/-- The run of a port that is or is not yet running, with its list. -/
def portRun (s : State) (p : Nat) (running : Bool) : Option (GateRun × GateList) :=
  s.time.gates.findSome? fun r =>
    if r.running == running && r.what.port == p then some (r, r.what) else none

/-- When the gate of class `c` of port `p`, open now, next closes (R279); a list that is to start takes over at its
start. -/
def gateCloses (s : State) (p c : Nat) : Option Nat :=
  let t1 := match portRun s p true with
    | some (r, g) => closesFrom (g.entries.length + 1) g (r.start + r.cycle * g.cycle) r.entry c
    | none => none
  match portRun s p false with
  | none => t1
  | some (r, g) =>
    let before := match t1 with | some t => decide (t < r.start) | none => false
    if before then t1
    else if bit (nth g.entries 0 (0, 0)).1 c then closesFrom (g.entries.length + 1) g r.start 0 c
    else some r.start

end Sys2Proof.Machine
end

