-- ==== Sys2Proof/Machine/Tm.lean ====
section
/-!
DEFINITION. The traffic manager's choice: eligibility, charges, deficit round robin, and the start of a frame toward TAKE
(12_traffic_manager.md R272 to R279; 04_dealers_and_microcode.md R91; 11_fabric_and_pots.md R244).
Log entries: 40.
-/
namespace Sys2Proof.Machine

open Sys2Proof

/-! ## Frames in a pot -/

/-- Words of a frame header, by their order in Table 11.1: carried-half words 0, 1, 2, 5, 6, 7, 10 and 16. -/
def hdrOrder : List Nat := [0, 1, 2, 5, 6, 7, 10, 16]
def hdrW (f : PotFrame) (i : Nat) : Nat := fld f.hdr (4 * i) 4
/-- FRAME_LEN of the header, 0 while unknown. -/
def hdrLen (f : PotFrame) : Nat := bits (hdrW f 0) 13 0
def hdrEpoch (f : PotFrame) : Bool := bit (hdrW f 0) 20
/-- LAUNCH and LAUNCH_VALID of the header. -/
def hdrLaunch (f : PotFrame) : Nat := bits (hdrW f 5) 31 24 * 2 ^ 32 + hdrW f 4
def hdrLaunchValid (f : PotFrame) : Bool := bit (hdrW f 5) 19
/-- The 40-bit RX_TS of the header. -/
def hdrRx (f : PotFrame) : Nat := bits (hdrW f 2) 31 24 * 2 ^ 32 + hdrW f 1

/-- The head frame of a queue: the first visible one that has not started. -/
def headFrame (s : State) (q : Nat) : Option PotFrame := (queueOf s q).frames.find? fun f => f.visible && !f.started

/-- ns since a frame's START segment was released. -/
def sojourn (s : State) (f : PotFrame) : Nat := (s.clk - f.relClk) * 5 / 8

/-! ## Charges (R273) -/

def GroupTurn.empty : GroupTurn := ⟨0, false, false⟩

/-- Charge `c` bytes to a queue, its group and its port: shapers and deficits. -/
def chargeAll (s : State) (q : Nat) (c : Int) : State :=
  let g := qGroup s q
  let s := chargeShaper (chargeShaper (chargeShaper s 0 q c) 1 g c) 2 (queuePort s q) c
  let x := queueOf s q
  let s := setQueue s q { x with deficit := x.deficit - c }
  { s with grpDef := kmod s.grpDef g GroupTurn.empty fun d => { d with deficit := d.deficit - c } }

/-- C of a frame that starts: L + OVERHEAD, with 256 for an unknown length. -/
def startCharge (s : State) (q : Nat) (f : PotFrame) : Int :=
  Int.ofNat (if hdrLen f = 0 then 256 else hdrLen f) + portOverhead s (queuePort s q)

/-- The balance of a charge once the length is written (R273); TX_BYTES holds what is charged (Table 12.6). -/
def balanceCharge (s : State) (q len : Nat) : State :=
  addCtr (chargeAll s q (Int.ofNat len - 256)) (aTmQCtr q 3) (Int.ofNat len - 256)

/-! ## Eligibility (Table 12.1, R279) -/

/-- The head frame fits before its gate next closes, or the queue may overrun. -/
def fitsGate (s : State) (q : Nat) (f : PotFrame) : Bool :=
  let p := queuePort s q
  if qOverrun s q then true
  else match gateCloses s p (qTc s q) with
    | none => true
    | some t =>
      let c := Int.ofNat (if hdrLen f = 0 then maxFrame s p else hdrLen f) + portOverhead s p
      decide (c * 8 ≤ (Int.ofNat t - Int.ofNat (nowNs s + 50)) * Int.ofNat (portSpeed s p))

def gateOpen (s : State) (q : Nat) : Bool := bit (portOf s (queuePort s q)).gates.toNat (qTc s q)

/-- The TC of the queue is paused by the peer (R112). -/
def qPaused (s : State) (q : Nat) : Bool := khas (portOf s (queuePort s q)).paused (qTc s q)

def queueEligible (s : State) (q : Nat) : Bool :=
  match headFrame s q with
  | none => false
  | some f => decide (f.fromClk ≤ s.clk) && !qPaused s q && shaperOk s 0 q && gateOpen s q && fitsGate s q f && !(hdrLaunchValid f && !f.launched)

/-- The queue stands held because its head frame does not fit (R279). -/
def gateHolds (s : State) (q : Nat) : Bool :=
  match headFrame s q with
  | some f => gateOpen s q && !fitsGate s q f
  | none => false

/-- Count the head frames that are first held by their gate (R279). -/
def noteGateHeld (s : State) (q : Nat) : State :=
  match headFrame s q with
  | some f =>
    if gateHolds s q && !f.gateHeld then
      bump (bump (modFrame s q f.id fun x => { x with gateHeld := true }) aGateHoldCount) (aTmQCtr q 4)
    else s
  | none => s

/-- Queues of a group of pot `p` that are eligible, in ascending order. -/
def groupQueues (s : State) (p g : Nat) : List Nat := (potQueues s p).filter fun q => qGroup s q == g && queueEligible s q

/-- Groups of a port that are eligible, in ascending order. -/
def portGroups (s : State) (p port : Nat) : List Nat :=
  let qs := (potQueues s p).filter fun q => queuePort s q == port && queueEligible s q
  (sortNat (qs.map (qGroup s))).filter fun g => shaperOk s 1 g

/-- The port may send: eligible but for its groups. -/
def portReady (s : State) (port : Nat) : Bool :=
  portSends s port && shaperOk s 2 port && portTx s port < 4 * portLanes s port

/-! ## Deficit round robin (R274) -/

/-- The member after `cur` in ascending index, modulo the members. -/
def afterMember (ms : List Nat) (cur : Option Nat) : Nat :=
  match cur with
  | none => ms.headD 0
  | some c => (ms.find? fun m => c < m).getD (ms.headD 0)

/-- The queue of a group and priority that has the turn. -/
def turnQueue (s : State) (p g pr : Nat) : Option Nat :=
  (potQueues s p).find? fun q => (queueOf s q).turn && qGroup s q == g && qPrio s q == pr

/-- Give the turn to queue `q`: what is left positive is forfeited, a negative remainder is carried. -/
def giveQueue (s : State) (old : Option Nat) (q : Nat) : State :=
  let s := match old with
    | some o => setQueue s o { queueOf s o with turn := false }
    | none => s
  let x := queueOf s q
  setQueue s q { x with turn := true, lost := false, deficit := min x.deficit 0 + Int.ofNat (qQuantum s q * 64) }

/-- The queue served next among the eligible `ms` of one priority. -/
def pickQueue (fuel : Nat) (s : State) (p g pr : Nat) (ms : List Nat) : Option (Nat × State) :=
  match fuel with
  | 0 => none
  | k + 1 =>
    let cur := turnQueue s p g pr
    match cur with
    | some q => if ms.contains q && !(queueOf s q).lost && 0 < (queueOf s q).deficit then some (q, s)
        else pickQueue k (giveQueue s cur (afterMember ms cur)) p g pr ms
    | none => pickQueue k (giveQueue s none (afterMember ms none)) p g pr ms

def grpDefOf (s : State) (g : Nat) : GroupTurn := kgetD s.grpDef g GroupTurn.empty

/-- The group of a port that has the turn. -/
def turnGroup (s : State) (port : Nat) : Option Nat :=
  (s.grpDef.find? fun e => e.2.turn && gPort s e.1 == port).map (·.1)

def giveGroup (s : State) (old : Option Nat) (g : Nat) : State :=
  let d := match old with
    | some o => kset s.grpDef o { grpDefOf s o with turn := false }
    | none => s.grpDef
  let x := kgetD d g GroupTurn.empty
  { s with grpDef := kset d g ⟨min x.deficit 0 + Int.ofNat (gQuantum s g * 64), true, false⟩ }

/-- The group served next among the eligible `ms` of a port. -/
def pickGroup (fuel : Nat) (s : State) (port : Nat) (ms : List Nat) : Option (Nat × State) :=
  match fuel with
  | 0 => none
  | k + 1 =>
    let cur := turnGroup s port
    match cur with
    | some g => if ms.contains g && !(grpDefOf s g).lost && 0 < (grpDefOf s g).deficit then some (g, s)
        else pickGroup k (giveGroup s cur (afterMember ms cur)) port ms
    | none => pickGroup k (giveGroup s none (afterMember ms none)) port ms

/-- Turns that `n` members with these deficits can take until one may send: each turn earns at least 64 B. -/
def turnFuel (n : Nat) (ds : List Int) : Nat := ((ds.map fun d => (-d).toNat).foldl max 0 / 64 + 2) * (n + 1)

/-- A queue or group that has the turn and is not eligible loses it: the turn passes to the next eligible member, its
own next one included (R274). -/
def loseTurns (s : State) (p : Nat) : State :=
  let s := (potQueues s p).foldl (fun s q =>
    if (queueOf s q).turn && !queueEligible s q then setQueue s q { queueOf s q with lost := true } else s) s
  { s with grpDef := kmap s.grpDef fun g x =>
      if x.turn && gPort s g / 8 = p && !(portGroups s p (gPort s g)).contains g then { x with lost := true } else x }

/-! ## The start of a frame -/

/-- The packet that TAKE receives: the eight header words at their positions, every other byte 0 (R244). -/
def takePkt (f : PotFrame) (q : Nat) : Pkt :=
  let cv := (enum 0 hdrOrder).foldl (fun b x => patch b (4 * x.2) (slice f.hdr (4 * x.1) 4)) (List.replicate 256 0)
  { cv := cv, kv := [], frame := f.bytes, port := bits (hdrW f 0) 31 24, ended := f.whole, bad := f.bad, walk := Walk.idle,
    entries := 0, cls := bits (hdrW f 0) 23 21, rxTime := resolve40 (hdrRx f) f.enqTime, queue := q, enqTime := f.enqTime,
    cut := f.cut, ranges := 0, rangeClk := none, macEd := f.macEd }

/-- A frame that a gate held or a launch time released is a time-triggered arrival (R91). -/
def timeTriggered (f : PotFrame) : Bool := f.gateHeld || hdrLaunchValid f

/-- Hand a frame to TAKE of its pot; none where no context can be had. -/
def enterTake (s : State) (q : Nat) (f : PotFrame) : Option State :=
  let d := 160 + q / 2048
  let k := eKey f.id
  let go := fun (s : State) (c rank : Nat) =>
    startTrick (setPkt s k (takePkt f q)) d c
      { Trick.blank with pkt := k, slot := hdrEpoch f, routine := bits (hdrW f 6) 23 16, rank := rank }
  if timeTriggered f then (arrivalCtx s d).map fun x => go x.2.2 x.1 x.2.1
  else (chooseFree s s.tricks (256 * d) (256 * d + 256)).map fun x => go x.2 (x.1 % 256) 2

/-- Start the head frame of a queue: charge it, count it, and hand it to TAKE (R272, R273, R286). -/
def startFrame (s : State) (q : Nat) : Option State :=
  match headFrame s q with
  | none => none
  | some f =>
    let c := startCharge s q f
    let s1 := modFrame s q f.id fun x => { x with started := true }
    let s2 := bumpBy (bump (chargeAll s1 q c) (aTmQCtr q 2)) (aTmQCtr q 3) c.toNat
    let x := queueOf s2 q
    let s3 := setQueue s2 q { x with sample := { x.sample with frames := x.sample.frames + 1,
                                                               maxSojourn := max x.sample.maxSojourn (sojourn s f) } }
    enterTake s3 q f

/-- The priorities among eligible queues: the highest, 0 first. -/
def bestPrio (s : State) (qs : List Nat) : Nat := (qs.map (qPrio s)).foldl min 7

/-- Select and start one frame of port `port` in pot `p`. -/
def selectPort (s : State) (p port : Nat) : Option State :=
  let gs := portGroups s p port
  if gs.isEmpty then none
  else match pickGroup (turnFuel gs.length (gs.map fun g => (grpDefOf s g).deficit)) s port gs with
    | none => none
    | some (g, s1) =>
      let qs := groupQueues s1 p g
      let pr := bestPrio s1 qs
      let ms := qs.filter fun q => qPrio s1 q == pr
      match pickQueue (turnFuel ms.length (ms.map fun q => (queueOf s1 q).deficit)) s1 p g pr ms with
      | none => none
      | some (q, s2) => startFrame s2 q

/-- One selection of a pot: round robin among its eligible ports (R275). -/
def selectOne (s : State) (p : Nat) : State :=
  let s := loseTurns s p
  let last := kgetD s.potTurn p 7
  match (List.range 8).findSome? (fun i =>
      let port := 8 * p + (last + 1 + i) % 8
      if portReady s port then (selectPort s p port).map fun t => (port % 8, t) else none) with
  | some (i, t) => { t with potTurn := kset t.potTurn p i }
  | none => s

/-- One clk of a pot: at most two selections (R272, R275). -/
def tmSelectOp (s : State) (p : Nat) : State :=
  if !hasDeck s then s
  else
    let s := (potQueues s p).foldl noteGateHeld s
    loseTurns (selectOne (selectOne s p) p) p

end Sys2Proof.Machine
end

