-- ==== Sys2Proof/Machine/Fabric.lean ====
section
/-!
DEFINITION. The fabric and the pots: cutting frames into cells, staging, the plane match, resequencing, admission,
cut-through, rewinds and lost cells (11_fabric_and_pots.md R243 to R257, R263; 01_architecture.md R19).
Log entries: 3, 34, 45.
-/
namespace Sys2Proof.Machine

open Sys2Proof

/-! ## Cutting (R243 to R246) -/

/-- The frame header of Table 11.1, with FRAME_LEN `len`. -/
def frameHdr (p : Pkt) (len : Nat) : List Byte :=
  hdrOrder.flatMap fun w => toBytes 4 (if w = 0 then setBits (cw p 0) 13 0 len else cw p w)

/-- A cell that must close: 256 B, or four segments, or one that has closed already (R246). -/
def cellFull (c : Cell) : Bool := 256 ≤ c.payload.length || 4 ≤ c.segs.length || c.closed

def cutRoom (s : State) (h : Nat) : Bool := (kgetD s.cutq h []).length < 32

/-- A closed cell joins the cut queue. -/
def closeOpen (s : State) (h p : Nat) : State :=
  match kget s.opens (32 * h + p) with
  | none => s
  | some c => { s with opens := kdel s.opens (32 * h + p), cutq := kset s.cutq h (kgetD s.cutq h [] ++ [c]) }

/-- A full open cell of a hand joins the cut queue once a place is free. -/
def settleOpen (s : State) (h : Nat) : State :=
  match kfind s.opens fun k c => k / 32 == h && cellFull c with
  | some (k, _) => if cutRoom s h then closeOpen s h (k % 32) else s
  | none => s

/-- SEND is stalled: a closed cell finds no place (R246). -/
def cutStalled (s : State) (h : Nat) : Bool := !cutRoom s h && s.opens.any fun e => e.1 / 32 == h && cellFull e.2

/-- Append stream bytes to a cell: a new segment at a START or in an empty cell, else the last one grows. -/
def addSeg (c : Cell) (start last bad epoch : Bool) (bytes : List Byte) : Cell :=
  let stop := c.payload.length + bytes.length
  let c' := { c with payload := c.payload ++ bytes }
  match start || c.segs.isEmpty, c.segs.getLast? with
  | false, some g => { c' with segs := c.segs.dropLast ++ [{ g with stop := stop, last := last, bad := bad }] }
  | _, _ => { c' with segs := c.segs ++ [⟨stop, start, last, bad, start && epoch⟩] }

/-- The open cell of an item's pot closes before the item goes on: it is full, or the item's START does not fit (R246). -/
def mustClose (s : State) (h : Nat) (it : SendItem) : Bool :=
  match kget s.opens (32 * h + it.pot) with
  | some c => cellFull c || (!it.started && 256 < c.payload.length + 32)
  | none => false

/-- A cell that closes and finds the cut queue full stands closed, and SEND is stalled (R246). -/
def stallCell (s : State) (h : Nat) (it : SendItem) : State :=
  if mustClose s h it && !cutRoom s h then { s with opens := kadj s.opens (32 * h + it.pot) fun c => { c with closed := true } }
  else s

/-- Append the next piece of a frame to the open cell of its pot; none when nothing more can be cut now. The Bool says
that the frame's last byte is cut. While its last byte has not arrived, one byte is kept back. -/
def cutPiece (s : State) (h : Nat) (it : SendItem) (p : Pkt) : Option (State × SendItem × Bool) :=
  let key := 32 * h + it.pot
  let must := mustClose s h it
  if must && !cutRoom s h then none
  else
    let s := if must then closeOpen s h it.pot else s
    let fresh : Cell := ⟨h, it.pot, 0, [], [], s.order, false⟩
    let s := if khas s.opens key then s else { s with order := s.order + 1 }
    let c := kgetD s.opens key fresh
    let n := it.stream.length
    let hdr := if it.started then [] else frameHdr p (if p.ended then n else 0)
    let k := min (256 - c.payload.length - hdr.length) (if p.ended then n else n - 1)
    let last := p.ended && k == n
    if it.started && k = 0 && !last then none
    else
      let c := addSeg c (!it.started) last (last && p.bad) (pktEpoch p) (hdr ++ it.stream.take k)
      some ({ s with opens := kset s.opens key c }, { it with started := true, stream := it.stream.drop k }, last)

/-- Cut pieces of one frame until its last byte or a stall; a frame still arriving gives one piece. -/
def cutGo (fuel : Nat) (s : State) (h : Nat) (it : SendItem) (p : Pkt) : State × SendItem × Bool :=
  match fuel with
  | 0 => (s, it, false)
  | k + 1 => match cutPiece s h it p with
    | none => (stallCell s h it, it, false)
    | some (t, it', last) =>
      let t := settleOpen t h
      if last then (t, it', true) else if p.ended then cutGo k t h it' p else (t, it', false)

/-- The frame that SEND cuts next: the first whose pot has no earlier frame half cut, and that no hold keeps from
starting (R243, R267). -/
def sendNext (s : State) (items busy : List SendItem) : Option SendItem :=
  match items with
  | [] => none
  | it :: r =>
    match kget s.pkts it.vec with
    | none => sendNext s r busy
    | some p =>
      let blocked := busy.any (·.pot == it.pot) || (!it.started && sendHeld s (pktQueue p))
      let waits := it.started && !p.ended && it.stream.length ≤ 1
      if !blocked && !waits then some it else sendNext s r (it :: busy)

/-- CELL_CUT: SEND cuts a frame of hand `h`, and releases its rate-buffer space with its last cell (R14, R246). -/
def cellCutOp (s : State) (h : Nat) : State :=
  let s := settleOpen s h
  let items := kgetD s.sendq h []
  if cutStalled s h then s
  else match sendNext s items [] with
    | none => s
    | some it => match kget s.pkts it.vec with
      | none => s
      | some p =>
        let r := cutGo (it.stream.length + 2) s h it p
        if r.2.2 then
          let rest := items.erase it
          let s := { r.1 with sendq := kput r.1.sendq h (if rest.isEmpty then none else some rest), pkts := kdel r.1.pkts it.vec }
          if p.entries = 0 then s else freeOcc s p.port p.cls p.entries
        else { r.1 with sendq := kset r.1.sendq h (items.map fun x => if x.vec = it.vec then r.2.1 else x) }

/-! ## Staging (R247) -/

def stagedAt (s : State) (h pl : Nat) : List Cell := kgetD s.staged (4 * h + pl) []
def pairOf (s : State) (h p : Nat) : Pair := kgetD s.pairs (32 * h + p) ⟨0, 64⟩

/-- The plane port with the most free slots, the lowest on a tie; none when all are full. -/
def bestPlane (s : State) (h : Nat) : Option Nat :=
  let b := (List.range 4).foldl (fun b pl => if (stagedAt s h pl).length < (stagedAt s h b).length then pl else b) 0
  if (stagedAt s h b).length < 4 then some b else none

/-- A cell enters staging with the next SEQ of its pair, and takes one credit. -/
def stageCell (s : State) (h pl : Nat) (c : Cell) : State :=
  let x := pairOf s h c.dst
  { s with staged := kset s.staged (4 * h + pl) (stagedAt s h pl ++ [{ c with seq := x.seq }]),
           pairs := kset s.pairs (32 * h + c.dst) ⟨(x.seq + 1) % 65536, x.credits - 1⟩ }

/-- The oldest non-empty open cell of a hand whose pair holds a credit. -/
def oldestOpen (s : State) (h : Nat) : Option (Nat × Cell) :=
  (s.opens.filter fun e => e.1 / 32 == h && !e.2.payload.isEmpty && 0 < (pairOf s h (e.1 % 32)).credits).foldl
    (fun b x => match b with | none => some x | some y => if x.2.age < y.2.age then some x else some y) none

/-- Fill one staging slot. -/
def fillOne (s : State) (h : Nat) : Option State :=
  (bestPlane s h).bind fun pl =>
    let q := kgetD s.cutq h []
    match q.find? fun c => 0 < (pairOf s h c.dst).credits with
    | some c =>
      let rest := q.erase c
      some (settleOpen (stageCell { s with cutq := kput s.cutq h (if rest.isEmpty then none else some rest) } h pl c) h)
    | none => (oldestOpen s h).map fun x => stageCell { s with opens := kdel s.opens x.1 } h pl x.2

/-- STAGING_FILL: every free slot that a cell can take, in one clk. -/
def stagingFillGo (n : Nat) (s : State) (h : Nat) : State :=
  match n with
  | 0 => s
  | k + 1 => match fillOne s h with
    | some t => stagingFillGo k t h
    | none => s

def stagingFillOp (s : State) (h : Nat) : State := stagingFillGo 16 s h

/-! ## The plane match (R248, R249) -/

/-- Counters of a plane: MATCHED, LATE_MATCH, IDLE_REQ, HDR_CORR, HDR_UNCORR (Table 11.16). -/
def aFab (plane k : Nat) : Nat := 0x180000000100 + plane * 0x40 + 8 * k

/-- Hand `h` requests pot `p` of a plane. -/
def requests (s : State) (pl h p : Nat) : Bool := (stagedAt s h pl).any fun c => c.dst == p

/-- Grants of one iteration, pot and hand. -/
def grants (s : State) (pl : Nat) (ms : List (Nat × Nat)) : List (Nat × Nat) :=
  (List.range 32).filterMap fun p =>
    if ms.any (·.2 == p) then none
    else (findUp 32 (kgetD s.grantp (32 * pl + p) 0) fun i => requests s pl (i % 32) p && !ms.any (·.1 == i % 32)).map
      fun i => (p, i % 32)

/-- Accepts of one iteration, hand and pot. -/
def accepts (s : State) (pl : Nat) (gs : List (Nat × Nat)) : List (Nat × Nat) :=
  (List.range 32).filterMap fun h =>
    (findUp 32 (kgetD s.acceptp (32 * pl + h) 0) fun i => gs.contains (i % 32, h)).map fun i => (h, i % 32)

/-- Pointers move past the pairs accepted in the first iteration. -/
def movePtrs (s : State) (pl : Nat) (ms : List (Nat × Nat)) : State :=
  ms.foldl (fun s m => { s with grantp := kset s.grantp (32 * pl + m.2) ((m.1 + 1) % 32),
                                acceptp := kset s.acceptp (32 * pl + m.1) ((m.2 + 1) % 32) }) s

/-- A cell is lost: the frames that start in it are in flight no more (R17). -/
def cellLost (s : State) (c : Cell) : State :=
  (c.segs.filter (·.start)).foldl (fun s g => flightDown s g.epoch) s

/-- A matched hand sends its oldest staged cell for the pot; its header may be in error (R249). -/
def sendCell (s : State) (pl : Nat) (faults : List HdrFault) (m : Nat × Nat) : State :=
  let q := stagedAt s m.1 pl
  match q.find? (·.dst == m.2) with
  | none => s
  | some c =>
    let rest := q.erase c
    let s := { s with staged := kput s.staged (4 * m.1 + pl) (if rest.isEmpty then none else some rest) }
    let cross := fun (s : State) => { s with crossing := kset s.crossing (32 * m.2 + m.1) (kgetD s.crossing (32 * m.2 + m.1) [] ++ [c]) }
    match faults.find? (·.hand == m.1) with
    | some f => if f.uncorrectable then cellLost (bump s (aFab pl 4)) c else cross (bump s (aFab pl 3))
    | none => cross s

/-- PLANE_MATCH: one cell time of a plane. -/
def planeMatchOp (s : State) (pl : Nat) (faults : List HdrFault) : State :=
  let m1 := accepts s pl (grants s pl [])
  let s1 := movePtrs s pl m1
  let m2 := accepts s1 pl (grants s1 pl m1)
  let m3 := accepts s1 pl (grants s1 pl (m1 ++ m2))
  let ms := m1 ++ m2 ++ m3
  let idle := (List.range 32).filter fun p => !ms.any (·.2 == p) && (List.range 32).any fun h => requests s pl h p
  let s2 := bumpBy s1 (aFab pl 0) ms.length
  let s3 := bumpBy s2 (aFab pl 1) (m2 ++ m3).length
  let s4 := bumpBy s3 (aFab pl 2) idle.length
  ms.foldl (fun s m => sendCell s pl faults m) s4

/-! ## Frames in a pot (R254 to R256, R263) -/

/-- The queue of a frame as its pot finds it, visible frames first in commit order. One that is enqueued on an empty queue
can be selected 8 clk later (R275). -/
def makeVisible (s : State) (q id : Nat) : State :=
  let x := queueOf s q
  match x.frames.find? (·.id == id) with
  | none => s
  | some f =>
    if f.visible then s
    else
      let rest := x.frames.filter (·.id != id)
      let early := rest.any fun g => g.visible && !g.started
      setQueue s q { x with frames := (rest.filter (·.visible))
        ++ [{ f with visible := true, fromClk := if early then s.clk else s.clk + 8 }] ++ rest.filter (!·.visible) }

/-- R19 at a frame's first cell: the contract permits it, the queue is empty, and the egress port is no faster. -/
def cutsThrough (s : State) (q ingress : Nat) : Bool :=
  mayCut s && (queueOf s q).frames.isEmpty && portSpeed s (queuePort s q) ≤ portSpeed s ingress

/-- Does the pot take the START of a frame of queue `q` (R255)? Answers the header it stores. -/
def admitPot (s : State) (q : Nat) (hdr : List Byte) : Option (List Byte) × State :=
  if !queueEnabled s q then (none, bump s (aDisabledDrop (q / 2048)))
  else if foldOfPot s (q / 2048) != .open_ then (none, bump s (aFoldRefused (q / 2048)))
  else
    let r := curveTest s q (bit (fld hdr 0 4) 20) (bits (fld hdr 12 4) 4 3) (fld hdr 28 4)
    match r.1 with
    | .drop => (none, bump r.2 (aQCtr q 0))
    | m =>
      if !cellTest r.2 q then (none, bump r.2 (aQCtr q 0))
      else if m = .mark then
        (some (patch hdr 28 (toBytes 4 (setBits (fld hdr 28 4) (ceBit s) (ceBit s) 1))), bump r.2 (aTmQCtr q 1))
      else (some hdr, r.2)

/-- Cells of a pot that frames stand in. -/
def usedCells (s : State) (p : Nat) : List Nat :=
  sortNat ((s.queues.filter fun e => e.1 / 2048 == p).flatMap fun e => e.2.frames.flatMap (·.cells))

/-- A free cell of a pot: which one is the part's choice, a free value (assumption 3, DESIGN CHOICE). -/
def freeCell (s : State) (p : Nat) : Nat × State :=
  (chooseFree s ((usedCells s p).map fun c => (c, ())) 0 (potCells s)).getD (0, s)

/-- A frame begins in queue `q` with its first cell (R254). -/
def newFrame (s : State) (q : Nat) (hdr : List Byte) (slot cut : Bool) : State :=
  let g := freeCell s (q / 2048)
  let s := g.2
  let x := queueOf s q
  let f : PotFrame :=
    { id := s.frameNo, hdr := hdr, bytes := [], slot := slot, whole := false, bad := false, visible := cut, cut := cut,
      started := false, cells := [g.1], enqTime := nowNs s, relClk := s.clk, gateHeld := false, launched := false, macEd := [],
      fromClk := if cut then s.clk + 8 else 0, poison := Config.softError s.frameNo }
  noteDepth (setQueue { s with frameNo := s.frameNo + 1 } q { x with frames := x.frames ++ [f] }) q

/-- Take cells for `need` in all; each passes the cell test (R256). The Bool says that it was refused one. -/
def growCells (fuel : Nat) (s : State) (q id need : Nat) : State × Bool :=
  match fuel with
  | 0 => (s, false)
  | k + 1 => match potFrame s q id with
    | none => (s, false)
    | some f =>
      if need ≤ f.cells.length then (s, false)
      else if cellTest s q then
        let g := freeCell s (q / 2048)
        growCells k (noteDepth (modFrame g.2 q id fun x => { x with cells := x.cells ++ [g.1] }) q) q id need
      else (s, true)

/-- The transmit-queue entry of a frame, by port. -/
def inTx (s : State) (q id : Nat) : Bool :=
  (portOf s (queuePort s q)).txq.any fun e => e.frame == id && e.pkt.queue == q

def modTx (s : State) (q id : Nat) (f : TxFrame → TxFrame) : State :=
  let p := queuePort s q
  let x := portOf s p
  setPort s p { x with txq := x.txq.map fun e => if e.frame = id && e.pkt.queue = q then f e else e }

/-- The TAKE or FINISH trick that holds a frame. -/
def eggTrick (s : State) (id : Nat) : Option (Nat × Nat) :=
  (kfind s.tricks fun k t => t.pkt == eKey id && (stageOf (k / 256) == 5 || stageOf (k / 256) == 6)).map
    fun e => (e.1 / 256, e.1 % 256)

/-- A frame turns bad (R263): stomped once its first byte stands in the transmit queue, else rewound. -/
def badEnd (s : State) (q id : Nat) : State :=
  match potFrame s q id with
  | none => s
  | some f =>
    if inTx s q id then
      frameOut (modTx s q id fun e => { e with stomp := true, pkt := { e.pkt with frame := f.bytes, ended := true } }) q id f.slot
    else
      let s := bump s (aQCtr q 3)
      match eggTrick s id with
      | some (d, c) => killTrick s d c
      | none =>
        let s := { s with pkts := kdel s.pkts (eKey id) }
        flightDown (potRemove s q id) f.slot

/-- Word 0 of a frame with its length and its FCS_BAD. -/
def endWord (w n : Nat) (bad : Bool) : Nat := setBits (setBits w 13 0 n) 15 15 (b2n bad)

/-- The frame's last segment is in: its length and FCS_BAD stand in word 0 of its header and of the trick that has taken
it, and a started frame is charged the balance (R244, R273). -/
def lastSeg (s : State) (q id : Nat) (bad : Bool) : State :=
  match potFrame s q id with
  | none => s
  | some f =>
    let n := f.bytes.length
    let s := if f.started && hdrLen f = 0 then balanceCharge s q n else s
    let s := modFrame s q id fun x => { x with hdr := patch x.hdr 0 (toBytes 4 (endWord (hdrW x 0) n bad)) }
    modPkt s (eKey id) fun p => cvSet { p with frame := f.bytes } 0 4 (endWord (cw p 0) n bad)

/-- A good frame's last byte is in: it is whole, and it becomes visible. -/
def wholeEnd (s : State) (q id : Nat) : State :=
  match potFrame s q id with
  | none => s
  | some f =>
    let s := lastSeg s q id false
    let s := modFrame s q id fun x => { x with whole := true }
    let s := makeVisible s q id
    let s := modPkt s (eKey id) fun p => { p with ended := true }
    if inTx s q id then
      frameOut (modTx s q id fun e => { e with pkt := { e.pkt with frame := f.bytes, ended := true } }) q id f.slot
    else s

/-- Bytes of an admitted frame arrive (R254, R256). -/
def frameBytes (s : State) (q id : Nat) (bs : List Byte) (last bad : Bool) : State × Recv :=
  match potFrame s q id with
  | none => (s, if last then .none else .discard)
  | some f =>
    let n := f.bytes.length + bs.length
    let need := cdiv (n + 32) 256
    let g := growCells need s q id need
    match potFrame g.1 q id with
    | none => (g.1, .discard)
    | some f' =>
      let all := f.bytes ++ bs
      if g.2 then
        let s := modFrame (bump g.1 (aQCtr q 1)) q id fun x => { x with bytes := all.take (256 * f'.cells.length - 32), bad := true }
        (badEnd s q id, if last then .none else .discard)
      else
        let s := modFrame g.1 q id fun x => { x with bytes := all, bad := bad }
        if !last then (s, .into q id)
        else if bad then (badEnd (lastSeg s q id true) q id, .none)
        else (wholeEnd s q id, .none)

/-- A START segment is released (R255, R263). -/
def startSeg (s : State) (hdr body : List Byte) (g : Seg) : State × Recv :=
  let q := fld hdr 12 2
  let slot := g.epoch
  match admitPot s q hdr with
  | (none, s) => (flightDown s slot, if g.last then .none else .discard)
  | (some h, s) =>
    let id := s.frameNo
    let cut := cutsThrough s q (fld hdr 0 1)
    let s := if cut then bump s (aQCtr q 4) else s
    frameBytes (newFrame s q h slot cut) q id body g.last g.bad

/-- One segment of a released cell. -/
def unpackSeg (x : State × Recv) (g : Seg) (bs : List Byte) : State × Recv :=
  if g.start then startSeg x.1 (slice bs 0 32) (bs.drop 32) g
  else match x.2 with
    | .into q id => frameBytes x.1 q id bs g.last g.bad
    | r => (x.1, if g.last then .none else r)

def unpackSegs (x : State × Recv) (segs : List Seg) (from_ : Nat) (payload : List Byte) : State × Recv :=
  match segs with
  | [] => x
  | g :: r => unpackSegs (unpackSeg x g ((payload.take g.stop).drop from_)) r g.stop payload

/-! ## Resequencing (R251 to R253) -/

def Reseq.empty : Reseq := ⟨0, [], .none⟩
def reseqOf (s : State) (p h : Nat) : Reseq := kgetD s.reseq (32 * p + h) Reseq.empty
def setReseq (s : State) (p h : Nat) (x : Reseq) : State := { s with reseq := kset s.reseq (32 * p + h) x }

/-- A credit of a pair returns (R251). -/
def giveCredit (s : State) (h p : Nat) : State :=
  let x := pairOf s h p
  { s with pairs := kset s.pairs (32 * h + p) ⟨x.seq, min 64 (x.credits + 1)⟩ }

/-- CELL_ARRIVE: the next cell of the pair reaches the resequencer. One that was declared lost is dropped. -/
def cellArriveOp (s : State) (p h : Nat) : State :=
  match kgetD s.crossing (32 * p + h) [] with
  | [] => s
  | c :: rest =>
    let s := { s with crossing := kput s.crossing (32 * p + h) (if rest.isEmpty then none else some rest) }
    let x := reseqOf s p h
    if wrapSub 16 c.seq x.expect < 64 then setReseq s p h { x with held := x.held ++ [c] } else cellLost s c

/-- Release the expected cell of a pair, when it is there. -/
def releaseOne (s : State) (p h : Nat) : State :=
  let x := reseqOf s p h
  match x.held.find? (·.seq == x.expect) with
  | none => s
  | some c =>
    let s := giveCredit (setReseq s p h { x with expect := (x.expect + 1) % 65536, held := x.held.erase c }) h p
    let r := unpackSegs (s, x.recv) c.segs 0 c.payload
    setReseq r.1 p h { reseqOf r.1 p h with recv := r.2 }

/-- CELL_RELEASE: up to four cells in SEQ order (R252). -/
def cellReleaseOp (s : State) (p h : Nat) : State :=
  releaseOne (releaseOne (releaseOne (releaseOne s p h) p h) p h) p h

/-- RESEQ_TIMEOUT: the expected cell is lost while a later one is held (R253). -/
def reseqTimeoutOp (s : State) (p h : Nat) : State :=
  let x := reseqOf s p h
  if x.held.isEmpty || x.held.any (·.seq == x.expect) then s
  else
    let s := bump s (aReseqLost p)
    let s := match x.recv with | .into q id => badEnd s q id | _ => s
    giveCredit (setReseq s p h { x with expect := (x.expect + 1) % 65536, recv := .discard }) h p

/-- Cells of a pair held early (Table 11.14): those past a gap. -/
def heldEarly (x : Reseq) : Nat :=
  let run := iter 64 0 (fun n _ => if x.held.any (·.seq == (x.expect + n) % 65536) then n + 1 else n) 0
  x.held.length - run

/-! ## Injected frames (R257, R354) -/

/-- The frame header of a frame injected into a queue: FRAME_LEN, EGRESS_QUEUE, ORIGIN 3, the epoch, and the TAKE and
FINISH routines, the scratch word and TS_CLASS its sender gives; every other field 0. -/
def injectHdr (e : Bool) (q len take finish cls : Nat) (scratch : Nat) : List Byte :=
  toBytes 4 (b2n e * 2 ^ 20 + 3 * 2 ^ 18 + len % 2 ^ 14) ++ toBytes 8 0 ++ toBytes 4 (q * 2 ^ 16)
  ++ toBytes 8 (cls % 16 * 2 ^ 20) ++ toBytes 4 (take * 2 ^ 16 + finish * 2 ^ 8) ++ toBytes 4 scratch

/-- Write a frame into a queue (R257): admitted under R255, whole before it is visible. The Bool says that the pot took
it. -/
def injectFrame (s : State) (q : Nat) (frame hdr : List Byte) (ed : List (Nat × Nat × W32)) : Bool × State :=
  match admitPot s q hdr with
  | (none, s) => (false, s)
  | (some h, s) =>
    let id := s.frameNo
    let need := cdiv (frame.length + 32) 256
    let slot := bit (fld hdr 0 4) 20
    let s := flightUp (newFrame s q h slot false) slot
    let g := growCells need s q id need
    if g.2 then (false, badEnd (bump g.1 (aQCtr q 1)) q id)
    else
      let s := modFrame g.1 q id fun x => { x with bytes := frame, macEd := ed }
      (true, wholeEnd s q id)

end Sys2Proof.Machine
end

