-- ==== Sys2Proof/Machine/HbmCtl.lean ====
section
/-!
DEFINITION. The HBM controller: bank queues, refresh, the scrubber and retraining (14_hbm_controller.md R324 to R331).
Log entries: 48.
-/
namespace Sys2Proof.Machine

open Sys2Proof

/-- Waiting requests of bank `b` of a pseudo-channel. -/
def bankReqs (s : State) (pc b : Nat) : List HbmReq := kgetD s.hbmc.reqs (pc * 48 + b) []

/-- A request stands in one of the 512 slots of its stack; the later ones are in the command queue and behind it (R324). -/
def inSlot (s : State) (st : Nat) (r : HbmReq) : Bool :=
  stackReqs s st ≤ 512
  || (((s.hbmc.reqs.filter fun e => e.1 / 48 / 32 == st).flatMap (·.2)).filter fun x => x.seq < r.seq).length < 512

/-- The bank served next: the first after the last one, in rotation, that has a request in a slot; one column command in
23 goes to a source other than a flow bank while one waits (R324). -/
def nextBank (s : State) (pc : Nat) : Option Nat :=
  let last := kgetD s.hbmc.lastBank pc 47
  let turn := fun (p : HbmReq → Bool) => (findUp 48 (last + 1) fun b => match bankReqs s pc (b % 48) with
    | r :: _ => inSlot s (pc / 32) r && p r
    | [] => false).map (· % 48)
  let other := turn fun r => 32 ≤ r.source
  if kgetD s.hbmc.columns pc 0 % 23 = 22 && other.isSome then other else turn fun _ => true

/-- HBM_COMMAND_ISSUE: one request of a pseudo-channel leaves its bank queue (R324); that of a stack which does not work
completes with poison (Table 17.5). -/
def hbmIssue (s : State) (pc : Nat) (err : EccFault) : State :=
  if stackHolds s (pc / 32) then s
  else match nextBank s pc with
    | none => s
    | some b => match bankReqs s pc b with
      | [] => s
      | r :: rest =>
        let h := { s.hbmc with reqs := kput s.hbmc.reqs (pc * 48 + b) (if rest.isEmpty then none else some rest),
                               lastBank := kset s.hbmc.lastBank pc b,
                               columns := kset s.hbmc.columns pc ((kgetD s.hbmc.columns pc 0 + 1) % 23) }
        let s := { s with hbmc := h }
        match err with
        | .clean => execReq s r
        | .single => bump (execReq s r) (aHbmCtr (pc / 32) 0)
        | .double =>
          let s := poisonSector s (r.addr / 32)
          if r.done then hbmUncorr s r.source (r.addr / 32) else execReq s r

/-- A stack's all-bank refresh starts in this clk: the one counter of R326 reaches 1,560 × s. With the stack's clock bad,
refresh has stopped (Table 17.5). -/
def refreshDue (s : State) (st : Nat) : Bool := match s.hbmc.epoch with
  | some e => bit s.rst.good (1 + st) && (s.clk - e) % 6240 == 1560 * st && kget s.hbmc.refAt st != some s.clk
  | none => false

/-- HBM_REFRESH: the refresh of a stack begins in its clk (R326). -/
def hbmRefreshOp (s : State) (st : Nat) : State :=
  if refreshDue s st then bump { s with hbmc := { s.hbmc with refAt := kset s.hbmc.refAt st s.clk } } (aHbmCtr st 2) else s

/-- A refresh that no command began in its clk begins all the same: none is postponed or skipped (R326). -/
def refreshes (s : State) : State := (List.range 4).foldl hbmRefreshOp s

/-- 64 B units of a stack. -/
def stackUnits : Nat := 24 * 2 ^ 24

/-- Window offset of unit `k` of a stack, in address order (R319, R328). -/
def scrubOff (s : State) (st k : Nat) : Nat :=
  let n := k / 2 ^ 24
  let b := k % 2 ^ 24 * 64
  let g := 64 * 2 ^ grainCode s n
  let u := 128 * (b / (32 * g)) + 32 * st + b % (32 * g) / g
  n * 2 ^ 32 + u * g + b % g

/-- One sector of a 64 B unit, or both, turn out bad: which is a free value (assumption 48, DESIGN CHOICE). -/
def badUnit (s : State) (k : Nat) : State :=
  let d := draw s
  match d.1 % 3 with
  | 0 => poisonSector d.2 k
  | 1 => poisonSector d.2 (k + 1)
  | _ => poisonSector (poisonSector d.2 k) (k + 1)

/-- HBM_SCRUB: the scrubber reads the next unit of a stack (R328). -/
def hbmScrubOp (s : State) (st : Nat) (err : EccFault) : State :=
  if !stackUp s st then s
  else
    let k := kgetD s.hbmc.scrub st 0
    let off := scrubOff s st k
    let s := { s with hbmc := { s.hbmc with scrub := kset s.hbmc.scrub st ((k + 1) % stackUnits) } }
    match err with
    | .clean => readPiece s 114 off 64
    | .single => bump (readPiece s 114 off 64) (aHbmCtr st 0)
    | .double => readPiece (badUnit s (off / 32)) 114 off 64

/-- A lane word's FAIL: a window narrower than 16 steps (R329). -/
def laneFails (w : Nat) : Bool := bits w 15 8 < bits w 7 0 + 16 || bits w 39 32 < bits w 31 24 + 16

/-- The centre of a passing window, a half step down (R329; assumption 48, DESIGN CHOICE). -/
def centre (left right : Nat) : Nat := (left + right) / 2

/-- A lane word as the training window shows it: the edges and the VREF code that the sweep found, the centres of the
windows, FAIL (R329, Table 14.6). -/
def laneWord (w : Nat) : Nat :=
  bits w 15 0 + centre (bits w 7 0) (bits w 15 8) * 2 ^ 16 + bits w 39 24 * 2 ^ 24
    + centre (bits w 31 24) (bits w 39 32) * 2 ^ 40 + bits w 55 48 * 2 ^ 48 + b2n (laneFails w) * 2 ^ 63

/-- Address of lane `k` (channel × 10 + lane) of a stack (Table 14.6). -/
def aTrain (st k : Nat) : Nat := 0x200010000000 + st * 0x10000 + k / 10 * 0x1000 + k % 10 * 0x40

/-- Store the lane words of a stack. -/
def putLanes (s : State) (st : Nat) (ls : List W64) : State :=
  (enum 0 ls).foldl (fun s e => setReg s (aTrain st e.1) (laneWord e.2.toNat)) s

/-- RETRAIN_DONE (R331): passing lanes take their new centres together; a failing one leaves every lane as it was. -/
def retrainDoneOp (s : State) (ls : List W64) : State :=
  match s.hbmc.retrain with
  | none => s
  | some st =>
    let bad := ls.any fun w => laneFails w.toNat
    let h := { s.hbmc with retrain := none, retrainFail := setBits s.hbmc.retrainFail st st (b2n bad) }
    let s := { s with hbmc := h }
    if bad then markSet s aHbmStatus (2 ^ (12 + st)) else putLanes s st ls

/-- HBM.STATUS. -/
def hbmStatus (s : State) : Nat :=
  s.hbmc.trained + s.hbmc.trainFail * 2 ^ 4 + (match s.hbmc.retrain with | some k => 2 ^ k | none => 0) * 2 ^ 8
  + s.hbmc.retrainFail * 2 ^ 12 + ((List.range 4).map fun k => b2n (inRefresh s k) * 2 ^ k).sum * 2 ^ 16

/-- HBM.QUEUE_STATUS of the stack that SELECT names. -/
def hbmQueueStatus (s : State) : Nat :=
  let st := regRaw s aHbmSelect 0 % 4
  let used := min 512 (stackReqs s st)
  let heads := (s.hbmc.reqs.filter fun e => e.1 / 48 / 32 == st).filterMap fun e => e.2.head?
  let oldest := (heads.map fun r => (s.clk - r.clk) * 5 / 8).foldl max 0
  used + min 512 (max used (kgetD s.hbmc.high st 0)) * 2 ^ 10 + min 2047 oldest * 2 ^ 21

/-- HBM_COMMAND_ISSUE (R324). -/
def execHbmCommandIssue (pc : Nat) (err : EccFault) (s : State) : Host.Outcome State Fault Refusal :=
  cmd (.hbmCommandIssue pc err) s fun s => hbmIssue s pc err

/-- HBM_REFRESH (R326). -/
def execHbmRefresh (stack : Nat) (s : State) : Host.Outcome State Fault Refusal :=
  cmd (.hbmRefresh stack) s fun s => hbmRefreshOp s stack

/-- HBM_SCRUB (R328). -/
def execHbmScrub (stack : Nat) (err : EccFault) (s : State) : Host.Outcome State Fault Refusal :=
  cmd (.hbmScrub stack err) s fun s => hbmScrubOp s stack err

/-- RETRAIN_DONE (R331). -/
def execRetrainDone (lanes : List W64) (s : State) : Host.Outcome State Fault Refusal :=
  cmd (.retrainDone lanes) s fun s => retrainDoneOp s lanes

end Sys2Proof.Machine
end

