-- ==== Sys2Proof/Machine/MacTx.lean ====
section
/-!
DEFINITION. The transmit MAC: the values it writes into frames, stomps and underruns, transmit stamps, and frames lost
with their link (11_fabric_and_pots.md R264, R265; 13_time_and_launch.md R300 to R303, R310; 05_ports_and_lanes.md R105).
Log entries: 16, 44, 45.
-/
namespace Sys2Proof.Machine

open Sys2Proof

/-! ## Values written at the MAC (Table 13.3) -/

/-- TIME.UTC.OFFSET. -/
def utcOff (s : State) : Int := s.time.utcOff

/-- An NTP timestamp of a time in ns (R301). -/
def ntpStamp (s : State) (ns : Nat) : Nat :=
  uns 32 (Int.ofNat (ns / 10 ^ 9) - utcOff s + 2208988800) * 2 ^ 32 + ns % 10 ^ 9 * 2 ^ 32 / 10 ^ 9

/-- A PTP timestamp of a time in ns: 48 bits of seconds, 32 of ns. -/
def ptpStamp (ns : Nat) : Nat := ns / 10 ^ 9 % 2 ^ 48 * 2 ^ 32 + ns % 10 ^ 9

/-- The state is HOLDOVER_OUT or HOST_SET, or ACQUIRING from either. -/
def timeDoubt (s : State) : Bool :=
  let bad := fun (x : TimeSt) => x == .holdoverOut || x == .hostSet
  bad s.time.state || (s.time.state == .acquiring && bad s.time.cameFrom)

/-- PENDING within the UTC day that ends in the leap (R301, R305): it begins 86,400 s before an inserted second, 86,399 s
before a deleted one. -/
def leapDay (s : State) : Nat :=
  let n := nowS s
  if s.time.pending = 1 && s.time.leapAt ≤ n + 86400 then 1
  else if s.time.pending = 2 && s.time.leapAt ≤ n + 86399 then 2
  else 0

/-- The bytes a TS_INSERT format writes, and how far before OFFSET its checksum word lies. -/
def tsBytes (s : State) (tx rx old fmt : Nat) : List Byte × Option Nat :=
  match fmt with
  | 0 => (toBytes 10 (ptpStamp tx), none)
  | 1 => (toBytes 8 (ntpStamp s tx), some 42)
  | 2 => (toBytes 10 (ptpStamp rx), none)
  | 3 => (toBytes 8 (ntpStamp s rx), some 34)
  | 4 => (toBytes 5 (tx % 2 ^ 40), none)
  | 5 => (toBytes 8 (ntpStamp s s.time.edgeRef), some 18)
  | 6 => (toBytes 1 (setBits old 7 6 (if timeDoubt s then 3 else leapDay s)), some 2)
  | _ => ([], none)

/-- The ones'-complement difference of two frames over the 16-bit words that hold [off, off + n). -/
def csumDiff (old new : List Byte) (off n : Nat) : Nat :=
  let lo := off - off % 2
  let len := (off + n + 1 - lo) / 2 * 2
  ones16 (csumWords (slice new lo len)) (0xFFFF - csumWords (slice old lo len))

/-- Write bytes into a frame at the MAC and adjust the checksum word that lies `back` bytes before (R301). -/
def macWrite (f : List Byte) (off : Nat) (bs : List Byte) (back : Option Nat) : List Byte :=
  if f.length < off + bs.length then f
  else
    let g := patch f off bs
    match back with
    | some k => if k ≤ off then patch g (off - k) (toBytes 2 (csumAdjust (fld f (off - k) 2) (csumDiff f g off bs.length))) else g
    | none => g

/-- One edit of the MAC's (Table 4.9): 8 PTP_CORR, 9 TS_INSERT. A generated one-step Sync over IPv6 names its checksum
position above the format (R306). -/
def macEdit (s : State) (port : Nat) (p : Pkt) (f : List Byte) (e : Nat × Nat × W32) : List Byte :=
  match e.1 with
  | 8 =>
    let d := stamp16 s port true - Int.ofNat (p.rxTime * 65536)
    macWrite f e.2.1 (toBytes 8 (uns 64 (Int.ofNat (fld f e.2.1 8) + d))) none
  | 9 =>
    let v := e.2.2.toNat
    let w := tsBytes s (stampNow s port true) p.rxTime (nth f e.2.1 0).toNat (v % 256)
    macWrite f e.2.1 w.1 (if v / 256 = 0 then w.2 else some (v / 256))
  | _ => f

/-! ## MAC_TRANSMIT -/

/-- The transmit stamp that TS_CLASS asks for (R302), and LAUNCH_LATE (R310). -/
def noteTx (s : State) (port : Nat) (p : Pkt) (f : List Byte) : State :=
  let cls := bits (cw p 7) 23 20
  let late := sint 40 (stampNow s port true + 2 ^ 40 - pktLaunch p % 2 ^ 40)
  let s := if bit (cw p 7) 19 && decide (Int.ofNat (tiF s 28 2) < late) then bump s (aTimeCtr 0) else s
  if cls = 1 || cls = 2 then
    let x := portOf s port
    let st : TxStamp := { port := port, cls := cls, time := (stamp16 s port true).toNat, scratch := BitVec.ofNat 32 (cw p 16), frame := f }
    let n := ((List.range 8).map fun i => (portOf s (port / 8 * 8 + i)).stamps.length).sum + 1
    raiseHigh (setPort s port { x with stamps := x.stamps ++ [st] }) (111 + port / 8) n
  else s

/-- The frame qualifies for the CONF measurement: what R41 asks of it under the active contract. One that was injected
came from no port. -/
def confQualifies (s : State) (port : Nat) (p : Pkt) (len : Nat) (hit : Bool) : Bool :=
  portSpeed s port == 800 && portSpeed s p.port == 800 && pktOrigin p ≤ 1
  && (match s.deck.contract with
      | 2 => len ≤ 1518
      | 4 => len == 1518 && !p.cut
      | _ => len ≤ 1518 && p.cut && hit)

/-- Measure a frame that leaves: its latency from MDI to MDI goes into the running CONF interval (R43). -/
def confFrame (s : State) (port : Nat) (p : Pkt) (len : Nat) : State :=
  let key := confKey p.port p.rxTime
  let hit := s.conf.hot.contains key
  let s := if hit then { s with conf := { s.conf with hot := s.conf.hot.filter (· != key) } } else s
  if confOn s && confQualifies s port p len hit then
    let ns := min 65535 (stampNow s port true - p.rxTime)
    let c := s.conf
    let overs := bits (confCtl s) 25 16 < ns
    { s with conf := { c with maxNs := max c.maxNs ns, minNs := min c.minNs ns, qual := satInc 48 (c.qual % 2 ^ 48),
                              overs := if overs then satInc 31 (c.overs % 2 ^ 31) else c.overs } }
  else s

/-- The frame would leave before its LAUNCH (R310). -/
def beforeLaunch (s : State) (port : Nat) (p : Pkt) : Bool :=
  bit (cw p 7) 19 && decide (0 < sint 40 (pktLaunch p + 2 ^ 40 - stampNow s port true % 2 ^ 40))

/-- The head frame of a port leaves: whole, or stomped where it ends (R264, R265). -/
def macTransmitOp (s : State) (port : Nat) (underrun : Bool) : State :=
  let x := portOf s port
  match x.txq with
  | [] => s
  | e :: rest =>
    if !portSends s port || e.pkt.ended == underrun || beforeLaunch s port e.pkt then s
    else
      let q := e.pkt.queue
      let got := match potFrame s q e.frame with | some f => f.bytes | none => e.pkt.frame
      let s := setPort s port { x with txq := rest }
      let s := if underrun then
          bump (frameOut s q e.frame (pktEpoch e.pkt)) (aUnderrun (q / 2048))
        else s
      let stomp := e.stomp || underrun
      let f := e.edits.foldl (macEdit s port e.pkt) (if underrun then got else e.pkt.frame)
      let s := bumpBy (bump s (aPortCtr port 2)) (aPortCtr port 3) (f.length + 4)
      let s := if stomp then bump (bump s (aPortCtr port 29)) (aQCtr q 2) else s
      let s := if stomp then s else confFrame s port e.pkt (f.length + 4)
      noteTx { s with sent := s.sent ++ [.frame port f stomp] } port e.pkt f

/-! ## Links that go down -/

/-- The frame that the MAC is sending, the head of the transmit queue, is lost with its link (R105, TX_ABORT); those
behind it wait. -/
def abortHead (s : State) (p : Nat) : State :=
  let x := portOf s p
  match x.txq with
  | [] => s
  | e :: rest =>
    let s := setPort (bump s (aPortCtr p 30)) p { x with txq := rest }
    if e.pkt.ended then s else frameOut s e.pkt.queue e.frame (pktEpoch e.pkt)

/-- The link of a port goes down. -/
def linkLost (s : State) (p : Nat) : State :=
  if (portOf s p).up then abortHead (linkDownOp s p) p else s

/-- PORT.CTL written: SHUT takes the link down (Table 5.9, R114). -/
def shutLink (s : State) (p : Nat) : State := if portShut s p then linkLost s p else s

/-- PORT.CTL written (R114): it is stored, a shut port's link goes down, and lane tests settle. -/
def wrPortCtl (s : State) (p v : Nat) : State :=
  if isPort s p then
    let s := settleAn (shutLink (setReg s (aPort p) (bits v 1 0)) p) p
    (List.range 8).foldl (fun s i => laneSettle s (8 * (p / 8) + i)) s
  else s

end Sys2Proof.Machine
end

