-- ==== Sys2Proof/Machine/TimeOps.lean ====
section
/-!
DEFINITION. The time unit: input seconds, states, the step, leaps, outputs, the PTP generator, transmit stamps,
launches and gate lists (13_time_and_launch.md R293 to R312, R316).
Log entries: 3, 9, 32, 46, 47.
-/
namespace Sys2Proof.Machine

open Sys2Proof

/-! ## Gate lists (R311, R312) -/

/-- When list `g` activated at `now` starts: BASE, or the first cycle at least 1 µs on; the Bool says it is late. -/
def gateStart (g : GateList) (now : Nat) : Nat × Bool :=
  if now + 1000 ≤ g.base then (g.base, false)
  else (g.base + cdiv (now + 1000 - g.base) g.cycle * g.cycle, true)

/-- Activate a list of slot `e`: it replaces what waits to start on its port (R312). -/
def activate (s : State) (e : Bool) (list : Nat) : State :=
  match gateList s e list with
  | none => s
  | some g =>
    if 256 ≤ g.port || g.port = 255 then s
    else
      let x := gateStart g (nowNs s)
      let gs := s.time.gates.filter fun r => r.running || r.what.port != g.port
      let t := { s.time with gates := gs ++ [⟨list, g, x.1, false, 0, 0⟩] }
      if x.2 then markSet { s with time := { t with lateList := list, late := true } } aGateLate (2 ^ 63) else { s with time := t }

/-- Every gate list stops, and every gate is open. -/
def stopGates (s : State) : State :=
  { s with time := { s.time with gates := [] }, ports := kmap s.ports fun _ x => { x with gates := 0xFF }, coreTime := [] }

/-- A step: every list of the current slot starts anew (R312). -/
def activateAll (s : State) : State :=
  let b := hotBody s (curSlot s) tyGates
  (gateLists b.length b 0).foldl (fun s k => activate s (curSlot s) k) (stopGates s)

/-- A gate change, or the time word of a place past the ports, goes to the traffic manager as an entry of the core time queue, crossing queue 96 (R28). -/
def setGates (s : State) (p v : Nat) : State :=
  raiseHigh { s with coreTime := s.coreTime ++ [(p, v)] } 96 (s.coreTime.length + 1)

/-- The core time queue has a place (Table 1.10): the time unit stalls where it has none. -/
def coreTimeRoom (s : State) : Bool := s.coreTime.length < 16

/-- The traffic manager takes the entries of the core time queue, in order; an entry past the ports is a time word. -/
def takeCoreTime (s : State) : State :=
  s.coreTime.foldl (fun s x => if 256 ≤ x.1 then s else setPort s x.1 { portOf s x.1 with gates := BitVec.ofNat 8 x.2 }) { s with coreTime := [] }

/-- The run of a list that is or is not running. -/
def runOf (s : State) (list : Nat) (running : Bool) : Option (GateRun × GateList) :=
  s.time.gates.findSome? fun r =>
    if r.list = list && r.running == running then some (r, r.what) else none

/-- GATE_LIST_START: the list takes its port over, presented 50 ns early (R278, R311). -/
def gateStartOp (s : State) (list : Nat) : State :=
  match runOf s list false with
  | none => s
  | some (r, g) =>
    if nowNs s + 50 < r.start || !coreTimeRoom s then s
    else
      let gs := s.time.gates.filter fun x => x != r && !(x.running && x.what.port == g.port)
      setGates { s with time := { s.time with gates := gs ++ [{ r with running := true }] } } g.port (nth g.entries 0 (0, 0)).1

/-- GATE_CHANGE: the next entry of a running list, presented 50 ns early. -/
def gateChangeOp (s : State) (list : Nat) : State :=
  match runOf s list true with
  | none => s
  | some (r, g) =>
    if nowNs s + 50 < r.start + r.cycle * g.cycle + entryEnd g r.entry || !coreTimeRoom s then s
    else
      let last := g.entries.length ≤ r.entry + 1
      let r' := { r with entry := if last then 0 else r.entry + 1, cycle := if last then r.cycle + 1 else r.cycle }
      setGates { s with time := { s.time with gates := s.time.gates.map fun x => if x = r then r' else x } } g.port
        (nth g.entries r'.entry (0, 0)).1

/-! ## The step (R295, R296) -/

/-- A time in 2^-48 ns rounded to the nearest ns (R300). -/
def nearNs (base : Nat) : Nat := (base + 2 ^ 47) / 2 ^ 48

/-- After a step every pending launch is judged against the stepped clock (R310). -/
def unlaunch (s : State) : State :=
  { s with queues := kmap s.queues fun _ x => { x with frames := x.frames.map fun f => { f with launched := false } } }

/-- A new time word goes to every octet and to the traffic manager (R28). -/
def sendTimeWord (s : State) : State :=
  let w := toBytes 8 (nowNs s)
  let s := (List.range 32).foldl (fun s n => cross s (64 + n) 16 [w]) s
  if coreTimeRoom s then setGates s 256 (now40 s) else s

/-- Load the timebase: VALID from here on, the armed step is spent, and gate lists start anew. `by_`: 1 input, 2 TIME SET. -/
def stepTo (s : State) (base : Nat) (by_ : Nat) : State :=
  let d := Int.ofNat base / 2 ^ 40 - Int.ofNat s.time.base / 2 ^ 40
  let t := { s.time with base := base, valid := true, steppedBy := by_, unlocked := false, alarm := false,
                         lastEdge := s.time.lastEdge.map (· + d), edgeRef := nearNs base }
  sendTimeWord (activateAll (unlaunch { s with time := t }))

/-- TIME SET in effect: the given time, and HOST_SET (R297). -/
def hostSet (s : State) (seconds ns frac : Nat) : State :=
  let s := stepTo s ((seconds * 10 ^ 9 + ns) * 2 ^ 48 + frac * 2 ^ 32) 2
  { s with time := { s.time with state := .hostSet } }

/-- A TIME SET is accepted: no step has been taken, or one is armed (R295, R296). -/
def mayStep (s : State) : Bool := !s.time.valid || s.time.unlocked

/-! ## RATE (R290, R294) -/

def rateMax : Int := 140737488355
def clampRate (r : Int) : Int := max (-rateMax) (min rateMax r)
/-- SLEW in units of RATE: ppb of 2^48. -/
def slewUnits (s : State) : Int := Int.ofNat (tiF s 6 2 * 2 ^ 48 / 10 ^ 9)

def aRateTarget : Nat := 0x1C0000000020

/-- One second of steering: the servo's at each valid second, under HOST_SERVO the host's at each second. The servo's result and its integral term are free values inside SLEW and R290; under
HOST_SERVO the rate moves toward TARGET by a free part of what SLEW allows (assumption 9, DESIGN CHOICE). -/
def steer (s : State) (pi : Bool) : State :=
  let w := regRaw s aRateTarget 0
  let r := s.time.rate
  let lim := slewUnits s
  if bit w 63 then
    let goal := clampRate (sint 40 w)
    let way := max (-lim) (min lim (goal - r))
    let d := draw s
    let k := Int.ofNat (d.1 % (way.natAbs + 1))
    { d.2 with time := { s.time with rate := clampRate (r + (if way < 0 then -k else k)) } }
  else if pi then
    let d := draw s
    let i := draw d.2
    let move := Int.ofNat (d.1 % (2 * lim.toNat + 1)) - lim
    { i.2 with time := { s.time with rate := clampRate (r + move), integral := clampRate (sint 40 i.1) } }
  else s

/-! ## Input seconds (R293) -/

/-- The time unit takes input: a TIME body is applied (R294). -/
def timeTakes (s : State) : Bool := hasDeck s && timeCount s != 0

/-- A run of valid seconds ends. -/
def endRun (s : State) (ctr : Nat) : State :=
  let s := bump s (aTimeCtr ctr)
  { s with time := { s.time with run := 0, ppsOk := false, lastUtc := none, waitTod := false } }

/-- The phase of an edge at `e` (2^-8 ns) against the nearest timebase second. -/
def phaseOf (e : Int) : Int :=
  let m := e % (256 * 10 ^ 9)
  if 128 * 10 ^ 9 ≤ m then m - 256 * 10 ^ 9 else m

/-- Take the timebase step that puts the edge at `e` at the start of TAI second `tai`. -/
def alignTo (s : State) (e : Int) (tai : Int) : State :=
  stepTo s ((tai * 10 ^ 9 * 2 ^ 48 + (Int.ofNat s.time.base - e * 2 ^ 40)).toNat) 1

/-- A UTC second as its sentence gives it: twice its count from 1970, and 1 more but for a leap second 23:59:60, which
has the count of the 00:00:00 behind it (R293). -/
def secCount (u : Nat) : Nat := u / 2
def isLeap (u : Nat) : Bool := u % 2 == 0

/-- A valid input second: the edge at `e` carries UTC second `u` (R293 to R296). -/
def validSecond (s : State) (e : Int) (u : Nat) : State :=
  let was := s.time.state
  let tai := Int.ofNat (secCount u) + s.time.utcOff
  let run := s.time.run + 1
  let t := { s.time with run := run, ppsOk := true, lastUtc := some u, waitTod := false, tod := none,
                         edgeRef := ((e + 128) / 256).toNat,
                         cameFrom := if was = .locked || was = .acquiring then s.time.cameFrom else was,
                         state := if was = .locked then .locked else .acquiring }
  let s := { s with time := t }
  let armed := s.time.unlocked && (was = .acquiring || was = .locked)
  let locks := s.time.state != .locked && tiF s 3 1 ≤ run
  let s := if locks then { s with time := { s.time with state := .locked } } else s
  if armed || (locks && !s.time.valid) then alignTo s e tai
  else
    let alarm := s.time.valid && Int.ofNat (tiF s 30 4 * 256) < (phaseOf e).natAbs
    let s := { s with time := { s.time with alarm := alarm } }
    if bit (regRaw s aRateTarget 0) 63 then s else steer s (s.time.state == .locked)

/-- PHASE as kept: what 32 bits cannot hold is a free value. -/
def notePhase (s : State) (e : Int) : State :=
  let p := phaseOf e
  if p = sint 32 (uns 32 p) then { s with time := { s.time with phase := p } }
  else
    let d := draw s
    { d.2 with time := { s.time with phase := sint 32 d.1 } }

/-- The deleted second of a scheduled leap lies before this midnight (R298). -/
def deletedBefore (s : State) (v : Nat) : Bool :=
  secCount v % 86400 == 0 && s.time.leapAt ≤ nowS s + 1 && nowS s ≤ s.time.leapAt + 1

/-- UTC second `v` is 1 s after the previous valid one: the next count, 23:59:60 between 23:59:59 and 00:00:00, or the
midnight behind a deleted second (R293). -/
def utcFollows (s : State) (v : Nat) : Bool := match s.time.lastUtc with
  | some u => v == u + 1 || (!isLeap u && !isLeap v && (v == u + 2 || (v == u + 4 && deletedBefore s v)))
  | none => true

/-- An edge whose sentence was bad, and is counted already, ends the run (R293). -/
def edgeUnlabelled (s : State) (bad : Bool) : State :=
  if bad then { s with time := { s.time with run := 0, ppsOk := false, lastUtc := none, waitTod := false } } else endRun s 2

/-- PPS_EDGE: an edge `phase` (2^-8 ns) from the present timebase, corrected by PPS_IN_DELAY. -/
def ppsEdgeOp (s : State) (phase : Int) : State :=
  if !timeTakes s then s
  else
    let e := Int.ofNat (s.time.base / 2 ^ 40) + phase - sint 16 (tiF s 22 2) * 256
    let near := match s.time.lastEdge with
      | some l => decide ((e - l - 256 * 10 ^ 9).natAbs ≤ 256000)
      | none => false
    let unlabelled := s.time.waitTod
    let bad := s.time.todBad
    let s := notePhase { s with time := { s.time with lastEdge := some e, todBad := false } } e
    let s := if unlabelled then endRun s 2 else s
    if !near then endRun { s with time := { s.time with tod := none } } 3
    else if bit (tiF s 1 1) 2 then
      match s.time.tod with
      | some u => if utcFollows s u then validSecond s e u else endRun { s with time := { s.time with tod := none } } 2
      | none => edgeUnlabelled s bad
    else { s with time := { s.time with waitTod := true } }

/-! ## Sentences -/

def decDigit (b : Byte) : Option Nat := if 48 ≤ b.toNat && b.toNat ≤ 57 then some (b.toNat - 48) else none
def hexDigit (b : Byte) : Option Nat :=
  let n := b.toNat
  if 48 ≤ n && n ≤ 57 then some (n - 48) else if 65 ≤ n && n ≤ 70 then some (n - 55)
  else if 97 ≤ n && n ≤ 102 then some (n - 87) else none

/-- A decimal number of one digit at least. -/
def decNat (bs : List Byte) : Option Nat :=
  if bs.isEmpty then none
  else bs.foldl (fun a b => a.bind fun n => (decDigit b).map fun d => 10 * n + d) (some 0)

/-- The parts of a byte string between separators. -/
def splitOn (sep : Nat) (bs cur : List Byte) : List (List Byte) :=
  match bs with
  | [] => [cur]
  | b :: r => if b.toNat = sep then cur :: splitOn sep r [] else splitOn sep r (cur ++ [b])

/-- Days from 1970-01-01 to a date of the proleptic Gregorian calendar. -/
def daysOf (y m d : Nat) : Nat :=
  let y' := if m ≤ 2 then y - 1 else y
  let mp := (m + 9) % 12
  365 * y' + y' / 4 - y' / 100 + y' / 400 + (153 * mp + 2) / 5 + d - 1 - 719468

/-- Year, month and day of a day count. -/
def dateOf (days : Nat) : Nat × Nat × Nat :=
  let z := days + 719468
  let era := z / 146097
  let doe := z % 146097
  let yoe := (doe - doe / 1460 + doe / 36524 - doe / 146096) / 365
  let doy := doe - (365 * yoe + yoe / 4 - yoe / 100)
  let mp := (5 * doy + 2) / 153
  let m := if mp < 10 then mp + 3 else mp - 9
  (yoe + era * 400 + (if m ≤ 2 then 1 else 0), m, doy - (153 * mp + 2) / 5 + 1)

def xorAll (bs : List Byte) : Nat := bs.foldl (fun a b => a ^^^ b.toNat) 0

/-- The UTC second of an NMEA ZDA sentence with a correct checksum (R293, `secCount`). -/
def parseZda (bs : List Byte) : Option Nat :=
  match bs with
  | [] => none
  | d :: r =>
    let body := r.takeWhile fun b => b.toNat != 42
    let sum := (r.drop (body.length + 1)).take 2
    let ok := match sum with
      | [a, b] => (match hexDigit a, hexDigit b with | some x, some y => 16 * x + y == xorAll body | _, _ => false)
      | _ => false
    if d.toNat != 36 || !ok then none
    else match splitOn 44 body [] with
      | id :: hms :: dd :: mm :: yy :: _ =>
        if id.length != 5 || id.drop 2 != [90, 68, 65] then none
        else match decNat (hms.take 2), decNat ((hms.drop 2).take 2), decNat ((hms.drop 4).take 2), decNat dd, decNat mm, decNat yy with
          | some h, some mi, some se, some d, some m, some y =>
            let leap := h == 23 && mi == 59 && se == 60
            if h < 24 && mi < 60 && (se < 60 || leap) && 1 ≤ d && d ≤ 31 && 1 ≤ m && m ≤ 12 && 1970 ≤ y then
              some (2 * (daysOf y m d * 86400 + 3600 * h + 60 * mi + se) + b2n !leap)
            else none
          | _, _, _, _, _, _ => none
      | _ => none

/-- TOD_SENTENCE: it labels the previous or the next edge under TOD_IN.LABEL (R293). -/
def todOp (s : State) (bs : List Byte) : State :=
  if !timeTakes s || tiF s 1 1 % 4 != 1 then s
  else match parseZda bs with
    | none => endRun { s with time := { s.time with tod := none, todBad := bit (tiF s 1 1) 2 } } 2
    | some u =>
      if bit (tiF s 1 1) 2 then { s with time := { s.time with tod := some u, todBad := false } }
      else match s.time.lastEdge with
        | some e =>
          if !s.time.waitTod then s
          else if utcFollows s u then validSecond s e u else endRun s 2
        | none => s

/-- HOLDOVER_ENTER: no valid second for 1.5 s while LOCKED (R294). -/
def holdEnter (s : State) : State :=
  if s.time.state = .locked then
    let t := { s.time with state := .holdover, run := 0, ppsOk := false, lastUtc := none, waitTod := false,
                           holdFrom := s.clk, rate := s.time.integral }
    { s with time := t }
  else s

/-- HOLD_AGE in seconds, saturating. -/
def holdAge (s : State) : Nat :=
  if s.time.state = .holdover || s.time.state = .holdoverOut then min (ones 20) ((s.clk - s.time.holdFrom) / 1600000000) else 0

/-- HOLDOVER_OUT: HOLD_AGE exceeds HOLD_SPEC (R294). -/
def holdOut (s : State) : State :=
  if s.time.state = .holdover && tiF s 10 2 < holdAge s then { s with time := { s.time with state := .holdoverOut } } else s

/-- The timebase second of a leap at UTC second `u` (R298, UTC_AT): the offset changes there, so that 23:59:59 repeats
or is skipped. -/
def leapSecond (s : State) (u action : Nat) : Nat :=
  (Int.ofNat u + s.time.utcOff - (if action = 2 then 1 else 0)).toNat

/-- LEAP_INSTANT (R298). -/
def leapOp (s : State) : State :=
  if s.time.pending = 0 || nowS s < s.time.leapAt then s
  else
    let d : Int := if s.time.pending = 1 then 1 else -1
    { s with time := { s.time with utcOff := s.time.utcOff + d, pending := 0 } }

/-! ## Outputs (R299) -/

/-- WIDTH of an output's PPS_OUT record; of an enabled output without one, a free value (assumption 3, DESIGN CHOICE). -/
def ppsWidth (s : State) (o : Nat) : Nat × State := match ppsRec s o with
  | some i => (tiR s i 4 4, s)
  | none => draw s

/-- The timebase second whose edge is the latest due at an output: each rises at the second plus its OFFSET (R299). -/
def ppsSecond (s : State) (o : Nat) : Int :=
  (Int.ofNat (nowNs s) - (match ppsRec s o with | some i => sint 32 (tiR s i 8 4) | none => 0)) / 10 ^ 9

/-- PPS_OUT_EDGE: the edge of a second that has come and whose edge has not been given; quiet while VALID is 0. -/
def ppsOutOp (s : State) (o : Nat) : State :=
  let n := ppsSecond s o
  if s.time.valid && timeTakes s && bit (tiF s 24 1) o && kget s.time.ppsSec o != some n then
    let w := ppsWidth s o
    { w.2 with sent := w.2.sent ++ [.pps o w.1], time := { s.time with ppsSec := kset s.time.ppsSec o n } }
  else s

/-- `n` decimal digits of a number. -/
def digits (n x : Nat) : List Byte :=
  match n with
  | 0 => []
  | k + 1 => BitVec.ofNat 8 (48 + x / 10 ^ k % 10) :: digits k x

def hexChar (n : Nat) : Byte := BitVec.ofNat 8 (if n < 10 then 48 + n else 55 + n)

/-- A ZDA sentence of a UTC second, with talker bytes `a`, `b`. -/
def zda (a b : Byte) (utc : Nat) : List Byte :=
  let day := dateOf (utc / 86400)
  let t := utc % 86400
  let c : Byte := 44
  let body := [a, b, 90, 68, 65, c] ++ digits 2 (t / 3600) ++ digits 2 (t / 60 % 60) ++ digits 2 (t % 60) ++ [46, 48, 48, c]
    ++ digits 2 day.2.2 ++ [c] ++ digits 2 day.2.1 ++ [c] ++ digits 4 day.1 ++ [c, 48, 48, c, 48, 48]
  let x := xorAll body
  [36] ++ body ++ [42, hexChar (x / 16 % 16), hexChar (x % 16), 13, 10]

/-- TOD_OUT: one sentence a second in UTC; the talker id is a free value. -/
def todOutOp (s : State) : State :=
  if s.time.valid && timeTakes s && tiF s 2 1 % 4 = 1 then
    let d := draw s
    let utc := (Int.ofNat (nowS s) - s.time.utcOff).toNat
    { d.2 with sent := s.sent ++ [.tod (zda (BitVec.ofNat 8 (65 + d.1 % 26)) (BitVec.ofNat 8 (65 + d.1 / 26 % 26)) utc)] }
  else s

/-! ## The PTP generator (R304 to R308) -/

/-- The announced clockClass of the present state; none is silent (Table 13.1). -/
def clockClass (s : State) : Option Nat :=
  let of_ := fun (x : TimeSt) => match x with
    | .locked => some (tiF s 12 1) | .holdover => some (tiF s 13 1) | .holdoverOut => some (tiF s 14 1)
    | .hostSet => some (tiF s 15 1) | _ => none
  if s.time.state = .acquiring then of_ s.time.cameFrom else of_ s.time.state

/-- clockIdentity: EUI-64 of the fused base address (R305). -/
def clockIdentity (s : State) : List Byte :=
  let m := toBytes 6 (s.fuses.macBase % 2 ^ 48)
  m.take 3 ++ [0xFF, 0xFE] ++ m.drop 3

/-- The flags field (R305). -/
def ptpFlags (s : State) (twoStep unicast : Bool) : List Byte :=
  let tr := s.time.state == .locked || s.time.state == .holdover
  [BitVec.ofNat 8 (b2n twoStep * 2 + b2n unicast * 4),
   BitVec.ofNat 8 (b2n (leapDay s == 1) + b2n (leapDay s == 2) * 2 + 12 + b2n tr * 48)]

/-- The 34 B header of IEEE 1588-2019. -/
def ptpHeader (s : State) (i port type len seq : Nat) (twoStep unicast : Bool) (ctl logInt : Nat) : List Byte :=
  toBytes 1 type ++ [0x12] ++ toBytes 2 len ++ toBytes 1 (tiR s i 4 1) ++ [0] ++ ptpFlags s twoStep unicast
  ++ toBytes 12 0 ++ clockIdentity s ++ toBytes 2 (port + 1) ++ toBytes 2 seq ++ toBytes 1 ctl ++ toBytes 1 logInt

/-- The body of an Announce. -/
def announceBody (s : State) (cls : Nat) : List Byte :=
  toBytes 10 0 ++ toBytes 2 (uns 16 s.time.utcOff) ++ [0] ++ toBytes 1 (tiF s 16 1) ++ toBytes 1 cls ++ toBytes 1 (tiF s 18 1)
  ++ toBytes 2 (tiF s 20 2) ++ toBytes 1 (tiF s 17 1) ++ clockIdentity s ++ toBytes 2 0 ++ toBytes 1 (tiF s 19 1)

/-- Where the PTP message starts in a generated frame. -/
def ptpOff (s : State) (i : Nat) : Nat :=
  14 + (if bit (tiR s i 5 1) 1 then 4 else 0) + (match tiR s i 3 1 with | 2 => 28 | 3 => 48 | _ => 0)

/-- Finish a UDP checksum: a sum of 0 is sent as 0xFFFF. -/
def udpSum (x : Nat) : Nat := if 0xFFFF - x = 0 then 0xFFFF else 0xFFFF - x

/-- A generated message as a frame: Ethernet, tag, IP and UDP by TRANSPORT (R304 to R307, Table 13.4). `free`: the
fields of IP that the spec leaves open, and the next hop's MAC address of a unicast message. -/
def ptpFrame (s : State) (i port : Nat) (to_ : Option Nat) (udpPort free : Nat) (msg : List Byte) : List Byte :=
  let tr := tiR s i 3 1
  let dst6 := match to_ with
    | some k => toBytes 8 (regRaw s (aUnicast k 1) 0) ++ toBytes 8 (regRaw s (aUnicast k 2) 0)
    | none => if tr = 2 then toBytes 12 0 ++ [224, 0, 1, 129] else [0xFF, 0x0E] ++ toBytes 12 0 ++ [0x01, 0x81]
  let dmac : List Byte := match to_, tr with
    | some _, _ => toBytes 6 (free / 2 ^ 32)
    | none, 0 => [0x01, 0x1B, 0x19, 0, 0, 0]
    | none, 1 => [0x01, 0x80, 0xC2, 0, 0, 0x0E]
    | none, 2 => [0x01, 0x00, 0x5E, 0, 0x01, 0x81]
    | none, _ => [0x33, 0x33, 0, 0, 0x01, 0x81]
  let tag := if bit (tiR s i 5 1) 1 then [0x81, 0x00] ++ toBytes 2 (tiR s i 12 2) else []
  let src6 := slice (coldBody s tyTime) (64 * i + 16) 16
  let ulen := 8 + msg.length
  let udp := fun (c : Nat) => toBytes 2 udpPort ++ toBytes 2 udpPort ++ toBytes 2 ulen ++ toBytes 2 c ++ msg
  let body := match tr with
    | 2 =>
      let h := [0x45] ++ toBytes 1 free ++ toBytes 2 (20 + ulen) ++ toBytes 2 (free / 2 ^ 8) ++ [0, 0] ++ toBytes 1 (free / 2 ^ 24 % 255 + 1)
        ++ [17, 0, 0] ++ src6.drop 12 ++ dst6.drop 12
      [0x08, 0x00] ++ patch h 10 (toBytes 2 (0xFFFF - csumWords h)) ++ udp 0
    | 3 =>
      let pseudo := src6 ++ dst6 ++ toBytes 4 ulen ++ toBytes 4 17
      [0x86, 0xDD] ++ toBytes 4 (6 * 2 ^ 28 + free % 2 ^ 28) ++ toBytes 2 ulen ++ [17] ++ toBytes 1 (free / 2 ^ 28 % 255 + 1)
        ++ src6 ++ dst6 ++ udp (udpSum (csumWords (pseudo ++ udp 0)))
    | _ => [0x88, 0xF7] ++ msg
  let f := dmac ++ toBytes 6 (portMac s port) ++ tag ++ body
  f ++ List.replicate (60 - f.length) 0

/-- Send a generated message into the instance's QUEUE (R304). -/
def sendPtp (s : State) (i : Nat) (f : List Byte) (cls : Nat) (ed : List (Nat × Nat × W32)) : Bool × State :=
  let q := tiR s i 10 2
  injectFrame s q f (injectHdr (curSlot s) q f.length (tiR s i 14 1) (tiR s i 15 1) cls 0) ed

def seqOf (s : State) (p : Nat) : Nat × Nat × Nat := kgetD s.time.seqIds p (0, 0, 0)
def setSeq (s : State) (p : Nat) (x : Nat × Nat × Nat) : State := { s with time := { s.time with seqIds := kset s.time.seqIds p x } }

/-- A unicast entry that serves port `p` now: valid, and its grant has not ended (R307). -/
def grantLive (s : State) (p k : Nat) : Bool :=
  let w := regRaw s (aUnicast k 0) 0
  bit w 0 && bits w 8 1 == p && nowS s % 2 ^ 32 < w / 2 ^ 32

/-- The destination suits the instance's profile. -/
def destOk (s : State) (i p : Nat) (to_ : Option Nat) : Bool := match to_ with
  | some k => tiR s i 2 1 == 2 && grantLive s p k
  | none => tiR s i 2 1 != 2

/-- 10^9 ns times 2 to the signed byte `v` (Tables 13.6, 13.12). -/
def logNs (v : Nat) : Nat :=
  let n := sint 8 v
  if n < 0 then 10 ^ 9 / 2 ^ (-n).toNat else 10 ^ 9 * 2 ^ n.toNat

/-- The interval of a stream of messages: the unicast entry's, or the instance's (R304, R307). -/
def msgInterval (s : State) (i : Nat) (to_ : Option Nat) (announce : Bool) : Nat :=
  logNs (match to_ with
    | some k => bits (regRaw s (aUnicast k 0) 0) (if announce then 24 else 16) (if announce then 17 else 9)
    | none => tiR s i (if announce then 7 else 6) 1)

/-- The stream of a message: a port's Announces or Syncs to the group, or those to an entry. -/
def streamKey (p : Nat) (to_ : Option Nat) (announce : Bool) : Nat :=
  2 * (match to_ with | some k => 256 + k | none => p) + b2n announce

/-- A stream's next message is due: its interval has passed since the last one, as the timebase counts. -/
def streamDue (s : State) (i p : Nat) (to_ : Option Nat) (announce : Bool) : Bool :=
  match kget s.time.msgAt (streamKey p to_ announce) with
  | some t => t + msgInterval s i to_ announce ≤ nowNs s || nowNs s < t
  | none => true

/-- Send an Announce or a Sync of a port's instance (R304 to R307). -/
def sendDue (s : State) (p : Nat) (to_ : Option Nat) (announce : Bool) : State :=
  match instRec s p, clockClass s with
  | some i, some cls =>
    if !s.time.valid || !hasDeck s || !destOk s i p to_ then s
    else
      let d := draw s
      let x := seqOf s p
      let uni := to_.isSome
      if announce then
        let m := ptpHeader s i p 0xB 64 x.2.1 false uni 5 (if uni then 0x7F else tiR s i 7 1) ++ announceBody s cls
        let r := sendPtp d.2 i (ptpFrame s i p to_ 320 d.1 m) 0 []
        if r.1 then bump (setSeq r.2 p (x.1, (x.2.1 + 1) % 65536, x.2.2)) (aInst p 3) else r.2
      else
        let one := bit (tiR s i 5 1) 0
        let m := ptpHeader s i p 0 44 x.1 (!one) uni 0 (if uni then 0x7F else tiR s i 6 1) ++ toBytes 10 0
        let back := if tiR s i 3 1 = 3 then 36 * 256 else 0
        let ed : List (Nat × Nat × W32) := if one then [(9, ptpOff s i + 34, BitVec.ofNat 32 back)] else []
        let r := sendPtp d.2 i (ptpFrame s i p to_ 319 d.1 m) (if one then 0 else 1) ed
        if r.1 then bump (setSeq r.2 p ((x.1 + 1) % 65536, x.2)) (aInst p 1) else r.2
  | _, _ => s

/-- The Follow_Up of a two-step Sync: the Sync's frame with its own type, control field, UDP port and
preciseOriginTimestamp (R306). -/
def followUpFrame (s : State) (i : Nat) (sync : List Byte) (t : Nat) : List Byte :=
  let o := ptpOff s i
  let f := patch sync o [8]
  let f := patch f (o + 6) [BitVec.ofNat 8 ((nth f (o + 6) 0).toNat &&& 0xFD)]
  let f := patch (patch f (o + 32) [2]) (o + 34) (toBytes 10 (ptpStamp t))
  match tiR s i 3 1 with
  | 2 => patch f (o - 8) (toBytes 2 320 ++ toBytes 2 320)
  | 3 =>
    let g := patch f (o - 8) (toBytes 2 320 ++ toBytes 2 320 ++ toBytes 2 52 ++ [0, 0])
    let pseudo := slice g (o - 40) 32 ++ toBytes 4 52 ++ toBytes 4 17
    patch g (o - 2) (toBytes 2 (udpSum (csumWords (pseudo ++ slice g (o - 8) 52))))
  | _ => f

/-- The oldest stamp that waits in an octet. -/
def oldestStamp (s : State) (o : Nat) : Option TxStamp :=
  ((List.range 8).flatMap fun i => (portOf s (8 * o + i)).stamps).foldl
    (fun b x => match b with | none => some x | some y => if x.time < y.time then some x else some y) none

/-- A TS_CLASS 2 item (R302). -/
def stampItem (t : TxStamp) : List Byte :=
  toBytes 2 0x18 ++ toBytes 1 t.port ++ [0] ++ toBytes 6 (t.time / 65536 / 10 ^ 9) ++ toBytes 4 (t.time / 65536 % 10 ^ 9)
  ++ toBytes 2 (t.time % 65536) ++ toBytes 4 t.scratch.toNat ++ toBytes 4 0

/-- Send the Follow_Up of a Sync (R306); nothing while VALID is 0 (R317). -/
def sendFollowUp (s : State) (t : TxStamp) : State :=
  match instRec s t.port with
  | none => s
  | some i =>
    if !s.time.valid then s
    else
      let f := followUpFrame s i t.frame ((t.time + 32768) / 65536)
      let r := sendPtp s i f 0 []
      if r.1 then
        let y := seqOf s t.port
        bump (setSeq r.2 t.port (y.1, y.2.1, (fld f (ptpOff s i + 30) 2 + 1) % 65536)) (aInst t.port 2)
      else r.2

/-- The port of a message's instance. -/
def GenMsg.port : GenMsg → Nat
  | .due p _ _ => p
  | .followUp t => t.port

/-- The generator sends a message, and may send the next 32 clk later: 50 million a second (R308; assumption 47, DESIGN
CHOICE: the spec gives the rate and not over what time it is taken). -/
def genSend (s : State) (m : GenMsg) : State :=
  let s := { s with time := { s.time with genNext := s.clk + 32 } }
  match m with
  | .due p u a => sendDue s p u a
  | .followUp t => sendFollowUp s t

/-- A message is due. It waits behind the messages that wait, while the pipeline is held (R316), and while the rate is
exhausted, which GEN_LATE counts (R308). -/
def genDueOp (s : State) (m : GenMsg) : State :=
  let late := s.clk < s.time.genNext || !s.time.genDue.isEmpty
  if held s || late then
    let s := if held s then s else bump s (aInst m.port 4)
    { s with time := { s.time with genDue := s.time.genDue ++ [m] } }
  else genSend s m

/-- The message that has waited longest goes as soon as it is permitted. -/
def genTick (s : State) : State :=
  match s.time.genDue with
  | [] => s
  | m :: rest =>
    if held s || s.clk < s.time.genNext then s else genSend { s with time := { s.time with genDue := rest } } m

/-- TX_STAMP_RETURN: a transmit stamp of an octet reaches the core (R302, R306). -/
def stampReturnOp (s : State) (o : Nat) : State :=
  match oldestStamp s o with
  | none => s
  | some t =>
    let x := portOf s t.port
    let s := setPort s t.port { x with stamps := x.stamps.erase t }
    if t.cls = 2 then ringWrite s (tiF s 34 2 % 8192) (stampItem t) false
    else if (instRec s t.port).isSome && s.time.valid then genDueOp s (.followUp t) else s

/-- UNICAST_EXPIRY: VALID clears once the timebase seconds reach EXPIRY (R307). -/
def unicastExpire (s : State) (k : Nat) : State :=
  let w := regRaw s (aUnicast k 0) 0
  if bit w 0 && w / 2 ^ 32 ≤ nowS s % 2 ^ 32 then setReg s (aUnicast k 0) (w - 1) else s

/-- PTP_MESSAGE_DUE: an Announce or a Sync of a port's instance falls due, at the interval of its stream (R304 to
R308). -/
def ptpDueOp (s : State) (p : Nat) (to_ : Option Nat) (announce : Bool) : State :=
  let s := match to_ with | some k => unicastExpire s k | none => s
  match instRec s p with
  | some i =>
    if s.time.valid && hasDeck s && destOk s i p to_ && streamDue s i p to_ announce then
      genDueOp { s with time := { s.time with msgAt := kset s.time.msgAt (streamKey p to_ announce) (nowNs s) } } (.due p to_ announce)
    else s
  | none => s

/-! ## One clk of the time unit -/

/-- A second of CK_CORE passes: under HOST_SERVO the rate moves toward TARGET in every state (R294). -/
def hostSteer (s : State) : State :=
  if bit (regRaw s aRateTarget 0) 63 && timeTakes s && s.clk % 1600000000 = 0 then steer s false else s

/-- What a clk does beside counting: the traffic manager takes gate changes, the generator a waiting message, and the
host's servo its step. -/
def timeTick (s : State) : State := hostSteer (genTick (takeCoreTime s))

/-! ## Launches (R310) -/

/-- LAUNCH_RELEASE: the head frame's time has come, 50 ns early. -/
def launchOp (s : State) (q : Nat) : State :=
  match headFrame s q with
  | none => s
  | some f =>
    if hdrLaunchValid f && decide (sint 40 (hdrLaunch f + 2 ^ 41 - 50 - now40 s) ≤ 0) then
      modFrame s q f.id fun x => { x with launched := true }
    else s

end Sys2Proof.Machine
end

