-- ==== Sys2Proof/Machine/Sampling.lean ====
section
/-!
DEFINITION. Queue sampling: the items a sampling boundary writes (12_traffic_manager.md R286).
-/
namespace Sys2Proof.Machine

open Sys2Proof

/-- TM.SGROUP of a group: RING and INTERVAL as the deck's SAMPLE record gives them. -/
def sgroupD (s : State) (g : Nat) : Nat := match tmSample s g with
  | some i => tmF s i 2 2 % 2 ^ 13 + tmF s i 4 4 % 2 ^ 20 * 2 ^ 13
  | none => 0
def sgroupW (s : State) (g : Nat) : Nat := regRaw s (aSGroup g) (sgroupD s g)

/-- The head frame's sojourn, 0 for an empty queue. -/
def headSojourn (s : State) (q : Nat) : Nat := match headFrame s q with | some f => sojourn s f | none => 0

/-- The item of a queue (Table 12.2). -/
def queueItem (s : State) (q : Nat) : List Byte :=
  let x := (queueOf s q).sample
  let now := headSojourn s q
  toBytes 2 0x20 ++ toBytes 2 q ++ toBytes 1 (qSGroup s q * 16) ++ toBytes 3 (qDepth s q) ++ toBytes 5 (now40 s)
  ++ toBytes 3 x.minDepth ++ toBytes 3 x.maxDepth ++ toBytes 1 0 ++ toBytes 4 (min (ones 32) now)
  ++ toBytes 4 (min (ones 32) (max x.maxSojourn now)) ++ toBytes 4 (min (ones 32) x.frames)

/-- The next interval's figures start afresh. -/
def freshSample (s : State) (q : Nat) : State :=
  let x := queueOf s q
  let d := qDepth s q
  setQueue s q { x with sample := { minDepth := d, maxDepth := d, maxSojourn := 0, frames := 0 } }

/-- Queues of a pot that group `g` samples. -/
def sampledQueues (s : State) (p g : Nat) : List Nat :=
  ((List.range 2048).map (2048 * p + ·)).filter fun q => qSampled s q && qSGroup s q == g

/-- One pot at a boundary: at most one item a clk of the interval is written, the others are skipped. -/
def samplePot (s : State) (g : Nat) (p : Nat) : State :=
  let w := sgroupW s g
  let qs := sampledQueues s p g
  let room := bits w 32 13 * usClk
  let s := (qs.take room).foldl (fun s q => freshSample (ringWrite s (bits w 12 0) (queueItem s q) false) q) s
  (qs.drop room).foldl (fun s q => freshSample (bump s aSampleSkip) q) s

/-- SAMPLE_BOUNDARY (R286). -/
def sampleOp (s : State) (g : Nat) : State :=
  if hasDeck s && bits (sgroupW s g) 32 13 != 0 then (List.range 32).foldl (fun s p => samplePot s g p) s else s

end Sys2Proof.Machine
end

