-- ==== Sys2Proof/Machine/RegTab.lean ====
section
/-!
DEFINITION. The register space: every register and window of the block chapters' tables, by address (00_scope.md R4 to
R10; 01_architecture.md R27, Table 1.8; 16_observability.md R363, R364), with the level each access needs (R342).
Log entries: 4.
-/
namespace Sys2Proof.Machine

open Sys2Proof

/-- Registers and windows whose words are computed from the state, or whose writes do more than store. -/
inductive RegId
  | word | ctr
  -- TOP, RST, KEEP
  | chipId | temp | avs | trim | cause | last | hostWdog | strap | seq | clock | foldIntake | foldPot | foldFlow
  | keepStatus | mirror | kitty
  -- DECK, DLR
  | deckStatus | ident | epoch | inflight | held | fail | keys | contract | segDir
  | dlrStatus | dlrCtr | wdogLog | ucodeLog | store | routine | context | perfLazy | perfCfg
  -- LANE, PORT, INTAKE
  | bringup | laneStatus | laneTest | eyeCtl | adaptation | portCtl | portStatus | portMac | portCtr
  | handStatus | tokens | stateWin | formatWin | excWin | vector
  -- MATCH, SHUF, POOL, FLOW, STOCK, TSK
  | moveStatus | rowLog | rowWin | comparator | shufEntry | shufHeader | fill | poolByte
  | seeds | dkeyHi | dkeyLo | seedC | lines | line | fsmCell | stockStatus | stockSlot
  | tskStatus | tskStatus2 | levelDepth | listCfg | entry
  -- FAB, POT, TM, TIME
  | fabStatus | potStatus | reseqPair | queueStatus | queuePtr | potCell | cellLink
  | shaperCfg | qRate | qCfg | qCurve | qTokens | qDeficit | qAvg | gRate | gCfg | gTokens | gDeficit | pRate | pCfg | pTokens
  | pZero | polCfg0 | polCfg1 | polTokens | sgroup | curve
  | timeStatus | nowS | nowNs | rate | phase | gateLate | utc | utcAt | instance_ | unicast | gateList
  -- HBM, ZAT, OBS
  | hbmStatus | grain | retrain | errLast | queueSt | training
  | zatStatus | zatKeys | keyId | vkey | vkeyCtl | session
  | xqStatus | confCtl | confLatch | confWord | dumpStatus | ringPtr | ringUsed | ringLayout | peek
deriving DecidableEq, Repr

/-- What a write does: stores the masked bits, sets a counter (R369), is ignored, acts by its table, or is refused. -/
inductive RegKind
  | plain (mask reset : Nat)
  | counter
  | ro
  | act
  | window
deriving DecidableEq, Repr

/-- A row of the register space: its first address, its indexes as (stride, count) from the outermost in, and the levels
of R342 that reading and writing need. -/
structure RegRow where
  id   : RegId
  kind : RegKind
  base : Nat
  dims : List (Nat × Nat) := []
  rl   : Nat := 1
  wl   : Nat := 2
deriving DecidableEq, Repr

/-- The indexes of an offset within the dims of a row; none where the row does not reach it. -/
def dimIdx (dims : List (Nat × Nat)) (off : Nat) : Option (List Nat) :=
  match dims with
  | [] => if off = 0 then some [] else none
  | (st, n) :: r => if off / st < n then (dimIdx r (off % st)).map (off / st :: ·) else none

/-- The row and indexes of an address. -/
def rowFind (rows : List RegRow) (a : Nat) : Option (RegRow × List Nat) :=
  match rows with
  | [] => none
  | r :: rest =>
    if a < r.base then rowFind rest a
    else match dimIdx r.dims (a - r.base) with
      | some ix => some (r, ix)
      | none => rowFind rest a

def ctrRow (base : Nat) (dims : List (Nat × Nat) := []) : RegRow := { id := .ctr, kind := .counter, base := base, dims := dims }
def wordRow (base mask reset : Nat) (dims : List (Nat × Nat) := []) (rl wl : Nat) : RegRow :=
  { id := .word, kind := .plain mask reset, base := base, dims := dims, rl := rl, wl := wl }
def roRow (id : RegId) (base : Nat) (dims : List (Nat × Nat) := []) : RegRow := { id := id, kind := .ro, base := base, dims := dims }
def actRow (id : RegId) (base : Nat) (dims : List (Nat × Nat) := []) (wl : Nat := 2) : RegRow :=
  { id := id, kind := .act, base := base, dims := dims, wl := wl }
def winRow (id : RegId) (base : Nat) (dims : List (Nat × Nat)) (rl : Nat := 1) : RegRow :=
  { id := id, kind := .window, base := base, dims := dims, rl := rl }

/-- TOP (Tables 0.5, 16.2, 18.13, 18.14), RST and KEEP (Tables 9.13, 9.14, 17.11 to 17.15, R401). -/
def rowsSys : List RegRow := [
  roRow .chipId 0x0, actRow .temp 0x100, roRow .avs 0x108, winRow .trim 0x10000000 [(8, 512)],
  actRow .cause aCause [] 3, roRow .last 0x010000000008, wordRow 0x010000000010 1 0 [] 1 3,
  actRow .hostWdog 0x010000000018, roRow .strap 0x010000000020, roRow .seq 0x010000000028,
  actRow .clock aClock, roRow .foldIntake 0x010000000040, roRow .foldPot 0x010000000048,
  roRow .foldFlow 0x010000000050,
  roRow .keepStatus 0x020000000000, roRow .mirror 0x020000000100, ctrRow 0x020000000108,
  winRow .kitty 0x020010000000 [(8, 0x80000)] 3 ]

/-- DECK (Tables 2.4, 3.7 to 3.13, 16.2). -/
def rowsDeck : List RegRow := [
  actRow .deckStatus aDeckStatus, roRow .ident 0x030000000008, roRow .epoch 0x030000000010,
  roRow .inflight 0x030000000018, roRow .held 0x030000000020, roRow .fail 0x030000000028, roRow .keys 0x030000000030,
  actRow .contract aContract, winRow .segDir 0x030010000000 [(8, 64)] ]

/-- DLR (Tables 4.16 to 4.24, 16.2, 16.14; R95, R96, R380). -/
def rowsDlr : List RegRow := [
  wordRow aDlrCtl 0x1FFFFFFFFF dlrCtlReset [] 1 3, actRow .wdogLog aWdogLog, wordRow 0x040000000010 0x1FF 0 [] 1 2,
  roRow .dlrStatus 0x040000000018, actRow .dlrCtr 0x040000000020 [(8, 6)], actRow .ucodeLog aUcodeLog,
  winRow .store 0x040010000000 [(0x400000, 2), (0x80000, 8), (0x20, 16384), (8, 4)] 3,
  winRow .routine 0x040020000000 [(0x8000, 2), (0x1000, 8), (0x10, 256), (8, 2)] 3,
  { id := .perfLazy, kind := .act, base := 0x040030000000, dims := [(0x200, 288), (0x18, 2)], rl := 3, wl := 3 },
  { id := .ctr, kind := .counter, base := 0x040030000008, dims := [(0x200, 288), (8, 2)], rl := 3, wl := 3 },
  { id := .ctr, kind := .counter, base := 0x040030000020, dims := [(0x200, 288), (8, 12)], rl := 3, wl := 3 },
  { id := .perfCfg, kind := .act, base := 0x040030000080, dims := [(0x200, 288), (0x10, 8)], rl := 3, wl := 3 },
  wordRow 0x040030000088 0x3FFF3FFF 0 [(0x200, 288), (0x10, 8)] 3 3,
  { id := .ctr, kind := .counter, base := 0x040030000100, dims := [(0x200, 288)], rl := 3, wl := 3 },
  winRow .context 0x040040000000 [(0x4000, 288), (0x40, 256), (8, 8)] 3,
  ctrRow 0x040050000000 [(0x4000, 8), (0x10, 1024), (8, 2)] ]

/-- LANE and PORT (Tables 5.6 to 5.11, R119). -/
def rowsPort : List RegRow := [
  actRow .bringup 0x080000000000, roRow .laneStatus 0x080000100000 [(0x1000, 258)],
  actRow .laneTest 0x080000100008 [(0x1000, 258)], ctrRow 0x080000100010 [(0x1000, 258)],
  actRow .eyeCtl 0x080000100018 [(0x1000, 258)],
  { id := .word, kind := .ro, base := 0x080000100020, dims := [(0x1000, 258)] },
  roRow .adaptation 0x080000100100 [(0x1000, 258), (8, 32)],
  actRow .portCtl 0x090000100000 [(0x1000, 256)], roRow .portStatus 0x090000100008 [(0x1000, 256)],
  actRow .portMac 0x090000100010 [(0x1000, 256)] 3, actRow .portCtr 0x090000100400 [(0x1000, 256), (8, 35)] ]

/-- INTAKE (Tables 6.11 to 6.13, 16.2). -/
def rowsIntake : List RegRow := [
  wordRow 0x0C0000000000 0x1F 0 [] 1 2, actRow .handStatus 0x0C0000000008, ctrRow aLateLen,
  ctrRow 0x0C0000001000 [(0x40, 64), (8, 4)], roRow .tokens 0x0C0000001020 [(0x40, 64)],
  winRow .stateWin 0x0C0010000000 [(0x100000, 2), (0x200, 256), (8, 40)],
  winRow .formatWin 0x0C0020000000 [(0x10000, 2), (0x20, 128), (8, 4)],
  winRow .excWin 0x0C0030000000 [(0x1000, 2), (8, 64)],
  winRow .vector 0x0C0040000000 [(0x20000, 32), (0x200, 256), (8, 64)] ]

/-- MATCH, SHUF and POOL (Tables 7.9 to 7.11). -/
def rowsMatch : List RegRow := [
  roRow .moveStatus 0x0D0000000000, ctrRow aTieCount, actRow .rowLog aTieLast, ctrRow aSearches [(8, 3)],
  actRow .rowLog aRowErrLast, ctrRow aRowErr, winRow .rowWin 0x0D0010000000 [(0x80, 131072), (8, 16)],
  winRow .comparator 0x0D0020000000 [(0x10000, 2), (8, 8192)],
  winRow .shufEntry 0x0E0010000000 [(0x200000, 2), (0x8000, 64), (8, 4096)],
  winRow .shufHeader 0x0E0020000000 [(0x1000, 2), (0x40, 64), (8, 8)],
  roRow .fill 0x0F0000001000 [(8, 112)], winRow .poolByte 0x0F0010000000 [(8, 0xC00000)] ]

/-- FLOW, STOCK and TSK (Tables 8.8 to 8.11, 9.14, 9.15, 10.6 to 10.10, 16.2). -/
def rowsFlow : List RegRow := [
  { id := .seeds, kind := .ro, base := 0x100000000000, rl := 3 }, { id := .dkeyHi, kind := .ro, base := 0x100000000008, rl := 3 },
  { id := .dkeyLo, kind := .ro, base := 0x100000000010, rl := 3 }, { id := .seedC, kind := .ro, base := 0x100000000018, rl := 3 },
  roRow .lines 0x100000000020, ctrRow 0x100000000100 [(8, 13)], winRow .line 0x100010000000 [(0x40, 0x300000), (8, 8)],
  winRow .fsmCell 0x100020000000 [(0x20000, 2), (0x2000, 16), (8, 1024)],
  actRow .stockStatus 0x110000000000, ctrRow 0x110000000100 [(8, 3)], winRow .stockSlot 0x110010000000 [(0x100, 65536), (8, 32)],
  roRow .tskStatus 0x140000000000, roRow .tskStatus2 0x140000000008, wordRow aTskLevels 0x7FFF tskLevelsReset [] 1 2,
  wordRow aTskTrace 0x3FFFFFF 0 [] 1 2, actRow .levelDepth 0x140000000040 [(8, 8)], actRow .listCfg 0x140000000100 [(8, 16)],
  ctrRow 0x140000000200 [(8, 10)], winRow .entry 0x140010000000 [(8, 262144)] ]

/-- FAB, POT and TM (Tables 11.11 to 11.16, 12.5 to 12.9, 16.2). -/
def rowsTm : List RegRow := [
  wordRow 0x180000000000 0x1F 0 [] 1 2, roRow .fabStatus 0x180000000008, ctrRow 0x180000000100 [(0x40, 4), (8, 5)],
  wordRow 0x190000000000 0xFFF 0xC8 [] 1 2, wordRow 0x190000000008 0x1F 0 [] 1 2, roRow .potStatus 0x190000000010,
  ctrRow 0x190000000100 [(0x40, 32), (8, 6)], winRow .reseqPair 0x190010000000 [(0x1000, 32), (0x80, 32)],
  winRow .queueStatus 0x190020000000 [(0x40, 65536)], ctrRow 0x190020000008 [(0x40, 65536), (8, 5)],
  winRow .queuePtr 0x190020000030 [(0x40, 65536)], winRow .potCell 0x190030000000 [(0x800000, 32), (0x100, 32768), (8, 32)],
  winRow .cellLink 0x190040000000 [(0x40000, 32), (8, 32768)],
  actRow .shaperCfg 0x1A0000000040, ctrRow 0x1A0000000100 [(8, 3)], actRow .sgroup 0x1A0000000200 [(8, 16)],
  roRow .qRate 0x1A0010000000 [(0x80, 65536)], actRow .qCfg 0x1A0010000008 [(0x80, 65536)],
  actRow .qCurve 0x1A0010000010 [(0x80, 65536)], roRow .qTokens 0x1A0010000018 [(0x80, 65536)],
  roRow .qDeficit 0x1A0010000020 [(0x80, 65536)], roRow .qAvg 0x1A0010000028 [(0x80, 65536)],
  ctrRow 0x1A0010000040 [(0x80, 65536), (8, 5)],
  roRow .gRate 0x1A0020000000 [(0x20, 8192)], actRow .gCfg 0x1A0020000008 [(0x20, 8192)],
  roRow .gTokens 0x1A0020000010 [(0x20, 8192)], roRow .gDeficit 0x1A0020000018 [(0x20, 8192)],
  roRow .pRate 0x1A0030000000 [(0x20, 256)], actRow .pCfg 0x1A0030000008 [(0x20, 256)],
  roRow .pTokens 0x1A0030000010 [(0x20, 256)], roRow .pZero 0x1A0030000018 [(0x20, 256)],
  actRow .polCfg0 0x1A0040000000 [(0x20, 65536)], actRow .polCfg1 0x1A0040000008 [(0x20, 65536)],
  roRow .polTokens 0x1A0040000010 [(0x20, 65536)], ctrRow 0x1A0040000018 [(0x20, 65536)],
  roRow .curve 0x1A0050000000 [(0x8000, 2), (0x80, 256), (8, 16)] ]

/-- TIME (Tables 13.8 to 13.12). -/
def rowsTime : List RegRow := [
  roRow .timeStatus 0x1C0000000000, roRow .nowS 0x1C0000000008, roRow .nowNs 0x1C0000000010, roRow .rate 0x1C0000000018,
  wordRow aRateTarget 0x800000FFFFFFFFFF 0 [] 1 2, roRow .phase 0x1C0000000028, actRow .gateLate aGateLate,
  roRow .utc 0x1C0000000038, roRow .utcAt 0x1C0000000040, ctrRow 0x1C0000000100 [(8, 4)],
  roRow .instance_ 0x1C0010000000 [(0x40, 256)], ctrRow 0x1C0010000008 [(0x40, 256), (8, 4)],
  wordRow 0x1C0020000000 0xFFFFFFFF 0 [(0x10, 256), (8, 2)] 1 3,
  actRow .unicast 0x1C0030000000 [(0x20, 4096)], wordRow 0x1C0030000008 0xFFFFFFFFFFFFFFFF 0 [(0x20, 4096), (8, 2)] 1 2,
  winRow .gateList 0x1C0040000000 [(0x400000, 2), (0x1000, 1024), (8, 512)] ]

/-- HBM (Tables 14.3 to 14.6). -/
def rowsHbm : List RegRow := [
  actRow .hbmStatus aHbmStatus, actRow .grain aGrain0 [(8, 2)] 3, actRow .retrain 0x200000000018 [] 3,
  actRow .errLast aHbmErr, wordRow aHbmSelect 0x3 0 [] 1 2, actRow .queueSt 0x200000000030,
  ctrRow 0x200000000100 [(0x40, 4), (8, 5)],
  winRow .training 0x200010000000 [(0x10000, 4), (0x1000, 16), (0x40, 10)] ]

/-- ZAT (Tables 15.12 to 15.15). -/
def rowsZat : List RegRow := [
  roRow .zatStatus 0x240000000000, roRow .zatKeys 0x240000000008, ctrRow 0x240000000100 [(0x100, 2), (8, 16)],
  roRow .keyId 0x240000001000 [(8, 16)], actRow .vkey 0x240000002000 [(0x40, 8), (8, 4)] 3,
  actRow .vkeyCtl 0x240000002020 [(0x40, 8)] 3, roRow .session 0x240000100100 [(0x100, 64), (8, 3)] ]

/-- OBS (Tables 1.11, 1.12, 2.9 to 2.12, 16.2, 16.7, 16.8; R380). -/
def rowsObs : List RegRow := [
  wordRow 0x280000000100 0xFF 0 [] 1 2, actRow .xqStatus 0x280000000108, actRow .confCtl aConfCtl, roRow .confLatch aConfLatch,
  roRow .confWord 0x280000000210 [(8, 6)], wordRow aPerfSample 0x3FFF 0 [] 3 3,
  roRow .dumpStatus 0x280000000400 [(0x10, 8)], ctrRow 0x280000000408 [(0x10, 8)],
  roRow .ringPtr 0x280010000000 [(0x20, 8192)], roRow .ringUsed 0x280010000008 [(0x20, 8192)],
  ctrRow 0x280010000010 [(0x20, 8192)], roRow .ringLayout 0x280010000018 [(0x20, 8192)],
  winRow .peek 0x280020000000 [(0x100000, 143), (0x100, 4096), (8, 32)] ]

/-- The rows of a block; none where the block id is unassigned (Table 1.8). -/
def blockRows (b : Nat) : Option (List RegRow) :=
  match b with
  | 0x00 | 0x01 | 0x02 => some rowsSys
  | 0x03 => some rowsDeck
  | 0x04 => some rowsDlr
  | 0x08 | 0x09 => some rowsPort
  | 0x0C => some rowsIntake
  | 0x0D | 0x0E | 0x0F => some rowsMatch
  | 0x10 | 0x11 | 0x14 => some rowsFlow
  | 0x18 | 0x19 | 0x1A => some rowsTm
  | 0x1C => some rowsTime
  | 0x20 => some rowsHbm
  | 0x24 => some rowsZat
  | 0x28 => some rowsObs
  | _ => none

/-- The register or window word at an assigned address. -/
def regAt (a : Nat) : Option (RegRow × List Nat) := (blockRows (a / 2 ^ 40)).bind fun rows => rowFind rows a

end Sys2Proof.Machine
end

