-- ==== Sys2Proof/Machine/Crypto.lean ====
section
/-!
DEFINITION. The digests and signatures the part computes: SHA-256, SHA-384 and SHA-512 (FIPS 180-4), HMAC-SHA-256
(RFC 2104), Ed25519 verification with the cofactored equation (RFC 8032, R50), and ECDSA over P-384 (FIPS 186-5)
(03_deck.md R44, R50; 15_zatas_control_protocol.md R338, R340).
-/
namespace Sys2Proof.Machine

open Sys2Proof

/-! ## SHA-2 -/

/-- The first eighty primes, from which FIPS 180-4 takes its constants. -/
def primes80 : List Nat :=
  [2, 3, 5, 7, 11, 13, 17, 19, 23, 29, 31, 37, 41, 43, 47, 53, 59, 61, 67, 71, 73, 79, 83, 89, 97, 101, 103, 107, 109,
   113, 127, 131, 137, 139, 149, 151, 157, 163, 167, 173, 179, 181, 191, 193, 197, 199, 211, 223, 227, 229, 233, 239]
  ++ [241, 251, 257, 263, 269, 271, 277, 281, 283, 293, 307, 311, 313, 317, 331, 337, 347, 349, 353, 359, 367, 373, 379,
   383, 389, 397, 401, 409]

/-- The greatest `r` with `r ^ k ≤ n`, bit by bit from bit `b - 1` down. -/
def rootGo (b k n r : Nat) : Nat :=
  match b with
  | 0 => r
  | c + 1 => rootGo c k n (if (r + 2 ^ c) ^ k ≤ n then r + 2 ^ c else r)

/-- The first 64 bits of the fractional part of the `k`-th root of `p`. -/
def rootFrac (k p : Nat) : Nat := rootGo 70 k (p * 2 ^ (64 * k)) 0 % 2 ^ 64

/-- One member of SHA-2: word size, rounds, the rotations of Σ0, Σ1, σ0 and σ1, constants and initial hash. -/
structure Sha where
  w  : Nat
  s0 : Nat × Nat × Nat
  s1 : Nat × Nat × Nat
  r0 : Nat × Nat × Nat
  r1 : Nat × Nat × Nat
  k  : List Nat
  h  : List Nat
deriving DecidableEq, Repr

def sha256P : Sha :=
  ⟨32, (2, 13, 22), (6, 11, 25), (7, 18, 3), (17, 19, 10), (primes80.take 64).map fun p => rootFrac 3 p / 2 ^ 32,
   (primes80.take 8).map fun p => rootFrac 2 p / 2 ^ 32⟩
def sha512P : Sha :=
  ⟨64, (28, 34, 39), (14, 18, 41), (1, 8, 7), (19, 61, 6), primes80.map (rootFrac 3), (primes80.take 8).map (rootFrac 2)⟩
def sha384P : Sha := { sha512P with h := ((primes80.drop 8).take 8).map (rootFrac 2) }

def rotr (w n x : Nat) : Nat := x / 2 ^ n + x % 2 ^ n * 2 ^ (w - n)

/-- Σ: three rotations. -/
def bigSigma (w : Nat) (a : Nat × Nat × Nat) (x : Nat) : Nat := rotr w a.1 x ^^^ rotr w a.2.1 x ^^^ rotr w a.2.2 x
/-- σ: two rotations and a shift. -/
def smallSigma (w : Nat) (a : Nat × Nat × Nat) (x : Nat) : Nat := rotr w a.1 x ^^^ rotr w a.2.1 x ^^^ (x / 2 ^ a.2.2)

/-- The message schedule, newest word first, extended by `n` words. -/
def shaSched (p : Sha) (n : Nat) (ws : List Nat) : List Nat :=
  match n with
  | 0 => ws
  | k + 1 =>
    let w := (smallSigma p.w p.r1 (nth ws 1 0) + nth ws 6 0 + smallSigma p.w p.r0 (nth ws 14 0) + nth ws 15 0) % 2 ^ p.w
    shaSched p k (w :: ws)

/-- The rounds over schedule and constants; the state is a to h. -/
def shaRounds (p : Sha) (kw : List (Nat × Nat)) (v : List Nat) : List Nat :=
  match kw, v with
  | (k, w) :: r, [a, b, c, d, e, f, g, h] =>
    let m := 2 ^ p.w
    let ch := (e &&& f) ^^^ ((m - 1 - e) &&& g)
    let maj := (a &&& b) ^^^ (a &&& c) ^^^ (b &&& c)
    let t1 := h + bigSigma p.w p.s1 e + ch + k + w
    let t2 := bigSigma p.w p.s0 a + maj
    shaRounds p r [(t1 + t2) % m, a, b, c, (d + t1) % m, e, f, g]
  | _, _ => v

def shaBlock (p : Sha) (h : List Nat) (block : List Byte) : List Nat :=
  let ws := (chunks (p.w / 8) block).map ofBytes
  let sched := (shaSched p (p.k.length - 16) ws.reverse).reverse
  (h.zip (shaRounds p (p.k.zip sched) h)).map fun x => (x.1 + x.2) % 2 ^ p.w

/-- Pad a message: 0x80, zeros, and its bit length in two words. -/
def shaPad (p : Sha) (msg : List Byte) : List Byte :=
  let b := p.w * 2
  let z := (b - (msg.length + 1 + p.w / 4) % b) % b
  msg ++ [0x80] ++ List.replicate z 0 ++ toBytes (p.w / 4) (8 * msg.length)

def shaDigest (p : Sha) (n : Nat) (msg : List Byte) : List Byte :=
  (((chunks (p.w * 2) (shaPad p msg)).foldl (shaBlock p) p.h).flatMap (toBytes (p.w / 8))).take n

def sha256 (msg : List Byte) : List Byte := shaDigest sha256P 32 msg
def sha384 (msg : List Byte) : List Byte := shaDigest sha384P 48 msg
def sha512 (msg : List Byte) : List Byte := shaDigest sha512P 64 msg

/-- HMAC-SHA-256 of a key of at most 64 B (RFC 2104). -/
def hmacSha256 (key msg : List Byte) : List Byte :=
  let k := slice key 0 64
  sha256 (k.map (· ^^^ 0x5C) ++ sha256 (k.map (· ^^^ 0x36) ++ msg))

/-! ## Arithmetic modulo a prime -/

/-- `x ^ e` modulo `m`; `n` bounds the bits of `e`. -/
def powMod (n x e m : Nat) : Nat :=
  match n with
  | 0 => 1 % m
  | k + 1 =>
    let h := powMod k (x * x % m) (e / 2) m
    if e % 2 = 1 then x * h % m else h

/-- The inverse modulo a prime below 2^384 (0 for 0). -/
def invMod (x m : Nat) : Nat := powMod 384 x (m - 2) m

def subMod (a b m : Nat) : Nat := (a + m - b % m) % m

/-! ## Ed25519 (RFC 8032) -/

def edP : Nat := 2 ^ 255 - 19
def edL : Nat := 2 ^ 252 + 27742317777372353535851937790883648493
def edD : Nat := subMod 0 (121665 * invMod 121666 edP) edP

/-- Addition on the twisted Edwards curve; the formulas are complete. -/
def edAdd (a b : Nat × Nat) : Nat × Nat :=
  let t := edD * (a.1 * b.1 % edP) % edP * (a.2 * b.2 % edP) % edP
  ((a.1 * b.2 + b.1 * a.2) * invMod (1 + t) edP % edP,
   (a.2 * b.2 + a.1 * b.1) * invMod (subMod 1 t edP) edP % edP)

def edMul (n k : Nat) (a : Nat × Nat) : Nat × Nat :=
  match n with
  | 0 => (0, 1)
  | c + 1 =>
    let h := edMul c (k / 2) (edAdd a a)
    if k % 2 = 1 then edAdd a h else h

/-- Least significant byte first, as RFC 8032 writes numbers. -/
def leOf (bs : List Byte) : Nat := ofBytes bs.reverse

/-- Decode a point; none where the encoding is not canonical or names no point. -/
def edDecode (bs : List Byte) : Option (Nat × Nat) :=
  let v := leOf bs
  let y := v % 2 ^ 255
  let sign := v / 2 ^ 255
  if edP ≤ y then none
  else
    let u := subMod (y * y) 1 edP
    let w := (edD * (y * y % edP) + 1) % edP
    let x := u * powMod 384 w 3 edP % edP * powMod 384 (u * powMod 384 w 7 edP % edP) ((edP - 5) / 8) edP % edP
    let x := if w * (x * x % edP) % edP = u then some x
      else
        let x2 := x * powMod 384 2 ((edP - 1) / 4) edP % edP
        if w * (x2 * x2 % edP) % edP = u then some x2 else none
    match x with
    | none => none
    | some x => if x = 0 && sign = 1 then none else some (if x % 2 = sign then x else edP - x, y)

def edBase : Nat × Nat :=
  let y := 4 * invMod 5 edP % edP
  (edDecode (toBytes 32 y).reverse).getD (0, 1)

/-- Pure Ed25519 with the cofactored equation (R50). -/
def edVerify (key msg sig : List Byte) : Bool :=
  let rb := sig.take 32
  let sv := leOf ((sig.drop 32).take 32)
  match edDecode key, edDecode rb with
  | some a, some r =>
    let k := leOf (sha512 (rb ++ key ++ msg)) % edL
    decide (sv < edL) && edMul 4 8 (edMul 253 sv edBase) == edAdd (edMul 4 8 r) (edMul 4 8 (edMul 253 k a))
  | _, _ => false

/-! ## ECDSA over P-384 (FIPS 186-5) -/

def p384P : Nat := 2 ^ 384 - 2 ^ 128 - 2 ^ 96 + 2 ^ 32 - 1
def p384N : Nat := 0xFFFFFFFFFFFFFFFFFFFFFFFFFFFFFFFFFFFFFFFFFFFFFFFFC7634D81F4372DDF581A0DB248B0A77AECEC196ACCC52973
def p384B : Nat := 0xB3312FA7E23EE7E4988E056BE3F82D19181D9C6EFE8141120314088F5013875AC656398D8A2ED19D2A85C8EDD3EC2AEF
def p384G : Nat × Nat :=
  (0xAA87CA22BE8B05378EB1C71EF320AD746E1D3B628BA79B9859F741E082542A385502F25DBF55296C3A545E3872760AB7,
   0x3617DE4A96262C6F5D9E98BF9292DC29F8F41DBD289A147CE9DA3113B5F0B8C00A60B1CE1D7E819D7A431D7C90EA0E5F)

/-- Addition on P-384; none is the point at infinity. -/
def ecAdd (a b : Option (Nat × Nat)) : Option (Nat × Nat) :=
  match a, b with
  | none, q => q
  | q, none => q
  | some (x1, y1), some (x2, y2) =>
    if x1 = x2 && (y1 + y2) % p384P = 0 then none
    else
      let l := if x1 = x2 then subMod (3 * x1 * x1) 3 p384P * invMod (2 * y1 % p384P) p384P % p384P
        else subMod y2 y1 p384P * invMod (subMod x2 x1 p384P) p384P % p384P
      let x3 := subMod (l * l) (x1 + x2) p384P
      some (x3, subMod (l * subMod x1 x3 p384P) y1 p384P)

def ecMul (n k : Nat) (a : Option (Nat × Nat)) : Option (Nat × Nat) :=
  match n with
  | 0 => none
  | c + 1 =>
    let h := ecMul c (k / 2) (ecAdd a a)
    if k % 2 = 1 then ecAdd a h else h

/-- ECDSA with SHA-384; the key is x then y, the signature r then s, 48 B each (R50). -/
def ecdsaVerify (key msg sig : List Byte) : Bool :=
  let x := ofBytes (key.take 48)
  let y := ofBytes ((key.drop 48).take 48)
  let r := ofBytes (sig.take 48)
  let sv := ofBytes ((sig.drop 48).take 48)
  let onCurve := x < p384P && y < p384P && (x * x % p384P * x + subMod p384B (3 * x) p384P) % p384P = y * y % p384P
  if onCurve && 0 < r && r < p384N && 0 < sv && sv < p384N then
    let w := invMod sv p384N
    let e := ofBytes (sha384 msg)
    match ecAdd (ecMul 384 (e * w % p384N) (some p384G)) (ecMul 384 (r * w % p384N) (some (x, y))) with
    | some q => q.1 % p384N == r
    | none => false
  else false

end Sys2Proof.Machine
end

