-- ==== Sys2Proof/Machine/ZatCfg.lean ====
section
/-!
DEFINITION. The ZATAS body, key slots and sessions as the control ports read them (15_zatas_control_protocol.md R339 to R342, R360).
-/
namespace Sys2Proof.Machine

open Sys2Proof

/-- A field of the ZATAS body (Table 15.10). -/
def zatF (s : State) (off n : Nat) : Nat := coldF s tyZatas off n

/-- UDP_PORT in force; 48,650 before a deck and for 0. -/
def udpPort (s : State) : Nat := if zatF s 0 2 = 0 then 48650 else zatF s 0 2
/-- IDLE_S, MAX_SESSIONS and MAX_PRIVILEGED, with their values before a deck. -/
def idleS (s : State) : Nat := if hasDeck s then zatF s 2 1 else 10
def maxSessions (s : State) : Nat := if hasDeck s then zatF s 3 1 else 64
def maxPrivileged (s : State) : Nat := if hasDeck s then zatF s 4 1 else 2

def KeySlot.empty : KeySlot := ⟨[], 0⟩

/-- Key slot `k`: 0 to 7 fused, 8 to 15 volatile (R341). -/
def keySlot (s : State) (k : Nat) : KeySlot :=
  if k < 8 then kgetD s.fuses.zatKeys k KeySlot.empty
  else if k < 16 then kgetD s.zat.vkeys (k - 8) KeySlot.empty else KeySlot.empty

/-- The level of a slot after ENABLE and LEVEL_CAP; 0 when empty or disabled (R341). -/
def slotLevel (s : State) (k : Nat) : Nat :=
  let own := (keySlot s k).level
  if hasDeck s then
    let c := zatF s (8 + k) 1
    if bit c 7 then min own (c % 4) else 0
  else own

def Session.free : Session where
  state := .free
  level := 0
  slot := 0
  enc := Encap.none
  next := 0
  hack := 0
  sack := 0
  stream := 0
  np := []
  ks := []
  order := 0
  lastClk := 0
  rx := []
  kept := []
  exec := none
  ackDue := false

def sessOf (s : State) (n : Nat) : Session := kgetD s.zat.sessions n Session.free
def setSess (s : State) (n : Nat) (x : Session) : State := { s with zat := { s.zat with sessions := kset s.zat.sessions n x } }
def isOpen (s : State) (n : Nat) : Bool := (sessOf s n).state == .opened
def countSess (s : State) (st : SessSt) : Nat := (s.zat.sessions.filter fun e => e.2.state == st).length
def countPriv (s : State) : Nat := (s.zat.sessions.filter fun e => e.2.state == .opened && e.2.level == 3).length

/-- Control-port counter `i` (Table 15.15). -/
def aZatCtr (cp i : Nat) : Nat := 0x240000000100 + cp * 0x100 + 8 * i

/-- The strap selects UDP (Table 17.3). -/
def zatUdp (s : State) : Bool := bit s.rst.strap 0

end Sys2Proof.Machine
end

