-- ==== Sys2Proof/Machine/Derived.lean ====
section
/-!
DEFINITION. What every register and window reads: the stored word, or the word its table makes of the state
(the Registers sections of every chapter; 16_observability.md R362 to R364, Table 16.2).
Log entries: 12, 20, 36, 47.
-/
namespace Sys2Proof.Machine

open Sys2Proof

/-- Word `w` of an item of bytes, most significant byte first; bytes past its end read 0. -/
def word8 (bs : List Byte) (w : Nat) : Nat := fld bs (8 * w) 8

/-! ## TOP, RST, KEEP -/

/-- TOP.CHIP_ID (Table 0.5). -/
def chipId (s : State) : Nat :=
  0x4F52 * 2 ^ 48 + 0x5120 * 2 ^ 32 + 1 * 2 ^ 28 + 1 * 2 ^ 24 + s.fuses.grade % 16 * 2 ^ 20

/-- TOP.TEMP (Table 18.13). -/
def tempReg (s : State) : Nat :=
  ((enum 0 s.temps).map fun x => x.2.toNat * 2 ^ (8 * x.1)).sum + s.peak.toNat * 2 ^ 40 + b2n s.tempOk * 2 ^ 49

def foldCode (f : FoldSt) : Nat := match f with | .open_ => 0 | .folding => 1 | .folded => 2

/-- Two bits for each of 32 units. -/
def foldMap (m : KMap FoldSt) : Nat := (m.map fun e => foldCode e.2 * 2 ^ (2 * e.1)).sum

def aHostWdog : Nat := 0x010000000018
def aRstCtl : Nat := 0x010000000010
/-- RST.HOST_WDOG.PERIOD. -/
def wdogPeriod (s : State) : Nat := regRaw s aHostWdog 0 % 2 ^ 32

def lastReg (s : State) : Nat := s.rst.lastLevel % 4 + s.rst.lastSrc % 8 * 4 + s.rst.lastTime % 2 ^ 40 * 2 ^ 24
def seqReg (s : State) : Nat := s.rst.step % 16 + b2n s.rst.trimRetry * 2 ^ 4 + s.rst.elapsed % 2 ^ 32 * 2 ^ 32
def clockReg (s : State) : Nat := s.rst.good % 2 ^ 25 + s.rst.failed % 2 ^ 25 * 2 ^ 32
def keepReg (s : State) : Nat :=
  s.keep.restore % 4 + b2n s.keep.armed * 4 + b2n s.keep.imageB * 8 + s.keep.seq % 2 ^ 32 * 2 ^ 32
def mirrorReg (s : State) : Nat :=
  s.keep.slots.length % 2 ^ 15 + s.keep.restored % 2 ^ 15 * 2 ^ 15 + b2n s.keep.skipped * 2 ^ 30

/-! ## DECK -/

def deckStateCode (d : DeckPhase) : Nat := match d with
  | .empty => 0 | .loading => 1 | .active => 2 | .hotPending => 3 | .retiring => 4 | .redealing => 5

/-- DECK.STATUS (Table 3.7). -/
def deckStatusReg (s : State) : Nat :=
  deckStateCode s.deck.phase + b2n s.deck.stagedOk * 2 ^ 3 + s.deck.source % 4 * 2 ^ 4 + b2n s.deck.upperActive * 2 ^ 6
  + b2n s.deck.fallback * 2 ^ 7 + b2n s.deck.failSticky * 2 ^ 8 + s.deck.commits % 2 ^ 16 * 2 ^ 16

/-- DECK.EPOCH (Table 3.9). -/
def epochReg (s : State) : Nat :=
  s.deck.number % 2 ^ 32 + b2n s.deck.current * 2 ^ 32 + b2n s.deck.retiring * 2 ^ 33
  + (if s.deck.retiring then min (ones 24) ((s.clk - s.deck.switchClk) / usClk) else 0) * 2 ^ 40

def inflightReg (s : State) : Nat := s.deck.inflight0 % 2 ^ 24 + s.deck.inflight1 % 2 ^ 24 * 2 ^ 24
def heldReg (s : State) : Nat := s.deck.held0 % 2 ^ 16 + s.deck.held1 % 2 ^ 16 * 2 ^ 16

/-- DECK.FAIL (Table 3.12). -/
def failReg (s : State) : Nat :=
  let f := s.deck.fail
  f.code % 256 + f.segIndex % 256 * 2 ^ 8 + f.segType % 256 * 2 ^ 16 + f.detail % 2 ^ 16 * 2 ^ 24 + f.source % 4 * 2 ^ 40

/-- DECK.KEYS (Table 3.13). -/
def deckKeysReg (s : State) : Nat := (s.fuses.deckKeys.map fun e => e.2.alg % 4 * 2 ^ (2 * e.1)).sum

/-- DECK.CONTRACT (Table 2.4). -/
def contractReg (s : State) : Nat :=
  s.deck.contract % 16 + s.deck.geometry % 4 * 2 ^ 4 + b2n (mayCut s) * 2 ^ 6 + b2n (mayPark s) * 2 ^ 7 + potMib s * 2 ^ 8
  + cacheMib s * 2 ^ 17 + banks s * 2 ^ 26 + rateCap s * 2 ^ 32 + powerMax s * 2 ^ 40 + b2n s.deck.tableCleared * 2 ^ 50

/-- Window offset of the active deck area, and of the staging area (R53). -/
def deckArea (s : State) (staging : Bool) : Nat := if s.deck.upperActive != staging then 0x17FE000000 else 0x17FC000000

/-- Offset of segment `i`'s header in the image at `base`, walking from offset 0x80 (R45). -/
def segOff (s : State) (base i : Nat) : Nat :=
  iter i 0 (fun o _ => o + 32 + cdiv (memNat s.hbm (base + o + 4) 4) 32 * 32) 0x80

/-- The segment directory (Table 16.2): segments of the active image. -/
def segDirWord (s : State) (i : Nat) : Nat :=
  let base := deckArea s false
  if hasDeck s && i < memNat s.hbm (base + 0x1C) 2 then
    let o := segOff s base i
    memNat s.hbm (base + o) 1 + memNat s.hbm (base + o + 1) 1 % 2 * 2 ^ 8 + o * 2 ^ 9
    + memNat s.hbm (base + o + 4) 4 % 2 ^ 25 * 2 ^ 34 + 2 ^ 63
  else 0

/-! ## DLR -/

def dlrSelect (s : State) : Nat := regRaw s 0x040000000010 0 % 512

/-- DLR.STATUS of dealer `d` (Table 4.18). -/
def dlrStatusOf (s : State) (d : Nat) : Nat :=
  let ts := tricksOf s d
  let waiting := (ts.filter fun e => !e.2.ended && e.2.readyAt ≤ s.clk && !mayIssue s d e.2).length
  let stall := match handoffTrick s d with | some x => nextRefuses s d x.2 | none => false
  if 288 ≤ d then 0
  else ts.length + waiting * 2 ^ 9 + (if 224 ≤ d && hasDeck s then inTake s d else 0) * 2 ^ 18 + b2n stall * 2 ^ 27

/-- Bytes 0 to 31 of a trick context and its result slots (Tables 4.2, 16.2). Bytes 24 to 31 hold the fields of Table
4.2 in its order from the most significant bit down (assumption 20, DEDUCED). -/
def contextWord (s : State) (d c w : Nat) : Nat :=
  match trickAt s d c with
  | none => 0
  | some t =>
    if w < 3 then (nth t.g (2 * w) 0).toNat * 2 ^ 32 + (nth t.g (2 * w + 1) 0).toNat
    else if w = 3 then
      let pos := fun i => nth t.pos i 0 % 64
      let fl := b2n t.z * 8 + b2n t.n * 4 + b2n t.c * 2 + b2n t.v
      let pend := ((List.range 4).map fun i => b2n (khas t.pend i) * 2 ^ (3 - i)).sum
      t.addr % 2 ^ 14 * 2 ^ 50 + t.tf.toNat * 2 ^ 42 + fl * 2 ^ 38 + pend * 2 ^ 34
      + (pos 0 * 2 ^ 18 + pos 1 * 2 ^ 12 + pos 2 * 2 ^ 6 + pos 3) * 2 ^ 10
      + b2n t.committed * 2 ^ 9 + b2n t.slot * 2 ^ 8 + b2n t.avfen * 2 ^ 7 + t.restarts % 16 * 2 ^ 3 + b2n t.preempted * 2 ^ 2
    else (nth t.ls (w - 4) 0).toNat

/-- A control-store word in its window (Table 4.21). -/
def storeWinWord (s : State) (e : Bool) (stage addr w : Nat) : Nat :=
  let m := storeWord s e stage addr
  match w with
  | 0 => bits m 159 128
  | 1 => bits m 127 64
  | 2 => bits m 63 0
  | _ => 0

def routineWord (s : State) (e : Bool) (stage n w : Nat) : Nat := match routineOff s e stage n with
  | some o => hotF s e tyRoutines (o + 8 * w) 8
  | none => 0

/-! ## LANE, PORT, INTAKE -/

/-- The lane's transmit and receive half runs from reference B (R102, Table 5.4). -/
def refB (s : State) (l : Nat) : Bool :=
  let d := l / 32
  let sel := bit (coldF s tyClocks (l / 4) 1) 2
  let good := bit s.rst.good (8 + 2 * d + b2n sel)
  lanesMapped s && l < 256 && (if !good && bit (coldF s tyClocks (128 + d) 1) 0 then !sel else sel)

/-- A port that physical lane `l` receives for is up (R101). -/
def laneUp (s : State) (l : Nat) : Bool :=
  if l = 256 then s.zat.link0 else if l = 257 then s.zat.link1
  else (rxLogical s l).any fun i => match ownerPort s i with | some p => (portOf s p).up | none => false

/-- The lane has been started: its receiver is not ignored (R115). -/
def laneStarted (s : State) (l : Nat) : Bool :=
  256 ≤ l || (lanesMapped s && !s.rst.goHeld && !s.rst.groupsDue.contains (l / 16)
    && (rxLogical s l).any fun i => (ownerPort s i).isSome)

/-- Lane STATUS (Table 5.7). A started lane that carries no link shows what its receiver finds: bits from outside the
part, free values here (assumption 3, DESIGN CHOICE), not all of them set. -/
def laneStatusReg (s : State) (l : Nat) : Nat :=
  (if laneUp s l then 15 else if laneStarted s l then (Config.freeWord s.fresh).toNat % 15 else 0) + b2n (refB s l) * 2 ^ 4

/-- PORT.STATUS (Table 5.9). -/
def portStatusReg (s : State) (p : Nat) : Nat :=
  if isPort s p then
    let x := portOf s p
    let paused := (x.paused.map fun e => 2 ^ e.1).sum
    b2n x.up + laneMode s p * 2 + x.anState % 4 * 2 ^ 6 + x.xoff.toNat * 2 ^ 8 + paused % 256 * 2 ^ 16
    + portOcc s p % 4096 * 2 ^ 24 + lossyOcc s p % 4096 * 2 ^ 36
  else 0

/-- INTAKE.HAND_STATUS of hand `h` (Table 6.11). -/
def handStatusOf (s : State) (h : Nat) : Nat :=
  let w := walksBusy s h
  w % 64 + max w (kgetD s.walkHw h 0) % 64 * 2 ^ 6
  + b2n (walkUnits ≤ w && (!(kgetD s.rb h []).isEmpty || !(kgetD s.recircq h []).isEmpty)) * 2 ^ 13

def tokensOf (s : State) (r : Nat) : Nat := bucketNow s (curSlot s) r / tokenUnit % 256

/-- A word of a parse state's entry and its 16 rows (Tables 6.1, 6.13). -/
def stateWord (s : State) (e : Bool) (st w : Nat) : Nat :=
  match stateOff s e st with
  | some o =>
    let n := 64 + 16 * hotF s e tyParse (o + 2) 1
    if 8 * w < n then hotF s e tyParse (o + 8 * w) 8 else 0
  | none => 0

def formatWord (s : State) (e : Bool) (id w : Nat) : Nat := match formatOff s e id with
  | some o => hotF s e tyFormats (o + 8 * w) 8
  | none => 0

/-- A word of a packet vector: carried half, then key half (Table 16.2). -/
def vectorWord (s : State) (h v w : Nat) : Nat := match getPkt s (vecKey h v) with
  | some p => if w < 32 then word8 p.cv w else word8 p.kv (w - 32)
  | none => 0

/-! ## MATCH, FLOW, STOCK, TSK -/

/-- Steps of a move still to run: from its free row to the target. -/
def moveLeft (m : Move) : Nat := match m.hole with
  | some f => if m.at_ ≤ f then f - m.at_ else m.at_ - 1 - f
  | none => 0

/-- Index at which the new row of a move will be written. -/
def moveTarget (m : Move) : Nat := match m.hole with
  | some f => if m.at_ ≤ f then m.at_ else m.at_ - 1
  | none => m.at_

/-- MATCH.MOVE_STATUS (Table 7.9). -/
def moveReg (s : State) : Nat :=
  match s.moves with
  | [] => 0
  | m :: rest =>
    if m.hole.isSome then
      1 + m.table % 128 * 2 + moveTarget m % 2 ^ 17 * 2 ^ 8 + moveLeft m % 2 ^ 17 * 2 ^ 25 + rest.length % 2 ^ 16 * 2 ^ 42
    else (rest.length + 1) % 2 ^ 16 * 2 ^ 42

/-- A word of the row window (Table 7.11). -/
def rowWord (s : State) (i w : Nat) : Nat := match kget s.rows i with
  | none => 0
  | some r =>
    if w = 0 then b2n r.v0 + b2n r.v1 * 2 + r.trump % 2 ^ 16 * 2 ^ 16 + r.result % 2 ^ 20 * 2 ^ 32
    else if w < 6 then bits r.value (64 * (6 - w) - 1) (64 * (5 - w))
    else if w < 11 then bits r.mask (64 * (11 - w) - 1) (64 * (10 - w))
    else 0

def lstateCode (l : LState) : Nat := match l with | .free => 0 | .record => 1 | .pending => 2 | .absent => 3

/-- The bytes of a cache line (Table 8.6). The fetch state of a PENDING line is free values; the hint of an ABSENT one stands in
the first word after the header (assumption 20, DEDUCED). -/
def lineBytes (s : State) (n : Nat) : List Byte :=
  let l := lineOf s n
  let hint := match l.hint with | some h => 2 ^ 31 + h | none => 0
  let body := match l.lstate with
    | .record => (hotWords s).map fun w => (nth l.words w 0).toNat
    | .pending => (List.range 12).map fun i => (Config.freeWord (s.fresh + 16 * n + i)).toNat % 2 ^ 32
    | _ => [hint]
  slice (toBytes 12 l.digest
    ++ toBytes 4 (l.index % 2 ^ 27 * 32 + lstateCode l.lstate * 8 + b2n l.dirty * 4 + b2n l.provisional * 2)
    ++ body.flatMap (toBytes 4)) 0 64

/-- FLOW.LINES (Table 8.9). -/
def linesReg (s : State) : Nat :=
  let n := fun (p : Line → Bool) => (s.lines.filter fun e => p e.2).length
  n (fun l => l.lstate == .record) % 2 ^ 22 + n (fun l => l.lstate == .pending || l.lstate == .absent) % 2 ^ 18 * 2 ^ 22
  + n (fun l => l.provisional) % 2 ^ 14 * 2 ^ 40 + min (ones 10) (kgetD s.high hwFetch 0) * 2 ^ 54

/-- STOCK.STATUS (Table 8.10). -/
def stockReg (s : State) : Nat :=
  let used := s.stock.length
  used + max used (kgetD s.high hwStock 0) * 2 ^ 17 + (s.stock.filter fun e => !e.2.head).length * 2 ^ 35

def countTasks (s : State) (st : TState) : Nat := (s.tasks.filter fun e => e.2.state == st).length

/-- TSK.STATUS and TSK.STATUS2 (Table 10.6). -/
def tskReg (s : State) : Nat :=
  freeHandles s % 2 ^ 18 + countTasks s .ready % 2 ^ 18 * 2 ^ 18 + countTasks s .delayed % 2 ^ 18 * 2 ^ 36
def tskReg2 (s : State) : Nat :=
  countTasks s .waiting % 2 ^ 18 + countTasks s .suitWait % 2 ^ 18 * 2 ^ 18
  + ((s.tasks.filter fun e => e.1 < poolHandles && e.2.state == .running).length) % 2 ^ 15 * 2 ^ 36

/-- TSK.LEVEL_DEPTH of level `l` (Table 10.9). -/
def levelReg (s : State) (l : Nat) : Nat :=
  levelDepth s l % 2 ^ 18 + max (levelDepth s l) (kgetD s.high (hwLevel l) 0) % 2 ^ 18 * 2 ^ 18

/-- TSK.LIST_CFG of list `k` (Table 10.8). -/
def listReg (s : State) (k : Nat) : Nat :=
  listTickWritten s k % 2 ^ 14 + listNow s k % 2 ^ 21 * 2 ^ 14 + listLength s k % 2 ^ 18 * 2 ^ 35

def tstateCode (t : TState) : Nat := match t with
  | .free => 0 | .reserved => 1 | .delayed => 2 | .waiting => 3 | .ready => 4 | .suitWait => 5 | .running => 6

/-- The entry that follows a task on its delay list or ready level; 0 at the end. -/
def taskLink (s : State) (t : Task) : Nat :=
  let before := if t.state == .delayed then expBefore else taskBefore
  let rest := s.tasks.filter fun e => e.2.state == t.state && before t e.2
    && ((t.state == .delayed && e.2.list == t.list) || (t.state == .ready && e.2.level == t.level))
  match rest.foldl (fun (b : Option (Nat × Task)) x => match b with
      | none => some x
      | some y => if before x.2 y.2 then some x else some y) none with
  | some e => e.1
  | none => 0

/-- A task entry (Table 10.1). -/
def entryWord (s : State) (h : Nat) : Nat := match kget s.tasks h with
  | none => 0
  | some t =>
    let re := isReentry t
    taskLink s t % 2 ^ 18 + tstateCode t.state * 2 ^ 18 + t.count % 256 * 2 ^ 21 + t.level % 8 * 2 ^ 29 + t.list % 16 * 2 ^ 32
    + b2n t.urgent * 2 ^ 36 + b2n re * 2 ^ 37 + t.hand % 32 * 2 ^ 38
    + (if re then t.stock % 2 ^ 16 else t.expiry % 2 ^ 21) * 2 ^ 43

/-! ## FAB, POT -/

/-- FAB.HAND_STATUS of hand `h` (Table 11.13). -/
def fabStatusOf (s : State) (h : Nat) : Nat :=
  let op := (s.opens.filter fun e => e.1 / 32 == h && !e.2.payload.isEmpty).length
  let staged := ((List.range 4).map fun pl => (stagedAt s h pl).length).sum
  let none_ := ((List.range 32).map fun p => b2n ((pairOf s h p).credits == 0) * 2 ^ p).sum
  (kgetD s.cutq h []).length % 64 + op % 64 * 2 ^ 6 + staged % 32 * 2 ^ 12 + b2n (cutStalled s h) * 2 ^ 17 + none_ * 2 ^ 32

/-- POT.STATUS of pot `p` (Table 11.12). -/
def potStatusOf (s : State) (p : Nat) : Nat :=
  potUsed s p % 2 ^ 17 + sharedFree s p % 2 ^ 17 * 2 ^ 17 + (kgetD s.holds p 0).toNat * 2 ^ 34 + foldCode (foldOfPot s p) * 2 ^ 42

/-- A resequencer pair (Table 11.14). -/
def reseqWord (s : State) (p h : Nat) : Nat :=
  let x := reseqOf s p h
  x.expect % 2 ^ 16 + heldEarly x % 128 * 2 ^ 16 + (64 - (pairOf s h p).credits) % 128 * 2 ^ 23

/-- Queue status (Table 11.15). -/
def queueWord (s : State) (q : Nat) : Nat :=
  qDepth s q % 2 ^ 17 + (queueOf s q).frames.length % 2 ^ 17 * 2 ^ 17 + queueProfile s q % 256 * 2 ^ 34
  + queuePort s q % 256 * 2 ^ 42 + b2n (queueEnabled s q) * 2 ^ 50

/-- The cells of a queue, oldest frame first. -/
def queueCells (s : State) (q : Nat) : List Nat := (queueOf s q).frames.flatMap (·.cells)

/-- Queue pointers (Table 16.2). -/
def ptrWord (s : State) (q : Nat) : Nat :=
  let cs := queueCells s q
  (cs.head?.getD 0) % 2 ^ 15 + (cs.getLast?.getD 0) % 2 ^ 15 * 2 ^ 15 + b2n cs.isEmpty * 2 ^ 30

/-- The frame that stands in cell `c` of a pot, and which of its cells that is. -/
def cellOwner (s : State) (p c : Nat) : Option (Nat × PotFrame × Nat) :=
  (s.queues.filter fun e => e.1 / 2048 == p).findSome? fun e =>
    e.2.frames.findSome? fun f => ((enum 0 f.cells).find? fun x => x.2 == c).map fun x => (e.1, f, x.1)

/-- A word of a pot cell: the frame header, then the frame's bytes, 256 B a cell (R254, Table 16.2). -/
def potCellWord (s : State) (p c w : Nat) : Nat := match cellOwner s p c with
  | some (_, f, i) => word8 (slice (f.hdr ++ f.bytes) (256 * i) 256) w
  | none => 0

/-- A cell link (Table 16.2): the next cell of the queue, the last cell of a frame, in use. -/
def linkWord (s : State) (p c : Nat) : Nat := match cellOwner s p c with
  | some (q, f, i) =>
    let cs := queueCells s q
    let next := match (enum 0 cs).find? fun x => x.2 == c with | some x => nth cs (x.1 + 1) 0 | none => 0
    next % 2 ^ 15 + b2n (i + 1 == f.cells.length) * 2 ^ 15 + 2 ^ 16
  | none => 0

/-! ## TM, TIME -/

/-- DEFICIT of a queue or group as a 32-bit field. -/
def avgWord (s : State) (q : Nat) : Nat :=
  (queueOf s q).avg % 2 ^ 25 + b2n (queueEligible s q) * 2 ^ 25 + b2n (gateHolds s q) * 2 ^ 26

/-- TIME.STATUS (Table 13.8). -/
def timeStateCode (t : TimeSt) : Nat := match t with
  | .freeRun => 0 | .acquiring => 1 | .locked => 2 | .holdover => 3 | .holdoverOut => 4 | .hostSet => 5

def timeReg (s : State) : Nat :=
  let t := s.time
  timeStateCode t.state + b2n t.valid * 2 ^ 3 + t.steppedBy % 4 * 2 ^ 4 + b2n t.unlocked * 2 ^ 6 + b2n t.ppsOk * 2 ^ 7
  + b2n t.refOk * 2 ^ 8 + b2n t.alarm * 2 ^ 9 + holdAge s * 2 ^ 10

/-- NOW_NS: nanoseconds and 16 bits of fraction of the second (Table 13.9). -/
def nowNsReg (s : State) : Nat := nowNs s % 10 ^ 9 * 2 ^ 16 + s.time.base / 2 ^ 32 % 2 ^ 16
def nowSReg (s : State) : Nat := nowS s % 2 ^ 48
def rateReg (s : State) : Nat := uns 40 s.time.rate
def phaseReg (s : State) : Nat := uns 32 s.time.phase
def utcReg (s : State) : Nat := uns 16 s.time.utcOff + s.time.pending % 4 * 2 ^ 16
def gateLateReg (s : State) : Nat := s.time.lateList % 1024 + b2n s.time.late * 2 ^ 63
def instReg (s : State) (p : Nat) : Nat :=
  let q := seqOf s p
  q.1 % 2 ^ 16 + q.2.1 % 2 ^ 16 * 2 ^ 16 + q.2.2 % 2 ^ 16 * 2 ^ 32

/-- A word of a gate list's window (Table 13.11). -/
def gateWord (s : State) (e : Bool) (list w : Nat) : Nat := match gateOff s e list with
  | none => 0
  | some o =>
    if w < 4 then gaF s e o (8 * w) 8
    else if 256 ≤ w && w - 256 < gaF s e o 4 2 then gaF s e o (32 + 8 * (w - 256)) 8
    else 0

/-! ## HBM, ZAT, OBS -/

def errLastReg (s : State) : Nat :=
  s.hbmc.errSector % 2 ^ 32 * 2 ^ 5 + s.hbmc.errSource % 256 * 2 ^ 37 + b2n s.hbmc.errValid * 2 ^ 63

/-- ZAT.STATUS (Table 15.12). -/
def zatReg (s : State) : Nat :=
  b2n s.zat.link0 + b2n s.zat.link1 * 2 + b2n (zatUdp s) * 4 + countSess s .opened % 128 * 2 ^ 3
  + countSess s .challenged % 32 * 2 ^ 10 + udpPort s % 2 ^ 16 * 2 ^ 16
def zatKeysReg (s : State) : Nat := ((List.range 16).map fun k => slotLevel s k % 4 * 2 ^ (2 * k)).sum
/-- The key identifier of a slot: the first 8 B of its key's SHA-256. -/
def keyIdReg (s : State) (k : Nat) : Nat :=
  if (keySlot s k).level = 0 then 0 else ofBytes ((sha256 (keySlot s k).key).take 8)

/-- A word of session `n`'s window (Table 15.14). -/
def sessionWord (s : State) (n w : Nat) : Nat :=
  let x := sessOf s n
  match w with
  | 0 => (match x.state with | .free => 0 | .challenged => 1 | .opened => 2) + x.level % 4 * 2 ^ 2 + x.slot % 16 * 2 ^ 4
      + x.enc.cp % 2 * 2 ^ 8 + ofBytes (slice x.enc.mac 0 6) * 2 ^ 16
  | 1 => x.next % 2 ^ 32 + x.hack % 2 ^ 32 * 2 ^ 32
  | _ => x.stream % 2 ^ 32 + (if x.state == .free then 0 else min 65535 ((s.clk - x.lastClk) / 1600000)) * 2 ^ 32

/-- The words of the record that a queue entry names, by index or by line-form suit. -/
def mirrorWords (s : State) (n : Nat) : List W32 :=
  if 2 ^ 27 ≤ n then (lineOf s (n - 2 ^ 27)).words else wordsAt s (.index n)

/-- A slot's bytes: VALID and the record's name, then words 0 to 30, without the TAG word and beyond. -/
def slotImage (s : State) (n : Nat) (ws : List W32) : List Byte :=
  toBytes 4 (2 ^ 31 + n % 2 ^ 28)
    ++ (List.range 31).flatMap fun w => toBytes 4 (if w < tagW s then wordOf ws w else 0)

/-- Entries of crossing queue `i` (Table 1.10). Of the queues that
the commands empty at once, the entries that passed in this clk stand (assumption 12, DESIGN CHOICE). -/
def xqOcc (s : State) (i : Nat) : Nat :=
  if i < 32 then octetOcc s i
  else if i < 64 then octetTx s (i - 32)
  else if i = 96 then s.coreTime.length
  else if 97 ≤ i && i < 101 then min 512 (stackReqs s (i - 97) - 512)
  else if i = 109 then 2 * s.keep.queue.length
  else if 111 ≤ i && i < 143 then ((List.range 8).map fun k => (portOf s (8 * (i - 111) + k)).stamps.length).sum
  else (kgetD s.xq i []).length

/-- OBS.XQ_STATUS of queue `i` (Table 1.12). -/
def xqReg (s : State) (i : Nat) : Nat :=
  if i < 143 then xqOcc s i % 2 ^ 24 + max (xqOcc s i) (kgetD s.high i 0) % 2 ^ 24 * 2 ^ 24 else 0

/-- The entries of a crossing queue as bytes, oldest first (Table 16.2): 256 B pieces of frames, a kitty request as the
record it names, a timestamp as its ns (assumption 20, DEDUCED). -/
def xqEntries (s : State) (i : Nat) : List (List Byte) :=
  if i < 32 then
    ((s.pkts.filter fun e => e.1 / 256 == i && 0 < e.2.entries).flatMap fun e => (chunks 256 e.2.frame).take e.2.entries)
    ++ (kgetD s.rb i []).flatMap fun f => (chunks 256 f.frame).take f.entries
  else if i < 64 then (List.range 8).flatMap fun k => ((portOf s (8 * (i - 32) + k)).txq.flatMap fun e => chunks 256 e.pkt.frame).take (portTx s (8 * (i - 32) + k))
  else if i = 96 then s.coreTime.map fun x => toBytes 7 x.1 ++ toBytes 1 x.2
  else if i = 109 then s.keep.queue.flatMap fun n => chunks 64 (slotImage s n (mirrorWords s n))
  else if i < 111 then kgetD s.xq i []
  else if 111 ≤ i then (List.range 8).flatMap fun k => (portOf s (8 * (i - 111) + k)).stamps.map fun t => toBytes 8 (t.time / 65536)
  else []

def peekWord (s : State) (i e w : Nat) : Nat := word8 (nth (xqEntries s i) e []) w

/-- A saturating CONF count: COUNT and SAT (Table 2.12). -/
def confCount (c : Nat) : Nat := c % 2 ^ 48 + b2n (bit c 48) * 2 ^ 63

/-- The words of group CONF for the running interval (Tables 2.11, 2.12). -/
def confWords (s : State) : List W64 :=
  let c := s.conf
  let span := min (ones 48) (nowNs s - c.since)
  [c.maxNs % 2 ^ 16 + c.minNs % 2 ^ 16 * 2 ^ 16 + c.overs % 2 ^ 31 * 2 ^ 32 + b2n (bit c.overs 31) * 2 ^ 63, confCount c.qual,
   confCount c.hit, confCount c.miss, confCount c.rmw, span + b2n (2 ^ 48 ≤ nowNs s - c.since) * 2 ^ 63].map (BitVec.ofNat 64)

/-- A latch of group CONF: the RS words report the interval, and a new one begins (R43). -/
def latchConfOp (s : State) : State :=
  let s := setReg s aConfLatch ((regRaw s aConfLatch 0 + 1) % 2 ^ 32)
  { s with latchConf := confWords s, conf := { Conf.reset with since := nowNs s, hot := s.conf.hot } }

/-- A latch of group TIME (R8, Table 13.9). -/
def latchTimeOp (s : State) : State :=
  { s with latchTime := [BitVec.ofNat 64 (nowSReg s), BitVec.ofNat 64 (nowNsReg s)] }

/-- DUMP_STATUS of engine `e` (Table 16.7). A dump is written whole in its command, so WRITING reads 0. -/
def dumpReg (s : State) (e : Nat) : Nat := match kget s.dumps e with
  | some d => d.seq % 2 ^ 48 + d.slot % 16 * 2 ^ 48
  | none => 0

def ringPtrReg (s : State) (r : Nat) : Nat := (ringOf s r).head % 2 ^ 32 + (ringOf s r).tail % 2 ^ 32 * 2 ^ 32
def ringUsedReg (s : State) (r : Nat) : Nat :=
  let g := ringOf s r
  g.used % 2 ^ 32 + (g.reader.getD 0) % 128 * 2 ^ 32 + g.credits % 2 ^ 16 * 2 ^ 40
def ringLayoutReg (s : State) (r : Nat) : Nat :=
  let c := ringCfg s r
  c.log2 % 32 + b2n c.byLength * 2 ^ 5 + c.snap % 256 * 2 ^ 6 + ringBase s r / 32768 % 2 ^ 20 * 2 ^ 32

/-! ## Reading a word -/

/-- Index `k` of an address as a slot. -/
def slotIx (ix : List Nat) : Bool := nth ix 0 0 == 1

/-- What a register or window word reads, sampled in one clk (R23). -/
def regWord (s : State) (id : RegId) (ix : List Nat) (a : Nat) : Nat :=
  let i := nth ix 0 0
  let j := nth ix 1 0
  let k := nth ix 2 0
  let l := nth ix 3 0
  match id with
  | .word | .ctr => regRaw s a 0
  | .chipId => chipId s
  | .temp => tempReg s
  | .avs => s.fuses.avsMv % 1024 + b2n s.rst.avsAcked * 2 ^ 10 + b2n s.rst.avsFail * 2 ^ 11
  | .trim => (kgetD s.fuses.words i 0).toNat
  | .cause => s.rst.cause.toNat
  | .last => lastReg s
  | .hostWdog => wdogPeriod s
  | .strap => s.rst.strap % 16
  | .seq => seqReg s
  | .clock => clockReg s
  | .foldIntake => foldMap s.rst.foldIntake
  | .foldPot => foldMap s.rst.foldPot
  | .foldFlow => foldCode s.rst.foldFlow
  | .keepStatus => keepReg s
  | .mirror => mirrorReg s
  | .kitty => memNat s.kitty (8 * i) 8
  | .deckStatus => deckStatusReg s
  | .ident => s.deck.deckId
  | .epoch => epochReg s
  | .inflight => inflightReg s
  | .held => heldReg s
  | .fail => failReg s
  | .keys => deckKeysReg s
  | .contract => contractReg s
  | .segDir => segDirWord s i
  | .dlrStatus => dlrStatusOf s (dlrSelect s)
  | .dlrCtr => regRaw s (aDlr (dlrSelect s) i) 0
  | .wdogLog => regRaw s aWdogLog 0
  | .ucodeLog => regRaw s aUcodeLog 0
  | .store => storeWinWord s (slotIx ix) j k l
  | .routine => routineWord s (slotIx ix) j k l
  | .context => contextWord s i j k
  | .perfLazy => if j = 0 then perfClocks s i else perfFront s i
  | .perfCfg => regRaw s (aPerfCfg i j) 0
  | .bringup => s.rst.groups % 32 * 2 + b2n (lanesMapped s && s.rst.groupsDue.isEmpty && !s.rst.goHeld) * 2 ^ 6
  | .laneStatus => laneStatusReg s i
  | .laneTest => testReg s i
  | .eyeCtl => regRaw s (aLane i + 0x18) 0
  | .adaptation => if j = 31 then 0 else (Config.freeWord (s.fresh + j)).toNat % (if j = 30 then 2 ^ 30 else 2 ^ 16)
  | .portCtl => if isPort s i then portCtl s i else 0
  | .portStatus => portStatusReg s i
  | .portMac => if isPort s i then portMac s i else 0
  | .portCtr => if isPort s i then regRaw s (aPortCtr i j) 0 else 0
  | .handStatus => handStatusOf s (regRaw s 0x0C0000000000 0 % 32)
  | .tokens => tokensOf s i
  | .stateWin => stateWord s (slotIx ix) j k
  | .formatWin => formatWord s (slotIx ix) j k
  | .excWin => exceptF s (slotIx ix) j 0 8
  | .vector => vectorWord s i j k
  | .moveStatus => moveReg s
  | .rowLog => regRaw s a 0
  | .rowWin => rowWord s i j
  | .comparator => hotF s (slotIx ix) tyRanges (8 * j) 8
  | .shufEntry => shufEntry (shufRec s (slotIx ix) j) k
  | .shufHeader => fld (shufRec s (slotIx ix) j) (8 * k) 8
  | .fill => (match poolTab s (0x80 + i) with | some p => poolFill s p % 2 ^ 24 | none => 0)
  | .poolByte => memNat s.pool (8 * i) 8
  | .seeds => seedA s % 2 ^ 32 + seedB s % 2 ^ 32 * 2 ^ 32
  | .dkeyHi => dkey s / 2 ^ 64 % 2 ^ 64
  | .dkeyLo => dkey s % 2 ^ 64
  | .seedC => seedC s % 2 ^ 32
  | .lines => linesReg s
  | .line => if i < cacheLines s then word8 (lineBytes s i) j else 0
  | .fsmCell => hotF s (slotIx ix) tyFlowfsm (4096 * j + 4 * k) 4
  | .stockStatus => stockReg s
  | .stockSlot => (match kget s.stock i with | some x => word8 x.pkt.cv j | none => 0)
  | .tskStatus => tskReg s
  | .tskStatus2 => tskReg2 s
  | .levelDepth => levelReg s i
  | .listCfg => listReg s i
  | .entry => entryWord s i
  | .fabStatus => fabStatusOf s (regRaw s 0x180000000000 0 % 32)
  | .potStatus => potStatusOf s (regRaw s 0x190000000008 0 % 32)
  | .reseqPair => reseqWord s i j
  | .queueStatus => queueWord s i
  | .queuePtr => ptrWord s i
  | .potCell => potCellWord s i j k
  | .cellLink => linkWord s i j
  | .shaperCfg => 0
  | .qRate => queueRate s i
  | .qCfg => queueCfg s i
  | .qCurve => queueCurve s i
  | .qTokens => tokensField s 0 i
  | .qDeficit => uns 32 (queueOf s i).deficit
  | .qAvg => avgWord s i
  | .gRate => groupRate s i
  | .gCfg => gQuantum s i + gPort s i % 256 * 2 ^ 16
  | .gTokens => tokensField s 1 i
  | .gDeficit => uns 32 (grpDefOf s i).deficit
  | .pRate => portRate s i
  | .pCfg => uns 8 (portOverhead s i)
  | .pTokens => tokensField s 2 i
  | .pZero => 0
  | .polCfg0 => policerCfg0 s i
  | .polCfg1 => policerCfg1 s i
  | .polTokens => (policerNow s i).1 / polUnit % 2 ^ 24 + (policerNow s i).2 / polUnit % 2 ^ 24 * 2 ^ 24
  | .sgroup => sgroupW s i
  | .curve => hotF s (slotIx ix) tyCurves (128 * j + 8 * k) 8
  | .timeStatus => timeReg s
  | .nowS => nowSReg s
  | .nowNs => (nth s.latchTime 1 0).toNat
  | .rate => rateReg s
  | .phase => phaseReg s
  | .gateLate => gateLateReg s
  | .utc => utcReg s
  | .utcAt => s.time.leapAt % 2 ^ 48
  | .instance_ => instReg s i
  | .unicast => regRaw s (aUnicast i 0) 0
  | .gateList => gateWord s (slotIx ix) j k
  | .hbmStatus => hbmStatus s
  | .grain => regRaw s a (if a = aGrain0 then grain0Reset else grain1Reset)
  | .retrain => 0
  | .errLast => errLastReg s
  | .queueSt => hbmQueueStatus s
  | .training => regRaw s a 0
  | .zatStatus => zatReg s
  | .zatKeys => zatKeysReg s
  | .keyId => keyIdReg s i
  | .vkey | .vkeyCtl => 0
  | .session => sessionWord s (i + 1) j
  | .xqStatus => xqReg s (regRaw s 0x280000000100 0 % 256)
  | .confCtl => confCtl s
  | .confLatch => regRaw s a 0
  | .confWord => (nth s.latchConf i 0).toNat
  | .dumpStatus => dumpReg s i
  | .ringPtr => ringPtrReg s i
  | .ringUsed => ringUsedReg s i
  | .ringLayout => ringLayoutReg s i
  | .peek => peekWord s i j k

/-- What an assigned address reads. -/
def readRow (s : State) (r : RegRow) (ix : List Nat) (a : Nat) : Nat :=
  match r.kind with
  | .plain _ reset => regRaw s a reset
  | _ => regWord s r.id ix a

end Sys2Proof.Machine
end

