-- ==== Sys2Proof/Machine/Access.lean ====
section
/-!
DEFINITION. Register and HBM-window accesses: which address is refused and with what status, what a read latches and
what a write does (00_scope.md R5 to R9; 01_architecture.md R26, R27; 15_zatas_control_protocol.md R342, R349; 16_observability.md
R362 to R369).
Log entries: 36, 37.
-/
namespace Sys2Proof.Machine

open Sys2Proof

/-! ## Status codes (Table 15.6) -/

def stOk : Nat := 0x00
def stOpcode : Nat := 0x01
def stPrivilege : Nat := 0x02
def stAddress : Nat := 0x03
def stAlignment : Nat := 0x04
def stProtection : Nat := 0x05
def stBusy : Nat := 0x06
def stMalformed : Nat := 0x07
def stRejected : Nat := 0x08
def stTimeLocked : Nat := 0x09
def stTooBig : Nat := 0x0A
def stPoison : Nat := 0x0B
def stAborted : Nat := 0x0C
def stSkipped : Nat := 0x0D
def stNoDeck : Nat := 0x0E
def stPosition : Nat := 0x10
def stPrefilter : Nat := 0x11
def stNoRoom : Nat := 0x12
def stGroupFull : Nat := 0x13
def stKeyExists : Nat := 0x14
def stNotFound : Nat := 0x15
def stLength : Nat := 0x16
def stLimited : Nat := 0x17
def stRefused : Nat := 0x18

/-! ## The HBM window -/

/-- Start-up training failed on a stack: the window answers every access with the address error (R330). -/
def trainFailed (s : State) : Bool := s.hbmc.trainFail != 0

/-- The status of an access to `n` window bytes at offset `off`: the session area refuses all, the task bodies and
the deck areas refuse writes, the flow table refuses writes unless FLOW is folded (R26, R53, R226, R345). -/
def windowStatus (s : State) (write : Bool) (off n : Nat) : Nat :=
  let hits := fun lo hi => off < hi && lo < off + n
  let ft := fgF s 13 1 * 2 ^ 32
  if hbmBytes < off + n || trainFailed s then stAddress
  else if hits 0x17EB800000 0x17FB800000 then stProtection
  else if write && (hits 0x17FB800000 0x1800000000 || (s.rst.foldFlow != .folded && hits ft (ft + 2 * 2 ^ 32))) then
    stProtection
  else stOk

/-! ## Where an address falls (R27) -/

/-- The address lies in the HBM window. -/
def inHbm (a : Nat) : Bool := hbmBase ≤ a && a < hbmBase + hbmBytes

/-- A register or window word, or the status of R27 that the address earns, in R27's order. -/
def regPlace (a : Nat) : Except Nat (RegRow × List Nat) :=
  match blockRows (a / 2 ^ 40) with
  | none => .error stAddress
  | some rows =>
    if a % 8 ≠ 0 then .error stAlignment
    else match rowFind rows a with
      | some x => .ok x
      | none => .error stAddress

/-- Control lanes have status, eye scan and adaptation readback only (R118): their other words read 0. -/
def noLaneWord (a : Nat) : Bool :=
  a = aLane 256 + 8 || a = aLane 256 + 0x10 || a = aLane 257 + 8 || a = aLane 257 + 0x10

/-! ## Reads -/

/-- What a read of a register does beside returning its word: an RL field latches its group, and readings that come
from outside the part are fresh each time (R8, R362, assumption 3, DESIGN CHOICE). -/
def readEffect (s : State) (r : RegRow) (ix : List Nat) : State :=
  match r.id with
  | .nowS => latchTimeOp s
  | .confLatch => latchConfOp s
  | .adaptation | .laneStatus => { s with fresh := s.fresh + 32 }
  | .kitty => cross s 110 64 [memRead s.kitty (nth ix 0 0 / 8 * 64) 64]
  | _ => s

/-- One register read: its word and the state after. -/
def regRead (s : State) (r : RegRow) (ix : List Nat) (a : Nat) : Nat × State :=
  let t := readEffect s r ix
  match r.id with
  | .confLatch => (readRow t r ix a, t)
  | _ => (if noLaneWord a then 0 else readRow s r ix a, t)

/-! ## Writes -/

/-- The W1C bits of a register that acts, COUNT and STICKY apart (Table 0.4). -/
def w1cBits (i : RegId) : Nat := match i with
  | .cause => 0xFF
  | .clock => ones 25 * 2 ^ 32
  | .deckStatus => 2 ^ 8
  | .contract => 2 ^ 50
  | .wdogLog | .ucodeLog | .rowLog | .errLast | .gateLate => 2 ^ 63
  | .hbmStatus => 0xF000
  | _ => 0

/-- W1C and WO bits of a register that acts: an RMW writes 0 to them where its MASK is 0 (R349). -/
def pulseBits (r : RegRow) : Nat :=
  match r.kind with
  | .counter => 2 ^ 62
  | .act => match r.id with
    | .temp => 2 ^ 48
    | .hostWdog => 2 ^ 32
    | .dlrCtr | .portCtr | .perfLazy => 2 ^ 62
    | .handStatus => 2 ^ 12
    | .stockStatus => 2 ^ 34
    | .levelDepth => 2 ^ 36
    | .xqStatus => 2 ^ 48
    | .queueSt => 2 ^ 20
    | .laneTest => 2 ^ 10
    | .eyeCtl => 2 ^ 20
    | i => w1cBits i
  | _ => 0

/-- Write of a W1C VALID bit 63 of a stored log word. -/
def clearValid (s : State) (a v : Nat) : State :=
  if bit v 63 then setReg s a (regRaw s a 0 % 2 ^ 63) else s

/-- RST.HOST_WDOG (R385, R407): KICK and a change of PERIOD restart the count. -/
def wrHostWdog (s : State) (v : Nat) : State :=
  let s := setReg s aHostWdog (v % 2 ^ 32)
  { s with rst := { s.rst with wdogClk := s.clk } }

/-- HBM.GRAIN (R320): 36 bits of grain codes, none of them 7. -/
def grainOk (v : Nat) : Bool := (List.range 12).all fun i => bits v (3 * i + 2) (3 * i) != 7

/-- A queue has a frame in TAKE or FINISH. -/
def inEgress (s : State) (q : Nat) : Bool := (queueOf s q).frames.any (·.started)

/-- A write of GROUP, TC or PRIO is refused while the queue holds a frame (R289). -/
def wrQueueCfg (s : State) (q v : Nat) : State :=
  let v := v % 2 ^ 36
  if bits v 34 16 != bits (queueCfg s q) 34 16 && (qDepth s q != 0 || inEgress s q) then bump s aCfgReject
  else setReg s (aTmQueue q 1) v

/-- A policer word is written with both buckets full (R285). -/
def wrPolicer (s : State) (n w v : Nat) : State :=
  fillPolicer (setReg s (aTmPolicer n w) (if w = 0 then v % 2 ^ 59 else v % 2 ^ 48)) n

/-- A unicast grant (Table 13.12): VALID needs a port with a PROFILE 2 instance. -/
def unicastOk (s : State) (v : Nat) : Bool :=
  !bit v 0 || (match instRec s (bits v 8 1) with | some i => tiR s i 2 1 == 2 | none => false)

/-- Write of a volatile key slot's staged key (Table 15.13): word `w` of the 32 B. -/
def wrVkey (s : State) (k w v : Nat) : State :=
  let old := kgetD s.zat.staged k (List.replicate 32 0)
  { s with zat := { s.zat with staged := kset s.zat.staged k (patch old (8 * w) (toBytes 8 v)) } }

/-- ZAT.VKEY +0x20: CLEAR empties the slot, COMMIT installs the staged key and LEVEL; a slot of LEVEL 0 is empty. -/
def wrVkeyCtl (s : State) (k v : Nat) : State :=
  if bit v 3 then { s with zat := { s.zat with vkeys := kdel s.zat.vkeys k } }
  else if bit v 2 then
    let slot : KeySlot := ⟨kgetD s.zat.staged k (List.replicate 32 0), v % 4⟩
    { s with zat := { s.zat with vkeys := if v % 4 = 0 then kdel s.zat.vkeys k else kset s.zat.vkeys k slot } }
  else s

/-- TOP.TEMP.PEAK_CLEAR: the peak becomes the present CORE_MAX (Table 18.13). -/
def peakClear (s : State) : State := { s with peak := nth s.temps 0 0 }

/-- HBM.RETRAIN is accepted while FLOW is folded and no retrain runs (R331). -/
def retrainOk (s : State) : Bool := s.rst.foldFlow == .folded && s.hbmc.retrain.isNone

/-- W1C: clear the bits of `x` that `v` has from bit `lo` on, `n` of them (Table 0.4). -/
def w1c (x v lo n : Nat) : Nat := x &&& (ones n - v / 2 ^ lo % 2 ^ n)

/-- The write of a register that acts by its table: the status and the state after. -/
def wrAct (s : State) (r : RegRow) (ix : List Nat) (a v lvl : Nat) : Nat × State :=
  let i := nth ix 0 0
  let j := nth ix 1 0
  match r.id with
  | .temp => (stOk, if bit v 48 then peakClear s else s)
  | .cause => (stOk, { s with rst := { s.rst with cause := s.rst.cause &&& BitVec.ofNat 8 (255 - v % 256) } })
  | .hostWdog =>
    if v % 2 ^ 32 = wdogPeriod s then (stOk, if bit v 32 || lvl = 3 then wrHostWdog s v else s)
    else if lvl < 3 then (stPrivilege, s) else (stOk, wrHostWdog s v)
  | .clock => (stOk, { s with rst := { s.rst with failed := w1c s.rst.failed v 32 25 } })
  | .deckStatus => (stOk, if bit v 8 then { s with deck := { s.deck with failSticky := false } } else s)
  | .contract => (stOk, if bit v 50 then { s with deck := { s.deck with tableCleared := false } } else s)
  | .wdogLog => (stOk, clearValid s aWdogLog v)
  | .ucodeLog => (stOk, clearValid s aUcodeLog v)
  | .rowLog => (stOk, clearValid s a v)
  | .errLast => (stOk, if bit v 63 then { s with hbmc := { s.hbmc with errValid := false } } else s)
  | .gateLate => (stOk, if bit v 63 then { s with time := { s.time with late := false } } else s)
  | .hbmStatus => (stOk, { s with hbmc := { s.hbmc with retrainFail := w1c s.hbmc.retrainFail v 12 4 } })
  | .dlrCtr =>
    if 288 ≤ dlrSelect s then (stOk, s)
    else (stOk, setReg s (aDlr (dlrSelect s) i) (counterWord (regRaw s (aDlr (dlrSelect s) i) 0) v))
  | .portCtr => (stOk, if isPort s i then setReg s a (counterWord (regRaw s a 0) v) else s)
  | .perfLazy => (stOk, wrPerfLazy s i (if j = 0 then 0 else 3) v)
  | .perfCfg => if 16 ≤ v % 32 then (stMalformed, s) else (stOk, setReg s a (v % 2 ^ 48))
  | .bringup => (stOk, if bit v 0 then bringGo s else s)
  | .laneTest => (stOk, if i < 256 then wrLaneTest s i v else s)
  | .eyeCtl => (stOk, wrEyeCtl s i v)
  | .portCtl => (stOk, wrPortCtl s i v)
  | .portMac => (stOk, if isPort s i then setReg s a (v % 2 ^ 48) else s)
  | .handStatus =>
    let h := regRaw s 0x0C0000000000 0 % 32
    (stOk, if bit v 12 then { s with walkHw := kset s.walkHw h (walksBusy s h) } else s)
  | .stockStatus => (stOk, if bit v 34 then { s with high := kset s.high hwStock s.stock.length } else s)
  | .levelDepth => (stOk, if bit v 36 then { s with high := kset s.high (hwLevel i) (levelDepth s i) } else s)
  | .xqStatus =>
    let q := regRaw s 0x280000000100 0 % 256
    (stOk, if bit v 48 && q < 143 then { s with high := kset s.high q (xqOcc s q) } else s)
  | .queueSt =>
    let st := regRaw s aHbmSelect 0 % 4
    (stOk, if bit v 20 then { s with hbmc := { s.hbmc with high := kset s.hbmc.high st (min 512 (stackReqs s st)) } } else s)
  | .listCfg => (stOk, wrListCfg s i v)
  | .shaperCfg => (stOk, wrShaper s v)
  | .qCfg => (stOk, wrQueueCfg s i v)
  | .qCurve => (stOk, setReg s a (v % 2 ^ 34))
  | .gCfg => (stOk, setReg s a (v % 2 ^ 16))
  | .pCfg => (stOk, setReg s a (v % 2 ^ 8))
  | .polCfg0 => (stOk, wrPolicer s i 0 v)
  | .polCfg1 => (stOk, wrPolicer s i 1 v)
  | .sgroup => (stOk, setReg s a (v % 2 ^ 33))
  | .unicast => if unicastOk s v then (stOk, setReg s a (v % 2 ^ 25 + bits v 63 32 * 2 ^ 32)) else (stProtection, s)
  | .grain =>
    if s.deck.dealt then (stProtection, s)
    else if grainOk v then (stOk, regrain s (setReg s a (v % 2 ^ 36))) else (stMalformed, s)
  | .retrain =>
    if retrainOk s then (stOk, if bit v 2 then { s with hbmc := { s.hbmc with retrain := some (v % 4) } } else s)
    else (stBusy, s)
  | .vkey => (stOk, wrVkey s i j v)
  | .vkeyCtl => (stOk, wrVkeyCtl s i v)
  | .confCtl => (stOk, setReg s aConfCtl (v % 2 + bits v 25 16 * 2 ^ 16))
  | _ => (stOk, s)

/-- The write of an assigned register or window word (R6, R7, R364, R369). -/
def regWrite (s : State) (r : RegRow) (ix : List Nat) (a v lvl : Nat) : Nat × State :=
  match r.kind with
  | .plain m _ => (stOk, setReg s a (v &&& m))
  | .counter => (stOk, if noLaneWord a then s else setReg s a (counterWord (regRaw s a 0) v))
  | .ro => (stOk, s)
  | .window => (stProtection, s)
  | .act => wrAct s r ix a (setWins s a (w1cBits r.id) v) lvl

/-! ## READ, WRITE, RMW (R349) -/

/-- The result of one access: its status, the word read, and the state after. -/
structure AccRes where
  status : Nat
  value  : Nat
  state  : State
deriving DecidableEq, Repr

/-- The HBM source of a session's accesses: the control port it speaks through (Table 14.1). -/
def zatSource (s : State) (n : Nat) : Nat := 112 + (sessOf s n).enc.cp % 2

/-- READ of one address at level `lvl` by session `n`. -/
def accRead (s : State) (n lvl a : Nat) : AccRes :=
  if inHbm a then
    let st := windowStatus s false (a - hbmBase) 8
    if st ≠ stOk then ⟨st, 0, s⟩
    else
      let x := hbmRead s (zatSource s n) (a - hbmBase) 8
      ⟨if x.2.2 then stPoison else stOk, ofBytes x.2.1, x.1⟩
  else match regPlace a with
    | .error e => ⟨e, 0, s⟩
    | .ok (r, ix) =>
      if lvl < r.rl then ⟨stPrivilege, 0, s⟩
      else let x := regRead s r ix a; ⟨stOk, x.1 % 2 ^ 64, x.2⟩

/-- WRITE of one address. -/
def accWrite (s : State) (n lvl a v : Nat) : AccRes :=
  if inHbm a then
    let st := windowStatus s true (a - hbmBase) 8
    if st ≠ stOk then ⟨st, 0, s⟩ else ⟨stOk, 0, hbmWrite s (zatSource s n) (a - hbmBase) (toBytes 8 v)⟩
  else match regPlace a with
    | .error e => ⟨e, 0, s⟩
    | .ok (r, ix) =>
      if lvl < r.wl then ⟨stPrivilege, 0, s⟩
      else let x := regWrite s r ix a v lvl; ⟨x.1, 0, x.2⟩

/-- The word an RMW writes: VALUE under MASK, the old value elsewhere, 0 in pulse bits outside MASK. -/
def rmwWord (old mask value pulse : Nat) : Nat :=
  ((List.range 64).map fun k => b2n (if bit mask k then bit value k else bit old k && !bit pulse k) * 2 ^ k).sum

/-- RMW of one address; the answer is the old value. A refused write leaves the register as it was. -/
def accRmw (s : State) (n lvl a mask value : Nat) : AccRes :=
  if inHbm a then
    let st := windowStatus s true (a - hbmBase) 8
    if st ≠ stOk then ⟨st, 0, s⟩
    else
      let x := hbmRead s (zatSource s n) (a - hbmBase) 8
      let old := ofBytes x.2.1
      ⟨if x.2.2 then stPoison else stOk, old, hbmWrite x.1 (zatSource s n) (a - hbmBase) (toBytes 8 (rmwWord old mask value 0))⟩
  else match regPlace a with
    | .error e => ⟨e, 0, s⟩
    | .ok (r, ix) =>
      if lvl < max r.rl r.wl then ⟨stPrivilege, 0, s⟩
      else
        let x := regRead s r ix a
        let y := regWrite x.2 r ix a (rmwWord x.1 mask value (pulseBits r)) lvl
        ⟨y.1, x.1 % 2 ^ 64, y.2⟩

/-! ## BULK_READ, BULK_WRITE (R349) -/

/-- The result of a bulk access: status, the failing word's address, bytes read, state. -/
structure BulkRes where
  status : Nat
  addr   : Nat
  data   : List Byte
  state  : State
deriving DecidableEq, Repr

/-- Words from `a` up, one after another, until one fails. -/
def bulkReadGo (k : Nat) (s : State) (n lvl a : Nat) (acc : List Byte) : BulkRes :=
  match k with
  | 0 => ⟨stOk, a, acc, s⟩
  | k + 1 =>
    let x := accRead s n lvl a
    if x.status = stOk then bulkReadGo k x.state n lvl (a + 8) (acc ++ toBytes 8 x.value) else ⟨x.status, a, [], x.state⟩

/-- Words of the window from offset `off` that an access may reach before the first that fails. -/
def windowWords (s : State) (write : Bool) (off k : Nat) : Nat :=
  (findUp k 0 fun i => windowStatus s write (off + 8 * i) 8 != stOk).getD k

/-- BULK_READ of `count` bytes. In the window the words that may be read are one request per piece (R320, R321). -/
def bulkRead (s : State) (n lvl a count : Nat) : BulkRes :=
  if inHbm a then
    let off := a - hbmBase
    let k := windowWords s false off (count / 8)
    let x := hbmRead s (zatSource s n) off (8 * k)
    if 8 * k < count then ⟨windowStatus s false (off + 8 * k) 8, a + 8 * k, [], x.1⟩
    else ⟨if x.2.2 then stPoison else stOk, a, x.2.1, x.1⟩
  else
    let x := bulkReadGo (count / 8) s n lvl a []
    { x with addr := if x.status = stOk then a else x.addr }

def bulkWriteGo (s : State) (n lvl a : Nat) (ws : List (List Byte)) : BulkRes :=
  match ws with
  | [] => ⟨stOk, a, [], s⟩
  | w :: r =>
    let x := accWrite s n lvl a (ofBytes w)
    if x.status = stOk then bulkWriteGo x.state n lvl (a + 8) r else ⟨x.status, a, [], x.state⟩

/-- BULK_WRITE of a byte string. -/
def bulkWrite (s : State) (n lvl a : Nat) (data : List Byte) : BulkRes :=
  if inHbm a then
    let off := a - hbmBase
    let k := windowWords s true off (data.length / 8)
    let t := if k = 0 then s else hbmWrite s (zatSource s n) off (data.take (8 * k))
    if 8 * k < data.length then ⟨windowStatus s true (off + 8 * k) 8, a + 8 * k, [], t⟩ else ⟨stOk, a, [], t⟩
  else
    let x := bulkWriteGo s n lvl a (chunks 8 data)
    { x with addr := if x.status = stOk then a else x.addr }

end Sys2Proof.Machine
end

