-- ==== Sys2Proof/Machine/ZatOps.lean ====
section
/-!
DEFINITION. One transaction: how it completes or waits, and the register operations PING to BULK_WRITE
(15_zatas_control_protocol.md R337, R342, R346, R349, R357).
Log entries: 21.
-/
namespace Sys2Proof.Machine

open Sys2Proof

/-- How an operation answers: completed with a STATUS, an ADDRESS and response data, or begun and waiting. -/
inductive Ran
  | done (status addr : Nat) (data : List Byte) (s : State)
  | waits (what : WaitFor) (s : State)
deriving DecidableEq, Repr

/-- Completed with a status, the request's ADDRESS and no data. -/
def Ran.fail (t : Txn) (status : Nat) (s : State) : Ran := .done status t.addr [] s

/-- Completed with OK. -/
def Ran.ok (t : Txn) (data : List Byte) (s : State) : Ran := .done stOk t.addr data s

/-- The level of a session (R342). -/
def levelOf (s : State) (n : Nat) : Nat := (sessOf s n).level

/-- Run `f` when the session's level suffices and the operation is well formed; PRIVILEGE comes before MALFORMED. -/
def gate (s : State) (n need : Nat) (t : Txn) (wf : Bool) (f : State → Ran) : Ran :=
  if levelOf s n < need then .fail t stPrivilege s
  else if wf then f s else .fail t stMalformed s

/-- Operations that run before the first deck (R357), and so while an HBM stack has TRAIN_FAIL set (R330, R345). -/
def preDealOp (op : Nat) : Bool := op == 0x01 || op == 0x02 || op == 0x03 || op == 0x08 || op == 0x20 || op == 0x21

/-- The outcome record of a transaction. -/
def txnRes (t : Txn) (status addr : Nat) (data : List Byte) : TxnRes := ⟨t.op, t.tag, status, addr, data⟩

/-- Keep a transaction that has begun; its number. -/
def keepWait (s : State) (n : Nat) (direct : Bool) (t : Txn) (w : WaitFor) : Nat × State :=
  let id := s.zat.nextWait
  (id, { s with zat := { s.zat with waits := kset s.zat.waits id ⟨n, direct, t, w⟩, nextWait := id + 1 } })

/-- A waiting transaction completes: given as a command, its outcome leaves at once; in a frame, the frame may go on. -/
def finishWait (s : State) (id status addr : Nat) (data : List Byte) : State :=
  match kget s.zat.waits id with
  | none => s
  | some w =>
    let s := { s with zat := { s.zat with waits := kdel s.zat.waits id } }
    let res := txnRes w.txn status addr data
    if w.direct then { s with sent := s.sent ++ [.response w.session res] }
    else
      let x := sessOf s w.session
      match x.exec with
      | some e => if e.wait = some id then setSess s w.session { x with exec := some { e with done := e.done ++ [res], wait := none } }
          else s
      | none => s

/-- A transaction given as a command of its own: its frame has passed the checks of R335 (assumption 21, DESIGN CHOICE), and the
session is OPEN. Its outcome leaves the part at once, or it waits; a session that the operation closed is sent none
(R356, R359). -/
def direct (s : State) (n : Nat) (t : Txn) (f : State → Nat → Txn → Ran) : State :=
  if isOpen s n then
    match f s n t with
    | .done st a d s => if isOpen s n then { s with sent := s.sent ++ [.response n (txnRes t st a d)] } else s
    | .waits w s => (keepWait s n true t w).2
  else s

/-! ## PING to BULK_WRITE -/

/-- ADDRESS holds a 48-bit address and nothing above it (Table 15.3). -/
def addrOk (t : Txn) : Bool := t.addr < 2 ^ 48

/-- PING answers its data (Table 15.7). -/
def opPing (s : State) (n : Nat) (t : Txn) : Ran :=
  gate s n 0 t (t.addr == 0 && t.data.length ≤ 64) fun s => .ok t t.data s

/-- READ (R349). -/
def opRead (s : State) (n : Nat) (t : Txn) : Ran :=
  gate s n 1 t (addrOk t && t.data.isEmpty) fun s =>
    let x := accRead s n (levelOf s n) t.addr
    .done x.status t.addr (if x.status = stOk || x.status = stPoison then toBytes 8 x.value else []) x.state

/-- WRITE (R349). -/
def opWrite (s : State) (n : Nat) (t : Txn) : Ran :=
  gate s n 2 t (addrOk t && t.data.length == 8) fun s =>
    let x := accWrite s n (levelOf s n) t.addr (ofBytes t.data)
    .done x.status t.addr [] x.state

/-- RMW (R349): MASK, then VALUE. -/
def opRmw (s : State) (n : Nat) (t : Txn) : Ran :=
  gate s n 2 t (addrOk t && t.data.length == 16) fun s =>
    let x := accRmw s n (levelOf s n) t.addr (fld t.data 0 8) (fld t.data 8 8)
    .done x.status t.addr (if x.status = stOk || x.status = stPoison then toBytes 8 x.value else []) x.state

/-- A byte count of a bulk access. -/
def bulkCount (c : Nat) : Bool := 8 ≤ c && c ≤ 8192 && c % 8 == 0

/-- BULK_READ (R349). -/
def opBulkRead (s : State) (n : Nat) (t : Txn) : Ran :=
  gate s n 1 t (addrOk t && t.data.length == 8 && bulkCount (ofBytes t.data)) fun s =>
    let x := bulkRead s n (levelOf s n) t.addr (ofBytes t.data)
    .done x.status x.addr x.data x.state

/-- BULK_WRITE (R349). -/
def opBulkWrite (s : State) (n : Nat) (t : Txn) : Ran :=
  gate s n 2 t (addrOk t && bulkCount t.data.length) fun s =>
    let x := bulkWrite s n (levelOf s n) t.addr t.data
    .done x.status x.addr [] x.state

/-- A WRITE transaction of a register by address. -/
def writeTxn (a v : Nat) : Txn := ⟨0x09, 0, a, toBytes 8 v⟩

/-- A register write that is a command of its own (R7): the session's WRITE of that address. -/
def writeCmd (s : State) (n a v : Nat) : State := direct s n (writeTxn a v) opWrite

/-- A register read that is a command of its own: the session's READ of that address. -/
def readCmd (s : State) (n a : Nat) : State := direct s n ⟨0x08, 0, a, []⟩ opRead

end Sys2Proof.Machine
end

