-- ==== Sys2Proof/Machine/Fold.lean ====
section
/-!
DEFINITION. FOLD and UNFOLD: taking a hand's intake, the flow stage or a pot out of service, and returning it
(17_reset_power_and_kitty.md R396, R397; 11_fabric_and_pots.md R269; 15_zatas_control_protocol.md R352).
Log entries: 33, 34.
-/
namespace Sys2Proof.Machine

open Sys2Proof

/-! ## Targets (Table 17.6) -/

/-- The blocks that can be folded. -/
def blkIntake : Nat := 0x0C
def blkFlow : Nat := 0x10
def blkPot : Nat := 0x19

/-- Units that a fold names: a hand or pot, every one under ALL; FLOW only under ALL. -/
def foldUnits (block unit : Nat) (all : Bool) : List Nat :=
  if block = blkFlow then [0] else if all then List.range 32 else [unit]

/-- A block that can be folded, with FLOW under ALL only. -/
def foldWf (block unit : Nat) (all : Bool) : Bool :=
  block == blkIntake && decide (unit < 32) || block == blkPot && decide (unit < 32) || block == blkFlow && all

def foldState (s : State) (block unit : Nat) : FoldSt :=
  if block = blkIntake then foldOfHand s unit
  else if block = blkPot then foldOfPot s unit
  else if block = blkFlow then s.rst.foldFlow else .open_

/-- A map that lists no open target. -/
def putFold (m : KMap FoldSt) (u : Nat) (f : FoldSt) : KMap FoldSt := kput m u (if f = .open_ then none else some f)

def setFold (s : State) (block unit : Nat) (f : FoldSt) : State :=
  if block = blkIntake then { s with rst := { s.rst with foldIntake := putFold s.rst.foldIntake unit f } }
  else if block = blkPot then { s with rst := { s.rst with foldPot := putFold s.rst.foldPot unit f } }
  else if block = blkFlow then { s with rst := { s.rst with foldFlow := f } } else s

/-! ## Clk F -/

/-- Frames that PARSE has not taken are discarded and counted in HOLD_DROP (Table 17.6). -/
def dropUntaken (s : State) (h : Nat) : State :=
  (kgetD s.rb h []).foldl (fun s f => freeOcc (bump s (aPortCtr f.port 9)) f.port f.cls f.entries) { s with rb := kdel s.rb h }

/-- An open target begins to fold. -/
def foldStart (s : State) (block unit : Nat) : State :=
  if foldState s block unit = .open_ then
    let s := setFold s block unit .folding
    if block = blkIntake then dropUntaken s unit else s
  else s

/-! ## A forced fold -/

/-- A parked packet is discarded; it leaves its chain as if it had released the suit (R397). -/
def dropParked (s : State) (k : Nat) : State :=
  match kget s.stock k with
  | none => s
  | some p =>
    let s := releasePkt { s with stock := kdel s.stock k, tasks := kdel s.tasks (reentryHandle k) } p.pkt
    let x := suitAt s p.suit
    let rest := x.chain.filter (· != k)
    let s := { s with suits := kset s.suits p.suit { x with chain := rest } }
    if x.holder == some .chain && x.chain.head? == some k then releaseSuit s p.suit else s

/-- Discard the parked packets that satisfy `p`; how many they were. -/
def dropStock (s : State) (p : Parked → Bool) : Nat × State :=
  let ks := (s.stock.filter fun e => p e.2).map (·.1)
  (ks.length, ks.foldl dropParked s)

/-- Packets of the hand in PARSE to ACT, queued for recirculation and in the stock are discarded (Table 17.6). -/
def forceIntake (s : State) (h : Nat) : Nat × State :=
  let ts := (tricksOf s h ++ tricksOf s (32 + h) ++ tricksOf s (64 + h) ++ tricksOf s (96 + h)).map (·.1)
  let s := ts.foldl (fun s k => killTrick s (k / 256) (k % 256)) s
  let rs := kgetD s.recircq h []
  let s := rs.foldl dropPkt { s with recircq := kdel s.recircq h }
  let d := dropStock s fun p => p.hand == h
  (ts.length + rs.length + d.1, d.2)

/-- Every queued frame of a pot is discarded, those still arriving included; one in transmission finishes (R269). -/
def forcePot (s : State) (p : Nat) : Nat × State :=
  let fs := (s.queues.filter fun e => e.1 / 2048 == p).flatMap fun e =>
    (e.2.frames.filter fun f => !f.started).map fun f => (e.1, f.id, f.slot)
  let gone := fun q id => fs.any fun f => f.1 == q && f.2.1 == id
  let s := fs.foldl (fun s f => bump (frameOut s f.1 f.2.1 f.2.2) (aForcedDiscard p)) s
  let re := kmap s.reseq fun k x =>
    match x.recv with
    | .into q id => if k / 32 = p && gone q id then { x with recv := .discard } else x
    | _ => x
  (fs.length, { s with reseq := re })

/-- Discard the work of a folding target. -/
def forceFold (x : Nat × State) (block unit : Nat) : Nat × State :=
  if foldState x.2 block unit = .folding then
    let r := if block = blkIntake then forceIntake x.2 unit
      else if block = blkPot then forcePot x.2 unit else dropStock x.2 fun _ => true
    (x.1 + r.1, r.2)
  else x

/-! ## The end of a fold -/

/-- The work of a target has ended (Table 17.6, R269). -/
def foldWorkEnded (s : State) (block unit : Nat) : Bool :=
  if block = blkIntake then
    kcount s.pkts (256 * unit) (256 * unit + 256) == 0 && !s.stock.any fun e => e.2.hand == unit
  else if block = blkPot then
    !(s.queues.any fun e => e.1 / 2048 == unit && !e.2.frames.isEmpty) &&
    !(s.reseq.any fun e => e.1 / 32 == unit && (match e.2.recv with | .into .. => true | _ => false))
  else
    s.stock.isEmpty && !(s.suits.any fun e => e.2.holder.isSome) &&
    !(s.lines.any fun e => e.2.provisional || e.2.lstate == .pending)

/-- Every dirty line of the flow cache is written back and every line freed. -/
def emptyCache (s : State) : State :=
  (s.lines.map (·.1)).foldl (fun s n => freeLine (writeBack s n) n) s

/-- The targets of a fold all read folded. -/
def allFolded (s : State) (block unit : Nat) (all : Bool) : Bool :=
  (foldUnits block unit all).all fun u => foldState s block u == .folded

/-- The folds whose targets all read folded complete. -/
def finishFolds (s : State) : State :=
  s.zat.waits.foldl (fun s e => match e.2.what with
    | .fold b u all _ c => if allFolded s b u all then finishWait s e.1 stOk e.2.txn.addr (toBytes 8 c) else s
    | _ => s) s

/-- FOLD_COMPLETE: a folding target whose work has ended reads folded. -/
def foldDone (s : State) (block unit : Nat) : State :=
  if foldState s block unit == .folding && foldWorkEnded s block unit then
    finishFolds (setFold (if block = blkFlow then emptyCache s else s) block unit .folded)
  else s

/-! ## FOLD and UNFOLD -/

/-- ADDRESS of FOLD and UNFOLD (Table 15.7). -/
def foldBlock (t : Txn) : Nat := t.addr % 256
def foldUnit (t : Txn) : Nat := bits t.addr 12 8
def foldAll (t : Txn) : Bool := bit t.addr 13
def foldForce (t : Txn) : Bool := bit t.addr 14

/-- A waiting fold of a target that a forced fold names is forced with it, and answers the same count (R352). -/
def joinForced (w : Waiting) (block : Nat) (us : List Nat) (c : Nat) : Waiting :=
  match w.what with
  | .fold b u all _ d =>
    if b = block && (foldUnits b u all).any us.contains then { w with what := .fold b u all true (d + c) } else w
  | _ => w

def joinAll (s : State) (block : Nat) (us : List Nat) (c : Nat) : State :=
  { s with zat := { s.zat with waits := kmap s.zat.waits fun _ w => joinForced w block us c } }

/-- FOLD (R352, R396). -/
def opFold (s : State) (n : Nat) (t : Txn) : Ran :=
  let b := foldBlock t
  let us := foldUnits b (foldUnit t) (foldAll t)
  gate s n 2 t (t.addr < 2 ^ 15 && t.data.isEmpty && foldWf b (foldUnit t) (foldAll t)) fun s =>
    let s := us.foldl (fun s u => foldStart s b u) s
    let r := if foldForce t then us.foldl (fun x u => forceFold x b u) (0, s) else (0, s)
    let s := if foldForce t then joinAll r.2 b us r.1 else r.2
    if us.all (fun u => foldState s b u == .folded) then .ok t (toBytes 8 r.1) s
    else .waits (.fold b (foldUnit t) (foldAll t) (foldForce t) r.1) s

/-- A frame delivered by INJECT waits for PARSE as one received on its port (R120, R354). -/
def injected (s : State) (n port : Nat) (frame : List Byte) : RbFrame :=
  { port := port, frame := frame, fin := .good, cls := frameClass s port frame, entries := 0, rxTime := nowNs s, inject := some n, clk := s.clk }

/-- The ingress port of an INJECT. -/
def injPort (t : Txn) : Nat := bits t.addr 15 8

/-- The egress queue of an INJECT. -/
def injQueue (t : Txn) : Nat := bits t.addr 47 32

/-- PARSE of the hand that serves a port takes new frames. -/
def parseOpen (s : State) (port : Nat) : Bool := foldOfHand s (port / 8) == .open_

/-- An INJECT of session `n` hands its frame over and has its status, or it waits: for a PARSE that takes frames, and
while an L3 holds the pipeline (R354, R358). -/
def injectTry (s : State) (n : Nat) (t : Txn) : Option (Nat × State) :=
  if !hasDeck s then some (stNoDeck, s)
  else if held s then none
  else if bit t.addr 0 then
    let q := injQueue t
    let r := injectFrame s q t.data (injectHdr (curSlot s) q t.data.length 0 0 0 0) []
    some (if r.1 then stOk else stRefused, r.2)
  else
    let p := injPort t
    if parseOpen s p then some (stOk, pushRb s (p / 8) (injected s n p t.data)) else none

/-- The INJECTs that waited and now can hand their frames over do (R354). -/
def resumeInjects (s : State) : State :=
  s.zat.waits.foldl (fun s e => match e.2.what with
    | .inject => match injectTry s e.2.session e.2.txn with
      | some (st, s) => finishWait s e.1 st e.2.txn.addr []
      | none => s
    | _ => s) s

/-- The pipeline is released: a redeal reads ACTIVE, folds that were pending, commits and RESET_REQs complete, and what had
not begun goes on (R59, R356, R358, R397; Table 2.3). -/
def releasePipe (s : State) : State :=
  let s : State := { s with deck := { s.deck with phase := if s.deck.phase = .redealing then .active else s.deck.phase } }
  let s := (s.zat.waits.filter fun e => e.2.what == .release).foldl (fun s e =>
    finishWait s e.1 stOk e.2.txn.addr (if e.2.txn.op = 0x21 then toBytes 8 (deckStatusReg s) else [])) s
  resumeInjects (finishFolds s)

/-- UNFOLD: BUSY while a target reads folding, else every target opens at once (R397). -/
def opUnfold (s : State) (n : Nat) (t : Txn) : Ran :=
  let b := foldBlock t
  let us := foldUnits b (foldUnit t) (foldAll t)
  gate s n 2 t (t.addr < 2 ^ 14 && t.data.isEmpty && foldWf b (foldUnit t) (foldAll t)) fun s =>
    if us.any (fun u => foldState s b u == .folding) then .fail t stBusy s
    else .ok t [] (resumeInjects (us.foldl (fun s u => setFold s b u .open_) s))

/-- ADDRESS of a fold of a block. -/
def foldAddr (block unit : Nat) (all force : Bool) : Nat :=
  block + unit * 256 + b2n all * 8192 + b2n force * 16384

/-- FOLD (R396). -/
def execFold (session block unit : Nat) (all : Bool) (s : State) : Host.Outcome State Fault Refusal :=
  cmd (.fold session block unit all) s fun s => direct s session ⟨0x28, 0, foldAddr block unit all false, []⟩ opFold
/-- FORCED_FOLD (R269, R396). -/
def execForcedFold (session block unit : Nat) (all : Bool) (s : State) : Host.Outcome State Fault Refusal :=
  cmd (.forcedFold session block unit all) s fun s => direct s session ⟨0x28, 0, foldAddr block unit all true, []⟩ opFold
/-- UNFOLD (R397). -/
def execUnfold (session block unit : Nat) (all : Bool) (s : State) : Host.Outcome State Fault Refusal :=
  cmd (.unfold session block unit all) s fun s => direct s session ⟨0x29, 0, foldAddr block unit all false, []⟩ opUnfold
/-- FOLD_COMPLETE (R396). -/
def execFoldComplete (block unit : Nat) (s : State) : Host.Outcome State Fault Refusal :=
  cmd (.foldComplete block unit) s fun s => foldDone s block unit

end Sys2Proof.Machine
end

