-- ==== Sys2Proof/Machine/Clock.lean ====
section
/-!
DEFINITION. One CK_CORE clock: the empty slot-clocks of the dealers fall in their accounts, and the timebase advances
(16_observability.md R377, R378; assumption 1, DESIGN CHOICE).
Log entries: 1, 51.
-/
namespace Sys2Proof.Machine

open Sys2Proof

/-- Issue slots of a dealer that hold no microword in this clk. -/
def emptySlots (s : State) (d : Nat) : Nat := 8 - slotsBusy s d

/-- Put a trick in its place by age. -/
def byAge (xs : List (Nat × Trick)) (x : Nat × Trick) : List (Nat × Trick) :=
  match xs with
  | [] => [x]
  | y :: r => if x.2.age < y.2.age then x :: y :: r else y :: byAge r x

/-- Held tricks of a dealer that are not ready, oldest first. -/
def waiting (s : State) (d : Nat) : List (Nat × Trick) :=
  ((tricksOf s d).filter fun e => e.2.readyAt ≤ s.clk && !mayIssue s d e.2).foldl byAge []

/-- An ended PARSE trick whose packet's walk has not ended (R125). -/
def walkWaits (s : State) (d : Nat) (t : Trick) : Bool :=
  stageOf d == 0 && (match getPkt s t.pkt with | some p => !p.walk.done | none => false)

/-- The BACK account of a waiting trick and its event: CREDIT, HBM, FLOW, LOOKUP (R377, Tables 16.13, 16.14). -/
def backAccount (s : State) (d : Nat) (t : Trick) : Nat × Nat :=
  if t.ended then (if walkWaits s d t then (4, 6) else (7, 9))
  else match t.wait with
    | some (.fetch ..) => (6, 8)
    | some (.host _) => (6, 8)
    | some (.suit ..) => if stageOf d = 7 then (6, 8) else (5, 7)
    | some (.woken ..) => if stageOf d = 7 then (6, 8) else (5, 7)
    | _ => if flowWaits t s.clk then (if stageOf d = 7 then (6, 8) else (5, 7))
      else if foldWaits s d t (trickWord s d t) then (6, 8) else (4, 6)

/-- The result slot that a trick's MATCH.WAIT or its next word `w` waits for. -/
def awaitedSlot (t : Trick) (w : Mw) : Option Nat := match t.mwait with
  | some k => some k
  | none =>
    (((([w.aA, w.aB, w.eSrc].filter fun c => 6 ≤ c && c ≤ 9).map (· - 6))
      ++ (if 5 ≤ w.cond ∧ w.cond ≤ 12 then [(w.cond - 5) % 4] else [])) ++ [3]).find? fun k => (kget t.pend k).isSome

/-- SUBJECT of a BACK event: the awaited suit, the record's index or the table id (Table 16.15). -/
def backSubject (s : State) (d : Nat) (t : Trick) : Nat := match t.wait with
  | some (.suit n ..) => n
  | some (.host n) => n
  | some (.fetch line ..) => (kget s.lines line).elim 0 Line.index
  | _ => if (backAccount s d t).1 = 4 then ((awaitedSlot t (trickWord s d t)).bind fun k => kget t.pend k).elim 0 Look.table else 0

/-- One slot-clock of a waiting trick. -/
def backOne (s : State) (d key : Nat) (t : Trick) : State :=
  let a := backAccount s d t
  let x := perfOf s t (key % 256) t.addr (trickWord s d t).cls (s.clk - t.readyAt) (backSubject s d t)
  perfEvent (perfEvent (perfBusy (perfAcct s d a.1 1) d 1) d a.2 1 x) d 5 1 x

/-- FRONT slot-clocks of a dealer in this clk. -/
def frontSlots (s : State) (d : Nat) : Nat := emptySlots s d - (waiting s d).length

/-- BACK slot-clocks of a dealer: one for each waiting trick, while slots are empty. -/
def backDealer (s : State) (d : Nat) : State :=
  ((waiting s d).take (emptySlots s d)).foldl (fun s e => backOne s d e.1 e.2) s

/-- Counters of CLOCKS (1) and FRONT (4) events take their dealers' events of this clk, as they stood in `at_`. -/
def clockCounter (at_ s : State) (m : Nat × Nat) : State :=
  let c := regRaw s (aPerfCfg m.1 m.2) 0
  let ev := bits c 4 0
  let ds := (List.range (bits c 22 14 + 1 - m.1)).map (m.1 + ·)
  if (ev == 1 || ev == 4) && perfPass s m.1 m.2 PerfAt.nobody then
    (if ds.isEmpty then [m.1] else ds).foldl (fun s d =>
      let n := if ev = 1 then 1 else frontSlots at_ d
      if n = 0 then s else perfCount s m.1 m.2 d ev n PerfAt.nobody) s
  else s

/-- The trick is suspended on the word it issued last (R74, R75, R188). -/
def suspended (s : State) (t : Trick) : Bool :=
  !t.ended && !t.spent.isEmpty && t.readyAt ≤ s.clk && (t.wait.isSome || t.mwait.isSome || flowWaits t s.clk)

/-- A clk more that a suspended trick has waited on its word (Table 16.15). -/
def waitOne (s : State) (e : Nat × Trick) : State :=
  if suspended s e.2 then
    { s with perfCnt := kmod s.perfCnt (waitKey (e.1 / 256) (e.1 % 256) (e.2.spent.length - 1)) 0 (· + 1) }
  else s

/-- The accounts of one clk. -/
def accounts (s : State) : State :=
  let ds := sortNat (s.tricks.map fun e => e.1 / 256)
  s.tricks.foldl waitOne ((perfMasters s).foldl (clockCounter s) (ds.foldl backDealer s))

/-- One CK_CORE clock of the whole part, with the release of a held pipeline (Table 2.3, step 6); like a command of the running part it leaves the stores alone. -/
def tickAll (s : State) : State :=
  let u := tick (accounts (refreshes s))
  keepFixed u (timeTick (if u.clk = u.rst.heldTill then releasePipe u else u))

end Sys2Proof.Machine
end

