-- ==== Sys2Proof/Machine/Obs.lean ====
section
/-!
DEFINITION. Snapshots, dumps and periodic exports (16_observability.md R365 to R368, R371, R373, R374).
Log entries: 39.
-/
namespace Sys2Proof.Machine

open Sys2Proof

/-! ## Groups (Table 16.4) -/

/-- Counter words at an address, `n` of them. -/
def ctrWords (s : State) (a n : Nat) : List Nat := (List.range n).map fun i => regRaw s (a + 8 * i) 0

/-- Words of group ENGINE. -/
def engineWords (s : State) : List Nat :=
  [linesReg s] ++ ctrWords s aHits 13 ++ [stockReg s] ++ ctrWords s aStockFull 3 ++ [tskReg s, tskReg2 s]
  ++ ctrWords s aPosted 10 ++ [regRaw s aLateLen 0] ++ [regRaw s aTieCount 0] ++ ctrWords s aSearches 3 ++ [regRaw s aRowErr 0]
  ++ [inflightReg s, heldReg s, mirrorReg s, regRaw s aMirrorFull 0] ++ ctrWords s (aTmCtr 0) 3

/-- Words of queue `q` in group QUEUES. -/
def queueWords (s : State) (q : Nat) : List Nat :=
  [queueWord s q] ++ ctrWords s (aQCtr q 0) 5 ++ [ptrWord s q, avgWord s q] ++ ctrWords s (aTmQCtr q 0) 5

/-- Words of reason `r` in group REASONS. -/
def reasonWords (s : State) (r : Nat) : List Nat := ctrWords s (aReason r 0) 4 ++ [tokensOf s r]

/-- The accounts and counters of dealer `d` (Table 16.14). -/
def perfWords (s : State) (d : Nat) : List Nat :=
  [perfClocks s d] ++ ctrWords s (aPerf d + 8) 2 ++ [perfFront s d] ++ ctrWords s (aPerf d + 0x20) 12

/-- TIME.NOW_S to UTC_AT and the counters of Table 13.11. -/
def timeWords (s : State) : List Nat :=
  [nowSReg s, nowNsReg s, timeReg s, rateReg s, phaseReg s, utcReg s, s.time.leapAt % 2 ^ 48] ++ ctrWords s (aTimeCtr 0) 4

/-- The words of a group as they stand; none for an id that names no group. -/
def groupWords (s : State) (g : Nat) : Option (List Nat) :=
  if g = 0 then some ((confWords s).map (·.toNat))
  else if g = 1 then some (timeWords s)
  else if g = 2 then some (engineWords s)
  else if g = 3 then some (hbmStatus s :: (List.range 4).flatMap fun st => ctrWords s (aHbmCtr st 0) 5)
  else if g = 4 then some ((List.range 143).map (xqReg s))
  else if g = 5 then some (zatReg s :: ctrWords s (aZatCtr 0 0) 16 ++ ctrWords s (aZatCtr 1 0) 16)
  else if g = 6 then some ((List.range 64).flatMap (reasonWords s))
  else if g = 7 then
    some ((List.range 4).flatMap (fun p => ctrWords s (aFab p 0) 5) ++ (List.range 32).flatMap fun p => ctrWords s (aPotCtr p 0) 6)
  else if 0x100 ≤ g ∧ g < 0x200 then
    some (portStatusReg s (g - 0x100) :: (if isPort s (g - 0x100) then ctrWords s (aPortCtr (g - 0x100) 0) 35 else List.replicate 35 0))
  else if 0x1000 ≤ g ∧ g < 0x1400 then some ((List.range 64).flatMap fun i => queueWords s (64 * (g - 0x1000) + i))
  else if 0x2000 ≤ g ∧ g < 0x2080 then
    some ((List.range 512).map fun i => regRaw s (aTmPolicer (512 * (g - 0x2000) + i) 3) 0)
  else if 0x2100 ≤ g ∧ g < 0x2120 then
    some ((List.range 256).flatMap fun i =>
      let r := 256 * (g - 0x2100) + i
      [ringUsedReg s r, regRaw s (aRingLost r) 0])
  else if 0x3000 ≤ g ∧ g < 0x3120 then some (ctrWords s (aDlr (g - 0x3000) 0) 6 ++ [dlrStatusOf s (g - 0x3000)])
  else if 0x3200 ≤ g ∧ g < 0x3320 then some (perfWords s (g - 0x3200))
  else none

/-- The group is PRIVILEGED (Table 16.4). -/
def groupPriv (g : Nat) : Bool := 0x3200 ≤ g && g < 0x3320

/-! ## Captures (R365, R366) -/

/-- A capture of a group counts in its SEQ. -/
def captured_ (s : State) (g : Nat) : State :=
  { s with snapSeq := kset s.snapSeq g ((kgetD s.snapSeq g 0 + 1) % 2 ^ 32) }

/-- A group image (Table 16.3). -/
def groupImage (s : State) (g : Nat) (ws : List Nat) : List Byte :=
  toBytes 2 g ++ toBytes 2 ws.length ++ toBytes 4 (kgetD s.snapSeq g 0) ++ toBytes 6 (nowS s) ++ toBytes 4 (nowNs s % 10 ^ 9)
  ++ toBytes 1 (b2n s.time.valid) ++ toBytes 13 0 ++ ws.flatMap (toBytes 8)

/-- SNAPSHOT (R366 to R368); one of CONF or TIME is also a latch of that group (R8). -/
def opSnapshot (s : State) (n : Nat) (t : Txn) : Ran :=
  let g := t.addr
  gate s n 1 t (g < 65536 && t.data.isEmpty) fun s =>
    match groupWords s g with
    | none => .fail t stAddress s
    | some ws =>
      if groupPriv g && levelOf s n < 3 then .fail t stPrivilege s
      else
        let s := captured_ s g
        let s' := if g = 0 then latchConfOp s else if g = 1 then latchTimeOp s else s
        .ok t (groupImage s g ws) s'

/-! ## Dumps (R373, R374) -/

/-- Offset of the `i`-th DUMP record in the OBS body. -/
def dumpRecOff (s : State) (i : Nat) : Nat := 64 + 16 * coldF s tyObs 0 2 + 64 * i

/-- The DUMP record of an engine. -/
def dumpRec (s : State) (e : Nat) : Option Nat :=
  (findUp (coldF s tyObs 2 1) 0 fun i => coldF s tyObs (dumpRecOff s i) 1 == e).map (dumpRecOff s)

def dumpGroups (s : State) (o : Nat) : List Nat :=
  (List.range (coldF s tyObs (o + 2) 1)).map fun i => coldF s tyObs (o + 16 + 2 * i) 2

/-- Window offset of the dump region (Table 16.9). -/
def dumpRegion (s : State) : Nat :=
  let n := coldF s tyObs 11 1
  (if n = 0 then 6 else n - 1) * 2 ^ 32

/-- Bytes of a dump: header, images and trailer. -/
def dumpBytes (s : State) (gs : List Nat) : Nat :=
  40 + (gs.map fun g => 32 + 8 * ((groupWords s g).elim 0 List.length)).sum

def dumpSlotBytes (s : State) (gs : List Nat) : Nat := cdiv (dumpBytes s gs) 4096 * 4096

/-- A slot header (Table 16.6). -/
def dumpHeader (s : State) (seq e : Nat) (complete skipped : Bool) (count bytes : Nat) : List Byte :=
  toBytes 8 seq ++ toBytes 1 e ++ toBytes 1 (b2n complete + b2n skipped * 2 + b2n s.time.valid * 4) ++ toBytes 2 count
  ++ toBytes 4 bytes ++ toBytes 6 (nowS s) ++ toBytes 4 (nowNs s % 10 ^ 9) ++ toBytes 6 0

/-- SKIPS of an engine (Table 16.7). -/
def aDumpSkips (e : Nat) : Nat := 0x280000000408 + e * 0x10

def dumpOf (s : State) (e : Nat) : Dump := kgetD s.dumps e ⟨0, 0, false, false⟩

/-- A task that a fixed sequence of the part runs at once: posted, dispatched, ended; none when the pool is empty. -/
def partRuns (s : State) (b : TaskBody) : Option State :=
  (partPost s b .micro).map fun x =>
    let d := takeDealer x.2
    let c := (kfree s.tricks (256 * d) (256 * d + 256)).getD 0 % 256
    let s := traceTask (bump x.2 aDispatched) 1 false x.1 (some b) d c
    traceTask (endTask s x.1) 2 false x.1 (some b) d c

/-- The body of a dump's capture task (R373). -/
def dumpBody (s : State) (o : Nat) : TaskBody :=
  { args := [0, 0, 0, 0], suit := none, succ := none, routine := 0xFE, list := if coldF s tyObs (o + 4) 4 < 1000 then 14 else 15,
    urgent := false, level := tskLevel s 3, delay := 0, origin := 2 }

/-- Write dump `n` of engine `e` with the groups of record `o`. -/
def dumpWrite (s : State) (e o : Nat) : State :=
  let gs := dumpGroups s o
  let slots := coldF s tyObs (o + 1) 1
  let at_ := fun j => dumpRegion s + coldF s tyObs (o + 8) 4 * 4096 + j * dumpSlotBytes s gs
  let total := dumpBytes s gs
  let x := dumpOf s e
  let s := if x.headers then s
    else (List.range slots).foldl (fun s j => hbmWrite s (104 + e) (at_ j) (dumpHeader s 0 e false false gs.length total)) s
  let n := x.seq + 1
  let j := (n - 1) % slots
  let s := gs.foldl captured_ s
  let head := fun c => dumpHeader s n e c x.skipped gs.length total
  let images := gs.flatMap fun g => groupImage s g ((groupWords s g).getD [])
  let w := hbmWrite s (104 + e) (at_ j) (head false)
  let w := hbmWrite w (104 + e) (at_ j + 32) (images ++ toBytes 8 n)
  let w := hbmWrite w (104 + e) (at_ j + 8) (slice (head true) 8 8)
  { w with dumps := kset w.dumps e ⟨n, j, true, false⟩ }

/-- DUMP_CAPTURE: the engine's period is over; while a stack has TRAIN_FAIL set the dump is skipped (R373). -/
def dumpOp (s : State) (e : Nat) : State :=
  match dumpRec s e with
  | none => s
  | some o =>
    if trainFailed s then
      bump { s with dumps := kset s.dumps e { dumpOf s e with skipped := true } } (aDumpSkips e)
    else match partRuns s (dumpBody s o) with
      | none => holdPost s (.dump e)
      | some s => dumpWrite s e o

/-- EXPORT_PERIOD: one export task on list 15 (R371). -/
def exportOp (s : State) : State :=
  let p := coldF s tyObs 8 2
  if !hasDeck s || p = 0 then s
  else match partPost s (exportBody s 0 15 p) .exporting with
    | some x => x.2
    | none => holdPost s .period

/-- SNAPSHOT (R365). -/
def execSnapshot (session group : Nat) (s : State) : Host.Outcome State Fault Refusal :=
  cmd (.snapshot session group) s fun s => direct s session ⟨0x10, 0, group, []⟩ opSnapshot
/-- EXPORT_PERIOD (R371). -/
def execExportPeriod (s : State) : Host.Outcome State Fault Refusal := cmd .exportPeriod s fun s => exportOp s
/-- DUMP_CAPTURE (R373). -/
def execDumpCapture (engine : Nat) (s : State) : Host.Outcome State Fault Refusal :=
  cmd (.dumpCapture engine) s fun s => dumpOp s engine

end Sys2Proof.Machine
end

