-- ==== Sys2Proof/Machine/Tables.lean ====
section
/-!
DEFINITION. Host TABLE operations and the match unit's block moves and scrubber (07_match_and_shuffle.md R149, R151 to
R155, R160 to R162, R169; 12_traffic_manager.md R283; 15_zatas_control_protocol.md R350, Table 15.8).
Log entries: 36.
-/
namespace Sys2Proof.Machine

open Sys2Proof

/-! ## Rules of one item, which the deck loader shares -/

/-- A RANGES entry: OFF at most 126, HI not below LO (Table 7.8, 0x0005). -/
def rangeBoundsOk (b : List Byte) : Bool := fld b 0 1 % 128 ≤ 126 && (fld b 2 2 ≤ fld b 4 2)
/-- Its reserved bytes are 0 (0x0008). -/
def rangeReservedOk (b : List Byte) : Bool := fld b 1 1 == 0 && fld b 6 2 == 0

/-- A shuffle header obeys Table 7.8, DETAIL 0x0007. -/
def shufHdrOk (b : List Byte) : Bool :=
  let off := fun i => fld b (4 + 2 * i) 1
  let len := fun i => fld b (5 + 2 * i) 1
  let toe := fld b 1 1 == 1
  fld b 0 1 ≤ 63 && fld b 1 1 ≤ 1
  && ((List.range 4).all fun i => len i ≤ 16 && off i + len i ≤ 256)
  && (!bit (fld b 2 1) 0 || (len 0 == len 1 && len 2 == len 3))
  && (!toe || len 0 + len 1 + len 2 + len 3 ≤ 36)
  && (fld b 56 2 == 0 || fld b 56 2 == 4096)
  && (!toe || fld b 12 4 == 0) && (toe || fld b 16 40 == 0)
/-- Its reserved bits are 0 (0x0008). -/
def shufHdrReservedOk (b : List Byte) : Bool := fld b 2 1 / 2 == 0 && fld b 3 1 == 0 && fld b 58 6 == 0

/-- A MATCHROWS entry's reserved bytes and bits are 0 (0x0008). -/
def rowReservedOk (b : List Byte) : Bool :=
  fld b 0 4 < 2 ^ 17 && fld b 6 2 == 0 && fld b 8 4 < 2 ^ 20 && fld b 12 4 == 0
/-- No VALUE bit outside MASK (R143). -/
def rowMaskOk (b : List Byte) : Bool := fld b 16 40 &&& (ones 320 - fld b 56 40) == 0

/-- An FSM cell (Table 9.1): reserved bits 0, NEXT a state or 0xFF. -/
def fsmCellOk (w : Nat) : Bool := bits w 14 12 == 0 && bits w 7 0 == 0 && (bits w 31 24 < 32 || bits w 31 24 == 0xFF)

/-- A curve's DEPTH never decreases (R280). -/
def curveOk (b : List Byte) : Bool := (List.range 31).all fun i => fld b (4 * i) 2 ≤ fld b (4 * i + 4) 2

/-! ## Match rows -/

/-- The 96 B of row `i` as a TABLE READ returns it (Tables 7.2, 15.8). -/
def rowItem (s : State) (i : Nat) : List Byte :=
  match kget s.rows i with
  | none => toBytes 4 i ++ List.replicate 92 0
  | some r => toBytes 4 i ++ toBytes 2 r.trump ++ toBytes 1 (b2n r.v0 + 2 * b2n r.v1) ++ toBytes 1 0 ++ toBytes 4 r.result
      ++ toBytes 4 0 ++ toBytes 40 r.value ++ toBytes 40 r.mask

/-- The row that an item spells, valid in the current slot only (R151). -/
def itemRow (s : State) (b : List Byte) : Row := rowFor s (fld b 16 40) (fld b 56 40) (fld b 4 2) (fld b 8 4)

/-- The match table that holds a row index; none for an unused block (R144). -/
def rowTable (s : State) (i : Nat) : Option Nat :=
  if i < 131072 && !(coldBody s tyMatchgeom).isEmpty && blockF s (i / 2048) 0 1 < 0x80 then some (blockF s (i / 2048) 0 1) else none

/-- A TABLE operation that is done at once: its status, response data and the state after. -/
structure TabRes where
  status : Nat
  data   : List Byte
  state  : State
  /-- The INSERT waits for the match unit (R152). -/
  moves  : Bool
deriving DecidableEq, Repr

def tabFail (s : State) (status : Nat) : TabRes := ⟨status, [], s, false⟩
def tabOk (s : State) (data : List Byte) : TabRes := ⟨stOk, data, s, false⟩

/-- A hot commit is being loaded or retired: TABLE operations but those on the pool are refused (R64). -/
def hotBusy (s : State) : Bool := s.deck.phase == .hotPending || s.deck.phase == .retiring

/-! ## Host tasks in their contexts (R22, R235) -/

/-- Release every suit that a task holds. -/
def releaseTask (s : State) (h : Nat) : State :=
  (s.suits.filter fun e => e.2.holder == some (.task h)).foldl (fun s e => releaseSuit s e.1) s

/-- What stands in the context of a host task that waits: its fixed sequence has no COMMIT to wait for, so nothing
restarts or displaces it. -/
def hostTrick (s : State) (h : Nat) (w : WaitOn) : Trick :=
  { Trick.blank with task := some h, committed := true, slot := curSlot s, wait := some w, age := s.order, entryClk := s.clk }

/-- The context in which a host task waits. -/
def hostAt (s : State) (h : Nat) : Option Nat :=
  (kfind s.tricks fun _ t => t.task == some h && (match t.wait with | some (.host _) => true | some .unit => true | _ => false)).map
    (·.1)

/-- A host task ends in its context, which returns to TAKE. -/
def hostLeave (s : State) (h : Nat) : State :=
  let body := (kget s.tasks h).map (·.body)
  let s := endTask (releaseTask s h) h
  match hostAt s h with
  | some k => freeCtx (traceTask s 2 false h body (k / 256) (k % 256)) (k / 256) (k % 256)
  | none => s

/-- Match rows (R151). `w`: the transaction's number, by which the match unit completes an INSERT. -/
def tabRow (s : State) (w sub i : Nat) (d : List Byte) : TabRes :=
  let item := d.length == 96 && fld d 0 4 == i && rowReservedOk d && rowMaskOk d
  if sub = 0 then
    if !d.isEmpty then tabFail s stMalformed
    else if i < 131072 then tabOk s (rowItem s i) else tabFail s stPosition
  else if sub = 3 then
    if !d.isEmpty then tabFail s stMalformed
    else match rowTable s i with
      | none => tabFail s stPosition
      | some _ => tabOk { s with rows := kdel s.rows i } []
  else if !item then tabFail s stMalformed
  else match rowTable s i with
    | none => tabFail s stPosition
    | some t =>
      let r := itemRow s d
      if sub = 1 then
        if preOk s (i / 2048) r.value r.mask then tabOk (putRow s i r) [] else tabFail s stPrefilter
      else ⟨stOk, [], { s with moves := s.moves ++ [⟨w, t, i, none, r⟩] }, true⟩

/-- The host task of transaction `w` that runs in its context until its move ends (R22, Table 10.4). -/
def moveTask (s : State) (w : Nat) : Option (Nat × Task) := kfind s.tasks fun _ t => t.kind == .host w && t.state == .running

/-- The match unit has done with an INSERT: its task and its transaction end. -/
def endMove (s : State) (w st : Nat) : State :=
  let s := match moveTask s w with | some x => hostLeave s x.1 | none => s
  finishWait s w st (match kget s.zat.waits w with | some x => x.txn.addr | none => 0) []

/-- One clk of the match unit (R152, R153): it finds the free row and checks R149, or moves one row, or writes the new
row, whose INSERT then completes. An INSERT that a hot commit overtakes is refused where it stands (R64). -/
def matchMoveOp (s : State) : State :=
  match s.moves with
  | [] => s
  | m :: rest =>
    let stop := fun (st : Nat) => endMove { s with moves := rest } m.wait st
    if hotBusy s then stop stBusy
    else match m.hole with
    | none =>
      let span := (insertSpan s m.table m.at_).getD (0, 0)
      match nearFree s span.1 span.2 m.at_ with
      | none => stop (if blockGap s (m.at_ / 2048) = 0 then stNoRoom else stGroupFull)
      | some f =>
        if moveOk s f m.at_ m.row.value m.row.mask then { s with moves := { m with hole := some f } :: rest }
        else stop stPrefilter
    | some f =>
      let target := if m.at_ ≤ f then m.at_ else m.at_ - 1
      if f = target then
        endMove (putRow { s with moves := rest } target m.row) m.wait stOk
      else
        let src := if m.at_ ≤ f then f - 1 else f + 1
        { moveRow s src f with moves := { m with hole := some src } :: rest }

/-- The scrubber reads the next row; one whose parity fails is freed in both slots, counted and recorded (R155). -/
def matchScrubOp (s : State) (bad : Bool) : State :=
  let i := s.scrubRow
  let s := { s with scrubRow := (i + 1) % 131072 }
  if bad then
    setLog (bump { s with rows := kdel s.rows i } aRowErr) aRowErrLast ((rowTable s i).getD 0 % 128 + i * 2 ^ 7 + 2 ^ 63)
  else s

/-! ## The pool -/

/-- Pool entries (R160 to R162). INDEX: bits [7:0] the table, the rest the entry of an INDEX table. -/
def tabPool (s : State) (sub ix : Nat) (d : List Byte) : TabRes :=
  match poolTab s (ix % 256) with
  | none => tabFail s stPosition
  | some p =>
    let e := ix / 256
    if p.kind = 2 then
      if p.pages * 16384 ≤ e then tabFail s stPosition
      else if sub = 0 then
        if d.isEmpty then
          (if s.poolSet.contains (p.first * 65536 + 4 * e) then
            tabOk s (toBytes 8 (memNat s.pool (p.first * 65536 + 4 * e) 4)) else tabFail s stNotFound)
        else tabFail s stMalformed
      else if sub = 1 then
        if d.length = 8 && fld d 0 4 = 0 then tabOk (poolIndexWrite s p e (fld d 4 4)) [] else tabFail s stMalformed
      else tabFail s stMalformed
    else
      let len := fld d 1 1
      let raw := slice d 8 p.keyLen
      let size := cdiv (8 + p.keyLen) 8 * 8
      if e ≠ 0 || sub = 1 || d.length ≠ size || fld d 0 1 ≠ 0 || fld d 2 2 ≠ 0 || (p.kind = 0 && len ≠ 0)
          || (d.drop (8 + p.keyLen)).any (· != 0) then tabFail s stMalformed
      else if p.kind = 1 && !p.lengths.contains len then tabFail s stLength
      else
        let key := if p.kind = 1 then maskKey raw len else raw
        let at_ := poolFind s p key len
        match sub, at_ with
        | 0, some (b, i) => tabOk s (slice (0 :: (poolEntry p key len (poolData s p b i)).drop 1) 0 size)
        | 0, none => tabFail s stNotFound
        | 2, some _ => tabFail s stKeyExists
        | 2, none => (match poolInsert s p key len (fld d 4 4) with
          | some t => tabOk t []
          | none => tabFail s stNoRoom)
        | _, some (b, i) => tabOk (poolFree s p b i) []
        | _, none => tabFail s stNotFound

/-! ## The tables of the hot segments, in the current slot -/

/-- READ or WRITE of `n` bytes at `off` of a hot body, an item of which `ok` must hold. -/
def tabHot (s : State) (sub ty off n : Nat) (d : List Byte) (view : List Byte → List Byte) (ok : List Byte → Bool)
    (put : List Byte → List Byte) : TabRes :=
  let e := curSlot s
  if sub = 0 then
    if d.isEmpty then tabOk s (view (slice (hotBody s e ty) off n)) else tabFail s stMalformed
  else if sub = 1 && ok d then
    let b := hotBody s e ty
    tabOk (setHot s e ty (patch (slice b 0 (max b.length (off + n))) off (put d))) []
  else tabFail s stMalformed

/-- Shuffle entries and headers (R167, R169). -/
def tabShuf (s : State) (sub t : Nat) (hdr : Bool) (i : Nat) (d : List Byte) : TabRes :=
  let r := shufRec s (curSlot s) t
  if 64 ≤ t then tabFail s stPosition
  else if sub = 0 then
    if !d.isEmpty then tabFail s stMalformed
    else tabOk s (if hdr then slice r 0 64 else toBytes 8 (shufEntry r i))
  else if sub ≠ 1 then tabFail s stMalformed
  else if hdr then
    if d.length = 64 && fld d 0 1 = t && shufHdrOk d && shufHdrReservedOk d then
      tabOk (setShuf s (curSlot s) t (patch r 0 (patch d 56 (toBytes 2 4096)))) []
    else tabFail s stMalformed
  else if d.length = 8 && fld d 0 4 = 0 && bits (fld d 4 4) 27 24 = 0 then
    tabOk (setShuf s (curSlot s) t (patch r (64 + 4 * i) (d.drop 4))) []
  else tabFail s stMalformed

/-- Word-sized items stand in bytes 4 to 7 of 8 B. -/
def wordItem (d : List Byte) : Bool := d.length == 8 && fld d 0 4 == 0

/-- One TABLE operation on KIND at INDEX (Table 15.8). -/
def tabRun (s : State) (w sub kind ix : Nat) (d : List Byte) : TabRes :=
  match kind with
  | 1 => tabRow s w sub ix d
  | 2 => tabPool s sub ix d
  | 3 => tabShuf s sub (ix / 4096) false (ix % 4096) d
  | 4 => tabShuf s sub ix true 0 d
  | 5 =>
    if 8192 ≤ ix then tabFail s stPosition
    else tabHot s sub tyRanges (8 * ix) 8 d id (fun d => d.length == 8 && rangeBoundsOk d && rangeReservedOk d) id
  | 6 =>
    if (hotBody s (curSlot s) tyCurves).length / 128 ≤ ix then tabFail s stPosition
    else tabHot s sub tyCurves (128 * ix) 128 d id (fun d => d.length == 128 && curveOk d) id
  | 7 =>
    if (hotBody s (curSlot s) tyFlowfsm).length / 4 ≤ ix then tabFail s stPosition
    else tabHot s sub tyFlowfsm (4 * ix) 4 d (fun b => toBytes 4 0 ++ b) (fun d => wordItem d && fsmCellOk (fld d 4 4)) (·.drop 4)
  | _ => tabFail s stMalformed

/-- MATCH_MOVE (R152). -/
def execMatchMove (s : State) : Host.Outcome State Fault Refusal := cmd .matchMove s matchMoveOp
/-- MATCH_SCRUB (R155). -/
def execMatchScrub (bad : Bool) (s : State) : Host.Outcome State Fault Refusal :=
  cmd (.matchScrub bad) s fun s => matchScrubOp s bad

end Sys2Proof.Machine
end

