-- ==== Sys2Proof/Machine/Checks.lean ====
section
/-!
DEFINITION. The checks of a segment body: the DETAIL tables of the owning chapters, and the capacities
(02_contracts_and_floors.md R36; 04 R82, Table 4.13; 05 R103, Table 5.5; 06 R141, Table 6.10; 07 R170, Table 7.8;
08 R176, Table 8.5; 09 R204, Table 9.3, R213; 11 R259, Table 11.7; 12 R288, Table 12.4; 13 R315, Table 13.7;
15 R360, Table 15.11; 16 R376, Table 16.12). Each check looks at a scratch part `t` that holds the deck's segments as
if they were applied in slot 0, so that the readers of the running part serve here too.
Log entries: 30.
-/
namespace Sys2Proof.Machine

open Sys2Proof

/-- Codes of a body's failures, each with whether it holds; the lowest is reported (R425). -/
abbrev Fails := List (Nat × Bool)

def lowest (fs : Fails) : Option Nat := (fs.find? (·.2)).map (·.1)

def zeros (bs : List Byte) : Bool := bs.all (· == 0)
/-- Bytes [lo, hi) of a record are 0. -/
def zeroed (r : List Byte) (lo hi : Nat) : Bool := zeros (slice r lo (hi - lo))
/-- An `n`-byte two's complement field. -/
def sfld (r : List Byte) (off n : Nat) : Int := sint (8 * n) (fld r off n)
def repeats (xs : List Nat) : Bool := (sortNat xs).length != xs.length

/-! ## CONTRACT (R36) -/

/-- The record geometry that a CONTRACT body selects; none where R36 rejects it. -/
def contractGeom (b : List Byte) : Option Nat :=
  let c := fld b 0 1
  let g := fld b 1 1
  if b.length ≠ 8 || c = 0 || 5 < c || !zeroed b 2 8 then none
  else if c = ctLongSuit then (if g = 0 || g = 1 then some 1 else none)
  else if g = 0 || g = 2 then some 2
  else if g = 3 then some 3
  else none

/-! ## PORTMAP and CLOCKS (Table 5.5) -/

def recLane (r : List Byte) (i : Nat) : Nat := fld r i 1
def recMode (r : List Byte) (i : Nat) : Nat := recLane r i % 32
def recStart (r : List Byte) (i : Nat) : Bool := bit (recLane r i) 7

/-- Lane `i` of an octet record stands in a port as R98 and R100 give it, or is unused. -/
def laneOk (r : List Byte) (i : Nat) : Bool :=
  let m := recMode r i
  let k := modeLanes m
  if 15 < m then false
  else if m = 0 then !recStart r i
  else if recStart r i then i % k == 0 && ((List.range (k - 1)).all fun j => !recStart r (i + 1 + j) && recMode r (i + 1 + j) == m)
  else i % k != 0 && recStart r (i / k * k) && recMode r (i / k * k) == m

def octetUsed (r : List Byte) : Bool := (List.range 8).any fun i => recMode r i != 0
def isPerm8 (v : Nat) : Bool := sortNat ((List.range 8).map fun i => bits v (3 * i + 2) (3 * i)) == List.range 8

/-- OPT of a port (Table 5.5, 0x0005). -/
def optOk (m o : Nat) : Bool :=
  let cls := o % 4
  let an := bit o 5
  let train := bit o 4
  let fec := bits o 3 2
  !(m == 3 && (an || train)) && !(an && m == 1 && cls != 0) && !((an || train) && cls == 2) && cls != 3
  && bits o 7 6 != 3 && fec != 3 && (fec == 0 || modeNrz m) && !(fec == 2 && m == 1)

def octetReservedOk (r : List Byte) : Bool :=
  ((List.range 8).all fun i => bits (recLane r i) 6 5 == 0 && (recStart r i || fld r (16 + i) 1 == 0)) && fld r 31 1 == 0
  && (!octetUsed r || fld r 27 1 < 8)

def portmapFails (b : List Byte) : Fails :=
  let rs := chunks 32 b
  [(1, b.length != 1024 || rs.any fun r => !octetReservedOk r),
   (2, rs.any fun r => (List.range 8).any fun i => !laneOk r i),
   (3, rs.any fun r => !isPerm8 (fld r 8 3) || !isPerm8 (fld r 11 3)),
   (5, rs.any fun r => (List.range 8).any fun i => recStart r i && !optOk (recMode r i) (fld r (16 + i) 1)),
   (6, rs.any fun r => octetUsed r
      && (fld r 24 2 < 1518 || 9216 < fld r 24 2 || fld r 28 1 == 0 || fld r 28 1 ≤ fld r 29 1))]

/-- The family of a mode: 1 P, 2 N25, 3 N10 (R99). -/
def modeFamily (m : Nat) : Nat := if m = 1 then 3 else if m = 2 then 2 else 1

/-- FAMILY of half-octet `h` agrees with the modes of its lanes. -/
def familyOk (t : State) (b : List Byte) (h : Nat) : Bool :=
  let used := ((List.range 4).map fun i => laneMode t (4 * h + i)).filter (· != 0)
  let f := fld b h 1 % 4
  if used.isEmpty then f == 0 else used.all fun m => modeFamily m == f

def clocksFails (t : State) (b : List Byte) : Fails :=
  [(1, b.length != 256 || (slice b 0 64).any (fun x => 8 ≤ x.toNat) || (slice b 128 8).any (fun x => 2 ≤ x.toNat)
      || !zeroed b 136 256),
   (4, (List.range 64).any fun h => !familyOk t b h),
   (7, (slice b 64 64).any fun x => 2 < x.toNat)]

/-! ## PARSEGRAPH, FORMATS, EXCEPTIONS (Table 6.10) -/

/-- The state entries of a body; none when they do not end exactly at its end. -/
def parseEntries (fuel : Nat) (b : List Byte) : Option (List (List Byte)) :=
  match fuel with
  | 0 => if b.isEmpty then some [] else none
  | k + 1 =>
    if b.isEmpty then some []
    else
      let n := 64 + 16 * fld b 2 1
      if b.length < n then none else (parseEntries k (b.drop n)).map (b.take n :: ·)

def stNext (e : List Byte) (i : Nat) : Nat := fld e (8 + 2 * i) 2
/-- Targets that an entry can choose. -/
def stTargets (e : List Byte) : List Nat := fld e 6 2 :: (List.range (min 16 (fld e 2 1))).map (stNext e)
def targetOk (states : List Nat) (x : Nat) : Bool :=
  if x < 0x100 then states.contains x else x == 0x4000 || (0x8010 ≤ x && x ≤ 0x803F)

def stShapeOk (e : List Byte) : Bool :=
  let n := fld e 2 1
  let l := fld e 5 1
  n ≤ 16 && (if n = 0 then l == 0 else 1 ≤ l && l ≤ 8)
  && ((List.range 16).all fun i => i < n || stNext e i == 0)
  && ((List.range n).all fun i => fld e (64 + 16 * i) 8 &&& (ones 64 - fld e (72 + 16 * i) 8) == 0)

def stReservedOk (e : List Byte) : Bool :=
  fld e 1 1 < 128 && fld e 3 1 == 0 && zeroed e 0x32 0x40
  && (List.range 4).all fun i => bits (fld e (0x28 + 2 * i) 1) 6 3 == 0 && fld e (0x29 + 2 * i) 1 < 128

def parseFails (b : List Byte) : Fails :=
  let es := (parseEntries b.length b).getD []
  let states := es.map fun e => fld e 0 1
  [(1, (parseEntries b.length b).isNone || 81920 < b.length),
   (2, repeats states || !states.contains 0),
   (3, es.any fun e => !stShapeOk e),
   (4, es.any fun e => (stTargets e).any fun x => !targetOk states x),
   (8, es.any fun e => !stReservedOk e)]

def formatOk (r : List Byte) : Bool :=
  let w := fld r 5 1 % 16
  fld r 1 1 ≤ 10 && 1 ≤ fld r 3 1 && fld r 3 1 ≤ 128 && (w == 0 || (fld r 4 1 + 2 ≤ fld r 3 1 && fld r 5 1 / 16 + w ≤ 16))

def formatReservedOk (r : List Byte) : Bool :=
  fld r 0 1 < 128 && fld r 2 1 < 8 && fld r 6 1 < 8 && zeroed r 24 32 && (List.range 8).all fun i => fld r (9 + 2 * i) 1 < 32

def formatsFails (b : List Byte) : Fails :=
  let rs := chunks 32 b
  [(1, b.length % 32 != 0 || 4096 < b.length),
   (2, repeats (rs.map fun r => fld r 0 1 % 128)),
   (6, rs.any fun r => !formatOk r),
   (8, rs.any fun r => !formatReservedOk r)]

/-- The deferred checks of PARSEGRAPH, once FORMATS stands (R425). -/
def parseLateFails (b fm : List Byte) : Fails :=
  let es := (parseEntries b.length b).getD []
  let format := fun e => (chunks 32 fm).find? fun r => fld r 0 1 == fld e 1 1
  [(4, es.any fun e => (format e).isNone),
   (5, es.any fun e => match format e with
      | none => false
      | some r => (List.range 4).any fun i =>
        let x := fld e (0x28 + 2 * i) 1
        let len := fld r (9 + 2 * (x % 8)) 1
        bit x 7 && (len == 0 || 128 < fld e (0x29 + 2 * i) 1 + len))]

/-- EXCEPTIONS. ACTION and RING are held to the whole of what Table 6.7 gives their bytes. -/
def exceptionsFails (b : List Byte) : Fails :=
  let bad := fun (p : Nat × List Byte) =>
    let r := p.2
    3 < fld r 0 1 || 8191 < fld r 2 2 || (fld r 6 1 == 0 && fld r 4 2 != 0) || 144 < fld r 7 1
    || (bit (fld r 1 1) 0 && p.1 != 5)
  [(1, b.length != 512), (7, (enum 0 (chunks 8 b)).any bad), (8, (chunks 8 b).any fun r => 1 < fld r 1 1)]

/-! ## MATCHGEOM to SHUFFLE (Table 7.8) -/

def matchgeomFails (b : List Byte) : Fails :=
  let rs := chunks 8 b
  let tab := fun i => fld b (8 * i) 1
  let bad := fun i =>
    let x := tab i
    39 < fld b (8 * i + 4) 1 || fld b (8 * i + 2) 1 &&& (255 - fld b (8 * i + 3) 1) != 0
    || (x != 0xFF && (0x80 ≤ x
      || (List.range i).any fun j => tab j == x && (tab (i - 1) != x || fld b (8 * j + 1) 1 % 4 != fld b (8 * i + 1) 1 % 4
          || fld b (8 * j + 5) 3 % 2 ^ 20 != fld b (8 * i + 5) 3 % 2 ^ 20)))
  [(1, b.length != 512), (2, (List.range 64).any bad),
   (8, rs.any fun r => 4 ≤ fld r 1 1 || 2 ^ 20 ≤ fld r 5 3)]

def matchrowsFails (t : State) (b : List Byte) : Fails :=
  let rs := chunks 96 b
  let ix := fun r => fld r 0 4 % 2 ^ 17
  let gap := fun i => match blockGap t (i / 2048) with | 0 => false | g => i % g == g - 1
  [(1, b.length % 96 != 0 || 12582912 < b.length),
   (3, repeats (rs.map ix) || rs.any fun r => (rowTable t (ix r)).isNone || gap (ix r)),
   (4, rs.any fun r => !rowMaskOk r || ((rowTable t (ix r)).isSome && !preOk t (ix r / 2048) (fld r 16 40) (fld r 56 40))),
   (8, rs.any fun r => !rowReservedOk r)]

def rangesFails (b : List Byte) : Fails :=
  let rs := chunks 8 b
  [(1, b.length % 8 != 0 || 65536 < b.length), (5, rs.any fun r => !rangeBoundsOk r), (8, rs.any fun r => !rangeReservedOk r)]

/-- A pool entry alone (Table 7.6). -/
def poolRecOk (r : List Byte) : Bool :=
  let kind := fld r 1 1
  let kb := fld r 2 1
  let first := fld r 4 2
  let lens := ((slice r 16 16).map (·.toNat)).filter (· != 0xFF)
  0x80 ≤ fld r 0 1 && fld r 0 1 ≤ 0xEF && kind ≤ 2 && 1 ≤ kb && kb ≤ (if kind = 0 then 40 else if kind = 1 then 16 else 4)
  && first < 1536 && 1 ≤ fld r 6 2 && first + fld r 6 2 ≤ 1536
  && (if kind = 1 then !lens.isEmpty && !repeats lens && lens.all fun l => 1 ≤ l && l ≤ 8 * kb else zeroed r 16 32)
  && (kind != 2 || fld r 12 4 == 0)

def poolFails (b : List Byte) : Fails :=
  let rs := chunks 32 b
  let shared := (List.range rs.length).any fun i => (List.range i).any fun j =>
    let p := nth rs i []
    let q := nth rs j []
    fld p 4 2 < fld q 4 2 + fld q 6 2 && fld q 4 2 < fld p 4 2 + fld p 6 2
  [(1, b.length % 32 != 0 || 3584 < b.length),
   (6, shared || repeats (rs.map fun r => fld r 0 1) || rs.any fun r => !poolRecOk r),
   (8, rs.any fun r => fld r 3 1 != 0)]

/-- The records of a SHUFFLE body; none when they do not end exactly at its end. -/
def shufRecs (fuel : Nat) (b : List Byte) : Option (List (List Byte)) :=
  match fuel with
  | 0 => if b.isEmpty then some [] else none
  | k + 1 =>
    if b.isEmpty then some []
    else
      let n := 64 + 4 * fld b 56 2
      if b.length < n then none else (shufRecs k (b.drop n)).map (b.take n :: ·)

def shuffleFails (b : List Byte) : Fails :=
  let rs := (shufRecs b.length b).getD []
  [(1, (shufRecs b.length b).isNone),
   (7, repeats (rs.map fun r => fld r 0 1) || rs.any fun r => !shufHdrOk r),
   (8, rs.any fun r => !shufHdrReservedOk r || (chunks 4 (r.drop 64)).any fun e => bits (fld e 0 4) 27 24 != 0)]

/-! ## FLOWGEOM and FLOWFSM (Tables 8.5, 9.3) -/

def flowgeomFails (b : List Byte) : Fails :=
  let r := fld b 0 1
  let hot := (slice b 44 4).map (·.toNat)
  [(1, b.length != 256 || 2 ≤ fld b 2 1 || 8 ≤ fld b 5 1 || 8 ≤ fld b 12 1 || !zeroed b 14 16 || !zeroed b 80 256),
   (2, r == 0 || 3 < r || fld b 1 1 == 0 || (if r = 1 then 16 else 48) < fld b 1 1),
   (3, 2 < fld b 3 1 || fld b 4 1 < 16 || 63 < fld b 4 1 || (fld b 8 2 != 0 && (fld b 6 2 == 0 || 800 < fld b 6 2))),
   (4, fld b 10 2 == 0 || 8192 < fld b 10 2 || (chunks 2 (slice b 48 32)).any fun a => 8191 < fld a 0 2),
   (5, if r = 1 then !hot.all (· == 0) else repeats hot || hot.any fun w => w < 20 || (if r = 2 then 30 else 62) < w),
   (6, bit (fld b 2 1) 0 && !zeroed b 16 44),
   (8, 21 < fld b 13 1)]

def flowfsmFails (b : List Byte) : Fails :=
  let cells := (chunks 4 b).map fun c => fld c 0 4
  [(0x10, b.isEmpty || b.length % 4096 != 0 || 65536 < b.length),
   (0x11, cells.any fun w => 32 ≤ bits w 31 24 && bits w 31 24 != 0xFF),
   (0x12, cells.any fun w => bits w 14 12 != 0 || bits w 7 0 != 0)]

/-! ## Control stores and routines (R82, Table 4.13) -/

/-- A routine's entry as the checks read it. -/
structure Rout where
  stage : Nat
  num   : Nat
  avfen : Bool
  entry : Nat
  len   : Nat
deriving DecidableEq, Repr

def routOf (r : List Byte) : Rout := ⟨fld r 0 1, fld r 1 1, bit (fld r 2 2) 14, fld r 2 2 % 2 ^ 14, fld r 14 2⟩

def routines (b : List Byte) : List Rout := ((chunks 16 b).filter (·.length == 16)).map routOf

def routRecOk (r : List Byte) : Bool :=
  fld r 0 1 ≤ 7 && fld r 2 2 < 2 ^ 15 && fld r 4 1 < 4 && fld r 5 1 == 0 && fld r 14 2 != 0
  && fld r 2 2 % 2 ^ 14 + fld r 14 2 ≤ 0x3FFF && (slice r 6 6).all fun p => p.toNat < 64 || p.toNat == 0x80

def routinesFails (b : List Byte) : Fails :=
  let rs := (chunks 16 b).filter (·.length == 16)
  let ns := (routines b).map fun r => 256 * r.stage + r.num
  [(5, rs.any fun r => 1017 < fld r 12 2),
   (8, repeats ns || rs.any fun r => !routRecOk r),
   (9, !(([0, 1, 2] : List Nat).all ns.contains) || !(List.range 6).all fun st => ns.contains (256 * (st + 1))),
   (0xB, b.length % 16 != 0 || (List.range 8).any fun st => 256 < ((routines b).filter (·.stage == st)).length)]

def storeFails (b : List Byte) : Fails := [(0xB, b.isEmpty || b.length % 20 != 0 || 16384 < b.length / 20)]

/-- Sources that a word reads: SRCA and SRCB count where the ALU operation reads them, EDIT.SRC where the edit does (R82;
assumption 30, DEDUCED). -/
def wordSources (m : Mw) : List Nat :=
  (if aluReads m.aOp = 0 then [] else if aluReads m.aOp = 1 then [m.aA] else [m.aA, m.aB])
  ++ (if editReads m.eOp then [m.eSrc] else [])

/-- Bits of a raw word that must be 0: the spare of a native word, the reserved bits of an Avfen word and the 32 bits
below it (Tables 4.3, 4.11, R48). -/
def wordSpare (avfen : Bool) (w : Nat) : Bool := if avfen then bits w 37 0 != 0 else bits w 61 60 != 0

/-- DETAIL 0x0001: a reserved encoding (R70, R139, R301). -/
def wordReserved (stage : Nat) (avfen : Bool) (w : Nat) (m : Mw) : Bool :=
  wordSpare avfen w || (56 ≤ m.cond && m.cond ≤ 62) || 24 ≤ m.aOp || (19 ≤ m.fOp && m.fOp ≤ 23) || 26 ≤ m.fOp
  || [11, 12, 15].contains m.eOp || (m.eOp == 9 && 7 ≤ m.eSrc) || (m.mIss && 0xF0 ≤ m.mTab)
  || (stage ≤ 1 && m.exLen == 0 && !(m.exOff ≤ 0x19 || (0x40 ≤ m.exOff && m.exOff ≤ 0x47)))

/-- DETAIL 0x0003: a bit or operation of another store type (R77, R139, Table 4.8). -/
def wordForeign (stage : Nat) (m : Mw) : Bool :=
  (m.recirc && 4 < stage) || (m.launch && stage != 3) || (m.exc && 3 < stage)
  || (stage != 7 && [14, 15, 16, 17, 18, 24, 25].contains m.fOp)
  || (1 < stage && (m.exOff != 0 || m.exLen != 0 || m.exSlot != 0))

/-- Addresses that a word at `a` can select; an Avfen word names only the target of a branch or jump. -/
def wordTargets (avfen : Bool) (w : Nat) (m : Mw) : List Nat :=
  if avfen then
    match bits w 159 158 with
    | 1 => if m.cond = 0 then [] else [m.alt]
    | 2 => [m.next]
    | _ => []
  else (if m.cond = 63 then [] else [m.next]) ++ (if m.cond = 0 then [] else [m.alt])

/-- DETAIL 0x000A: a lookup of a table that the deck does not define (R74). -/
def wordNoTable (t : State) (m : Mw) : Bool :=
  m.mIss && m.mTab < 0xF0 && (if m.mTab < 0x80 then (tableBlocks t m.mTab).isEmpty else (poolTab t m.mTab).isNone)

/-- FLOW DETAIL 0x0007: a word whose FIELD (in a flow operation that takes it, or as source FLD) is a cold word in a
packet store, the TAG word in any store (R174, R175), or word 29, the TIMER word, of 64 B records (R195;
assumption 30, DEDUCED: a microword that sets TIMER under 64 B is one that names that word). -/
def wordCold (t : State) (stage : Nat) (m : Mw) : Bool :=
  m.fField != 63 && ([5, 6, 7].contains m.fOp || (wordSources m).contains 10)
  && (m.fField == tagW t || (recWords t == 16 && m.fField == 29) || (stage < 7 && !(hotWords t).contains m.fField))

def inExtent (r : Rout) (a : Nat) : Bool := r.entry ≤ a && a < r.entry + r.len

/-- The words of a routine's extent, each with its address. -/
def extentWords (t : State) (r : Rout) : List (Nat × Nat) :=
  (List.range r.len).map fun i => (r.entry + i, storeWord t false r.stage (r.entry + i))

/-- Failures of the words of one STORE, once ROUTINES stands (R425). -/
def storeLateFails (t : State) (rs : List Rout) (stage : Nat) : Fails :=
  let mine := rs.filter (·.stage == stage)
  let any := fun (p : Rout → Nat → Nat → Mw → Bool) =>
    mine.any fun r => (extentWords t r).any fun x => p r x.1 x.2 (readWord r.avfen x.1 x.2)
  let n := (hotBody t false (tyStore + stage)).length / 20
  [(1, any fun r _ w m => wordReserved stage r.avfen w m),
   (2, any fun _ _ _ m => (m.aOp == 17 || m.aOp == 18) && m.cyc < 2),
   (3, any fun _ _ _ m => wordForeign stage m),
   (4, any fun _ _ _ m => m.eOp != 0 && ((wordSources m).contains 11 || (wordSources m).contains 12)),
   (5, any fun _ _ _ m => (m.exLen != 0 && 128 < 8 * m.exSlot + m.exLen) || (m.eOp == 14 && m.eOff % 4 != 0)),
   (6, any fun r _ w m => (wordTargets r.avfen w m).any fun a => a != endAddr && !inExtent r a),
   (7, (mine.any fun r => mine.any fun q => r.avfen && !q.avfen && r.entry < q.entry + q.len && q.entry < r.entry + r.len)
      || (List.range n).any fun a => storeWord t false stage a != 0 && !mine.any fun r => inExtent r a),
   (0xA, any fun _ _ _ m => wordNoTable t m)]

/-- Some packet store names a cold word. -/
def coldNamed (t : State) (rs : List Rout) : Bool :=
  rs.any fun r => (extentWords t r).any fun x => wordCold t r.stage (readWord r.avfen x.1 x.2)

/-! ## QUEUES (Table 11.7) -/

/-- Exactly one record of KIND 0, first, and the kinds up to `last` in rising order. -/
def kindsOk (ks : List Nat) (last : Nat) : Bool :=
  match ks with
  | [] => false
  | k :: r => k == 0 && !r.contains 0 && r.all (· ≤ last) && (List.range r.length).all fun i => nth ks i 0 ≤ nth r i 0

def queuesFails (t : State) (b : List Byte) : Fails :=
  let rs := chunks 32 b
  let of_ := fun k => rs.filter fun r => fld r 0 1 == k
  let profs := (of_ 1).map fun r => fld r 1 1
  let rngs := of_ 2
  let overlap := (List.range rngs.length).any fun i => (List.range i).any fun j =>
    let p := nth rngs i []
    let q := nth rngs j []
    fld p 2 2 ≤ fld q 4 2 && fld q 2 2 ≤ fld p 4 2
  [(1, b.length % 32 != 0 || 2105376 < b.length
      || (of_ 0).any (fun r => !zeroed r 2 4 || !zeroed r 12 32) || (of_ 1).any (fun r => !zeroed r 2 4 || !zeroed r 12 32)
      || rngs.any fun r => !zeroed r 7 32),
   (2, !kindsOk (rs.map fun r => fld r 0 1) 2),
   (3, repeats profs || (of_ 1).any (fun r => fld r 8 4 < fld r 4 4 || fld r 8 4 == 0)
      || (of_ 0).any fun r => fld r 4 4 ≤ fld r 8 4),
   (4, overlap || rngs.any fun r => !profs.contains (fld r 1 1) || fld r 4 2 < fld r 2 2 || fld r 2 2 / 2048 != fld r 4 2 / 2048),
   (5, rngs.any fun r => fld r 6 1 / 8 != fld r 2 2 / 2048 || !isPort t (fld r 6 1))]

/-! ## TM and CURVES (Table 12.4) -/

def tmReservedOk (r : List Byte) : Bool :=
  match fld r 0 1 with
  | 0 => fld r 1 1 < 32 && fld r 2 1 < 32 && zeroed r 3 32
  | 1 => fld r 3 1 == 0 && fld r 4 4 < 2 ^ 21 && zeroed r 10 32
  | 2 => fld r 1 1 == 0 && fld r 7 1 == 0 && zeroed r 16 32
  | 3 => !bit (fld r 21 1) 4 && fld r 22 1 < 16 && zeroed r 23 32
  | 4 => fld r 1 1 % 32 == 0 && zeroed r 6 8 && fld r 8 4 < 2 ^ 28 && fld r 12 4 < 2 ^ 28 && zeroed r 22 32
  | 5 => fld r 2 2 < 2 ^ 13 && zeroed r 8 32
  | _ => true

/-- The last member of a range of COUNT members from FIRST, at least `lo`, lies below `hi`; COUNT 0 names none (R287). -/
def memberOk (r : List Byte) (stride lo hi : Nat) : Bool :=
  fld r 4 2 == 0 || (lo ≤ fld r 2 2 && fld r 2 2 + (fld r 4 2 - 1) * stride < hi)

/-- Two range records name a member in common. -/
def membersMeet (p q : List Byte) (sp sq : Nat) : Bool :=
  (List.range (fld p 4 2)).any fun i => inRange (fld p 2 2 + i * sp) (fld q 2 2) (fld q 4 2) sq

def anyTwo (rs : List (List Byte)) (f : List Byte → List Byte → Bool) : Bool :=
  (List.range rs.length).any fun i => (List.range i).any fun j => f (nth rs i []) (nth rs j [])

def tmFails (t : State) (b : List Byte) : Fails :=
  let rs := chunks 32 b
  let of_ := fun k => rs.filter fun r => fld r 0 1 == k
  let stride := fun r => if fld r 0 1 = 3 then fld r 1 1 else 1
  let meet := fun k => anyTwo (of_ k) fun p q => membersMeet p q (stride p) (stride q)
  let groupNamed := fun g => (of_ 2).find? fun r => inRange g (fld r 2 2) (fld r 4 2) 1
  let enabled := (List.range (quCount t)).flatMap fun i =>
    if quF t i 0 1 = 2 then (List.range (quF t i 4 2 + 1 - quF t i 2 2)).map fun j => (quF t i 2 2 + j, quF t i 6 1) else []
  let groupOf := fun q => ((of_ 3).find? fun r => inRange q (fld r 2 2) (fld r 4 2) (fld r 1 1)).map fun r =>
    fld r 6 2 + (q - fld r 2 2) / max 1 (fld r 1 1)
  let rate := fun r off => 1600000 < fld r off 4
  [(1, b.length % 32 != 0 || rs.any fun r => !tmReservedOk r),
   (2, !kindsOk (rs.map fun r => fld r 0 1) 5),
   (3, repeats ((of_ 1).map fun r => fld r 1 1) || repeats ((of_ 5).map fun r => fld r 1 1) || meet 2 || meet 3 || meet 4
      || (of_ 1).any (fun r => !isPort t (fld r 1 1)) || (of_ 2).any (fun r => !memberOk r 1 0 8192 || !isPort t (fld r 6 1))
      || (of_ 3).any (fun r => !memberOk r (fld r 1 1) 0 65536 || (fld r 1 1 == 0 && 2 ≤ fld r 4 2) || (fld r 4 2 != 0 && 8192 < fld r 6 2 + fld r 4 2))
      || (of_ 4).any (fun r => !memberOk r 1 1 65536) || (of_ 5).any fun r => 15 < fld r 1 1),
   (4, enabled.any (fun e => match (groupOf e.1).bind groupNamed with
        | some r => fld r 6 1 != e.2
        | none => true)
      || (of_ 3).any fun r => (List.range (fld r 4 2)).any fun i => (groupNamed (fld r 6 2 + i)).isNone),
   (5, (of_ 1).any (fun r => rate r 4) || (of_ 2).any (fun r => rate r 12 || fld r 8 2 == 0)
      || (of_ 3).any (fun r => rate r 12 || fld r 8 2 == 0 || 7 < fld r 16 1 || 7 < fld r 17 1 || fld r 1 1 == 0)
      || (of_ 5).any fun r => fld r 4 4 == 0 || 1000000 < fld r 4 4),
   (6, (of_ 3).any fun r => bit (potLossless t) (fld r 16 1) && !bit (fld r 21 1) 7 && (slice r 18 3).any (· != 0xFF))]

def curvesFails (b : List Byte) : Fails :=
  [(1, b.isEmpty || b.length % 128 != 0 || 32768 < b.length), (7, (chunks 128 b).any fun c => !curveOk c)]

/-- The deferred check of TM: curve indexes against the N curves (R425). -/
def tmLateFails (b cv : List Byte) : Fails :=
  [(6, ((chunks 32 b).filter fun r => fld r 0 1 == 3).any fun r =>
    (slice r 18 3).any fun c => c != 0xFF && cv.length / 128 ≤ c.toNat)]

/-! ## TIME and GATES (Table 13.7) -/

def todOk (x : Nat) : Bool := x % 4 ≤ 1 && x / 16 ≤ 4

def timeReservedOk (r : List Byte) : Bool :=
  match fld r 0 1 with
  | 0 => !bit (fld r 1 1) 3 && !bit (fld r 2 1) 3 && fld r 24 1 < 32 && zeroed r 25 28 && fld r 34 2 < 2 ^ 13 && zeroed r 36 64
  | 1 => zeroed r 2 4 && zeroed r 12 64
  | 2 => fld r 5 1 < 4 && zeroed r 8 10 && zeroed r 32 64
  | 3 => zeroed r 2 4 && zeroed r 12 64
  | _ => true

/-- TS_RING's 13 bits name every ring; its upper bits are reserved and fall under 0x0001. -/
def timeGlobalOk (r : List Byte) : Bool :=
  todOk (fld r 1 1) && todOk (fld r 2 1) && !bit (fld r 2 1) 2 && 1 ≤ fld r 3 1 && fld r 3 1 ≤ 60
  && 1 ≤ fld r 6 2 && fld r 6 2 ≤ 10000 && 1 ≤ fld r 8 2 && fld r 8 2 ≤ 1000 && fld r 10 2 != 0 && fld r 30 4 != 0

def instOk (t : State) (r : List Byte) : Bool :=
  let tr := fld r 3 1
  let prof := fld r 2 1
  isPort t (fld r 1 1) && (if prof = 0 then tr ≤ 3 else if prof = 1 then tr ≤ 1 else prof == 2 && (tr == 2 || tr == 3))
  && (-7 ≤ sfld r 6 1 && sfld r 6 1 ≤ 1) && (-3 ≤ sfld r 7 1 && sfld r 7 1 ≤ 3)
  && queueEnabled t (fld r 10 2) && queuePort t (fld r 10 2) == fld r 1 1

def timeFails (t : State) (b : List Byte) : Fails :=
  let rs := chunks 64 b
  let of_ := fun k => rs.filter fun r => fld r 0 1 == k
  let twice := fun k => repeats ((of_ k).map fun r => fld r 1 1)
  [(1, b.length % 64 != 0 || 17664 < b.length || rs.any fun r => !timeReservedOk r),
   (2, !kindsOk (rs.map fun r => fld r 0 1) 3),
   (3, (of_ 0).any fun r => !timeGlobalOk r),
   (4, twice 1 || (of_ 1).any fun r => 3 < fld r 1 1 || fld r 4 4 < 100 || 500000000 < fld r 4 4
      || 1000000 < (sfld r 8 4).natAbs),
   (5, twice 2 || (of_ 2).any fun r => !instOk t r),
   (6, twice 3 || (of_ 3).any fun r => fld r 1 1 == 0 || 15 < fld r 1 1)]

/-- The records of a GATES body; none when they do not end exactly at its end. -/
def gateRecs (fuel : Nat) (b : List Byte) : Option (List (List Byte)) :=
  match fuel with
  | 0 => if b.isEmpty then some [] else none
  | k + 1 =>
    if b.isEmpty then some []
    else
      let n := 32 + 8 * fld b 4 2
      if b.length < n then none else (gateRecs k (b.drop n)).map (b.take n :: ·)

def gateRecOk (t : State) (r : List Byte) : Bool :=
  let iv := (chunks 8 (r.drop 32)).map fun e => fld e 4 4
  fld r 0 2 ≤ 1023 && (fld r 2 1 == 0xFF || isPort t (fld r 2 1)) && 1 ≤ fld r 4 2 && fld r 4 2 ≤ 256
  && fld r 14 4 < 10 ^ 9 && 1000 ≤ fld r 18 4 && fld r 18 4 ≤ 10 ^ 9 && iv.all (100 ≤ ·) && iv.sum ≤ fld r 18 4

def gatesFails (t : State) (b : List Byte) : Fails :=
  let rs := (gateRecs b.length b).getD []
  [(1, (gateRecs b.length b).isNone || rs.any fun r => fld r 3 1 != 0 || !zeroed r 6 8 || !zeroed r 22 32
      || (chunks 8 (r.drop 32)).any fun e => !zeroed e 1 4),
   (7, repeats (rs.map fun r => fld r 0 2) || repeats ((rs.map fun r => fld r 2 1).filter (· != 0xFF))
      || rs.any fun r => !gateRecOk t r)]

/-! ## ZATAS and OBS (Tables 15.11, 16.12) -/

def zatasFails (b : List Byte) : Fails :=
  let slots := (slice b 8 16).map (·.toNat)
  let addrs := ((List.range 4).map fun k => fld b (32 + 16 * k) 16).filter (· != 0)
  [(1, b.length != 256 || !zeroed b 5 8 || !zeroed b 24 32 || !zeroed b 96 256 || slots.any fun x => bits x 6 2 != 0),
   (2, fld b 2 1 == 0 || fld b 3 1 == 0 || 64 < fld b 3 1 || fld b 4 1 == 0 || 4 < fld b 4 1),
   (3, slots.any fun x => bit x 7 && x % 4 == 0),
   (4, repeats addrs || addrs.any fun a => bits a 127 120 == 0xFF || bits a 127 118 == 0x3FA)]

/-- The rules of R213 for template `x`, besides its reserved bytes and a repeated IPFIX_ID. -/
def templateOk (x : List Byte) : Bool :=
  let n := fld x 8 1
  256 ≤ fld x 0 2 && 1 ≤ n && n ≤ 28 && zeroed x (16 + 4 * min n 28) 128
  && (List.range (min n 28)).all fun i =>
    let off := fld x (16 + 4 * i) 1
    let len := fld x (17 + 4 * i) 1 / 8
    let src := fld x (17 + 4 * i) 1 % 8
    1 ≤ len && len ≤ 16 && off + len ≤ 256 && src ≤ 2 && (src == 0 || len == 4)
    && (!bit (fld x (18 + 4 * i) 2) 15 || fld x 4 4 != 0)

/-- The ring, dump and template records of an OBS body. -/
def obsRingRecs (b : List Byte) : List (List Byte) := (List.range (fld b 0 2)).map fun i => slice b (64 + 16 * i) 16
def obsDumpRecs (b : List Byte) : List (List Byte) :=
  (List.range (fld b 2 1)).map fun i => slice b (64 + 16 * fld b 0 2 + 64 * i) 64
def obsTemplates (b : List Byte) : List (List Byte) :=
  (List.range (fld b 4 2)).map fun i => slice b (64 + 16 * fld b 0 2 + 64 * fld b 2 1 + 128 * i) 128

def obsRecGroups (d : List Byte) : List Nat := (List.range (min 24 (fld d 2 1))).map fun i => fld d (16 + 2 * i) 2

/-- A DUMP record (Table 16.12, 0x0003). -/
def dumpRecOk (t : State) (d : List Byte) : Bool :=
  fld d 0 1 ≤ 7 && 2 ≤ fld d 1 1 && fld d 1 1 ≤ 16 && 1 ≤ fld d 2 1 && fld d 2 1 ≤ 24 && 1 ≤ fld d 4 4 && fld d 4 4 ≤ 1000000
  && ((obsRecGroups d).all fun g => !groupPriv g && (match groupWords t g with
    | some ws => 32 + 8 * ws.length ≤ 8192
    | none => false))
  && (List.range 24).all fun i => i < fld d 2 1 || fld d (16 + 2 * i) 2 == 0xFFFF

def ringRecOk (r : List Byte) : Bool := 15 ≤ fld r 3 1 && fld r 3 1 ≤ 26 && fld r 4 1 ≤ 144 && fld r 8 4 < 2 ^ fld r 3 1

def rising (xs : List Nat) : Bool := (List.range (xs.length - 1)).all fun i => nth xs i 0 < nth xs (i + 1) 0

def obsFails (t : State) (b : List Byte) : Fails :=
  let rings := obsRingRecs b
  let dumps := obsDumpRecs b
  let temps := obsTemplates b
  [(1, b.length != 64 + 16 * fld b 0 2 + 64 * fld b 2 1 + 128 * fld b 4 2 || fld b 3 1 != 0 || fld b 7 1 != 0 || !zeroed b 12 64
      || rings.any (fun r => 8192 ≤ fld r 0 2 || 2 ≤ fld r 2 1 || !zeroed r 5 8 || !zeroed r 12 16)
      || dumps.any (fun d => fld d 3 1 != 0 || !zeroed d 12 16) || temps.any fun x => !zeroed x 2 4 || !zeroed x 9 16),
   (2, 8192 < fld b 0 2 || !rising (rings.map fun r => fld r 0 2) || rings.any fun r => !ringRecOk r),
   (3, 8 < fld b 2 1 || repeats (dumps.map fun d => fld d 0 1) || dumps.any fun d => !dumpRecOk t d),
   (4, 1023 < fld b 4 2 || repeats (temps.map fun x => fld x 0 2) || temps.any fun x => !templateOk x),
   (5, (fld b 8 2 != 0 || rings.any fun r => fld r 8 4 != 0) && (routineOff t false 7 (fld b 6 1)).isNone),
   (6, 20 < fld b 10 1 || 23 < fld b 11 1)]

/-! ## The body checks of a segment type, and the capacities -/

/-- What the owning chapter says of a body that reads no later segment (R425). A NOTE body is not looked into: the spec
gives no code for one that is too long or no UTF-8 (R49; assumption 55, DESIGN CHOICE). -/
def bodyFails (t : State) (ty : Nat) (b : List Byte) : Fails :=
  if ty = tyPortmap then portmapFails b
  else if ty = tyClocks then clocksFails t b
  else if ty = tyParse then parseFails b
  else if ty = tyFormats then formatsFails b
  else if ty = tyExceptions then exceptionsFails b
  else if ty = tyMatchgeom then matchgeomFails b
  else if ty = tyMatchrows then matchrowsFails t b
  else if ty = tyRanges then rangesFails b
  else if ty = tyPool then poolFails b
  else if ty = tyShuffle then shuffleFails b
  else if ty = tyFlowgeom then flowgeomFails b
  else if ty = tyFlowfsm then flowfsmFails b
  else if tyStore ≤ ty && ty < tyStore + 8 then storeFails b
  else if ty = tyRoutines then routinesFails b
  else if ty = tyQueues then queuesFails t b
  else if ty = tyTm then tmFails t b
  else if ty = tyCurves then curvesFails b
  else if ty = tyTime then timeFails t b
  else if ty = tyGates then gatesFails t b
  else if ty = tyZatas then zatasFails b
  else if ty = tyObs then obsFails t b
  else []

/-- First span and spans of the flow table, the ring region and the dump region (R25). -/
def regionSpans (t : State) : List (Nat × Nat) :=
  [(fgF t 13 1, 2), (ringRegion t / 2 ^ 32, 4), (dumpRegion t / 2 ^ 32, 1)]

def spansMeet (a b : Nat × Nat) : Bool := a.1 < b.1 + b.2 && b.1 < a.1 + a.2

/-- The flow table stands in spans of grain 1 KiB or more (R320). -/
def flowGrainOk (t : State) : Bool := (List.range 2).all fun i => 1024 ≤ 64 * 2 ^ grainCode t (fgF t 13 1 + i)

/-- Dump slots of each engine, from and to, in the dump region (R374). -/
def dumpSpans (t : State) : List (Nat × Nat) :=
  (List.range (coldF t tyObs 2 1)).map fun i =>
    let o := dumpRecOff t i
    (coldF t tyObs (o + 8) 4 * 4096, coldF t tyObs (o + 1) 1 * dumpSlotBytes t (dumpGroups t o))

/-- The type of the segment whose demand exceeds the part's resources (check 0x0F; R25, R259, R320, R376). -/
def overCapacity (t : State) : Option Nat :=
  let ds := dumpSpans t
  let rs := regionSpans t
  let two := fun (xs : List (Nat × Nat)) => (List.range xs.length).any fun i => (List.range i).any fun j =>
    spansMeet (nth xs i (0, 0)) (nth xs j (0, 0))
  if !flowGrainOk t then some tyFlowgeom
  else if (List.range 32).any fun p => potCells t < potMinSum t p then some tyQueues
  else if 2 ^ 34 < ringBase t 8192 || ds.any (fun d => 2 ^ 32 < d.1 + d.2) || two ds || two rs
      || rs.any (fun r => spansMeet r (23, 1)) then some tyObs
  else none

end Sys2Proof.Machine
end

