-- ==== Sys2Proof/Machine/DeckLoad.lean ====
section
/-!
DEFINITION. The deck loader: reading an image from a deck area, the checks of Table 3.6 in their order, and the placing
of a deck's segments into an epoch slot (03_deck.md R44 to R52, R58, R61, R65, R425; 07_match_and_shuffle.md R165).
Log entries: 23, 31, 32.
-/
namespace Sys2Proof.Machine

open Sys2Proof

/-! ## Images (R44 to R47) -/

/-- A segment of an image: its 32 B header, its body and its padding. -/
structure ImgSeg where
  hdr  : List Byte
  body : List Byte
  pad  : List Byte
deriving DecidableEq, Repr

/-- A deck that has been read: header and segments. -/
structure Img where
  hdr  : List Byte
  segs : List ImgSeg
deriving DecidableEq, Repr

def ImgSeg.ty (x : ImgSeg) : Nat := fld x.hdr 0 1

/-- A segment type of Table 3.4: type, HOT, TARGET, required. -/
def segTypes : List (Nat × Nat × Nat × Bool) :=
  [(tyContract, 0, 0x03, true), (tyPortmap, 0, 0x09, true), (tyClocks, 0, 0x08, true), (tyParse, 1, 0x0C, true),
   (tyFormats, 1, 0x0C, true), (tyExceptions, 1, 0x0C, true), (tyMatchgeom, 0, 0x0D, true), (tyMatchrows, 1, 0x0D, false),
   (tyRanges, 1, 0x0D, false), (tyPool, 0, 0x0F, true), (tyShuffle, 1, 0x0E, false), (tyFlowgeom, 0, 0x10, true),
   (tyFlowfsm, 1, 0x10, true)]
  ++ (List.range 8).map (fun k => (tyStore + k, 1, 0x04, true))
  ++ [(tyRoutines, 1, 0x04, true), (tyQueues, 0, 0x19, true), (tyTm, 0, 0x1A, true), (tyCurves, 1, 0x1A, true),
   (tyTime, 0, 0x1C, true), (tyGates, 1, 0x1C, false), (tyZatas, 0, 0x24, true), (tyObs, 0, 0x28, true),
   (tyNote, 0, 0x03, false)]

def segBody (i : Img) (ty : Nat) : Option (List Byte) := (i.segs.find? fun x => x.ty == ty).map (·.body)
def segIndex (i : Img) (ty : Nat) : Nat := (findUp i.segs.length 0 fun k => ((i.segs.drop k).take 1).any fun x => x.ty == ty).getD 0xFF
def isHotSeg (x : ImgSeg) : Bool := fld x.hdr 1 1 == 1
/-- FLAGS.CARRY of MATCHROWS; an absent MATCHROWS carries (R65). -/
def carries (i : Img) : Bool := match i.segs.find? fun x => x.ty == tyMatchrows with
  | some x => bit (fld x.hdr 3 1) 0
  | none => true

def imgTotal (h : List Byte) : Nat := fld h 0x20 4
def totalOk (n : Nat) : Bool := n % 32 == 0 && 320 ≤ n && n ≤ 33554432

/-! ## Checks 0x01 to 0x09 -/

/-- The failing code of checks 0x01 to 0x05. -/
def headFail (s : State) (h : List Byte) : Option Nat :=
  let step := fld h 0xC 1
  let m := fld h 0xD 1
  lowest [(1, fld h 0 4 != 0x4C594443), (2, fld h 4 2 != 0x0100),
    (3, fld h 8 2 != chipId s / 2 ^ 48 || fld h 0xA 2 != bits (chipId s) 47 32 || 1 < m || step / 16 != bits (chipId s) 31 28
      || (m == 0 && step % 16 != bits (chipId s) 27 24)),
    (4, !totalOk (imgTotal h)), (5, fld h 0x1C 2 == 0 || 64 < fld h 0x1C 2)]

/-- The failing code of checks 0x06 to 0x08, with the trailer read (R46, R50, R51). -/
def trailFail (s : State) (h tr : List Byte) : Option Nat :=
  let alg := fld h 0x24 1
  let n := if alg = 1 then 64 else 96
  let key := kget s.fuses.deckKeys (fld h 0x25 1)
  let zero := zeroed h 6 8 && zeroed h 0xE 0x10 && zeroed h 0x1E 0x20 && zeroed h 0x26 0x28 && zeroed h 0x58 0x80
  if alg = 0 || 2 < alg || !zero || fld tr 0 4 ≠ 0x4C595347 || fld tr 4 1 ≠ alg || fld tr 5 1 ≠ fld h 0x25 1 || fld tr 6 2 ≠ n
      || !zeroed tr (8 + n) 128 then some 6
  else match key with
    | none => some 7
    | some k =>
      if 7 < fld h 0x25 1 || k.alg ≠ alg then some 7
      else if (if alg = 1 then edVerify k.key h (slice tr 8 64) else ecdsaVerify k.key h (slice tr 8 96)) then none
      else some 8

/-- A failure that is tied to no segment (Table 3.12). -/
def failOf (code : Nat) : FailRec := ⟨code, 0xFF, 0, 0, 0⟩
def failSeg (i : Img) (code ty detail : Nat) : FailRec := ⟨code, segIndex i ty, ty, detail, 0⟩

/-- Header and covered bytes of the image at an area, through checks 0x01 to 0x09; `skip` reads it without checks.
A poisoned word fails where it is read (0x1A). -/
def readImage (s : State) (base : Nat) (skip : Bool) : State × Except FailRec (List Byte × List Byte) :=
  let x := hbmRead s 114 base 128
  let h := x.2.1
  if x.2.2 then (x.1, .error (failOf 0x1A))
  else match (if skip then none else headFail x.1 h) with
    | some c => (x.1, .error (failOf c))
    | none =>
      let n := imgTotal h
      let y := hbmRead x.1 114 (base + n - 128) 128
      if y.2.2 then (y.1, .error (failOf 0x1A))
      else match (if skip then none else trailFail y.1 h y.2.1) with
        | some c => (y.1, .error (failOf c))
        | none =>
          let z := hbmRead y.1 114 (base + 128) (n - 256)
          if z.2.2 then (z.1, .error (failOf 0x1A))
          else if !skip && sha384 z.2.1 != slice h 0x28 48 then (z.1, .error (failOf 9))
          else (z.1, .ok (h, z.2.1))

/-! ## Checks 0x0A to 0x0C -/

/-- Check 0x0A for one header, body and padding. -/
def segHdrOk (x : ImgSeg) : Bool :=
  match segTypes.find? fun y => y.1 == x.ty with
  | none => false
  | some y => fld x.hdr 1 1 == y.2.1 && fld x.hdr 2 1 == y.2.2.1 && fld x.hdr 3 1 ≤ (if x.ty = tyMatchrows then 1 else 0)
      && fld x.hdr 8 2 == 1 && fld x.hdr 4 4 != 0 && zeroed x.hdr 10 32 && zeros x.pad

/-- Walk `n` segments of the covered bytes, from segment `i` on (R45). -/
def walkImg (n i : Nat) (b : List Byte) (acc : List ImgSeg) : Except FailRec (List ImgSeg) :=
  match n with
  | 0 => if b.isEmpty then .ok acc else .error (failOf 0xA)
  | k + 1 =>
    let len := fld b 4 4
    let need := 32 + cdiv len 32 * 32
    let x : ImgSeg := ⟨b.take 32, (b.drop 32).take len, (b.drop (32 + len)).take (need - 32 - len)⟩
    if b.length < need || !segHdrOk x then .error ⟨0xA, i, fld b 0 1, 0, 0⟩
    else walkImg k (i + 1) (b.drop need) (acc ++ [x])

/-- Check 0x0B: the first segment that breaks R47's order. -/
def orderFail (segs : List ImgSeg) : Option FailRec :=
  let ty := fun i => ((segs.drop i).take 1).foldl (fun _ x => x.ty) 0
  (findUp segs.length 0 fun i => 0 < i && (if ty i = tyNote && ty (i - 1) = tyNote then
      16 ≤ ((segs.take i).filter fun x => x.ty == tyNote).length else ty i ≤ ty (i - 1))).map
    fun i => ⟨0xB, i, ty i, 0, 0⟩

/-- Check 0x0C: a required type that is absent; no segment stands for it. -/
def missingFail (segs : List ImgSeg) : Option FailRec :=
  if segTypes.all fun y => !y.2.2.2 || segs.any fun x => x.ty == y.1 then none else some (failOf 0xC)

/-! ## Checks 0x0D to 0x0F -/

/-- Record words of a SHUFFLE body placed over a slot's tables (R164, R165). -/
def shufPlace (s : State) (e : Bool) (r : List Byte) : State :=
  setShuf s e (fld r 0 1) (slice (patch (r.take 64) 56 (toBytes 2 4096) ++ r.drop 64) 0 shufRecLen)

/-- The scratch part that the checks look at: the deck's segments, as if applied in slot 0. -/
def checkView (s : State) (i : Img) : State :=
  let put := fun (m : KMap (List Byte)) (x : ImgSeg) => kset m x.ty x.body
  let code := fld ((segBody i tyContract).getD []) 0 1
  let geom := (contractGeom ((segBody i tyContract).getD [])).getD 0
  { s with cold := (i.segs.filter fun x => !isHotSeg x).foldl put [],
           hot0 := (i.segs.filter isHotSeg).foldl put [],
           deck := { s.deck with contract := code, geometry := geom, current := false } }

/-- Check 0x0D: R36. -/
def contractFail (i : Img) : Option FailRec :=
  match contractGeom ((segBody i tyContract).getD []) with
  | none => some (failSeg i 0xD tyContract 0)
  | some g => if fld ((segBody i tyFlowgeom).getD []) 0 1 = g then none else some (failSeg i 0xD tyContract 0)

/-- The failure found where the loader takes a segment: its own checks, then the deferred ones that it makes possible
(R425). -/
def pointFail (t : State) (i : Img) (x : ImgSeg) : Option FailRec :=
  let body := fun ty => (segBody i ty).getD []
  match lowest (bodyFails t x.ty x.body) with
  | some d => some (failSeg i 0xE x.ty d)
  | none =>
    if x.ty = tyFormats then (lowest (parseLateFails (body tyParse) x.body)).map (failSeg i 0xE tyParse)
    else if x.ty = tyRoutines then
      let rs := routines x.body
      match (List.range 8).findSome? fun k => (lowest (storeLateFails t rs k)).map fun d => failSeg i 0xE (tyStore + k) d with
      | some f => some f
      | none => if coldNamed t rs then some (failSeg i 0xE tyFlowgeom 7) else none
    else if x.ty = tyCurves then (lowest (tmLateFails (body tyTm) x.body)).map (failSeg i 0xE tyTm)
    else none

/-- Checks 0x0D to 0x0F. -/
def contentFail (s : State) (i : Img) : Option FailRec :=
  let t := checkView s i
  match contractFail i with
  | some f => some f
  | none => match i.segs.findSome? (pointFail t i) with
    | some f => some f
    | none => (overCapacity t).map fun ty => failSeg i 0xF ty 0

/-- Checks 0x01 to 0x0F of the image at an area, or its reading alone (R58). -/
def loadImage (s : State) (base : Nat) (skip : Bool) : State × Except FailRec Img :=
  let r := readImage s base skip
  match r.2 with
  | .error f => (r.1, .error f)
  | .ok (h, b) => match walkImg (fld h 0x1C 2) 0 b [] with
    | .error f => (r.1, .error f)
    | .ok segs =>
      let i : Img := ⟨h, segs⟩
      if skip then (r.1, .ok i)
      else match orderFail segs with
        | some f => (r.1, .error f)
        | none => match missingFail segs with
          | some f => (r.1, .error f)
          | none => match contentFail r.1 i with
            | some f => (r.1, .error f)
            | none => (r.1, .ok i)

/-! ## Match rows across epochs (R65) -/

def setV (r : Row) (e v : Bool) : Row := if e then { r with v1 := v } else { r with v0 := v }

/-- The rows that MATCHROWS names: index and row, valid in slot `e` alone. -/
def namedRows (i : Img) (e : Bool) : List (Nat × Row) :=
  (chunks 96 ((segBody i tyMatchrows).getD [])).map fun d =>
    (fld d 0 4 % 2 ^ 17, setV ⟨fld d 16 40, fld d 56 40, fld d 4 2, fld d 8 4, false, false⟩ e true)

/-- Content without the valid bits. -/
def sameRow (a b : Row) : Bool := a.value == b.value && a.mask == b.mask && a.trump == b.trump && a.result == b.result

/-- A named row stands already, with the same content, valid in slot `e`. -/
def sharedRow (s : State) (e : Bool) (x : Nat × Row) : Bool :=
  match kget s.rows x.1 with | some r => rowValid r e && sameRow r x.2 | none => false

/-- Rows valid in slot `e` and new rows together exceed the unit (CAPACITY). -/
def rowsExceed (s : State) (i : Img) : Bool :=
  let e := curSlot s
  131072 < (s.rows.filter fun x => rowValid x.2 e).length + ((namedRows i false).filter fun x => !sharedRow s e x).length

/-- A named row meets a row of the current slot with other content (ROW_CONFLICT). -/
def rowConflict (s : State) (i : Img) : Bool :=
  let e := curSlot s
  (namedRows i false).any fun x => !sharedRow s e x && match kget s.rows x.1 with | some r => rowValid r e | none => false

/-- Place the rows of a hot commit into the slot that is not current. -/
def hotRows (s : State) (i : Img) : State :=
  let e := curSlot s
  let s1 := if carries i then { s with rows := kmap s.rows fun _ r => if rowValid r e then setV r (!e) true else r } else s
  (namedRows i (!e)).foldl (fun t x => match kget t.rows x.1 with
    | some r => if rowValid r e then { t with rows := kset t.rows x.1 (setV r (!e) true) } else { t with rows := kset t.rows x.1 x.2 }
    | none => { t with rows := kset t.rows x.1 x.2 }) s1

/-- Place the rows of a redeal or an L3 into slot 0: kept rows are those valid in slot `e` (R60, R65). -/
def dealRows (s : State) (e : Bool) (i : Img) : State :=
  let kept := if carries i then (kfilter s.rows fun _ r => rowValid r e) else []
  let kept := kmap kept fun _ r => { r with v0 := true, v1 := false }
  { s with rows := (namedRows i false).foldl (fun m x => kset m x.1 x.2) kept }

/-! ## Hot segments into a slot (R61, R165) -/

/-- Hot bodies that a slot gets: the deck's own, and RANGES and SHUFFLE carried from slot `e` where the deck does not
name them. -/
def slotBodies (s : State) (e : Bool) (i : Img) : KMap (List Byte) :=
  let own := (i.segs.filter fun x => isHotSeg x && x.ty != tyShuffle && x.ty != tyMatchrows).foldl (fun m x => kset m x.ty x.body) []
  let rng := if (segBody i tyRanges).isSome then own else kset own tyRanges (hotBody s e tyRanges)
  let t := { s with hot0 := [(tyShuffle, hotBody s e tyShuffle)] }
  let recs := (shufRecs ((segBody i tyShuffle).getD []).length ((segBody i tyShuffle).getD [])).getD []
  kset rng tyShuffle (hotBody (recs.foldl (fun t r => shufPlace t false r) t) false tyShuffle)

/-- Load the hot segments into slot `to` from the deck, with the carry of slot `e`. -/
def putHot (s : State) (e tgt : Bool) (i : Img) : State :=
  let b := slotBodies s e i
  if tgt then { s with hot1 := b } else { s with hot0 := b }

/-- The cold segments of a deck. -/
def putCold (s : State) (i : Img) : State :=
  { s with cold := (i.segs.filter fun x => !isHotSeg x).foldl (fun m x => kset m x.ty x.body) [] }

/-! ## The hot-commit checks (Table 3.6, 0x10 to 0x14) -/

/-- Cold segments, header, body and padding, in their order. -/
def coldSegs (i : Img) : List ImgSeg := i.segs.filter fun x => !isHotSeg x

/-- The first cold segment of `i` that differs from the one at its place in `a`. -/
def coldFail (i a : Img) : Option FailRec :=
  if coldSegs i = coldSegs a then none
  else
    let n := coldSegs i
    match findUp n.length 0 fun k => (n.drop k).head? != ((coldSegs a).drop k).head? with
    | some k => (match (n.drop k).head? with
      | some x => some (failSeg i 0x11 x.ty 0)
      | none => some (failOf 0x11))
    | none => some (failOf 0x11)

/-- The checks of mode HOT, the row capacity before them. The active area is read for the comparison; its poison is
reported as its own. -/
def hotFail (s : State) (i : Img) : State × Option FailRec :=
  if rowsExceed s i then (s, some (failSeg i 0xF tyMatchrows 0))
  else if !hasDeck s then (s, some (failOf 0x10))
  else
    let r := loadImage s (deckArea s false) true
    match r.2 with
    | .error f => (r.1, some { f with source := 3 })
    | .ok a => match coldFail i a with
      | some f => (r.1, some f)
      | none =>
        if fld i.hdr 0x18 4 ≤ s.deck.number then (r.1, some (failOf 0x12))
        else if s.deck.retiring then (r.1, some (failOf 0x13))
        else if rowConflict s i then (r.1, some (failSeg i 0x14 tyMatchrows 0))
        else (r.1, none)

end Sys2Proof.Machine
end

