-- ==== Sys2Proof/Machine/Kitty.lean ====
section
/-!
DEFINITION. The kitty: its areas, mirroring of kept records, the error log, the save to MRAM, the restore, and the
re-insertion of kept records (17_reset_power_and_kitty.md R401 to R405; 09_flow_actions.md R220 to R222).
Log entries: 13, 28.
-/
namespace Sys2Proof.Machine

open Sys2Proof

/-! ## Layout (Table 17.9) -/

def kSlots : Nat := 28672
def kIdent : Nat := 0x380000
def kCause : Nat := 0x381000
def kTime : Nat := 0x382000
def kSummary : Nat := 0x384000
def kLog : Nat := 0x3A0000
def kLogEntries : Nat := 12288
def kittyBytes : Nat := 0x400000

def kittyPut (s : State) (off : Nat) (bs : List Byte) : State := { s with kitty := memWrite s.kitty off bs }

/-- The identity area, written at each deck application (R402). -/
def kittyIdentity (s : State) : State :=
  let bs := toBytes 8 s.deck.deckId ++ toBytes 4 s.deck.number ++ toBytes 1 (fgF s 0 1) ++ toBytes 1 (fgF s 1 1)
    ++ toBytes 1 s.deck.contract ++ toBytes 1 0 ++ toBytes 8 (chipId s)
  kittyPut { s with kitty := memClear s.kitty kIdent (kIdent + 4096) } kIdent bs

/-- RST.CAUSE and RST.LAST in the cause area, written at each reset (R402). -/
def kittyCause (s : State) : State := kittyPut s kCause (toBytes 8 s.rst.cause.toNat ++ toBytes 8 (lastReg s))

def saveCode (t : SaveTrigger) : Nat := match t with | .pwrwarn => 1 | .vddCore => 2

/-- The fence record: the whole cause area (Table 17.9); the count of saves is the save's number (R404). -/
def kittyFence (s : State) (t : SaveTrigger) (saves : Nat) : State :=
  kittyPut (kittyPut (kittyCause s) (kCause + 16) (toBytes 6 (nowS s) ++ toBytes 4 (nowNs s % 10 ^ 9) ++ toBytes 1 (saveCode t)))
    (kCause + 32) (toBytes 8 saves)

/-- The time area (Table 17.9). -/
def kittyTimeArea (s : State) : State :=
  let s := kittyPut s kTime ([timeReg s, rateReg s, phaseReg s, utcReg s, s.time.leapAt % 2 ^ 48].flatMap (toBytes 8))
  (List.range 256).foldl (fun s p =>
    kittyPut s (kTime + 0x1000 + 16 * p) (toBytes 8 (regRaw s (aTrim p false) 0) ++ toBytes 8 (regRaw s (aTrim p true) 0))) s

/-- Groups of the counters summary, in its order (Table 17.9). -/
def summaryGroups : List Nat := [2, 5, 3] ++ (List.range 256).map (0x100 + ·)

/-- The counters summary: group images, each a capture of its group (Table 16.3). -/
def kittyCounters (s : State) : State :=
  let s := summaryGroups.foldl captured_ s
  kittyPut s kSummary (summaryGroups.flatMap fun g => groupImage s g ((groupWords s g).getD []))

/-! ## Mirroring (R220) -/

def copySlot (s : State) (k n : Nat) : State := kittyPut s (128 * k) (slotImage s n (mirrorWords s n))

/-- One entry of the mirror queue: the record's slot is written, or a free one becomes its own (a free choice,
assumption 3, DESIGN CHOICE), or MIRROR_FULL counts it. -/
def mirrorOne (s : State) (n : Nat) : State :=
  match keepSlotOf s n with
  | some k => copySlot s k n
  | none => match chooseFree s s.keep.slots 0 kSlots with
    | some (k, s) => copySlot { s with keep := { s.keep with slots := kset s.keep.slots k n } } k n
    | none => bump s aMirrorFull

/-- Drain the mirror queue into the kitty. -/
def mirrorDrain (s : State) : State :=
  s.keep.queue.foldl mirrorOne { s with keep := { s.keep with queue := [] } }

/-- A mirroring task's body: list 14, LEVELS.MIRROR; no chapter assigns its routine, a free value (assumption 13, DESIGN CHOICE). -/
def mirrorBody (s : State) : TaskBody × State :=
  let d := draw s
  ({ args := [0, 0, 0, 0], suit := none, succ := none, routine := d.1 % 256, list := 14, urgent := false,
     level := tskLevel s 4, delay := 0, origin := 2 }, d.2)

/-- The mirroring task runs `f`; where the pool is empty its post `p` waits for the list's next tick (R230). -/
def mirrorTask (s : State) (p : HeldPost) (f : State → State) : State :=
  let b := mirrorBody s
  match partRuns b.2 b.1 with
  | some s => f s
  | none => holdPost s p

/-- The keep domain is out of reset (R393). -/
def keepUp (s : State) : Bool := bit s.rst.good 7

/-- KITTY_MIRROR. -/
def mirrorOp (s : State) : State := if keepUp s && hasDeck s && !s.keep.queue.isEmpty then mirrorTask s .mirror mirrorDrain else s

/-- KITTY_SUMMARY: the time area and the counters summary, once a second (R402). -/
def summaryOp (s : State) : State :=
  if keepUp s && hasDeck s then mirrorTask s .summary fun s => kittyCounters (kittyTimeArea s) else s

/-! ## The error log (R402) -/

/-- Block id and value of a logged register. -/
def errRecord (s : State) (l : ErrLog) : Nat × Nat := match l with
  | .wdogLog => (0x04, regRaw s aWdogLog 0)
  | .ucodeLog => (0x04, regRaw s aUcodeLog 0)
  | .rowErrLast => (0x0D, regRaw s aRowErrLast 0)
  | .hbmErrLast => (0x20, errLastReg s)
  | .deckFail => (0x03, failReg s)
  | .rstLast => (0x01, lastReg s)
  | .clockFailed => (0x01, clockReg s)

/-- The register holds a record. -/
def errPresent (s : State) (l : ErrLog) : Bool := match l with
  | .wdogLog => bit (regRaw s aWdogLog 0) 63
  | .ucodeLog => bit (regRaw s aUcodeLog 0) 63
  | .rowErrLast => bit (regRaw s aRowErrLast 0) 63
  | .hbmErrLast => s.hbmc.errValid
  | .deckFail => s.deck.fail.code != 0
  | .rstLast => true
  | .clockFailed => s.rst.failed != 0

/-- ERRORLOG: ERRLOG_NEXT stands in the cause area (Table 17.9). -/
def errLogNext (s : State) : Nat := memNat s.kitty (kCause + 28) 4 % kLogEntries

/-- ERROR_LOG_WRITE. -/
def errLogOp (s : State) (l : ErrLog) : State :=
  if keepUp s && errPresent s l then
    let k := errLogNext s
    let r := errRecord s l
    let s := kittyPut s (kLog + 32 * k) (toBytes 5 (now40 s) ++ toBytes 1 r.1 ++ toBytes 2 0 ++ toBytes 8 r.2 ++ toBytes 16 0)
    kittyPut s (kCause + 28) (toBytes 4 ((k + 1) % kLogEntries))
  else s

/-! ## MRAM images (R403, R404) -/

def mramBase (b : Bool) : Nat := if b then 0x01000000 else 0

/-- A header of an image. -/
def mramHeader (s : State) (b : Bool) : List Byte := memRead s.mram (mramBase b) 64

def crcInit : Nat := 0xFFFFFFFF

/-- HDR_CRC of a header's first 60 bytes, STATE taken as 0x00. -/
def hdrCrc (h : List Byte) : Nat := crc32c crcInit (patch (slice h 0 60) 4 [0])

/-- MAGIC matches, STATE is COMPLETE or CONSUMED, and HDR_CRC matches. -/
def hdrValid (h : List Byte) : Bool :=
  fld h 0 4 == 0x4B495459 && (fld h 4 1 == 1 || fld h 4 1 == 2) && fld h 60 4 == hdrCrc h

def hdrSeq (h : List Byte) : Nat := fld h 8 8

/-- The image of the valid header with the highest SEQ. -/
def newestImage (s : State) : Option Bool :=
  let a := mramHeader s false
  let b := mramHeader s true
  if hdrValid a && hdrValid b then some (decide (hdrSeq a < hdrSeq b))
  else if hdrValid a then some false else if hdrValid b then some true else none

/-- The number of the next save (R404). -/
def nextSave (s : State) : Nat := match newestImage s with
  | some b => (hdrSeq (mramHeader s b) + 1) % 2 ^ 64
  | none => 1

/-- The image a save writes; with no valid header either may be taken, and the model takes A. -/
def saveTarget (s : State) : Bool := match newestImage s with | some b => !b | none => false

/-- The header of a complete image (Table 17.10). -/
def imageHeader (s : State) (seq crc micros : Nat) : List Byte :=
  let h := toBytes 4 0x4B495459 ++ toBytes 1 1 ++ toBytes 3 0 ++ toBytes 8 seq ++ toBytes 4 kittyBytes ++ toBytes 4 crc
    ++ toBytes 6 (nowS s) ++ toBytes 4 (nowNs s % 10 ^ 9) ++ toBytes 4 micros ++ toBytes 8 (memNat s.kitty kIdent 8) ++ toBytes 14 0
  h ++ toBytes 4 (hdrCrc h)

/-- The save: STATE INVALID, the payload, then the header (R404). -/
def saveImage (s : State) (micros : Nat) : State :=
  let b := saveTarget s
  let seq := nextSave s
  let base := mramBase b
  let pay := memRead s.kitty 0 kittyBytes
  let m := memWrite (memWrite s.mram (base + 4) [0]) (base + 0x1000) pay
  { s with mram := memWrite m base (imageHeader s seq (crc32c crcInit pay) micros) }

/-- The steps of a save up to its end (Table 17.8): the mirror queue is drained, the fence recorded, the image written. -/
def saveKitty (s : State) (t : SaveTrigger) (micros : Nat) : State :=
  saveImage (keepStores s (kittyFence (mirrorDrain s) t (nextSave s))) micros

/-! ## The restore (R405) -/

/-- The name of a record that waits for its re-insertion in slot `k`: no record of the table has it. -/
def waitName (k : Nat) : Nat := 2 ^ 28 + k

/-- Slots of the kitty that hold a record. -/
def heldSlots (s : State) : KMap Nat :=
  ((List.range kSlots).filter fun k => bit (memNat s.kitty (128 * k) 4) 31).map fun k => (k, waitName k)

/-- RATE and the port trims of the time area go to the time unit (R316). -/
def restoreTime (s : State) : State :=
  let s := { s with time := { s.time with rate := sint 40 (memNat s.kitty (kTime + 8) 8) } }
  (List.range 256).foldl (fun s p => [false, true].foldl (fun s tx =>
    setReg s (aTrim p tx) (memNat s.kitty (kTime + 0x1000 + 16 * p + (if tx then 8 else 0)) 8 % 2 ^ 32)) s) s

/-- The restore of a power-on: it ends with saves armed. -/
def restoreKitty (s : State) : State :=
  let done := fun (s : State) (code : Nat) (b : Bool) (seq : Nat) =>
    { s with keep := { s.keep with restore := code, armed := true, imageB := b, seq := seq % 2 ^ 32 } }
  match newestImage s with
  | none => done s 0 false 0
  | some b =>
    let h := mramHeader s b
    if fld h 4 1 = 2 then done s 3 b (hdrSeq h)
    else
      let pay := memRead s.mram (mramBase b + 0x1000) kittyBytes
      if crc32c crcInit pay ≠ fld h 20 4 then done { s with kitty := [] } 2 b (hdrSeq h)
      else
        let s := markSet { s with kitty := memWrite [] 0 pay, mram := memWrite s.mram (mramBase b + 4) [2],
                                  rst := { s.rst with cause := s.rst.cause ||| 2 } } aCause 2
        let s := { s with keep := { s.keep with slots := heldSlots s, due := true } }
        done (restoreTime s) 1 b (hdrSeq h)

/-! ## Re-insertion (R222) -/

/-- Slot `k` no longer holds a record. -/
def freeSlot (s : State) (k : Nat) : State :=
  kittyPut { s with keep := { s.keep with slots := kdel s.keep.slots k } } (128 * k) [0, 0, 0, 0]

/-- The identity area names the applied deck's RECORD and KEY_BYTES. -/
def sameGeometry (s : State) : Bool :=
  memNat s.kitty (kIdent + 12) 1 == fgF s 0 1 && memNat s.kitty (kIdent + 13) 1 == fgF s 1 1

/-- The first deal after an L1 or L2, before the identity area is written: records whose geometry differs are not
re-inserted, and free their slots. -/
def keptCheck (s : State) : State :=
  if s.keep.due && !sameGeometry s then
    let s := (s.keep.slots.map (·.1)).foldl freeSlot s
    { s with keep := { s.keep with due := false, skipped := true } }
  else s

/-- The words that a slot's record comes back with: seen now, its timer cleared, KEEP set. -/
def keptWords (s : State) (k : Nat) : List W32 :=
  let c := coreW s
  let ws := (List.range (recWords s)).map fun w =>
    BitVec.ofNat 32 (if w < min 31 (tagW s) then memNat s.kitty (128 * k + 4 + 4 * w) 4 else 0)
  let t := now40 s
  let ws := setWord ws c (setBits (setBits (wordOf ws c) 12 12 0) 14 14 1)
  let ws := setWord ws (c + 1) (t / 256)
  let ws := setWord ws (c + 2) (setBits (wordOf ws (c + 2)) 31 24 (t % 256))
  let ws := setWord ws (c + 6) (setBits (wordOf ws (c + 6)) 13 0 (nowS s))
  if s.deck.geometry = 1 then ws else setWord ws 29 0

/-- The table or a PROVISIONAL line holds the key. -/
def keyPresent (s : State) (key : List Byte) : Bool :=
  (match fetchFind (tagAt s) s key with | .found _ => true | .absent _ => false)
  || s.lines.any fun e => e.2.lstate == .record && e.2.provisional && e.2.key == key

/-- Re-insert the record of slot `k`: a present key or a failed insert frees the slot. -/
def reinsertOne (s : State) (k : Nat) : State :=
  let s := cross s 110 64 (chunks 64 (memRead s.kitty (128 * k) 128))
  let ws := keptWords s k
  let key := keyOf s ws
  let dig := digestOf s key
  if keyPresent s key then freeSlot s k
  else match makePlace s key with
    | none => freeSlot (bump s aInsertFail) k
    | some (s, i, second) =>
      let s := writeRecord s i ws (tagWord second dig)
      copySlot { s with keep := { s.keep with slots := kset s.keep.slots k i, restored := (s.keep.restored + 1) % 2 ^ 15 } } k i

/-- A fetch or another create holds the key. -/
def keyBusy (s : State) (key : List Byte) : Bool :=
  s.lines.any fun e => (e.2.lstate == .pending || e.2.lstate == .absent) && e.2.key == key

/-- The body of a re-insertion task (R222): LEVELS.INSERT, no list; no chapter assigns its level or routine (assumption 13,
DESIGN CHOICE). -/
def reinsertBody (s : State) : TaskBody × State :=
  let d := draw s
  ({ args := [0, 0, 0, 0], suit := none, succ := none, routine := d.1 % 256, list := 0, urgent := false,
     level := tskLevel s 1, delay := 0, origin := 2 }, d.2)

/-- The service task of slot `k` runs. A record whose key a fetch or another create holds, and one whose task finds the
pool empty, wait for a later run. -/
def reinsertTask (s : State) (k : Nat) : State :=
  if keyBusy s (keyOf s (keptWords s k)) then s
  else
    let b := reinsertBody s
    match partRuns b.2 b.1 with
    | some s => reinsertOne s k
    | none => s

/-- Slots whose record waits for its re-insertion. -/
def dueSlots (s : State) : List Nat := (s.keep.slots.filter fun e => 2 ^ 28 ≤ e.2).map (·.1)

/-- KEPT_REINSERT: after the first deal, while FLOW takes service operations. -/
def reinsertOp (s : State) : State :=
  if keepUp s && hasDeck s && s.keep.due && s.rst.foldFlow == .open_ then
    let s := (dueSlots s).foldl reinsertTask s
    { s with keep := { s.keep with due := !(dueSlots s).isEmpty } }
  else s

/-- KITTY_MIRROR (R220). -/
def execKittyMirror (s : State) : Host.Outcome State Fault Refusal := cmd .kittyMirror s mirrorOp
/-- KITTY_SUMMARY (R402). -/
def execKittySummary (s : State) : Host.Outcome State Fault Refusal := cmd .kittySummary s summaryOp
/-- ERROR_LOG_WRITE (R402). -/
def execErrorLogWrite (log : ErrLog) (s : State) : Host.Outcome State Fault Refusal :=
  cmd (.errorLogWrite log) s fun s => errLogOp s log
/-- KEPT_REINSERT (R222). -/
def execKeptReinsert (s : State) : Host.Outcome State Fault Refusal := cmd .keptReinsert s reinsertOp

end Sys2Proof.Machine
end

