-- ==== Sys2Proof/Machine/ZatFrame.lean ====
section
/-!
DEFINITION. Zatas frames: messages, tags, encapsulation, what leaves a control port, and the end of a session
(15_zatas_control_protocol.md R334, R336 to R338, R343 to R345, R353).
Log entries: 35.
-/
namespace Sys2Proof.Machine

open Sys2Proof

/-! ## Messages (R336 to R338) -/

/-- A transaction with its padded data (Table 15.3). -/
def txnBytes (r : TxnRes) : List Byte :=
  toBytes 1 r.op ++ toBytes 1 r.status ++ toBytes 2 r.tag ++ toBytes 4 r.data.length ++ toBytes 8 r.addr ++ pad8 r.data

/-- The 32 B header (Table 15.2). -/
def zatHeader (flags count session window seq ack sack len : Nat) : List Byte :=
  toBytes 1 1 ++ toBytes 1 flags ++ toBytes 1 4 ++ toBytes 1 count ++ toBytes 2 session ++ toBytes 2 window
  ++ toBytes 4 seq ++ toBytes 4 ack ++ toBytes 4 sack ++ toBytes 2 len ++ toBytes 10 0

/-- A message with its tag; without a key the tag is 0 (R338). -/
def zatMsg (key : Option (List Byte)) (flags session window seq ack sack : Nat) (ts : List TxnRes) : List Byte :=
  let body := ts.flatMap txnBytes
  let m := zatHeader flags ts.length session window seq ack sack (48 + body.length) ++ body
  m ++ (match key with | some k => (hmacSha256 k m).take 16 | none => List.replicate 16 0)

/-- The frames a session may have outstanding; 1 while an HBM stack has TRAIN_FAIL set (R345). -/
def frameWindow (s : State) : Nat := if trainFailed s then 1 else 256

/-- The signed 32-bit difference of two sequence numbers. -/
def seqDiff (a b : Nat) : Int := sint 32 (wrapSub 32 a b)

/-- WINDOW of a part frame: frames beyond ACK that the part will accept. -/
def windowLeft (s : State) (x : Session) : Nat := min 256 (seqDiff (x.hack + frameWindow s) x.next).toNat

/-- SACK: bit i, frame ACK + 1 + i received. -/
def sackOf (x : Session) : Nat := ((List.range 32).map fun i => b2n (khas x.rx ((x.next + 1 + i) % 2 ^ 32)) * 2 ^ i).sum

/-- A frame of session `n`: RESPONSE set as in every frame of the part, and the session's ACK, SACK and WINDOW. -/
def sessMsg (s : State) (n flags seq : Nat) (ts : List TxnRes) : List Byte :=
  let x := sessOf s n
  zatMsg (some x.ks) (1 + flags) n (windowLeft s x) seq x.next (sackOf x) ts

/-! ## Encapsulation (R334) -/

/-- MAC address of a control port. -/
def ctlMac (s : State) (cp : Nat) : Nat := (s.fuses.macBase + 256 + cp) % 2 ^ 48

/-- The IPv6 pseudo-header's bytes (RFC 8200). -/
def pseudo6 (src dst : List Byte) (len next : Nat) : List Byte := src ++ dst ++ toBytes 4 len ++ toBytes 4 next

/-- An IPv6 header; traffic class and flow label are free (assumption 3, DESIGN CHOICE). -/
def ip6Header (free len next hop : Nat) (src dst : List Byte) : List Byte :=
  toBytes 4 (6 * 2 ^ 28 + free % 2 ^ 28) ++ toBytes 2 len ++ toBytes 1 next ++ toBytes 1 hop ++ src ++ dst

/-- A UDP or ICMPv6 checksum over these bytes, its own place holding 0; UDP sends 0 as 0xFFFF (RFC 8200). -/
def csumOf (bs : List Byte) : Nat := let c := 0xFFFF - csumWords bs; if c = 0 then 0xFFFF else c

/-- The frame, FCS excluded, that carries a message back to where `e` came from; the draw is the IPv6 header's. -/
def encapFrame (s : State) (e : Encap) (msg : List Byte) (free : Nat) : List Byte :=
  let eth := e.mac ++ toBytes 6 (ctlMac s e.cp) ++ e.vlan
  match e.ip with
  | none => eth ++ [0x88, 0xB5] ++ msg
  | some (src, dst, sport, dport) =>
    let n := 8 + msg.length
    let udp := fun (c : Nat) => toBytes 2 dport ++ toBytes 2 sport ++ toBytes 2 n ++ toBytes 2 c ++ msg
    eth ++ [0x86, 0xDD] ++ ip6Header free n 17 64 dst src
      ++ udp (csumOf (pseudo6 dst src n 17 ++ udp 0))

/-- A frame leaves a control port, through its crossing queue, and is counted (Table 1.10). -/
def ctlSend (s : State) (cp : Nat) (f : List Byte) : State :=
  bump (cross { s with sent := s.sent ++ [.control cp f] } (107 + cp % 2) 256 (chunks 256 f)) (aZatCtr cp 1)

/-- A message leaves toward `e`. -/
def zatSend (s : State) (e : Encap) (msg : List Byte) : State :=
  let d := if e.ip.isSome then draw s else (0, s)
  ctlSend d.2 e.cp (encapFrame s e msg d.1)

/-- Bytes of transactions that fit in a frame (Table 15.5). -/
def frameRoom (e : Encap) : Nat := (if e.ip.isSome then 9102 else 9150) - (if e.vlan.isEmpty then 0 else 4)

/-- An ack-only frame (R345). -/
def sendAck (s : State) (n : Nat) : State :=
  let x := sessOf s n
  zatSend (setSess s n { x with ackDue := false }) x.enc (sessMsg s n 0 0 [])

/-- ACK_ONLY_SEND: a frame was accepted out of order, a duplicate calls for it, or a frame's response is not ready. -/
def ackSendOp (s : State) (n : Nat) : State :=
  let x := sessOf s n
  if isOpen s n && (x.ackDue || !x.rx.isEmpty || x.exec.isSome) then sendAck s n else s

/-! ## The end of a session -/

/-- Its subscriptions end and their unspent credits lapse (R353). -/
def dropRings (s : State) (n : Nat) : State :=
  { s with rings := kmap s.rings fun _ g => if g.reader = some n then { g with reader := none, credits := 0, part := 0 } else g }

/-- Session `n` is FREE; what its transactions waited for goes on without them (Table 15.4, R353). -/
def closeSess (s : State) (n : Nat) : State :=
  let s := dropRings s n
  let own := match s.deck.owner with | some m => m == n | none => false
  let deck := if own then { s.deck with owner := none } else s.deck
  { s with deck := deck, zat := { s.zat with sessions := kdel s.zat.sessions n,
                                             waits := kfilter s.zat.waits fun _ w => w.session != n } }

/-- ACK_ONLY_SEND (R345). -/
def execAckOnlySend (session : Nat) (s : State) : Host.Outcome State Fault Refusal :=
  cmd (.ackOnlySend session) s fun s => ackSendOp s session
/-- CHALLENGE_TIMEOUT: a CHALLENGED session is FREE (Table 15.4). -/
def execChallengeTimeout (session : Nat) (s : State) : Host.Outcome State Fault Refusal :=
  cmd (.challengeTimeout session) s fun s => if (sessOf s session).state == .challenged then closeSess s session else s
/-- SESSION_IDLE_TIMEOUT: an OPEN session is FREE (R382). -/
def execSessionIdleTimeout (session : Nat) (s : State) : Host.Outcome State Fault Refusal :=
  cmd (.sessionIdleTimeout session) s fun s => if isOpen s session then closeSess s session else s

end Sys2Proof.Machine
end

