-- ==== Sys2Proof/Machine/Reset.lean ====
section
/-!
DEFINITION. The L3 sequence of Table 2.3 and the application of a deck, by a redeal or by any other L3
(02_contracts_and_floors.md R36 to R39; 03_deck.md R53, R59, R60, R65; 17_reset_power_and_kitty.md R387, R388). A sequence
runs whole in its command (assumption 23, DESIGN CHOICE).
Log entries: 15, 23, 24, 25, 28, 32, 48.
-/
namespace Sys2Proof.Machine

open Sys2Proof

/-! ## Step 1: what an L3 discards, and the registers it spares -/

/-- Blocks that an L3 spares: TOP, RST, KEEP, LANE, PORT, TIME, HBM, ZAT (Table 17.2). -/
def sparedBlocks : List Nat := [0x00, 0x01, 0x02, 0x08, 0x09, 0x1C, 0x20, 0x24]

/-- Stored words that an L3 keeps (Table 17.2 spares PORT, so port counters, SHUT and lane tests stay, though Table 1.6
lists port counters among what an L3 clears: assumption 54, DESIGN CHOICE): spared blocks, and the fields marked "kept L3" of the blocks it reaches (R10): DLR.CTL,
WDOG_LOG, the routine pairs and the performance windows, TSK.LEVELS and LIST_CFG, POT.CTL, the rings' LOST, PERF_SAMPLE
and the dumps' SKIPS. -/
def keptL3 (a : Nat) : Bool :=
  sparedBlocks.contains (a / 2 ^ 40) || a == aDlrCtl || a == aWdogLog
  || (0x040030000000 ≤ a && a < 0x040040000000) || (0x040050000000 ≤ a && a < 0x040060000000)
  || a == aTskLevels || (aListCfg 0 ≤ a && a ≤ aListCfg 15) || a == 0x190000000000
  || (0x280010000000 ≤ a && a < 0x280020000000) || a == aPerfSample || (0x280000000400 ≤ a && a < 0x280000000480)

/-- The transactions that satisfy `p` complete with ABORTED (R358). -/
def abortWaits (s : State) (p : WaitFor → Bool) : State :=
  (s.zat.waits.filter fun e => p e.2.what).foldl (fun s e => finishWait s e.1 stAborted e.2.txn.addr []) s

/-- A block move that runs goes on to its end (R388). -/
def finishMove (fuel : Nat) (s : State) : State :=
  match fuel with
  | 0 => s
  | k + 1 => match s.moves with
    | m :: _ => if m.hole.isSome then finishMove k (matchMoveOp s) else s
    | [] => s

/-- The running move completes, queued INSERTs and host tasks complete with ABORTED (R358, R388). -/
def stopHost (s : State) : State :=
  let s := finishMove 131074 s
  abortWaits { s with moves := [] } fun w => w == .matchMove || w == .hostTask

/-- A load that awaits its switch is abandoned (R60). -/
def abandonLoad (s : State) : State :=
  if s.deck.phase == .hotPending then
    abortWaits { s with deck := { s.deck with stagedOk := false, hot := none, owner := none } } fun w => w == .hot
  else s

/-- Each port sends a quanta of 0 for the classes it holds off. -/
def endHoldOff (s : State) : State :=
  (List.range 256).foldl (fun s p =>
    let x := portOf s p
    if x.xoff = 0 then s
    else
      let s := setPort s p { x with xoff := 0 }
      if x.up then sendFc s p (((fcClasses s p).filter fun c => bit x.xoff.toNat c).map fun c => (c, 0)) else s) s

/-- A frame whose rest is discarded leaves the MAC stomped; a whole one is untouched. -/
def cutTx (s : State) (e : TxFrame) : TxFrame :=
  if e.pkt.ended then e
  else
    let got := match potFrame s e.pkt.queue e.frame with | some f => f.bytes | none => e.pkt.frame
    { e with stomp := true, pkt := { e.pkt with ended := true, frame := got } }

def cutAllTx (s : State) : State :=
  { s with ports := kmap s.ports fun _ x => { x with txq := x.txq.map (cutTx s) } }

/-- Every cell between a hand and a pot's queues. -/
def fabricCells (s : State) : List Cell :=
  s.opens.map (·.2) ++ s.cutq.flatMap (·.2) ++ s.staged.flatMap (·.2) ++ s.crossing.flatMap (·.2)
  ++ s.reseq.flatMap (·.2.held)

/-- Count what is discarded: frames in rate buffers and hands in HOLD_DROP of their ingress port, those in the stock in
L3_DISCARD, those in pots or whose first cell is on its way there in FORCED_DISCARD (assumption 24, DEDUCED). -/
def countDiscards (s : State) : State :=
  let sent := s.sendq.flatMap fun e => (e.2.filter (·.started)).map (·.vec)
  let hands := s.pkts.filter fun e => e.1 < 8192
  let s := s.rb.foldl (fun s e => e.2.foldl (fun s f => bump s (aPortCtr f.port 9)) s) s
  let s := hands.foldl (fun s e =>
    let s := endAtMac s e.2
    if sent.contains e.1 then s else bump s (aPortCtr e.2.port 9)) s
  let s := bumpBy s aL3Discard s.stock.length
  let s := s.queues.foldl (fun s e =>
    bumpBy s (aForcedDiscard (e.1 / 2048)) (e.2.frames.filter fun f => !inTx s e.1 f.id).length) s
  (fabricCells s).foldl (fun s c => bumpBy s (aForcedDiscard c.dst) (c.segs.filter (·.start)).length) s

/-- Every attempt that runs ends (R377). -/
def endAttempts (s : State) : State :=
  s.tricks.foldl (fun s e => perfAttempt s (e.1 / 256) (e.1 % 256) e.2 e.2.committed) s

/-- The pipeline is empty: tricks, vectors, rate buffers, stock, scheduler, fabric, pots and TM queues (Table 17.2). -/
def clearPipe (s : State) : State :=
  let s := dropReserved s
  { s with
    tricks := [], pkts := [], displaced := [], rb := [], occ := [], recircq := [], takes := [], admits := [], walkHw := [],
    buckets := [], late := [], lports := [],
    suits := [], stock := [], windows := [], tasks := [], listNow := [], scanAt := 0, scanRem := 0,
    opens := [], cutq := [], staged := [], sendq := [], pairs := [], grantp := [], acceptp := [], crossing := [], reseq := [],
    queues := [], holds := [], shapers := [], grpDef := [], policers := [], potTurn := [], high := [] }

/-- Requests in the bank queues complete; their data is for nobody (R332). -/
def orphanReqs (s : State) : State :=
  { s with hbmc := { s.hbmc with reqs := kmap s.hbmc.reqs fun _ rs => rs.map fun r => { r with line := 2 ^ 22 }, tags := [] } }

/-- The CONF interval ends (R43). -/
def clearConf (s : State) : State :=
  { s with latchConf := State.reset.latchConf, conf := { Conf.reset with since := nowNs s } }

/-! ## Step 2: the cache is written back (R25, R197) -/

/-- PROVISIONAL inserts land or are lost. -/
def landAll (s : State) : State := (s.lines.map (·.1)).foldl landLine s

/-- Steps 1 to 3. Counters that the L3 clears are cleared before it counts what it discards. -/
def l3Begin (s : State) : State :=
  let s := abandonLoad (stopHost s)
  let s := clearConf (endHoldOff (endAttempts s))
  let s := countDiscards { s with regs := kfilter s.regs fun a _ => keptL3 a }
  let s := emptyCache (landAll (cutAllTx s))
  orphanReqs (clearPipe s)

/-! ## Step 4 (R39, R177) -/

/-- FLOWGEOM bodies with different geometry. -/
def geomDiffers (a b : List Byte) : Bool :=
  slice a 0 2 != slice b 0 2 || bit (fld a 2 1) 0 != bit (fld b 2 1) 0 || fld a 13 1 != fld b 13 1 || slice a 16 28 != slice b 16 28

/-- Every bucket is written empty, one write each, a quarter of them in each stack; the kitty keeps its copies. -/
def clearTable (s : State) (span : Nat) : State :=
  let lo := span * 2 ^ 32
  let hi := lo + 1024 * nBuckets
  let s := (List.range 4).foldl (fun s st => bumpBy s (aHbmCtr st 4) (nBuckets / 4)) s
  { s with hbm := memClear s.hbm lo hi,
           hbmc := { s.hbmc with poison := s.hbmc.poison.filter fun k => 32 * k < lo || hi ≤ 32 * k },
           keep := { s.keep with queue := [], slots := kmap s.keep.slots fun k _ => waitName k },
           deck := { s.deck with tableCleared := true },
           sets := (markSet s aContract (2 ^ 50)).sets }

/-! ## Step 5: lanes (R114) -/

/-- The entries that serve logical lane `l`: its lane byte and its port's OPT, its places in the maps, the polarity of
the lanes that carry it, its half-octet's entries. -/
def laneSig (s : State) (l : Nat) : List Nat :=
  let o := l / 8
  let rx := laneMap s o 8 (l % 8)
  let tx := laneMap s o 11 (l % 8)
  [laneByte s l, (match ownerPort s l with | some p => portOpt s p | none => 0), rx, tx,
   b2n (bit (octetF s o 14 1) rx), b2n (bit (octetF s o 15 1) tx), coldF s tyClocks (l / 4) 1, coldF s tyClocks (64 + l / 4) 1]

/-- Lanes that go quiet at a redeal from `old` to `s`: changed ones, and those of a port that has one. -/
def laneChanged (old s : State) (l : Nat) : Bool :=
  let differs := fun (k : Nat) => laneSig old k != laneSig s k
  let span := fun (t : State) => match ownerPort t l with
    | some p => (List.range (portLanes t p)).any fun i => differs (p + i)
    | none => false
  differs l || span old || span s

/-- The first deal: every group is due, in SAFE once GO is written. A later redeal: links of changed lanes go down, and
their groups are due (R114, R115). -/
def startLanes (old s : State) (first : Bool) : State :=
  if first then
    { s with rst := { s.rst with groups := 0, groupsDue := List.range 16, goHeld := bit s.rst.strap 3 } }
  else
    let ls := (List.range 256).filter (laneChanged old s)
    let s := (List.range 256).foldl (fun t p => if portStart old p && ls.contains p then linkLost t p else t) s
    let due := sortNat (s.rst.groupsDue ++ ls.map (· / 16))
    ls.foldl settleAn { s with rst := { s.rst with groupsDue := due, groups := 16 - due.length } }

/-- PORT.CTL.ENABLE is loaded with 1 for every port of the deck (assumption 15, DEDUCED); lane tests settle. -/
def loadPortCtl (s : State) : State :=
  let s := (List.range 256).foldl (fun s p =>
    if isPort s p then (if khas s.regs (aPort p) then setReg s (aPort p) (setBits (portCtl s p) 0 0 1) else s)
    else delReg s (aPort p)) s
  (List.range 256).foldl laneSettle s

/-! ## Step 5: the other parts of a deck -/

/-- Runs that the lists of slot `tgt` leave standing: unchanged lists; after a hot switch also the running list of a port
that a list is bound to, until that list starts (R311, R312). -/
def runStands (s : State) (tgt hot : Bool) (r : GateRun) : Bool :=
  let b := hotBody s tgt tyGates
  gateList s tgt r.list == some r.what
  || (hot && r.running && (gateLists b.length b 0).any fun k => (gateList s tgt k).any fun g => g.port == r.what.port)

/-- Gate lists of slot `tgt` that differ from the old ones in slot `e` are activated while VALID is 1; a port whose list
ends has every gate open (R311, R312). -/
def startGates (old s : State) (e tgt hot : Bool) : State :=
  let b := hotBody s tgt tyGates
  let gone := s.time.gates.filter fun r => !runStands s tgt hot r
  let ends := (gone.filter (·.running)).map (·.what.port)
  let s := { s with time := { s.time with gates := s.time.gates.filter (runStands s tgt hot) },
                    ports := kmap s.ports fun p x => if ends.contains p then { x with gates := 0xFF } else x,
                    coreTime := s.coreTime.filter fun x => !ends.contains x.1 }
  (gateLists b.length b 0).foldl (fun t k =>
    if t.time.valid && gateList t tgt k != gateList old e k then activate t tgt k else t) s

/-- A new TIME body restarts the instances; UTC_OFFSET is loaded at the first deal (R316, Table 13.5). -/
def loadTime (old s : State) (first : Bool) : State :=
  let t := if coldBody old tyTime = coldBody s tyTime then s.time
    else { s.time with seqIds := [], msgAt := [], genDue := [] }
  { s with time := if first then { t with utcOff := sint 16 (tiF s 4 2) } else t }

/-- Rings are emptied where their layout changes; their readers stay (R370). A dump engine whose record changes writes
its slot headers anew (R373). -/
def loadObs (old s : State) : State :=
  let a := coldBody old tyObs
  let b := coldBody s tyObs
  let same := obsRingRecs a == obsRingRecs b && fld a 10 1 == fld b 10 1
  let empty := fun (g : Ring) => { g with items := [], head := 0, tail := 0, part := 0, armed := false, slots := [] }
  let rings := if same then s.rings else kmap s.rings fun _ g => empty g
  let rec_ := fun (x : List Byte) (e : Nat) => (obsDumpRecs x).find? fun d => fld d 0 1 == e
  { s with rings := rings,
           dumps := kmap s.dumps fun e d => if rec_ a e = rec_ b e then d else { d with headers := false } }

/-- Close sessions from the highest number of `ns` down until `max` are left. -/
def closeOver (s : State) (ns : List Nat) (max : Nat) : State := (ns.drop max).reverse.foldl closeSess s

/-- Revocation: sessions of disabled or lowered slots, then those beyond MAX_SESSIONS and MAX_PRIVILEGED (R359). -/
def revoke (s : State) : State :=
  let bad := (s.zat.sessions.filter fun e => e.2.state == .opened && slotLevel s e.2.slot < max 1 e.2.level).map (·.1)
  let s := bad.foldl closeSess s
  let s := closeOver s ((s.zat.sessions.filter fun e => e.2.state != .free).map (·.1)) (maxSessions s)
  closeOver s ((s.zat.sessions.filter fun e => e.2.state == .opened && e.2.level == 3).map (·.1)) (maxPrivileged s)

/-- Seeds and digest key in use: the drawn ones under RANDOM, else the body's (Table 8.4). -/
def loadSeeds (s : State) : State :=
  { s with seeds := if bit (fgF s 2 1) 0 then s.drawn else [fgF s 16 4, fgF s 20 4, fgF s 24 4, fgF s 28 16] }

/-- A POOL body other than the active one clears the pool (R163). -/
def loadPool (old s : State) : State :=
  if coldBody old tyPool = coldBody s tyPool then s else { s with pool := [], poolSet := [] }

/-! ## Steps 4 to 6 -/

/-- The deck's segments in slot 0 and its identity (R60, R65, R165); `e` is the slot that was current. -/
def placeDeck (s : State) (e : Bool) (i : Img) : State :=
  let s := putCold { putHot (dealRows s e i) e false i with hot1 := [] } i
  { s with deck := { s.deck with
      phase := .active, contract := coldF s tyContract 0 1, geometry := (contractGeom (coldBody s tyContract)).getD 0,
      number := fld i.hdr 0x18 4, deckId := fld i.hdr 0x10 8, current := false, retiring := false, hot := none,
      inflight0 := 0, inflight1 := 0, held0 := 0, held1 := 0, appliedClk := s.clk } }

/-- What every application does: buckets, shapers and policers full, ENABLE loaded, the identity area written. -/
def settleDeck (s : State) : State := kittyIdentity (loadPortCtl (fillBuckets s))

/-- DECK.STATUS.SOURCE of a commit's source: 0 staging, 1 flash A, 2 flash B (Tables 3.7, 3.12). -/
def sourceCode (src : Nat) : Nat := if src = 0 then 3 else src

/-- Step 4 clears the flow table: at the first deal, and where the HBM geometry changes (R39, R177). -/
def redealClears (old : State) (i : Img) : Bool :=
  !old.deck.dealt || geomDiffers (coldBody old tyFlowgeom) ((segBody i tyFlowgeom).getD [])

/-- A redeal with a deck read from `src` (3: the active area, which stays): steps 4 to 6. -/
def applyRedeal (old : State) (e : Bool) (i : Img) (src : Nat) : State :=
  let first := !old.deck.dealt
  let s := if redealClears old i then clearTable old (fld ((segBody i tyFlowgeom).getD []) 13 1) else old
  let s := placeDeck s e i
  let d := { s.deck with upperActive := if src = 3 then s.deck.upperActive else !s.deck.upperActive,
                         source := if src = 3 then s.deck.source else sourceCode src,
                         commits := (s.deck.commits + 1) % 65536, dealt := true,
                         stagedOk := src == 3 && s.deck.stagedOk }
  let s := loadSeeds (loadPool old { s with deck := d })
  let s := if first then keptCheck s else s
  let s := startGates old (loadTime old s first) e false false
  let s := startLanes old (settleDeck (loadObs old s)) first
  let s := revoke s
  if s.rst.step = 7 then groupsEnd (setStep s 9) else s

/-- The active area re-applied by any other L3; a poisoned word in it leaves the part with no deck (R60). The lanes run
on as they are mapped, for an L3 spares LANE. -/
def reapply (s : State) (e : Bool) : State :=
  let r := loadImage s (deckArea s false) true
  match r.2 with
  | .ok i => settleDeck (placeDeck r.1 e i)
  | .error f =>
    markSet { r.1 with
               cold := kfilter r.1.cold fun ty _ => ty == tyPortmap || ty == tyClocks, hot0 := [], hot1 := [],
               deck := { r.1.deck with phase := .empty, contract := 0, geometry := 0, current := false, retiring := false,
                                       inflight0 := 0, inflight1 := 0, held0 := 0, held1 := 0, hot := none,
                                       fail := { f with source := 3 }, failSticky := true } } aDeckStatus (2 ^ 8)

/-- Folds that were pending read folded; they complete with the release (R397). -/
def endFolds (s : State) : State :=
  let close := fun (f : FoldSt) => if f = .folding then FoldSt.folded else f
  { s with rst := { s.rst with foldIntake := kmap s.rst.foldIntake fun _ f => close f,
                               foldPot := kmap s.rst.foldPot fun _ f => close f,
                               foldFlow := close s.rst.foldFlow } }

/-- The pipeline stays held for what the steps of the L3 take: from one clk to `us` µs, a free value within these bounds
(R38, Table 2.3; assumption 23, DESIGN CHOICE). -/
def holdPipe (us : Nat) (s : State) : State :=
  let d := draw s
  { d.2 with rst := { d.2.rst with heldTill := s.clk + 1 + d.1 % (us * usClk) } }

/-- An L3 that is no redeal: steps 1 to 6 with the active deck (R60, R388). -/
def runL3 (s : State) : State :=
  let e := curSlot s
  let s := l3Begin s
  holdPipe 291 (endFolds (if s.deck.dealt then reapply s e else s))

/-- A redeal (R59): within 291 µs, and 4 ms more where every bucket is written empty (R38). It reads REDEALING until the
pipeline is released. -/
def runRedeal (s : State) (i : Img) (src : Nat) : State :=
  let t := endFolds (applyRedeal (l3Begin s) (curSlot s) i src)
  holdPipe (if redealClears s i then 4291 else 291) { t with deck := { t.deck with phase := .redealing } }

/-! ## Recording a reset (R383, R384, Tables 17.1, 17.11) -/

/-- A source is recognised. -/
def noteCause (s : State) (src : Nat) : State :=
  markSet { s with rst := { s.rst with cause := s.rst.cause ||| BitVec.ofNat 8 (2 ^ src) } } aCause (2 ^ src)

/-- The level that is run, and when it began. -/
def noteLast (s : State) (level src t : Nat) : State :=
  { s with rst := { s.rst with lastLevel := level, lastSrc := src, lastTime := t } }

/-- The power-on sequence is in steps 1 and 2 (R391). -/
def earlyStep (s : State) : Bool := s.rst.step == 1 || s.rst.step == 2

/-- The reset on record stands through the sequence that it names. -/
def keepLast (s t : State) : State :=
  { t with rst := { t.rst with cause := s.rst.cause, lastLevel := s.rst.lastLevel, lastSrc := s.rst.lastSrc,
                               lastTime := s.rst.lastTime } }

/-- An L3 that arrives while one runs joins it (R384, R60): its source is recorded, and the level that runs names the
lowest source; a redeal becomes the L3 of the source that joins it. -/
def joinL3 (s : State) (src : Nat) : State :=
  let s := noteCause s src
  kittyCause (if s.deck.phase = .redealing then noteLast s 3 src (now40 s)
    else noteLast s 3 (min s.rst.lastSrc src) s.rst.lastTime)

/-- Source `src` leads to an L3; in steps 1 and 2 `l1` runs in its place (R391). -/
def l3From (s : State) (src : Nat) (l1 : State → State) : State :=
  if earlyStep s then l1 s
  else if held s then joinL3 s src
  else
    let s := kittyCause (noteLast (noteCause s src) 3 src (now40 s))
    keepLast s (runL3 s)

/-- A transaction of session `n` whose L3 runs completes with the release; a session that is gone is sent nothing. -/
def untilRelease (s : State) (n : Nat) (t : Txn) : Ran := if isOpen s n then .waits .release s else .ok t [] s

end Sys2Proof.Machine
end

