-- ==== Sys2Proof/Machine/Commit.lean ====
section
/-!
DEFINITION. DEAL, DEAL_COMMIT and the epochs of a hot commit: the staging owner, the three modes, the switch and the
retirement of a slot (03_deck.md R53 to R65; 15_zatas_control_protocol.md R352, R357).
Log entries: 32.
-/
namespace Sys2Proof.Machine

open Sys2Proof

/-! ## The staging area (R53, R54) -/

/-- DEAL and DEAL_COMMIT answer BUSY in these states (R54, R56). -/
def dealBusy (s : State) : Bool :=
  s.deck.phase == .loading || s.deck.phase == .hotPending || s.deck.phase == .redealing

/-- The control port that a transaction of session `n` arrived on. -/
def txnCp (s : State) (n : Nat) : Nat := match (sessOf s n).exec with
  | some e => e.enc.cp
  | none => (sessOf s n).enc.cp

/-- The control port that CFGSEL selects for the deck (Table 17.3). -/
def cfgPort (s : State) : Option Nat :=
  match bits s.rst.strap 2 1 with | 2 => some 0 | 3 => some 1 | _ => none

/-- Until the first deck applies, the other port answers BUSY, and both while a stack has TRAIN_FAIL set (R57, R357). -/
def portRefused (s : State) (n : Nat) : Bool :=
  trainFailed s || (!s.deck.dealt && match cfgPort s with | some p => txnCp s n != p | none => false)

/-- Another session owns the staging area. -/
def otherOwner (s : State) (n : Nat) : Bool := match s.deck.owner with | some m => m != n | none => false

/-- DEAL (R54, R352). -/
def opDeal (s : State) (n : Nat) (t : Txn) : Ran :=
  gate s n 3 t (8 ≤ t.data.length && t.data.length ≤ 8192) fun s =>
    if portRefused s n || dealBusy s || otherOwner s n then .fail t stBusy s
    else if t.addr % 8 ≠ 0 || t.data.length % 8 ≠ 0 || 2 ^ 25 < t.addr + t.data.length then .fail t stAddress s
    else
      let s := { s with deck := { s.deck with stagedOk := false, owner := some n } }
      .ok t [] (hbmWrite s (zatSource s n) (deckArea s true + t.addr) t.data)

/-! ## DEAL_COMMIT (R55, R56, R58) -/

/-- DECK.FAIL.SOURCE of a commit's source: 0 STAGING, 1 ACTIVE, 2 FLASH_A, 3 FLASH_B (Tables 3.12, 15.7). -/
def commitFrom (src : Nat) : Nat := match src with | 1 => 3 | 2 => 1 | 3 => 2 | _ => 0

/-- A commit of session `n` has succeeded or failed: where it owns the staging area, it releases it (R56). -/
def release (s : State) (n : Nat) : State :=
  if s.deck.owner = some n then { s with deck := { s.deck with owner := none } } else s

/-- Copy the image of flash slot 2 (A) or 3 (B) into the staging area. The loader learns TOTAL_LEN from the header; with
one that check 0x04 refuses, it takes the header alone. -/
def copyFlash (s : State) (src : Nat) : State :=
  let base := (src - 2) * 2 ^ 25
  let n := memNat s.flash (base + 0x20) 4
  hbmWrite s 114 (deckArea s true) (memRead s.flash base (if totalOk n then n else 128))

/-- A failed load (R58). -/
def noteFail (s : State) (f : FailRec) (src : Nat) : State :=
  markSet { s with deck := { s.deck with fail := { f with source := if f.source = 3 then 3 else src }, failSticky := true } }
    aDeckStatus (2 ^ 8)

/-- DEAL_COMMIT ends with DECK_REJECTED, which carries DECK.FAIL. -/
def rejected (s : State) (n : Nat) (t : Txn) (src : Nat) (f : FailRec) : Ran :=
  let s := release (noteFail s f (commitFrom src)) n
  .done stRejected t.addr (toBytes 8 (failReg s)) s

/-- The commit has succeeded. -/
def accepted (s : State) (n : Nat) (t : Txn) : Ran :=
  let s := release s n
  .ok t (toBytes 8 (deckStatusReg s)) s

/-- Load the free slot and wait for the switch (R61). -/
def startHot (s : State) (n src : Nat) (i : Img) : State :=
  let e := curSlot s
  let s := putHot (hotRows s i) e (!e) i
  { s with deck := { s.deck with phase := .hotPending, hot := some ⟨n, src, fld i.hdr 0x18 4, fld i.hdr 0x10 8⟩ } }

/-- The staged image's checks have passed: what the mode does (R55). -/
def commitMode (s : State) (n : Nat) (t : Txn) (src mode : Nat) (i : Img) : Ran :=
  match mode with
  | 0 => accepted { s with deck := { s.deck with stagedOk := true } } n t
  | 1 =>
    let r := hotFail s i
    match r.2 with
    | some f => rejected r.1 n t src f
    | none => .waits .hot (startHot r.1 n (commitFrom src) i)
  | _ => untilRelease (release (runRedeal s i (commitFrom src)) n) n t

/-- Take the staging area and fill it from a flash slot (R55, R56). The flash is outside the part: whether its read
fails, which FLASH_READ reports before any other check (R58), is a free value (assumption 32, DESIGN CHOICE). -/
def stage (s : State) (n src : Nat) : Option FailRec × State :=
  if 2 ≤ src then
    let o := match s.deck.owner with | some m => some m | none => some n
    let s := { s with deck := { s.deck with owner := o, stagedOk := false } }
    let d := draw s
    if d.1 % 2 = 1 then (some (failOf 0x18), d.2) else (none, copyFlash d.2 src)
  else (none, s)

/-- DEAL_COMMIT (R55 to R58). -/
def opCommit (s : State) (n : Nat) (t : Txn) : Ran :=
  let src := fld t.data 0 1
  let mode := fld t.data 1 1
  gate s n 3 t (t.addr == 0 && t.data.length == 8 && src < 4 && mode < 3 && zeroed t.data 2 8 && (src != 1 || mode == 2)) fun s =>
    if portRefused s n || dealBusy s || (src ≠ 1 && otherOwner s n) then .fail t stBusy s
    else if src = 1 && !hasDeck s then .fail t stNoDeck s
    else
      let x := stage s n src
      match x.1 with
      | some f => rejected x.2 n t src f
      | none =>
        let skip := src = 1 || (src = 0 && x.2.deck.stagedOk)
        let r := loadImage x.2 (deckArea x.2 (src ≠ 1)) skip
        match r.2 with
        | .error f => rejected r.1 n t src f
        | .ok i => commitMode r.1 n t src mode i

/-! ## The switch and the retirement (R61 to R63) -/

/-- The waiting commits complete. -/
def finishHot (s : State) : State :=
  (s.zat.waits.filter fun e => e.2.what == .hot).foldl (fun s e =>
    finishWait s e.1 stOk e.2.txn.addr (toBytes 8 (deckStatusReg s))) s

/-- EPOCH_SWITCH: the load has ended; the slots and the areas change over in one clk (R61). -/
def switchOp (s : State) : State :=
  match s.deck.phase, s.deck.hot with
  | .hotPending, some h =>
    let e := curSlot s
    let d := { s.deck with phase := .retiring, retiring := true, switchClk := s.clk, current := !e,
                           upperActive := !s.deck.upperActive, number := h.number, deckId := h.deckId,
                           source := sourceCode h.source, commits := (s.deck.commits + 1) % 65536, stagedOk := false,
                           owner := none, hot := none }
    let t := startGates s { s with deck := d } e (!e) true
    finishHot (kittyIdentity (capBuckets t (!e)))
  | _, _ => s

/-- In-flight and held counts of slot `e`. -/
def slotBusy (s : State) (e : Bool) : Bool :=
  if e then s.deck.inflight1 != 0 || s.deck.held1 != 0 else s.deck.inflight0 != 0 || s.deck.held0 != 0

/-- Service routines under slot `e` that have not reached COMMIT restart under the current slot (R63, Table 4.15). -/
def retireTricks (s : State) (e : Bool) : State :=
  let tgt := curSlot s
  let hit := s.tricks.filter fun x => 224 ≤ x.1 / 256 && x.2.slot == e && !x.2.committed
  let s := hit.foldl (fun s x => faultTrick s (x.1 / 256) (x.1 % 256) 2 (some tgt)) s
  { s with displaced := kmap s.displaced fun d ts =>
      ts.map fun t => if 224 ≤ d && t.slot == e then { t with slot := tgt } else t }

/-- Valid bits of slot `e` go; a row valid in neither slot is free (R65). -/
def retireRows (s : State) (e : Bool) : State :=
  { s with rows := kfilter (kmap s.rows fun _ r => setV r e false) fun _ r => r.v0 || r.v1 }

/-- EPOCH_RETIRE: the retiring slot is freed once both its counts read 0 (R61). -/
def retireOp (s : State) : State :=
  let e := !curSlot s
  if s.deck.phase == .retiring && !slotBusy s e then
    let s := retireRows (retireTricks s e) e
    let s := if e then { s with hot1 := [] } else { s with hot0 := [] }
    { s with deck := { s.deck with phase := .active, retiring := false } }
  else s

/-! ## Meanings -/

/-- A DEAL_COMMIT transaction. -/
def commitTxn (src mode : Nat) : Txn := ⟨0x21, 0, 0, toBytes 1 src ++ toBytes 1 mode ++ toBytes 6 0⟩

/-- DEAL (R54). -/
def execDeal (session offset : Nat) (data : List Byte) (s : State) : Host.Outcome State Fault Refusal :=
  cmd (.deal session offset data) s fun s => direct s session ⟨0x20, 0, offset, data⟩ opDeal
/-- DEAL_COMMIT_VERIFY (R55). -/
def execDealCommitVerify (session source : Nat) (s : State) : Host.Outcome State Fault Refusal :=
  cmd (.dealCommitVerify session source) s fun s => direct s session (commitTxn source 0) opCommit
/-- DEAL_COMMIT_HOT (R61). -/
def execDealCommitHot (session source : Nat) (s : State) : Host.Outcome State Fault Refusal :=
  cmd (.dealCommitHot session source) s fun s => direct s session (commitTxn source 1) opCommit
/-- DEAL_COMMIT_REDEAL (R59). -/
def execDealCommitRedeal (session source : Nat) (s : State) : Host.Outcome State Fault Refusal :=
  cmdDeck (.dealCommitRedeal session source) s fun s => direct s session (commitTxn source 2) opCommit
/-- EPOCH_SWITCH (R61). -/
def execEpochSwitch (s : State) : Host.Outcome State Fault Refusal := cmd .epochSwitch s switchOp
/-- EPOCH_RETIRE (R61). -/
def execEpochRetire (s : State) : Host.Outcome State Fault Refusal := cmd .epochRetire s retireOp

end Sys2Proof.Machine
end

