-- ==== Sys2Proof/Machine/HostTask.lean ====
section
/-!
DEFINITION. Host TABLE and FLOW transactions as tasks, and the dispatcher (R22; 10_task_scheduler_and_suits.md R230,
R234 to R237; 15_zatas_control_protocol.md R350, R351).
Log entries: 12, 22, 36.
-/
namespace Sys2Proof.Machine

open Sys2Proof

/-! ## A FLOW transaction's data (R351) -/

/-- Bytes of the padded key. -/
def keyPad (s : State) : Nat := cdiv (keyBytes s) 8 * 8

/-- The key of a FLOW transaction. -/
def txnKey (s : State) (d : List Byte) : List Byte := slice d 0 (keyBytes s)

/-- Words that an UPDATE's MASK selects, ascending. -/
def maskWords (m : Nat) : List Nat := (List.range 64).filter fun w => bit m w

/-- The data of sub-operation `sub` is well formed (R351). -/
def flowWf (s : State) (sub : Nat) (t : Txn) : Bool :=
  let k := keyPad s
  let n := t.data.length
  match sub with
  | 0 | 4 | 5 | 6 => t.addr < 16 && n == k
  | 1 => t.addr / 16 % 16 == 0 && t.addr < 2 ^ 48 && n == 0
  | 2 => t.addr < 16 && n == k + 4 * (tagW s - keyWords s)
  | 3 =>
    let ws := maskWords (fld t.data k 8)
    t.addr < 16 && k + 8 ≤ n && n == k + 8 + 4 * ws.length && ws.all fun w => keyWords s ≤ w && w < tagW s
  | _ => false

/-- The record an INSERT builds from its data (R351). -/
def hostWords (s : State) (key : List Byte) (d : List Byte) : List W32 :=
  let c := coreW s
  let given := (List.range (tagW s - keyWords s)).map fun i => BitVec.ofNat 32 (wordAt d i)
  let ws := keyToWords s key ++ given ++ [0]
  let t := now40 s
  let ws := setWord ws c (setBits (setBits (wordOf ws c) 15 15 1) 14 8 0)
  let ws := setWord ws (c + 1) (t / 256)
  let ws := setWord ws (c + 2) (t % 256 * 2 ^ 24 + wordOf ws (c + 2) % 2 ^ 24)
  let ws := setWord ws (c + 6) (nowS s % 2 ^ 14)
  let ws := setWord ws (c + 7) 0
  if s.deck.geometry = 1 then ws else setWord (setWord ws 29 0) 28 (nowS s % 2 ^ 32)

/-- INFO of the record a line or an index holds (R351). -/
def flowInfo (s : State) (at_ : RecAt) : List Byte :=
  match at_ with
  | .line n =>
    let l := lineOf s n
    toBytes 4 (suitOf n l) ++ toBytes 1 (1 + b2n l.dirty * 2 + b2n l.provisional * 4) ++ toBytes 3 0
  | .index i => match lineAt s i with
    | some n => toBytes 4 i ++ toBytes 1 (1 + b2n (lineOf s n).dirty * 2) ++ toBytes 3 0
    | none => toBytes 4 i ++ toBytes 4 0
  | .gather .. => []

/-- INFO and the record's words, the TAG word's place 0 (R351). -/
def flowData (s : State) (at_ : RecAt) : List Byte :=
  flowInfo s at_ ++ ((wordsAt s at_).take (tagW s)).flatMap (fun w => toBytes 4 w.toNat) ++ toBytes 4 0

/-! ## Running a host task -/

/-- How the fixed sequence of a host task stands: done with a status and data, waiting for a suit, or waiting for the
match unit. -/
inductive HostRun
  | done (status : Nat) (data : List Byte) (s : State)
  | suit (m : Nat) (s : State)
  | move (s : State)
deriving DecidableEq, Repr

/-- The task may go on with suit `m`: it holds it, or it is free and is taken. -/
def hostSuit (s : State) (h m : Nat) : Option State :=
  let x := suitAt s m
  if x.holder == some (.task h) then some s
  else if x.holder.isNone && x.chain.isEmpty then some (takeSuit s m (.task h)) else none

/-- The full record of a place is read from HBM: its reads count, and its poison shows (R175, R327). -/
def readPlaced (s : State) (source : Nat) (at_ : RecAt) : State × Bool :=
  let go := fun i => let x := hbmRead s source (recWordOff s i 0) (recBytes s - 4); (x.1, x.2.2)
  match at_ with
  | .line n => if (lineOf s n).provisional then (s, false) else go (lineOf s n).index
  | .index i => go i
  | .gather .. => (s, false)

/-- The sequence of a sub-operation on the record that line `n` holds, whose suit the task has. -/
def hostOnRecord (s : State) (source c n sub : Nat) (t : Txn) : HostRun :=
  let s := useLine (confHit (bump s aHits) none) n
  let k := keyPad s
  let x : RecCtx := ⟨false, 0, 0⟩
  let held := some (suitOf n (lineOf s n))
  let apply := fun es => applyRecord s (.line n) x es held (source + 192) c
  let answer := fun (st : Nat) (s : State) =>
    let r := readPlaced s source (.line n)
    HostRun.done (if r.2 && st = stOk then stPoison else st) (flowData s (.line n)) r.1
  match sub with
  | 0 => answer stOk s
  | 2 => answer stKeyExists s
  | 3 =>
    let ws := maskWords (fld t.data k 8)
    answer stOk (apply ((enum 0 ws).map fun w => .word 5 w.2 (BitVec.ofNat 32 (fld t.data (k + 8 + 4 * w.1) 4))))
  | 4 => .done stOk (flowInfo s (.line n)) (apply [.delete])
  | _ => let s := apply [.keep (sub == 5)]; .done stOk (flowInfo s (.line n)) s

/-- The sequence on a key that the table does not hold; the task has the suit of the ABSENT line `n` (R185, R193, R351). -/
def hostOnAbsent (s : State) (n sub : Nat) (t : Txn) : HostRun :=
  if sub ≠ 2 then .done stNotFound [] s
  else
    if !createOk s n then .done stLimited [] (bump s aInsertLimited)
    else
      let key := txnKey s t.data
      let ws := hostWords s key (t.data.drop (keyPad s))
      let l := lineOf s n
      let bank := bankOf s (n / 16)
      match hintFree s l with
      | some i => let s := placeHinted (countCreate s bank) n i ws; .done stOk (flowData s (.line n)) s
      | none => match makePlace (hintMiss s n) key with
        | none => .done stNoRoom [] s
        | some (s, i, second) =>
          let s := writeRecord (countCreate s bank) i ws (tagWord second l.digest)
          let s := moveSuit (setLine s n { l with lstate := .record, index := i, dirty := false, provisional := false,
                                                  words := lineHot s ws, hint := none }) (lineSuit n) i
          .done stOk (flowData s (.line n)) s

/-- The task's lookup finds line `n`: it goes on under the line's suit, or waits for it (R188). -/
def hostOnLine (s : State) (source c h n sub : Nat) (t : Txn) : HostRun :=
  let l := lineOf s n
  let m := suitOf n l
  if l.lstate == .pending then .suit m s
  else match hostSuit s h m with
    | none => .suit m s
    | some s => if l.lstate == .record then hostOnRecord s source c n sub t else hostOnAbsent s n sub t

/-- The task's lookup misses: it takes a line and fetches the record, its reads made as one (assumption 12, DESIGN CHOICE). BUSY where
the set holds no line it may use (R351). -/
def hostMiss (s : State) (source c h sub : Nat) (key : List Byte) (t : Txn) : HostRun :=
  match victim s (setOf s key) with
  | none => .done stBusy [] s
  | some n =>
    let r := fetchFind (tagAt s) s key
    let wait := match r with
      | .found i => if (hostSuit s h i).isNone then some i else
          (match clashLine (setLine s n { Line.blank with digest := digestOf s key }) n i with
            | some m => if suitFree s (suitOf m (lineOf s m)) then none else some (suitOf m (lineOf s m))
            | none => none)
      | .absent _ => none
    match wait with
    | some m => .suit m s
    | none =>
      let s := releaseTask s h
      let s := if (lineOf s n).lstate == .record then bump (writeBack s n) aEvictions else s
      let s := useLine (setLine s n { Line.blank with digest := digestOf s key, lstate := .pending, key := key }) n
      let s := confMiss (bump s aMisses)
      let is := fetchVisits (tagAt s) s key r
      let bad := tagPoison s key || recordPoison s is
      let s := recordReads (tagReads s source key) source is
      if bad then .done stPoison [] (freeLine s n)
      else
        let s := takeSuit s (lineSuit n) (.task h)
        match r with
        | .found i =>
          let s := match clashLine s n i with
            | some m => bump (freeLine (writeBack s m) m) aDigestClash
            | none => s
          hostOnRecord (fetchFound s n i) source c n sub t
        | .absent hint => hostOnAbsent (fetchAbsent s n hint) n sub t

/-- READ_INDEX: the record at an index, or the PROVISIONAL one of a line-form suit (R351). -/
def hostIndex (s : State) (source h i : Nat) : HostRun :=
  let prov := 2 ^ 27 ≤ i && (lineOf s (i - 2 ^ 27)).lstate == .record && (lineOf s (i - 2 ^ 27)).provisional
  if !prov && !indexValid s i then .done stNotFound [] s
  else match hostSuit s h i with
    | none => .suit i s
    | some s =>
      let at_ : RecAt := if prov then .line (i - 2 ^ 27) else .index i
      let r := readPlaced s source at_
      .done (if r.2 then stPoison else stOk) (flowData s at_) r.1

/-- The fixed sequence of a FLOW transaction (R351). -/
def flowRun (s : State) (source c h : Nat) (t : Txn) : HostRun :=
  let sub := t.addr % 16
  if sub = 1 then hostIndex s source h (t.addr / 256)
  else
    let key := txnKey s t.data
    match findLine s (setOf s key) (digestOf s key) with
    | some n => hostOnLine s source c h n sub t
    | none => hostMiss s source c h sub key t

/-- A TABLE operation on a hot table, which a hot commit refuses (R64). -/
def tableBusy (s : State) (t : Txn) : Bool := t.addr / 16 % 16 != 2 && hotBusy s

/-- The fixed sequence of a host task: TABLE or FLOW by the transaction's op. -/
def hostRun (s : State) (source c h w : Nat) (t : Txn) : HostRun :=
  if t.op = 0x12 then
    if tableBusy s t then .done stBusy [] s
    else
      let r := tabRun s w (t.addr % 16) (t.addr / 16 % 16) (t.addr / 256) t.data
      if r.moves then .move r.state else .done r.status r.data r.state
  else flowRun s source c h t

/-- The host task waits RUNNING in context `c` of dealer `d`. -/
def hostStays (s : State) (d c h : Nat) (k : Task) (w : WaitOn) : State :=
  setTrick { s with tasks := kset s.tasks h { k with state := .running }, order := s.order + 1 } d c (hostTrick s h w)

/-- The sequence of host task `h` goes on in context `c` of dealer `d`: the status and data when its transaction is
done. It waits there for a suit, or for the match unit (R235, R152). -/
def hostGo (s : State) (d c h w : Nat) (k : Task) (t : Txn) : Option (Nat × List Byte) × State :=
  match hostRun s (d - 192) c h w t with
  | .done st data s => (some (st, data), traceTask (endTask (releaseTask s h) h) 2 false h (some k.body) d c)
  | .move s => (none, hostStays s d c h k .unit)
  | .suit m s => (none, waitSuit (hostStays (releaseTask s h) d c h k (.host m)) m (.task h))

/-- Run host task `h` in context `c` of dealer `d` (R234, R350). -/
def hostTry (s : State) (d c h w : Nat) (t : Txn) : Option (Nat × List Byte) × State :=
  match kget s.tasks h with
  | none => (none, s)
  | some k =>
    let s := { s with lastDisp := some s.clk }
    hostGo (traceTask (bump s aDispatched) 1 false h (some k.body) d c) d c h w k t

/-- A host task that has the suit it waited for goes on in its context (R235). -/
def hostResume (s : State) (d c : Nat) (u : Trick) : State :=
  match u.wait, u.task with
  | some (.host m), some h =>
    if (suitAt s m).holder == some (.task h) then
      match kget s.tasks h with
      | none => freeCtx s d c
      | some k =>
        let s := { s with tricks := kdel s.tricks (trickKey d c) }
        let x := match k.kind with | .host w => (kget s.zat.waits w).map fun x => (w, x.txn) | _ => none
        match x with
        | none => freeCtx (endTask (releaseTask s h) h) d c
        | some (w, t) =>
          let y := hostGo s d c h w k t
          match y.1 with
          | some (st, data) => freeCtx (finishWait y.2 w st t.addr data) d c
          | none => y.2
    else s
  | _, _ => s

/-- The host tasks of a dealer that may go on in this clk do. -/
def resumeHosts (s : State) (d : Nat) : State :=
  ((tricksOf s d).filter fun e => match e.2.wait with | some (.host _) => true | _ => false).foldl
    (fun s e => hostResume s d (e.1 % 256) e.2) s

/-! ## The dispatcher (R234, R235) -/

/-- Dispatch one task (R234); `fuel` bounds the tasks that turn to SUIT_WAIT on the way. -/
def dispatchGo (fuel : Nat) (s : State) : State :=
  match fuel with
  | 0 => s
  | k + 1 => match nextTask s with
    | none => s
    | some (h, t) =>
      let d := takeDealer s
      let urgent := urgentDue (h, t)
      if !urgent && inTake s d = 0 then s
      else
        let r := takeTaskSuit s h t
        if !r.1 then dispatchGo k r.2
        else match (if urgent then arrivalCtx r.2 d
            else (kfree r.2.tricks (256 * d) (256 * d + 256)).map fun c => (c % 256, 2, r.2)) with
          | none => s
          | some (c, rank, s2) =>
            let s2 := { s2 with lastDisp := some s2.clk }
            match t.kind with
            | .insert n => runInsert s2 d c h n t
            | .host w => (match kget s2.zat.waits w with
              | none => endTask (releaseTask s2 h) h
              | some x =>
                let y := hostTry s2 d c h w x.txn
                match y.1 with
                | some (st, data) => finishWait y.2 w st x.txn.addr data
                | none => y.2)
            | _ => runTask s2 d c h t rank

/-- One clk of the dispatcher: it dispatches at most one task (R234), and none while an L3 holds the pipeline. -/
def dispatchOp (s : State) : State :=
  if hasDeck s && !held s && s.lastDisp != some s.clk then dispatchGo (s.tasks.length + 1) s else s

/-! ## The transactions -/

/-- The body of a host task (R230, R350). -/
def hostBody (s : State) : TaskBody where
  args := [0, 0, 0, 0]
  suit := none
  succ := none
  routine := 0xFF
  list := 0
  urgent := false
  level := tskLevel s 0
  delay := 0
  origin := 1

/-- Post a host transaction as a task. Where the dispatcher would dispatch it in this clk, it runs at once, else
TASK_DISPATCH takes it up in its order (assumption 22, DESIGN CHOICE). -/
def postHost (s : State) (t : Txn) : Ran :=
  let w := s.zat.nextWait
  match partPost s (hostBody s) (.host w) with
  | none => .fail t stBusy s
  | some (h, s) =>
    let d := takeDealer s
    match (if dispatchesNow s h then kfree s.tricks (256 * d) (256 * d + 256) else none) with
    | none => .waits (.hostTask) s
    | some c =>
      let y := hostTry s d (c % 256) h w t
      match y.1 with
      | some (st, data) => .done st t.addr data y.2
      | none => .waits (if y.2.moves.any (·.wait == w) then .matchMove else .hostTask) y.2

/-- TABLE (R350). -/
def opTable (s : State) (n : Nat) (t : Txn) : Ran :=
  let sub := t.addr % 16
  let kind := t.addr / 16 % 16
  gate s n (if sub = 0 then 1 else 2) t (t.addr < 2 ^ 48 && sub < 4 && 1 ≤ kind && kind ≤ 7) fun s =>
    if !hasDeck s then .fail t stNoDeck s
    else if kind ≠ 2 && hotBusy s then .fail t stBusy s
    else postHost s t

/-- FLOW (R351); BUSY while FLOW folds or is folded (Table 17.6). -/
def opFlow (s : State) (n : Nat) (t : Txn) : Ran :=
  let sub := t.addr % 16
  gate s n (if sub ≤ 1 then 1 else 2) t (sub ≤ 6) fun s =>
    if !hasDeck s then .fail t stNoDeck s
    else if !flowWf s sub t then .fail t stMalformed s
    else if s.rst.foldFlow != .open_ then .fail t stBusy s
    else postHost s t

/-- ADDRESS of a TABLE transaction. -/
def tableTxn (sub kind index : Nat) (data : List Byte) : Txn := ⟨0x12, 0, sub + kind * 16 + index * 256, data⟩
/-- A FLOW transaction. -/
def flowTxn (sub index : Nat) (data : List Byte) : Txn := ⟨0x13, 0, sub + index * 256, data⟩

/-- TABLE_READ (R350). -/
def execTableRead (session kind index : Nat) (data : List Byte) (s : State) : Host.Outcome State Fault Refusal :=
  cmd (.tableRead session kind index data) s fun s => direct s session (tableTxn 0 kind index data) opTable
/-- TABLE_WRITE (R350). -/
def execTableWrite (session kind index : Nat) (data : List Byte) (s : State) : Host.Outcome State Fault Refusal :=
  cmd (.tableWrite session kind index data) s fun s => direct s session (tableTxn 1 kind index data) opTable
/-- TABLE_INSERT (R151, R162). -/
def execTableInsert (session kind index : Nat) (data : List Byte) (s : State) : Host.Outcome State Fault Refusal :=
  cmd (.tableInsert session kind index data) s fun s => direct s session (tableTxn 2 kind index data) opTable
/-- TABLE_DELETE (R350). -/
def execTableDelete (session kind index : Nat) (data : List Byte) (s : State) : Host.Outcome State Fault Refusal :=
  cmd (.tableDelete session kind index data) s fun s => direct s session (tableTxn 3 kind index data) opTable
/-- FLOW_READ (R351). -/
def execFlowRead (session : Nat) (data : List Byte) (s : State) : Host.Outcome State Fault Refusal :=
  cmd (.flowRead session data) s fun s => direct s session (flowTxn 0 0 data) opFlow
/-- FLOW_READ_INDEX (R351). -/
def execFlowReadIndex (session index : Nat) (s : State) : Host.Outcome State Fault Refusal :=
  cmd (.flowReadIndex session index) s fun s => direct s session (flowTxn 1 index []) opFlow
/-- FLOW_INSERT (R351). -/
def execFlowInsert (session : Nat) (data : List Byte) (s : State) : Host.Outcome State Fault Refusal :=
  cmd (.flowInsert session data) s fun s => direct s session (flowTxn 2 0 data) opFlow
/-- FLOW_UPDATE (R351). -/
def execFlowUpdate (session : Nat) (data : List Byte) (s : State) : Host.Outcome State Fault Refusal :=
  cmd (.flowUpdate session data) s fun s => direct s session (flowTxn 3 0 data) opFlow
/-- FLOW_DELETE (R351). -/
def execFlowDelete (session : Nat) (data : List Byte) (s : State) : Host.Outcome State Fault Refusal :=
  cmd (.flowDelete session data) s fun s => direct s session (flowTxn 4 0 data) opFlow
/-- FLOW_KEEP_SET (R351). -/
def execFlowKeepSet (session : Nat) (data : List Byte) (s : State) : Host.Outcome State Fault Refusal :=
  cmd (.flowKeepSet session data) s fun s => direct s session (flowTxn 5 0 data) opFlow
/-- FLOW_KEEP_CLEAR (R351). -/
def execFlowKeepClear (session : Nat) (data : List Byte) (s : State) : Host.Outcome State Fault Refusal :=
  cmd (.flowKeepClear session data) s fun s => direct s session (flowTxn 6 0 data) opFlow
/-- TASK_DISPATCH (R234). -/
def execTaskDispatch (s : State) : Host.Outcome State Fault Refusal := cmd .taskDispatch s dispatchOp

end Sys2Proof.Machine
end

