-- ==== Sys2Proof/Machine/ExecDealer.lean ====
section
/-!
DEFINITION. Meanings of the commands of intake, the dealers, their lookups and flow operations
(04_dealers_and_microcode.md; 06_intake_parser.md; 07_match_and_shuffle.md; 08_flow_records.md).
-/
namespace Sys2Proof.Machine

open Sys2Proof

/-- PARSE_TAKE (R120). -/
def execParseTake (hand : Nat) (s : State) : Host.Outcome State Fault Refusal :=
  cmd (.parseTake hand) s fun s => parseTakeOp s hand

/-- WALK_STATE (R122). -/
def execWalkState (hand vec : Nat) (s : State) : Host.Outcome State Fault Refusal :=
  cmd (.walkState hand vec) s fun s => walkStateOp s (vecKey hand vec)

/-- DEFERRED_CHECK (R131). -/
def execDeferredCheck (hand vec : Nat) (s : State) : Host.Outcome State Fault Refusal :=
  cmd (.deferredCheck hand vec) s fun s => deferredOp s (vecKey hand vec) (inParse s hand (vecKey hand vec))

/-- SLOW_PATH_ITEM (R136). -/
def execSlowPathItem (hand : Nat) (s : State) : Host.Outcome State Fault Refusal :=
  cmd (.slowPathItem hand) s fun s => writeLate s hand true

/-- PACKET_SAMPLE (R372). -/
def execPacketSample (hand : Nat) (s : State) : Host.Outcome State Fault Refusal :=
  cmd (.packetSample hand) s fun s => writeLate s hand false

/-- MICROWORD_ISSUE (R69). -/
def execMicrowordIssue (dealer : Nat) (s : State) : Host.Outcome State Fault Refusal :=
  cmd (.microwordIssue dealer) s fun s => issueOp (resumeHosts s dealer) dealer

/-- STAGE_HANDOFF (R68). -/
def execStageHandoff (dealer : Nat) (s : State) : Host.Outcome State Fault Refusal :=
  cmd (.stageHandoff dealer) s fun s => handoffOp s dealer

/-- MATCH_LOOKUP (R147). -/
def execMatchLookup (dealer ctx slot : Nat) (s : State) : Host.Outcome State Fault Refusal :=
  cmd (.matchLookup dealer ctx slot) s fun s => matchLookupOp s dealer ctx slot

/-- POOL_LOOKUP (R160). -/
def execPoolLookup (dealer ctx slot : Nat) (s : State) : Host.Outcome State Fault Refusal :=
  cmd (.poolLookup dealer ctx slot) s fun s => poolLookupOp s dealer ctx slot

/-- SHUFFLE_LOOKUP (R167). -/
def execShuffleLookup (dealer ctx : Nat) (s : State) : Host.Outcome State Fault Refusal :=
  cmd (.shuffleLookup dealer ctx) s fun s => shuffleLookupOp s dealer ctx

/-- LOOKUP_RESULT (R150). -/
def execLookupResult (dealer ctx slot : Nat) (poison : Bool) (s : State) : Host.Outcome State Fault Refusal :=
  cmd (.lookupResult dealer ctx slot poison) s fun s => lookupResultOp s dealer ctx slot poison

/-- LOOKUP_TIMEOUT (R87). -/
def execLookupTimeout (dealer ctx slot : Nat) (s : State) : Host.Outcome State Fault Refusal :=
  cmd (.lookupTimeout dealer ctx slot) s fun s => lookupTimeoutOp s dealer ctx slot

/-- LOOKUP (R188). -/
def execLookup (dealer ctx suit : Nat) (s : State) : Host.Outcome State Fault Refusal :=
  cmd (.lookup dealer ctx suit) s fun s => flowRow s dealer ctx 1 0 suit 0

/-- LOOKUP_CREATE (R185). -/
def execLookupCreate (dealer ctx suit : Nat) (out : W32) (s : State) : Host.Outcome State Fault Refusal :=
  cmd (.lookupCreate dealer ctx suit out) s fun s => flowRow s dealer ctx 2 0 suit out

/-- LOOKUP_CREATE_SYN (R174). -/
def execLookupCreateSyn (dealer ctx suit : Nat) (out : W32) (s : State) : Host.Outcome State Fault Refusal :=
  cmd (.lookupCreateSyn dealer ctx suit out) s fun s => flowRow s dealer ctx 3 0 suit out

/-- READ of the flow bank (R75). -/
def execFlowOpRead (dealer ctx : Nat) (s : State) : Host.Outcome State Fault Refusal :=
  cmd (.flowOpRead dealer ctx) s fun s => flowRow s dealer ctx 4 0 0 0

/-- WRITE of a record word (R174). -/
def execFlowOpWrite (dealer ctx suit field : Nat) (out : W32) (s : State) : Host.Outcome State Fault Refusal :=
  cmd (.flowOpWrite dealer ctx suit field out) s fun s => flowRow s dealer ctx 5 field suit out

/-- ADD to a record word (R174). -/
def execFlowOpAdd (dealer ctx suit field : Nat) (out : W32) (s : State) : Host.Outcome State Fault Refusal :=
  cmd (.flowOpAdd dealer ctx suit field out) s fun s => flowRow s dealer ctx 6 field suit out

/-- OR into a record word (R174). -/
def execFlowOpOr (dealer ctx suit field : Nat) (out : W32) (s : State) : Host.Outcome State Fault Refusal :=
  cmd (.flowOpOr dealer ctx suit field out) s fun s => flowRow s dealer ctx 7 field suit out

/-- FSM_STEP (R200). -/
def execFsmStep (dealer ctx suit : Nat) (out : W32) (s : State) : Host.Outcome State Fault Refusal :=
  cmd (.fsmStep dealer ctx suit out) s fun s => flowRow s dealer ctx 8 0 suit out

/-- TOUCH (R174). -/
def execTouch (dealer ctx suit : Nat) (s : State) : Host.Outcome State Fault Refusal :=
  cmd (.touch dealer ctx suit) s fun s => flowRow s dealer ctx 9 0 suit 0

/-- DELETE (R186). -/
def execFlowOpDelete (dealer ctx suit : Nat) (s : State) : Host.Outcome State Fault Refusal :=
  cmd (.flowOpDelete dealer ctx suit) s fun s => flowRow s dealer ctx 10 0 suit 0

/-- PIN, once no shuffle result is pending (R168). -/
def execPin (dealer ctx suit : Nat) (s : State) : Host.Outcome State Fault Refusal :=
  cmd (.pin dealer ctx suit) s fun s =>
    if (pendAt s dealer ctx 3).isSome then s else flowRow s dealer ctx 11 0 suit 0

/-- KEEP_SET (R220). -/
def execKeepSet (dealer ctx suit : Nat) (s : State) : Host.Outcome State Fault Refusal :=
  cmd (.keepSet dealer ctx suit) s fun s => flowRow s dealer ctx 12 0 suit 0

/-- KEEP_CLEAR (R220). -/
def execKeepClear (dealer ctx suit : Nat) (s : State) : Host.Outcome State Fault Refusal :=
  cmd (.keepClear dealer ctx suit) s fun s => flowRow s dealer ctx 13 0 suit 0

/-- LOOKUP_INDEX (R175). -/
def execLookupIndex (dealer ctx suit : Nat) (out : W32) (s : State) : Host.Outcome State Fault Refusal :=
  cmd (.lookupIndex dealer ctx suit out) s fun s => flowRow s dealer ctx 14 0 suit out

/-- SCAN (R194). -/
def execScan (dealer ctx suit : Nat) (s : State) : Host.Outcome State Fault Refusal :=
  cmd (.scan dealer ctx suit) s fun s => flowRow s dealer ctx 15 0 suit 0

/-- INSERT (R185). -/
def execFlowOpInsert (dealer ctx suit : Nat) (s : State) : Host.Outcome State Fault Refusal :=
  cmd (.flowOpInsert dealer ctx suit) s fun s => flowRow s dealer ctx 16 0 suit 0

/-- RELOCATE (R185). -/
def execRelocate (dealer ctx suit : Nat) (s : State) : Host.Outcome State Fault Refusal :=
  cmd (.relocate dealer ctx suit) s fun s => flowRow s dealer ctx 17 0 suit 0

/-- WRITEBACK (R182). -/
def execWriteback (dealer ctx suit : Nat) (s : State) : Host.Outcome State Fault Refusal :=
  cmd (.writeback dealer ctx suit) s fun s => flowRow s dealer ctx 18 0 suit 0

/-- TASK_POST (R228). -/
def execTaskPost (dealer ctx suit field : Nat) (out : W32) (s : State) : Host.Outcome State Fault Refusal :=
  cmd (.taskPost dealer ctx suit field out) s fun s => flowRow s dealer ctx 24 field suit out

/-- TASK_CANCEL (R238). -/
def execTaskCancel (dealer ctx : Nat) (out : W32) (s : State) : Host.Outcome State Fault Refusal :=
  cmd (.taskCancel dealer ctx out) s fun s => flowRow s dealer ctx 25 0 0 out

end Sys2Proof.Machine
end

