-- ==== Sys2Proof/Machine/ExecFabric.lean ====
section
/-!
DEFINITION. Meanings of the commands of the fabric, the pots, the traffic manager and the transmit MAC
(11_fabric_and_pots.md R246 to R265; 12_traffic_manager.md R272 to R286).
-/
namespace Sys2Proof.Machine

open Sys2Proof

/-- CELL_CUT (R246). -/
def execCellCut (hand : Nat) (s : State) : Host.Outcome State Fault Refusal :=
  cmd (.cellCut hand) s fun s => cellCutOp s hand

/-- STAGING_FILL (R247). -/
def execStagingFill (hand : Nat) (s : State) : Host.Outcome State Fault Refusal :=
  cmd (.stagingFill hand) s fun s => stagingFillOp s hand

/-- PLANE_MATCH (R248, R249). -/
def execPlaneMatch (plane : Nat) (hdr : List HdrFault) (s : State) : Host.Outcome State Fault Refusal :=
  cmd (.planeMatch plane hdr) s fun s => planeMatchOp s plane hdr

/-- CELL_ARRIVE (R252). -/
def execCellArrive (pot hand : Nat) (s : State) : Host.Outcome State Fault Refusal :=
  cmd (.cellArrive pot hand) s fun s => cellArriveOp s pot hand

/-- CELL_RELEASE (R252). -/
def execCellRelease (pot hand : Nat) (s : State) : Host.Outcome State Fault Refusal :=
  cmd (.cellRelease pot hand) s fun s => cellReleaseOp s pot hand

/-- RESEQ_TIMEOUT (R253). -/
def execReseqTimeout (pot hand : Nat) (s : State) : Host.Outcome State Fault Refusal :=
  cmd (.reseqTimeout pot hand) s fun s => reseqTimeoutOp s pot hand

/-- TM_SELECT (R272). -/
def execTmSelect (pot : Nat) (s : State) : Host.Outcome State Fault Refusal :=
  cmd (.tmSelect pot) s fun s => tmSelectOp s pot

/-- TM_SWEEP (R285). -/
def execTmSweep (s : State) : Host.Outcome State Fault Refusal :=
  cmd .tmSweep s fun s => sweepAll s

/-- SAMPLE_BOUNDARY (R286). -/
def execSampleBoundary (group : Nat) (s : State) : Host.Outcome State Fault Refusal :=
  cmd (.sampleBoundary group) s fun s => sampleOp s group

/-- MAC_TRANSMIT (R265). -/
def execMacTransmit (port : Nat) (underrun : Bool) (s : State) : Host.Outcome State Fault Refusal :=
  cmd (.macTransmit port underrun) s fun s => macTransmitOp s port underrun

end Sys2Proof.Machine
end

