-- ==== Sys2Proof/Machine/ExecPort.lean ====
section
/-!
DEFINITION. Meanings of the commands of ports and lanes (05_ports_and_lanes.md R104 to R117).
-/
namespace Sys2Proof.Machine

open Sys2Proof

/-- MAC_FRAME_RECEIVE (R106 to R110). -/
def execMacFrameReceive (port : Nat) (frame : List Byte) (fin : FrameEnd) (s : State) : Host.Outcome State Fault Refusal :=
  cmd (.macFrameReceive port frame fin) s fun s => macReceive s port frame fin

/-- PFC_RECEIVE (R112). -/
def execPfcReceive (port : Nat) (enable : Byte) (quanta : List (BitVec 16)) (s : State) : Host.Outcome State Fault Refusal :=
  cmd (.pfcReceive port enable quanta) s fun s =>
    macControl s port fun s => rxPfc s port enable.toNat (quanta.map (·.toNat))

/-- PAUSE_RECEIVE (R112). -/
def execPauseReceive (port : Nat) (quanta : BitVec 16) (s : State) : Host.Outcome State Fault Refusal :=
  cmd (.pauseReceive port quanta) s fun s => macControl s port fun s => rxPause s port quanta.toNat

/-- PAUSE_EXPIRE: the quanta of a paused class run out (R112). -/
def execPauseExpire (port cls : Nat) (s : State) : Host.Outcome State Fault Refusal :=
  cmd (.pauseExpire port cls) s fun s =>
    setPort s port { portOf s port with paused := kdel (portOf s port).paused cls }

/-- FLOW_CONTROL_SEND (R111). -/
def execFlowControlSend (port : Nat) (s : State) : Host.Outcome State Fault Refusal :=
  cmd (.flowControlSend port) s fun s => if portSends s port then flowControl s port else s

/-- PFC_REPEAT (R111). -/
def execPfcRepeat (port : Nat) (s : State) : Host.Outcome State Fault Refusal :=
  cmd (.pfcRepeat port) s fun s => if portSends s port then fcRepeat s port else s

/-- LINK_UP (R104, R115). -/
def execLinkUp (port : Nat) (s : State) : Host.Outcome State Fault Refusal :=
  cmd (.linkUp port) s fun s => linkUpOp s port

/-- LINK_DOWN (R105). -/
def execLinkDown (port : Nat) (s : State) : Host.Outcome State Fault Refusal :=
  cmd (.linkDown port) s fun s => linkLost s port

/-- AUTONEG_RESTART (R104). -/
def execAutonegRestart (port : Nat) (s : State) : Host.Outcome State Fault Refusal :=
  cmd (.autonegRestart port) s fun s => anRestart s port

/-- LANE_GROUP_START (R115). -/
def execLaneGroupStart (group : Nat) (s : State) : Host.Outcome State Fault Refusal :=
  cmd (.laneGroupStart group) s fun s => groupStart s group

/-- EYE_SCAN_DONE (R117). -/
def execEyeScanDone (lane errors : Nat) (s : State) : Host.Outcome State Fault Refusal :=
  cmd (.eyeScanDone lane errors) s fun s => eyeDone s lane errors

end Sys2Proof.Machine
end

