-- ==== Sys2Proof/Machine/ExecReg.lean ====
section
/-!
DEFINITION. The meanings of the register commands: READ, WRITE and their kin, and each register write that is a
command of its own (00_scope.md R5 to R9, R349, R369).
-/
namespace Sys2Proof.Machine

open Sys2Proof

/-- PING (R349). -/
def execPing (session : Nat) (data : List Byte) (s : State) : Host.Outcome State Fault Refusal :=
  cmd (.ping session data) s fun s => direct s session ⟨0x03, 0, 0, data⟩ opPing
/-- READ (R349). -/
def execRead (session addr : Nat) (s : State) : Host.Outcome State Fault Refusal :=
  cmd (.read session addr) s fun s => readCmd s session addr
/-- WRITE (R349). -/
def execWrite (session addr : Nat) (value : W64) (s : State) : Host.Outcome State Fault Refusal :=
  cmd (.write session addr value) s fun s => writeCmd s session addr value.toNat
/-- RMW (R349). -/
def execRmw (session addr : Nat) (mask value : W64) (s : State) : Host.Outcome State Fault Refusal :=
  cmd (.rmw session addr mask value) s fun s =>
    direct s session ⟨0x0A, 0, addr, toBytes 8 mask.toNat ++ toBytes 8 value.toNat⟩ opRmw
/-- BULK_READ (R349). -/
def execBulkRead (session addr count : Nat) (s : State) : Host.Outcome State Fault Refusal :=
  cmd (.bulkRead session addr count) s fun s => direct s session ⟨0x0B, 0, addr, toBytes 8 count⟩ opBulkRead
/-- BULK_WRITE (R349). -/
def execBulkWrite (session addr : Nat) (data : List Byte) (s : State) : Host.Outcome State Fault Refusal :=
  cmd (.bulkWrite session addr data) s fun s => direct s session ⟨0x0C, 0, addr, data⟩ opBulkWrite
/-- HOST_WDOG_KICK: a write of 1 to KICK with PERIOD as it stands (R385). -/
def execHostWdogKick (session : Nat) (s : State) : Host.Outcome State Fault Refusal :=
  cmd (.hostWdogKick session) s fun s => writeCmd s session aHostWdog (2 ^ 32 + wdogPeriod s)
/-- HOST_WDOG_PERIOD (R385). -/
def execHostWdogPeriod (session : Nat) (period : W32) (s : State) : Host.Outcome State Fault Refusal :=
  cmd (.hostWdogPeriod session period) s fun s => writeCmd s session aHostWdog period.toNat
/-- PEAK_CLEAR (R424, Table 18.13). -/
def execPeakClear (session : Nat) (s : State) : Host.Outcome State Fault Refusal :=
  cmd (.peakClear session) s fun s => writeCmd s session 0x100 (2 ^ 48)
/-- BRINGUP_GO (R115). -/
def execBringupGo (session : Nat) (s : State) : Host.Outcome State Fault Refusal :=
  cmd (.bringupGo session) s fun s => writeCmd s session 0x080000000000 1
/-- LANE_TEST_WRITE (R116). -/
def execLaneTestWrite (session lane : Nat) (value : W64) (s : State) : Host.Outcome State Fault Refusal :=
  cmd (.laneTestWrite session lane value) s fun s => writeCmd s session (aLane lane + 8) value.toNat
/-- PRBS_INJECT: LANE.TEST.INJECT with the other fields as they stand (R116). -/
def execPrbsInject (session lane : Nat) (s : State) : Host.Outcome State Fault Refusal :=
  cmd (.prbsInject session lane) s fun s => writeCmd s session (aLane lane + 8) (2 ^ 10 + regRaw s (aLane lane + 8) 0 % 2 ^ 10)
/-- EYE_SCAN_START (R117). -/
def execEyeScanStart (session lane : Nat) (value : W64) (s : State) : Host.Outcome State Fault Refusal :=
  cmd (.eyeScanStart session lane value) s fun s => writeCmd s session (aLane lane + 0x18) value.toNat
/-- PORT_CTL_WRITE (R114). -/
def execPortCtlWrite (session port : Nat) (value : W64) (s : State) : Host.Outcome State Fault Refusal :=
  cmd (.portCtlWrite session port value) s fun s => writeCmd s session (aPort port) value.toNat
/-- LIST_CFG_WRITE (R233). -/
def execListCfgWrite (session list : Nat) (value : W64) (s : State) : Host.Outcome State Fault Refusal :=
  cmd (.listCfgWrite session list value) s fun s => writeCmd s session (aListCfg list) value.toNat
/-- SHAPER_CFG (R277). -/
def execShaperCfg (session : Nat) (value : W64) (s : State) : Host.Outcome State Fault Refusal :=
  cmd (.shaperCfg session value) s fun s => writeCmd s session 0x1A0000000040 value.toNat
/-- QUEUE_CFG_WRITE: a word of the queue window (R289). -/
def execQueueCfgWrite (session queue word : Nat) (value : W64) (s : State) : Host.Outcome State Fault Refusal :=
  cmd (.queueCfgWrite session queue word value) s fun s => writeCmd s session (aTmQueue queue word) value.toNat
/-- POLICER_CFG_WRITE: a word of the policer window (R285). -/
def execPolicerCfgWrite (session policer word : Nat) (value : W64) (s : State) : Host.Outcome State Fault Refusal :=
  cmd (.policerCfgWrite session policer word value) s fun s => writeCmd s session (aTmPolicer policer word) value.toNat
/-- RETRAIN (R331). -/
def execRetrain (session : Nat) (value : W64) (s : State) : Host.Outcome State Fault Refusal :=
  cmd (.retrain session value) s fun s => writeCmd s session 0x200000000018 value.toNat
/-- GRAIN_WRITE (R320). -/
def execGrainWrite (session : Nat) (second : Bool) (value : W64) (s : State) : Host.Outcome State Fault Refusal :=
  cmd (.grainWrite session second value) s fun s => writeCmd s session (if second then aGrain1 else aGrain0) value.toNat
/-- HBM_HW_CLEAR (R333). -/
def execHbmHwClear (session : Nat) (s : State) : Host.Outcome State Fault Refusal :=
  cmd (.hbmHwClear session) s fun s => writeCmd s session 0x200000000030 (2 ^ 20)
/-- CONF_LATCH: a read of OBS.CONF_LATCH.SEQ (R43). -/
def execConfLatch (session : Nat) (s : State) : Host.Outcome State Fault Refusal :=
  cmd (.confLatch session) s fun s => readCmd s session 0x280000000208
/-- NOW_S_LATCH: a read of TIME.NOW_S (R318). -/
def execNowSLatch (session : Nat) (s : State) : Host.Outcome State Fault Refusal :=
  cmd (.nowSLatch session) s fun s => readCmd s session 0x1C0000000008
/-- XQ_HW_CLEAR (R29). -/
def execXqHwClear (session : Nat) (s : State) : Host.Outcome State Fault Refusal :=
  cmd (.xqHwClear session) s fun s => writeCmd s session 0x280000000108 (2 ^ 48)
/-- WALK_HW_CLEAR (R142). -/
def execWalkHwClear (session : Nat) (s : State) : Host.Outcome State Fault Refusal :=
  cmd (.walkHwClear session) s fun s => writeCmd s session 0x0C0000000008 (2 ^ 12)
/-- STOCK_HW_CLEAR (R198). -/
def execStockHwClear (session : Nat) (s : State) : Host.Outcome State Fault Refusal :=
  cmd (.stockHwClear session) s fun s => writeCmd s session 0x110000000000 (2 ^ 34)
/-- LEVEL_HW_CLEAR (R242). -/
def execLevelHwClear (session level : Nat) (s : State) : Host.Outcome State Fault Refusal :=
  cmd (.levelHwClear session level) s fun s => writeCmd s session (0x140000000040 + 8 * level) (2 ^ 36)
/-- VKEY_COMMIT of volatile slot `slot` (8 to 15): LEVEL and COMMIT (R341). -/
def execVkeyCommit (session slot level : Nat) (s : State) : Host.Outcome State Fault Refusal :=
  cmd (.vkeyCommit session slot level) s fun s =>
    if slot < 8 then s else writeCmd s session (0x240000002020 + (slot - 8) * 0x40) (4 + level)
/-- VKEY_CLEAR of volatile slot `slot` (8 to 15) (R341). -/
def execVkeyClear (session slot : Nat) (s : State) : Host.Outcome State Fault Refusal :=
  cmd (.vkeyClear session slot) s fun s =>
    if slot < 8 then s else writeCmd s session (0x240000002020 + (slot - 8) * 0x40) 8
/-- COUNTER_WRITE: a write of a counter's address (R369); another address is no counter. -/
def execCounterWrite (session addr : Nat) (value : W64) (s : State) : Host.Outcome State Fault Refusal :=
  cmd (.counterWrite session addr value) s fun s =>
    match regPlace addr with
    | .ok (r, _) => if pulseBits r = 2 ^ 62 then writeCmd s session addr value.toNat else s
    | .error _ => s
/-- REGISTER_WRITE (R7). -/
def execRegisterWrite (session addr : Nat) (value : W64) (s : State) : Host.Outcome State Fault Refusal :=
  cmd (.registerWrite session addr value) s fun s => writeCmd s session addr value.toNat

end Sys2Proof.Machine
end

