-- ==== Sys2Proof/Machine/ExecTasks.lean ====
section
/-!
DEFINITION. Meanings of the commands of fetches, re-entry, delay lists and task dispatch (10_task_scheduler_and_suits.md
R226 to R240; 08_flow_records.md R184, R189, R192, R193).
-/
namespace Sys2Proof.Machine

open Sys2Proof

/-- FETCH_COMPLETE: a fetch ends outside SNAP (R184). -/
def execFetchComplete (line : Nat) (poison : Bool) (s : State) : Host.Outcome State Fault Refusal :=
  cmd (.fetchComplete line poison) s fun s => if isSnap s then s else fetchEnd s line poison

/-- SNAP_FETCH_COMPLETE: a fetch ends under SNAP (R192). -/
def execSnapFetchComplete (line : Nat) (poison : Bool) (s : State) : Host.Outcome State Fault Refusal :=
  cmd (.snapFetchComplete line poison) s fun s => if isSnap s then fetchEnd s line poison else s

/-- STOCK_REENTRY (R189, R236). -/
def execStockReentry (hand : Nat) (s : State) : Host.Outcome State Fault Refusal :=
  cmd (.stockReentry hand) s fun s => reentryOp s hand

/-- INSERT_WINDOW_ROLL (R193). -/
def execInsertWindowRoll (bank : Nat) (s : State) : Host.Outcome State Fault Refusal :=
  cmd (.insertWindowRoll bank) s fun s => windowRoll s bank

/-- SCAN_TASK_POST (R230). -/
def execScanTaskPost (s : State) : Host.Outcome State Fault Refusal :=
  cmd .scanTaskPost s fun s => scanPostOp s

/-- The list of a post of the part (Table 10.4). -/
def heldList (s : State) : HeldPost → Nat
  | .scan => 14
  | .period => 15
  | .ring _ => 15
  | .dump e => (match dumpRec s e with | some o => (dumpBody s o).list | none => 14)
  | .mirror => 14
  | .summary => 14

/-- Post again what found the pool empty. -/
def repost (s : State) : HeldPost → State
  | .scan => scanPostOp s
  | .period => exportOp s
  | .ring r => ringThreshold s r
  | .dump e => dumpOp s e
  | .mirror => mirrorOp s
  | .summary => summaryOp s

/-- The held posts of list `k` are tried again at its tick (R230). -/
def retryPosts (s : State) (k : Nat) : State :=
  let due := s.postHeld.filter fun p => heldList s p == k
  due.foldl repost { s with postHeld := s.postHeld.filter fun p => heldList s p != k }

/-- DELAY_LIST_TICK (R230, R232). -/
def execDelayListTick (list : Nat) (s : State) : Host.Outcome State Fault Refusal :=
  cmd (.delayListTick list) s fun s => retryPosts (listTickOp s list) list

end Sys2Proof.Machine
end

