-- ==== Sys2Proof/Machine/ExecTime.lean ====
section
/-!
DEFINITION. Meanings of the commands of the time unit (13_time_and_launch.md R293 to R312).
-/
namespace Sys2Proof.Machine

open Sys2Proof

/-- The time unit is out of reset: CK_TIME reads good (R392, R393). -/
def timeUp (s : State) : Bool := bit s.rst.good 6

/-- PPS_EDGE (R293). -/
def execPpsEdge (phase : Int) (s : State) : Host.Outcome State Fault Refusal :=
  cmd (.ppsEdge phase) s fun s => if timeUp s then ppsEdgeOp s phase else s

/-- TOD_SENTENCE (R293). -/
def execTodSentence (sentence : List Byte) (s : State) : Host.Outcome State Fault Refusal :=
  cmd (.todSentence sentence) s fun s => if timeUp s then todOp s sentence else s

/-- HOLDOVER_ENTER (R294). -/
def execHoldoverEnter (s : State) : Host.Outcome State Fault Refusal :=
  cmd .holdoverEnter s fun s => holdEnter s

/-- HOLDOVER_OUT (R294). -/
def execHoldoverOut (s : State) : Host.Outcome State Fault Refusal :=
  cmd .holdoverOut s fun s => holdOut s

/-- LEAP_INSTANT (R298). -/
def execLeapInstant (s : State) : Host.Outcome State Fault Refusal :=
  cmd .leapInstant s fun s => leapOp s

/-- PPS_OUT_EDGE (R299). -/
def execPpsOutEdge (output : Nat) (s : State) : Host.Outcome State Fault Refusal :=
  cmd (.ppsOutEdge output) s fun s => ppsOutOp s output

/-- TOD_OUT (R299). -/
def execTodOut (s : State) : Host.Outcome State Fault Refusal :=
  cmd .todOut s fun s => todOutOp s

/-- PTP_MESSAGE_DUE (R304). -/
def execPtpMessageDue (port : Nat) (unicast : Option Nat) (announce : Bool) (s : State) : Host.Outcome State Fault Refusal :=
  cmd (.ptpMessageDue port unicast announce) s fun s => ptpDueOp s port unicast announce

/-- TX_STAMP_RETURN (R302). -/
def execTxStampReturn (octet : Nat) (s : State) : Host.Outcome State Fault Refusal :=
  cmd (.txStampReturn octet) s fun s => stampReturnOp s octet

/-- UNICAST_EXPIRY (R307). -/
def execUnicastExpiry (entry : Nat) (s : State) : Host.Outcome State Fault Refusal :=
  cmd (.unicastExpiry entry) s fun s => unicastExpire s entry

/-- LAUNCH_RELEASE (R310). -/
def execLaunchRelease (queue : Nat) (s : State) : Host.Outcome State Fault Refusal :=
  cmd (.launchRelease queue) s fun s => launchOp s queue

/-- GATE_CHANGE (R311). -/
def execGateChange (list : Nat) (s : State) : Host.Outcome State Fault Refusal :=
  cmd (.gateChange list) s fun s => gateChangeOp s list

/-- GATE_LIST_START (R312). -/
def execGateListStart (list : Nat) (s : State) : Host.Outcome State Fault Refusal :=
  cmd (.gateListStart list) s fun s => gateStartOp s list

end Sys2Proof.Machine
end

