-- ==== Sys2Proof/Machine/Inject.lean ====
section
/-!
DEFINITION. INJECT: a frame handed to PARSE or written into an egress queue (15_zatas_control_protocol.md R354; 11_fabric_and_pots.md R257).
Log entries: 34.
-/
namespace Sys2Proof.Machine

open Sys2Proof

/-- ADDRESS names nothing but MODE and what the mode uses (R349). -/
def injAddrOk (t : Txn) : Bool :=
  if bit t.addr 0 then t.addr == 1 + injQueue t * 2 ^ 32 else t.addr == injPort t * 256

/-- The port whose MAX_FRAME bounds the frame: the ingress port, or the egress queue's port. -/
def injOwner (s : State) (t : Txn) : Nat := if bit t.addr 0 then queuePort s (injQueue t) else injPort t

/-- 60 B up to the port's MAX_FRAME less 4. -/
def injLenOk (s : State) (t : Txn) : Bool := 60 ≤ t.data.length && t.data.length + 4 ≤ maxFrame s (injOwner s t)

/-- INJECT (R354). -/
def opInject (s : State) (n : Nat) (t : Txn) : Ran :=
  gate s n 2 t (injAddrOk t) fun s =>
    if !hasDeck s then .fail t stNoDeck s
    else if !injLenOk s t || !isPort s (injOwner s t) then .fail t stMalformed s
    else match injectTry s n t with
      | some (st, s) => .done st t.addr [] s
      | none => .waits .inject s

/-- INJECT_PARSE (R354). -/
def execInjectParse (session port : Nat) (frame : List Byte) (s : State) : Host.Outcome State Fault Refusal :=
  cmd (.injectParse session port frame) s fun s => direct s session ⟨0x39, 0, port * 256, frame⟩ opInject
/-- INJECT_QUEUE (R354). -/
def execInjectQueue (session queue : Nat) (frame : List Byte) (s : State) : Host.Outcome State Fault Refusal :=
  cmd (.injectQueue session queue frame) s fun s => direct s session ⟨0x39, 0, 1 + queue * 2 ^ 32, frame⟩ opInject

end Sys2Proof.Machine
end

