-- ==== Sys2Proof/Machine/Power.lean ====
section
/-!
DEFINITION. L1 and L2, the power-on sequence, the reset sources, clock failures, the brown-out save and the temperatures
(17_reset_power_and_kitty.md R383 to R400; 18_electrical_and_package.md R410, R421). A sequence runs whole in its command
(assumption 23, DESIGN CHOICE).
Log entries: 2, 3, 5, 23, 25, 26, 27, 29.
-/
namespace Sys2Proof.Machine

open Sys2Proof

/-! ## L1 and L2 (R384, R387, Table 17.2) -/

/-- An L1 of source `src`: the part as State.reset has it, until its rails are good. The pins, the MRAM and the flash are
outside the part. -/
def l1 (src : Nat) (s : State) : State :=
  let r := { Rst.reset with cause := BitVec.ofNat 8 (2 ^ src), lastLevel := 1, lastSrc := src, lastTime := now40 s,
                            tripped := s.rst.tripped }
  { State.reset with pending := s.pending, clk := s.clk, fresh := s.fresh, frameNo := s.frameNo, sent := s.sent, fuses := s.fuses,
                     mram := s.mram, flash := s.flash, perfAt := s.clk, rst := r }

/-- The keep domain through an L2: its records wait for their re-insertion, under the names of their slots (R388).
RESTORED and SKIPPED start at 0, as Table 9.13 marks them kept by an L3 only (assumption 54, DESIGN CHOICE: Table 17.2
spares KEEP). -/
def keepL2 (s : State) : Keep :=
  { s.keep with slots := kmap s.keep.slots fun k _ => waitName k, queue := [], restored := 0, skipped := false,
                due := !s.keep.slots.isEmpty }

/-- What an L2 of source `src` leaves before step 2 runs. -/
def l2Base (src : Nat) (s : State) : State :=
  let r := { Rst.reset with step := 2, startClk := s.clk, cause := s.rst.cause, lastLevel := 2,
                            lastSrc := src, lastTime := now40 s, strap := s.rst.strap, failed := s.rst.failed,
                            tripped := s.rst.tripped }
  kittyCause { State.reset with
    pending := s.pending, clk := s.clk, fresh := s.fresh, frameNo := s.frameNo, sent := s.sent, fuses := s.fuses, mram := s.mram, flash := s.flash,
    perfAt := s.clk, snapSeq := s.snapSeq, regs := kfilter s.regs fun a _ => a / 2 ^ 40 == 2, kitty := s.kitty,
    keep := keepL2 s, rst := r }

/-! ## The power-on sequence (R389 to R391, R410, R329, Table 17.4) -/

/-- Step 1: CODE of the CFGSEL voltage, in units of 0.1 mV. -/
def strapCode (v : Nat) : Nat := min 15 (v / 1125)

/-- Step 2: the shadow applies, or a word fails three times and the part halts. -/
def loadFuses (s : State) (f : PowerOnFacts) : State :=
  { s with fuses := if f.trimHalt then s.fuses else f.fuses,
           rst := { s.rst with halted := f.trimHalt, trimRetry := f.trimRetry || f.trimHalt } }

/-- As soon as the shadow applies, TOP.AVS.TARGET_MV is written to the regulator (R410). -/
def avsWrite (s : State) : State := { s with sent := s.sent ++ [.avsTarget (s.fuses.avsMv % 1024)] }

/-- The seeds and the digest key that a deck with RANDOM uses are drawn (Table 8.4). -/
def drawSeeds (s : State) : State :=
  let a := draw s
  let b := draw a.2
  let c := draw b.2
  let k := drawN 2 c.2
  { k.2 with drawn := [a.1 % 2 ^ 32, b.1 % 2 ^ 32, c.1 % 2 ^ 32, k.1 % 2 ^ 128] }

/-- Steps 3 and 4: every clock reads good, and the regulator has answered. -/
def clocksUp (s : State) (f : PowerOnFacts) : State :=
  { s with rst := { s.rst with good := ones 25, avsAcked := f.avsAcked, avsFail := !f.avsAcked } }

/-- Step 5: one stack's lane words; it is trained where none of them fails. -/
def trainStack (ls : List W64) (s : State) (k : Nat) : State :=
  let ws := (ls.drop (160 * k)).take 160
  let bad := ws.any fun w => laneFails w.toNat
  let s := putLanes s k ws
  { s with hbmc := { s.hbmc with trained := setBits s.hbmc.trained k k (b2n !bad),
                                 trainFail := setBits s.hbmc.trainFail k k (b2n bad) } }

/-- Step 5: every stack, one after the other; the refresh counter starts (R326, R329). -/
def train (s : State) (ls : List W64) : State :=
  let s := (List.range 4).foldl (trainStack ls) { s with hbmc := { s.hbmc with trained := 0, trainFail := 0 } }
  { s with hbmc := { s.hbmc with epoch := some s.clk } }

/-- The flash slot, as a commit's source, that the strap names (R57): 2 for A, 3 for B. -/
def strapFlash (s : State) : Option Nat :=
  if bit s.rst.strap 3 || 2 ≤ bits s.rst.strap 2 1 then none else some (2 + bits s.rst.strap 2 1)

/-- Steps 7 and 8 with one flash slot: load, check and apply it. -/
def tryFlash (s : State) (f : PowerOnFacts) (src : Nat) : Bool × State :=
  let from_ := commitFrom src
  if f.flashFault.contains (src - 1) then (false, noteFail s (failOf 0x18) from_)
  else
    let s := copyFlash s src
    let r := loadImage s (deckArea s true) false
    match r.2 with
    | .error e => (false, noteFail r.1 e from_)
    | .ok i => (true, applyRedeal r.1 (curSlot r.1) i from_)

/-- Step 7: the strap's slot, then once the other one (R57); or the wait for a DEAL_COMMIT. -/
def bootDeck (s : State) (f : PowerOnFacts) : State :=
  match strapFlash s with
  | none => s
  | some src =>
    let a := tryFlash s f src
    if a.1 then a.2
    else
      let b := tryFlash a.2 f (5 - src)
      if b.1 then { b.2 with deck := { b.2.deck with fallback := true } } else b.2

/-- Steps 2 to 9. The restore of an L1 runs beside step 5 and ends before step 7 (Table 17.4). -/
def sequence (s : State) (f : PowerOnFacts) (restore : Bool) : State :=
  let s := setStep (loadFuses s f) 2
  if s.rst.halted then s
  else
    let s := clocksUp (drawSeeds (avsWrite s)) f
    let s := setStep (train (if restore then restoreKitty s else s) f.training) 5
    if trainFailed s then s else keepLast s (keepStores s (bootDeck (setStep s 7) f))

/-- POWER_ON_RESET: the rails are good and RESET_N is high (R390). -/
def powerOn (s : State) (f : PowerOnFacts) : State :=
  if s.rst.step = 1 then
    sequence { s with rst := { s.rst with startClk := s.clk, strap := strapCode f.cfgsel } } f true
  else s

/-! ## The reset sources (R383 to R386, R391) -/

/-- Source `src` leads to an L2; in steps 1 and 2 it is treated as an L1. -/
def l2From (s : State) (src : Nat) (f : PowerOnFacts) : State :=
  if earlyStep s then l1 src s else sequence (l2Base src (noteCause s src)) f false

/-- PIN_RESET: RESET_N low for 1 µs, and high again. At the power-on reset it is the release that waits (R386). -/
def pinOp (s : State) (f : PowerOnFacts) : State := if s.rst.step = 1 then s else l2From s 2 f

/-- The host watchdog's count exceeds PERIOD (R385). -/
def wdogDue (s : State) : Bool := wdogPeriod s != 0 && wdogPeriod s < (s.clk - s.rst.wdogClk) / usClk

/-- HOST_WDOG_EXPIRE: an L2, or an L3 with WDOG_L3, after which it counts again. -/
def wdogOp (s : State) (f : PowerOnFacts) : State :=
  if !wdogDue s then s
  else if bit (regRaw s aRstCtl 0) 0 then keepStores s (l3From { s with rst := { s.rst with wdogClk := s.clk } } 3 (l1 3))
  else l2From s 3 f

/-- DEBUG_RESET: the instruction's data selects the level. -/
def debugOp (s : State) (toL2 : Bool) (f : PowerOnFacts) : State := if toL2 then l2From s 5 f else keepStores s (l3From s 5 (l1 5))

/-- The source of a level given as a command of its own, which names none: a free choice among those that lead to it
(assumption 3, DESIGN CHOICE). -/
def anySource (s : State) (xs : List Nat) : Nat × State :=
  let d := draw s
  (nth xs (d.1 % xs.length) 0, d.2)

/-- L2_RESET: the L2 that a RESET_REQ awaits, or one whose source is not named (R356, R388). -/
def l2Op (s : State) (f : PowerOnFacts) : State :=
  if s.rst.l2Due then sequence (l2Base 4 s) f false
  else
    let x := anySource s [2, 3, 5, 6]
    l2From x.2 x.1 f

/-- L3_RESET: an L3 whose source is not named (R388). -/
def l3Op (s : State) : State :=
  let x := anySource s [3, 4, 5, 7]
  l3From x.2 x.1 (l1 x.1)

/-- RESET_REQ (R356): one for L3 completes when the L3 releases. -/
def opResetReq (s : State) (n : Nat) (t : Txn) : Ran :=
  gate s n 3 t ((t.addr == 2 || t.addr == 3) && t.data.isEmpty) fun s =>
    if t.addr = 3 then untilRelease (l3From s 4 (l1 4)) n t
    else
      let s := noteCause s 4
      .ok t [] { s with rst := { s.rst with l2Due := true } }

/-- DLR.WDOG_LOG's record of a trick (Table 4.17). -/
def wdogRecord (d c : Nat) (t : Trick) : Nat :=
  d % 2 ^ 9 + c % 2 ^ 8 * 2 ^ 9 + t.addr % 2 ^ 14 * 2 ^ 17 + stageOf d * 2 ^ 31 + b2n t.slot * 2 ^ 34
  + t.routine % 2 ^ 8 * 2 ^ 35 + 2 ^ 63

/-- The trick has used more clocks in its routine than WDOG allows (R94). -/
def trickDue (s : State) (t : Trick) : Bool := wdogLimit s != 0 && !t.ended && wdogLimit s < s.clk - t.entryClk

/-- WATCHDOG_FIRE: the trick is recorded, and the lock-up source leads to an L3. -/
def lockupOp (s : State) (d c : Nat) : State :=
  match trickAt s d c with
  | none => s
  | some t => if trickDue s t then l3From (setLog s aWdogLog (wdogRecord d c t)) 7 (l1 7) else s

/-! ## Clocks (R392, R393, Table 17.5) -/

/-- Ports whose links are up and satisfy `p` lose them. -/
def dropLinks (s : State) (p : Nat → Bool) : State :=
  (List.range 256).foldl (fun s k => if isPort s k && p k then linkLost s k else s) s

/-- The control link of a port goes down, and counts LINK_DOWN. -/
def ctlDown (s : State) (cp : Nat) : State :=
  let up := if cp = 0 then s.zat.link0 else s.zat.link1
  let z := if cp = 0 then { s.zat with link0 := false } else { s.zat with link1 := false }
  if up then bump { s with zat := z } (aZatCtr cp 13) else s

/-- ZAT is held: every session is freed, and both links go down. -/
def holdZat (s : State) : State :=
  let s := (s.zat.sessions.map (·.1)).foldl closeSess s
  ctlDown (ctlDown s 0) 1

/-- Stack `st` is held: its queued requests complete with poison, and it is no longer trained. -/
def holdStack (s : State) (st : Nat) : State :=
  let s := { s with hbmc := { s.hbmc with trained := setBits s.hbmc.trained st st 0 } }
  let s := ((s.hbmc.reqs.filter fun e => e.1 / 48 / 32 == st).flatMap (·.2)).foldl execReq s
  { s with hbmc := { s.hbmc with reqs := kfilter s.hbmc.reqs fun k _ => k / 48 / 32 != st } }

/-- The time unit is held, to start in FREE_RUN with VALID 0; UTC_OFFSET is the deck's. -/
def holdTime (s : State) : State :=
  stopGates { s with time := { TimeUnit.reset with utcOff := s.time.utcOff, seqIds := s.time.seqIds } }

/-- The keep domain is held: no slot holds a record, and saves are disarmed. -/
def holdKeep (s : State) : State :=
  { s with keep := { s.keep with slots := [], queue := [], due := false, armed := false } }

/-- What a bad clock other than the core's holds. -/
def holdClock (s : State) (c : Nat) : State :=
  if c ≤ 4 then holdStack s (c - 1)
  else if c = 5 || c = 24 then holdZat s
  else if c = 6 then holdTime s
  else if c = 7 then holdKeep s
  else if dieHeld s ((c - 8) / 2) then dropLinks s fun p => p / 32 == (c - 8) / 2
  else s

/-- CLOCK_BAD: a clock that read good is declared bad. -/
def clockBadOp (s : State) (c : Nat) (f : PowerOnFacts) : State :=
  if !bit s.rst.good c then s
  else
    let s := markSet (noteCause { s with
      rst := { s.rst with good := setBits s.rst.good c c 0, failed := setBits s.rst.failed c c 1 } } 6) aClock (2 ^ (32 + c))
    if c = 0 then l2From s 6 f else keepStores s (holdClock s c)

/-- CLOCK_GOOD: the held block leaves reset; the keep domain comes back cleared, with saves armed. -/
def clockGoodOp (s : State) (c : Nat) : State :=
  if earlyStep s || bit s.rst.good c then s
  else
    let s := { s with rst := { s.rst with good := setBits s.rst.good c c 1 } }
    if c = 7 then { s with kitty := [], keep := { s.keep with armed := true } } else s

/-- Ports with a lane in half-octet `h`, four logical lanes from 4 × h on (R99). -/
def inHalf (s : State) (h p : Nat) : Bool := p < 4 * h + 4 && 4 * h < p + portLanes s p

/-- LANE_PLL_UNLOCK: the links of the half-octet go down; the PLL relocks without a reset (R392). -/
def pllOp (s : State) (h : Nat) : State := dropLinks s (inHalf s h)

def setRef (s : State) (b : Bool) : State := { s with time := { s.time with refOk := b } }

/-! ## The save (R395, R398, R399) -/

/-- KITTY_SAVE: a trigger before the restore has ended leads to L1 alone. -/
def saveOp (s : State) (t : SaveTrigger) (micros : Nat) : State :=
  l1 1 (if s.keep.armed then saveKitty s t micros else s)

/-- RAIL_FAIL: THERMTRIP_N ends with VDD_IO (R421). The wait for a write pulse on xSPI1 takes no time here (R394). -/
def railOp (s : State) (r : Rail) : State :=
  let s := l1 0 s
  if r = .vddIo then { s with rst := { s.rst with tripped := false } } else s

/-! ## Temperatures (R421) -/

/-- TEMP_SAMPLE: PEAK follows CORE_MAX as signed numbers. -/
def tempOp (s : State) (ts : List Byte) : State :=
  let core := nth ts 0 0
  { s with temps := ts, tempOk := true, peak := if sint 8 s.peak.toNat < sint 8 core.toNat then core else s.peak }

/-- CORE_MAX at 125 °C, or a stack at 105 °C. -/
def tooHot (s : State) : Bool :=
  (enum 0 s.temps).any fun x => (if x.1 = 0 then (125 : Int) else 105) ≤ sint 8 x.2.toNat

/-- THERMTRIP: THERMTRIP_N is asserted once. -/
def tripOp (s : State) : State :=
  if s.tempOk && tooHot s && !s.rst.tripped then
    { s with sent := s.sent ++ [.thermtrip], rst := { s.rst with tripped := true } }
  else s

/-! ## Meanings -/

/-- RESET_REQ_L2 (R356). -/
def execResetReqL2 (session : Nat) (s : State) : Host.Outcome State Fault Refusal :=
  cmd (.resetReqL2 session) s fun s => direct s session ⟨0x48, 0, 2, []⟩ opResetReq
/-- RESET_REQ_L3 (R356). -/
def execResetReqL3 (session : Nat) (s : State) : Host.Outcome State Fault Refusal :=
  cmdDeck (.resetReqL3 session) s fun s => direct s session ⟨0x48, 0, 3, []⟩ opResetReq
/-- POWER_ON_RESET (R390). -/
def execPowerOnReset (facts : PowerOnFacts) (s : State) : Host.Outcome State Fault Refusal :=
  cmdBig (.powerOnReset facts) s fun s => powerOn s facts
/-- RAIL_FAIL (R383). -/
def execRailFail (rail : Rail) (pulse : Bool) (s : State) : Host.Outcome State Fault Refusal :=
  cmdBig (.railFail rail pulse) s fun s => railOp s rail
/-- PIN_RESET (R386). -/
def execPinReset (facts : PowerOnFacts) (s : State) : Host.Outcome State Fault Refusal :=
  cmdBig (.pinReset facts) s fun s => pinOp s facts
/-- HOST_WDOG_EXPIRE (R385). -/
def execHostWdogExpire (facts : PowerOnFacts) (s : State) : Host.Outcome State Fault Refusal :=
  cmdBig (.hostWdogExpire facts) s fun s => wdogOp s facts
/-- DEBUG_RESET (R383). -/
def execDebugReset (toL2 : Bool) (facts : PowerOnFacts) (s : State) : Host.Outcome State Fault Refusal :=
  cmdBig (.debugReset toL2 facts) s fun s => debugOp s toL2 facts
/-- L2_RESET (R388). -/
def execL2Reset (facts : PowerOnFacts) (s : State) : Host.Outcome State Fault Refusal :=
  cmdBig (.l2Reset facts) s fun s => l2Op s facts
/-- L3_RESET (R388). -/
def execL3Reset (s : State) : Host.Outcome State Fault Refusal := cmdDeck .l3Reset s l3Op
/-- WATCHDOG_FIRE (R94). -/
def execWatchdogFire (dealer ctx : Nat) (s : State) : Host.Outcome State Fault Refusal :=
  cmdDeck (.watchdogFire dealer ctx) s fun s => lockupOp s dealer ctx
/-- CLOCK_BAD (R393). -/
def execClockBad (clock : Nat) (facts : PowerOnFacts) (s : State) : Host.Outcome State Fault Refusal :=
  cmdBig (.clockBad clock facts) s fun s => clockBadOp s clock facts
/-- CLOCK_GOOD (R393). -/
def execClockGood (clock : Nat) (s : State) : Host.Outcome State Fault Refusal :=
  cmd (.clockGood clock) s fun s => clockGoodOp s clock
/-- LANE_PLL_UNLOCK (R392). -/
def execLanePllUnlock (half : Nat) (s : State) : Host.Outcome State Fault Refusal :=
  cmd (.lanePllUnlock half) s fun s => pllOp s half
/-- TIME_REF_LOSS (R393). -/
def execTimeRefLoss (s : State) : Host.Outcome State Fault Refusal := cmd .timeRefLoss s fun s => setRef s false
/-- TIME_REF_RETURN (R393). -/
def execTimeRefReturn (s : State) : Host.Outcome State Fault Refusal :=
  cmd .timeRefReturn s fun s => if bit s.rst.good 6 then setRef s true else s
/-- KITTY_SAVE (R398, R399). -/
def execKittySave (trigger : SaveTrigger) (micros : Nat) (s : State) : Host.Outcome State Fault Refusal :=
  cmdBig (.kittySave trigger micros) s fun s => saveOp s trigger micros
/-- THERMTRIP (R421). -/
def execThermtrip (s : State) : Host.Outcome State Fault Refusal := cmd .thermtrip s tripOp
/-- TEMP_SAMPLE (R421). -/
def execTempSample (core hbm0 hbm1 hbm2 hbm3 : Byte) (s : State) : Host.Outcome State Fault Refusal :=
  cmd (.tempSample core hbm0 hbm1 hbm2 hbm3) s fun s => tempOp s [core, hbm0, hbm1, hbm2, hbm3]
/-- CONTROL_LINK_UP (R118). -/
def execControlLinkUp (cp : Nat) (s : State) : Host.Outcome State Fault Refusal :=
  cmd (.controlLinkUp cp) s fun s =>
    if bit s.rst.good 5 && bit s.rst.good 24 then
      { s with zat := if cp = 0 then { s.zat with link0 := true } else { s.zat with link1 := true } }
    else s
/-- CONTROL_LINK_DOWN (R105, R118). -/
def execControlLinkDown (cp : Nat) (s : State) : Host.Outcome State Fault Refusal :=
  cmd (.controlLinkDown cp) s fun s => ctlDown s cp

end Sys2Proof.Machine
end

