-- ==== Sys2Proof/Machine/Streams.lean ====
section
/-!
DEFINITION. Record rings as streams: SUBSCRIBE, EXCEPT, UNSUBSCRIBE and the stream frames (15_zatas_control_protocol.md R353;
11_fabric_and_pots.md R261).
Log entries: 38.
-/
namespace Sys2Proof.Machine

open Sys2Proof

/-! ## SUBSCRIBE, EXCEPT and UNSUBSCRIBE -/

/-- LOST of a ring: the 48-bit count of its counter word. -/
def ringLost (s : State) (r : Nat) : Nat := regRaw s (aRingLost r) 0 % 2 ^ 48

/-- SUBSCRIBE, or EXCEPT when `exc`: the session reads the ring and adds credits to those it holds (R353). -/
def subscribeAs (exc : Bool) (s : State) (n : Nat) (t : Txn) : Ran :=
  gate s n 1 t (t.addr < 8192 && t.data.length == 8 && ofBytes t.data < 65536) fun s =>
    let g := ringOf s t.addr
    if g.reader.isSome && g.reader != some n then .fail t stBusy s
    else
      let c := min 65535 (g.credits + ofBytes t.data)
      .ok t (toBytes 8 (c + ringLost s t.addr * 2 ^ 16))
        { s with rings := kset s.rings t.addr { g with reader := some n, exc := exc, credits := c } }

def opSubscribe (s : State) (n : Nat) (t : Txn) : Ran := subscribeAs false s n t
def opExcept (s : State) (n : Nat) (t : Txn) : Ran := subscribeAs true s n t

/-- The ring loses its reader. -/
def ringQuit (s : State) (r : Nat) : State :=
  { s with rings := kset s.rings r { ringOf s r with reader := none, credits := 0 } }

/-- UNSUBSCRIBE: at once, or once the item partly sent is finished; no effect on a ring the session does not read. -/
def opUnsubscribe (s : State) (n : Nat) (t : Txn) : Ran :=
  gate s n 1 t (t.addr < 8192 && t.data.isEmpty) fun s =>
    let g := ringOf s t.addr
    if g.reader != some n then .ok t [] s
    else if g.part = 0 then .ok t [] (ringQuit s t.addr)
    else .waits (.unsub t.addr) s

/-! ## Stream frames (Table 15.9) -/

/-- Bytes of the largest piece of an item in a frame with `room`. -/
def pieceMax (room : Nat) : Nat := (room - 16) / 8 * 8

/-- The item carries a poison mark, or a poisoned word of HBM is read for it (R262, R327). -/
def itemPoison (s : State) (r pos : Nat) (it : List Byte × Bool) : Bool :=
  let size := 2 ^ (ringCfg s r).log2
  let k := min it.1.length (size - pos)
  it.2 || hbmPoisoned s (ringRegion s + ringBase s r + pos) k || hbmPoisoned s (ringRegion s + ringBase s r) (it.1.length - k)

/-- The transaction that carries `len` bytes of an item from offset `off`. -/
def pieceTxn (r : Nat) (exc poison : Bool) (item : List Byte) (off len : Nat) : TxnRes :=
  { op := if exc then 0x38 else 0x30, tag := 0, status := if poison then stPoison else stOk,
    addr := r + b2n (off != 0) * 2 ^ 13 + b2n (decide (off + len < item.length)) * 2 ^ 14
      + (if exc then fld item 2 1 % 64 * 2 ^ 16 + fld item 3 1 * 2 ^ 24 else 0) + off * 2 ^ 32,
    data := slice item off len }

/-- What a stream frame takes from a ring: its transactions, and the ring after them. An item that does not fit whole is
begun only as the frame's first transaction. -/
def streamGo (s : State) (r room used : Nat) (one : Bool) (items : List (List Byte × Bool)) (g : Ring) (acc : List TxnRes) :
    List TxnRes × Ring :=
  match items with
  | [] => (acc, g)
  | it :: rest =>
    let left := it.1.length - g.part
    let cost := 16 + cdiv left 8 * 8
    let p := itemPoison s r g.head it
    if 64 ≤ acc.length then (acc, g)
    else if used + cost ≤ room then
      let g' := { g with items := rest, part := 0, head := (g.head + it.1.length) % 2 ^ (ringCfg s r).log2 }
      let acc := acc ++ [pieceTxn r g.exc p it.1 g.part left]
      if one then (acc, g') else streamGo s r room (used + cost) one rest g' acc
    else if acc.isEmpty then
      let k := pieceMax room
      ([pieceTxn r g.exc p it.1 g.part k], { g with part := g.part + k })
    else (acc, g)

/-- The reads of a ring's backing region that a stream frame makes, from ring state `g` to `g'`: they count, and so does
each poisoned sector (R327, R371). -/
def streamReads (s : State) (r : Nat) (g g' : Ring) : State :=
  let size := 2 ^ (ringCfg s r).log2
  let base := ringRegion s + ringBase s r
  let at_ := g.head + g.part
  let n := (g'.head + size - g.head) % size + g'.part - g.part
  let k := min n (size - at_ % size)
  let s := (hbmRead s (96 + r % 8) (base + at_ % size) k).1
  (hbmRead s (96 + r % 8) base (n - k)).1

/-- Credits that beginning the head item takes: one for each frame that its pieces need. -/
def itemCredits (room len : Nat) : Nat := if 16 + cdiv len 8 * 8 ≤ room then 1 else cdiv len (pieceMax room)

/-- An UNSUBSCRIBE waits for the ring. -/
def unsubWait (s : State) (r : Nat) : Option (Nat × Waiting) :=
  s.zat.waits.find? fun e => match e.2.what with | .unsub q => q == r | _ => false

/-- STREAM_FRAME_SEND: the reader holds a credit and the ring an item, and the credits suffice for the head item. -/
def streamSend (s : State) (r : Nat) : State :=
  let g := ringOf s r
  match g.reader with
  | none => s
  | some n =>
    let x := sessOf s n
    let room := frameRoom x.enc
    let len := (g.items.head?.map fun i => i.1.length).getD 0
    if x.state != .opened || g.items.isEmpty || g.credits = 0 || (g.part = 0 && g.credits < itemCredits room len) then s
    else
      let quits := unsubWait s r
      let f := streamGo s r room 0 quits.isSome g.items { g with credits := g.credits - 1 } []
      let s := streamReads s r g f.2
      let s := setSess s n { x with stream := (x.stream + 1) % 2 ^ 32 }
      let s := { s with rings := kset s.rings r f.2 }
      let s := bump (zatSend s x.enc (sessMsg s n 2 x.stream f.1)) (aZatCtr x.enc.cp 12)
      let s := ringThreshold s r
      match quits with
      | some (id, w) => if f.2.part = 0 then finishWait (ringQuit s r) id stOk w.txn.addr [] else s
      | none => s

/-- SUBSCRIBE (R353). -/
def execSubscribe (session ring credits : Nat) (s : State) : Host.Outcome State Fault Refusal :=
  cmd (.subscribe session ring credits) s fun s => direct s session ⟨0x30, 0, ring, toBytes 8 credits⟩ opSubscribe
/-- UNSUBSCRIBE (R353). -/
def execUnsubscribe (session ring : Nat) (s : State) : Host.Outcome State Fault Refusal :=
  cmd (.unsubscribe session ring) s fun s => direct s session ⟨0x31, 0, ring, []⟩ opUnsubscribe
/-- EXCEPT (R353). -/
def execExcept (session ring credits : Nat) (s : State) : Host.Outcome State Fault Refusal :=
  cmd (.except session ring credits) s fun s => direct s session ⟨0x38, 0, ring, toBytes 8 credits⟩ opExcept
/-- STREAM_FRAME_SEND (R353). -/
def execStreamFrameSend (ring : Nat) (s : State) : Host.Outcome State Fault Refusal :=
  cmd (.streamFrameSend ring) s fun s => streamSend s ring
/-- RING_ITEM_WRITE: a writer puts one item in a ring (R261). -/
def execRingItemWrite (ring : Nat) (item : List Byte) (s : State) : Host.Outcome State Fault Refusal :=
  cmd (.ringItemWrite ring item) s fun s => ringWrite s ring item false

end Sys2Proof.Machine
end

