-- ==== Sys2Proof/Machine/TimeHost.lean ====
section
/-!
DEFINITION. The TIME operation of Zatas: READ, SET, UNLOCK and LEAP (13_time_and_launch.md R295 to R298; 15_zatas_control_protocol.md R355).
Log entries: 36.
-/
namespace Sys2Proof.Machine

open Sys2Proof

/-- Level of a TIME function (Table 13.2). -/
def timeLevel (f : Nat) : Nat := if f = 0 then 1 else if f = 2 then 3 else 2

/-- READ: the SET layout, then TIME.STATUS (R355). -/
def timeData (s : State) : List Byte :=
  toBytes 6 (nowS s) ++ toBytes 4 (nowNs s % 10 ^ 9) ++ toBytes 2 (s.time.base / 2 ^ 32) ++ toBytes 4 0 ++ toBytes 8 (timeReg s)

/-- The instant of a SET is a time, and the bytes after it are 0. -/
def setOk (d : List Byte) : Bool := fld d 6 4 < 10 ^ 9 && fld d 12 4 == 0

/-- UTC seconds of the present. -/
def utcNow (s : State) : Int := Int.ofNat (nowS s) - s.time.utcOff

/-- A cancel, or a leap at a multiple of 86,400 s later than the present (Table 13.2). -/
def leapOk (s : State) (d : List Byte) : Bool :=
  let u := fld d 0 6
  let a := fld d 6 1
  fld d 7 8 == 0 && fld d 15 1 == 0 && (a == 0 || (a ≤ 2 && u % 86400 == 0 && utcNow s < Int.ofNat u))

/-- LEAP: schedule or cancel. -/
def leapSet (s : State) (d : List Byte) : State :=
  let a := fld d 6 1
  { s with time := { s.time with pending := a, leapAt := if a = 0 then 0 else leapSecond s (fld d 0 6) a } }

/-- TIME (R295 to R297, R355). -/
def opTime (s : State) (n : Nat) (t : Txn) : Ran :=
  let f := t.addr
  let len := if f = 1 ∨ f = 3 then 16 else 0
  gate s n (timeLevel f) t (f < 4 && t.data.length == len && (f != 1 || setOk t.data) && (f != 3 || leapOk s t.data)) fun s =>
    match f with
    | 0 => .ok t (timeData s) s
    | 1 => if mayStep s then .ok t [] (hostSet s (fld t.data 0 6) (fld t.data 6 4) (fld t.data 10 2)) else .fail t stTimeLocked s
    | 2 => .ok t [] { s with time := { s.time with unlocked := true } }
    | _ => .ok t [] (leapSet s t.data)

/-- TIME_READ (R297). -/
def execTimeRead (session : Nat) (s : State) : Host.Outcome State Fault Refusal :=
  cmd (.timeRead session) s fun s => direct s session ⟨0x40, 0, 0, []⟩ opTime
/-- TIME_SET (R295). -/
def execTimeSet (session seconds ns frac : Nat) (s : State) : Host.Outcome State Fault Refusal :=
  cmd (.timeSet session seconds ns frac) s fun s =>
    direct s session ⟨0x40, 0, 1, toBytes 6 seconds ++ toBytes 4 ns ++ toBytes 2 frac ++ toBytes 4 0⟩ opTime
/-- TIME_UNLOCK (R296). -/
def execTimeUnlock (session : Nat) (s : State) : Host.Outcome State Fault Refusal :=
  cmd (.timeUnlock session) s fun s => direct s session ⟨0x40, 0, 2, []⟩ opTime
/-- TIME_LEAP (R297). -/
def execTimeLeap (session second action : Nat) (s : State) : Host.Outcome State Fault Refusal :=
  cmd (.timeLeap session second action) s fun s =>
    direct s session ⟨0x40, 0, 3, toBytes 6 second ++ toBytes 1 action ++ toBytes 9 0⟩ opTime

end Sys2Proof.Machine
end

