-- ==== Sys2Proof/Machine/ZatRx.lean ====
section
/-!
DEFINITION. Control frames received: encapsulation, the checks of Table 15.1 in their order, HELLO and AUTH, the sequence
window, duplicates, and Neighbour Solicitation (15_zatas_control_protocol.md R334, R335, R339 to R345, R357).
Log entries: 3, 16, 21, 35.
-/
namespace Sys2Proof.Machine

open Sys2Proof

/-! ## Encapsulation (R334) -/

/-- The control ports and ZAT are out of reset (R393). -/
def zatUp (s : State) : Bool := bit s.rst.good 5 && bit s.rst.good 24
def ctlLink (s : State) (cp : Nat) : Bool := if cp = 0 then s.zat.link0 else s.zat.link1

/-- The 802.1Q tag of a frame, if it has one, and what follows its EtherType. -/
def vlanOf (f : List Byte) : List Byte := if fld f 12 2 = 0x8100 then slice f 12 4 else []
def afterEth (f : List Byte) : List Byte := f.drop (14 + (vlanOf f).length)
/-- The EtherType behind the tag. -/
def ctlType (f : List Byte) : Nat := if (afterEth f).isEmpty then 0 else fld f (12 + (vlanOf f).length) 2

/-- An IPv6 packet of next header `next` whose payload lies in the frame: source, destination, payload. -/
def ip6In (f : List Byte) (next : Nat) : Option (List Byte × List Byte × List Byte) :=
  let p := afterEth f
  let n := fld p 4 2
  if ctlType f = 0x86DD && 40 ≤ p.length && fld p 0 1 / 16 = 6 && fld p 6 1 = next && 40 + n ≤ p.length then
    some (slice p 8 16, slice p 24 16, slice p 40 n)
  else none

/-- The Zatas message of a frame under UDP, with its encapsulation. -/
def udpIn (s : State) (cp : Nat) (f : List Byte) : Option (Encap × List Byte) :=
  (ip6In f 17).bind fun (src, dst, u) =>
    let n := fld u 4 2
    if 8 ≤ n && n ≤ u.length && fld u 2 2 = udpPort s && fld u 6 2 ≠ 0
        && csumWords (pseudo6 src dst n 17 ++ u.take n) = 0xFFFF then
      some (⟨cp, slice f 6 6, vlanOf f, some (src, dst, fld u 0 2, fld u 2 2)⟩, (u.take n).drop 8)
    else none

/-- The Zatas message of a raw frame. -/
def rawIn (cp : Nat) (f : List Byte) : Option (Encap × List Byte) :=
  if ctlType f = 0x88B5 then some (⟨cp, slice f 6 6, vlanOf f, none⟩, afterEth f) else none

/-- Check 2 of Table 15.1. -/
def decap (s : State) (cp : Nat) (f : List Byte) : Option (Encap × List Byte) := if zatUdp s then udpIn s cp f else rawIn cp f

/-! ## Messages (R336, R337) -/

/-- A message: header fields, transactions, the bytes under the tag, the tag. -/
structure ZMsg where
  flags   : Nat
  session : Nat
  seq     : Nat
  ack     : Nat
  sack    : Nat
  txns    : List Txn
  body    : List Byte
  tag     : List Byte
deriving DecidableEq, Repr

/-- Exactly `n` transactions fill these bytes. -/
def parseTxns (n : Nat) (b : List Byte) : Option (List Txn) :=
  match n with
  | 0 => if b.isEmpty then some [] else none
  | k + 1 =>
    let len := fld b 4 4
    let need := 16 + cdiv len 8 * 8
    if b.length < 16 || b.length < need then none
    else (parseTxns k (b.drop need)).map fun r => ⟨fld b 0 1, fld b 2 2, fld b 8 8, slice b 16 len⟩ :: r

/-- Check 3 of Table 15.1. -/
def parseMsg (m : List Byte) : Option ZMsg :=
  let len := fld m 20 2
  if m.length < 48 || fld m 0 1 ≠ 1 || fld m 2 1 ≠ 4 || 64 < fld m 3 1 || !zeroed m 22 32 || len < 48 || m.length < len then none
  else (parseTxns (fld m 3 1) (slice m 32 (len - 48))).map fun ts =>
    ⟨fld m 1 1, fld m 4 2, fld m 8 4, fld m 12 4, fld m 16 4, ts, m.take (len - 16), slice m (len - 16) 16⟩

/-- The tag under key `ks` (R338). -/
def tagOk (ks : List Byte) (m : ZMsg) : Bool := (hmacSha256 ks m.body).take 16 == m.tag

/-! ## HELLO (R339) -/

/-- The oldest CHALLENGED session. -/
def oldestChallenged (s : State) : Option Nat :=
  ((s.zat.sessions.filter fun e => e.2.state == .challenged).foldl
    (fun (b : Option (Nat × Session)) e => match b with
      | some x => if x.2.order ≤ e.2.order then b else some e
      | none => some e) none).map (·.1)

/-- A 17th CHALLENGED session evicts the oldest. -/
def evict (s : State) : State :=
  if 16 ≤ countSess s .challenged then
    match oldestChallenged s with | some n => closeSess s n | none => s
  else s

/-- The answer to a HELLO: no session, no key. -/
def helloAnswer (s : State) (e : Encap) (t : Txn) (status : Nat) (data : List Byte) : State :=
  zatSend s e (zatMsg none 1 0 0 0 0 0 [txnRes t status t.addr data])

/-- The lone HELLO of a frame. One with data or an ADDRESS takes no session. -/
def helloOp (s : State) (e : Encap) (t : Txn) : State :=
  if t.addr ≠ 0 || !t.data.isEmpty then helloAnswer s e t stMalformed []
  else
    let s := evict s
    match findUp (maxSessions s) 1 fun n => (sessOf s n).state == .free with
    | none => helloAnswer s e t stBusy []
    | some n =>
      let d := drawN 2 s
      let np := toBytes 16 d.1
      let s := { d.2 with zat := { d.2.zat with nextOrd := d.2.zat.nextOrd + 1 } }
      let s := setSess s n { Session.free with state := .challenged, np := np, order := s.zat.nextOrd, lastClk := s.clk }
      helloAnswer s e t stOk (toBytes 2 n ++ [1] ++ toBytes 1 (deckStateCode s.deck.phase) ++ toBytes 2 (frameWindow s)
        ++ [0, 0] ++ toBytes 8 (chipId s) ++ np)

/-! ## AUTH (R340 to R342) -/

/-- The session key. -/
def sessionKey (k : List Byte) (n level slot : Nat) (np nh : List Byte) : List Byte :=
  hmacSha256 k ([0x5A, 0x41, 0x54, 0x41, 0x53, 0x31] ++ toBytes 2 n ++ toBytes 1 level ++ toBytes 1 slot ++ np ++ nh)

/-- The request is well formed, its slot is enabled at its level, and a PRIVILEGED session is free. -/
def authOk (s : State) (t : Txn) : Bool :=
  let slot := fld t.data 0 1
  let level := fld t.data 1 1
  t.data.length == 24 && t.addr == 0 && zeroed t.data 2 8 && slot < 16 && 1 ≤ level && level ≤ 3
  && level ≤ slotLevel s slot && (level != 3 || countPriv s < maxPrivileged s)

/-- The data of an AUTH's response. -/
def authData (s : State) (level : Nat) : List Byte :=
  toBytes 1 level ++ toBytes 1 (idleS s) ++ toBytes 2 (frameWindow s) ++ toBytes 4 0

/-- A response is kept for retransmission; not while a stack has TRAIN_FAIL set, when the session area is unusable (R345). -/
def keepResp (s : State) (n q : Nat) (msg : List Byte) : State :=
  let x := sessOf s n
  if trainFailed s then s else setSess s n { x with kept := kset x.kept q msg }

/-- A frame of a CHALLENGED session: its AUTH, or no frame with a key. A failed AUTH frees the session. -/
def authRx (s : State) (e : Encap) (n : Nat) (m : ZMsg) : State :=
  match m.txns with
  | [t] =>
    if t.op ≠ 2 || m.seq ≠ 0 then bump s (aZatCtr e.cp 7)
    else
      let x := sessOf s n
      let slot := fld t.data 0 1
      let level := fld t.data 1 1
      let ks := sessionKey (keySlot s slot).key n level slot x.np (slice t.data 8 16)
      if authOk s t && tagOk ks m then
        let s := setSess (bump s (aZatCtr e.cp 0)) n
          { x with state := .opened, level := level, slot := slot, enc := e, next := 1, hack := 0, ks := ks, lastClk := s.clk }
        let msg := sessMsg s n 0 0 [txnRes t stOk t.addr (authData s level)]
        zatSend (keepResp s n 0 msg) e msg
      else bump (closeSess s n) (aZatCtr e.cp 11)
  | _ => bump s (aZatCtr e.cp 7)

/-! ## Frames of an OPEN session (R343 to R345) -/

/-- A verified frame: the session's source and time, and its ACK and SACK. Acknowledged responses are not kept. -/
def heardFrom (s : State) (e : Encap) (n ack sack : Nat) : State :=
  let x := sessOf s n
  let up := 0 < seqDiff ack x.hack
  let hack := if up then ack else x.hack
  let kept := if up then kfilter x.kept fun q _ => 0 ≤ seqDiff q ack else x.kept
  setSess (bump s (aZatCtr e.cp 0)) n { x with enc := e, lastClk := s.clk, hack := hack, sack := sack, kept := kept }

/-- NEXT passes every frame received in order. -/
def passNext (k : Nat) (rx : KMap Req) (next : Nat) : Nat :=
  match k with
  | 0 => next
  | j + 1 => if khas rx next then passNext j rx ((next + 1) % 2 ^ 32) else next

/-- SEQ `q` is being executed, or waits to be. -/
def inHand (x : Session) (q : Nat) : Bool := khas x.rx q || (match x.exec with | some e => e.seq == q | none => false)

/-- A request frame (R343, R344). -/
def takeReq (s : State) (e : Encap) (n : Nat) (m : ZMsg) : State :=
  let x := sessOf s n
  let due := setSess s n { x with ackDue := true }
  let req : Req := ⟨e, m.flags, m.txns⟩
  if seqDiff m.seq x.next < 0 then
    if seqDiff m.seq x.hack < 0 then bump s (aZatCtr e.cp 10)
    else match kget x.kept m.seq with
      | some msg => zatSend s e msg
      | none => if trainFailed s && !inHand x m.seq then setSess s n { x with rx := kset x.rx m.seq req } else due
  else if khas x.rx m.seq then due
  else
    let rx := kset x.rx m.seq req
    setSess s n { x with rx := rx, next := passNext 257 rx x.next, ackDue := x.ackDue || m.seq != x.next }

/-- Checks 4 to 7 of Table 15.1, and what an accepted frame does. -/
def msgRx (s : State) (e : Encap) (m : ZMsg) : State :=
  let x := sessOf s m.session
  if m.session = 0 then
    match m.txns with
    | [t] => if t.op = 1 && m.seq = 0 then helloOp (bump s (aZatCtr e.cp 0)) e t else bump s (aZatCtr e.cp 6)
    | _ => bump s (aZatCtr e.cp 6)
  else if x.state == .free then bump s (aZatCtr e.cp 6)
  else if x.state == .challenged then authRx s e m.session m
  else if !tagOk x.ks m then bump s (aZatCtr e.cp 7)
  else if !m.txns.isEmpty && (frameWindow s : Int) ≤ seqDiff m.seq x.hack then bump s (aZatCtr e.cp 8)
  else if !hasDeck s && (m.txns.any fun t => !preDealOp t.op) then bump s (aZatCtr e.cp 9)
  else
    let s := heardFrom s e m.session m.ack m.sack
    if m.txns.isEmpty then s else takeReq s e m.session m

/-! ## Neighbour Solicitation (R334, RFC 4861) -/

/-- The link-local address of a control port: fe80:: with the EUI-64 of its MAC address. -/
def linkLocal (s : State) (cp : Nat) : List Byte :=
  let m := toBytes 6 (ctlMac s cp)
  [0xFE, 0x80, 0, 0, 0, 0, 0, 0] ++ ((m.take 1).map fun b => b ^^^ 2) ++ slice m 1 2 ++ [0xFF, 0xFE] ++ slice m 3 3

/-- Addresses of a control port: its link-local one, and every ADDR of the ZATAS body. -/
def ownAddrs (s : State) (cp : Nat) : List (List Byte) :=
  linkLocal s cp :: (if hasDeck s then ((List.range 4).map fun k => slice (coldBody s tyZatas) (32 + 16 * k) 16).filter fun a => !zeros a else [])

/-- A valid Neighbour Solicitation for an address of the port: its source and target. -/
def nsIn (s : State) (cp : Nat) (f : List Byte) : Option (List Byte × List Byte) :=
  (ip6In f 58).bind fun (src, dst, p) =>
    let target := slice p 8 16
    if 24 ≤ p.length && fld p 0 1 = 135 && fld p 1 1 = 0 && fld (afterEth f) 7 1 = 255
        && csumWords (pseudo6 src dst p.length 58 ++ p) = 0xFFFF && (ownAddrs s cp).contains target then some (src, target)
    else none

/-- The Neighbour Advertisement that answers it, to the request's source MAC with the same tag; all nodes where the
source is unspecified (RFC 4861, PRESUMED). -/
def nsAnswer (s : State) (cp : Nat) (f src target : List Byte) : State :=
  let d := draw s
  let none_ := zeros src
  let dst := if none_ then [0xFF, 0x02] ++ List.replicate 13 0 ++ [1] else src
  let na := fun (c : Nat) => [136, 0] ++ toBytes 2 c ++ toBytes 4 (if none_ then 0x20000000 else 0x60000000) ++ target
    ++ [2, 1] ++ toBytes 6 (ctlMac s cp)
  let p := na (csumOf (pseudo6 target dst 32 58 ++ na 0))
  ctlSend d.2 cp (slice f 6 6 ++ toBytes 6 (ctlMac s cp) ++ vlanOf f ++ [0x86, 0xDD] ++ ip6Header d.1 32 58 255 target dst ++ p)

/-! ## Reception (R335) -/

/-- A frame, its four FCS octets left out (assumption 16, DESIGN CHOICE), arrives at a control port. -/
def ctlRx (s : State) (cp : Nat) (f : List Byte) (fcsOk : Bool) : State :=
  if !(zatUp s && ctlLink s cp) then s
  else if !fcsOk then bump s (aZatCtr cp 2)
  else if 9216 < f.length + 4 then bump s (aZatCtr cp 3)
  else
    let s := cross s (105 + cp % 2) 256 (chunks 256 f)
    match (if zatUdp s then nsIn s cp f else none) with
    | some (src, target) => nsAnswer (bump s (aZatCtr cp 0)) cp f src target
    | none => match decap s cp f with
      | none => bump s (aZatCtr cp 4)
      | some (e, b) => match parseMsg b with
        | none => bump s (aZatCtr cp 5)
        | some m => msgRx s e m

/-- A raw frame without a tag to the port, from `peer`. -/
def rawFrame (s : State) (cp : Nat) (peer msg : List Byte) : List Byte := toBytes 6 (ctlMac s cp) ++ peer ++ [0x88, 0xB5] ++ msg

/-- The HELLO message of R339. -/
def helloMsg : List Byte := zatMsg none 0 0 0 0 0 0 [⟨1, 0, 0, 0, []⟩]

/-- The message is that of an AUTH frame. -/
def isAuth (msg : List Byte) : Bool := match parseMsg msg with
  | some m => (match m.txns with | [t] => t.op == 2 && m.session != 0 && m.seq == 0 | _ => false)
  | none => false

/-- CONTROL_FRAME_RECEIVE (R335). -/
def execControlFrameReceive (cp : Nat) (frame : List Byte) (fcsOk : Bool) (s : State) : Host.Outcome State Fault Refusal :=
  cmd (.controlFrameReceive cp frame fcsOk) s fun s => ctlRx s cp frame fcsOk
/-- ACK_ONLY_FRAME: a verified frame with TXN_COUNT 0, from where the session was heard last (R345). -/
def execAckOnlyFrame (session : Nat) (ack sack : W32) (s : State) : Host.Outcome State Fault Refusal :=
  cmd (.ackOnlyFrame session ack sack) s fun s =>
    let e := (sessOf s session).enc
    if isOpen s session && zatUp s && ctlLink s e.cp then heardFrom s e session ack.toNat sack.toNat else s
/-- NEIGHBOUR_SOLICITATION (R334). -/
def execNeighbourSolicitation (cp : Nat) (frame : List Byte) (s : State) : Host.Outcome State Fault Refusal :=
  cmd (.neighbourSolicitation cp frame) s fun s => if zatUdp s && (nsIn s cp frame).isSome then ctlRx s cp frame true else s
/-- HELLO: a raw frame that carries it (R339, assumption 21, DESIGN CHOICE). -/
def execHello (cp : Nat) (peer : List Byte) (s : State) : Host.Outcome State Fault Refusal :=
  cmd (.hello cp peer) s fun s => ctlRx s cp (rawFrame s cp peer helloMsg) true
/-- AUTH: a raw frame that carries it (R340, assumption 21, DESIGN CHOICE). -/
def execAuth (cp : Nat) (peer message : List Byte) (s : State) : Host.Outcome State Fault Refusal :=
  cmd (.auth cp peer message) s fun s => if isAuth message then ctlRx s cp (rawFrame s cp peer message) true else s

end Sys2Proof.Machine
end

