-- ==== Sys2Proof/Machine/ZatExec.lean ====
section
/-!
DEFINITION. The execution of a session's request frames, transaction by transaction, and their responses
(15_zatas_control_protocol.md R339, R346 to R349).
Log entries: 36.
-/
namespace Sys2Proof.Machine

open Sys2Proof

/-! ## One transaction (Table 15.7) -/

/-- An AUTH inside a session is the session's own AUTH frame, executed again while a stack has TRAIN_FAIL set, or an
error (R339, R345). -/
def opAuth (s : State) (n : Nat) (t : Txn) : Ran :=
  let own := match (sessOf s n).exec with | some e => e.seq == 0 && trainFailed s | none => false
  if own then .ok t (authData s (levelOf s n)) s else .fail t stOpcode s

/-- One transaction of a frame, by its op. -/
def runTxn (s : State) (n : Nat) (t : Txn) : Ran :=
  match t.op with
  | 0x02 => opAuth s n t
  | 0x03 => opPing s n t
  | 0x08 => opRead s n t
  | 0x09 => opWrite s n t
  | 0x0A => opRmw s n t
  | 0x0B => opBulkRead s n t
  | 0x0C => opBulkWrite s n t
  | 0x10 => opSnapshot s n t
  | 0x12 => opTable s n t
  | 0x13 => opFlow s n t
  | 0x20 => opDeal s n t
  | 0x21 => opCommit s n t
  | 0x28 => opFold s n t
  | 0x29 => opUnfold s n t
  | 0x30 => opSubscribe s n t
  | 0x31 => opUnsubscribe s n t
  | 0x38 => opExcept s n t
  | 0x39 => opInject s n t
  | 0x40 => opTime s n t
  | 0x48 => opResetReq s n t
  | _ => .fail t stOpcode s

/-! ## The room in a response (R348) -/

/-- The bound of a transaction's response data. -/
def dataBound (t : Txn) : Nat :=
  match t.op with
  | 0x01 => 32
  | 0x03 => if t.data.length ≤ 64 then t.data.length else 0
  | 0x0B => if t.data.length = 8 && bulkCount (ofBytes t.data) then ofBytes t.data else 0
  | 0x10 => 8192
  | 0x12 => 128
  | 0x13 => 264
  | 0x40 => if t.addr % 16 = 0 then 24 else 0
  | op => if [0x02, 0x08, 0x0A, 0x21, 0x28, 0x30, 0x38].contains op then 8 else 0

def responseBound (ts : List Txn) : Nat := (ts.map fun t => 16 + cdiv (dataBound t) 8 * 8).sum

/-! ## A frame (R346, R347) -/

/-- The frame executed next: the oldest one received in order. -/
def nextFrame (x : Session) : Option (Nat × Req) :=
  (x.rx.filter fun e => seqDiff e.1 x.next < 0).foldl
    (fun (b : Option (Nat × Req)) e => match b with
      | some y => if seqDiff y.1 x.next ≤ seqDiff e.1 x.next then b else some e
      | none => some e) none

/-- Take up the next frame; one whose response might not fit completes with TOO_BIG. -/
def beginFrame (s : State) (n : Nat) : State :=
  let x := sessOf s n
  match nextFrame x with
  | none => s
  | some (q, r) =>
    let big := frameRoom r.enc < responseBound r.txns
    let e : Exec := ⟨q, r.enc, r.flags, if big then r.txns.map fun t => txnRes t stTooBig t.addr [] else [],
      if big then [] else r.txns, none⟩
    setSess s n { x with rx := kdel x.rx q, exec := some e }

/-- The response leaves and is kept; an executed CLOSE frees the session. -/
def endFrame (s : State) (n : Nat) (e : Exec) : State :=
  let s := setSess s n { sessOf s n with exec := none }
  let msg := sessMsg s n 0 e.seq e.done
  let s := zatSend (keepResp s n e.seq msg) e.enc msg
  if bit e.flags 2 then closeSess s n else s

/-- STOP_ON_ERROR is set, and a transaction has completed with another STATUS than OK. -/
def stopped (e : Exec) : Bool := bit e.flags 3 && e.done.any fun r => r.status != stOk

/-- The outcome of a transaction of the frame that session `n` executes. -/
def noteDone (s : State) (n : Nat) (r : TxnRes) : State :=
  let x := sessOf s n
  setSess s n { x with exec := x.exec.map fun e => { e with done := e.done ++ [r] } }

/-- Run the rest of the frame until it ends or a transaction waits; `k` bounds its transactions. -/
def runFrame (k : Nat) (s : State) (n : Nat) : State :=
  match (sessOf s n).exec with
  | none => s
  | some e => match e.rest, k with
    | [], _ => endFrame s n e
    | _ :: _, 0 => s
    | t :: rest, j + 1 =>
      let s := setSess s n { sessOf s n with exec := some { e with rest := rest } }
      if stopped e then runFrame j (noteDone s n (txnRes t stSkipped t.addr [])) n
      else match runTxn s n t with
        | .done st a d s => if isOpen s n then runFrame j (noteDone s n (txnRes t st a d)) n else s
        | .waits w s =>
          let r := keepWait s n false t w
          let x := sessOf r.2 n
          setSess r.2 n { x with exec := x.exec.map fun e => { e with wait := some r.1 } }

/-- FRAME_EXECUTE: begin the session's next frame, or go on with the one whose transaction has completed. -/
def frameExec (s : State) (n : Nat) : State :=
  if !isOpen s n then s
  else match (sessOf s n).exec with
    | some e => if e.wait.isSome then s else runFrame (e.rest.length + 1) s n
    | none => runFrame 65 (beginFrame s n) n

/-- FRAME_EXECUTE (R346). -/
def execFrameExecute (session : Nat) (s : State) : Host.Outcome State Fault Refusal :=
  cmdDeck (.frameExecute session) s fun s => frameExec s session

end Sys2Proof.Machine
end

