-- ==== Sys2Proof/Machine/Dispatch.lean ====
section
/-!
DEFINITION. One arm for each command of the block: what each does is its own definition in a family file.
-/
namespace Sys2Proof.Machine

open Sys2Proof

/-- The effect of a command on everything but the queue. -/
def exec (i : Instr) (s : State) : Host.Outcome State Fault Refusal :=
  match i with
  | .controlFrameReceive cp frame fcsOk => Sys2Proof.Machine.execControlFrameReceive cp frame fcsOk s
  | .ackOnlyFrame session ack sack => Sys2Proof.Machine.execAckOnlyFrame session ack sack s
  | .ackOnlySend session => Sys2Proof.Machine.execAckOnlySend session s
  | .frameExecute session => Sys2Proof.Machine.execFrameExecute session s
  | .challengeTimeout session => Sys2Proof.Machine.execChallengeTimeout session s
  | .sessionIdleTimeout session => Sys2Proof.Machine.execSessionIdleTimeout session s
  | .neighbourSolicitation cp frame => Sys2Proof.Machine.execNeighbourSolicitation cp frame s
  | .hello cp peer => Sys2Proof.Machine.execHello cp peer s
  | .auth cp peer message => Sys2Proof.Machine.execAuth cp peer message s
  | .ping session data => Sys2Proof.Machine.execPing session data s
  | .read session addr => Sys2Proof.Machine.execRead session addr s
  | .write session addr value => Sys2Proof.Machine.execWrite session addr value s
  | .rmw session addr mask value => Sys2Proof.Machine.execRmw session addr mask value s
  | .bulkRead session addr count => Sys2Proof.Machine.execBulkRead session addr count s
  | .bulkWrite session addr data => Sys2Proof.Machine.execBulkWrite session addr data s
  | .snapshot session group => Sys2Proof.Machine.execSnapshot session group s
  | .tableRead session kind index data => Sys2Proof.Machine.execTableRead session kind index data s
  | .tableWrite session kind index data => Sys2Proof.Machine.execTableWrite session kind index data s
  | .tableInsert session kind index data => Sys2Proof.Machine.execTableInsert session kind index data s
  | .tableDelete session kind index data => Sys2Proof.Machine.execTableDelete session kind index data s
  | .flowRead session data => Sys2Proof.Machine.execFlowRead session data s
  | .flowReadIndex session index => Sys2Proof.Machine.execFlowReadIndex session index s
  | .flowInsert session data => Sys2Proof.Machine.execFlowInsert session data s
  | .flowUpdate session data => Sys2Proof.Machine.execFlowUpdate session data s
  | .flowDelete session data => Sys2Proof.Machine.execFlowDelete session data s
  | .flowKeepSet session data => Sys2Proof.Machine.execFlowKeepSet session data s
  | .flowKeepClear session data => Sys2Proof.Machine.execFlowKeepClear session data s
  | .deal session offset data => Sys2Proof.Machine.execDeal session offset data s
  | .dealCommitVerify session source => Sys2Proof.Machine.execDealCommitVerify session source s
  | .dealCommitHot session source => Sys2Proof.Machine.execDealCommitHot session source s
  | .epochSwitch => Sys2Proof.Machine.execEpochSwitch s
  | .epochRetire => Sys2Proof.Machine.execEpochRetire s
  | .dealCommitRedeal session source => Sys2Proof.Machine.execDealCommitRedeal session source s
  | .fold session block unit all => Sys2Proof.Machine.execFold session block unit all s
  | .forcedFold session block unit all => Sys2Proof.Machine.execForcedFold session block unit all s
  | .foldComplete block unit => Sys2Proof.Machine.execFoldComplete block unit s
  | .unfold session block unit all => Sys2Proof.Machine.execUnfold session block unit all s
  | .subscribe session ring credits => Sys2Proof.Machine.execSubscribe session ring credits s
  | .unsubscribe session ring => Sys2Proof.Machine.execUnsubscribe session ring s
  | .except session ring credits => Sys2Proof.Machine.execExcept session ring credits s
  | .streamFrameSend ring => Sys2Proof.Machine.execStreamFrameSend ring s
  | .injectParse session port frame => Sys2Proof.Machine.execInjectParse session port frame s
  | .injectQueue session queue frame => Sys2Proof.Machine.execInjectQueue session queue frame s
  | .timeRead session => Sys2Proof.Machine.execTimeRead session s
  | .timeSet session seconds ns frac => Sys2Proof.Machine.execTimeSet session seconds ns frac s
  | .timeUnlock session => Sys2Proof.Machine.execTimeUnlock session s
  | .timeLeap session second action => Sys2Proof.Machine.execTimeLeap session second action s
  | .resetReqL2 session => Sys2Proof.Machine.execResetReqL2 session s
  | .resetReqL3 session => Sys2Proof.Machine.execResetReqL3 session s
  | .powerOnReset facts => Sys2Proof.Machine.execPowerOnReset facts s
  | .railFail rail pulse => Sys2Proof.Machine.execRailFail rail pulse s
  | .pinReset facts => Sys2Proof.Machine.execPinReset facts s
  | .hostWdogExpire facts => Sys2Proof.Machine.execHostWdogExpire facts s
  | .hostWdogKick session => Sys2Proof.Machine.execHostWdogKick session s
  | .hostWdogPeriod session period => Sys2Proof.Machine.execHostWdogPeriod session period s
  | .debugReset toL2 facts => Sys2Proof.Machine.execDebugReset toL2 facts s
  | .l2Reset facts => Sys2Proof.Machine.execL2Reset facts s
  | .l3Reset => Sys2Proof.Machine.execL3Reset s
  | .clockBad clock facts => Sys2Proof.Machine.execClockBad clock facts s
  | .clockGood clock => Sys2Proof.Machine.execClockGood clock s
  | .lanePllUnlock half => Sys2Proof.Machine.execLanePllUnlock half s
  | .timeRefLoss => Sys2Proof.Machine.execTimeRefLoss s
  | .kittySave trigger micros => Sys2Proof.Machine.execKittySave trigger micros s
  | .thermtrip => Sys2Proof.Machine.execThermtrip s
  | .tempSample core hbm0 hbm1 hbm2 hbm3 => Sys2Proof.Machine.execTempSample core hbm0 hbm1 hbm2 hbm3 s
  | .peakClear session => Sys2Proof.Machine.execPeakClear session s
  | .kittyMirror => Sys2Proof.Machine.execKittyMirror s
  | .kittySummary => Sys2Proof.Machine.execKittySummary s
  | .errorLogWrite log => Sys2Proof.Machine.execErrorLogWrite log s
  | .keptReinsert => Sys2Proof.Machine.execKeptReinsert s
  | .macFrameReceive port frame fin => Sys2Proof.Machine.execMacFrameReceive port frame fin s
  | .pfcReceive port enable quanta => Sys2Proof.Machine.execPfcReceive port enable quanta s
  | .pauseReceive port quanta => Sys2Proof.Machine.execPauseReceive port quanta s
  | .pauseExpire port cls => Sys2Proof.Machine.execPauseExpire port cls s
  | .flowControlSend port => Sys2Proof.Machine.execFlowControlSend port s
  | .pfcRepeat port => Sys2Proof.Machine.execPfcRepeat port s
  | .linkUp port => Sys2Proof.Machine.execLinkUp port s
  | .linkDown port => Sys2Proof.Machine.execLinkDown port s
  | .autonegRestart port => Sys2Proof.Machine.execAutonegRestart port s
  | .laneGroupStart group => Sys2Proof.Machine.execLaneGroupStart group s
  | .bringupGo session => Sys2Proof.Machine.execBringupGo session s
  | .laneTestWrite session lane value => Sys2Proof.Machine.execLaneTestWrite session lane value s
  | .prbsInject session lane => Sys2Proof.Machine.execPrbsInject session lane s
  | .eyeScanStart session lane value => Sys2Proof.Machine.execEyeScanStart session lane value s
  | .eyeScanDone lane errors => Sys2Proof.Machine.execEyeScanDone lane errors s
  | .portCtlWrite session port value => Sys2Proof.Machine.execPortCtlWrite session port value s
  | .macTransmit port underrun => Sys2Proof.Machine.execMacTransmit port underrun s
  | .parseTake hand => Sys2Proof.Machine.execParseTake hand s
  | .walkState hand vec => Sys2Proof.Machine.execWalkState hand vec s
  | .deferredCheck hand vec => Sys2Proof.Machine.execDeferredCheck hand vec s
  | .slowPathItem hand => Sys2Proof.Machine.execSlowPathItem hand s
  | .microwordIssue dealer => Sys2Proof.Machine.execMicrowordIssue dealer s
  | .stageHandoff dealer => Sys2Proof.Machine.execStageHandoff dealer s
  | .matchLookup dealer ctx slot => Sys2Proof.Machine.execMatchLookup dealer ctx slot s
  | .poolLookup dealer ctx slot => Sys2Proof.Machine.execPoolLookup dealer ctx slot s
  | .shuffleLookup dealer ctx => Sys2Proof.Machine.execShuffleLookup dealer ctx s
  | .lookupResult dealer ctx slot poison => Sys2Proof.Machine.execLookupResult dealer ctx slot poison s
  | .lookupTimeout dealer ctx slot => Sys2Proof.Machine.execLookupTimeout dealer ctx slot s
  | .watchdogFire dealer ctx => Sys2Proof.Machine.execWatchdogFire dealer ctx s
  | .lookup dealer ctx suit => Sys2Proof.Machine.execLookup dealer ctx suit s
  | .lookupCreate dealer ctx suit out => Sys2Proof.Machine.execLookupCreate dealer ctx suit out s
  | .lookupCreateSyn dealer ctx suit out => Sys2Proof.Machine.execLookupCreateSyn dealer ctx suit out s
  | .flowOpRead dealer ctx => Sys2Proof.Machine.execFlowOpRead dealer ctx s
  | .flowOpWrite dealer ctx suit field out => Sys2Proof.Machine.execFlowOpWrite dealer ctx suit field out s
  | .flowOpAdd dealer ctx suit field out => Sys2Proof.Machine.execFlowOpAdd dealer ctx suit field out s
  | .flowOpOr dealer ctx suit field out => Sys2Proof.Machine.execFlowOpOr dealer ctx suit field out s
  | .fsmStep dealer ctx suit out => Sys2Proof.Machine.execFsmStep dealer ctx suit out s
  | .touch dealer ctx suit => Sys2Proof.Machine.execTouch dealer ctx suit s
  | .flowOpDelete dealer ctx suit => Sys2Proof.Machine.execFlowOpDelete dealer ctx suit s
  | .pin dealer ctx suit => Sys2Proof.Machine.execPin dealer ctx suit s
  | .keepSet dealer ctx suit => Sys2Proof.Machine.execKeepSet dealer ctx suit s
  | .keepClear dealer ctx suit => Sys2Proof.Machine.execKeepClear dealer ctx suit s
  | .lookupIndex dealer ctx suit out => Sys2Proof.Machine.execLookupIndex dealer ctx suit out s
  | .scan dealer ctx suit => Sys2Proof.Machine.execScan dealer ctx suit s
  | .flowOpInsert dealer ctx suit => Sys2Proof.Machine.execFlowOpInsert dealer ctx suit s
  | .relocate dealer ctx suit => Sys2Proof.Machine.execRelocate dealer ctx suit s
  | .writeback dealer ctx suit => Sys2Proof.Machine.execWriteback dealer ctx suit s
  | .taskPost dealer ctx suit field out => Sys2Proof.Machine.execTaskPost dealer ctx suit field out s
  | .taskCancel dealer ctx out => Sys2Proof.Machine.execTaskCancel dealer ctx out s
  | .fetchComplete line poison => Sys2Proof.Machine.execFetchComplete line poison s
  | .snapFetchComplete line poison => Sys2Proof.Machine.execSnapFetchComplete line poison s
  | .stockReentry hand => Sys2Proof.Machine.execStockReentry hand s
  | .insertWindowRoll bank => Sys2Proof.Machine.execInsertWindowRoll bank s
  | .scanTaskPost => Sys2Proof.Machine.execScanTaskPost s
  | .matchMove => Sys2Proof.Machine.execMatchMove s
  | .matchScrub bad => Sys2Proof.Machine.execMatchScrub bad s
  | .delayListTick list => Sys2Proof.Machine.execDelayListTick list s
  | .taskDispatch => Sys2Proof.Machine.execTaskDispatch s
  | .listCfgWrite session list value => Sys2Proof.Machine.execListCfgWrite session list value s
  | .cellCut hand => Sys2Proof.Machine.execCellCut hand s
  | .stagingFill hand => Sys2Proof.Machine.execStagingFill hand s
  | .planeMatch plane hdr => Sys2Proof.Machine.execPlaneMatch plane hdr s
  | .cellArrive pot hand => Sys2Proof.Machine.execCellArrive pot hand s
  | .cellRelease pot hand => Sys2Proof.Machine.execCellRelease pot hand s
  | .reseqTimeout pot hand => Sys2Proof.Machine.execReseqTimeout pot hand s
  | .tmSelect pot => Sys2Proof.Machine.execTmSelect pot s
  | .shaperCfg session value => Sys2Proof.Machine.execShaperCfg session value s
  | .queueCfgWrite session queue word value => Sys2Proof.Machine.execQueueCfgWrite session queue word value s
  | .policerCfgWrite session policer word value => Sys2Proof.Machine.execPolicerCfgWrite session policer word value s
  | .tmSweep => Sys2Proof.Machine.execTmSweep s
  | .sampleBoundary group => Sys2Proof.Machine.execSampleBoundary group s
  | .ppsEdge phase => Sys2Proof.Machine.execPpsEdge phase s
  | .todSentence sentence => Sys2Proof.Machine.execTodSentence sentence s
  | .holdoverEnter => Sys2Proof.Machine.execHoldoverEnter s
  | .holdoverOut => Sys2Proof.Machine.execHoldoverOut s
  | .leapInstant => Sys2Proof.Machine.execLeapInstant s
  | .ppsOutEdge output => Sys2Proof.Machine.execPpsOutEdge output s
  | .todOut => Sys2Proof.Machine.execTodOut s
  | .ptpMessageDue port unicast announce => Sys2Proof.Machine.execPtpMessageDue port unicast announce s
  | .txStampReturn octet => Sys2Proof.Machine.execTxStampReturn octet s
  | .unicastExpiry entry => Sys2Proof.Machine.execUnicastExpiry entry s
  | .launchRelease queue => Sys2Proof.Machine.execLaunchRelease queue s
  | .gateChange list => Sys2Proof.Machine.execGateChange list s
  | .gateListStart list => Sys2Proof.Machine.execGateListStart list s
  | .hbmCommandIssue pc err => Sys2Proof.Machine.execHbmCommandIssue pc err s
  | .hbmRefresh stack => Sys2Proof.Machine.execHbmRefresh stack s
  | .hbmScrub stack err => Sys2Proof.Machine.execHbmScrub stack err s
  | .retrain session value => Sys2Proof.Machine.execRetrain session value s
  | .retrainDone lanes => Sys2Proof.Machine.execRetrainDone lanes s
  | .grainWrite session second value => Sys2Proof.Machine.execGrainWrite session second value s
  | .hbmHwClear session => Sys2Proof.Machine.execHbmHwClear session s
  | .confLatch session => Sys2Proof.Machine.execConfLatch session s
  | .nowSLatch session => Sys2Proof.Machine.execNowSLatch session s
  | .xqHwClear session => Sys2Proof.Machine.execXqHwClear session s
  | .walkHwClear session => Sys2Proof.Machine.execWalkHwClear session s
  | .stockHwClear session => Sys2Proof.Machine.execStockHwClear session s
  | .levelHwClear session level => Sys2Proof.Machine.execLevelHwClear session level s
  | .vkeyCommit session slot level => Sys2Proof.Machine.execVkeyCommit session slot level s
  | .vkeyClear session slot => Sys2Proof.Machine.execVkeyClear session slot s
  | .counterWrite session addr value => Sys2Proof.Machine.execCounterWrite session addr value s
  | .registerWrite session addr value => Sys2Proof.Machine.execRegisterWrite session addr value s
  | .ringItemWrite ring item => Sys2Proof.Machine.execRingItemWrite ring item s
  | .exportPeriod => Sys2Proof.Machine.execExportPeriod s
  | .packetSample hand => Sys2Proof.Machine.execPacketSample hand s
  | .dumpCapture engine => Sys2Proof.Machine.execDumpCapture engine s
  | .controlLinkUp cp => Sys2Proof.Machine.execControlLinkUp cp s
  | .controlLinkDown cp => Sys2Proof.Machine.execControlLinkDown cp s
  | .timeRefReturn => Sys2Proof.Machine.execTimeRefReturn s

end Sys2Proof.Machine
end

