-- ==== Sys2Proof/Machine/Step.lean ====
section
/-!
DEFINITION. One step of the part: the command at the front of the queue, or one CK_CORE clock on an empty queue.
Log entries: 1.
-/
namespace Sys2Proof.Machine

open Sys2Proof

/-- Take the front command, run it with the queue's rest; on an empty queue one clk passes (assumption 1, DESIGN CHOICE). -/
def step (s : State) : Host.Outcome State Fault Refusal :=
  match s.pending with
  | [] => .next (tickAll s)
  | c :: rest => exec c { s with pending := rest }

/-- The command a table word spells is put at the front of the queue; the table gives its rows no bits, so no word
spells one (assumption 14, DESIGN CHOICE). -/
def State.withFetchWord (s : State) (nbits w : Nat) : State :=
  match decodeTableWord nbits w with
  | some c => { s with pending := c :: s.pending }
  | none => s

end Sys2Proof.Machine
end

