-- ==== Sys2Proof/Safety.lean ====
section
/-!
DEFINITION. The words the statements use: what every state of the part keeps, who may send a transaction, and what a
transaction answers.
-/
namespace Sys2Proof.Machine

open Sys2Proof

/-- What every step keeps: flash and MRAM are in canonical form (addresses strictly rising, no byte listed that reads
0x00 anyway), and the fuse array has words, keys and fields of their widths. -/
def State.stores (s : State) : Prop := s.flash.wf = true ∧ s.mram.wf = true ∧ okFuses s.fuses = true

/-- Session `n` is OPEN at level `lvl` or above (R342, Table 15.4). -/
def ready (s : State) (n lvl : Nat) : Prop := okSession n = true ∧ isOpen s n = true ∧ lvl ≤ levelOf s n

/-- The state after a transaction of session `n` has answered: op, ADDRESS, STATUS and response data (Table 15.3). -/
def answer (s : State) (n op addr status : Nat) (data : List Byte) : State :=
  { s with sent := s.sent ++ [.response n ⟨op, 0, status, addr, data⟩] }

/-- Trick `t` runs in context `c` of dealer `d` and waits for nothing (R68, R69). -/
def running (s : State) (d c : Nat) (t : Trick) : Prop :=
  okDealer d = true ∧ okCtx c = true ∧ trickAt s d c = some t ∧ t.ended = false ∧ t.wait = none ∧ t.mwait = none

/-- Port `p` as negotiation stands with no link: Clause 73 runs where the port negotiates and its lanes have started, and
a failed negotiation still shows (R104, R115). -/
def anSettled (s : State) (p : Nat) : PortState :=
  let x := portOf s p
  if x.up then x
  else { x with anState := if portStarted s p && portAn s p then (if x.anState = 3 then 3 else 1) else 0 }

/-- A task that the host posts now is dispatched at once: no L3 holds the pipeline, a handle and a context are free for it, nothing was dispatched
in this clk, and no task is READY or has been granted its suit (R230, R234). Suits that tasks hold are held by live ones. -/
def hostRuns (s : State) : Prop :=
  ksorted s.tasks = true ∧ kcount s.tasks 0 poolHandles < poolHandles ∧ ksorted s.tricks = true
  ∧ (tricksOf s (takeDealer s)).length < 256 ∧ held s = false ∧ s.lastDisp ≠ some s.clk
  ∧ (∀ e ∈ s.tasks, isReentry e.2 = true ∨ (e.2.state ≠ .ready ∧ suitGranted s e = false))
  ∧ ∀ e ∈ s.suits, ∀ h, e.2.holder = some (.task h) → khas s.tasks h = true

/-- `t` is `s` but for what requests to the HBM controller change: it and its counters, the marks of its errors, the
return queues, and the free values drawn. -/
def SameButHbm (s t : State) : Prop :=
  t = { s with regs := t.regs, hbmc := t.hbmc, sets := t.sets, xq := t.xq, high := t.high, fresh := t.fresh }

/-- `t` is `s` but for what requests to the HBM controller change and the bytes of the window. -/
def SameButWin (s t : State) : Prop :=
  t = { s with regs := t.regs, hbmc := t.hbmc, sets := t.sets, xq := t.xq, high := t.high, fresh := t.fresh, hbm := t.hbm }

/-- Every stored word but the counters of the HBM controller is the same. -/
def SameRegsButHbm (s t : State) : Prop := ∀ a, (∀ st k, st < 4 → k < 5 → a ≠ aHbmCtr st k) → ∀ d, regRaw t a d = regRaw s a d

/-- The flash read of a DEAL_COMMIT from state `s` fails: a free value (assumption 32). -/
def flashFails (s : State) : Bool := (draw s).1 % 2 == 1

/-- `t` is `s` after a DEAL_COMMIT of session `n` from flash source `src` that was rejected with record `f` (R56, R58). -/
def commitRejected (s t : State) (n src : Nat) (f : FailRec) : Prop :=
  t.deck = { s.deck with fail := { f with source := if f.source = 3 then 3 else src - 1 }, failSticky := true, stagedOk := false, owner := none }
  ∧ t.sent = s.sent ++ [.response n ⟨0x21, 0, stRejected, 0, toBytes 8 (failReg t)⟩] ∧ t.cold = s.cold ∧ t.hot0 = s.hot0 ∧ t.hot1 = s.hot1

end Sys2Proof.Machine
end

