-- ==== Sys2Proof/Certificates/Slice0/Obligations.lean ====
section
/-!
DEFINITION. The statements about the part, each from the numbered rules of the spec that its docstring names. A clause that rests on a
choice of the model says so with the log entry; all of them are about the commands of the block and its state, none about a program.
-/

open Sys2Proof Sys2Proof.Machine

/-- A step runs the command at the front of the queue. For every command c and state s with c at the front of its queue,
step of s is exec of c on s with the queue's rest. [98_reader.md, 00_scope.md] -/
def Obligations.AStepRunsTheFrontCommand : Prop :=
  ∀ (s : State) (c : Instr) (rest : List Instr), s.pending = c :: rest → step s = exec c { s with pending := rest }

/-- On an empty queue a step is one CK_CORE clock. With an empty queue step answers a next state one clk later with the
stores as they were. Where no gate change and no generated message waits, no second of CK_CORE ends and no held
pipeline is released, the timebase advances with CK_TIME, five sixteenths of CK_CORE, while its monitor reads good,
and otherwise only performance accounts, samples, refreshes and what their items write change. That the clock is the
empty queue's step is the model's choice (assumption 1). [R290, R326, R377, R378] -/
def Obligations.AnEmptyQueueLetsOneClockPass : Prop :=
  ∀ (s : State), s.pending = [] → ∃ t, step s = .next t ∧ t.pending = [] ∧ t.clk = s.clk + 1
    ∧ t.fuses = s.fuses ∧ t.flash = s.flash ∧ t.mram = s.mram ∧ t.cold = s.cold
    ∧ (s.coreTime = [] → s.time.genDue = [] → ¬ (s.clk + 1) % 1600000000 = 0 → s.clk + 1 ≠ s.rst.heldTill →
      (bit s.rst.good 6 = false → t.time = s.time)
      ∧ (bit s.rst.good 6 = true → s.time.phase16 < 11 → t.time = { s.time with phase16 := s.time.phase16 + 5 })
      ∧ (bit s.rst.good 6 = true → 11 ≤ s.time.phase16 → t.time = { s.time with
          phase16 := s.time.phase16 - 11, base := s.time.base + (2 * (2 ^ 48 + s.time.rate)).toNat })
      ∧ t.xq = []
      ∧ t = { s with clk := t.clk, time := t.time, regs := t.regs, sets := t.sets, hbm := t.hbm, hbmc := t.hbmc, rings := t.rings, tasks := t.tasks,
                     order := t.order, high := t.high, xq := t.xq, fresh := t.fresh, postHeld := t.postHeld, lastDisp := t.lastDisp,
                     perfCnt := t.perfCnt, perfLast := t.perfLast })

/-- Every command completes, and keeps the queue, the clock and the flash. For every command and state exec answers a next
state with the same queue of waiting commands, the same clock count and the same flash; a command whose operands lie
outside the part's numbering changes nothing (assumption 7). [R27, R67, R97, R339] -/
def Obligations.EveryCommandCompletes : Prop :=
  ∀ (c : Instr) (s : State), ∃ t, exec c s = .next t ∧ t.pending = s.pending ∧ t.clk = s.clk ∧ t.flash = s.flash
    ∧ (c.wellFormed = false → t = s)

/-- Fuses and MRAM change in power, reset and save commands alone; cold segments in these and in applications of a deck. A
next state has the fuse array and the MRAM of the state before, unless the command is POWER_ON_RESET, PIN_RESET,
HOST_WDOG_EXPIRE, DEBUG_RESET, L2_RESET, CLOCK_BAD, RAIL_FAIL or KITTY_SAVE; and the cold segments, unless it is one
of these or a redeal, an L3, a WATCHDOG_FIRE or a frame that a session executes. [R59, R388, R391, R403, R404, R405] -/
def Obligations.StoresOutsideTheRunningPartAreKept : Prop :=
  ∀ (c : Instr) (s t : State), exec c s = .next t →
    ((match c with
      | .powerOnReset _ | .pinReset _ | .hostWdogExpire _ | .debugReset _ _ | .l2Reset _ | .clockBad _ _ | .railFail _ _ | .kittySave _ _ => false
      | _ => true) = true → t.fuses = s.fuses ∧ t.mram = s.mram)
    ∧ ((match c with
      | .powerOnReset _ | .pinReset _ | .hostWdogExpire _ | .debugReset _ _ | .l2Reset _ | .clockBad _ _ | .railFail _ _ | .kittySave _ _
      | .dealCommitRedeal _ _ | .resetReqL3 _ | .l3Reset | .watchdogFire _ _ | .frameExecute _ => false
      | _ => true) = true → t.cold = s.cold)

/-- State.reset is the part in its power-on reset. In State.reset no command waits, RST.SEQ is step 1, RST.CAUSE shows the
power-on source, no deck is applied, the time unit is in FREE_RUN with VALID 0, saves are disarmed, no session is
open, no port has a link, FLOW is not folded, the kitty reads zero, and every stored register reads the reset value
that its table names. That kitty bytes read zero before a restore is assumption 2's choice. [R384, R390, R400, R404,
Table 17.2, Table 17.11, Table 13.2] -/
def Obligations.PowerOnLeavesThePartEmpty : Prop :=
  State.reset.pending = [] ∧ State.reset.rst.step = 1 ∧ State.reset.rst.cause = 1 ∧ State.reset.deck.phase = .empty
    ∧ State.reset.time.state = .freeRun ∧ State.reset.time.valid = false ∧ State.reset.keep.armed = false
    ∧ (∀ n, sessOf State.reset n = Session.free) ∧ (∀ p, (portOf State.reset p).up = false) ∧ State.reset.rst.foldFlow = .open_
    ∧ (∀ a, memGet State.reset.kitty a = 0) ∧ (∀ a d, regRaw State.reset a d = d)

/-- Every step keeps the form of flash, MRAM and fuse array. For every state whose flash and MRAM are in canonical form
(addresses strictly rising, no blank byte listed) and whose fuse array holds words, keys and fields of their widths, a
step that answers a next state gives a state with the same property. [R51, R341, R391, R403, R404, R405] -/
def Obligations.TheStoresKeepTheirForm : Prop :=
  ∀ (s t : State), s.stores → step s = .next t → t.stores

/-- State.reset has the form that every step keeps. State.reset satisfies the invariant of TheStoresKeepTheirForm. [R51,
R391, R403] -/
def Obligations.TheStoresHaveTheirFormAtReset : Prop :=
 State.reset.stores

/-- Address and alignment errors are reported in the order of R27, with no effect. A READ, WRITE, RMW, BULK_READ or
BULK_WRITE whose address lies in an unassigned block or at or beyond 0x8018_0000_0000 completes with the address
error; a misaligned one in a register block with the alignment error, whether or not the offset is assigned; an
aligned one at an unassigned offset with the address error. The only change is the response. [R27] -/
def Obligations.AddressErrorsAreReportedInOrder : Prop :=
  ∀ (s : State) (n a e count : Nat) (value mask : W64) (data : List Byte), ready s n 2 → a < 2 ^ 48 → bulkCount count = true →
    bulkCount data.length = true →
    ((blockRows (a / 2 ^ 40) = none ∧ a / 2 ^ 40 ≠ 0x80 ∧ e = stAddress)
      ∨ (0x801800000000 ≤ a ∧ a / 2 ^ 40 = 0x80 ∧ e = stAddress)
      ∨ ((blockRows (a / 2 ^ 40)).isSome ∧ a % 8 ≠ 0 ∧ e = stAlignment)
      ∨ (a % 8 = 0 ∧ e = stAddress ∧ ∃ rows, blockRows (a / 2 ^ 40) = some rows ∧ rowFind rows a = none)) →
    exec (.read n a) s = .next (answer s n 0x08 a e [])
    ∧ exec (.write n a value) s = .next (answer s n 0x09 a e [])
    ∧ exec (.rmw n a mask value) s = .next (answer s n 0x0A a e [])
    ∧ exec (.bulkRead n a count) s = .next (answer s n 0x0B a e [])
    ∧ exec (.bulkWrite n a data) s = .next (answer s n 0x0C a e [])

/-- The levels that the TOP, RST and KEEP registers need. At OBSERVE each of these registers can be read; PEAK_CLEAR and
HOST_WDOG.KICK need OPERATE; writes to RST.CAUSE, RST.CTL and HOST_WDOG.PERIOD need PRIVILEGED, and a session at a
lower level gets the privilege error with no effect. [R424, R407] -/
def Obligations.AccessLevelsOfTopAndResetRegisters : Prop :=
  ∀ (s : State) (n a : Nat) (value : W64), ready s n 1 →
    (a ∈ [0x100, 0x108, 0x010000000000, 0x010000000008, 0x010000000010, 0x010000000018, 0x010000000020, 0x010000000028,
        0x010000000030, 0x010000000040, 0x010000000048, 0x010000000050, 0x020000000000, 0x020000000100, 0x020000000108] →
      ∃ w, exec (.read n a) s = .next (answer s n 0x08 a stOk (toBytes 8 w)))
    ∧ (levelOf s n = 1 → exec (.peakClear n) s = .next (answer s n 0x09 0x100 stPrivilege [])
        ∧ exec (.hostWdogKick n) s = .next (answer s n 0x09 0x010000000018 stPrivilege []))
    ∧ (2 ≤ levelOf s n → (∃ t, exec (.peakClear n) s = .next (answer t n 0x09 0x100 stOk []))
        ∧ ∃ t, exec (.hostWdogKick n) s = .next (answer t n 0x09 0x010000000018 stOk []))
    ∧ ((a = 0x010000000000 ∨ a = 0x010000000010 ∨ (a = 0x010000000018 ∧ value.toNat % 2 ^ 32 ≠ wdogPeriod s)) →
        (levelOf s n < 3 → exec (.registerWrite n a value) s = .next (answer s n 0x09 a stPrivilege []))
        ∧ (levelOf s n = 3 → ∃ t, exec (.registerWrite n a value) s = .next (answer t n 0x09 a stOk [])))

/-- Plain registers and counters: READ, WRITE, RMW and counting. A session at both levels of a plain register reads its
word; WRITE and REGISTER_WRITE store the value's writable bits, and RMW the value where MASK is 1 and the old bits
elsewhere, answering the old word. A counter's event adds one below the wrap and wraps to zero with STICKY;
COUNTER_WRITE stores the written 48 bits and clears STICKY only with CLEAR_STICKY. Nothing but the register and the
response changes. [R5, R6, R7, R349, R369] -/
def Obligations.PlainRegistersAndCountersAreReadAndWritten : Prop :=
  -- R5 to R7, R349
  (∀ (s : State) (n a m d old : Nat) (r : RegRow) (ix : List Nat) (value mask : W64), ready s n 2 →
      regPlace a = .ok (r, ix) → r.kind = .plain m d → r.rl ≤ levelOf s n → r.wl ≤ levelOf s n → old = regRaw s a d →
      exec (.read n a) s = .next (answer s n 0x08 a stOk (toBytes 8 old))
      ∧ exec (.write n a value) s = .next (answer (setReg s a (value.toNat &&& m)) n 0x09 a stOk [])
      ∧ exec (.registerWrite n a value) s = .next (answer (setReg s a (value.toNat &&& m)) n 0x09 a stOk [])
      ∧ exec (.rmw n a mask value) s = .next (answer
          (setReg s a (((value &&& mask) ||| (BitVec.ofNat 64 old &&& ~~~mask)).toNat &&& m)) n 0x0A a stOk (toBytes 8 old)))
  -- R369
  ∧ (∀ (s : State) (n a : Nat) (r : RegRow) (ix : List Nat) (value : W64),
      let old := regRaw s a 0
      let word := value.toNat % 2 ^ 48 + b2n (bit old 63 && !bit value.toNat 62) * 2 ^ 63
      (old % 2 ^ 48 + 1 < 2 ^ 48 → regRaw (bump s a) a 0 = old % 2 ^ 48 + 1 + b2n (bit old 63) * 2 ^ 63)
      ∧ (old % 2 ^ 48 = 2 ^ 48 - 1 → regRaw (bump s a) a 0 = 2 ^ 63)
      ∧ (ready s n 2 → regPlace a = .ok (r, ix) → r.kind = .counter → r.wl ≤ levelOf s n → noLaneWord a = false →
          exec (.counterWrite n a value) s = .next (answer (setReg s a word) n 0x09 a stOk [])))

/-- Read-only words, read-only windows and the HBM window. A write of a read-only word is answered OK and changes nothing;
a write of a read-only window is refused with the protection error. In the HBM window BULK_WRITE and WRITE store their
bytes where the status allows and leave every other byte; BULK_READ and READ answer the stored bytes, with POISON
where a touched sector is poisoned; writes into the host region from the task bodies up, and into the flow table while
FLOW is not folded, are refused. [R6, R26, R53, R226, R321, R327, R328, R349, R362, R364, R171] -/
def Obligations.WindowsAndReadOnlyWordsKeepTheirAccessRules : Prop :=
  -- R6, R364, R142, R171
  (∀ (s : State) (n a : Nat) (r : RegRow) (ix : List Nat) (value : W64), ready s n 2 → regPlace a = .ok (r, ix) →
      r.wl ≤ levelOf s n →
      (r.kind = .ro → exec (.registerWrite n a value) s = .next (answer s n 0x09 a stOk []))
      ∧ (r.kind = .window → exec (.registerWrite n a value) s = .next (answer s n 0x09 a stProtection [])))
  -- R26, R53, R226, R328, R349
  ∧ (∀ (s : State) (n off : Nat) (data : List Byte) (value : W64), ready s n 2 →
      (bulkCount data.length = true → windowStatus s true off data.length = stOk →
        ∃ t, exec (.bulkWrite n (hbmBase + off) data) s = .next (answer t n 0x0C (hbmBase + off) stOk [])
          ∧ SameButWin s t ∧ SameRegsButHbm s t
          ∧ memRead t.hbm off data.length = data
          ∧ ∀ b, (b < off ∨ off + data.length ≤ b) → memGet t.hbm b = memGet s.hbm b)
      ∧ (windowStatus s true off 8 = stOk →
        ∃ t, exec (.write n (hbmBase + off) value) s = .next (answer t n 0x09 (hbmBase + off) stOk [])
          ∧ SameButWin s t ∧ SameRegsButHbm s t
          ∧ memRead t.hbm off 8 = toBytes 8 value.toNat
          ∧ ∀ b, (b < off ∨ off + 8 ≤ b) → memGet t.hbm b = memGet s.hbm b))
  -- R26, R321, R327, R349
  ∧ (∀ (s : State) (n off count : Nat), ready s n 1 → s.hbmc.trained % 16 = 15 →
      let hit := fun (len : Nat) => s.hbmc.poison.any fun k => off < 32 * k + 32 && 32 * k < off + len
      (bulkCount count = true → windowStatus s false off count = stOk →
        ∃ t, exec (.bulkRead n (hbmBase + off) count) s
            = .next (answer t n 0x0B (hbmBase + off) (if hit count then stPoison else stOk) (memRead s.hbm off count))
          ∧ SameButHbm s t ∧ SameRegsButHbm s t)
      ∧ (windowStatus s false off 8 = stOk →
        ∃ t, exec (.read n (hbmBase + off)) s
            = .next (answer t n 0x08 (hbmBase + off) (if hit 8 then stPoison else stOk) (memRead s.hbm off 8))
          ∧ SameButHbm s t ∧ SameRegsButHbm s t))
  -- R26, R53, R226, R345
  ∧ (∀ (s : State) (n off a : Nat) (value mask : W64) (data : List Byte), ready s n 2 → trainFailed s = false →
      a = hbmBase + off → off + 8 ≤ hbmBytes →
      ((0x17EB800000 ≤ off ∧ off < 0x1800000000)
        ∨ (s.rst.foldFlow ≠ .folded ∧ fgF s 13 1 * 2 ^ 32 ≤ off ∧ off < (fgF s 13 1 + 2) * 2 ^ 32)) →
      exec (.write n a value) s = .next (answer s n 0x09 a stProtection [])
      ∧ exec (.rmw n a mask value) s = .next (answer s n 0x0A a stProtection [])
      ∧ (bulkCount data.length = true → exec (.bulkWrite n a data) s = .next (answer s n 0x0C a stProtection [])))

/-- PING, the clearing of high-water marks, and the latching reads. PING answers its data of at most 64 bytes and refuses
longer data. Each clear of a high-water mark sets it to the present occupancy. Reading CONF's or TIME's latching
register latches its group, and the CONF read starts a new window. [R8, R29, R43, R142, R198, R242, R318, R333, R349,
R424] -/
def Obligations.PingMarksAndLatches : Prop :=
  -- R349, Table 15.7
  (∀ (s : State) (n : Nat) (data : List Byte), ready s n 0 →
      exec (.ping n data) s = .next (if data.length ≤ 64 then answer s n 0x03 0 stOk data else answer s n 0x03 0 stMalformed []))
  -- R29, R142, R198, R242, R333, R424
  ∧ (∀ (s : State) (n : Nat), ready s n 2 →
      (∀ q, q = regRaw s 0x280000000100 0 % 256 → q < 143 →
        exec (.xqHwClear n) s = .next (answer { s with high := kset s.high q (xqOcc s q) } n 0x09 0x280000000108 stOk []))
      ∧ (∀ h, h = regRaw s 0x0C0000000000 0 % 32 →
        exec (.walkHwClear n) s = .next (answer { s with walkHw := kset s.walkHw h (walksBusy s h) } n 0x09 0x0C0000000008 stOk []))
      ∧ exec (.stockHwClear n) s
        = .next (answer { s with high := kset s.high hwStock s.stock.length } n 0x09 0x110000000000 stOk [])
      ∧ (∀ l, l < 8 → exec (.levelHwClear n l) s
        = .next (answer { s with high := kset s.high (hwLevel l) (levelDepth s l) } n 0x09 (0x140000000040 + 8 * l) stOk []))
      ∧ (∀ k, k = regRaw s 0x200000000028 0 % 4 → exec (.hbmHwClear n) s
        = .next (answer { s with hbmc := { s.hbmc with high := kset s.hbmc.high k (min 512 (stackReqs s k)) } } n 0x09 0x200000000030 stOk []))
      ∧ exec (.peakClear n) s = .next (answer { s with peak := nth s.temps 0 0 } n 0x09 0x100 stOk []))
  -- R8, R43, R318
  ∧ (∀ (s : State) (n : Nat), ready s n 1 →
      (∀ t, t = setReg s 0x280000000208 ((regRaw s 0x280000000208 0 + 1) % 2 ^ 32) →
        exec (.confLatch n) s = .next (answer { t with latchConf := confWords t, conf := { Conf.reset with since := nowNs s, hot := s.conf.hot } }
          n 0x08 0x280000000208 stOk (toBytes 8 ((regRaw s 0x280000000208 0 + 1) % 2 ^ 32))))
      ∧ exec (.nowSLatch n) s = .next (answer
          { s with latchTime := [BitVec.ofNat 64 (nowSReg s), BitVec.ofNat 64 (nowNsReg s)] }
          n 0x08 0x1C0000000008 stOk (toBytes 8 (nowSReg s % 2 ^ 64))))

/-- Host watchdog writes restart the count; volatile key slots are loaded and cleared. KICK restarts the watchdog at the
present PERIOD and PERIOD at the written one; a session below PRIVILEGED that would change PERIOD gets the privilege
error. COMMIT of a volatile slot takes the staged key and level, and LEVEL 0 or CLEAR empties the slot (COMMIT with
LEVEL 0: assumption 36). [R385, R407, R341, Table 15.13] -/
def Obligations.WatchdogAndVolatileKeyCommands : Prop :=
  -- R385, R407
  (∀ (s : State) (n : Nat) (period : W32), ready s n 2 →
      let restart := fun v => { setReg s 0x010000000018 v with rst := { s.rst with wdogClk := s.clk } }
      exec (.hostWdogKick n) s = .next (answer (restart (wdogPeriod s)) n 0x09 0x010000000018 stOk [])
      ∧ (levelOf s n = 3 → exec (.hostWdogPeriod n period) s
          = .next (answer (restart period.toNat) n 0x09 0x010000000018 stOk []))
      ∧ (levelOf s n < 3 → period.toNat ≠ wdogPeriod s →
          exec (.hostWdogPeriod n period) s = .next (answer s n 0x09 0x010000000018 stPrivilege []))
      ∧ (levelOf s n < 3 → period.toNat = wdogPeriod s →
          exec (.hostWdogPeriod n period) s = .next (answer s n 0x09 0x010000000018 stOk [])))
  -- R341, Table 15.13
  ∧ (∀ (s : State) (n v : Nat), ready s n 3 → 8 ≤ v → v < 16 →
      let at_ := 0x240000002020 + (v - 8) * 0x40
      (∀ lvl keys, 1 ≤ lvl → lvl < 4 →
        keys = kset s.zat.vkeys (v - 8) ⟨kgetD s.zat.staged (v - 8) (List.replicate 32 0), lvl⟩ →
        exec (.vkeyCommit n v lvl) s = .next (answer { s with zat := { s.zat with vkeys := keys } } n 0x09 at_ stOk []))
      ∧ exec (.vkeyCommit n v 0) s
        = .next (answer { s with zat := { s.zat with vkeys := kdel s.zat.vkeys (v - 8) } } n 0x09 at_ stOk [])
      ∧ exec (.vkeyClear n v) s
        = .next (answer { s with zat := { s.zat with vkeys := kdel s.zat.vkeys (v - 8) } } n 0x09 at_ stOk []))

/-- Lane tests, eye scans, lane groups and port control. A lane test takes effect on an idle lane and is stored otherwise;
an injected bit error counts where the lane checks its own looped-back pattern. An eye scan runs one point and ends
with its count, saturating. Lane groups start once each after BRINGUP, and the last one ends step 9. PORT.CTL writes
settle the lane tests of the port's octet, and SHUT takes a link down. [R114, R115, R116, R117, R118, Table 5.6, Table
5.7, Table 5.9, Table 17.4] -/
def Obligations.LanesGroupsAndPortControl : Prop :=
  -- R116
  (∀ (s : State) (n l v w : Nat) (value : W64), ready s n 2 → l < 256 →
      let on := laneIdle s l && w != 0
      let loop := on && bits w 3 0 != 0 && bits w 7 4 == bits w 3 0 && (bits w 9 8 == 1 || bits w 9 8 == 2)
      w = testWord s l v →
      ∀ u, u = { setReg s (aLane l + 8) (v % 2 ^ 10) with
        laneTest := if on then kset s.laneTest l (BitVec.ofNat 64 w) else kdel s.laneTest l } →
      (v = value.toNat → exec (.laneTestWrite n l value) s
        = .next (answer (if bit v 10 && loop then bump u (aLane l + 0x10) else u) n 0x09 (aLane l + 8) stOk []))
      ∧ (v = regRaw s (aLane l + 8) 0 → exec (.prbsInject n l) s
        = .next (answer (if loop then bump u (aLane l + 0x10) else u) n 0x09 (aLane l + 8) stOk [])))
  -- R117, Table 5.7
  ∧ (∀ (s : State) (n l e : Nat) (value : W64), l < 258 →
      (ready s n 2 → bit value.toNat 20 = true → exec (.eyeScanStart n l value) s
        = .next (answer (setReg (setReg s (aLane l + 0x18) (bits value.toNat 19 0)) (aLane l + 0x20) 0) n 0x09 (aLane l + 0x18) stOk []))
      ∧ (ready s n 2 → bit value.toNat 20 = false → exec (.eyeScanStart n l value) s
        = .next (answer (setReg s (aLane l + 0x18) (bits value.toNat 19 0)) n 0x09 (aLane l + 0x18) stOk []))
      ∧ (e < 2 ^ 40 → exec (.eyeScanDone l e) s = .next (setReg s (aLane l + 0x20) (2 ^ 63 + e)))
      ∧ (2 ^ 40 ≤ e → e < 2 ^ 41 → exec (.eyeScanDone l e) s = .next (setReg s (aLane l + 0x20) (2 ^ 63 + 2 ^ 62 + (2 ^ 40 - 1)))))
  -- R115, Tables 5.6, 17.4
  ∧ (∀ (s : State) (n g : Nat),
      (ready s n 2 → exec (.bringupGo n) s
        = .next (answer { s with rst := { s.rst with goHeld := false } } n 0x09 0x080000000000 stOk []))
      ∧ (hasDeck s = true → s.rst.goHeld = false → g < 16 → s.rst.groupsDue.contains g = true →
          ∀ due u, due = s.rst.groupsDue.filter (· != g) → u = { s with rst := { s.rst with groupsDue := due, groups := 16 - due.length } } →
          ∃ P, (∀ p, portOf { s with ports := P } p = if p / 16 = g then anSettled u p else portOf s p)
            ∧ ((s.rst.step ≠ 9 ∨ due ≠ []) → exec (.laneGroupStart g) s = .next { u with ports := P })
            ∧ (s.rst.step = 9 → due = [] → exec (.laneGroupStart g) s
              = .next { s with ports := P, rst := { s.rst with groupsDue := [], groups := 16, step := 15,
                                                               elapsed := (s.clk - s.rst.startClk) / 1600 % 2 ^ 32 } })))
  -- R114, R116, Table 5.9
  ∧ (∀ (s : State) (n p : Nat) (value : W64), ready s n 2 → p < 256 →
      let settles := fun (u : State) (tests : KMap W64) => ∀ l, kget tests l =
        if l / 8 = p / 8 then
          (if laneIdle u l && testReg u l != 0 then some (BitVec.ofNat 64 (testReg u l)) else none)
        else kget s.laneTest l
      (isPort s p = false → exec (.portCtlWrite n p value) s = .next (answer s n 0x09 (aPort p) stOk []))
      ∧ (isPort s p = true → bit value.toNat 1 = false → ∃ u tests P,
          u = setReg s (aPort p) (value.toNat % 4) ∧ settles u tests
          ∧ (∀ q, portOf { u with ports := P } q = if q = p then anSettled u p else portOf s q)
          ∧ exec (.portCtlWrite n p value) s = .next (answer { u with laneTest := tests, ports := P } n 0x09 (aPort p) stOk []))
      ∧ (isPort s p = true → bit value.toNat 1 = true → (portOf s p).up = true → (portOf s p).txq = [] → ∃ u tests down,
          down = { portOf s p with up := false, anState := 0, xoff := 0, paused := [] }
          ∧ u = { bump (setReg s (aPort p) (value.toNat % 4)) (aPortCtr p 34) with ports := kset s.ports p down }
          ∧ settles u tests
          ∧ exec (.portCtlWrite n p value) s = .next (answer { u with laneTest := tests } n 0x09 (aPort p) stOk [])))

/-- Writes of list ticks, shapers, queues and policers. A list tick is clamped and stored for its list's next boundary;
SHAPER_CFG sets a used shaper and is otherwise counted in CFG_REJECT; the words of the queue and policer windows are
written, rejected or ignored word by word, and a policer write fills its buckets. [R233, R277, R285, R289, Table 10.8] -/
def Obligations.SchedulerAndTrafficConfigurationWrites : Prop :=
  -- R233, Table 10.8
  (∀ (s : State) (n k : Nat) (value : W64), ready s n 2 → k < 16 →
      (k < 14 → exec (.listCfgWrite n k value) s = .next (answer
        { s with tickNew := kset s.tickNew k (max 1 (min 10000 (value.toNat % 2 ^ 14))) } n 0x09 (0x140000000100 + 8 * k) stOk []))
      ∧ (14 ≤ k → exec (.listCfgWrite n k value) s = .next (answer s n 0x09 (0x140000000100 + 8 * k) stOk [])))
  -- R277
  ∧ (∀ (s : State) (n rate burst level index : Nat) (value : W64), ready s n 2 →
      rate = bits value.toNat 20 0 → burst = bits value.toNat 36 21 →
      level = bits value.toNat 39 38 → index = bits value.toNat 55 40 →
      ((1600000 < rate ∨ shaperUsed s level index = false) → exec (.shaperCfg n value) s
        = .next (answer (bump s aCfgReject) n 0x09 0x1A0000000040 stOk []))
      ∧ (rate ≤ 1600000 → shaperUsed s level index = true →
          ∀ place tokens, place = (if level = 0 then aTmQueue index 0 else if level = 1 then aTmGroup index 0 else aTmPort index 0) →
          tokens = (if bit value.toNat 37 then Int.ofNat (burst * 64) * byteUnit else 0) →
          exec (.shaperCfg n value) s = .next (answer
            { setReg s place (rate + burst * 2 ^ 21) with shapers := kset s.shapers (shaperKey level index) ⟨tokens, s.clk⟩ }
            n 0x09 0x1A0000000040 stOk [])))
  -- R285, R289
  ∧ (∀ (s : State) (n k : Nat) (value : W64), ready s n 2 → k < 65536 →
      let done := fun t a => Host.Outcome.next (answer t n 0x09 a stOk [])
      let old := queueCfg s k
      let held := qDepth s k != 0 || inEgress s k
      (∀ w, w = 0 ∨ w = 3 → exec (.queueCfgWrite n k w value) s = done s (aTmQueue k w))
      ∧ (bits value.toNat 34 16 ≠ bits old 34 16 → held = true →
          exec (.queueCfgWrite n k 1 value) s = done (bump s aCfgReject) (aTmQueue k 1))
      ∧ ((bits value.toNat 34 16 = bits old 34 16 ∨ held = false) →
          exec (.queueCfgWrite n k 1 value) s = done (setReg s (aTmQueue k 1) (value.toNat % 2 ^ 36)) (aTmQueue k 1))
      ∧ exec (.queueCfgWrite n k 2 value) s = done (setReg s (aTmQueue k 2) (value.toNat % 2 ^ 34)) (aTmQueue k 2)
      ∧ (∀ w u full, w < 2 → u = setReg s (aTmPolicer k w) (value.toNat % 2 ^ (if w = 0 then 59 else 48)) →
          full = (polCbs u k * polUnit, polEbs u k * polUnit, s.clk) →
          exec (.policerCfgWrite n k w value) s = done { u with policers := kset s.policers k full } (aTmPolicer k w))
      ∧ exec (.policerCfgWrite n k 2 value) s = done s (aTmPolicer k 2)
      ∧ exec (.policerCfgWrite n k 3 value) s
        = done (setReg s (aTmPolicer k 3) (counterWord (regRaw s (aTmPolicer k 3) 0) value.toNat)) (aTmPolicer k 3))

/-- The HBM controller: its guarded registers, commands, refresh, scrub and retraining. GRAIN is written before the first
deal only, and with legal codes; RETRAIN needs FLOW folded and no retraining. A command issue serves the oldest
request of the next bank and counts or poisons its error; a refresh begins at its stack's count of the one counter and
is counted; the scrubber reads one unit and moves on, and an uncorrectable error poisons sectors of its unit (which
ones: assumption 48); a retraining stores its words, or keeps the lanes and records its failure when a lane's windows
are too narrow. [R320, R324, R326, R327, R328, R331] -/
def Obligations.HbmControllerAndItsRegisters : Prop :=
  -- R320, R331
  (∀ (s : State) (n a : Nat) (second : Bool) (value : W64), ready s n 3 → a = (if second then 0x200000000010 else 0x200000000008) →
      let done := fun t b st => Host.Outcome.next (answer t n 0x09 b st [])
      let codesOk := (List.range 12).all fun i => bits value.toNat (3 * i + 2) (3 * i) != 7
      (s.deck.dealt = true → exec (.grainWrite n second value) s = done s a stProtection)
      ∧ (s.deck.dealt = false → codesOk = false → exec (.grainWrite n second value) s = done s a stMalformed)
      ∧ (s.deck.dealt = false → codesOk = true →
          exec (.grainWrite n second value) s = done (regrain s (setReg s a (value.toNat % 2 ^ 36))) a stOk)
      ∧ (s.rst.foldFlow = .folded → s.hbmc.retrain = none →
          exec (.retrain n value) s = done
            { s with hbmc := { s.hbmc with retrain := if bit value.toNat 2 then some (value.toNat % 4) else none } } 0x200000000018 stOk)
      ∧ ((s.rst.foldFlow ≠ .folded ∨ s.hbmc.retrain ≠ none) → exec (.retrain n value) s = done s 0x200000000018 stBusy))
  -- R324, R326, R327, R328, R331
  ∧ (∀ (s : State) (pc st b : Nat) (r : HbmReq) (rest : List HbmReq) (lanes : List W64),
      (pc < 128 → st = pc / 32 → inRefresh s st = false → s.hbmc.retrain ≠ some st →
        nextBank s pc = some b → bankReqs s pc b = r :: rest →
        ∀ u reqs, reqs = (if rest = [] then kdel s.hbmc.reqs (pc * 48 + b) else kset s.hbmc.reqs (pc * 48 + b) rest) →
        u = { s with hbmc := { s.hbmc with reqs := reqs, lastBank := kset s.hbmc.lastBank pc b,
                                           columns := kset s.hbmc.columns pc ((kgetD s.hbmc.columns pc 0 + 1) % 23) } } →
        (r.done = true → exec (.hbmCommandIssue pc .clean) s = .next u)
        ∧ exec (.hbmCommandIssue pc .clean) s = .next (execReq u r)
        ∧ exec (.hbmCommandIssue pc .single) s = .next (bump (execReq u r) (aHbmCtr st 0))
        ∧ (r.done = false → exec (.hbmCommandIssue pc .double) s = .next (execReq (poisonSector u (r.addr / 32)) r))
        ∧ (r.done = true → exec (.hbmCommandIssue pc .double) s
          = .next (hbmUncorr (poisonSector u (r.addr / 32)) r.source (r.addr / 32))))
      ∧ (st < 4 → ∀ e, s.hbmc.epoch = some e → bit s.rst.good (1 + st) = true → (s.clk - e) % 6240 = 1560 * st →
          kget s.hbmc.refAt st ≠ some s.clk →
          exec (.hbmRefresh st) s = .next (bump { s with hbmc := { s.hbmc with refAt := kset s.hbmc.refAt st s.clk } } (aHbmCtr st 2)))
      ∧ (st < 4 → bit s.hbmc.trained st = true → ∀ u off next,
          next = (kgetD s.hbmc.scrub st 0 + 1) % stackUnits → off = scrubOff s st (kgetD s.hbmc.scrub st 0) →
          u = { s with hbmc := { s.hbmc with scrub := kset s.hbmc.scrub st next } } →
          exec (.hbmScrub st .clean) s = .next (readPiece u 114 off 64)
          ∧ exec (.hbmScrub st .single) s = .next (bump (readPiece u 114 off 64) (aHbmCtr st 0))
          ∧ exec (.hbmScrub st .double) s = .next (readPiece (badUnit u (off / 32)) 114 off 64))
      ∧ (lanes.length = 160 → s.hbmc.retrain = some st → ∀ bad u, bad = lanes.any (fun w => laneFails w.toNat) →
          u = { s with hbmc := { s.hbmc with retrain := none, retrainFail := setBits s.hbmc.retrainFail st st (b2n bad) } } →
          exec (.retrainDone lanes) s = .next (if bad then markSet u aHbmStatus (2 ^ (12 + st)) else putLanes u st lanes)))

/-- Timed-out sessions are freed; ACK-only frames acknowledge. A challenge or idle time-out frees a session in its state
with its rings, its deck staging and its waiting transactions, and changes nothing in another state. A received ACK-
only frame moves HACK forward and frees the responses it covers; an ACK-only frame is sent when an acknowledgement is
due or requests wait. [R343, R345, R353, R382, Table 15.4] -/
def Obligations.SessionsTimeOutAndAcknowledge : Prop :=
  -- R382, R353, Table 15.4
  (∀ (s : State) (n : Nat), okSession n = true →
      ∀ freed owner, owner = (if s.deck.owner = some n then none else s.deck.owner) →
        freed = { s with
          rings := kmap s.rings fun _ g => if g.reader = some n then { g with reader := none, credits := 0, part := 0 } else g,
          deck := { s.deck with owner := owner },
          zat := { s.zat with sessions := kdel s.zat.sessions n, waits := kfilter s.zat.waits fun _ w => w.session != n } } →
        ((sessOf s n).state = .challenged → exec (.challengeTimeout n) s = .next freed)
        ∧ ((sessOf s n).state = .opened → exec (.sessionIdleTimeout n) s = .next freed)
        ∧ ((sessOf s n).state ≠ .challenged → exec (.challengeTimeout n) s = .next s)
        ∧ ((sessOf s n).state ≠ .opened → exec (.sessionIdleTimeout n) s = .next s))
  -- R343, R345
  ∧ (∀ (s : State) (n : Nat) (x : Session) (ack sack : W32), okSession n = true → x = sessOf s n → x.state = .opened →
      (zatUp s = true → ctlLink s x.enc.cp = true → ∃ y,
        exec (.ackOnlyFrame n ack sack) s
          = .next { bump s (aZatCtr x.enc.cp 0) with zat := { s.zat with sessions := kset s.zat.sessions n y } }
        ∧ y = { x with lastClk := s.clk, sack := sack.toNat, hack := y.hack, kept := y.kept }
        ∧ (0 < seqDiff ack.toNat x.hack → y.hack = ack.toNat ∧ y.kept = kfilter x.kept fun q _ => 0 ≤ seqDiff q ack.toNat)
        ∧ (seqDiff ack.toNat x.hack ≤ 0 → y.hack = x.hack ∧ y.kept = x.kept))
      ∧ (x.enc.ip = none → (x.ackDue = true ∨ x.rx ≠ [] ∨ x.exec ≠ none) →
        ∀ f, f = x.enc.mac ++ toBytes 6 (ctlMac s x.enc.cp) ++ x.enc.vlan ++ [0x88, 0xB5] ++ sessMsg s n 0 0 [] →
        exec (.ackOnlySend n) s = .next (bump (cross
          { s with
            sent := s.sent ++ [.control x.enc.cp f],
            zat := { s.zat with sessions := kset s.zat.sessions n { x with ackDue := false } } }
          (107 + x.enc.cp % 2) 256 (chunks 256 f)) (aZatCtr x.enc.cp 1)))
      ∧ (x.ackDue = false → x.rx = [] → x.exec = none → exec (.ackOnlySend n) s = .next s))

/-- A control frame passes its checks in order, or is counted and dropped. On a control port whose link is up a raw frame
with a bad FCS, over length, with an unmatched address, malformed, of no session, with a bad tag, out of window, or
needing a deck before one is dealt, is counted in the counter of its first failing check and dropped; a frame that
passes is held under its SEQ, and its session notes who was heard. [R335, R343, R344, Table 15.1] -/
def Obligations.ControlFramesAreCheckedAndTakenIn : Prop :=
  ∀ (s : State) (cp : Nat) (f : List Byte) (fcs : Bool), cp < 2 →
    ((zatUp s && ctlLink s cp) = false → exec (.controlFrameReceive cp f fcs) s = .next s)
    ∧ (zatUp s = true → ctlLink s cp = true →
      (fcs = false → exec (.controlFrameReceive cp f fcs) s = .next (bump s (aZatCtr cp 2)))
      ∧ (fcs = true → 9212 < f.length → exec (.controlFrameReceive cp f fcs) s = .next (bump s (aZatCtr cp 3)))
      ∧ (fcs = true → f.length ≤ 9212 → zatUdp s = false → ∀ v, v = cross s (105 + cp % 2) 256 (chunks 256 f) →
        (rawIn cp f = none → exec (.controlFrameReceive cp f fcs) s = .next (bump v (aZatCtr cp 4)))
        ∧ (∀ e b, rawIn cp f = some (e, b) →
          (parseMsg b = none → exec (.controlFrameReceive cp f fcs) s = .next (bump v (aZatCtr cp 5)))
          ∧ (∀ m x, parseMsg b = some m → m.session ≠ 0 → x = sessOf s m.session →
            (x.state = .free → exec (.controlFrameReceive cp f fcs) s = .next (bump v (aZatCtr cp 6)))
            ∧ (x.state = .opened → tagOk x.ks m = false → exec (.controlFrameReceive cp f fcs) s = .next (bump v (aZatCtr cp 7)))
            ∧ (x.state = .opened → tagOk x.ks m = true → m.txns ≠ [] →
              ((frameWindow s : Int) ≤ seqDiff m.seq x.hack → exec (.controlFrameReceive cp f fcs) s = .next (bump v (aZatCtr cp 8)))
              ∧ (seqDiff m.seq x.hack < (frameWindow s : Int) →
                (hasDeck s = false → (m.txns.any fun t => !preDealOp t.op) = true →
                  exec (.controlFrameReceive cp f fcs) s = .next (bump v (aZatCtr cp 9)))
                ∧ (hasDeck s = true ∨ (m.txns.any fun t => !preDealOp t.op) = false → 0 ≤ seqDiff m.seq x.next → khas x.rx m.seq = false →
                  ∃ t y, exec (.controlFrameReceive cp f fcs) s = .next t ∧ sessOf t m.session = y ∧ y.rx = kset x.rx m.seq ⟨e, m.flags, m.txns⟩
                    ∧ y.next = passNext 257 y.rx x.next ∧ y.state = .opened ∧ y.enc = e ∧ y.lastClk = s.clk ∧ y.level = x.level ∧ y.ks = x.ks
                    ∧ y.exec = x.exec ∧ regRaw t (aZatCtr cp 0) 0 = regRaw (bump v (aZatCtr cp 0)) (aZatCtr cp 0) 0)))))))

/-- HELLO challenges the lowest free session; AUTH opens it or counts. A HELLO on a raw control port challenges the lowest
free session with a fresh NP and answers the fields of Table 15.7. An AUTH with a good key, level and tag opens the
session at that level and answers under the session key; another one frees the session and counts AUTH_FAIL. That the
lowest free session is taken is the model's choice (assumption 35); NP is a free value (assumption 3). [R339, R340,
R349, Table 15.7, Table 15.4] -/
def Obligations.HelloChallengesAndAuthOpensASession : Prop :=
  ∀ (s : State) (cp : Nat) (peer : List Byte), cp < 2 → peer.length = 6 → zatUp s = true → ctlLink s cp = true → zatUdp s = false →
    (∀ n, countSess s .challenged < 16 → 1 ≤ n → n ≤ maxSessions s → (sessOf s n).state = .free → (∀ m, 1 ≤ m → m < n → (sessOf s m).state ≠ .free) →
      ∃ t np, exec (.hello cp peer) s = .next t ∧ np.length = 16 ∧ (sessOf t n).state = .challenged ∧ (sessOf t n).np = np
        ∧ t.sent = s.sent ++ [.control cp (peer ++ toBytes 6 (ctlMac s cp) ++ [0x88, 0xB5] ++ zatMsg none 1 0 0 0 0 0
            [⟨1, 0, 0, 0, toBytes 2 n ++ [1] ++ toBytes 1 (deckStateCode s.deck.phase) ++ toBytes 2 (frameWindow s) ++ [0, 0]
              ++ toBytes 8 (chipId s) ++ np⟩])])
    ∧ (∀ msg m a n x ks, isAuth msg = true → parseMsg msg = some m → m.txns = [a] → msg.length ≤ 9198 → n = m.session → x = sessOf s n → x.state = .challenged →
      ks = sessionKey (keySlot s (fld a.data 0 1)).key n (fld a.data 1 1) (fld a.data 0 1) x.np (slice a.data 8 16) →
      (authOk s a = true → tagOk ks m = true → trainFailed s = false → ∃ t y, exec (.auth cp peer msg) s = .next t ∧ sessOf t n = y
        ∧ y.state = .opened ∧ y.level = fld a.data 1 1 ∧ y.slot = fld a.data 0 1 ∧ y.ks = ks ∧ y.next = 1 ∧ y.hack = 0
        ∧ y.enc = ⟨cp, peer, [], none⟩
        ∧ ∃ r, t.sent = s.sent ++ [.control cp (peer ++ toBytes 6 (ctlMac s cp) ++ [0x88, 0xB5] ++ r)] ∧ y.kept = kset x.kept 0 r
          ∧ r = zatMsg (some ks) 1 n 255 0 1 (sackOf { x with next := 1 })
              [⟨2, a.tag, 0, 0, toBytes 1 (fld a.data 1 1) ++ toBytes 1 (idleS s) ++ toBytes 2 256 ++ toBytes 4 0⟩])
      ∧ ((authOk s a && tagOk ks m) = false → ∃ t, exec (.auth cp peer msg) s = .next t ∧ kget t.zat.sessions n = none ∧ t.sent = s.sent
          ∧ regRaw t (aZatCtr cp 11) 0 = regRaw (bump s (aZatCtr cp 11)) (aZatCtr cp 11) 0))

/-- A neighbour solicitation is answered; a session's frame is executed. A solicitation of the part's address is answered
with an advertisement to its sender (RFC 4861; the free header fields are assumption 3). A frame of a session in order
is executed: a frame whose responses exceed the room answers TOO_BIG for every transaction, and a PING answers its
data; the response is sealed, sent and kept under its SEQ. [R334, R346, R347, R348, Table 15.7] -/
def Obligations.SolicitationsAnswersAndSessionFrames : Prop :=
  -- R334, RFC 4861
  (∀ (s : State) (cp : Nat) (f src target na : List Byte), cp < 2 → zatUp s = true → ctlLink s cp = true → zatUdp s = true → f.length ≤ 9212 →
      nsIn s cp f = some (src, target) → zeros src = false →
      na = [136, 0] ++ toBytes 2 (csumOf (pseudo6 target src 32 58 ++ ([136, 0] ++ toBytes 2 0 ++ toBytes 4 0x60000000 ++ target ++ [2, 1] ++ toBytes 6 (ctlMac s cp))))
        ++ toBytes 4 0x60000000 ++ target ++ [2, 1] ++ toBytes 6 (ctlMac s cp) →
      ∃ free v, v = cross (cross s (105 + cp % 2) 256 (chunks 256 f)) (107 + cp % 2) 256 (chunks 256 (slice f 6 6 ++ toBytes 6 (ctlMac s cp) ++ vlanOf f ++ [0x86, 0xDD] ++ ip6Header free 32 58 255 target src ++ na))
        ∧ exec (.neighbourSolicitation cp f) s = .next
        { bump (bump v (aZatCtr cp 0)) (aZatCtr cp 1) with
          fresh := s.fresh + 1,
          sent := s.sent ++ [.control cp (slice f 6 6 ++ toBytes 6 (ctlMac s cp) ++ vlanOf f ++ [0x86, 0xDD] ++ ip6Header free 32 58 255 target src ++ na)] })
  -- R346, R347, R348, Table 15.7
  ∧ (∀ (s : State) (n q : Nat) (x y : Session) (r : Req), okSession n = true → x = sessOf s n → x.state = .opened → x.exec = none →
      x.rx = [(q, r)] → seqDiff q x.next < 0 → r.enc.ip = none → bit r.flags 2 = false → trainFailed s = false →
      y = { x with rx := [], exec := none } →
      ∀ out, (out = r.txns.map (fun t => (⟨t.op, t.tag, stTooBig, t.addr, []⟩ : TxnRes)) ∧ frameRoom r.enc < responseBound r.txns
          ∨ (∃ tag data, data.length ≤ 64 ∧ r.txns = [⟨3, tag, 0, data⟩] ∧ out = [⟨3, tag, stOk, 0, data⟩])) →
        ∃ t msg, exec (.frameExecute n) s = .next t ∧ msg = zatMsg (some x.ks) 1 n (windowLeft s y) q x.next (sackOf y) out
          ∧ t.sent = s.sent ++ [.control r.enc.cp (r.enc.mac ++ toBytes 6 (ctlMac s r.enc.cp) ++ r.enc.vlan ++ [0x88, 0xB5] ++ msg)]
          ∧ sessOf t n = { y with kept := kset x.kept q msg })

/-- TABLE READ, WRITE, INSERT and DELETE of a match row. With a service context free, a host TABLE transaction on a row
runs at once (assumption 22): READ answers its item, DELETE removes it, WRITE stores an item that keeps the prefilter
and is refused with PREFILTER otherwise, INSERT queues a move and waits. [R149, R150, R151, R350, Table 15.8] -/
def Obligations.HostTableTransactionsActOnMatchRows : Prop :=
  ∀ (s : State) (n i : Nat) (b : List Byte), ready s n 2 → hasDeck s = true → hotBusy s = false → i < 131072 → hostRuns s →
    (∃ t, exec (.tableRead n 1 i []) s = .next t ∧ t.rows = s.rows
      ∧ t.sent = s.sent ++ [.response n ⟨0x12, 0, stOk, 0x10 + 256 * i, rowItem s i⟩])
    ∧ (∀ m, rowTable s i = some m →
      (∃ t, exec (.tableDelete n 1 i []) s = .next t ∧ t.rows = kdel s.rows i
        ∧ t.sent = s.sent ++ [.response n ⟨0x12, 0, stOk, 0x13 + 256 * i, []⟩])
      ∧ (b.length = 96 → fld b 0 4 = i → rowReservedOk b = true → rowMaskOk b = true →
        (preOk s (i / 2048) (itemRow s b).value (itemRow s b).mask = true → ∃ t, exec (.tableWrite n 1 i b) s = .next t ∧ t.rows = (putRow s i (itemRow s b)).rows
          ∧ t.sent = s.sent ++ [.response n ⟨0x12, 0, stOk, 0x11 + 256 * i, []⟩])
        ∧ (preOk s (i / 2048) (itemRow s b).value (itemRow s b).mask = false → ∃ t, exec (.tableWrite n 1 i b) s = .next t ∧ t.rows = s.rows
          ∧ t.sent = s.sent ++ [.response n ⟨0x12, 0, stPrefilter, 0x11 + 256 * i, []⟩])
        ∧ (s.moves = [] → ∃ t, exec (.tableInsert n 1 i b) s = .next t ∧ t.rows = s.rows ∧ t.sent = s.sent
          ∧ t.moves = [⟨s.zat.nextWait, m, i, none, itemRow s b⟩]
          ∧ kget t.zat.waits s.zat.nextWait = some ⟨n, true, tableTxn 2 1 i b, .matchMove⟩
          ∧ ∃ h k, kget t.tasks h = some k ∧ k.state = .running ∧ k.body = hostBody s)))

/-- Match inserts move rows; the scrubber reads; the dispatcher starts tasks. A match insert finds the nearest free row
and moves rows toward it one by one, or answers NO_ROOM, GROUP_FULL or PREFILTER; the scrubber goes on to the next row
and, on an error, removes the row and records it. The dispatcher starts the next task in a free service context, and
waits while none is free. [R93, R149, R152, R153, R155, R234, R237] -/
def Obligations.MatchInsertsScrubberAndDispatcher : Prop :=
  -- R149, R152, R153, R155
  (∀ (s : State),
      (s.moves = [] → exec .matchMove s = .next s)
      ∧ (∀ m rest w span, s.moves = m :: rest → kget s.zat.waits m.wait = some w → w.direct = true → span = (insertSpan s m.table m.at_).getD (0, 0) →
        (∀ h k, moveTask s m.wait = some (h, k) → kget s.tasks h = some k ∧ k.body.succ = none ∧ (∀ e ∈ s.suits, e.2.holder ≠ some (.task h))
          ∧ ∀ x, hostAt s h = some x → kget s.displaced (x / 256) = none) →
        let left := match (moveTask s m.wait).bind fun x => hostAt s x.1 with | some x => kdel s.tricks x | none => s.tricks
        let ends := fun (rows : KMap Row) (st : Nat) => ∃ t, exec .matchMove s = .next t ∧ t.rows = rows ∧ t.moves = rest ∧ t.tricks = left
          ∧ t.zat = { s.zat with waits := kdel s.zat.waits m.wait } ∧ t.sent = s.sent ++ [.response w.session ⟨w.txn.op, w.txn.tag, st, w.txn.addr, []⟩]
        (hotBusy s = true → ends s.rows stBusy)
        ∧ (hotBusy s = false →
          (m.hole = none → nearFree s span.1 span.2 m.at_ = none → ends s.rows (if blockGap s (m.at_ / 2048) = 0 then stNoRoom else stGroupFull))
          ∧ (∀ f, m.hole = none → nearFree s span.1 span.2 m.at_ = some f →
            (moveOk s f m.at_ m.row.value m.row.mask = true → exec .matchMove s = .next { s with moves := { m with hole := some f } :: rest })
            ∧ (moveOk s f m.at_ m.row.value m.row.mask = false → ends s.rows stPrefilter))
          ∧ (∀ f, m.hole = some f → f = (if m.at_ ≤ f then m.at_ else m.at_ - 1) → ends (putRow s f m.row).rows stOk)
          ∧ (∀ f src, m.hole = some f → f ≠ (if m.at_ ≤ f then m.at_ else m.at_ - 1) → src = (if m.at_ ≤ f then f - 1 else f + 1) →
              exec .matchMove s = .next { s with rows := (moveRow s src f).rows, moves := { m with hole := some src } :: rest })))
      ∧ exec (.matchScrub false) s = .next { s with scrubRow := (s.scrubRow + 1) % 131072 }
      ∧ (∃ t, exec (.matchScrub true) s = .next t ∧ t.scrubRow = (s.scrubRow + 1) % 131072 ∧ t.rows = kdel s.rows s.scrubRow
        ∧ regRaw t aRowErrLast 0 = ((rowTable s s.scrubRow).getD 0 % 128 + s.scrubRow * 2 ^ 7 + 2 ^ 63) % 2 ^ 64
        ∧ regRaw t aRowErr 0 % 2 ^ 48 = (regRaw s aRowErr 0 % 2 ^ 48 + 1) % 2 ^ 48))
  -- R234, R237, R93
  ∧ (∀ (s : State) (h d o : Nat) (x : Task), hasDeck s = true →
      (nextTask s = none ∨ s.lastDisp = some s.clk ∨ held s = true → exec .taskDispatch s = .next s)
      ∧ (nextTask s = some (h, x) → kget s.tasks h = some x → urgentDue (h, x) = false → (∀ n, x.kind ≠ .insert n) → (∀ n, x.kind ≠ .host n) → x.body.suit = none →
        d = takeDealer s → inTake s d = 0 → exec .taskDispatch s = .next s)
      ∧ (nextTask s = some (h, x) → kget s.tasks h = some x → urgentDue (h, x) = false → (∀ n, x.kind ≠ .insert n) → (∀ n, x.kind ≠ .host n) → x.body.suit = none →
        d = takeDealer s → held s = false → s.lastDisp ≠ some s.clk → (tricksOf s d).length < 256 → ksorted s.tricks = true → ksorted s.tasks = true → routineOff s (curSlot s) 7 x.body.routine = some o →
        ∃ t c y, exec .taskDispatch s = .next t ∧ kget t.tasks h = some { x with state := .running } ∧ trickAt s d c = none ∧ c < 256
          ∧ trickAt t d c = some y ∧ y.task = some h ∧ y.routine = x.body.routine ∧ y.slot = curSlot s ∧ y.ended = false
          ∧ y.pkt = svcKey d c))

/-- FLOW READ, READ_INDEX, UPDATE, DELETE, KEEP_SET and KEEP_CLEAR of a provisional record. On a record that stands
provisional in a cache line whose suit is free, READ and READ_INDEX answer it, KEEP_SET and KEEP_CLEAR set its KEEP
bit, UPDATE writes the words of its mask and answers the record, DELETE removes it; every other field of the line
stays but its use clock (assumption 22: a free context takes the task at once). [R175, R185, R188, R220, R351] -/
def Obligations.HostFlowTransactionsActOnARecord : Prop :=
  ∀ (s : State) (n z c : Nat) (key rest : List Byte) (l : Line) (info : Bool → List Byte) (words : List Byte), ready s n 2 → hasDeck s = true → s.rst.foldFlow = .open_ →
    hostRuns s → kget s.suits (lineSuit z) = none → z < 2 ^ 27 →
    findLine s (setOf s key) (digestOf s key) = some z → l = lineOf s z → l.lstate = .record → l.provisional = true →
    key = slice rest 0 (keyBytes s) → c = coreW s →
    (info = fun dirty => toBytes 4 (2 ^ 27 + z) ++ toBytes 1 (1 + b2n dirty * 2 + 4) ++ toBytes 3 0) →
    words = (l.words.take (tagW s)).flatMap (fun w => toBytes 4 w.toNat) ++ toBytes 4 0 →
    (rest.length = keyPad s → ∃ t, exec (.flowRead n rest) s = .next t ∧ lineOf t z = l
      ∧ t.sent = s.sent ++ [.response n ⟨0x13, 0, stOk, 0, info l.dirty ++ words⟩])
    ∧ (∃ t, exec (.flowReadIndex n (2 ^ 27 + z)) s = .next t ∧ lineOf t z = l
      ∧ t.sent = s.sent ++ [.response n ⟨0x13, 0, stOk, 1 + 256 * (2 ^ 27 + z), info l.dirty ++ words⟩])
    ∧ (∀ new, rest.length = keyPad s → new = setWord l.words c (setBits (wordOf l.words c) 14 14 1) →
      ∃ t, exec (.flowKeepSet n rest) s = .next t ∧ lineOf t z = { l with words := new, dirty := true }
        ∧ t.sent = s.sent ++ [.response n ⟨0x13, 0, stOk, 5, info true⟩])
    ∧ (∀ new, rest.length = keyPad s → new = setWord l.words c (setBits (wordOf l.words c) 14 14 0) →
      ∃ t, exec (.flowKeepClear n rest) s = .next t ∧ lineOf t z = { l with words := new, dirty := true }
        ∧ t.sent = s.sent ++ [.response n ⟨0x13, 0, stOk, 6, info true⟩])
    ∧ (∀ ws new, ws = maskWords (fld rest (keyPad s) 8) → ws ≠ [] → rest.length = keyPad s + 8 + 4 * ws.length → (∀ w ∈ ws, keyWords s ≤ w ∧ w < tagW s) →
      new = (enum 0 ws).foldl (fun old w => recEffect s ⟨false, 0, 0⟩ old (.word 5 w.2 (BitVec.ofNat 32 (fld rest (keyPad s + 8 + 4 * w.1) 4)))) l.words →
      ∃ t, exec (.flowUpdate n rest) s = .next t ∧ lineOf t z = { l with words := new, dirty := true }
        ∧ t.sent = s.sent ++ [.response n ⟨0x13, 0, stOk, 3, info true ++ (new.take (tagW s)).flatMap (fun w => toBytes 4 w.toNat) ++ toBytes 4 0⟩])
    ∧ (rest.length = keyPad s → timerBit s l.words = false → ∃ t, exec (.flowDelete n rest) s = .next t ∧ kget t.lines z = none
        ∧ t.sent = s.sent ++ [.response n ⟨0x13, 0, stOk, 4, info l.dirty⟩])

/-- FLOW INSERT of an absent key places its record. With a free way, a free bucket slot and room for a create, a host FLOW
INSERT writes its record to the slot's index, holds it in the line, clean and no longer provisional, and answers the
index. [R184, R185, R193, R351] -/
def Obligations.AHostFlowInsertPlacesItsRecord : Prop :=
  ∀ (s p : State) (n z i h : Nat) (key d : List Byte) (ws : List W32), ready s n 2 → hasDeck s = true → s.rst.foldFlow = .open_ →
    hostRuns s → flowWf s 2 (flowTxn 2 0 d) = true → key = slice d 0 (keyBytes s) → findLine s (setOf s key) (digestOf s key) = none →
    victim s (setOf s key) = some z → (lineOf s z).lstate = .free → z < 2 ^ 27 → kget s.suits (lineSuit z) = none → i < 2 ^ 27 → kget s.suits i = none →
    partPost s (hostBody s) (.host s.zat.nextWait) = some (h, p) → bit (regRaw (bump p aDispatched) aTskTrace 0) 0 = false →
    fetchFind (tagAt p) p key = .absent (some i) → tagAt p (i / slotsOf s) (i % slotsOf s) = 0 → tagPoison p key = false →
    recordPoison p (fetchVisits (tagAt p) p key (.absent (some i))) = false → p.hbmc.trained % 16 = 15 → inWindow s = false → ws = hostWords s key (d.drop (keyPad s)) →
    ∃ t x, exec (.flowInsert n d) s = .next t ∧ kget t.lines z = some x ∧ x.lstate = .record ∧ x.index = i ∧ x.provisional = false ∧ x.dirty = false
      ∧ x.words = lineHot s ws ∧ x.digest = digestOf s key
      ∧ ∃ data, t.sent = s.sent ++ [.response n ⟨0x13, 0, stOk, 2, toBytes 4 i ++ toBytes 1 1 ++ toBytes 3 0 ++ data⟩]

/-- TIME READ, SET, UNLOCK and LEAP. READ answers the timebase and TIME.STATUS; SET steps the timebase and enters HOST_SET
when the time is not valid or is unlocked, and answers TIME_LOCKED otherwise; UNLOCK needs PRIVILEGED; LEAP schedules,
cancels or refuses a leap second. [R295, R296, R297, R355, Table 13.2] -/
def Obligations.ASessionReadsSetsUnlocksAndLeapsTheTime : Prop :=
  ∀ (s : State) (n : Nat),
    (ready s n 1 → exec (.timeRead n) s = .next (answer s n 0x40 0 stOk
      (toBytes 6 (nowS s) ++ toBytes 4 (nowNs s % 10 ^ 9) ++ toBytes 2 (s.time.base / 2 ^ 32) ++ toBytes 4 0 ++ toBytes 8 (timeReg s))))
    ∧ (∀ sec ns fr, ready s n 2 → sec < 2 ^ 48 → ns < 10 ^ 9 → fr < 2 ^ 16 →
        (s.time.valid = false ∨ s.time.unlocked = true → ∃ t, exec (.timeSet n sec ns fr) s = .next t
          ∧ t.time.base = (sec * 10 ^ 9 + ns) * 2 ^ 48 + fr * 2 ^ 32 ∧ t.time.valid = true ∧ t.time.state = .hostSet ∧ t.time.steppedBy = 2
          ∧ t.time.unlocked = false ∧ t.time.utcOff = s.time.utcOff ∧ t.time.rate = s.time.rate ∧ t.sent = s.sent ++ [.response n ⟨0x40, 0, stOk, 1, []⟩])
        ∧ (s.time.valid = true → s.time.unlocked = false → exec (.timeSet n sec ns fr) s = .next (answer s n 0x40 1 stTimeLocked [])))
    ∧ (ready s n 3 → exec (.timeUnlock n) s = .next (answer { s with time := { s.time with unlocked := true } } n 0x40 2 stOk []))
    ∧ (ready s n 0 → levelOf s n < 3 → exec (.timeUnlock n) s = .next (answer s n 0x40 2 stPrivilege []))
    ∧ (∀ sec a, ready s n 2 → sec < 2 ^ 48 → a < 256 →
        (a = 0 → exec (.timeLeap n sec a) s = .next (answer { s with time := { s.time with pending := 0, leapAt := 0 } } n 0x40 3 stOk []))
        ∧ (1 ≤ a → a ≤ 2 → sec % 86400 = 0 → Int.ofNat (nowS s) - s.time.utcOff < Int.ofNat sec →
            exec (.timeLeap n sec a) s = .next (answer { s with time := { s.time with pending := a, leapAt := leapSecond s sec a } } n 0x40 3 stOk []))
        ∧ (3 ≤ a ∨ (1 ≤ a ∧ (sec % 86400 ≠ 0 ∨ Int.ofNat sec ≤ Int.ofNat (nowS s) - s.time.utcOff)) →
            exec (.timeLeap n sec a) s = .next (answer s n 0x40 3 stMalformed [])))

/-- Rings: subscribing, items, and stream frames. A ring has at most one reader, which adds credits by SUBSCRIBE or
EXCEPT, and leaves by UNSUBSCRIBE at once or after its started item (assumption 38). A written item enters the ring
after the oldest ones that must go, or counts LOST; behind an item still being written in a LENGTH_SLOT ring it waits
in its place. A stream frame carries the ring's oldest item to its reader for one credit. [R260, R261, R353, Table
15.9] -/
def Obligations.RingsHoldItemsAndStreamThem : Prop :=
  -- R261, R353, Table 15.9
  (∀ (s : State) (n r : Nat) (g : Ring), okRing r = true → g = ringOf s r →
      (∀ cr c, ready s n 1 → cr < 65536 → c = min 65535 (g.credits + cr) →
        (g.reader = none ∨ g.reader = some n →
          exec (.subscribe n r cr) s = .next (answer { s with rings := kset s.rings r { g with reader := some n, exc := false, credits := c } } n 0x30 r stOk
            (toBytes 8 (c + ringLost s r * 2 ^ 16)))
          ∧ exec (.except n r cr) s = .next (answer { s with rings := kset s.rings r { g with reader := some n, exc := true, credits := c } } n 0x38 r stOk
            (toBytes 8 (c + ringLost s r * 2 ^ 16))))
        ∧ (∀ m, g.reader = some m → m ≠ n →
          exec (.subscribe n r cr) s = .next (answer s n 0x30 r stBusy []) ∧ exec (.except n r cr) s = .next (answer s n 0x38 r stBusy [])))
      ∧ (ready s n 1 →
        (g.reader ≠ some n → exec (.unsubscribe n r) s = .next (answer s n 0x31 r stOk []))
        ∧ (g.reader = some n → g.part = 0 →
            exec (.unsubscribe n r) s = .next (answer { s with rings := kset s.rings r { g with reader := none, credits := 0 } } n 0x31 r stOk []))
        ∧ (g.reader = some n → g.part ≠ 0 → exec (.unsubscribe n r) s = .next { s with zat := { s.zat with
            waits := kset s.zat.waits s.zat.nextWait ⟨n, true, ⟨0x31, 0, r, []⟩, .unsub r⟩, nextWait := s.zat.nextWait + 1 } }))
      ∧ (∀ item room, item.length < 16384 → room = 2 ^ (ringCfg s r).log2 - g.waiting →
        (freeItems g.items g.part room item.length = none → exec (.ringItemWrite r item) s = .next (bump s (aRingLost r)))
        ∧ (∀ kept lost, freeItems g.items g.part room item.length = some (kept, lost) → ∃ t, exec (.ringItemWrite r item) s = .next t
            ∧ t.zat = s.zat ∧ t.sent = s.sent
            ∧ ((ringCfg s r).byLength = false ∨ g.slots = [] → (ringOf t r).items = kept ++ [(item, false)])
            ∧ ((ringCfg s r).byLength = true → g.slots ≠ [] → (ringOf t r).items = kept
              ∧ (ringOf t r).slots = g.slots ++ [⟨s.order, some (item, false)⟩]))))
  -- R353
  ∧ (∀ (s : State) (n r : Nat) (g : Ring) (x : Session) (item : List Byte) (p : Bool), okRing r = true → g = ringOf s r → x = sessOf s n →
      (g.reader = none → exec (.streamFrameSend r) s = .next s)
      ∧ (g.reader = some n → x.state = .opened → x.enc.ip = none → g.items = [(item, p)] → g.part = 0 → 16 + cdiv item.length 8 * 8 ≤ frameRoom x.enc →
          g.credits ≠ 0 → (∀ e ∈ s.zat.waits, e.2.what ≠ .unsub r) → ∃ t msg, exec (.streamFrameSend r) s = .next t
            ∧ msg = zatMsg (some x.ks) 3 n (windowLeft s x) x.stream x.next (sackOf x)
                [pieceTxn r g.exc (itemPoison s r g.head (item, p)) item 0 item.length]
            ∧ t.sent = s.sent ++ [.control x.enc.cp (x.enc.mac ++ toBytes 6 (ctlMac s x.enc.cp) ++ x.enc.vlan ++ [0x88, 0xB5] ++ msg)]
            ∧ (ringOf t r).items = [] ∧ (ringOf t r).credits = g.credits - 1 ∧ (ringOf t r).reader = some n
            ∧ sessOf t n = { x with stream := (x.stream + 1) % 2 ^ 32 }))

/-- FOLD, FORCE, completion and UNFOLD of intake, flow and pots. A fold of an open target starts it and waits; of a folded
one answers at once; a malformed target is refused. A forced fold of a pot discards the frame that waits in it and
counts it. A fold completes when its work has ended and answers the waiting transaction. UNFOLD returns a folded
target and is BUSY while it folds (assumption 33). [R269, R352, R396, R397, Table 17.6] -/
def Obligations.FoldsAndUnfolds : Prop :=
  -- R352, R396, R397, Table 17.6
  (∀ (s : State) (n b u : Nat), ready s n 2 → b < 256 → u < 32 →
      (foldWf b u false = false → exec (.fold n b u false) s = .next (answer s n 0x28 (foldAddr b u false false) stMalformed [])
        ∧ exec (.unfold n b u false) s = .next (answer s n 0x29 (foldAddr b u false false) stMalformed []))
      ∧ (b = 0x0C ∨ b = 0x19 → foldState s b u = .folded →
          exec (.fold n b u false) s = .next (answer s n 0x28 (foldAddr b u false false) stOk (toBytes 8 0)))
      ∧ (b = 0x19 → foldState s b u = .open_ → exec (.fold n b u false) s = .next { s with rst := { s.rst with foldPot := kset s.rst.foldPot u .folding }, zat := { s.zat with waits := kset s.zat.waits s.zat.nextWait ⟨n, true, ⟨0x28, 0, foldAddr b u false false, []⟩, .fold b u false false 0⟩, nextWait := s.zat.nextWait + 1 } })
      ∧ (b = 0x0C → foldState s b u = .open_ → ∃ t, exec (.fold n b u false) s = .next t ∧ t.rst = { s.rst with foldIntake := kset s.rst.foldIntake u .folding }
          ∧ t.rb = kdel s.rb u ∧ t.zat = { s.zat with waits := kset s.zat.waits s.zat.nextWait ⟨n, true, ⟨0x28, 0, foldAddr b u false false, []⟩, .fold b u false false 0⟩, nextWait := s.zat.nextWait + 1 }
          ∧ t.tricks = s.tricks ∧ t.pkts = s.pkts ∧ t.stock = s.stock ∧ (kgetD s.rb u [] = [] → t.occ = s.occ ∧ t.regs = s.regs))
      ∧ (b = 0x10 → s.rst.foldFlow = .open_ → exec (.fold n b u true) s = .next { s with rst := { s.rst with foldFlow := .folding }, zat := { s.zat with waits := kset s.zat.waits s.zat.nextWait ⟨n, true, ⟨0x28, 0, foldAddr b u true false, []⟩, .fold b u true false 0⟩, nextWait := s.zat.nextWait + 1 } })
      ∧ (b = 0x0C ∨ b = 0x19 → foldState s b u = .folding → exec (.unfold n b u false) s = .next (answer s n 0x29 (foldAddr b u false false) stBusy []))
      ∧ (b = 0x19 → foldState s b u = .folded → (∀ e ∈ s.zat.waits, e.2.what ≠ .inject) → exec (.unfold n b u false) s
          = .next (answer { s with rst := { s.rst with foldPot := kdel s.rst.foldPot u } } n 0x29 (foldAddr b u false false) stOk [])))
  -- R269, R352, R396, Table 17.6
  ∧ (∀ (s : State) (u : Nat), u < 32 →
      (∀ n q f a, ready s n 2 → a = foldAddr 0x19 u false true → foldState s 0x19 u = .open_ → s.queues.filter (fun e => e.1 / 2048 == u) = [(q, queueOf s q)] →
        (queueOf s q).frames = [f] → f.started = false → ∃ t, exec (.forcedFold n 0x19 u false) s = .next t ∧ (queueOf t q).frames = []
          ∧ t.rst = { s.rst with foldPot := kset s.rst.foldPot u .folding } ∧ t.regs = (bump s (aForcedDiscard u)).regs
          ∧ t.zat = { s.zat with waits := kset (kmap s.zat.waits fun _ w => joinForced w 0x19 [u] 1) s.zat.nextWait ⟨n, true, ⟨0x28, 0, a, []⟩, .fold 0x19 u false true 1⟩, nextWait := s.zat.nextWait + 1 })
      ∧ (∀ b, b = 0x0C ∨ b = 0x19 → foldState s b u = .folding → foldWorkEnded s b u = false → exec (.foldComplete b u) s = .next s)
      ∧ (foldState s 0x19 u = .folding → foldWorkEnded s 0x19 u = true → s.zat.waits = [] →
          exec (.foldComplete 0x19 u) s = .next { s with rst := { s.rst with foldPot := kset s.rst.foldPot u .folded } })
      ∧ (∀ id m x forced c, foldState s 0x19 u = .folding → foldWorkEnded s 0x19 u = true → s.zat.waits = [(id, ⟨m, true, x, .fold 0x19 u false forced c⟩)] →
          exec (.foldComplete 0x19 u) s = .next { s with rst := { s.rst with foldPot := kset s.rst.foldPot u .folded }, zat := { s.zat with waits := [] }, sent := s.sent ++ [.response m ⟨x.op, x.tag, stOk, x.addr, toBytes 8 c⟩] }))

/-- INJECT hands a frame to PARSE or to an egress queue. INJECT to PARSE without a deck answers NO_DECK, of a frame
outside its port's lengths MALFORMED, and otherwise puts the frame in its hand's buffer, or waits while PARSE is
folded or an L3 holds the pipeline. INJECT to a queue whose admission takes the frame puts it, whole and visible, in
that queue, and answers REFUSED when it does not; it too waits while the pipeline is held (assumption 34). [R257,
R354, Table 15.10] -/
def Obligations.InjectedFramesEnterParseOrAQueue : Prop :=
  ∀ (s : State) (n : Nat) (f : List Byte), ready s n 2 →
    (∀ p a, okPort p = true → a = p * 256 → 
      (hasDeck s = false → exec (.injectParse n p f) s = .next (answer s n 0x39 a stNoDeck []))
      ∧ (hasDeck s = true → (f.length < 60 ∨ maxFrame s p < f.length + 4 ∨ isPort s p = false) → exec (.injectParse n p f) s = .next (answer s n 0x39 a stMalformed []))
      ∧ (hasDeck s = true → 60 ≤ f.length → f.length + 4 ≤ maxFrame s p → isPort s p = true →
          (held s = false → foldOfHand s (p / 8) = .open_ → exec (.injectParse n p f) s = .next (answer (pushRb s (p / 8)
            { port := p, frame := f, fin := .good, cls := frameClass s p f, entries := 0, rxTime := nowNs s, inject := some n, clk := s.clk }) n 0x39 a stOk []))
          ∧ (held s = true ∨ foldOfHand s (p / 8) ≠ .open_ → exec (.injectParse n p f) s = .next { s with zat := { s.zat with
              waits := kset s.zat.waits s.zat.nextWait ⟨n, true, ⟨0x39, 0, a, f⟩, .inject⟩, nextWait := s.zat.nextWait + 1 } })))
    ∧ (∀ q a hdr u, okQueue q = true → a = 1 + q * 2 ^ 32 → hdr = injectHdr (curSlot s) q f.length 0 0 0 0 → hasDeck s = true → 60 ≤ f.length →
        f.length + 4 ≤ maxFrame s (queuePort s q) → isPort s (queuePort s q) = true →
        (held s = true → exec (.injectQueue n q f) s = .next { s with zat := { s.zat with
              waits := kset s.zat.waits s.zat.nextWait ⟨n, true, ⟨0x39, 0, a, f⟩, .inject⟩, nextWait := s.zat.nextWait + 1 } })
        ∧ (held s = false → injectFrame s q f hdr [] = (true, u) → (∀ g ∈ (queueOf s q).frames, g.id ≠ s.frameNo) → inTx s q s.frameNo = false →
          ∃ t g, exec (.injectQueue n q f) s = .next t ∧ t = answer u n 0x39 a stOk [] ∧ g ∈ (queueOf t q).frames ∧ g.id = s.frameNo
            ∧ g.bytes = f ∧ g.visible = true ∧ g.whole = true ∧ g.bad = false ∧ g.started = false)
        ∧ (held s = false → admitPot s q hdr = (none, u) → exec (.injectQueue n q f) s = .next (answer u n 0x39 a stRefused [])))

/-- DEAL writes the staging area, or answers why it does not. DEAL needs PRIVILEGED, refuses bad lengths, other owners and
bad offsets in that order (assumption 32), and otherwise completes: its bytes stand in the staging area, no other byte
of the window changes, the session owns the area, and the verification of what stood there no longer counts. [R53,
R54, R352] -/
def Obligations.DealWritesTheStagingArea : Prop :=
  ∀ (s : State) (n o : Nat) (data : List Byte), ready s n 0 → o < 2 ^ 48 →
    (levelOf s n < 3 → exec (.deal n o data) s = .next (answer s n 0x20 o stPrivilege []))
    ∧ (3 ≤ levelOf s n → (data.length < 8 ∨ 8192 < data.length → exec (.deal n o data) s = .next (answer s n 0x20 o stMalformed []))
      ∧ (8 ≤ data.length → data.length ≤ 8192 →
        (portRefused s n = true ∨ dealBusy s = true ∨ otherOwner s n = true → exec (.deal n o data) s = .next (answer s n 0x20 o stBusy []))
        ∧ (portRefused s n = false → dealBusy s = false → otherOwner s n = false →
          (o % 8 ≠ 0 ∨ data.length % 8 ≠ 0 ∨ 2 ^ 25 < o + data.length → exec (.deal n o data) s = .next (answer s n 0x20 o stAddress []))
          ∧ (o % 8 = 0 → data.length % 8 = 0 → o + data.length ≤ 2 ^ 25 → ∃ t, exec (.deal n o data) s = .next t
            ∧ memRead t.hbm (deckArea s true + o) data.length = data ∧ t.deck = { s.deck with stagedOk := false, owner := some n }
            ∧ (∀ a, a < deckArea s true + o ∨ deckArea s true + o + data.length ≤ a → memGet t.hbm a = memGet s.hbm a)
            ∧ t.sent = s.sent ++ [.response n ⟨0x20, 0, stOk, o, []⟩] ∧ t.zat = s.zat ∧ t.cold = s.cold ∧ t.hot0 = s.hot0 ∧ t.hot1 = s.hot1))))

/-- DEAL_COMMIT VERIFY and HOT complete with what the image asks for. DEAL_COMMIT VERIFY of the staged image answers
DECK.STATUS for an image that passes its checks, and otherwise records DECK.FAIL and answers it; HOT loads the other
epoch slot and waits for the switch, or records its failure and answers it; the current slot stays, and the staging
area has no owner once a commit has succeeded or failed. [R55, R56, R58, R61, R352] -/
def Obligations.CommitsVerifyTheStagedImageOrLoadTheOtherSlot : Prop :=
  ∀ (s u : State) (n : Nat) (x : Except FailRec Img), ready s n 3 → portRefused s n = false → dealBusy s = false → otherOwner s n = false →
    loadImage s (deckArea s true) s.deck.stagedOk = (u, x) →
    (∀ i, x = .ok i → ∃ t, exec (.dealCommitVerify n 0) s = .next t ∧ t.deck = { s.deck with stagedOk := true, owner := none }
      ∧ t.sent = s.sent ++ [.response n ⟨0x21, 0, stOk, 0, toBytes 8 (deckStatusReg t)⟩] ∧ t.cold = s.cold ∧ t.hot0 = s.hot0 ∧ t.hot1 = s.hot1 ∧ t.hbm = s.hbm)
    ∧ (∀ f, x = .error f → ∃ t, exec (.dealCommitVerify n 0) s = .next t
      ∧ t.deck = { s.deck with fail := { f with source := if f.source = 3 then 3 else 0 }, failSticky := true, owner := none }
      ∧ t.sent = s.sent ++ [.response n ⟨0x21, 0, stRejected, 0, toBytes 8 (failReg t)⟩] ∧ t.cold = s.cold ∧ t.hot0 = s.hot0 ∧ t.hot1 = s.hot1)
    ∧ (∀ i v, x = .ok i → hotFail u i = (v, none) → ∃ t, exec (.dealCommitHot n 0) s = .next t
      ∧ t.deck = { s.deck with phase := .hotPending, hot := some ⟨n, 0, fld i.hdr 0x18 4, fld i.hdr 0x10 8⟩ }
      ∧ t.zat = { s.zat with waits := kset s.zat.waits s.zat.nextWait ⟨n, true, ⟨0x21, 0, 0, toBytes 1 0 ++ toBytes 1 1 ++ toBytes 6 0⟩, .hot⟩, nextWait := s.zat.nextWait + 1 }
      ∧ t.sent = s.sent ∧ (curSlot s = false → t.hot0 = s.hot0) ∧ (curSlot s = true → t.hot1 = s.hot1) ∧ t.cold = s.cold)
    ∧ (∀ i v f, x = .ok i → hotFail u i = (v, some f) → ∃ t, exec (.dealCommitHot n 0) s = .next t
      ∧ t.deck = { s.deck with fail := { f with source := if f.source = 3 then 3 else 0 }, failSticky := true, owner := none }
      ∧ t.sent = s.sent ++ [.response n ⟨0x21, 0, stRejected, 0, toBytes 8 (failReg t)⟩] ∧ t.hot0 = s.hot0 ∧ t.hot1 = s.hot1)

/-- The epoch switch and the retirement of the old slot. The switch makes the loaded slot current, exchanges the deck
areas, counts the commit and answers the waiting commit; it moves no packet and discards the tokens that exceed the
new slot's BURST. The old slot retires when nothing in the part is of its epoch: its hot segments and its rows' valid
bits go. [R61, R62, R63, R65, R135] -/
def Obligations.EpochsSwitchInOneStepAndRetireWhenEmpty : Prop :=
  ∀ (s : State),
    (∀ h, s.deck.phase = .hotPending → s.deck.hot = some h → ∃ t, exec .epochSwitch s = .next t
      ∧ t.deck = { s.deck with phase := .retiring, retiring := true, switchClk := s.clk, current := !s.deck.current, upperActive := !s.deck.upperActive,
                               number := h.number, deckId := h.deckId, source := sourceCode h.source, commits := (s.deck.commits + 1) % 65536,
                               stagedOk := false, owner := none, hot := none }
      ∧ t.hot0 = s.hot0 ∧ t.hot1 = s.hot1 ∧ t.rows = s.rows ∧ t.tricks = s.tricks ∧ t.pkts = s.pkts
      ∧ t.buckets = kmap s.buckets (fun r b => (min b.1 (exceptF s (!curSlot s) r 6 1 * tokenUnit), b.2))
      ∧ (∀ id m x, s.zat.waits = [(id, ⟨m, true, x, .hot⟩)] → t.zat.waits = [] ∧ t.sent = s.sent ++ [.response m ⟨x.op, x.tag, stOk, x.addr, toBytes 8 (deckStatusReg t)⟩]))
    ∧ (s.deck.phase ≠ .hotPending → exec .epochSwitch s = .next s)
    ∧ (∀ e, e = !curSlot s → s.deck.phase = .retiring → slotBusy s e = false → (∀ x ∈ s.tricks, 224 ≤ x.1 / 256 → x.2.slot = e → x.2.committed = true) →
        ∃ t, exec .epochRetire s = .next t ∧ t.deck = { s.deck with phase := .active, retiring := false } ∧ t.tricks = s.tricks
          ∧ (if e then t.hot1 = [] ∧ t.hot0 = s.hot0 else t.hot0 = [] ∧ t.hot1 = s.hot1)
          ∧ t.rows = kfilter (kmap s.rows fun _ r => setV r e false) fun _ r => r.v0 || r.v1)
    ∧ (s.deck.phase = .retiring → slotBusy s (!curSlot s) = true → exec .epochRetire s = .next s)

/-- A redeal applies the staged deck to an empty pipeline. DEAL_COMMIT REDEAL of an image that passes leaves no packet,
task, suit or parked packet, holds the image's cold segments, reads REDEALING under its number and id until the
pipeline is released, waits with its answer until then, and keeps the queue of commands, the clock, fuses, MRAM and
flash. That it runs whole in its command, and that the pipeline then stays held for a free time, is assumption 23.
[R59, R60, R387] -/
def Obligations.ARedealAppliesTheStagedDeckToAnEmptyPipeline : Prop :=
  ∀ (s u : State) (n : Nat) (i : Img), ready s n 3 → portRefused s n = false → dealBusy s = false → otherOwner s n = false →
    loadImage s (deckArea s true) s.deck.stagedOk = (u, .ok i) →
    ∃ t, exec (.dealCommitRedeal n 0) s = .next t ∧ t.tricks = [] ∧ t.pkts = [] ∧ t.stock = [] ∧ t.tasks = [] ∧ t.suits = [] ∧ t.rb = []
      ∧ t.cold = (i.segs.filter fun x => !isHotSeg x).foldl (fun m x => kset m x.ty x.body) []
      ∧ t.deck.phase = .redealing ∧ t.deck.contract = coldF t tyContract 0 1 ∧ t.deck.number = fld i.hdr 0x18 4 ∧ t.deck.deckId = fld i.hdr 0x10 8
      ∧ t.deck.current = false ∧ t.deck.retiring = false ∧ t.deck.hot = none ∧ t.deck.source = 3 ∧ t.deck.dealt = true ∧ t.deck.stagedOk = false
      ∧ t.deck.owner ≠ some n ∧ ((∃ w, kget t.zat.waits w = some ⟨n, true, commitTxn 0 2, .release⟩) ∨ isOpen t n = false) ∧ t.pending = s.pending ∧ t.clk = s.clk ∧ t.fuses = s.fuses ∧ t.mram = s.mram ∧ t.flash = s.flash

/-- The release of the pipeline answers the redeal or the RESET_REQ that waited for it. On an empty queue, in the clk at
which the pipeline held by an L3 is released, the waiting redeal is answered OK with DECK.STATUS, which reads ACTIVE
again, and a RESET_REQ for L3 with OK; nothing waits any more, the pipeline is not held, and its packets and tricks,
the deck and the rest of the reset block are as they were. How long it is held is a free value, and that the clock is
the empty queue's step is a choice (assumptions 1 and 23). [R59, R352, R356] -/
def Obligations.TheReleaseOfThePipelineAnswersWhatWaitedForIt : Prop :=
  ∀ (s : State) (n w : Nat) (x : Txn), s.pending = [] → s.rst.heldTill = s.clk + 1 → s.coreTime = [] → s.time.genDue = [] →
    ¬ (s.clk + 1) % 1600000000 = 0 → s.zat.waits = [(w, ⟨n, true, x, .release⟩)] → x = commitTxn 0 2 ∨ x = ⟨0x48, 0, 3, []⟩ →
    ∃ t, step s = .next t ∧ t.clk = s.clk + 1 ∧ held t = false ∧ t.zat.waits = []
      ∧ t.deck = { s.deck with phase := if s.deck.phase = .redealing then .active else s.deck.phase }
      ∧ t.sent = s.sent ++ [.response n (txnRes x stOk x.addr (if x = commitTxn 0 2 then toBytes 8 (deckStatusReg t) else []))]
      ∧ t.tricks = s.tricks ∧ t.pkts = s.pkts ∧ t.suits = s.suits ∧ t.rb = s.rb ∧ t.cold = s.cold ∧ t.rst = s.rst

/-- A loss of power runs an L1; an armed save writes a valid image. RAIL_FAIL, and KITTY_SAVE with saves disarmed, leave
State.reset but for fuses, MRAM, flash, what has left the part and the model's own counters, with their source in
RST.CAUSE and RST.LAST. KITTY_SAVE with saves armed writes a header of the next SEQ and the kitty with its fence
record to the other MRAM image, and no other byte of the MRAM. What RST.CAUSE holds after an L1 is assumption 25.
[R383, R384, R393, R395, R398, R399, R400, R403, R404, R421] -/
def Obligations.PowerLossAndSaves : Prop :=
  -- R383, R384, R393, R398, R421
  (∀ (s : State) (rail : Rail) (pulse : Bool) (trigger : SaveTrigger) (micros : Nat) (u : Byte → Nat → Bool → State),
      (∀ cause src trip, u cause src trip = { State.reset with
        pending := s.pending, clk := s.clk, fresh := s.fresh, frameNo := s.frameNo, sent := s.sent, fuses := s.fuses, mram := s.mram,
        flash := s.flash, perfAt := s.clk,
        rst := { Rst.reset with cause := cause, lastLevel := 1, lastSrc := src, lastTime := now40 s, tripped := trip } }) →
      exec (.railFail rail pulse) s = .next (u 1 0 (s.rst.tripped && rail != .vddIo))
      ∧ (s.keep.armed = false → micros < 2 ^ 16 → exec (.kittySave trigger micros) s = .next (u 2 1 s.rst.tripped)))
  -- R395, R399, R400, R403, R404, Table 17.8, 17.10
  ∧ (∀ (s : State) (trigger : SaveTrigger) (micros : Nat), s.keep.armed = true → micros < 2 ^ 16 →
      ∃ t, exec (.kittySave trigger micros) s = .next t
        ∧ t.rst.step = 1 ∧ t.rst.lastLevel = 1 ∧ t.rst.lastSrc = 1 ∧ t.zat.sessions = [] ∧ t.fuses = s.fuses
        ∧ ∀ base h pay, base = mramBase (saveTarget s) → h = memRead t.mram base 64 →
          pay = memRead t.mram (base + 0x1000) kittyBytes →
          (hdrValid h = true ∧ fld h 4 1 = 1 ∧ hdrSeq h = nextSave s % 2 ^ 64 ∧ fld h 20 4 = crc32c crcInit pay
            ∧ fld h 34 4 = micros
            ∧ pay = memRead (kittyFence (mirrorDrain s) trigger (nextSave s)).kitty 0 kittyBytes
            ∧ ∀ a, (a < base ∨ (base + 64 ≤ a ∧ a < base + 0x1000) ∨ base + 0x1000 + kittyBytes ≤ a) →
                memGet t.mram a = memGet s.mram a))

/-- Clock monitors: a bad clock holds its block, a good one releases it. After step 2 CLOCK_BAD of a clock that read good
records it in GOOD, FAILED and CAUSE and holds the block of Table 17.5; of one that read bad it changes nothing;
CLOCK_GOOD releases the block, and for the keep clock clears the kitty and arms saves (assumption 26). [R392, R393,
R405, Table 17.5] -/
def Obligations.ClockMonitorsHoldAndReleaseTheirBlocks : Prop :=
  ∀ (s : State) (c : Nat) (facts : PowerOnFacts), c < 25 → okFacts facts = true → s.rst.step ≠ 1 → s.rst.step ≠ 2 →
    ∀ (good lost : Rst) (w : State), good = { s.rst with good := setBits s.rst.good c c 1 } →
      lost = { s.rst with good := setBits s.rst.good c c 0, failed := setBits s.rst.failed c c 1, cause := s.rst.cause ||| 0x40 } →
      w = markSet (markSet { s with rst := lost } aCause 0x40) aClock (2 ^ (32 + c)) →
    (bit s.rst.good c = false → exec (.clockGood c) s = .next (if c = 7 then
        { s with rst := good, kitty := [], keep := { s.keep with armed := true } } else { s with rst := good }))
    ∧ (bit s.rst.good c = true → exec (.clockGood c) s = .next s)
    ∧ (bit s.rst.good c = false → exec (.clockBad c facts) s = .next s)
    ∧ (bit s.rst.good c = true →
      (c = 6 → exec (.clockBad c facts) s = .next { w with
          time := { TimeUnit.reset with utcOff := s.time.utcOff, seqIds := s.time.seqIds },
          ports := kmap s.ports fun _ x => { x with gates := 0xFF }, coreTime := [] })
      ∧ (c = 7 → exec (.clockBad c facts) s = .next { w with keep := { s.keep with slots := [], queue := [], due := false, armed := false } })
      ∧ (1 ≤ c → c ≤ 4 → ∃ t, exec (.clockBad c facts) s = .next t ∧ SameButHbm w t ∧ SameRegsButHbm w t
          ∧ t.hbmc.trained = setBits s.hbmc.trained (c - 1) (c - 1) 0
          ∧ t.hbmc.reqs = (kfilter s.hbmc.reqs fun k _ => k / 48 / 32 != c - 1))
      ∧ (c = 5 ∨ c = 24 → ∃ t, exec (.clockBad c facts) s = .next t ∧ t.rst = lost ∧ (∀ n, kget t.zat.sessions n = none)
          ∧ t.zat.link0 = false ∧ t.zat.link1 = false ∧ t.zat.vkeys = s.zat.vkeys)
      ∧ (8 ≤ c → c ≤ 23 → ∃ t, exec (.clockBad c facts) s = .next t ∧ t.rst = lost
          ∧ (dieHeld w ((c - 8) / 2) = true → ∀ p, isPort s p = true → p / 32 = (c - 8) / 2 → (portOf t p).up = false)
          ∧ (∀ p, (portOf t p).up = true → (portOf s p).up = true)
          ∧ (∀ p, p / 32 ≠ (c - 8) / 2 → (portOf t p).up = (portOf s p).up)))

/-- Lane PLLs, the time reference, temperatures, the error log and control links. LANE_PLL_UNLOCK takes down the links of
its half-octet and no other; TIME_REF events set REF_OK; TEMP_SAMPLE stores the readings and the peak, and THERMTRIP
asserts its pin at 125 C or 105 C of a stack (assumption 29); an error record enters the kitty's log at its next
place; control links go up with their clocks good and count LINK_DOWN. [R102, R105, R118, R392, R393, R402, R421,
Table 17.9] -/
def Obligations.PllReferenceTemperatureErrorsAndControlLinks : Prop :=
  -- R392, R102: the links of a half-octet go down with its lane PLL
  (∀ (s : State) (h : Nat), h < 64 → ∃ t, exec (.lanePllUnlock h) s = .next t ∧ t.rst = s.rst
      ∧ ∀ p, (portOf t p).up = (if isPort s p && inHalf s h p then false else (portOf s p).up))
  -- R393: TIME_REF
  ∧ (∀ (s : State), exec .timeRefLoss s = .next { s with time := { s.time with refOk := false } }
      ∧ (bit s.rst.good 6 = true → exec .timeRefReturn s = .next { s with time := { s.time with refOk := true } }))
  -- R421
  ∧ (∀ (s : State) (c h0 h1 h2 h3 : Byte),
      exec (.tempSample c h0 h1 h2 h3) s = .next { s with temps := [c, h0, h1, h2, h3], tempOk := true, peak := if sint 8 s.peak.toNat < sint 8 c.toNat then c else s.peak }
      ∧ (s.tempOk = true → s.temps = [c, h0, h1, h2, h3] → s.rst.tripped = false →
          (125 ≤ sint 8 c.toNat ∨ 105 ≤ sint 8 h0.toNat ∨ 105 ≤ sint 8 h1.toNat ∨ 105 ≤ sint 8 h2.toNat ∨ 105 ≤ sint 8 h3.toNat) →
          exec .thermtrip s = .next { s with sent := s.sent ++ [.thermtrip], rst := { s.rst with tripped := true } }))
  -- R402, Table 17.9: the error log
  ∧ (∀ (s : State) (log : ErrLog) (k : Nat), keepUp s = true → errPresent s log = true → k = errLogNext s →
      ∃ m, exec (.errorLogWrite log) s = .next { s with kitty := m }
        ∧ memRead m (kLog + 32 * k) 32
          = toBytes 5 (now40 s) ++ toBytes 1 (errRecord s log).1 ++ toBytes 2 0 ++ toBytes 8 (errRecord s log).2 ++ toBytes 16 0
        ∧ memNat m (kCause + 28) 4 = (k + 1) % 12288
        ∧ ∀ a, (a < kLog + 32 * k ∨ kLog + 32 * k + 32 ≤ a) → (a < kCause + 28 ∨ kCause + 32 ≤ a) → memGet m a = memGet s.kitty a)
  -- R118, R105: control links
  ∧ (∀ (s : State) (cp : Nat), cp < 2 →
      (bit s.rst.good 5 = true → bit s.rst.good 24 = true → exec (.controlLinkUp cp) s
        = .next { s with zat := if cp = 0 then { s.zat with link0 := true } else { s.zat with link1 := true } })
      ∧ (ctlLink s cp = true → exec (.controlLinkDown cp) s = .next (bump
          { s with zat := if cp = 0 then { s.zat with link0 := false } else { s.zat with link1 := false } } (aZatCtr cp 13)))
      ∧ (ctlLink s cp = false → exec (.controlLinkDown cp) s = .next s))

/-- An L3 from each of its sources empties the pipeline; one that arrives while one runs joins it; RESET_REQ waits for its
response. After step 2, with no L3 running, an L3 from the debug port, the watchdog, a RESET_REQ or a stuck trick
records its source in RST.CAUSE and RST.LAST, leaves no packet, task, suit or parked packet, and keeps fuses, MRAM,
flash and the queue of commands; the stuck trick is recorded in WDOG_LOG. A RESET_REQ for L3 is answered when the
pipeline is released. While an L3 runs, an L3 from the debug port or a RESET_REQ only records its source. RESET_REQ of
level 2 answers first and marks the L2 as due. The source of a bare L3_RESET is a free value (assumption 3). [R94,
R356, R383, R384, R388] -/
def Obligations.ResetsOfLevel3AndResetRequests : Prop :=
  -- R383, R384, R388, R94, R356: an L3 from its sources
  (∀ (s : State), s.rst.step ≠ 1 → s.rst.step ≠ 2 → held s = false →
      ∀ after : Nat → State → State → Prop, (∀ src u t, after src u t ↔
        (t.rst.lastLevel = 3 ∧ t.rst.lastSrc = src ∧ t.rst.lastTime = now40 u ∧ t.rst.cause = u.rst.cause ||| BitVec.ofNat 8 (2 ^ src)
          ∧ t.tricks = [] ∧ t.pkts = [] ∧ t.stock = [] ∧ t.tasks = [] ∧ t.suits = [] ∧ t.rb = []
          ∧ t.pending = u.pending ∧ t.clk = u.clk ∧ t.fuses = u.fuses ∧ t.mram = u.mram ∧ t.flash = u.flash)) →
      (∃ t src, exec .l3Reset s = .next t ∧ (src = 3 ∨ src = 4 ∨ src = 5 ∨ src = 7) ∧ after src s t)
      ∧ (∀ facts, okFacts facts = true → ∃ t, exec (.debugReset false facts) s = .next t ∧ after 5 s t)
      ∧ (∀ facts, okFacts facts = true → wdogDue s = true → bit (regRaw s aRstCtl 0) 0 = true →
          ∃ t, exec (.hostWdogExpire facts) s = .next t ∧ after 3 s t)
      ∧ (∀ n, ready s n 3 → ∃ t, exec (.resetReqL3 n) s = .next t ∧ after 4 s t
          ∧ ((∃ w, kget t.zat.waits w = some ⟨n, true, ⟨0x48, 0, 3, []⟩, .release⟩) ∨ isOpen t n = false))
      ∧ (∀ d c k, d < 288 → c < 256 → trickAt s d c = some k → trickDue s k = true →
          ∃ t, exec (.watchdogFire d c) s = .next t ∧ after 7 (setLog s aWdogLog (wdogRecord d c k)) t))
  -- R60, R384
  ∧ (∀ (s : State), s.rst.step ≠ 1 → s.rst.step ≠ 2 → held s = true →
      ∀ joins : Nat → State → Prop, (∀ src t, joins src t ↔
        (t.rst.cause = s.rst.cause ||| BitVec.ofNat 8 (2 ^ src) ∧ t.rst.heldTill = s.rst.heldTill
          ∧ (s.deck.phase = .redealing → t.rst.lastLevel = 3 ∧ t.rst.lastSrc = src ∧ t.rst.lastTime = now40 s)
          ∧ (s.deck.phase ≠ .redealing → t.rst.lastLevel = 3 ∧ t.rst.lastSrc = min s.rst.lastSrc src ∧ t.rst.lastTime = s.rst.lastTime)
          ∧ t.deck = s.deck ∧ t.cold = s.cold ∧ t.tasks = s.tasks ∧ t.tricks = s.tricks ∧ t.lines = s.lines ∧ t.hbm = s.hbm)) →
      (∃ t src, exec .l3Reset s = .next t ∧ (src = 3 ∨ src = 4 ∨ src = 5 ∨ src = 7) ∧ joins src t ∧ t.zat = s.zat)
      ∧ (∀ facts, okFacts facts = true → ∃ t, exec (.debugReset false facts) s = .next t ∧ joins 5 t ∧ t.zat = s.zat)
      ∧ (∀ n, ready s n 3 → ∃ t, exec (.resetReqL3 n) s = .next t ∧ joins 4 t
          ∧ kget t.zat.waits s.zat.nextWait = some ⟨n, true, ⟨0x48, 0, 3, []⟩, .release⟩))
  -- R356
  ∧ (∀ (s : State) (n : Nat), ready s n 3 → exec (.resetReqL2 n) s = .next (answer
      (markSet { s with rst := { s.rst with cause := s.rst.cause ||| 0x10, l2Due := true } } aCause 0x10) n 0x48 2 stOk []))

/-- Power-on and an L2 run the sequence of Table 17.4. POWER_ON_RESET in step 1 and an L2 after step 2 run the sequence: a
trim failure halts it in step 2, a training failure stops it in step 5, and with the straps naming no flash slot it
waits in step 7 with every clock good and the stacks trained. An L2 empties sessions, deck state and the pipeline,
keeps fuses, straps and flash, and records its source. Each runs whole in its command (assumption 23); the source of a
bare L2_RESET is a free value (assumption 3). [R329, R384, R386, R389, R390, R391, R410] -/
def Obligations.PowerOnAndL2RunTheSequence : Prop :=
  ∀ (s : State) (facts : PowerOnFacts), okFacts facts = true →
    ∀ after : State → State → Prop, (∀ w t, after w t ↔
      ((facts.trimHalt = true → t.rst.step = 2 ∧ t.rst.halted = true ∧ t.rst.trimRetry = true ∧ t.fuses = w.fuses)
      ∧ (facts.trimHalt = false → t.fuses = facts.fuses ∧ t.rst.lastLevel = w.rst.lastLevel ∧ t.rst.lastSrc = w.rst.lastSrc
          ∧ t.rst.lastTime = w.rst.lastTime)
      ∧ (facts.trimHalt = false → (∃ x ∈ facts.training, laneFails x.toNat = true) → t.rst.step = 5 ∧ t.hbmc.trainFail ≠ 0)
      ∧ (facts.trimHalt = false → (∀ x ∈ facts.training, laneFails x.toNat = false) → strapFlash w = none →
          t.rst.step = 7 ∧ t.rst.good = 2 ^ 25 - 1 ∧ t.rst.halted = false ∧ t.rst.trimRetry = facts.trimRetry
          ∧ t.rst.avsAcked = facts.avsAcked ∧ t.rst.strap = w.rst.strap ∧ t.hbmc.trained = 15 ∧ t.hbmc.trainFail = 0
          ∧ t.deck = w.deck ∧ t.zat = w.zat ∧ t.tricks = w.tricks ∧ t.pkts = w.pkts))) →
    (s.rst.step = 1 → ∃ t, exec (.powerOnReset facts) s = .next t
      ∧ ∃ w, after w t ∧ w.rst.strap = strapCode facts.cfgsel ∧ w.fuses = s.fuses ∧ w.deck = s.deck ∧ w.zat = s.zat
        ∧ w.rst.lastLevel = s.rst.lastLevel)
    ∧ (s.rst.step ≠ 1 → s.rst.step ≠ 2 → ∀ l2 : Nat → State → Prop, (∀ src t, l2 src t ↔
        ∃ w, after w t ∧ w.rst.lastLevel = 2 ∧ w.rst.lastSrc = src ∧ w.rst.lastTime = now40 s ∧ w.rst.strap = s.rst.strap
          ∧ w.fuses = s.fuses ∧ w.deck = Deck.reset ∧ w.zat = Zat.reset ∧ w.tricks = [] ∧ w.pkts = []
          ∧ t.flash = s.flash ∧ t.clk = s.clk ∧ t.pending = s.pending) →
      (∃ t, exec (.pinReset facts) s = .next t ∧ l2 2 t)
      ∧ (∃ t, exec (.debugReset true facts) s = .next t ∧ l2 5 t)
      ∧ (wdogDue s = true → bit (regRaw s aRstCtl 0) 0 = false → ∃ t, exec (.hostWdogExpire facts) s = .next t ∧ l2 3 t)
      ∧ (bit s.rst.good 0 = true → ∃ t, exec (.clockBad 0 facts) s = .next t ∧ l2 6 t)
      ∧ (s.rst.l2Due = true → ∃ t, exec (.l2Reset facts) s = .next t ∧ l2 4 t)
      ∧ (s.rst.l2Due = false → ∃ t src, exec (.l2Reset facts) s = .next t ∧ l2 src t
          ∧ (src = 2 ∨ src = 3 ∨ src = 5 ∨ src = 6)))

/-- The receive MAC counts a frame and the rate buffer admits it. A frame on a port that is not up, or whose lanes loop
back, changes nothing; while the pipeline is held, on a disabled port or with its hand folded it is counted and
dropped, and sent back where every lane re-sends; runts and short bad frames are counted and dropped; a good frame
takes its entries in its class, counted per port and class, is truncated and counted when the buffer has too little
room, or is dropped and counted when it has none or its lossy share is used. Frames exclude the FCS (assumption 16).
[R106, R107, R108, R109, R110, R114, R116] -/
def Obligations.ReceivedFramesAreCountedAndAdmitted : Prop :=
  ∀ (s : State) (p : Nat) (f : List Byte) (fin : FrameEnd), p < 256 →
    ((portOpen s p = false ∨ 1 ∈ portLoops s p ∨ 2 ∈ portLoops s p) → exec (.macFrameReceive p f fin) s = .next s)
    ∧ (portOpen s p = true → 1 ∉ portLoops s p → 2 ∉ portLoops s p →
        (held s = true ∨ portEnabled s p = false ∨ foldOfHand s (p / 8) ≠ .open_) →
        exec (.macFrameReceive p f fin) s = .next (if (portLoops s p).all (· == 3)
          then { bump s (aPortCtr p 9) with sent := s.sent ++ [.frame p f (!fcsGood fin)] } else bump s (aPortCtr p 9)))
    ∧ (portOpen s p = true → 1 ∉ portLoops s p → 2 ∉ portLoops s p → held s = false → portEnabled s p = true →
        foldOfHand s (p / 8) = .open_ →
      (fin = .aborted → f.length + 4 < 128 → f.length + 4 ≤ maxFrame s p →
        exec (.macFrameReceive p f fin) s = .next (bump s (aPortCtr p 7)))
      ∧ (fcsGood fin = false → fin ≠ .aborted → 64 ≤ f.length + 4 → f.length + 4 ≤ maxFrame s p → etherType f = 0x8808 →
          exec (.macFrameReceive p f fin) s = .next (bump s (aPortCtr p 4)))
      ∧ (fin ≠ .aborted → f.length + 4 < 64 → exec (.macFrameReceive p f fin) s = .next (bump s (aPortCtr p 5)))
      ∧ (fcsGood fin = false → fin ≠ .aborted → 64 ≤ f.length + 4 → f.length + 4 < 128 → f.length + 4 ≤ maxFrame s p →
          exec (.macFrameReceive p f fin) s = .next (bump s (aPortCtr p 4)))
      ∧ (fin = .good → 64 ≤ f.length + 4 → f.length + 4 ≤ maxFrame s p → etherType f ≠ 0x8808 →
          ∀ u c room need, u = bumpBy (bump s (aPortCtr p 0)) (aPortCtr p 1) (f.length + 4) → c = frameClass s p f →
            room = 256 * portLanes s p - portOcc s p → need = cdiv (f.length + 4) 256 →
            ((room = 0 ∨ (lossless s p c = false ∧ lossyLane s p * portLanes s p ≤ lossyOcc s p)) →
              exec (.macFrameReceive p f fin) s = .next (bump u (aPortCtr p 8)))
            ∧ ((lossless s p c = true ∨ lossyOcc s p < lossyLane s p * portLanes s p) → 0 < room → ∃ t,
              exec (.macFrameReceive p f fin) s = .next t
              ∧ kget t.occ (8 * p + c) = some (occOf s p c + min need room)
              ∧ (∀ k, k ≠ 8 * p + c → kget t.occ k = kget s.occ k)
              ∧ (∀ h, h ≠ p / 8 → kget t.rb h = kget s.rb h)
              ∧ (need ≤ room → t.regs = u.regs ∧ kget t.rb (p / 8) = some (placeRb (kgetD s.rb (p / 8) [])
                  ⟨p, f, .good, c, need, stampNow u p false, none, s.clk⟩))
              ∧ (room < need → t.regs = (bump u (aPortCtr p 8)).regs ∧ kget t.rb (p / 8) = some (placeRb (kgetD s.rb (p / 8) [])
                  ⟨p, f.take (256 * room), .bad, c, room, stampNow (bump u (aPortCtr p 8)) p false, none, s.clk⟩)))))

/-- PAUSE and PFC, received, expiring, sent and repeated. A received PAUSE or PFC is counted and pauses its classes while
the port runs that kind of flow control; while the pipeline is held, the port disabled or its hand folded it only
counts as dropped; a port that does not send signals nothing; a pause expires; a class that crosses XOFF or XON is
signalled once, and a held XOFF is repeated. [R108, R111, R112, R114, R116] -/
def Obligations.FlowControlIsReceivedAndSent : Prop :=
  ∀ (s : State) (p : Nat), p < 256 → portOpen s p = true →
    ((1 ∈ portLoops s p ∨ 2 ∈ portLoops s p) → (∀ q, exec (.pauseReceive p q) s = .next s)
        ∧ ∀ enable quanta, quanta.length = 8 → exec (.pfcReceive p enable quanta) s = .next s)
    ∧ (1 ∉ portLoops s p → 2 ∉ portLoops s p → (held s = true ∨ portEnabled s p = false ∨ foldOfHand s (p / 8) ≠ .open_) →
        (∀ q, exec (.pauseReceive p q) s = .next (bump s (aPortCtr p 9)))
        ∧ ∀ enable quanta, quanta.length = 8 → exec (.pfcReceive p enable quanta) s = .next (bump s (aPortCtr p 9)))
    ∧ (1 ∉ portLoops s p → 2 ∉ portLoops s p → held s = false → portEnabled s p = true → foldOfHand s (p / 8) = .open_ →
      (∀ (q : BitVec 16) u x, u = bump s (aPortCtr p 10) → x = portOf s p →
      exec (.pauseReceive p q) s = .next (if portFc s p = 1 then
          setPort u p { x with paused := if q.toNat = 0 then [] else (List.range 8).map fun c => (c, q.toNat) } else u))
    ∧ (∀ (enable : Byte) (quanta : List (BitVec 16)), quanta.length = 8 → ∃ t, exec (.pfcReceive p enable quanta) s = .next t
        ∧ t = { s with regs := t.regs, ports := t.ports }
        ∧ (portFc s p ≠ 2 → t.ports = s.ports)
        ∧ (portFc s p = 2 → ∀ c, c < 8 → kget (portOf t p).paused c = if bit enable.toNat c then
              (if (nth quanta c 0).toNat = 0 then none else some (nth quanta c 0).toNat) else kget (portOf s p).paused c)
        ∧ ∀ c, c < 8 → regRaw t (aPortCtr p (12 + c)) 0
            = if bit enable.toNat c then regRaw (bump s (aPortCtr p (12 + c))) (aPortCtr p (12 + c)) 0 else regRaw s (aPortCtr p (12 + c)) 0))
    ∧ (∀ c, c < 8 → exec (.pauseExpire p c) s = .next (setPort s p { portOf s p with paused := kdel (portOf s p).paused c }))
    ∧ (portSends s p = false → exec (.flowControlSend p) s = .next s ∧ exec (.pfcRepeat p) s = .next s)
    ∧ (portSends s p = true → ∀ stopped on off w, stopped = (portOf s p).xoff.toNat → w = portLanes s p →
        on = ((fcClasses s p).filter fun c => !bit stopped c && decide (xoffLane s p * w ≤ fcLevel s p c)) →
        off = ((fcClasses s p).filter fun c => bit stopped c && decide (fcLevel s p c < xonLane s p * w)) →
        (on = [] → off = [] → exec (.flowControlSend p) s = .next s)
        ∧ (on ≠ [] ∨ off ≠ [] → ∃ t, exec (.flowControlSend p) s = .next t
          ∧ (portOf t p).xoff = BitVec.ofNat 8 (stopped + (on.map fun c => 2 ^ c).sum - (off.map fun c => 2 ^ c).sum)
          ∧ (portFc s p = 1 → t.sent = s.sent ++ [.flowControl p (portMac s p) none (if off = [] then [0xFFFF] else [0])])
          ∧ (portFc s p = 2 → t.sent = s.sent ++ [.flowControl p (portMac s p)
              (some (BitVec.ofNat 8 ((on.map fun c => 2 ^ c).sum + (off.map fun c => 2 ^ c).sum)))
              ((List.range 8).map fun c => if on.contains c then 0xFFFF else 0)])))
    ∧ (portSends s p = true → ∀ cs, cs = ((fcClasses s p).filter fun c => bit (portOf s p).xoff.toNat c && decide (xonLane s p * portLanes s p ≤ fcLevel s p c)) →
        (cs = [] → exec (.pfcRepeat p) s = .next s)
        ∧ (cs ≠ [] → ∃ t, exec (.pfcRepeat p) s = .next t ∧ t.ports = s.ports
          ∧ (portFc s p = 1 → t.sent = s.sent ++ [.flowControl p (portMac s p) none [0xFFFF]])
          ∧ (portFc s p = 2 → t.sent = s.sent ++ [.flowControl p (portMac s p) (some (BitVec.ofNat 8 (cs.map fun c => 2 ^ c).sum))
              ((List.range 8).map fun c => if cs.contains c then 0xFFFF else 0)])))

/-- Links come up, go down and renegotiate. LINK_UP opens a port of the deck whose lanes have started, with AN_STATE done
where it negotiates, and changes nothing otherwise. LINK_DOWN takes an open port down: LINK_DOWN counts, pause and
hold-off clear, AN_STATE reads running where the port negotiates and its lanes have started, and the frame being sent
is lost. AUTONEG_RESTART shows the failed negotiation and then starts it again. [R104, R105, R115] -/
def Obligations.LinksComeUpGoDownAndRenegotiate : Prop :=
  ∀ (s : State) (p : Nat) (x : PortState), p < 256 → x = portOf s p →
    (portStarted s p = true ↔ isPort s p = true ∧ portShut s p = false ∧ dieHeld s (p / 32) = false ∧ s.rst.goHeld = false
      ∧ groupOf p ∉ s.rst.groupsDue)
    ∧ (portStarted s p = true → x.up = false →
      exec (.linkUp p) s = .next (setPort s p { x with up := true, anState := if portAn s p then 2 else 0 }))
    ∧ ((portStarted s p = false ∨ x.up = true) →
      exec (.linkUp p) s = .next s)
    ∧ (x.up = true → x.txq = [] → exec (.linkDown p) s = .next (setPort (bump s (aPortCtr p 34)) p
        { x with up := false, anState := b2n (portStarted s p && portAn s p), xoff := 0, paused := [] }))
    ∧ (∀ e rest, x.up = true → x.txq = e :: rest → ∃ t, exec (.linkDown p) s = .next t
        ∧ portOf t p = { x with up := false, anState := b2n (portStarted s p && portAn s p), xoff := 0, paused := [], txq := rest }
        ∧ (e.pkt.ended = true → t.queues = s.queues)
        ∧ (e.pkt.ended = false → potFrame t e.pkt.queue e.frame = none))
    ∧ (x.up = false → exec (.linkDown p) s = .next s)
    ∧ (portStarted s p = true → portAn s p = true → x.up = false →
      exec (.autonegRestart p) s = .next (setPort s p { x with anState := if x.anState = 3 then 1 else 3 }))
    ∧ ((portStarted s p = false ∨ portAn s p = false ∨ x.up = true) → exec (.autonegRestart p) s = .next s)

/-- The transmit MAC sends the head frame. MAC_TRANSMIT of a port that sends sends its head frame with its MAC edits,
stomped when it was marked or underran, in one command (assumption 45), and takes it off the queue; an underrun frees
what is left of the frame. It sends nothing while the port may not, while the frame has not ended, or before its
LAUNCH. [R264, R265, R301, R310] -/
def Obligations.TheTransmitMacSendsTheHeadFrame : Prop :=
  ∀ (s : State) (p : Nat) (under : Bool) (e : TxFrame) (rest : List TxFrame), p < 256 → (portOf s p).txq = e :: rest →
    (portSends s p = true → e.pkt.ended = !under → beforeLaunch s p e.pkt = false →
      ∀ a v f, a = setPort s p { portOf s p with txq := rest } →
        v = (if under then bump (frameOut a e.pkt.queue e.frame (pktEpoch e.pkt)) (aUnderrun (e.pkt.queue / 2048)) else a) →
        f = e.edits.foldl (macEdit v p e.pkt) (if under then (match potFrame s e.pkt.queue e.frame with | some x => x.bytes | none => e.pkt.frame) else e.pkt.frame) →
      ∃ t, exec (.macTransmit p under) s = .next t
        ∧ t.sent = s.sent ++ [.frame p f (e.stomp || under)] ∧ (portOf t p).txq = rest
        ∧ (under = true → potFrame t e.pkt.queue e.frame = none)
        ∧ (under = false → t.queues = s.queues))
    ∧ ((portSends s p = false ∨ e.pkt.ended = under ∨ beforeLaunch s p e.pkt = true) → exec (.macTransmit p under) s = .next s)

/-- PARSE takes its hand's oldest frame into a free vector and context. With room, an open hand and a due rate, PARSE_TAKE
moves the oldest frame of the rate buffer into a free packet vector and starts its routine in a free context at the
routine's entry; the epoch counts one more packet in flight, and other vectors stay. [R14, R62, R81, R120, R137] -/
def Obligations.ParseTakesTheOldestFrame : Prop :=
  ∀ (s : State) (h : Nat) (f : RbFrame) (rest : List RbFrame) (p : Pkt) (o : Nat), h < 32 → hasDeck s = true → held s = false →
    hasRoom s h = true → walksBusy s h < 32 → (recircOk s h = false ∨ kgetD s.recircq h [] = []) → kget s.rb h = some (f :: rest) →
    foldOfHand s h = .open_ → rateOk s h = true → ksorted s.tricks = true → ksorted s.pkts = true →
    kcount s.pkts (256 * h) (256 * h + 256) < 256 → p = takenPkt s f → routineOff s (pktEpoch p) 0 (pktRoutine p 0) = some o →
    ∃ t k c x, exec (.parseTake h) s = .next t ∧ 256 * h ≤ k ∧ k < 256 * h + 256 ∧ kget s.pkts k = none ∧ c < 256 ∧ trickAt s h c = none
      ∧ kget t.pkts k = some p ∧ p.frame = f.frame ∧ p.port = f.port ∧ p.entries = f.entries ∧ p.walk = Walk.first
      ∧ (∀ j, j ≠ k → kget t.pkts j = kget s.pkts j)
      ∧ kgetD t.rb h [] = rest
      ∧ trickAt t h c = some x ∧ x.pkt = k ∧ x.routine = pktRoutine p 0 ∧ x.addr = rtF s (pktEpoch p) o 2 2 % 2 ^ 14 ∧ x.committed = false ∧ x.ended = false
      ∧ (s.deck.current = true → t.deck.inflight1 = s.deck.inflight1 + 1 ∧ t.deck.inflight0 = s.deck.inflight0)
      ∧ (s.deck.current = false → t.deck.inflight0 = s.deck.inflight0 + 1 ∧ t.deck.inflight1 = s.deck.inflight1)

/-- The parse walk, checks at the end of a frame, and items to rings. A walk state goes to its target, accepts, or raises
its reason; a missing state raises reason 14 (BAD_START); what a routine has logged to a field and committed in the
same clk prevails over the walk's write. Checks deferred to the frame's end pass, raise their reason in PARSE or mark
the frame bad after it. Slow-path items and samples enter their rings. [R106, R122, R125, R126, R127, R130, R131,
R136, R261, R372] -/
def Obligations.WalksChecksAndLateItems : Prop :=
  -- R122, R125, R126, R127
  (∀ (s : State) (h v k : Nat) (p : Pkt), h < 32 → v < 256 → k = vecKey h v → getPkt s k = some p → p.walk.unit = true → p.walk.done = false →
      (stateOff s (pktEpoch p) p.walk.state = none → ∃ u q, exec (.walkState h v) s = .next u ∧ getPkt u k = some q
          ∧ (∀ j, j ≠ k → getPkt u j = getPkt s j) ∧ q.frame = p.frame ∧ q.walk = (walkExcept p 14).walk ∧ u.regs = (hitReason s 14).regs)
      ∧ (∃ u, exec (.walkState h v) s = .next u
          ∧ (kfind s.tricks (fun _ x => x.pkt == k && x.committed && x.commitClk == s.clk) = none → getPkt u k = some (walkStep s p).1)
          ∧ (∀ c x, kfind s.tricks (fun _ x => x.pkt == k && x.committed && x.commitClk == s.clk) = some (c, x) →
              getPkt u k = some { (walkStep s p).1 with cv := x.undo.foldl (fun cv e =>
                setNth cv e.1 (BitVec.ofNat 8 (((nth cv e.1 0).toNat &&& (255 - e.2.1)) ||| (cvF p e.1 1 &&& e.2.1)))) (walkStep s p).1.cv }))
      ∧ (∀ so fo st f len t, stateOff s (pktEpoch p) p.walk.state = some so → st = slice (hotBody s (pktEpoch p) tyParse) so 320 →
        formatOff s (pktEpoch p) (fld st 1 1 % 128) = some fo → f = slice (hotBody s (pktEpoch p) tyFormats) fo 32 →
        bits (fld f 5 1) 3 0 = 0 → len = fld f 3 1 → fld f 1 1 = 0 → runOut p (p.walk.p + len) = none → fld st 2 1 = 0 → t = fld st 6 2 →
        ∃ u q, exec (.walkState h v) s = .next u ∧ getPkt u k = some q ∧ (∀ j, j ≠ k → getPkt u j = getPkt s j)
          ∧ q.frame = p.frame ∧ q.walk.heads = p.walk.heads ++ [p.walk.p]
          ∧ (t = 0x4000 → q.walk.accepted = true ∧ q.walk.done = true ∧ q.walk.unit = false ∧ u.regs = s.regs)
          ∧ (t ≠ 0x4000 → 0x8000 ≤ t → q.walk.excepted = true ∧ q.walk.reason = t % 64 ∧ q.walk.done = true ∧ q.walk.unit = false
              ∧ u.regs = (hitReason s (t % 64)).regs)
          ∧ (t ≠ 0x4000 → t < 0x8000 → p.walk.trans = 24 → q.walk.excepted = true ∧ q.walk.reason = 4 ∧ q.walk.done = true
              ∧ u.regs = (hitReason s 4).regs)
          ∧ (t ≠ 0x4000 → t < 0x8000 → p.walk.trans ≠ 24 → q.walk.state = t ∧ q.walk.p = p.walk.p + len ∧ q.walk.trans = p.walk.trans + 1
              ∧ q.walk.done = false ∧ q.walk.unit = true ∧ u.regs = s.regs)))
  -- R131, R130, R106
  ∧ (∀ (s : State) (h v k : Nat) (p : Pkt), h < 32 → v < 256 → k = vecKey h v → getPkt s k = some p → p.ended = false →
      ∃ t q, exec (.deferredCheck h v) s = .next t ∧ getPkt t k = some q ∧ q.ended = true ∧ q.walk.deferred = []
        ∧ q.frame = p.frame ∧ (∀ j, j ≠ k → getPkt t j = getPkt s j)
        ∧ (p.walk.deferred.findSome? (defFails p.frame.length) = none → q.bad = p.bad ∧ q.walk.excepted = p.walk.excepted)
        ∧ (∀ r, p.walk.deferred.findSome? (defFails p.frame.length) = some r →
          (inParse s h k = true → q.walk.excepted = true ∧ q.walk.reason = r ∧ q.walk.done = true ∧ q.bad = p.bad)
          ∧ (inParse s h k = false → q.bad = true ∧ q.walk.excepted = p.walk.excepted)))
  -- R136, R372, R261
  ∧ (∀ (s : State) (h : Nat) (i : LateItem) (kept : List (List Byte × Bool)) (lost room : Nat) (item : List Byte), h < 32 →
      ((ringCfg s i.ring).byLength = false ∧ room = 2 ^ (ringCfg s i.ring).log2 - (ringOf s i.ring).waiting
        ∨ (ringCfg s i.ring).byLength = true ∧ room = 2 ^ (ringCfg s i.ring).log2
          ∧ ∃ x, (ringOf s i.ring).slots = [x] ∧ i.ticket = some x.ticket) →
      freeItems (ringOf s i.ring).items (ringOf s i.ring).part room item.length = some (kept, lost) →
      (s.late.find? (fun x => x.hand == h && x.slowp == true) = some i → item = slowItem i.pkt i.source i.reason i.snap →
        ∃ t, exec (.slowPathItem h) s = .next t ∧ t.late = s.late.erase i ∧ (ringOf t i.ring).items = kept ++ [(item, false)] ∧ t.pkts = s.pkts)
      ∧ (s.late.find? (fun x => x.hand == h && x.slowp == false) = some i → item = sampleItem s i.pkt i.source i.hand i.snap →
        ∃ t, exec (.packetSample h) s = .next t ∧ t.late = s.late.erase i ∧ (ringOf t i.ring).items = kept ++ [(item, false)] ∧ t.pkts = s.pkts))

/-- Match, pool and shuffle lookups, their results and their time-outs. A match lookup answers the row of the highest
trump, the lowest position among equals with the tie flag, or the table's miss word; exact, prefix and index tables
and the shuffle answer their entries. A result returns to its slot and wakes the trick, poisoned or not, and settles
the QUEUE choice that a committed routine logged from it; a time-out answers zero after COMMIT and restarts the
routine before it, and one of a FLOW fetch (slot 4) restarts it or ends its wait without a record. [R74, R76, R87,
R146, R147, R148, R149, R150, R160, R161, R166, R167] -/
def Obligations.LookupsFindTheirEntriesAndReturn : Prop :=
  -- R146 to R150, Table 7.3, R160, R161, R166, R167
  (∀ (s : State) (d c slot : Nat) (t : Trick) (l : Look) (found : Nat → Trick), okDealer d = true → okCtx c = true → slot < 4 →
      trickAt s d c = some t → kget t.pend slot = some l → l.result = none →
      found = (fun v => { t with pend := kset t.pend slot { l with result := some (BitVec.ofNat 64 v, false) } }) →
      (l.kind = 0 → ksorted s.rows = true → ∀ k bs live cands, k = keyNat l.key → bs = tableBlocks s l.table →
        live = bs.filter (fun b => ((k / 2 ^ (8 * (39 - blockF s b 4 1 % 40)) % 256) &&& blockF s b 3 1) == blockF s b 2 1) →
        cands = s.rows.filter (fun x => live.contains (x.1 / 2048) && rowMatches x.2 t.slot k) → ∃ t', exec (.matchLookup d c slot) s = .next t'
          ∧ t'.rows = s.rows
          ∧ (cands = [] → ∀ b rest, bs = b :: rest → trickAt t' d c = some (found (blockF s b 5 3 % 2 ^ 20)))
          ∧ (cands ≠ [] → ∃ i r tie, (i, r) ∈ cands ∧ (∀ j q, (j, q) ∈ cands → q.trump < r.trump ∨ (q.trump = r.trump ∧ i ≤ j))
              ∧ (tie = true ↔ ∃ j q, (j, q) ∈ cands ∧ j ≠ i ∧ q.trump = r.trump)
              ∧ trickAt t' d c = some (found (2 ^ 63 + b2n tie * 2 ^ 62 + i * 2 ^ 39 + r.result % 2 ^ 20))))
      ∧ (l.kind = 1 → ∀ pt key, poolTab s l.table = some pt → key = slice l.key 0 pt.keyLen →
        (pt.kind = 0 → poolFind s pt key 0 = none → exec (.poolLookup d c slot) s = .next (setTrick s d c (found pt.missData)))
        ∧ (pt.kind = 0 → ∀ b i, poolFind s pt key 0 = some (b, i) →
            exec (.poolLookup d c slot) s = .next (setTrick s d c (found (2 ^ 63 + poolData s pt b i))))
        ∧ (pt.kind = 1 → ∀ n b i, prefixFind s pt key pt.lengths none = some (n, b, i) →
            exec (.poolLookup d c slot) s = .next (setTrick s d c (found (2 ^ 63 + n * 2 ^ 48 + poolData s pt b i))))
        ∧ (pt.kind = 2 → ofBytes key < pt.pages * 16384 → pt.first * 65536 + 4 * ofBytes key ∈ s.poolSet →
            exec (.poolLookup d c slot) s = .next (setTrick s d c (found (2 ^ 63 + memNat s.pool (pt.first * 65536 + 4 * ofBytes key) 4)))))
      ∧ (l.kind = 2 → slot = 3 → ∀ r i v, r = shufRec s t.slot l.table → i = shufIndex r l.key → v = shufEntry r i →
        exec (.shuffleLookup d c) s = .next (setTrick s d c (found (b2n (bit v 31) * 2 ^ 63 + l.table % 64 * 2 ^ 56 + i % 4096 * 2 ^ 44 + b2n false * 2 ^ 32 + v % 2 ^ 32)))))
  -- R148, R150, R87, R74
  ∧ (∀ (s : State) (d c slot : Nat) (t : Trick) (back : W64 → Trick), okDealer d = true → okCtx c = true → slot < 4 →
      trickAt s d c = some t →
      back = (fun v => { t with ls := setNth t.ls slot v, pend := kdel t.pend slot, mwait := if t.mwait = some slot then none else t.mwait, log := if slot = 3 then t.log.map (fillChoice (v.truncate 32)) else t.log }) →
      (∀ l, kget t.pend slot = some l →
        (∀ v b, l.result = some (v, b) → l.kind < 2 → (t.committed = true → t.log = []) →
          exec (.lookupResult d c slot false) s = .next (setTrick s d c (back v))
          ∧ (t.committed = true → exec (.lookupResult d c slot true) s = .next (setTrick s d c { back v with poison := true })))
        ∧ (∀ v b q pt at_, l.result = some (v, b) → l.kind < 2 → t.committed = true → slot = 3 → t.log = [⟨.qsel none q pt, at_⟩] →
          exec (.lookupResult d c slot false) s
            = .next (keepFixed s (applyEffect (setTrick s d c { back v with log := [] }) d c (.qsel (some (v.truncate 32)) q pt))))
        ∧ (t.committed = true → t.log = [] → exec (.lookupTimeout d c slot) s = .next (setTrick s d c (back 0))))
      ∧ (∀ sl, (sl = slot ∧ kget t.pend slot ≠ none ∨ sl = 4 ∧ ∃ ln op o, t.wait = some (.fetch ln op o)) →
        t.committed = false → t.restarts < restartMax s → ∃ t' x, exec (.lookupTimeout d c sl) s = .next t' ∧ trickAt t' d c = some x
          ∧ x.restarts = t.restarts + 1 ∧ x.pkt = t.pkt ∧ x.routine = t.routine ∧ x.log = [] ∧ x.pend = [] ∧ x.committed = false ∧ x.ended = false)
      ∧ (∀ ln op o, t.wait = some (.fetch ln op o) → t.committed = true → exec (.lookupTimeout d c 4) s
          = .next (setTrick s d c { t with wait := none, image := none, recAt := none, flowNew := false, created := none })))

/-- An ALU word issues; a packet is handed to the next stage. A word that only computes sets the flags, the destination
and the target flag of its ALU op, is charged its class and goes to its target. A packet whose routine has ended
enters a free context of the next stage at that stage's routine, in the same vector and the packet's epoch. [R15, R16,
R68, R69, R71, R72, R81, Table 4.4, Table 4.5] -/
def Obligations.WordsIssueAndPacketsMoveOn : Prop :=
  -- R69, R71, R72, Table 4.5, Table 4.4
  (∀ (s : State) (d c : Nat) (t : Trick) (w : Mw) (va vb : W32) (r : AluOut) (a : Nat), okDealer d = true → c < 256 →
      ksorted s.tricks = true → tricksOf s d = [(trickKey d c, t)] → w = trickWord s d t → mayIssue s d t = true → slotsBusy s d < 8 → 0 < w.cyc →
      w.kOp = 0 → w.exLen = 0 → w.exOff = 0 → w.mIss = false → w.qSrc = 0 → w.fOp = 0 → w.eOp = 0 → w.target = 0 → w.vsrc = false → w.imm = 0 →
      w.sample = false → w.bumpK = 0 → w.launch = false → w.recirc = false → w.drop = false → w.exc = false → w.commit = false →
      srcVal s t w w.aA = some va → srcVal s t w w.aB = some vb →
      r = alu w.aOp (if 1 ≤ aluReads w.aOp then va else 0) (if 2 ≤ aluReads w.aOp then vb else 0) ⟨none, t.z, t.n, t.c, t.v, none⟩ →
      a = (if w.cond = 63 ∨ (w.cond = 1 ∧ r.z = true) then w.alt else w.next) → w.cond = 0 ∨ w.cond = 1 ∨ w.cond = 63 → a ≠ endAddr →
      ∃ t', exec (.microwordIssue d) s = .next t' ∧ trickAt t' d c = some { t with
          z := r.z, n := r.n, c := r.c, v := r.v, tf := (r.setf.elim t.tf fun x => BitVec.ofNat 8 (setBits t.tf.toNat x.1 x.1 (b2n x.2))),
          g := (r.res.elim t.g fun x => if w.aD < 6 then setNth t.g w.aD x else t.g),
          readyAt := s.clk + w.cyc, spent := t.spent ++ [(t.addr, w.cls, w.cyc, w.bubble)], addr := a }
        ∧ t'.pkts = s.pkts)
  -- R68, R15, R81, R16
  ∧ (∀ (s : State) (d c o : Nat) (t : Trick) (p : Pkt), d < 192 → (stageOf d = 1 ∨ stageOf d = 3 ∨ stageOf d = 5) → c < 256 →
      ksorted s.tricks = true → tricksOf s d = [(trickKey d c, t)] → t.settled = some 0 → kget s.displaced d = none →
      getPkt s t.pkt = some p → hasRoom s (d + 32) = true → (stageOf d = 1 → flowTakes s (d % 32) = true) →
      routineOff s (pktEpoch p) (stageOf d + 1) (pktRoutine p (stageOf d + 1)) = some o →
      ∃ t' c' x, exec (.stageHandoff d) s = .next t' ∧ trickAt t' d c = none ∧ c' < 256 ∧ trickAt s (d + 32) c' = none
        ∧ trickAt t' (d + 32) c' = some x ∧ x.pkt = t.pkt ∧ x.slot = pktEpoch p ∧ x.routine = pktRoutine p (stageOf d + 1)
        ∧ x.addr = rtF s (pktEpoch p) o 2 2 % 2 ^ 14 ∧ x.ended = false ∧ x.committed = false
        ∧ getPkt t' t.pkt = some (if stageOf d = 1 then { p with kv := [] } else p))

/-- Record effects are held until COMMIT; flow lookups follow the cache. WRITE, ADD, OR, TOUCH, DELETE, KEEP, PIN, INSERT,
RELOCATE, WRITEBACK and CANCEL enter the trick's log with the record that stands latched, and change nothing else. A
lookup without a suit reads a cached record or reports a miss; with ACQUIRE it takes the free suit of the record; on a
line known to be absent LOOKUP misses and LOOKUP_CREATE logs a create when one is admitted. [R75, R84, R168, R174,
R175, R180, R184, R185, R188, R194, R220] -/
def Obligations.FlowEffectsAndLookups : Prop :=
  -- R75, R84, R174, R168, R220, R194
  (∀ (s : State) (d c su f : Nat) (out : W32) (t : Trick) (held : Effect → Host.Outcome State Fault Refusal),
      running s d c t → t.committed = false → t.log.length < 32 → su < 4 → f < 64 →
      held = (fun e => .next (setTrick s d c { t with log := t.log ++ [⟨e, t.recAt⟩], releaseAt := t.releaseAt || su == suitRelease })) →
      ((stageOf d = 2 ∨ stageOf d = 7) → ((su ≠ suitNone ∧ t.suit ≠ none) ∨ gathers t = true) →
        exec (.flowOpWrite d c su f out) s = held (.word 5 f out)
        ∧ exec (.flowOpAdd d c su f out) s = held (.word 6 f out)
        ∧ exec (.flowOpOr d c su f out) s = held (.word 7 f out)
        ∧ exec (.touch d c su) s = held .touch
        ∧ exec (.flowOpDelete d c su) s = held .delete
        ∧ exec (.keepSet d c su) s = held (.keep true)
        ∧ exec (.keepClear d c su) s = held (.keep false)
        ∧ ∀ tb i v, t.shuf = some (tb, i, v) → kget t.pend 3 = none → exec (.pin d c su) s = held (.pin tb i v))
      ∧ (stageOf d = 7 → ((su ≠ suitNone ∧ t.suit ≠ none) ∨ gathers t = true) →
        exec (.flowOpInsert d c su) s = held .insert
        ∧ exec (.writeback d c su) s = held .writeback
        ∧ exec (.relocate d c su) s = held .relocate)
      ∧ (stageOf d = 7 → exec (.taskCancel d c out) s =
          .next (setTrick s d c { t with log := t.log ++ [⟨.cancel (out.toNat % 2 ^ 18), t.recAt⟩] })))
  -- R75, R180, R175, R184, R185, R174, R188
  ∧ (∀ (s : State) (d c su n : Nat) (out : W32) (t : Trick) (key : List Byte) (l : Line),
      running s d c t → (stageOf d = 2 ∨ stageOf d = 7) → t.committed = false → key = trickKeyOf s t →
      l = lineOf s n →
      (∀ i, i ∈ [Instr.lookup d c suitNone, .lookupCreate d c suitNone out, .lookupCreateSyn d c suitNone out] →
        (findLine s (setOf s key) (digestOf s key) = none → exec i s = .next (setTrick (confMiss s) d c
          { t with image := none, recAt := none, flowNew := false, created := none, tf := t.tf ||| 0x20#8 }))
        ∧ (findLine s (setOf s key) (digestOf s key) = some n → l.lstate = .record → ∃ t', exec i s = .next t'
          ∧ trickAt t' d c = some { t with image := some (hotImage s l.words), recAt := some (.line n), flowNew := false, created := none }
          ∧ regRaw t' aHits 0 % 2 ^ 48 = (regRaw s aHits 0 % 2 ^ 48 + 1) % 2 ^ 48 ∧ t'.suits = s.suits))
      ∧ (∀ i, i ∈ [Instr.lookup d c suitAcquire, .lookupCreate d c suitAcquire out, .lookupCreateSyn d c suitAcquire out] →
        findLine s (setOf s key) (digestOf s key) = some n → l.lstate = .record → (suitAt s (suitOf n l)).holder = none →
        t.suit ≠ some (suitOf n l) →
        ∃ t', exec i s = .next t'
          ∧ trickAt t' d c = some { t with image := some (hotImage s l.words), recAt := some (.line n), flowNew := false, created := none, suit := some (suitOf n l), more := (t.suit.toList ++ t.more).filter (· != suitOf n l) }
          ∧ suitAt t' (suitOf n l) = { suitAt s (suitOf n l) with holder := some (.trick d c) })
      ∧ (su = suitAcquire ∨ su = suitHeld → findLine s (setOf s key) (digestOf s key) = some n → l.lstate = .absent →
          (suitAt s (lineSuit n)).holder = some (.trick d c) → t.suit = some (lineSuit n) →
        (exec (.lookup d c su) s = .next (setTrick s d c { t with image := none, recAt := none, flowNew := false, created := none }))
        ∧ (∀ p, trickPkt s t = some p → t.log.length < 32 →
          ∀ i syn, (i = .lookupCreate d c su out ∧ syn = false) ∨ (i = .lookupCreateSyn d c su out ∧ syn = true ∧ synOnly p = true) →
          (createOk s n = true → exec i s = .next (setTrick s d c { t with image := none, recAt := some (.line n), flowNew := true, created := some (bits out.toNat 7 4, bits out.toNat 3 0), log := t.log ++ [⟨.create syn (bits out.toNat 7 4) (bits out.toNat 3 0), some (.line n)⟩] }))
          ∧ (createOk s n = false → exec i s = .next (setTrick (bump s aInsertLimited) d c
              { t with image := none, recAt := none, flowNew := false, created := none, tf := t.tf ||| 0x20#8 })))))

/-- READ, FSM_STEP, LOOKUP_INDEX, SCAN and TASK_POST. READ takes the image of the latched record again; FSM_STEP computes
its cell's transition or counts an undefined one; LOOKUP_INDEX latches a valid record by its index, with its suit when
asked, and restarts on a poisoned one; SCAN latches the next expired record, with the cursor the routine's own until
COMMIT, waits for a held suit, or ends; TASK_POST reserves a handle for its body or counts POST_FAIL. Which free
handle is taken is a free value (assumption 3). [R75, R175, R188, R194, R200, R201, R227, R228, R230, Table 9.1, Table
9.2] -/
def Obligations.RecordsAreSteppedScannedAndTasksPosted : Prop :=
  -- R75, R175, R188, R194, R200, R201, Tables 9.1, 9.2
  (∀ (s : State) (d c su f : Nat) (out : W32) (t : Trick),
      running s d c t → t.committed = false → t.log.length < 32 → su < 4 → f < 64 →
      ∀ rd : State → Nat → State × List Byte × Bool, rd = (fun u i => hbmRead u (recSource d) (recWordOff u i 0) (recBytes u - 4)) →
      ((stageOf d = 2 ∨ stageOf d = 7) →
        ((∀ i, t.recAt ≠ some (.index i)) → exec (.flowOpRead d c) s = .next s)
        ∧ (∀ i, t.recAt = some (.index i) → (rd s i).2.2 = false → exec (.flowOpRead d c) s = .next (rd s i).1)
        ∧ (∀ ws st k age w next on, t.flowNew = false → t.image = some ws → ((su ≠ suitNone ∧ t.suit ≠ none) ∨ gathers t = true) →
            st = bits (wordOf ws (coreW s)) 31 24 → k = bits (wordOf ws (coreW s)) 23 20 → age = bits (wordOf ws (coreW s)) 19 16 →
            w = fsmCell s t.slot k st (out.toNat % 32) → next = bits w 31 24 → on = bit w 15 →
            ((fsmCount s t.slot ≤ k ∨ 32 ≤ st) → exec (.fsmStep d c su out) s = .next (setTrick (bump s aFsmUndef) d c { t with
                fsmRes := BitVec.ofNat 32 (st % 256 * 2 ^ 8 + st % 256 * 2 ^ 16 + age % 16 * 2 ^ 24 + 2 ^ 30),
                tf := t.tf ||| 0x10#8, releaseAt := t.releaseAt || su == suitRelease }))
            ∧ (k < fsmCount s t.slot → st < 32 → exec (.fsmStep d c su out) s = .next (setTrick s d c { t with
                fsmRes := BitVec.ofNat 32 (bits w 23 16 + (if next = 0xFF then st else next) * 2 ^ 8 + st * 2 ^ 16
                  + (if on then bits w 11 8 else age) * 2 ^ 24 + b2n on * 2 ^ 28 + b2n (next != 0xFF) * 2 ^ 29),
                log := if next = 0xFF && !on then t.log
                  else t.log ++ [⟨.fsm (if next = 0xFF then none else some next) (if on then some (bits w 11 8) else none), t.recAt⟩],
                releaseAt := t.releaseAt || su == suitRelease }))))
      ∧ (stageOf d = 7 → ∀ i, i = out.toNat % 2 ^ 28 →
        (indexValid s i = false → exec (.lookupIndex d c suitNone out) s = .next (setTrick s d c
            { t with image := none, recAt := none, flowNew := false, created := none }))
        ∧ (indexValid s i = true → (rd s i).2.2 = false → exec (.lookupIndex d c suitNone out) s = .next (setTrick (rd s i).1 d c
            { t with image := some (fullRecord s i), recAt := some (.index i), flowNew := false, created := none }))
        ∧ (indexValid s i = true → (rd s i).2.2 = true → t.restarts < restartMax s → ∃ t' x, exec (.lookupIndex d c suitNone out) s = .next t'
            ∧ trickAt t' d c = some x ∧ x.restarts = t.restarts + 1 ∧ x.pkt = t.pkt ∧ x.task = t.task ∧ x.log = [] ∧ x.ended = false)
        ∧ (indexValid s i = true → t.suit ≠ some i → (suitAt s i).holder = none →
            ∀ x u, x = { t with suit := some i, more := (t.suit.toList ++ t.more).filter (· != i) } →
              u = setTrick (takeSuit s i (.trick d c)) d c x → (rd u i).2.2 = false →
              exec (.lookupIndex d c suitAcquire out) s = .next (setTrick (rd u i).1 d c
                { x with image := some (fullRecord s i), recAt := some (.index i), flowNew := false, created := none })
              ∧ (suitAt u i).holder = some (.trick d c))))
  -- R194, R227, R228, R230, R188
  ∧ (∀ (s : State) (d c su f : Nat) (out : W32) (t : Trick),
      running s d c t → t.committed = false → t.log.length < 32 → su < 4 → f < 64 → stageOf d = 7 →
      (∀ a b, scanCursor s t = some (a, b) → ¬ (t.suit = some a ∧ t.recAt = none) →
        (nextExpired s a (b - a) = none → exec (.scan d c suitAcquire) s = .next (setTrick s d c
            { t with image := none, recAt := none, flowNew := false, created := none, scanPos := some b }))
        ∧ (∀ i, nextExpired s a (b - a) = some i → t.suit ≠ some i → (suitAt s i).holder = none →
            ∀ x u rd, x = { t with suit := some i, more := (t.suit.toList ++ t.more).filter (· != i), scanPos := some (i + 1) } →
              u = setTrick (takeSuit s i (.trick d c)) d c x → rd = hbmRead u (recSource d) (recWordOff u i 0) (recBytes u - 4) →
              rd.2.2 = false →
              exec (.scan d c suitAcquire) s = .next (setTrick rd.1 d c
                { x with image := some (fullRecord s i), recAt := some (.index i), flowNew := false, created := none })
              ∧ (suitAt u i).holder = some (.trick d c))
        ∧ (∀ i h, nextExpired s a (b - a) = some i → (suitAt s i).holder = some h → h ≠ .trick d c →
            exec (.scan d c suitAcquire) s = .next (setTrick (waitSuit s i (.trick d c)) d c
              { t with scanPos := some i, wait := some (.suit i 15 0), recAt := none, image := none, flowNew := false })))
      ∧ (ksorted s.tasks = true →
        (freeHandles s ≤ 4097 → exec (.taskPost d c su f out) s = .next (setTrick (bump s aPostFail) d c { t with fsmRes := 0x80000000#32 }))
        ∧ (4097 < freeHandles s → ∃ t' h e, exec (.taskPost d c su f out) s = .next t'
            ∧ h < poolHandles ∧ kget s.tasks h = none ∧ kget t'.tasks h = some e ∧ e.state = .reserved ∧ e.count = f % 32
            ∧ e.body.args = t.g.take 4 ∧ e.body.suit = postSuit s t su ∧ e.body.succ = (if bit f 5 then t.posted.head? else none)
            ∧ e.body.routine = bits out.toNat 7 0 ∧ e.body.level = bits out.toNat 10 8 ∧ e.body.urgent = bit out.toNat 11
            ∧ e.body.list = bits out.toNat 15 12 ∧ e.body.delay = bits out.toNat 31 16
            ∧ trickAt t' d c = some { t with fsmRes := BitVec.ofNat 32 h, posted := t.posted ++ [h], log := t.log ++ [⟨.post h e.body, t.recAt⟩] })))

/-- SEND cuts a cell; staging, the plane match, resequencing. A short whole frame is cut into one cell behind its header
and frees its vector and its buffer entries; a closed cell enters staging with its sequence number for one credit; the
plane match moves the one staged cell across and advances its pointers; arriving cells within the window are held,
late ones passed over as lost, and a missing one is counted as lost after the time-out. One frame for each cut is
assumption 45. [R14, R243, R244, R246, R247, R248, R249, R251, R252, R253] -/
def Obligations.CellsAreCutStagedMatchedAndReleased : Prop :=
  -- R243, R244, R246, R14
  (∀ (s : State) (h : Nat) (it : SendItem) (p : Pkt) (n : Nat), h < 32 → it.pot < 32 → kget s.sendq h = some [it] → it.started = false →
      getPkt s it.vec = some p → p.ended = true → n = it.stream.length → n + 32 < 256 → sendHeld s (pktQueue p) = false →
      kget s.opens (32 * h + it.pot) = none → (∀ k c, (k, c) ∈ s.opens → k / 32 = h → cellFull c = false) →
      ∃ t c, exec (.cellCut h) s = .next t ∧ kget t.opens (32 * h + it.pot) = some c ∧ c.payload = frameHdr p n ++ it.stream
        ∧ c.segs = [⟨32 + n, true, true, p.bad, pktEpoch p⟩] ∧ c.src = h ∧ c.dst = it.pot
        ∧ kget t.sendq h = none ∧ getPkt t it.vec = none ∧ t.cutq = s.cutq
        ∧ (p.entries = 0 → t.occ = s.occ) ∧ (p.entries ≠ 0 → t.occ = (freeOcc s p.port p.cls p.entries).occ))
  -- R247, R251
  ∧ (∀ (s : State) (h : Nat) (c : Cell), h < 32 → kget s.cutq h = some [c] → 0 < (pairOf s h c.dst).credits →
      (∀ pl, pl < 4 → stagedAt s h pl = []) → (∀ k x, (k, x) ∈ s.opens → k / 32 ≠ h) →
      ∃ t, exec (.stagingFill h) s = .next t ∧ stagedAt t h 0 = [{ c with seq := (pairOf s h c.dst).seq }] ∧ kget t.cutq h = none
        ∧ pairOf t h c.dst = ⟨((pairOf s h c.dst).seq + 1) % 65536, (pairOf s h c.dst).credits - 1⟩)
  -- R252, R253, R251
  ∧ (∀ (s : State) (p h : Nat), p < 32 → h < 32 →
      (∀ c rest t, kget s.crossing (32 * p + h) = some (c :: rest) → t = { s with crossing := kput s.crossing (32 * p + h) (if rest = [] then none else some rest) } →
        (wrapSub 16 c.seq (reseqOf s p h).expect < 64 →
          exec (.cellArrive p h) s = .next (setReseq t p h { reseqOf s p h with held := (reseqOf s p h).held ++ [c] }))
        ∧ (64 ≤ wrapSub 16 c.seq (reseqOf s p h).expect → exec (.cellArrive p h) s = .next (cellLost t c)))
      ∧ (∀ x, x = reseqOf s p h → x.held ≠ [] → (∀ c, c ∈ x.held → c.seq ≠ x.expect) → (∀ q f, x.recv ≠ .into q f) →
          exec (.reseqTimeout p h) s = .next (giveCredit (setReseq (bump s (aReseqLost p)) p h { x with expect := (x.expect + 1) % 65536, recv := .discard }) h p))
      ∧ (∀ x c, x = reseqOf s p h → x.held = [c] → c.seq = x.expect → x.recv = .discard → (∃ g, c.segs = [g] ∧ g.start = false) →
          exec (.cellRelease p h) s = .next (setReseq (giveCredit (setReseq s p h { x with expect := (x.expect + 1) % 65536, held := [] }) h p) p h
            { x with expect := (x.expect + 1) % 65536, held := [], recv := if (c.segs.all fun g => g.last) then .none else .discard })))
  -- R248, R249
  ∧ (∀ (s : State) (pl h : Nat) (c : Cell), pl < 4 → h < 32 → c.dst < 32 → stagedAt s h pl = [c] → (∀ g, g < 32 → g ≠ h → stagedAt s g pl = []) →
      ∃ t, exec (.planeMatch pl []) s = .next t ∧ stagedAt t h pl = []
        ∧ kgetD t.crossing (32 * c.dst + h) [] = kgetD s.crossing (32 * c.dst + h) [] ++ [c]
        ∧ (∀ k, k ≠ 32 * c.dst + h → kget t.crossing k = kget s.crossing k)
        ∧ kget t.grantp (32 * pl + c.dst) = some ((h + 1) % 32) ∧ kget t.acceptp (32 * pl + h) = some ((c.dst + 1) % 32)
        ∧ regRaw t (aFab pl 0) 0 % 2 ^ 48 = (regRaw s (aFab pl 0) 0 % 2 ^ 48 + 1) % 2 ^ 48)

/-- A released frame of one cell is admitted to its queue or dropped. CELL_RELEASE of the expected cell with one whole
frame returns its credit; admission drops the frame, and its epoch has one less in flight, or the frame stands whole
and visible in the queue that its header names. [R244, R251, R252, R254, R255] -/
def Obligations.AReleasedFrameEntersItsQueue : Prop :=
  ∀ (s u v : State) (p h q : Nat) (x : Reseq) (c : Cell) (g : Seg) (hdr body : List Byte) (a : Option (List Byte)), p < 32 → h < 32 →
    x = reseqOf s p h → x.held = [c] → c.seq = x.expect → c.segs = [g] → g.start = true → g.last = true → g.bad = false →
    g.stop = c.payload.length → c.payload = hdr ++ body → hdr.length = 32 → body.length + 32 ≤ 256 → q = fld hdr 12 2 →
    u = giveCredit (setReseq s p h { x with expect := (x.expect + 1) % 65536, held := [] }) h p → admitPot u q hdr = (a, v) →
    (a = none → exec (.cellRelease p h) s = .next (setReseq (flightDown v g.epoch) p h { x with expect := (x.expect + 1) % 65536, held := [], recv := .none }))
    ∧ (a ≠ none → (queueOf v q).frames = [] → (portOf v (queuePort v q)).txq = [] → ∃ t f, exec (.cellRelease p h) s = .next t
      ∧ (queueOf t q).frames = [f] ∧ f.bytes = body ∧ f.whole = true ∧ f.visible = true ∧ f.bad = false ∧ f.started = false ∧ f.fromClk = s.clk + 8
      ∧ f.id = v.frameNo ∧ t.frameNo = v.frameNo + 1 ∧ f.slot = g.epoch ∧ f.cells.length = 1
      ∧ reseqOf t p h = { x with expect := (x.expect + 1) % 65536, held := [], recv := .none }
      ∧ pairOf t h p = ⟨(pairOf s h p).seq, min 64 ((pairOf s h p).credits + 1)⟩)

/-- Queue samples at their boundary; the sweep of buckets. A sampled queue's item enters its group's ring and its measures
start again; the sweep brings policers and shapers to the present clock without changing what they hold by then.
[R284, R285, R286] -/
def Obligations.QueueSamplesAndSweeps : Prop :=
  -- R286
  (∀ (s : State) (g p q r lost : Nat) (kept : List (List Byte × Bool)), g < 16 → p < 32 → hasDeck s = true → bits (sgroupW s g) 32 13 ≠ 0 →
      sampledQueues s p g = [q] → (∀ p', p' < 32 → p' ≠ p → sampledQueues s p' g = []) → r = bits (sgroupW s g) 12 0 →
      ((ringCfg s r).byLength = false ∨ (ringOf s r).slots = []) →
      freeItems (ringOf s r).items (ringOf s r).part (2 ^ (ringCfg s r).log2 - (ringOf s r).waiting) (queueItem s q).length = some (kept, lost) →
      ∃ t, exec (.sampleBoundary g) s = .next t ∧ (ringOf t r).items = kept ++ [(queueItem s q, false)]
        ∧ (queueOf t q).frames = (queueOf s q).frames
        ∧ (queueOf t q).sample = ⟨qDepth s q, qDepth s q, 0, 0⟩)
  -- R284, R285
  ∧ (∀ (s : State), ∃ t, exec .tmSweep s = .next t
      ∧ (∀ n c e a, kget s.policers n = some (c, e, a) → kget t.policers n = some ((policerNow s n).1, (policerNow s n).2, s.clk))
      ∧ (∀ n, policerNow t n = policerNow s n)
      ∧ (∀ k n, n < 65536 → kget s.shapers (65536 * k + n) ≠ none → kget t.shapers (65536 * k + n) = some ⟨shaperNow s k n, s.clk⟩))

/-- TM_SELECT starts the eligible head frame of the port whose turn it is. With one queue ready, TM_SELECT marks its head
frame started, charges its deficit, and starts its TAKE routine in a free context at the frame's epoch; the turn goes
to its port. [R244, R272, R273, R274, R275] -/
def Obligations.ASelectionStartsTheEligibleHeadFrame : Prop :=
  ∀ (s : State) (p q g i o : Nat) (f : PotFrame), p < 32 → i < 8 → hasDeck s = true → potQueues s p = [q] → q / 2048 = p →
    queuePort s q = 8 * p + i → (∀ j, j < 8 → j ≠ i → portReady s (8 * p + j) = false) → portReady s (8 * p + i) = true →
    (queueOf s q).frames = [f] → queueEligible s q = true → timeTriggered f = false →
    qGroup s q = g → shaperOk s 1 g = true → turnGroup s (8 * p + i) = some g → (grpDefOf s g).lost = false → 0 < (grpDefOf s g).deficit →
    qPrio s q < 8 →
    (queueOf s q).turn = true → (queueOf s q).lost = false → 0 < (queueOf s q).deficit →
    ksorted s.tricks = true → (tricksOf s (160 + p)).length < 256 → routineOff s (hdrEpoch f) (stageOf (160 + p)) (bits (hdrW f 6) 23 16) = some o →
    ∃ t c x, exec (.tmSelect p) s = .next t ∧ (queueOf t q).frames = [{ f with started := true }]
      ∧ (queueOf t q).deficit = (queueOf s q).deficit - startCharge s q f
      ∧ trickAt s (160 + p) c = none ∧ trickAt t (160 + p) c = some x ∧ x.pkt = eKey f.id ∧ x.slot = hdrEpoch f
      ∧ x.routine = bits (hdrW f 6) 23 16 ∧ x.ended = false ∧ getPkt t (eKey f.id) = some (takePkt f q) ∧ kget t.potTurn p = some i

/-- Kept records are mirrored and re-inserted; summaries and snapshots. The mirroring task copies a kept record into its
slot, leaving the rest of the kitty, or counts MIRROR_FULL; the summary writes the time area; a snapshot answers its
group's image and counts its sequence; a kept record that waits is re-inserted by a task of its own (assumption 13)
under the index it gets, or its slot is freed when its key stands already or no place is found (assumption 28). [R220,
R222, R230, R365, R366, R388, R402, R405, Table 16.3] -/
def Obligations.TheKittyIsMirroredSummarizedAndReinserted : Prop :=
  -- R220, R402, R230: the mirroring task
  (∀ (s u : State), keepUp s = true → hasDeck s = true → partRuns (mirrorBody s).2 (mirrorBody s).1 = some u →
      (∀ n, s.keep.queue = [n] → u.keep.queue = [n] →
        (∀ k, keepSlotOf u n = some k → ∃ t m, exec .kittyMirror s = .next t
          ∧ t.keep = { u.keep with queue := [] } ∧ t.kitty = m ∧ t.tasks = u.tasks ∧ t.hbm = u.hbm
          ∧ memRead m (128 * k) 4 = toBytes 4 (2 ^ 31 + n % 2 ^ 28)
          ∧ (∀ w, w < 31 → memRead m (128 * k + 4 + 4 * w) 4 = toBytes 4 (if w < tagW u then wordOf (mirrorWords u n) w else 0))
          ∧ ∀ a, (a < 128 * k ∨ 128 * k + 128 ≤ a) → memGet m a = memGet u.kitty a)
        ∧ (keepSlotOf u n = none → 28672 ≤ kcount u.keep.slots 0 28672 → ∃ t, exec .kittyMirror s = .next t
          ∧ t.kitty = u.kitty ∧ t.keep = { u.keep with queue := [] } ∧ regRaw t aMirrorFull 0 = regRaw (bump u aMirrorFull) aMirrorFull 0))
      ∧ ∃ t, exec .kittySummary s = .next t
        ∧ memRead t.kitty kTime 40 = toBytes 8 (timeReg u) ++ toBytes 8 (rateReg u) ++ toBytes 8 (phaseReg u) ++ toBytes 8 (utcReg u)
            ++ toBytes 8 (u.time.leapAt % 2 ^ 48)
        ∧ (∀ a, a < kTime → memGet t.kitty a = memGet u.kitty a)
        ∧ t.keep = u.keep ∧ t.time = u.time)
  -- R365, R366, Table 16.3
  ∧ (∀ (s : State) (n g : Nat) (ws : List Nat), ready s n 1 → g < 65536 → groupWords s g = some ws →
      ((groupPriv g = true → levelOf s n = 3) → 2 ≤ g → exec (.snapshot n g) s = .next (answer
        { s with snapSeq := kset s.snapSeq g ((kgetD s.snapSeq g 0 + 1) % 2 ^ 32) } n 0x10 g stOk
        (toBytes 2 g ++ toBytes 2 ws.length ++ toBytes 4 ((kgetD s.snapSeq g 0 + 1) % 2 ^ 32) ++ toBytes 6 (nowS s)
          ++ toBytes 4 (nowNs s % 10 ^ 9) ++ toBytes 1 (b2n s.time.valid) ++ toBytes 13 0 ++ ws.flatMap (toBytes 8))))
      ∧ (groupPriv g = true → levelOf s n < 3 → exec (.snapshot n g) s = .next (answer s n 0x10 g stPrivilege [])))
  -- R222, R388, R405
  ∧ (∀ (s v w : State) (k : Nat) (ws : List W32) (key : List Byte), keepUp s = true → hasDeck s = true → s.keep.due = true →
      s.rst.foldFlow = .open_ → dueSlots s = [k] →
      (s.lines.any fun e => (e.2.lstate == .pending || e.2.lstate == .absent) && e.2.key == keyOf s (keptWords s k)) = false →
      partRuns (reinsertBody s).2 (reinsertBody s).1 = some v → w = cross v 110 64 (chunks 64 (memRead v.kitty (128 * k) 128)) →
      ws = keptWords v k → key = keyOf v ws →
      (keyPresent w key = true → ∃ t, exec .keptReinsert s = .next t ∧ t.keep.slots = kdel v.keep.slots k
          ∧ memRead t.kitty (128 * k) 4 = [0, 0, 0, 0] ∧ t.hbm = v.hbm ∧ t.regs = v.regs ∧ t.keep.restored = v.keep.restored)
      ∧ (keyPresent w key = false → makePlace w key = none → ∃ t, exec .keptReinsert s = .next t ∧ t.keep.slots = kdel v.keep.slots k
          ∧ memRead t.kitty (128 * k) 4 = [0, 0, 0, 0] ∧ t.hbm = v.hbm ∧ t.regs = (bump v aInsertFail).regs)
      ∧ (∀ u i second, keyPresent w key = false → makePlace w key = some (u, i, second) →
          ∃ t, exec .keptReinsert s = .next t ∧ t.keep.slots = kset u.keep.slots k i
            ∧ t.keep.restored = (u.keep.restored + 1) % 2 ^ 15 ∧ memRead t.kitty (128 * k) 4 = toBytes 4 (2 ^ 31 + i % 2 ^ 28)
            ∧ t.hbm = (writeRecord u i ws (tagWord second (digestOf v key))).hbm))

/-- A completed fetch fills its line, or finds nothing. FETCH_COMPLETE, or SNAP's own command under that game, of a found
record whose reads brought no poison fills the pending line with the record and the touches that waited, and hands the
line's suit to the record's index; of an absent key it frees an unwanted line, or leaves it known absent for the trick
that waits. [R181, R184, R189, R192] -/
def Obligations.AFetchFillsItsLine : Prop :=
  ∀ (s : State) (z i : Nat) (l : Line) (c o : Instr), z < 2 ^ 27 → l = lineOf s z → l.lstate = .pending → (∀ e ∈ s.hbmc.reqs, ∀ r ∈ e.2, r.line ≠ z) →
    (∀ r ∈ kgetD s.hbmc.tags z [], r.bad = false) →
    (isSnap s = true → c = .snapFetchComplete z false ∧ o = .fetchComplete z false) → (isSnap s = false → c = .fetchComplete z false ∧ o = .snapFetchComplete z false) →
    c.wellFormed = true → exec o s = .next s
    ∧ (fetchFind (lineTag s z) s l.key = .found i → recordPoison s (fetchVisits (lineTag s z) s l.key (.found i)) = false → clashLine s z i = none → kget s.suits i = none → i < 2 ^ 27 →
      ∃ t y, exec c s = .next t ∧ kget t.lines z = some y ∧ y.lstate = .record ∧ y.index = i ∧ y.dirty = (l.touches.1 != 0)
        ∧ y.words = lineHot s (touchSum s (hbmRecord s i) l.touches) ∧ y.provisional = l.provisional ∧ t.hbm = s.hbm
        ∧ (∀ d x b u op out, kget s.suits (lineSuit z) = some ⟨some (.trick d x), [], []⟩ → trickAt s d x = some u → u.suit = some (lineSuit z) → u.more = [] →
            u.wait = some (.fetch b op out) →
            suitAt t i = ⟨some (.trick d x), [], []⟩ ∧ suitAt t (lineSuit z) = Suit.idle
            ∧ (b = z → trickAt t d x = some { u with suit := some i, wait := some (.woken op out) })))
    ∧ (∀ hint, fetchFind (lineTag s z) s l.key = .absent hint → recordPoison s (fetchVisits (lineTag s z) s l.key (.absent hint)) = false → l.gathered = none →
      (kget s.suits (lineSuit z) = none → ∃ t, exec c s = .next t ∧ t.lines = kdel s.lines z)
      ∧ (∀ d x u op out, kget s.suits (lineSuit z) = some ⟨some (.trick d x), [], []⟩ → trickAt s d x = some u → u.wait = some (.fetch z op out) →
          ∃ t, exec c s = .next t ∧ kget t.lines z = some { l with lstate := .absent, hint := hint, touches := (0, 0, 0) }
            ∧ trickAt t d x = some { u with wait := some (.woken op out) }))

/-- Insert windows, scan tasks, delay lists and re-entry from the stock. An insert window rolls; a scan task of the next
chunk is posted with its delay, or held for the list's next tick where the pool is empty; a delay list's tick expires
its tasks, which become ready or wait on; a parked packet re-enters FLOW in a free context with its suit and the time
it has used. [R189, R193, R230, R231, R232, R233, R236] -/
def Obligations.WindowsScansDelaysAndReEntry : Prop :=
  -- R193, R230, R231, R232, R233
  (∀ (s : State),
      (∀ bank w, okBank bank = true → hasDeck s = true → inWindow s = true → bank < banks s → w = kgetD s.windows bank (0, 0) →
        exec (.insertWindowRoll bank) s = .next { s with windows := kset s.windows bank (w.1 + 1, 0) })
      ∧ (hasDeck s = false → exec .scanTaskPost s = .next s)
      ∧ (hasDeck s = true → ksorted s.tasks = true → kcount s.tasks 0 poolHandles < poolHandles →
          ∀ num, num = fgF s 10 2 * 10 ^ 6 + s.scanRem → ∃ t h k, exec .scanTaskPost s = .next t ∧ kget s.tasks h = none ∧ kget t.tasks h = some k
            ∧ k.kind = .scan (4096 * s.scanAt) (4096 * s.scanAt + 4096) ∧ k.body.list = 14 ∧ k.body.delay = num / scanChunks s ∧ k.body.level = fgF s 12 1 % 8
            ∧ k.body.suit = none ∧ t.scanAt = (s.scanAt + 1) % scanChunks s ∧ t.scanRem = num % scanChunks s)
      ∧ (hasDeck s = true → kcount s.tasks 0 poolHandles = poolHandles → s.postHeld.contains .scan = false →
          ∃ t, exec .scanTaskPost s = .next t ∧ t.postHeld = s.postHeld ++ [.scan] ∧ t.tasks = s.tasks ∧ t.scanAt = s.scanAt ∧ t.scanRem = s.scanRem)
      ∧ (∀ k now, k < 16 → now = (listNow s k + 1) % 2 ^ 21 → (∀ p ∈ s.postHeld, heldList s p ≠ k) →
          (kget s.tickNew k = none → s.tasks.filter (fun e => e.2.state == .delayed && e.2.list == k && tickPassed now e.2.expiry) = [] →
            exec (.delayListTick k) s = .next { s with listNow := kset s.listNow k now, moverAt := kset s.moverAt k (max s.clk (kgetD s.moverAt k 0)) })
          ∧ (∀ h x, kget s.tickNew k = none → s.tasks.filter (fun e => e.2.state == .delayed && e.2.list == k && tickPassed now e.2.expiry) = [(h, x)] →
              ksorted s.tasks = true → kget s.tasks h = some x → ∃ t y, exec (.delayListTick k) s = .next t ∧ kget t.listNow k = some now ∧ kget t.tasks h = some y
                ∧ y.delayed = false ∧ y.state = (if 0 < x.count then .waiting else .ready) ∧ y.body = x.body ∧ y.kind = x.kind)))
  -- R189, R236
  ∧ (∀ (s : State) (hand h d o : Nat) (x : Task) (p : Parked), hand < 32 → d = 64 + hand →
      (reentryNext s hand = none → exec (.stockReentry hand) s = .next s)
      ∧ (reentryNext s hand = some (h, x) → kget s.stock x.stock = some p → p.poison = false → ksorted s.tricks = true → ksorted s.pkts = true →
        (tricksOf s d).length < 256 → kcount s.pkts (256 * hand) (256 * hand + 256) < 256 → routineOff s (pktEpoch p.pkt) (stageOf d) p.routine = some o →
        ∃ t c k y, exec (.stockReentry hand) s = .next t ∧ trickAt s d c = none ∧ kget s.pkts k = none ∧ 256 * hand ≤ k ∧ k < 256 * hand + 256
          ∧ trickAt t d c = some y ∧ y.pkt = k ∧ y.suit = some p.suit ∧ y.reentry = true ∧ y.routine = p.routine ∧ y.restarts = p.restarts
          ∧ y.slot = pktEpoch p.pkt ∧ y.entryClk = s.clk - p.wd ∧ getPkt t k = some p.pkt ∧ t.stock = kdel s.stock x.stock
          ∧ (suitAt t p.suit).holder = some (.trick d c) ∧ (suitAt t p.suit).chain = (suitAt s p.suit).chain.filter (· != x.stock)))

/-- Periodic exports and dumps. EXPORT_PERIOD posts its task while the deck asks for exports; a dump counts one more SEQ
and a capture of each of its groups, or is skipped and counted while a stack failed training; an engine without a
record does nothing. [R371, R373, Table 16.5] -/
def Obligations.ExportTasksArePostedAndDumpsAreWrittenOrSkipped : Prop :=
  ∀ (s : State),
    (∀ p, p = coldF s tyObs 8 2 → (hasDeck s = false ∨ p = 0 → exec .exportPeriod s = .next s)
      ∧ (hasDeck s = true → 0 < p → ksorted s.tasks = true → kcount s.tasks 0 poolHandles < poolHandles →
          ∃ t h k, exec .exportPeriod s = .next t ∧ kget s.tasks h = none ∧ kget t.tasks h = some k ∧ k.kind = .exporting ∧ k.delayed = true
            ∧ k.body = { args := [0, 0, 0, 0], suit := none, succ := none, routine := coldF s tyObs 6 1, list := 15, urgent := false,
                         level := tskLevel s 2, delay := p, origin := 2 }))
    ∧ (∀ e, okEngine e = true → dumpRec s e = none → exec (.dumpCapture e) s = .next s)
    ∧ (∀ e o, okEngine e = true → dumpRec s e = some o → trainFailed s = true →
        exec (.dumpCapture e) s = .next (bump { s with dumps := kset s.dumps e { dumpOf s e with skipped := true } } (aDumpSkips e)))
    ∧ (∀ e o x gs, okEngine e = true → dumpRec s e = some o → trainFailed s = false → ksorted s.tasks = true → kcount s.tasks 0 poolHandles < poolHandles →
        x = dumpOf s e → gs = (List.range (coldF s tyObs (o + 2) 1)).map (fun i => coldF s tyObs (o + 16 + 2 * i) 2) →
        ∃ t, exec (.dumpCapture e) s = .next t ∧ kget t.dumps e = some ⟨x.seq + 1, x.seq % coldF s tyObs (o + 1) 1, true, false⟩
          ∧ t.snapSeq = gs.foldl (fun m g => kset m g ((kgetD m g 0 + 1) % 2 ^ 32)) s.snapSeq ∧ t.sent = s.sent ∧ t.zat = s.zat ∧ t.deck = s.deck)

/-- Holdover, leaps, time outputs, grants, launches and gate lists. Each event takes place at its instant and changes
nothing before it: holdover is entered, and exceeded past HOLD_SPEC, a leap second applied, outputs sent once a second
while the time is valid, a unicast grant expired, a launch released, a gate list started and stepped through its
entries; a gate change goes through the core time queue (assumption 12), and the clk that takes it sets its port's
gates and no other's. [R28, R278, R294, R298, R299, R307, R310, R311, R312] -/
def Obligations.TimeEventsAndGateLists : Prop :=
  -- R294, R298, R299, R307, R310
  (∀ (s : State),
      (s.time.state = .locked → exec .holdoverEnter s = .next { s with time := { s.time with
          state := .holdover, run := 0, ppsOk := false, lastUtc := none, waitTod := false, holdFrom := s.clk, rate := s.time.integral } })
      ∧ (s.time.state = .holdover → tiF s 10 2 < holdAge s → exec .holdoverOut s = .next { s with time := { s.time with state := .holdoverOut } })
      ∧ (s.time.state = .holdover → holdAge s ≤ tiF s 10 2 → exec .holdoverOut s = .next s)
      ∧ (s.time.pending ≠ 0 → s.time.leapAt ≤ nowS s → exec .leapInstant s = .next { s with time := { s.time with
          utcOff := s.time.utcOff + (if s.time.pending = 1 then 1 else -1), pending := 0 } })
      ∧ (∀ o i n, okPps o = true → s.time.valid = true → timeTakes s = true → bit (tiF s 24 1) o = true → ppsRec s o = some i →
          n = (Int.ofNat (nowNs s) - sint 32 (tiR s i 8 4)) / 10 ^ 9 →
          (kget s.time.ppsSec o ≠ some n → exec (.ppsOutEdge o) s = .next { s with sent := s.sent ++ [.pps o (tiR s i 4 4)], time := { s.time with ppsSec := kset s.time.ppsSec o n } })
          ∧ (kget s.time.ppsSec o = some n → exec (.ppsOutEdge o) s = .next s))
      ∧ (∀ o, s.time.valid = false → exec (.ppsOutEdge o) s = .next s ∧ exec .todOut s = .next s)
      ∧ (s.time.valid = true → timeTakes s = true → tiF s 2 1 % 4 = 1 → ∃ t a b, exec .todOut s = .next t
          ∧ t.sent = s.sent ++ [.tod (zda a b (Int.ofNat (nowS s) - s.time.utcOff).toNat)] ∧ (65 ≤ a.toNat ∧ a.toNat ≤ 90) ∧ (65 ≤ b.toNat ∧ b.toNat ≤ 90))
      ∧ (∀ k w, okGrant k = true → w = regRaw s (aUnicast k 0) 0 → bit w 0 = true →
          (w / 2 ^ 32 ≤ nowS s % 2 ^ 32 → exec (.unicastExpiry k) s = .next (setReg s (aUnicast k 0) (w - 1)))
          ∧ (nowS s % 2 ^ 32 < w / 2 ^ 32 → exec (.unicastExpiry k) s = .next s))
      ∧ (∀ q f, okQueue q = true → headFrame s q = some f → hdrLaunchValid f = true →
          (sint 40 (hdrLaunch f + 2 ^ 41 - 50 - now40 s) ≤ 0 →
            exec (.launchRelease q) s = .next (modFrame s q f.id fun x => { x with launched := true }))
          ∧ (0 < sint 40 (hdrLaunch f + 2 ^ 41 - 50 - now40 s) → exec (.launchRelease q) s = .next s)))
  -- R278, R311, R312
  ∧ (∀ (s : State) (list : Nat) (r : GateRun) (g : GateList), okGate list = true → s.coreTime.length < 16 →
      (runOf s list false = some (r, g) → r.start ≤ nowNs s + 50 → ∃ t, exec (.gateListStart list) s = .next t
        ∧ { r with running := true } ∈ t.time.gates ∧ (∀ x ∈ t.time.gates, x.running = true → x.what.port = g.port → x = { r with running := true })
        ∧ t.coreTime = s.coreTime ++ [(g.port, (nth g.entries 0 (0, 0)).1)] ∧ t.ports = s.ports)
      ∧ (runOf s list false = some (r, g) → nowNs s + 50 < r.start → exec (.gateListStart list) s = .next s)
      ∧ (runOf s list true = some (r, g) → nowNs s + 50 < r.start + r.cycle * g.cycle + entryEnd g r.entry → exec (.gateChange list) s = .next s)
      ∧ (runOf s list true = some (r, g) → r.start + r.cycle * g.cycle + entryEnd g r.entry ≤ nowNs s + 50 →
          ∀ r', r' = (if g.entries.length ≤ r.entry + 1 then { r with entry := 0, cycle := r.cycle + 1 } else { r with entry := r.entry + 1 }) →
          ∃ t, exec (.gateChange list) s = .next t ∧ r' ∈ t.time.gates ∧ t.time.gates.length = s.time.gates.length
            ∧ t.coreTime = s.coreTime ++ [(g.port, (nth g.entries r'.entry (0, 0)).1)] ∧ t.ports = s.ports)
      ∧ (∀ p v, p < 256 → s.pending = [] → s.coreTime = [(p, v)] → s.time.genDue = [] → ¬ (s.clk + 1) % 1600000000 = 0 → s.clk + 1 ≠ s.rst.heldTill →
          ∃ t, step s = .next t ∧ t.coreTime = [] ∧ (portOf t p).gates = BitVec.ofNat 8 v ∧ ∀ x, x ≠ p → portOf t x = portOf s x))

/-- 1PPS edges and ToD sentences: counting, labelling, acquiring and locking. An edge within the interval is kept and
waits for its sentence, another one ends the run and counts; a malformed sentence ends the run and counts once; a
sentence that follows extends the run, and at ACQUIRE seconds of an invalid time it steps the timebase and locks
(assumption 46). [R293, R294, R295, Table 13.11] -/
def Obligations.InputSecondsAreLabelledCountedAndLocked : Prop :=
  ∀ (s : State), bit s.rst.good 6 = true →
    (timeTakes s = false → (∀ ph, exec (.ppsEdge ph) s = .next s) ∧ ∀ bs, exec (.todSentence bs) s = .next s)
    ∧ (∀ ph e l, timeTakes s = true → e = Int.ofNat (s.time.base / 2 ^ 40) + ph - sint 16 (tiF s 22 2) * 256 → s.time.waitTod = false →
        phaseOf e = sint 32 (uns 32 (phaseOf e)) → s.time.lastEdge = some l → bit (tiF s 1 1) 2 = false →
        ((e - l - 256 * 10 ^ 9).natAbs ≤ 256000 →
          exec (.ppsEdge ph) s = .next { s with time := { s.time with lastEdge := some e, phase := phaseOf e, waitTod := true, todBad := false } })
        ∧ (256000 < (e - l - 256 * 10 ^ 9).natAbs → ∃ t, exec (.ppsEdge ph) s = .next t ∧ t = { bump s (aTimeCtr 3) with time := { s.time with
            lastEdge := some e, phase := phaseOf e, tod := none, todBad := false, run := 0, ppsOk := false, lastUtc := none, waitTod := false } }))
    ∧ (∀ bs, timeTakes s = true → tiF s 1 1 % 4 = 1 → parseZda bs = none → ∃ t, exec (.todSentence bs) s = .next t
        ∧ t = { bump s (aTimeCtr 2) with time := { s.time with tod := none, todBad := bit (tiF s 1 1) 2, run := 0, ppsOk := false, lastUtc := none, waitTod := false } })
    ∧ (∀ bs u, timeTakes s = true → tiF s 1 1 % 4 = 1 → parseZda bs = some u → bit (tiF s 1 1) 2 = true →
        exec (.todSentence bs) s = .next { s with time := { s.time with tod := some u, todBad := false } })
    ∧ (∀ bs u e, timeTakes s = true → tiF s 1 1 % 4 = 1 → parseZda bs = some u → bit (tiF s 1 1) 2 = false → s.time.waitTod = true →
        s.time.lastEdge = some e → utcFollows s u = true → s.time.unlocked = false → s.time.state ≠ .locked → bit (regRaw s aRateTarget 0) 63 = false →
        (s.time.run + 1 < tiF s 3 1 → exec (.todSentence bs) s = .next { s with time := { s.time with
          run := s.time.run + 1, ppsOk := true, lastUtc := some u, waitTod := false, tod := none, edgeRef := ((e + 128) / 256).toNat,
          cameFrom := (if s.time.state = .acquiring then s.time.cameFrom else s.time.state), state := .acquiring,
          alarm := s.time.valid && Int.ofNat (tiF s 30 4 * 256) < (phaseOf e).natAbs } })
        ∧ (tiF s 3 1 ≤ s.time.run + 1 → s.time.valid = false → ∃ t, exec (.todSentence bs) s = .next t ∧ t.time.state = .locked ∧ t.time.valid = true
          ∧ t.time.steppedBy = 1 ∧ t.time.run = s.time.run + 1 ∧ t.time.ppsOk = true ∧ t.time.lastUtc = some u ∧ t.time.utcOff = s.time.utcOff
          ∧ t.time.base = ((Int.ofNat (u / 2) + s.time.utcOff) * 10 ^ 9 * 2 ^ 48 + (Int.ofNat s.time.base - e * 2 ^ 40)).toNat))

/-- PTP messages enter their queue; transmit stamps become items or Follow_Ups. A due Announce or Sync of a port's
instance is built with its next sequence id and enters the instance's queue, whole, and is counted; while the rate is
exhausted it waits, and GEN_LATE counts it; without an instance or a valid time nothing is sent, and a unicast entry
whose grant has ended is cleared. A returned stamp of a time-stamped frame becomes a ring item; of a Sync it becomes
the Follow_Up while the time is valid (assumption 47). [R302, R304, R305, R306, R307, R308, R317] -/
def Obligations.PtpMessagesAndTransmitStamps : Prop :=
  -- R304, R305, R306, R307, R308
  (∀ (s u w : State) (p i cls q udp c k d : Nat) (to_ : Option Nat) (announce : Bool) (m f hdr : List Byte) (ed : List (Nat × Nat × W32))
      (x y : Nat × Nat × Nat), okPort p = true → (∀ e, to_ = some e → okGrant e = true) → x = seqOf s p → d = (draw s).1 → q = tiR s i 10 2 →
      (announce = true → m = ptpHeader s i p 0xB 64 x.2.1 false to_.isSome 5 (if to_.isSome then 0x7F else tiR s i 7 1) ++ announceBody s cls
        ∧ udp = 320 ∧ c = 0 ∧ ed = [] ∧ y = (x.1, (x.2.1 + 1) % 65536, x.2.2) ∧ k = 3) →
      (announce = false → m = ptpHeader s i p 0 44 x.1 (!bit (tiR s i 5 1) 0) to_.isSome 0 (if to_.isSome then 0x7F else tiR s i 6 1) ++ toBytes 10 0
        ∧ udp = 319 ∧ c = (if bit (tiR s i 5 1) 0 then 0 else 1) ∧ y = ((x.1 + 1) % 65536, x.2.1, x.2.2) ∧ k = 1
        ∧ ed = (if bit (tiR s i 5 1) 0 then [(9, ptpOff s i + 34, BitVec.ofNat 32 (if tiR s i 3 1 = 3 then 36 * 256 else 0))] else [])) →
      f = ptpFrame s i p to_ udp d m → hdr = injectHdr (curSlot s) q f.length (tiR s i 14 1) (tiR s i 15 1) c 0 →
      w = { s with time := { s.time with msgAt := kset s.time.msgAt (streamKey p to_ announce) (nowNs s), genNext := s.clk + 32 } } →
      (instRec s p = some i → s.time.valid = true → hasDeck s = true → destOk s i p to_ = true → streamDue s i p to_ announce = true → held s = false →
        (s.time.genDue = [] → s.time.genNext ≤ s.clk →
          (clockClass s = some cls → injectFrame (draw w).2 q f hdr ed = (true, u) → (∀ g ∈ (queueOf s q).frames, g.id ≠ s.frameNo) → inTx s q s.frameNo = false →
            ∃ t g, exec (.ptpMessageDue p to_ announce) s = .next t ∧ t = bump (setSeq u p y) (aInst p k) ∧ g ∈ (queueOf t q).frames ∧ g.id = s.frameNo
              ∧ g.bytes = f ∧ g.macEd = ed ∧ g.visible = true ∧ g.whole = true ∧ g.bad = false)
          ∧ (clockClass s = some cls → admitPot (draw w).2 q hdr = (none, u) → exec (.ptpMessageDue p to_ announce) s = .next u)
          ∧ (clockClass s = none → exec (.ptpMessageDue p to_ announce) s = .next w))
        ∧ (s.clk < s.time.genNext ∨ s.time.genDue ≠ [] → exec (.ptpMessageDue p to_ announce) s = .next { bump s (aInst p 4) with
            time := { s.time with msgAt := kset s.time.msgAt (streamKey p to_ announce) (nowNs s), genDue := s.time.genDue ++ [.due p to_ announce] } }))
      ∧ (to_ = none → instRec s p = none ∨ s.time.valid = false → exec (.ptpMessageDue p to_ announce) s = .next s)
      ∧ (∀ e n, to_ = some e → n = regRaw s (aUnicast e 0) 0 → bit n 0 = true → n / 2 ^ 32 ≤ nowS s % 2 ^ 32 →
          exec (.ptpMessageDue p to_ announce) s = .next (setReg s (aUnicast e 0) (n - 1))))
  -- R302, R306
  ∧ (∀ (s v w : State) (o q : Nat) (x : TxStamp), okHand o = true →
      (oldestStamp s o = none → exec (.txStampReturn o) s = .next s)
      ∧ (oldestStamp s o = some x → v = setPort s x.port { portOf s x.port with stamps := (portOf s x.port).stamps.erase x } →
        (x.cls = 2 → ∀ r, r = tiF s 34 2 % 8192 → exec (.txStampReturn o) s = .next (ringWrite v r (stampItem x) false)
          ∧ ∀ kept lost, (ringCfg s r).byLength = false ∨ (ringOf s r).slots = [] →
              freeItems (ringOf s r).items (ringOf s r).part (2 ^ (ringCfg s r).log2 - (ringOf s r).waiting) 24 = some (kept, lost) →
              (ringOf (ringWrite v r (stampItem x) false) r).items = kept ++ [(stampItem x, false)])
        ∧ (x.cls ≠ 2 → instRec s x.port = none ∨ s.time.valid = false → exec (.txStampReturn o) s = .next v)
        ∧ (x.cls ≠ 2 → s.time.valid = true → s.time.genDue = [] → s.time.genNext ≤ s.clk → held s = false → w = { v with time := { v.time with genNext := s.clk + 32 } } →
            ∀ i u f, instRec s x.port = some i → q = tiR s i 10 2 → f = followUpFrame s i x.frame ((x.time + 32768) / 65536) →
            injectFrame w q f (injectHdr (curSlot s) q f.length (tiR s i 14 1) (tiR s i 15 1) 0 0) [] = (true, u) →
            (∀ g ∈ (queueOf s q).frames, g.id ≠ s.frameNo) → inTx s q s.frameNo = false → ∃ t g y, exec (.txStampReturn o) s = .next t
              ∧ y = seqOf s x.port ∧ t = bump (setSeq u x.port (y.1, y.2.1, (fld f (ptpOff s i + 30) 2 + 1) % 65536)) (aInst x.port 2)
              ∧ g ∈ (queueOf t q).frames ∧ g.bytes = f ∧ g.visible = true ∧ g.whole = true ∧ (portOf t x.port).stamps = (portOf s x.port).stamps.erase x)))

/-- DEAL_COMMIT of a flash slot or of the active deck. A commit from a flash slot copies its image into the staging area
and then does what its mode asks: VERIFY answers DECK.STATUS, HOT waits for the switch, REDEAL applies the deck; an
image that fails a check, a HOT that fails its own, and a flash read that fails (whether it does is a free value,
assumption 32) end with DECK_REJECTED and DECK.FAIL, and release the area. The active deck is a source of REDEAL
alone: the other modes answer MALFORMED, and a part without a deck NO_DECK. [R55, R56, R58, R59, R61, R352] -/
def Obligations.CommitsTakeAFlashSlotOrTheActiveDeck : Prop :=
  ∀ (s u : State) (n src : Nat) (x : Except FailRec Img), ready s n 3 → portRefused s n = false → dealBusy s = false →
    (exec (.dealCommitVerify n 1) s = .next (answer s n 0x21 0 stMalformed []) ∧ exec (.dealCommitHot n 1) s = .next (answer s n 0x21 0 stMalformed [])
      ∧ (hasDeck s = false → exec (.dealCommitRedeal n 1) s = .next (answer s n 0x21 0 stNoDeck []))
      ∧ (hasDeck s = true → loadImage s (deckArea s false) true = (u, x) → ∃ t, exec (.dealCommitRedeal n 1) s = .next t ∧ match x with
        | .error f => t.deck = { s.deck with fail := { f with source := 3 }, failSticky := true, owner := if s.deck.owner = some n then none else s.deck.owner }
          ∧ t.sent = s.sent ++ [.response n ⟨0x21, 0, stRejected, 0, toBytes 8 (failReg t)⟩] ∧ t.cold = s.cold ∧ t.hot0 = s.hot0 ∧ t.hot1 = s.hot1
        | .ok i => t.tricks = [] ∧ t.pkts = [] ∧ t.tasks = [] ∧ t.suits = [] ∧ t.cold = (i.segs.filter fun x => !isHotSeg x).foldl (fun m x => kset m x.ty x.body) []
          ∧ t.deck.phase = .redealing ∧ t.deck.deckId = fld i.hdr 0x10 8 ∧ t.deck.owner ≠ some n))
    ∧ (∀ w : State, 2 ≤ src → src < 4 → otherOwner s n = false →
      w = copyFlash { s with deck := { s.deck with stagedOk := false, owner := some n }, fresh := s.fresh + 1 } src → loadImage w (deckArea w true) false = (u, x) →
      (∃ t, exec (.dealCommitVerify n src) s = .next t ∧ if flashFails s then commitRejected s t n src (failOf 0x18) else match x with
        | .error f => commitRejected s t n src f
        | .ok _ => t.deck = { s.deck with stagedOk := true, owner := none } ∧ t.sent = s.sent ++ [.response n ⟨0x21, 0, stOk, 0, toBytes 8 (deckStatusReg t)⟩]
          ∧ t.hbm = w.hbm ∧ t.cold = s.cold ∧ t.hot0 = s.hot0 ∧ t.hot1 = s.hot1)
      ∧ (∃ t, exec (.dealCommitHot n src) s = .next t ∧ if flashFails s then commitRejected s t n src (failOf 0x18) else match x with
        | .error f => commitRejected s t n src f
        | .ok i => match (hotFail u i).2 with
          | some f => commitRejected s t n src f
          | none => t.deck = { s.deck with phase := .hotPending, stagedOk := false, owner := some n, hot := some ⟨n, src - 1, fld i.hdr 0x18 4, fld i.hdr 0x10 8⟩ }
            ∧ t.sent = s.sent ∧ (curSlot s = false → t.hot0 = s.hot0) ∧ (curSlot s = true → t.hot1 = s.hot1) ∧ t.cold = s.cold)
      ∧ (∃ t, exec (.dealCommitRedeal n src) s = .next t ∧ if flashFails s then commitRejected s t n src (failOf 0x18) else match x with
        | .error f => commitRejected s t n src f
        | .ok i => t.tricks = [] ∧ t.pkts = [] ∧ t.tasks = [] ∧ t.suits = [] ∧ t.cold = (i.segs.filter fun x => !isHotSeg x).foldl (fun m x => kset m x.ty x.body) []
          ∧ t.deck.phase = .redealing ∧ t.deck.deckId = fld i.hdr 0x10 8 ∧ t.deck.source = src - 1 ∧ t.deck.stagedOk = false ∧ t.deck.owner ≠ some n))
end

