-- ==== Sys2Proof/Laws/Bytes.lean ====
section
/-!
SUPPORT. Byte strings and bit fields: what a number written as bytes reads back as, and lengths.
-/
namespace Sys2Proof.Machine

open Sys2Proof

@[simp] theorem toBytes_length (n x : Nat) : (toBytes n x).length = n := by
  induction n with
  | zero => rfl
  | succ k ih => simp [toBytes, ih]

theorem beFold_toBytes (n x acc : Nat) : beFold acc (toBytes n x) = acc * 256 ^ n + x % 256 ^ n := by
  induction n generalizing acc with
  | zero => simp [toBytes, beFold, Nat.mod_one]
  | succ k ih =>
    have e : x % 256 ^ (k + 1) = x / 256 ^ k % 256 * 256 ^ k + x % 256 ^ k := by
      rw [Nat.pow_succ, Nat.mod_mul, Nat.mul_comm, Nat.add_comm]
    have b : (BitVec.ofNat 8 (x / 256 ^ k)).toNat = x / 256 ^ k % 256 := by simp
    have e2 : acc * 256 ^ (k + 1) = acc * 256 * 256 ^ k := by rw [Nat.pow_succ, Nat.mul_assoc, Nat.mul_comm 256]
    rw [toBytes, beFold, ih, b, e, e2, Nat.add_mul, Nat.add_assoc]

/-- A number written as `n` bytes reads back as itself, modulo 2^(8n). -/
theorem ofBytes_toBytes (n x : Nat) : ofBytes (toBytes n x) = x % 256 ^ n := by
  simp [ofBytes, beFold_toBytes]

theorem ofBytes_lt (bs : List Byte) (acc : Nat) : beFold acc bs < (acc + 1) * 256 ^ bs.length := by
  induction bs generalizing acc with
  | nil => simp [beFold]
  | cons b r ih =>
    have h := ih (acc * 256 + b.toNat)
    have hb := b.isLt
    have : (acc * 256 + b.toNat + 1) * 256 ^ r.length ≤ (acc + 1) * 256 * 256 ^ r.length := Nat.mul_le_mul_right _ (by omega)
    have e : (acc + 1) * 256 ^ (b :: r).length = (acc + 1) * 256 * 256 ^ r.length := by
      rw [List.length_cons, Nat.pow_succ, Nat.mul_comm (256 ^ r.length), Nat.mul_assoc]
    rw [beFold, e]
    omega

theorem beFold_acc (bs : List Byte) (acc : Nat) : beFold acc bs = acc * 256 ^ bs.length + beFold 0 bs := by
  induction bs generalizing acc with
  | nil => simp [beFold]
  | cons b r ih =>
    rw [beFold, ih, beFold, ih (0 * 256 + b.toNat), List.length_cons, Nat.pow_succ, Nat.add_mul]
    have : acc * 256 * 256 ^ r.length = acc * (256 ^ r.length * 256) := by rw [Nat.mul_assoc, Nat.mul_comm 256]
    rw [this]
    simp [Nat.add_assoc]

theorem toBytes_ofBytes (bs : List Byte) : toBytes bs.length (ofBytes bs) = bs := by
  unfold ofBytes
  induction bs with
  | nil => rfl
  | cons b r ih =>
    have hlt := ofBytes_lt r 0
    have hb := b.isLt
    have e : beFold 0 (b :: r) = b.toNat * 256 ^ r.length + beFold 0 r := by
      rw [beFold, beFold_acc]; simp
    have hp : 0 < 256 ^ r.length := Nat.pos_of_ne_zero (by simp)
    have d : (b.toNat * 256 ^ r.length + beFold 0 r) / 256 ^ r.length = b.toNat := by
      rw [Nat.mul_comm, Nat.mul_add_div hp, Nat.div_eq_of_lt (by simpa using hlt)]; simp
    rw [List.length_cons, toBytes, e, d]
    congr 1
    · simp
    · have key : ∀ k x y, toBytes k (x * 256 ^ k + y) = toBytes k y := by
        intro k
        induction k with
        | zero => intros; rfl
        | succ k ihk =>
          intro x y
          have e1 : x * 256 ^ (k + 1) + y = (x * 256) * 256 ^ k + y := by
            rw [Nat.pow_succ, Nat.mul_comm (256 ^ k), Nat.mul_assoc]
          have hp : 0 < 256 ^ k := Nat.pos_of_ne_zero (by simp)
          have e2 : (x * 256 * 256 ^ k + y) / 256 ^ k = x * 256 + y / 256 ^ k := by
            rw [Nat.mul_comm _ (256 ^ k), Nat.mul_add_div hp]
          rw [toBytes, toBytes, e1, ihk, e2]
          congr 1
          apply BitVec.eq_of_toNat_eq
          simp
      rw [key]; exact ih

theorem findUp_none {p : Nat → Bool} (n lo : Nat) (h : ∀ i, lo ≤ i → i < lo + n → p i = false) : findUp n lo p = none := by
  induction n generalizing lo with
  | zero => rfl
  | succ k ih =>
    unfold findUp
    rw [h lo (by omega) (by omega)]
    exact ih (lo + 1) fun i h1 h2 => h i (by omega) (by omega)

/-- The bits of a number built bit by bit. -/
theorem bitSum (f : Nat → Bool) (n : Nat) :
    ((List.range n).map fun k => b2n (f k) * 2 ^ k).sum < 2 ^ n ∧
    ∀ i, (((List.range n).map fun k => b2n (f k) * 2 ^ k).sum).testBit i = (decide (i < n) && f i) := by
  induction n with
  | zero => simp
  | succ n ih =>
    obtain ⟨h1, h2⟩ := ih
    have e : ((List.range (n + 1)).map fun k => b2n (f k) * 2 ^ k).sum
        = 2 ^ n * b2n (f n) + ((List.range n).map fun k => b2n (f k) * 2 ^ k).sum := by
      simp only [List.range_succ, List.map_append, List.sum_append, List.map_cons, List.map_nil, List.sum_cons, List.sum_nil]
      rw [Nat.mul_comm (b2n (f n))]; omega
    rw [e]
    refine ⟨?_, ?_⟩
    · have : b2n (f n) ≤ 1 := by cases f n <;> simp [b2n]
      have := Nat.mul_le_mul_left (2 ^ n) this
      rw [Nat.pow_succ]; omega
    · intro i
      rw [Nat.testBit_two_pow_mul_add _ h1, h2]
      by_cases hi : i < n
      · have : i < n + 1 := by omega
        simp [hi, this]
      · by_cases he : i = n
        · subst he; cases hf : f i <;> simp [b2n]
        · have h3 : ¬ i < n + 1 := by omega
          have h4 : b2n (f n) < 2 ^ (i - n) := by
            have : 2 ^ 1 ≤ 2 ^ (i - n) := Nat.pow_le_pow_right (by omega) (by omega)
            have : b2n (f n) ≤ 1 := by cases f n <;> simp [b2n]
            omega
          simp [hi, h3, Nat.testBit_lt_two_pow h4]

theorem testBit_bit (x i : Nat) : bit x i = x.testBit i := by
  rw [Nat.testBit_eq_decide_div_mod_eq, bit]
  cases h : x / 2 ^ i % 2 == 1 <;> simp_all

end Sys2Proof.Machine
end

