-- ==== Sys2Proof/Laws/Cmd.lean ====
section
/-!
SUPPORT. The form of a meaning, said once: what each wrapper answers for a command in range and out of range, and what it
keeps whatever the command does.
-/
namespace Sys2Proof.Machine

open Sys2Proof

/-- A command of the running part in range answers its effect. -/
theorem cmd_ok {i : Instr} (s : State) {f : State → State} (h : i.wellFormed = true) :
    cmd i s f = .next (keepFixed s (f s)) := by simp [cmd, h]

/-- The same, when the effect leaves the fixed parts alone. -/
theorem cmd_run {i : Instr} {s t : State} {f : State → State} (h : i.wellFormed = true) (e : f s = t)
    (k : keepFixed s t = t) : cmd i s f = .next t := by rw [cmd_ok s h, e, k]

theorem cmdDeck_ok {i : Instr} (s : State) {f : State → State} (h : i.wellFormed = true) :
    cmdDeck i s f = .next (keepStores s (f s)) := by simp [cmdDeck, h]

theorem cmdDeck_run {i : Instr} {s t : State} {f : State → State} (h : i.wellFormed = true) (e : f s = t)
    (k : keepStores s t = t) : cmdDeck i s f = .next t := by rw [cmdDeck_ok s h, e, k]

theorem cmdBig_run {i : Instr} {s t : State} {f : State → State} (h : i.wellFormed = true) (e : f s = t)
    (k : { t with pending := s.pending, clk := s.clk, flash := s.flash } = t) : cmdBig i s f = .next t := by
  simp [cmdBig, h, e, k]

/-- A command out of range changes nothing. -/
theorem cmd_bad {i : Instr} {s : State} {f : State → State} (h : i.wellFormed = false) : cmd i s f = .next s := by
  simp [cmd, h]

/-- What a command of the running part keeps. -/
theorem cmd_keeps {i : Instr} {s t : State} {f : State → State} (h : cmd i s f = .next t) :
    t.pending = s.pending ∧ t.clk = s.clk ∧ t.fuses = s.fuses ∧ t.flash = s.flash ∧ t.mram = s.mram ∧ t.cold = s.cold := by
  unfold cmd at h
  injection h with h
  subst h
  split <;> simp [keepFixed]

theorem cmdDeck_keeps {i : Instr} {s t : State} {f : State → State} (h : cmdDeck i s f = .next t) :
    t.pending = s.pending ∧ t.clk = s.clk ∧ t.fuses = s.fuses ∧ t.flash = s.flash ∧ t.mram = s.mram := by
  unfold cmdDeck at h
  injection h with h
  subst h
  split <;> simp [keepStores]

theorem cmdBig_keeps {i : Instr} {s t : State} {f : State → State} (h : cmdBig i s f = .next t) :
    t.pending = s.pending ∧ t.clk = s.clk ∧ t.flash = s.flash := by
  unfold cmdBig at h
  injection h with h
  subst h
  split <;> simp

/-- Every meaning has one of the three forms, with its own command. -/
theorem exec_form (c : Instr) (s : State) : (∃ f, exec c s = cmd c s f) ∨ (∃ f, exec c s = cmdDeck c s f) ∨ (∃ f, exec c s = cmdBig c s f) := by
  cases c <;> dsimp only [exec] <;> first | exact .inl ⟨_, rfl⟩ | exact .inr (.inl ⟨_, rfl⟩) | exact .inr (.inr ⟨_, rfl⟩)

end Sys2Proof.Machine
end

