-- ==== Sys2Proof/Laws/RegTab.lean ====
section
/-!
SUPPORT. Where the addresses of the register space fall: the search of a block's rows, and the place of each register the
statements name.
-/
namespace Sys2Proof.Machine

open Sys2Proof

/-- An offset that no index of these dims reaches. -/
def dimMiss (dims : List (Nat × Nat)) (off : Nat) : Prop :=
  match dims with
  | [] => off ≠ 0
  | (st, n) :: r => n ≤ off / st ∨ dimMiss r (off % st)

theorem dimIdx_none {dims : List (Nat × Nat)} {off : Nat} (h : dimMiss dims off) : dimIdx dims off = none := by
  induction dims generalizing off with
  | nil => simpa [dimIdx, dimMiss] using h
  | cons d r ih =>
    rcases d with ⟨st, n⟩
    rcases h with h | h
    · simp [dimIdx, Nat.not_lt.2 h]
    · simp [dimIdx, ih h]

theorem dimIdx_cons {st n i off : Nat} {dims : List (Nat × Nat)} {ix : List Nat} (hi : i < n) (hd : off / st = i)
    (h : dimIdx dims (off % st) = some ix) : dimIdx ((st, n) :: dims) off = some (i :: ix) := by
  simp [dimIdx, hd, hi, h]

theorem dimIdx_nil {off : Nat} (h : off = 0) : dimIdx [] off = some [] := by simp [dimIdx, h]

/-- A row that does not reach the address is passed over. -/
theorem rowFind_miss {r : RegRow} {rest : List RegRow} {a : Nat} (h : a < r.base ∨ dimMiss r.dims (a - r.base)) :
    rowFind (r :: rest) a = rowFind rest a := by
  rcases h with h | h
  · simp [rowFind, h]
  · by_cases hl : a < r.base <;> simp [rowFind, hl, dimIdx_none h]

/-- A row that reaches it is the one found. -/
theorem rowFind_hit {r : RegRow} {rest : List RegRow} {a : Nat} {ix : List Nat} (h : r.base ≤ a)
    (hi : dimIdx r.dims (a - r.base) = some ix) : rowFind (r :: rest) a = some (r, ix) := by
  simp [rowFind, Nat.not_lt.2 h, hi]

theorem regPlace_in {a b : Nat} {rows : List RegRow} {x : RegRow × List Nat} (hb : a / 2 ^ 40 = b)
    (hr : blockRows b = some rows) (h8 : a % 8 = 0) (hf : rowFind rows a = some x) : regPlace a = .ok x := by
  unfold regPlace
  rw [hb, hr]
  dsimp only
  rw [if_neg (fun k => k h8), hf]

/-- An assigned register address is aligned, lies in an assigned block, and not in the HBM window. -/
theorem regPlace_ok {a : Nat} {x : RegRow × List Nat} (h : regPlace a = .ok x) :
    inHbm a = false ∧ a % 8 = 0 ∧ a < 2 ^ 48 := by
  have hb : (blockRows (a / 2 ^ 40)).isSome := by
    unfold regPlace at h
    split at h
    · cases h
    · rename_i e; rw [e]; rfl
  have h8 : a % 8 = 0 := by
    unfold regPlace at h
    split at h
    · cases h
    · split at h
      · cases h
      · rename_i h8; simpa using h8
  have hlt : a / 2 ^ 40 < 0x80 := by
    rcases Nat.lt_or_ge (a / 2 ^ 40) 0x80 with hc | hc
    · exact hc
    have : blockRows (a / 2 ^ 40) = none := by
      unfold blockRows
      split <;> first | omega | rfl
    rw [this] at hb
    cases hb
  refine ⟨?_, h8, by omega⟩
  have : ¬ hbmBase ≤ a := by unfold hbmBase; omega
  simp [inHbm, this]

theorem regPlace_level {l : Nat} (h : l < 8) :
    regPlace (0x140000000040 + 8 * l) = .ok (actRow .levelDepth 0x140000000040 [(8, 8)], [l]) := by
  refine regPlace_in (b := 0x14) (by omega) rfl (by omega) ?_
  unfold rowsFlow
  repeat (first
    | exact rowFind_hit (by simp [actRow] <;> omega) (dimIdx_cons h (by simp [actRow] <;> omega) (dimIdx_nil (by simp [actRow] <;> omega)))
    | rw [rowFind_miss (by simp [roRow, ctrRow, actRow, winRow, wordRow, dimMiss, aTskLevels, aTskTrace] <;> omega)])

theorem regPlace_vkeyCtl {k : Nat} (h : k < 8) :
    regPlace (0x240000002020 + k * 0x40) = .ok (actRow .vkeyCtl 0x240000002020 [(0x40, 8)] 3, [k]) := by
  refine regPlace_in (b := 0x24) (by omega) rfl (by omega) ?_
  unfold rowsZat
  repeat (first
    | exact rowFind_hit (by simp [actRow] <;> omega) (dimIdx_cons h (by simp [actRow] <;> omega) (dimIdx_nil (by simp [actRow] <;> omega)))
    | rw [rowFind_miss (by simp [roRow, ctrRow, actRow, dimMiss] <;> omega)])

theorem regPlace_lane {l w : Nat} (h : l < 258) {id : RegId} (hw : (w = 8 ∧ id = .laneTest) ∨ (w = 0x18 ∧ id = .eyeCtl)) :
    regPlace (aLane l + w) = .ok (actRow id (0x080000100000 + w) [(0x1000, 258)], [l]) := by
  unfold aLane
  rcases hw with ⟨rfl, rfl⟩ | ⟨rfl, rfl⟩ <;> refine regPlace_in (b := 0x08) (by omega) rfl (by omega) ?_ <;> unfold rowsPort <;>
  repeat (first
    | exact rowFind_hit (by simp [actRow] <;> omega) (dimIdx_cons h (by simp [actRow] <;> omega) (dimIdx_nil (by simp [actRow] <;> omega)))
    | rw [rowFind_miss (by simp [roRow, ctrRow, actRow, dimMiss] <;> omega)])

theorem regPlace_portCtl {p : Nat} (h : p < 256) :
    regPlace (aPort p) = .ok (actRow .portCtl 0x090000100000 [(0x1000, 256)], [p]) := by
  unfold aPort
  refine regPlace_in (b := 0x09) (by omega) rfl (by omega) ?_
  unfold rowsPort
  repeat (first
    | exact rowFind_hit (by simp [actRow] <;> omega) (dimIdx_cons h (by simp [actRow] <;> omega) (dimIdx_nil (by simp [actRow] <;> omega)))
    | rw [rowFind_miss (by simp [roRow, ctrRow, actRow, dimMiss] <;> omega)])

theorem regPlace_listCfg {k : Nat} (h : k < 16) :
    regPlace (aListCfg k) = .ok (actRow .listCfg 0x140000000100 [(8, 16)], [k]) := by
  unfold aListCfg
  refine regPlace_in (b := 0x14) (by omega) rfl (by omega) ?_
  unfold rowsFlow
  repeat (first
    | exact rowFind_hit (by simp [actRow] <;> omega) (dimIdx_cons h (by simp [actRow] <;> omega) (dimIdx_nil (by simp [actRow] <;> omega)))
    | rw [rowFind_miss (by simp [roRow, ctrRow, actRow, winRow, wordRow, dimMiss, aTskLevels, aTskTrace] <;> omega)])

theorem regPlace_tmQueue {q w : Nat} (h : q < 65536) (hw : w < 4) :
    regPlace (aTmQueue q w) = .ok ((match w with
      | 0 => roRow .qRate 0x1A0010000000 [(0x80, 65536)] | 1 => actRow .qCfg 0x1A0010000008 [(0x80, 65536)]
      | 2 => actRow .qCurve 0x1A0010000010 [(0x80, 65536)] | _ => roRow .qTokens 0x1A0010000018 [(0x80, 65536)]), [q]) := by
  have : w = 0 ∨ w = 1 ∨ w = 2 ∨ w = 3 := by omega
  rcases this with rfl | rfl | rfl | rfl <;> unfold aTmQueue <;>
  refine regPlace_in (b := 0x1A) (by omega) rfl (by omega) ?_ <;>
  unfold rowsTm <;>
  repeat (first
    | exact rowFind_hit (by simp [actRow, roRow] <;> omega) (dimIdx_cons h (by simp [actRow, roRow] <;> omega) (dimIdx_nil (by simp [actRow, roRow] <;> omega)))
    | rw [rowFind_miss (by simp [wordRow, roRow, ctrRow, winRow, actRow, dimMiss] <;> omega)])

theorem regPlace_tmPolicer {q w : Nat} (h : q < 65536) (hw : w < 4) :
    regPlace (aTmPolicer q w) = .ok ((match w with
      | 0 => actRow .polCfg0 0x1A0040000000 [(0x20, 65536)] | 1 => actRow .polCfg1 0x1A0040000008 [(0x20, 65536)]
      | 2 => roRow .polTokens 0x1A0040000010 [(0x20, 65536)] | _ => ctrRow 0x1A0040000018 [(0x20, 65536)]), [q]) := by
  have : w = 0 ∨ w = 1 ∨ w = 2 ∨ w = 3 := by omega
  rcases this with rfl | rfl | rfl | rfl <;> unfold aTmPolicer <;>
  refine regPlace_in (b := 0x1A) (by omega) rfl (by omega) ?_ <;>
  unfold rowsTm <;>
  repeat (first
    | exact rowFind_hit (by simp [actRow, roRow, ctrRow] <;> omega) (dimIdx_cons h (by simp [actRow, roRow, ctrRow] <;> omega) (dimIdx_nil (by simp [actRow, roRow, ctrRow] <;> omega)))
    | rw [rowFind_miss (by simp [wordRow, roRow, ctrRow, winRow, actRow, dimMiss] <;> omega)])

theorem rowFind_mem {rows : List RegRow} {a : Nat} {r : RegRow} {ix : List Nat} (h : rowFind rows a = some (r, ix)) : r ∈ rows := by
  induction rows with
  | nil => cases h
  | cons x rest ih =>
    unfold rowFind at h
    split at h
    · exact List.mem_cons_of_mem _ (ih h)
    · split at h
      · injection h with h; injection h with h1 h2; subst h1; exact List.mem_cons_self ..
      · exact List.mem_cons_of_mem _ (ih h)

def plainOk (r : RegRow) : Bool := match r.kind with | .plain _ d => r.id == .word && decide (d < 2 ^ 64) | _ => true

theorem rows_plain {b : Nat} {rows : List RegRow} (h : blockRows b = some rows) : rows.all plainOk = true := by
  unfold blockRows at h
  split at h <;> first | (injection h with h; subst h; decide) | cases h

theorem regPlace_mem {a : Nat} {r : RegRow} {ix : List Nat} (h : regPlace a = .ok (r, ix)) :
    ∃ rows, blockRows (a / 2 ^ 40) = some rows ∧ r ∈ rows := by
  unfold regPlace at h
  split at h
  · cases h
  · rename_i rows hb
    split at h
    · cases h
    · split at h
      · rename_i x hx; injection h with h; subst h; exact ⟨rows, hb, rowFind_mem hx⟩
      · cases h

/-- A register that only stores is a word whose value before any write fits, and no lane word. -/
theorem plain_word {a m d : Nat} {r : RegRow} {ix : List Nat} (h : regPlace a = .ok (r, ix)) (hk : r.kind = .plain m d) :
    r.id = .word ∧ d < 2 ^ 64 ∧ noLaneWord a = false := by
  obtain ⟨rows, hb, hm⟩ := regPlace_mem h
  have := List.all_eq_true.1 (rows_plain hb) r hm
  simp only [plainOk, hk, Bool.and_eq_true, beq_iff_eq, decide_eq_true_eq] at this
  refine ⟨this.1, this.2, ?_⟩
  cases hn : noLaneWord a with
  | false => rfl
  | true =>
    exfalso
    have : a = aLane 256 + 8 ∨ a = aLane 256 + 0x10 ∨ a = aLane 257 + 8 ∨ a = aLane 257 + 0x10 := by
      simpa [noLaneWord, or_assoc] using hn
    rcases this with rfl | rfl | rfl | rfl
    · have e : regPlace (aLane 256 + 8) = .ok (actRow .laneTest 0x080000100008 [(0x1000, 258)], [256]) := rfl
      rw [e] at h; injection h with h; injection h with h1 _; subst h1; cases hk
    · have e : regPlace (aLane 256 + 0x10) = .ok (ctrRow 0x080000100010 [(0x1000, 258)], [256]) := rfl
      rw [e] at h; injection h with h; injection h with h1 _; subst h1; cases hk
    · have e : regPlace (aLane 257 + 8) = .ok (actRow .laneTest 0x080000100008 [(0x1000, 258)], [257]) := rfl
      rw [e] at h; injection h with h; injection h with h1 _; subst h1; cases hk
    · have e : regPlace (aLane 257 + 0x10) = .ok (ctrRow 0x080000100010 [(0x1000, 258)], [257]) := rfl
      rw [e] at h; injection h with h; injection h with h1 _; subst h1; cases hk

end Sys2Proof.Machine
end

