-- ==== Sys2Proof/Laws/Access.lean ====
section
/-!
SUPPORT. The register commands, said once: a session whose level suffices reads or writes the register that its address
names, and its answer leaves with the status of the access (15_zatas_control_protocol.md R342, R349).
-/
namespace Sys2Proof.Machine

open Sys2Proof

/-- A register without W1C bits acts on the value written (R9). -/
@[simp] theorem setWins_zero (s : State) (a v : Nat) : setWins s a 0 v = v := rfl

theorem regWrite_act {r : RegRow} (hk : r.kind = .act) (hw : w1cBits r.id = 0) (s : State) (ix : List Nat) (a v lvl : Nat) :
    regWrite s r ix a v lvl = wrAct s r ix a v lvl := by
  unfold regWrite
  rw [hk, hw]
  rfl

/-- A transaction that completes in a state whose sessions are as they were is answered. -/
theorem direct_done {s t : State} {n st a : Nat} {x : Txn} {d : List Byte} {f : State → Nat → Txn → Ran}
    (ho : isOpen s n = true) (hf : f s n x = .done st a d t) (hz : t.zat.sessions = s.zat.sessions) :
    direct s n x f = { t with sent := t.sent ++ [.response n ⟨x.op, x.tag, st, a, d⟩] } := by
  have : isOpen t n = true := by simpa [isOpen, sessOf, hz] using ho
  simp [direct, ho, hf, this, txnRes]

/-- A WRITE that the space answers. -/
theorem writeCmd_run {s t : State} {n a v st : Nat} (h : ready s n 2) (ha : a < 2 ^ 48) (hv : v < 2 ^ 64)
    (he : accWrite s n (levelOf s n) a v = ⟨st, 0, t⟩) (hz : t.zat.sessions = s.zat.sessions) :
    writeCmd s n a v = answer t n 0x09 a st [] := by
  obtain ⟨-, ho, hl⟩ := h
  have e : opWrite s n (writeTxn a v) = .done st a [] t := by
    have hb : ofBytes (toBytes 8 v) = v := by rw [ofBytes_toBytes]; omega
    have ok : addrOk (writeTxn a v) = true := decide_eq_true ha
    unfold writeTxn at ok ⊢
    simp [opWrite, gate, Nat.not_lt.2 hl, ok, hb, he]
  exact direct_done ho e hz

/-- A WRITE of an assigned register by a session of its level. -/
theorem writeReg_run {s t : State} {n a v st : Nat} {r : RegRow} {ix : List Nat} (h : ready s n 2)
    (hp : regPlace a = .ok (r, ix)) (hl : r.wl ≤ levelOf s n) (hv : v < 2 ^ 64)
    (he : regWrite s r ix a v (levelOf s n) = (st, t)) (hz : t.zat.sessions = s.zat.sessions) :
    writeCmd s n a v = answer t n 0x09 a st [] := by
  obtain ⟨hi, -, ha⟩ := regPlace_ok hp
  exact writeCmd_run h ha hv (by simp [accWrite, hi, hp, Nat.not_lt.2 hl, he]) hz

/-- A READ of an assigned register by a session of its level. -/
theorem readReg_run {s t : State} {n a v : Nat} {r : RegRow} {ix : List Nat} (h : ready s n 1)
    (hp : regPlace a = .ok (r, ix)) (hl : r.rl ≤ levelOf s n) (he : regRead s r ix a = (v, t))
    (hz : t.zat.sessions = s.zat.sessions) :
    readCmd s n a = answer t n 0x08 a stOk (toBytes 8 (v % 2 ^ 64)) := by
  obtain ⟨-, ho, hl1⟩ := h
  obtain ⟨hi, -, ha⟩ := regPlace_ok hp
  have e : opRead s n ⟨0x08, 0, a, []⟩ = .done stOk a (toBytes 8 (v % 2 ^ 64)) t := by
    have ok : addrOk ⟨0x08, 0, a, []⟩ = true := decide_eq_true ha
    simp [opRead, gate, Nat.not_lt.2 hl1, ok, accRead, hi, hp, Nat.not_lt.2 hl, he]
  exact direct_done ho e hz

theorem ready_mono {s : State} {n a b : Nat} (h : ready s n a) (hl : b ≤ a) : ready s n b := ⟨h.1, h.2.1, Nat.le_trans hl h.2.2⟩

theorem opWrite_low {s : State} {n a v : Nat} (h : ready s n 1) (hl : levelOf s n = 1) :
    writeCmd s n a v = answer s n 9 a stPrivilege [] := by
  refine direct_done (x := writeTxn a v) h.2.1 ?_ rfl
  unfold opWrite gate
  rw [if_pos (by omega)]
  rfl

theorem writeReg_low {s : State} {n a v : Nat} {r : RegRow} {ix : List Nat} (h : ready s n 2)
    (hp : regPlace a = .ok (r, ix)) (hl : levelOf s n < r.wl) (hv : v < 2 ^ 64) :
    writeCmd s n a v = answer s n 9 a stPrivilege [] := by
  obtain ⟨hi, -, ha⟩ := regPlace_ok hp
  exact writeCmd_run h ha hv (by simp [accWrite, hi, hp, hl]) rfl

/-- An RMW writes VALUE where MASK is 1 and the old value elsewhere. -/
theorem rmwWord_plain (old : Nat) (mask value : W64) :
    rmwWord old mask.toNat value.toNat 0 = ((value &&& mask) ||| (BitVec.ofNat 64 old &&& ~~~mask)).toNat := by
  apply Nat.eq_of_testBit_eq
  intro i
  unfold rmwWord
  rw [(bitSum _ 64).2 i, BitVec.testBit_toNat, BitVec.getLsbD_or, BitVec.getLsbD_and, BitVec.getLsbD_and, BitVec.getLsbD_not,
    BitVec.getLsbD_ofNat]
  simp only [testBit_bit, BitVec.testBit_toNat, Nat.zero_testBit, Bool.not_false, Bool.and_true]
  by_cases hi : i < 64
  · cases mask.getLsbD i <;> simp [hi]
  · simp [hi, BitVec.getLsbD_of_ge value i (by omega)]

theorem mod64_and (x m : Nat) (h : x < 2 ^ 64) : (x &&& m) % 2 ^ 64 = x &&& m :=
  Nat.mod_eq_of_lt (Nat.lt_of_le_of_lt Nat.and_le_left h)

end Sys2Proof.Machine
end

