-- ==== Sys2Proof/Laws/KMap.lean ====
section
/-!
SUPPORT. What reading a sorted map gives after each way of writing it, and that each keeps the keys rising.
-/
namespace Sys2Proof.Machine

open Sys2Proof

variable {α β : Type}

@[simp] theorem kget_nil (k : Nat) : kget ([] : KMap α) k = none := rfl

/-- An entry just written is read back. -/
@[simp] theorem kget_kset_same (m : KMap α) (k : Nat) (v : α) : kget (kset m k v) k = some v := by
  induction m with
  | nil => simp [kset, kget]
  | cons e r ih =>
    obtain ⟨j, w⟩ := e
    simp only [kset]
    split
    · simp [kget]
    · split
      · simp [kget]
      · rename_i h1 h2; simp [kget, h2, ih]

/-- A write leaves every other key alone. -/
theorem kget_kset_ne (m : KMap α) {k l : Nat} (v : α) (h : l ≠ k) : kget (kset m k v) l = kget m l := by
  induction m with
  | nil => simp [kset, kget, Ne.symm h]
  | cons e r ih =>
    obtain ⟨j, w⟩ := e
    simp only [kset]
    split
    · simp [kget, Ne.symm h]
    · split
      · rename_i h2; subst h2; simp [kget, Ne.symm h]
      · simp [kget, ih]

theorem kget_kset (m : KMap α) (k l : Nat) (v : α) : kget (kset m k v) l = if l = k then some v else kget m l := by
  by_cases h : l = k
  · subst h; simp
  · simp [h, kget_kset_ne m v h]

@[simp] theorem kgetD_kset_same (m : KMap α) (k : Nat) (v d : α) : kgetD (kset m k v) k d = v := by simp [kgetD]

theorem kgetD_kset_ne (m : KMap α) {k l : Nat} (v d : α) (h : l ≠ k) : kgetD (kset m k v) l d = kgetD m l d := by
  simp [kgetD, kget_kset_ne m v h]

/-- A removal leaves every other key alone. -/
theorem kget_kdel_ne (m : KMap α) {k l : Nat} (h : l ≠ k) : kget (kdel m k) l = kget m l := by
  induction m with
  | nil => rfl
  | cons e r ih =>
    obtain ⟨j, w⟩ := e
    simp only [kdel]
    split
    · rename_i h2; subst h2; simp [kget, Ne.symm h, ih]
    · simp [kget, ih]

theorem kgetD_kdel_ne (m : KMap α) {k l : Nat} (d : α) (h : l ≠ k) : kgetD (kdel m k) l d = kgetD m l d := by
  simp [kgetD, kget_kdel_ne m h]

/-- Every key of the map lies above `k`. -/
def kabove (k : Nat) (m : KMap α) : Prop := ∀ e ∈ m, k < e.1

theorem ksorted_cons {j : Nat} {w : α} {r : KMap α} : ksorted ((j, w) :: r) = true ↔ kabove j r ∧ ksorted r = true := by
  induction r generalizing j w with
  | nil => simp [ksorted, kabove]
  | cons e t ih =>
    obtain ⟨i, u⟩ := e
    have hi := @ih i u
    constructor
    · intro h
      simp only [ksorted, Bool.and_eq_true, decide_eq_true_eq] at h
      obtain ⟨h1, h2⟩ := h
      have h2' : ksorted ((i, u) :: t) = true := by simpa [ksorted] using h2
      refine ⟨?_, h2'⟩
      intro e he
      rcases List.mem_cons.1 he with rfl | ht
      · exact h1
      · exact Nat.lt_trans h1 ((hi.1 h2').1 e ht)
    · rintro ⟨h1, h2⟩
      have : j < i := h1 (i, u) (List.mem_cons_self ..)
      simp only [ksorted, Bool.and_eq_true, decide_eq_true_eq]
      refine ⟨this, ?_⟩
      simpa [ksorted] using h2

theorem kget_of_above {k : Nat} {m : KMap α} (h : kabove k m) : kget m k = none := by
  induction m with
  | nil => rfl
  | cons e r ih =>
    obtain ⟨j, w⟩ := e
    have h1 : k < j := h (j, w) (List.mem_cons_self ..)
    have h2 : j ≠ k := by omega
    simp only [kget, h2, if_false]
    exact ih fun e he => h e (List.mem_cons_of_mem _ he)

/-- A removed key has no entry. -/
@[simp] theorem kget_kdel_same (m : KMap α) (k : Nat) : kget (kdel m k) k = none := by
  induction m with
  | nil => rfl
  | cons e r ih =>
    obtain ⟨j, w⟩ := e
    simp only [kdel]
    split
    · exact ih
    · rename_i h3; simp [kget, h3, ih]

theorem kget_kdel (m : KMap α) (k l : Nat) : kget (kdel m k) l = if l = k then none else kget m l := by
  split
  · rename_i h; subst h; simp
  · rename_i h; exact kget_kdel_ne m h

theorem mem_kset {m : KMap α} {k : Nat} {v : α} {e : Nat × α} (h : e ∈ kset m k v) : e = (k, v) ∨ e ∈ m := by
  induction m with
  | nil => simp [kset] at h; exact .inl h
  | cons x r ih =>
    obtain ⟨j, w⟩ := x
    simp only [kset] at h
    split at h
    · rcases List.mem_cons.1 h with h | h
      · exact .inl h
      · exact .inr h
    · split at h
      · rcases List.mem_cons.1 h with h | h
        · exact .inl h
        · exact .inr (List.mem_cons_of_mem _ h)
      · rcases List.mem_cons.1 h with h | h
        · exact .inr (h ▸ List.mem_cons_self ..)
        · rcases ih h with h | h
          · exact .inl h
          · exact .inr (List.mem_cons_of_mem _ h)

theorem mem_kdel {m : KMap α} {k : Nat} {e : Nat × α} (h : e ∈ kdel m k) : e ∈ m := by
  induction m with
  | nil => exact h
  | cons x r ih =>
    obtain ⟨j, w⟩ := x
    simp only [kdel] at h
    split at h
    · exact List.mem_cons_of_mem _ (ih h)
    · rcases List.mem_cons.1 h with h | h
      · exact h ▸ List.mem_cons_self ..
      · exact List.mem_cons_of_mem _ (ih h)

/-- Writing keeps the keys strictly rising. -/
theorem ksorted_kset {m : KMap α} (k : Nat) (v : α) (h : ksorted m = true) : ksorted (kset m k v) = true := by
  induction m with
  | nil => simp [kset, ksorted]
  | cons e r ih =>
    obtain ⟨j, w⟩ := e
    obtain ⟨h1, h2⟩ := ksorted_cons.1 h
    simp only [kset]
    split
    · rename_i hk
      refine ksorted_cons.2 ⟨?_, h⟩
      intro e he
      rcases List.mem_cons.1 he with rfl | he
      · exact hk
      · exact Nat.lt_trans hk (h1 e he)
    · split
      · rename_i h3; subst h3; exact ksorted_cons.2 ⟨h1, h2⟩
      · rename_i h3 h4
        refine ksorted_cons.2 ⟨?_, ih h2⟩
        intro e he
        rcases mem_kset he with rfl | he
        · show j < k
          omega
        · exact h1 e he

/-- Removing keeps the keys strictly rising. -/
theorem ksorted_kdel {m : KMap α} (k : Nat) (h : ksorted m = true) : ksorted (kdel m k) = true := by
  induction m with
  | nil => rfl
  | cons e r ih =>
    obtain ⟨j, w⟩ := e
    obtain ⟨h1, h2⟩ := ksorted_cons.1 h
    simp only [kdel]
    split
    · exact ih h2
    · exact ksorted_cons.2 ⟨fun e he => h1 e (mem_kdel he), ih h2⟩

/-- Keeping some entries keeps the keys strictly rising. -/
theorem ksorted_filter {m : KMap α} (p : Nat × α → Bool) (h : ksorted m = true) : ksorted (m.filter p) = true := by
  induction m with
  | nil => rfl
  | cons e r ih =>
    obtain ⟨j, w⟩ := e
    obtain ⟨h1, h2⟩ := ksorted_cons.1 h
    simp only [List.filter]
    split
    · exact ksorted_cons.2 ⟨fun e he => h1 e ((List.mem_filter.1 he).1), ih h2⟩
    · exact ih h2

/-- Changing one entry changes no other. -/
theorem kget_kadj (m : KMap α) (k l : Nat) (f : α → α) :
    kget (kadj m k f) l = if l = k then (kget m k).map f else kget m l := by
  unfold kadj
  split
  · next v h => rw [kget_kset, h]; rfl
  · next h => split
              · next e => rw [e, h]; rfl
              · rfl

theorem kadj_some {m : KMap α} {k : Nat} {v : α} (h : kget m k = some v) (f : α → α) : kadj m k f = kset m k (f v) := by
  unfold kadj; rw [h]

@[simp] theorem kget_kput_some (m : KMap α) (k : Nat) (v : α) : kput m k (some v) = kset m k v := rfl
@[simp] theorem kget_kput_none (m : KMap α) (k : Nat) : kput m k none = kdel m k := rfl

theorem kset_kset {α : Type} (m : KMap α) (k : Nat) (v w : α) : kset (kset m k v) k w = kset m k w := by
  induction m with
  | nil => simp [kset]
  | cons e r ih =>
    obtain ⟨j, u⟩ := e
    simp only [kset]
    by_cases h1 : k < j
    · simp only [h1, if_true, kset, Nat.lt_irrefl, if_false]
    · by_cases h2 : j = k
      · subst h2; simp only [Nat.lt_irrefl, if_true, if_false, kset]
      · simp only [h1, h2, if_false, kset, ih]

theorem kget_foldl_kdel {α β : Type} (P : α → KMap β) (f : α → Nat → α) (h : ∀ a n, P (f a n) = kdel (P a) n) :
    ∀ (l : List Nat) (a : α) (n : Nat), kget (P (l.foldl f a)) n = if n ∈ l then none else kget (P a) n := by
  intro l
  induction l with
  | nil => intro a n; simp
  | cons x r ih =>
    intro a n
    rw [List.foldl_cons, ih, h, kget_kdel]
    by_cases h1 : n ∈ r
    · simp [h1]
    · by_cases h2 : n = x <;> simp [h1, h2]

theorem kget_none_of_notin {α : Type} {m : KMap α} {n : Nat} (h : n ∉ m.map (·.1)) : kget m n = none := by
  induction m with
  | nil => rfl
  | cons e r ih =>
    obtain ⟨j, v⟩ := e
    simp only [List.map_cons, List.mem_cons, not_or] at h
    rw [kget, if_neg (Ne.symm h.1)]
    exact ih h.2

theorem foldl_keeps {α β σ : Type} (P : σ → β) {f : σ → α → σ} (h : ∀ s x, P (f s x) = P s) (l : List α) (s : σ) : P (l.foldl f s) = P s := by
  induction l generalizing s with
  | nil => rfl
  | cons x r ih => rw [List.foldl_cons, ih, h]

/-- A free key is found while one is left. -/
theorem kfreeNth_some {α : Type} : ∀ (m : KMap α) (lo hi n : Nat), ksorted m = true → n < hi - lo - kcount m lo hi →
    ∃ k, kfreeNth m lo hi n = some k ∧ lo ≤ k ∧ k < hi ∧ kget m k = none := by
  intro m
  induction m with
  | nil =>
    intro lo hi n _ h
    simp only [kcount, List.filter_nil, List.length_nil, Nat.sub_zero] at h
    refine ⟨lo + n, ?_, by omega, by omega, rfl⟩
    unfold kfreeNth; rw [if_pos (by omega)]
  | cons e r ih =>
    obtain ⟨j, w⟩ := e
    intro lo hi n hs h
    obtain ⟨ha, hs'⟩ := ksorted_cons.mp hs
    have hc : kcount ((j, w) :: r) lo hi = (if lo ≤ j ∧ j < hi then 1 else 0) + kcount r lo hi := by
      unfold kcount
      rw [List.filter_cons]
      by_cases hj : lo ≤ j ∧ j < hi
      · simp [hj]; omega
      · simp only [not_and] at hj
        by_cases h1 : lo ≤ j
        · simp [h1, hj h1]
        · simp [h1]
    unfold kfreeNth
    by_cases h1 : j < lo
    · rw [if_pos h1]
      rw [hc, if_neg (by omega)] at h
      obtain ⟨k, a, b, c, d⟩ := ih lo hi n hs' (by omega)
      refine ⟨k, a, b, c, ?_⟩
      unfold kget; rw [if_neg (by omega)]; exact d
    · rw [if_neg h1]
      by_cases h2 : lo + n < j
      · rw [if_pos h2, if_pos (by omega)]
        refine ⟨lo + n, rfl, by omega, by omega, ?_⟩
        unfold kget; rw [if_neg (by omega)]
        refine kget_of_above ?_
        intro e he; have := ha e he; omega
      · rw [if_neg h2]
        have hj : j < hi := by omega
        rw [hc, if_pos (by omega)] at h
        have hk : kcount r lo hi = kcount r (j + 1) hi := by
          unfold kcount
          congr 1
          apply List.filter_congr
          intro e he
          have := ha e he
          have a1 : lo ≤ e.1 := by omega
          have a2 : j + 1 ≤ e.1 := by omega
          simp [a1, a2]
        rw [hk] at h
        obtain ⟨k, a, b, c, d⟩ := ih (j + 1) hi (n - (j - lo)) hs' (by omega)
        refine ⟨k, a, by omega, c, ?_⟩
        unfold kget; rw [if_neg (by omega)]; exact d

/-- A predicate that one entry alone meets selects that entry. -/
theorem kfilter_one {α : Type} {P : Nat × α → Bool} {h : Nat} {k : α} : ∀ {m : KMap α}, ksorted m = true → kget m h = some k → P (h, k) = true →
    (∀ e ∈ m, e.1 ≠ h → P e = false) → m.filter P = [(h, k)] := by
  intro m
  induction m with
  | nil => intro _ e; simp at e
  | cons e r ih =>
    obtain ⟨j, w⟩ := e
    intro hs hk hp ho
    rw [ksorted_cons] at hs
    unfold kget at hk
    by_cases c : j = h
    · subst c
      rw [if_pos rfl, Option.some.injEq] at hk
      subst hk
      rw [List.filter_cons, if_pos hp]
      congr 1
      rw [List.filter_eq_nil_iff]
      intro e he
      rw [ho e (by simp [he]) (by have := hs.1 e he; omega)]
      simp
    · rw [if_neg c] at hk
      rw [List.filter_cons, ho (j, w) (by simp) c, if_neg (by simp)]
      exact ih hs.2 hk hp fun e he => ho e (by simp [he])

end Sys2Proof.Machine
end

