-- ==== Sys2Proof/Laws/Mem.lean ====
section
/-!
SUPPORT. Byte memories: a read after a write, and that every memory operation keeps the canonical form.
-/
namespace Sys2Proof.Machine

open Sys2Proof

theorem Mem.wf_iff {m : Mem} : m.wf = true ↔ ksorted m = true ∧ ∀ e ∈ m, e.2 ≠ Mem.blank := by
  simp [Mem.wf, List.all_eq_true, bne_iff_ne]

/-- The empty memory is in canonical form. -/
@[simp] theorem Mem.wf_nil : Mem.wf [] = true := rfl

theorem Mem.wf_memSet {m : Mem} (a : Nat) (b : Byte) (h : m.wf = true) : (memSet m a b).wf = true := by
  obtain ⟨h1, h2⟩ := Mem.wf_iff.1 h
  unfold memSet
  split
  · exact Mem.wf_iff.2 ⟨ksorted_kdel a h1, fun e he => h2 e (mem_kdel he)⟩
  · rename_i hb
    refine Mem.wf_iff.2 ⟨ksorted_kset a b h1, fun e he => ?_⟩
    rcases mem_kset he with rfl | he
    · exact hb
    · exact h2 e he

/-- Storing a byte string keeps the canonical form. -/
theorem Mem.wf_memWrite {m : Mem} (a : Nat) (bs : List Byte) (h : m.wf = true) : (memWrite m a bs).wf = true := by
  induction bs generalizing m a with
  | nil => exact h
  | cons b r ih => exact ih (a + 1) (Mem.wf_memSet a b h)

/-- Clearing a range keeps the canonical form. -/
theorem Mem.wf_memClear {m : Mem} (lo hi : Nat) (h : m.wf = true) : (memClear m lo hi).wf = true := by
  obtain ⟨h1, h2⟩ := Mem.wf_iff.1 h
  exact Mem.wf_iff.2 ⟨ksorted_filter _ h1, fun e he => h2 e ((List.mem_filter.1 he).1)⟩

/-- A byte just written is read back. -/
theorem memGet_memSet_same (m : Mem) (a : Nat) (b : Byte) : memGet (memSet m a b) a = b := by
  unfold memSet
  split
  · rename_i hb; simp [memGet, kgetD, hb]
  · simp [memGet]

/-- A byte write leaves every other byte alone. -/
theorem memGet_memSet_ne (m : Mem) {a c : Nat} (b : Byte) (h : c ≠ a) : memGet (memSet m a b) c = memGet m c := by
  unfold memSet
  split
  · exact kgetD_kdel_ne m _ h
  · exact kgetD_kset_ne m b _ h

/-- A string write leaves every byte outside it alone. -/
theorem memGet_memWrite_out (m : Mem) (a : Nat) (bs : List Byte) {c : Nat} (h : c < a ∨ a + bs.length ≤ c) :
    memGet (memWrite m a bs) c = memGet m c := by
  induction bs generalizing m a with
  | nil => rfl
  | cons b r ih =>
    simp only [List.length_cons] at h
    rw [memWrite, ih (memSet m a b) (a + 1) (by omega), memGet_memSet_ne m b (by omega)]

/-- A byte string just written is read back. -/
theorem memRead_memWrite (m : Mem) (a : Nat) (bs : List Byte) :
    memRead (memWrite m a bs) a bs.length = bs := by
  induction bs generalizing m a with
  | nil => rfl
  | cons b r ih =>
    simp only [List.length_cons, memRead, memWrite]
    rw [memGet_memWrite_out _ (a + 1) r (by omega), memGet_memSet_same, ih]

/-- Reads outside a written string see what was there. -/
theorem memRead_memWrite_out (m : Mem) (a n c : Nat) (bs : List Byte) (h : c + n ≤ a ∨ a + bs.length ≤ c) :
    memRead (memWrite m a bs) c n = memRead m c n := by
  induction n generalizing c with
  | zero => rfl
  | succ k ih => rw [memRead, memRead, memGet_memWrite_out m a bs (by omega), ih (c + 1) (by omega)]

theorem memRead_length (m : Mem) (a n : Nat) : (memRead m a n).length = n := by
  induction n generalizing a with
  | zero => rfl
  | succ k ih => simp [memRead, ih]

end Sys2Proof.Machine
end

