-- ==== Sys2Proof/Laws/State.lean ====
section
/-!
SUPPORT. What the updates of State leave alone: the stored registers, the counters, and the updates that touch nothing but
registers and the HBM controller.
-/
namespace Sys2Proof.Machine

open Sys2Proof

/-! ## Stored words -/

theorem regRaw_setReg (s : State) (a b v d : Nat) :
    regRaw (setReg s a v) b d = if b = a then v % 2 ^ 64 else regRaw s b d := by
  unfold regRaw setReg
  dsimp only
  rw [kget_kset]
  by_cases h : b = a <;> simp [h]

@[simp] theorem regRaw_setReg_same (s : State) (a v d : Nat) : regRaw (setReg s a v) a d = v % 2 ^ 64 := by
  rw [regRaw_setReg, if_pos rfl]

theorem regRaw_setReg_ne {s : State} {a b : Nat} (v d : Nat) (h : b ≠ a) : regRaw (setReg s a v) b d = regRaw s b d := by
  rw [regRaw_setReg, if_neg h]

/-- A stored word is below 2^64. -/
theorem regRaw_lt (s : State) (a : Nat) {d : Nat} (h : d < 2 ^ 64) : regRaw s a d < 2 ^ 64 := by
  unfold regRaw
  split
  · exact BitVec.isLt _
  · exact h

theorem regRaw_bumpBy_ne {s : State} {a b : Nat} (n d : Nat) (h : b ≠ a) : regRaw (bumpBy s a n) b d = regRaw s b d :=
  regRaw_setReg_ne _ _ h

theorem regRaw_bump_ne {s : State} {a b : Nat} (d : Nat) (h : b ≠ a) : regRaw (bump s a) b d = regRaw s b d :=
  regRaw_setReg_ne _ _ h

/-! ## Updates of registers alone -/

/-- `t` is `s` but for its stored registers. -/
def SameButRegs (s t : State) : Prop := t = { s with regs := t.regs }

theorem SameButRegs.refl (s : State) : SameButRegs s s := rfl

theorem SameButRegs.trans {s t u : State} (h : SameButRegs s t) (k : SameButRegs t u) : SameButRegs s u := by
  unfold SameButRegs at *
  rw [k, h]

theorem SameButRegs.setReg (s : State) (a v : Nat) : SameButRegs s (setReg s a v) := rfl
theorem SameButRegs.bumpBy (s : State) (a n : Nat) : SameButRegs s (bumpBy s a n) := rfl
theorem SameButRegs.bump (s : State) (a : Nat) : SameButRegs s (bump s a) := rfl

theorem SameButRegs.foldl {α : Type} {f : State → α → State} (h : ∀ s x, SameButRegs s (f s x)) (l : List α) (s : State) :
    SameButRegs s (l.foldl f s) := by
  induction l generalizing s with
  | nil => exact .refl s
  | cons a r ih => exact (h s a).trans (ih (f s a))

theorem SameButHbm.refl (s : State) : SameButHbm s s := rfl

theorem SameButHbm.trans {s t u : State} (h : SameButHbm s t) (k : SameButHbm t u) : SameButHbm s u := by
  unfold SameButHbm at *
  rw [k, h]

theorem SameButRegs.hbm {s t : State} (h : SameButRegs s t) : SameButHbm s t := by
  unfold SameButRegs SameButHbm at *
  rw [h]

theorem SameButHbm.foldl {α : Type} {f : State → α → State} (h : ∀ s x, SameButHbm s (f s x)) (l : List α) (s : State) :
    SameButHbm s (l.foldl f s) := by
  induction l generalizing s with
  | nil => exact .refl s
  | cons a r ih => exact (h s a).trans (ih (f s a))

theorem SameButHbm.raiseHigh (s : State) (k v : Nat) : SameButHbm s (raiseHigh s k v) := by
  unfold Sys2Proof.Machine.raiseHigh
  split <;> rfl

theorem SameButHbm.cross (s : State) (i depth : Nat) (es : List (List Byte)) : SameButHbm s (cross s i depth es) :=
  SameButHbm.trans (t := { s with xq := kset s.xq i (lastN depth (kgetD s.xq i [] ++ es)) }) rfl (.raiseHigh _ _ _)

theorem cross_frame (s : State) (i depth : Nat) (es : List (List Byte)) : ∃ x h, cross s i depth es = { s with xq := x, high := h } := by
  unfold cross raiseHigh
  dsimp only
  split
  · exact ⟨_, _, rfl⟩
  · exact ⟨_, s.high, rfl⟩

theorem SameButHbm.hbmUncorr (s : State) (source k : Nat) : SameButHbm s (hbmUncorr s source k) := rfl

theorem SameButHbm.hbmc (s : State) (h : Hbm) : SameButHbm s { s with hbmc := h } := rfl

theorem SameButHbm.queueReq (s : State) (source a len line : Nat) (done : Bool) :
    SameButHbm s (queueReq s source a len line done) := by
  unfold Sys2Proof.Machine.queueReq
  exact ((SameButHbm.hbmc s _).trans (.raiseHigh _ _ _)).trans (.hbmc _ _)

theorem SameButHbm.postReq (s : State) (source off n : Nat) : SameButHbm s (postReq s source off n) := by
  unfold Sys2Proof.Machine.postReq
  dsimp only
  split
  · exact .queueReq _ _ _ _ _ _
  · exact .refl s

theorem SameButHbm.readSectors (s : State) (source off n : Nat) : SameButHbm s (readSectors s source off n) :=
  ((SameButHbm.cross s _ _ _).trans (SameButRegs.bump _ _).hbm).trans (.foldl (fun s k => .hbmUncorr s source k) _ _)

theorem SameButHbm.readPiece (s : State) (source off n : Nat) : SameButHbm s (readPiece s source off n) :=
  (SameButHbm.postReq s source off n).trans (.readSectors _ _ _ _)

theorem SameButHbm.writeSectors (s : State) (off : Nat) (rs : List (Nat × Nat)) : SameButHbm s (writeSectors s off rs) := by
  unfold Sys2Proof.Machine.writeSectors
  dsimp only
  exact ((SameButRegs.bump s _).hbm.trans (.hbmc _ _)).trans (SameButRegs.foldl (fun s k => .bump s _) _ _).hbm

theorem SameButHbm.drawN (n : Nat) (s : State) : SameButHbm s (drawN n s).2 := by
  induction n generalizing s with
  | zero => rfl
  | succ k ih => exact SameButHbm.trans (t := (draw s).2) rfl (ih _)

theorem SameButHbm.hbmBytesAt (s : State) (off n : Nat) : SameButHbm s (hbmBytesAt s off n).2 := by
  unfold Sys2Proof.Machine.hbmBytesAt
  split
  · exact .drawN _ s
  · exact .refl s

theorem SameButHbm.execReq (s : State) (r : HbmReq) : SameButHbm s (execReq s r) := by
  unfold Sys2Proof.Machine.execReq
  dsimp only
  have h := (SameButHbm.hbmBytesAt s r.addr r.len).trans (.readSectors _ r.source r.addr r.len)
  split
  · exact .refl s
  · split
    · exact h
    · exact h.trans (.hbmc _ _)

theorem SameButHbm.readsFirst (s : State) (source off : Nat) : SameButHbm s (readsFirst s source off) := by
  unfold Sys2Proof.Machine.readsFirst
  dsimp only
  split
  · exact .refl s
  · exact (SameButHbm.foldl (fun s r => .execReq s r) _ s).trans (.hbmc _ _)

theorem SameButHbm.writePiece (s : State) (source off n : Nat) : SameButHbm s (writePiece s source off n) :=
  ((SameButHbm.readsFirst s source off).trans (.postReq _ _ _ _)).trans (.writeSectors _ _ _)

theorem SameButHbm.pieces {f : State → Nat → Nat → State} (h : ∀ s o m, SameButHbm s (f s o m)) (k : Nat) (s : State)
    (off n : Nat) : SameButHbm s (pieces k f s off n) := by
  induction k generalizing s off n with
  | zero => exact .refl s
  | succ k ih =>
    unfold Sys2Proof.Machine.pieces
    split
    · exact .refl s
    · exact (h _ _ _).trans (ih _ _ _)

theorem SameButHbm.hbmRead (s : State) (source off n : Nat) : SameButHbm s (hbmRead s source off n).1 :=
  (SameButHbm.hbmBytesAt s off n).trans (.pieces (fun s o m => .readPiece s source o m) _ _ _ _)

theorem SameButHbm.poisonSector (s : State) (k : Nat) : SameButHbm s (poisonSector s k) := by
  unfold Sys2Proof.Machine.poisonSector
  split <;> rfl

theorem SameButRegs.putLanes (s : State) (st : Nat) (ls : List W64) : SameButRegs s (putLanes s st ls) :=
  .foldl (fun s _ => .setReg s _ _) _ _

theorem keepFixed_fields {s t : State} (k : keepFixed s t = t) :
    t.pending = s.pending ∧ t.clk = s.clk ∧ t.fuses = s.fuses ∧ t.flash = s.flash ∧ t.mram = s.mram ∧ t.cold = s.cold := by
  rw [← k]
  exact ⟨rfl, rfl, rfl, rfl, rfl, rfl⟩

theorem keepFixed_of {s t : State} (h : t.pending = s.pending ∧ t.clk = s.clk ∧ t.fuses = s.fuses ∧ t.flash = s.flash ∧ t.mram = s.mram ∧ t.cold = s.cold) :
    keepFixed s t = t := by
  obtain ⟨h1, h2, h3, h4, h5, h6⟩ := h
  unfold keepFixed
  rw [← h1, ← h2, ← h3, ← h4, ← h5, ← h6]

/-- Entries that cross after a command leave alone what it keeps. -/
theorem keepFixed_cross {s t : State} (k : keepFixed s t = t) (i depth : Nat) (es : List (List Byte)) : keepFixed s (cross t i depth es) = cross t i depth es := by
  obtain ⟨_, _, e⟩ := cross_frame t i depth es
  obtain ⟨h1, h2, h3, h4, h5, h6⟩ := keepFixed_fields k
  rw [e]
  exact keepFixed_of ⟨h1, h2, h3, h4, h5, h6⟩

theorem keepFixed_bump {s t : State} (k : keepFixed s t = t) (a : Nat) : keepFixed s (bump t a) = bump t a := by
  obtain ⟨h1, h2, h3, h4, h5, h6⟩ := keepFixed_fields k
  exact keepFixed_of ⟨h1, h2, h3, h4, h5, h6⟩

/-- A command of the running part keeps what it keeps when nothing but registers and the controller differ. -/
theorem keepFixed_hbm {s t : State} (h : SameButHbm s t) : keepFixed s t = t := by
  unfold SameButHbm at h
  rw [h]; rfl

end Sys2Proof.Machine
end

