-- ==== Sys2Proof/Laws/Hbm.lean ====
section
/-!
SUPPORT. The HBM window: which ranges it answers, what a read of trained stacks returns, and what a write changes
(14_hbm_controller.md R319 to R327; 02_contracts_and_floors.md R26).
-/
namespace Sys2Proof.Machine

open Sys2Proof

theorem hbmWrite_only (s : State) (source off : Nat) (bs : List Byte) :
    hbmWrite s source off bs =
    { s with
      hbm := memWrite s.hbm off bs
      regs := (hbmWrite s source off bs).regs
      hbmc := (hbmWrite s source off bs).hbmc
      sets := (hbmWrite s source off bs).sets
      xq := (hbmWrite s source off bs).xq
      high := (hbmWrite s source off bs).high
      fresh := (hbmWrite s source off bs).fresh } := by
  have h := SameButHbm.pieces (fun s o m => SameButHbm.writePiece s source o m) bs.length s off bs.length
  unfold SameButHbm at h
  unfold hbmWrite
  rw [h]

theorem writeRuns_only (s : State) (source : Nat) (rs : List (Nat × List Byte)) :
    writeRuns s source rs =
    { s with
      hbm := rs.foldl (fun m x => memWrite m x.1 x.2) s.hbm
      regs := (writeRuns s source rs).regs
      hbmc := (writeRuns s source rs).hbmc
      sets := (writeRuns s source rs).sets
      xq := (writeRuns s source rs).xq
      high := (writeRuns s source rs).high
      fresh := (writeRuns s source rs).fresh } := by
  match rs with
  | [] => rfl
  | r :: more =>
    have h := ((SameButHbm.readsFirst s source r.1).trans (.postReq _ source r.1
      (((r :: more).map fun x => x.1 + x.2.length - r.1).foldl max 0))).trans
      (.writeSectors _ r.1 ((r :: more).map fun x => (x.1, x.2.length)))
    unfold SameButHbm at h
    unfold writeRuns
    dsimp only
    rw [h]

theorem SameButWin.refl (s : State) : SameButWin s s := rfl

theorem SameButWin.trans {s t u : State} (h : SameButWin s t) (k : SameButWin t u) : SameButWin s u := by
  unfold SameButWin at *
  rw [k, h]

theorem SameButHbm.win {s t : State} (h : SameButHbm s t) : SameButWin s t := by
  unfold SameButHbm SameButWin at *
  rw [h]

theorem SameButWin.hbmWrite (s : State) (source off : Nat) (bs : List Byte) : SameButWin s (hbmWrite s source off bs) := by
  unfold SameButWin
  rw [hbmWrite_only]

theorem SameButWin.writeRuns (s : State) (source : Nat) (rs : List (Nat × List Byte)) : SameButWin s (writeRuns s source rs) := by
  unfold SameButWin
  rw [writeRuns_only]

theorem SameButWin.foldl {α : Type} {f : State → α → State} (h : ∀ s x, SameButWin s (f s x)) (l : List α) (s : State) :
    SameButWin s (l.foldl f s) := by
  induction l generalizing s with
  | nil => exact .refl s
  | cons a r ih => exact (h s a).trans (ih (f s a))

theorem SameRegsButHbm.refl (s : State) : SameRegsButHbm s s := fun _ _ _ => rfl

theorem SameRegsButHbm.trans {s t u : State} (h : SameRegsButHbm s t) (k : SameRegsButHbm t u) : SameRegsButHbm s u :=
  fun a ha d => (k a ha d).trans (h a ha d)

theorem SameRegsButHbm.of_regs {s t : State} (h : t.regs = s.regs) : SameRegsButHbm s t := fun a _ d => by unfold regRaw; rw [h]

theorem SameRegsButHbm.foldl {α : Type} {f : State → α → State} (h : ∀ s x, SameRegsButHbm s (f s x)) (l : List α) (s : State) :
    SameRegsButHbm s (l.foldl f s) := by
  induction l generalizing s with
  | nil => exact .refl s
  | cons a r ih => exact (h s a).trans (ih (f s a))

theorem stackAt_lt (s : State) (off : Nat) : stackAt s off < 4 := by
  show off % 2 ^ 32 / grainAt s off % 128 / 32 < 4
  omega

theorem SameRegsButHbm.count (s u : State) (off : Nat) {k : Nat} (hk : k < 5) : SameRegsButHbm s (bump s (aHbmCtr (stackAt u off) k)) :=
  fun _ ha d => regRaw_bump_ne d (ha _ k (stackAt_lt u off) hk)

theorem SameRegsButHbm.raiseHigh (s : State) (k v : Nat) : SameRegsButHbm s (raiseHigh s k v) := by
  unfold Sys2Proof.Machine.raiseHigh
  split <;> exact .of_regs rfl

theorem SameRegsButHbm.cross (s : State) (i depth : Nat) (es : List (List Byte)) : SameRegsButHbm s (cross s i depth es) := by
  unfold Sys2Proof.Machine.cross Sys2Proof.Machine.raiseHigh
  dsimp only
  split <;> exact .of_regs rfl

theorem SameRegsButHbm.setHbmc (s : State) (h : Hbm) : SameRegsButHbm s { s with hbmc := h } := .of_regs rfl

theorem SameRegsButHbm.hbmUncorr (s : State) (source k : Nat) : SameRegsButHbm s (hbmUncorr s source k) :=
  (SameRegsButHbm.count s s (k * 32) (k := 1) (by omega)).trans (.of_regs rfl)

theorem SameRegsButHbm.postReq (s : State) (source off n : Nat) : SameRegsButHbm s (postReq s source off n) := by
  unfold Sys2Proof.Machine.postReq queueReq Sys2Proof.Machine.raiseHigh
  dsimp only
  repeat' split
  all_goals exact .of_regs rfl

theorem SameRegsButHbm.readSectors (s : State) (source off n : Nat) : SameRegsButHbm s (readSectors s source off n) := by
  unfold Sys2Proof.Machine.readSectors
  exact ((SameRegsButHbm.cross _ _ _ _).trans (.count _ _ off (k := 3) (by omega))).trans (.foldl (fun s k => .hbmUncorr s source k) _ _)

theorem SameRegsButHbm.drawN (n : Nat) (s : State) : SameRegsButHbm s (drawN n s).2 := by
  induction n generalizing s with
  | zero => exact .refl s
  | succ k ih => exact SameRegsButHbm.trans (t := (draw s).2) (.of_regs rfl) (ih _)

theorem SameRegsButHbm.hbmBytesAt (s : State) (off n : Nat) : SameRegsButHbm s (hbmBytesAt s off n).2 := by
  unfold Sys2Proof.Machine.hbmBytesAt
  split
  · exact .drawN _ _
  · exact .refl s

theorem SameRegsButHbm.execReq (s : State) (r : HbmReq) : SameRegsButHbm s (execReq s r) := by
  unfold Sys2Proof.Machine.execReq
  dsimp only
  have h := (SameRegsButHbm.hbmBytesAt s r.addr r.len).trans (.readSectors _ r.source r.addr r.len)
  split
  · exact .refl s
  · split
    · exact h
    · exact h.trans (.setHbmc _ _)

theorem SameRegsButHbm.writePiece (s : State) (source off n : Nat) : SameRegsButHbm s (writePiece s source off n) := by
  have h : SameRegsButHbm s (readsFirst s source off) := by
    unfold readsFirst
    dsimp only
    split
    · exact .refl s
    · exact (SameRegsButHbm.foldl .execReq _ s).trans (.of_regs rfl)
  have w : ∀ (u : State) rs, SameRegsButHbm u (writeSectors u off rs) := fun u rs => by
    unfold writeSectors
    dsimp only
    exact ((SameRegsButHbm.count u u off (k := 4) (by omega)).trans (.setHbmc _ _)).trans
      (.foldl (fun s k => .count s s (32 * k) (k := 1) (by omega)) _ _)
  exact (h.trans (.postReq _ _ _ _)).trans (w _ _)

theorem SameRegsButHbm.pieces {f : State → Nat → Nat → State} (h : ∀ s o m, SameRegsButHbm s (f s o m)) (k : Nat) (s : State) (o m : Nat) :
    SameRegsButHbm s (pieces k f s o m) := by
  induction k generalizing s o m with
  | zero => exact .refl _
  | succ k ih =>
    unfold Sys2Proof.Machine.pieces
    split
    · exact .refl _
    · exact (h _ _ _).trans (ih _ _ _)

theorem SameRegsButHbm.hbmWrite (s : State) (source off : Nat) (bs : List Byte) : SameRegsButHbm s (hbmWrite s source off bs) := by
  exact (SameRegsButHbm.pieces (fun s o m => .writePiece s source o m) _ _ _ _).trans (.of_regs rfl)

theorem SameRegsButHbm.hbmRead (s : State) (source off n : Nat) : SameRegsButHbm s (hbmRead s source off n).1 :=
  (SameRegsButHbm.hbmBytesAt s off n).trans
    (.pieces (fun s o m => (SameRegsButHbm.postReq s source o m).trans (.readSectors _ source o m)) _ _ _ _)

/-- Where a range may be accessed, every part of it may. -/
theorem windowStatus_part {s : State} {w : Bool} {off n o m : Nat} (h : windowStatus s w off n = stOk) (h1 : off ≤ o)
    (h2 : o + m ≤ off + n) : windowStatus s w o m = stOk := by
  unfold windowStatus at h ⊢
  dsimp only at h ⊢
  split at h
  · cases h
  · rename_i c1
    split at h
    · cases h
    · rename_i c2
      split at h
      · cases h
      · rename_i c3
        simp only [Bool.not_eq_true, Bool.and_eq_true, Bool.or_eq_true, decide_eq_true_eq, not_and, not_or] at c1 c2 c3
        rw [if_neg, if_neg, if_neg]
        · simp only [Bool.not_eq_true, Bool.and_eq_true, Bool.or_eq_true, decide_eq_true_eq, not_and, not_or]
          intro hw
          obtain ⟨d1, d2⟩ := c3 hw
          exact ⟨fun e => by have := d1; omega, fun e f => by have := d2 e; omega⟩
        · simp only [Bool.not_eq_true, Bool.and_eq_true, Bool.or_eq_true, decide_eq_true_eq, not_and, not_or]
          omega
        · simp only [Bool.not_eq_true, Bool.and_eq_true, Bool.or_eq_true, decide_eq_true_eq, not_and, not_or]
          exact ⟨by omega, c1.2⟩

theorem windowWords_all {s : State} {w : Bool} {off n k : Nat} (h : windowStatus s w off n = stOk) (hk : 8 * k ≤ n) :
    windowWords s w off k = k := by
  unfold windowWords
  rw [findUp_none]
  · rfl
  · intro i _ hi
    rw [windowStatus_part h (o := off + 8 * i) (m := 8) (by omega) (by omega)]
    rfl

theorem hbmOff (off : Nat) : hbmBase + off - hbmBase = off := Nat.add_sub_cancel_left ..

theorem inHbm_of_status {s : State} {w : Bool} {off n : Nat} (hn : 0 < n)
    (h : windowStatus s w off n = stOk) : inHbm (hbmBase + off) = true ∧ hbmBase + off < 2 ^ 48 := by
  have : ¬ hbmBytes < off + n := by
    intro hc
    unfold windowStatus at h
    simp [hc] at h
    cases h
  have h1 : off < hbmBytes := by omega
  refine ⟨by simp [inHbm, h1], ?_⟩
  unfold hbmBytes at h1
  unfold hbmBase
  omega

theorem hbmWrite_sessions (s : State) (source off : Nat) (bs : List Byte) : (hbmWrite s source off bs).zat.sessions = s.zat.sessions := by
  rw [hbmWrite_only]

theorem keepFixed_hbmWrite (s : State) (source off : Nat) (bs : List Byte) (n op a st : Nat) (d : List Byte) :
    keepFixed s (answer (hbmWrite s source off bs) n op a st d) = answer (hbmWrite s source off bs) n op a st d := by
  rw [hbmWrite_only]; rfl

theorem stackDown_false {s : State} (h : s.hbmc.trained % 16 = 15) (off n : Nat) : stackDown s off n = false := by
  unfold stackDown
  simp [h]

theorem hbmRead_up {s : State} (ht : s.hbmc.trained % 16 = 15) (src off len : Nat) : hbmRead s src off len
      = (pieces len (fun s o m => readPiece s src o m) s off len, memRead s.hbm off len,
         s.hbmc.poison.any fun k => off < 32 * k + 32 && 32 * k < off + len) := by
  have e : hbmBytesAt s off len = (memRead s.hbm off len, s) := by
    unfold hbmBytesAt; rw [if_neg (by simp [stackDown_false ht])]
  have e2 : hbmPoisoned s off len = s.hbmc.poison.any fun k => off < 32 * k + 32 && 32 * k < off + len := by
    unfold hbmPoisoned; rw [stackDown_false ht, Bool.false_or]
  unfold hbmRead
  rw [e, e2]

theorem drawN_frame (n : Nat) (s : State) : (drawN n s).2 = { s with fresh := (drawN n s).2.fresh } := by
  induction n generalizing s with
  | zero => rfl
  | succ k ih => show (drawN k (draw s).2).2 = _; rw [ih]; rfl

/-- A read request leaves the result of the last training alone. -/
theorem readPiece_trainFail (s : State) (source off n : Nat) : (readPiece s source off n).hbmc.trainFail = s.hbmc.trainFail := by
  have post : ∀ u : State, (postReq u source off n).hbmc.trainFail = u.hbmc.trainFail := by
    intro u
    unfold postReq queueReq raiseHigh
    dsimp only
    repeat' split
    all_goals rfl
  have bad : ∀ (l : List Nat) (u : State), (l.foldl (fun s k => hbmUncorr s source k) u).hbmc.trainFail = u.hbmc.trainFail := by
    intro l
    induction l with
    | nil => exact fun _ => rfl
    | cons k l ih => exact fun u => (ih _).trans rfl
  unfold readPiece readSectors
  dsimp only
  rw [bad]
  obtain ⟨x, h, e⟩ := cross_frame (postReq s source off n) (101 + stackAt (postReq s source off n) off) 512
    (chunks 64 (memRead (postReq s source off n).hbm (off + n - min n 32768) (min n 32768)))
  unfold readReturn
  dsimp only
  rw [e]
  exact post s

theorem hbmRead_trainFail (s : State) (source off n : Nat) : (hbmRead s source off n).1.hbmc.trainFail = s.hbmc.trainFail := by
  have p : ∀ k (u : State) o m, (pieces k (fun s o m => readPiece s source o m) u o m).hbmc.trainFail = u.hbmc.trainFail := by
    intro k
    induction k with
    | zero => intros; rfl
    | succ k ih =>
      intro u o m
      unfold pieces
      split
      · rfl
      · exact (ih _ _ _).trans (readPiece_trainFail u source o _)
  have b : (hbmBytesAt s off n).2.hbmc = s.hbmc := by
    unfold hbmBytesAt
    split
    · show (drawN _ s).2.hbmc = _
      rw [drawN_frame]
    · rfl
  unfold hbmRead
  rw [p, b]

end Sys2Proof.Machine
end

