-- ==== Sys2Proof/Laws/Watch.lean ====
section
/-!
SUPPORT. What writing items to rings, posting their export tasks and counting performance events can change: counters,
HBM, rings, task entries, the order of events and the performance state, and nothing else.
-/
namespace Sys2Proof.Machine

open Sys2Proof

/-- `t` is `s` but for what observation writes, and when a task was last dispatched. -/
def SameButObs (s t : State) : Prop :=
  t = { s with regs := t.regs, sets := t.sets, hbm := t.hbm, hbmc := t.hbmc, rings := t.rings, tasks := t.tasks, order := t.order,
               high := t.high, xq := t.xq, fresh := t.fresh, postHeld := t.postHeld, lastDisp := t.lastDisp, perfCnt := t.perfCnt, perfLast := t.perfLast }

theorem SameButObs.refl (s : State) : SameButObs s s := rfl

theorem SameButObs.trans {s t u : State} (h : SameButObs s t) (k : SameButObs t u) : SameButObs s u := by
  unfold SameButObs at *
  rw [h] at k
  rw [k]

theorem SameButObs.foldl {α : Type} {f : State → α → State} (h : ∀ s x, SameButObs s (f s x)) (l : List α) (s : State) :
    SameButObs s (l.foldl f s) := by
  induction l generalizing s with
  | nil => exact .refl s
  | cons x r ih => exact (h s x).trans (ih _)

theorem SameButObs.setRings {s t : State} (h : SameButObs s t) (x : KMap Ring) : SameButObs s { t with rings := x } := by
  unfold SameButObs at *; rw [h]

theorem SameButObs.setLast {s t : State} (h : SameButObs s t) (x : KMap Nat) : SameButObs s { t with perfLast := x } := by
  unfold SameButObs at *; rw [h]

theorem SameButObs.setCnt {s t : State} (h : SameButObs s t) (x : KMap Nat) : SameButObs s { t with perfCnt := x } := by
  unfold SameButObs at *; rw [h]

theorem SameButObs.bumpBy (s : State) (a n : Nat) : SameButObs s (bumpBy s a n) := rfl
theorem SameButObs.bump (s : State) (a : Nat) : SameButObs s (bump s a) := rfl
theorem SameButObs.setReg (s : State) (a v : Nat) : SameButObs s (setReg s a v) := rfl

theorem SameButObs.raiseHigh (s : State) (k v : Nat) : SameButObs s (raiseHigh s k v) := by
  unfold Sys2Proof.Machine.raiseHigh; split <;> rfl

theorem SameButObs.hbmWrite (s : State) (source off : Nat) (bs : List Byte) : SameButObs s (hbmWrite s source off bs) := by
  unfold SameButObs; rw [hbmWrite_only]

theorem SameButObs.settle (s : State) (h via : Nat) : SameButObs s (settle s h via) := by
  unfold Sys2Proof.Machine.settle
  repeat' split
  · rfl
  · rfl
  · rfl
  · exact SameButObs.trans (t := { s with tasks := _, order := _ }) rfl (SameButObs.raiseHigh _ _ _)

theorem SameButObs.postAt (s : State) (h n : Nat) (b : TaskBody) (k : TaskKind) : SameButObs s (postAt s h n b k) := by
  unfold Sys2Proof.Machine.postAt
  dsimp only
  refine SameButObs.trans ?_ (SameButObs.settle _ _ _)
  refine SameButObs.trans ?_ (SameButObs.bump _ _)
  exact SameButObs.trans (t := { s with tasks := _, order := _ }) rfl (SameButObs.hbmWrite _ _ _ _)

theorem SameButObs.partPost {s t : State} {b : TaskBody} {k : TaskKind} {h : Nat} (e : partPost s b k = some (h, t)) :
    SameButObs s t := by
  unfold Sys2Proof.Machine.partPost at e
  unfold chooseFree at e
  dsimp only at e
  split at e
  · simp at e
  · rw [Option.map_map] at e
    rw [Option.map_eq_some_iff] at e
    obtain ⟨j, -, e⟩ := e
    simp only [Function.comp_apply, Prod.mk.injEq] at e
    rw [← e.2]
    exact SameButObs.trans (t := (draw s).2) rfl (SameButObs.postAt _ _ _ _ _)

theorem SameButObs.holdPost (s : State) (p : HeldPost) : SameButObs s (holdPost s p) := by
  unfold Sys2Proof.Machine.holdPost
  split <;> rfl

theorem SameButObs.ringThreshold (s : State) (r : Nat) : SameButObs s (ringThreshold s r) := by
  unfold Sys2Proof.Machine.ringThreshold
  dsimp only
  repeat' split
  · rfl
  · rfl
  · rfl
  · next p h =>
    exact (SameButObs.partPost (t := p.2) h).setRings _
  · exact SameButObs.holdPost _ _
  · rfl

theorem SameButObs.ringFree {s t : State} {r n : Nat} (h : ringFree s r n = some t) : SameButObs s t := by
  unfold Sys2Proof.Machine.ringFree at h
  dsimp only at h
  rw [Option.map_eq_some_iff] at h
  obtain ⟨_, -, rfl⟩ := h
  rfl

theorem SameButObs.ringPut (s : State) (r : Nat) (item : List Byte) (p : Bool) : SameButObs s (ringPut s r item p) := by
  unfold Sys2Proof.Machine.ringPut
  split
  · rfl
  · next t h =>
    refine (SameButObs.ringFree h).trans (SameButObs.trans ?_ (SameButObs.ringThreshold _ _))
    unfold ringStore
    exact ((SameButObs.hbmWrite _ _ _ _).trans (SameButObs.hbmWrite _ _ _ _)).setRings _

theorem SameButObs.ringWrite (s : State) (r : Nat) (item : List Byte) (p : Bool) : SameButObs s (ringWrite s r item p) := by
  unfold Sys2Proof.Machine.ringWrite
  split
  · unfold addSlot
    rcases h : Sys2Proof.Machine.ringFree s r item.length with _ | t
    · rfl
    · exact (SameButObs.ringFree h).trans rfl
  · exact SameButObs.ringPut _ _ _ _

theorem SameButObs.perfCount (s : State) (m k d ev n : Nat) (x : PerfAt) : SameButObs s (perfCount s m k d ev n x) := by
  unfold Sys2Proof.Machine.perfCount
  dsimp only
  repeat' split
  all_goals first
    | rfl
    | exact SameButObs.setLast (SameButObs.trans (SameButObs.setCnt (SameButObs.bumpBy s (aPerfCount m k) n) _) (SameButObs.ringWrite _ _ _ _)) _

theorem SameButObs.perfEvent (s : State) (d ev n : Nat) (x : PerfAt) : SameButObs s (perfEvent s d ev n x) := by
  unfold Sys2Proof.Machine.perfEvent
  split
  · rfl
  · refine SameButObs.foldl ?_ _ _
    intro s m
    dsimp only
    split
    · exact SameButObs.perfCount _ _ _ _ _ _ _
    · rfl

theorem SameButObs.perfAcct (s : State) (d k n : Nat) : SameButObs s (perfAcct s d k n) := by
  unfold Sys2Proof.Machine.perfAcct; split <;> rfl

theorem SameButObs.perfAttempt (s : State) (d c : Nat) (t : Trick) (ok : Bool) : SameButObs s (perfAttempt s d c t ok) := by
  unfold Sys2Proof.Machine.perfAttempt
  refine SameButObs.foldl ?_ _ _
  intro s w
  unfold perfWord
  dsimp only
  refine ((SameButObs.refl s).setCnt (kdel s.perfCnt (waitKey d c w.1))).trans ?_
  split
  · exact ((SameButObs.perfAcct _ _ _ _).trans (SameButObs.perfEvent _ _ _ _ _)).trans (SameButObs.perfEvent _ _ _ _ _)
  · exact (SameButObs.perfAcct _ _ _ _).trans (SameButObs.perfEvent _ _ _ _ _)

theorem SameButObs.traceTask (s : State) (ev : Nat) (race : Bool) (h : Nat) (b : Option TaskBody) (d c : Nat) :
    SameButObs s (traceTask s ev race h b d c) := by
  unfold Sys2Proof.Machine.traceTask
  cases b <;> dsimp only <;> split
  all_goals first
    | rfl
    | exact SameButObs.ringWrite _ _ _ _

/-- The fields observation leaves alone that statements read. -/
theorem SameButObs.fields {s t : State} (h : SameButObs s t) :
    t.tricks = s.tricks ∧ t.pkts = s.pkts ∧ t.suits = s.suits ∧ t.rb = s.rb ∧ t.deck = s.deck ∧ t.cold = s.cold ∧ t.hot0 = s.hot0
    ∧ t.hot1 = s.hot1 ∧ t.clk = s.clk ∧ t.late = s.late ∧ t.sendq = s.sendq ∧ t.queues = s.queues ∧ t.ports = s.ports
    ∧ t.displaced = s.displaced ∧ t.stock = s.stock ∧ t.lines = s.lines ∧ t.rst = s.rst ∧ t.time = s.time ∧ t.zat = s.zat := by
  unfold SameButObs at h
  rw [h]
  exact ⟨rfl, rfl, rfl, rfl, rfl, rfl, rfl, rfl, rfl, rfl, rfl, rfl, rfl, rfl, rfl, rfl, rfl, rfl, rfl⟩

theorem ringThreshold_items (s : State) (r : Nat) : (ringOf (ringThreshold s r) r).items = (ringOf s r).items := by
  unfold ringThreshold
  dsimp only
  repeat' split
  all_goals first
    | rfl
    | (unfold ringOf; dsimp only; rw [kgetD_kset_same])
    | (unfold holdPost; split <;> rfl)

/-- A ring whose items become visible at once: COMMIT, or no slot is reserved (R260). -/
def openRing (s : State) (r : Nat) : Bool := !((ringCfg s r).byLength && !(ringOf s r).slots.isEmpty)

/-- An item that fits joins its ring, after the oldest items that had to go (R261). -/
theorem ringWrite_items {s : State} {r : Nat} {item : List Byte} {kept : List (List Byte × Bool)} {lost : Nat} (p : Bool)
    (ho : openRing s r = true)
    (h : freeItems (ringOf s r).items (ringOf s r).part (ringRoom s r) item.length = some (kept, lost)) :
    (ringOf (ringWrite s r item p) r).items = kept ++ [(item, p)] := by
  unfold openRing at ho
  unfold ringWrite
  rw [if_neg (by rw [Bool.not_eq_true'] at ho; simp [ho])]
  unfold ringPut ringFree
  dsimp only
  rw [h]
  simp only [Option.map_some]
  rw [ringThreshold_items]
  unfold ringOf
  dsimp only
  rw [kgetD_kset_same]
  simp only [kgetD_kset_same]

end Sys2Proof.Machine
end

