-- ==== Sys2Proof/Laws/Trick.lean ====
section
/-!
SUPPORT. Trick contexts and the flow operations of a running trick: what a context reads after it is written, what an
effect does before COMMIT, and what a hit latches.
-/
namespace Sys2Proof.Machine

open Sys2Proof

theorem trickAt_setTrick (s : State) (d c : Nat) (t : Trick) : trickAt (setTrick s d c t) d c = some t := by
  unfold trickAt setTrick; exact kget_kset_same _ _ _

theorem setTrick_setTrick (s : State) (d c : Nat) (t u : Trick) : setTrick (setTrick s d c t) d c u = setTrick s d c u := by
  unfold setTrick; rw [kset_kset]

theorem logEffect_held {s : State} {d c : Nat} {t : Trick} (h : trickAt s d c = some t) (hc : t.committed = false)
    (hl : t.log.length < 32) (e : Effect) : logEffect s d c e = setTrick s d c { t with log := t.log ++ [⟨e, t.recAt⟩] } := by
  unfold logEffect
  rw [h]
  dsimp only
  rw [hc, if_neg (by simp), if_neg (by omega)]

theorem afterOp_held {s : State} {d c : Nat} {t : Trick} (hc : t.committed = false) (su : Nat) :
    afterOp (setTrick s d c t) d c su = setTrick s d c { t with releaseAt := t.releaseAt || su == suitRelease } := by
  unfold afterOp
  split
  · next h =>
    rw [trickAt_setTrick]
    dsimp only
    rw [hc, if_neg (by simp), setTrick_setTrick]
    simp [h]
  · next h =>
    have : (su == suitRelease) = false := by simpa using h
    rw [this, Bool.or_false]

theorem flowWrite_held {s : State} {d c : Nat} {t : Trick} (h : trickAt s d c = some t) (hc : t.committed = false)
    (hl : t.log.length < 32) {su : Nat} (hs : (su ≠ suitNone ∧ t.suit ≠ none) ∨ gathers t = true) (e : Effect) :
    flowWrite s d c su e = setTrick s d c { t with log := t.log ++ [⟨e, t.recAt⟩], releaseAt := t.releaseAt || su == suitRelease } := by
  unfold flowWrite
  rw [h]
  dsimp only
  have : suitError t su = false := by
    unfold suitError
    rcases hs with ⟨a, b⟩ | a
    · cases hh : t.suit with
      | none => exact absurd hh b
      | some x => simp [a]
    · simp [a]
  rw [this, if_neg (by simp)]
  unfold withMode
  have run : sameRun s (setTrick s d c { t with log := t.log ++ [⟨e, t.recAt⟩] }) d c = true := by
    unfold sameRun
    rw [h, trickAt_setTrick]
    simp
  simp only [logEffect_held h hc hl, run, if_true]
  exact afterOp_held (t := { t with log := t.log ++ [⟨e, t.recAt⟩] }) hc su

theorem flowRow_run {s : State} {d c : Nat} {t : Trick} (h : running s d c t) (op f su : Nat) (out : W32)
    (hs : stageOf d = 7 ∨ (stageOf d = 2 ∧ op ≤ 13)) : flowRow s d c op f su out = flowOp s d c op f su out := by
  obtain ⟨_, _, h1, h2, h3, h4⟩ := h
  unfold flowRow
  rw [h1]
  dsimp only
  rw [h2, h3, h4, if_pos]
  rcases hs with h | ⟨h, h'⟩ <;> simp [h]
  exact h'

theorem modTrick_some {s : State} {d c : Nat} {t : Trick} (h : trickAt s d c = some t) (f : Trick → Trick) :
    modTrick s d c f = setTrick s d c (f t) := by
  unfold modTrick setTrick
  rw [kadj_some h]

theorem lookupHit_trick {s : State} {d c : Nat} {t : Trick} (h : trickAt s d c = some t) (n : Nat) :
    trickAt (lookupHit s d c n) d c =
      some { t with image := some (hotImage s (lineOf s n).words), recAt := some (.line n), flowNew := false,
                    created := none } := by
  unfold lookupHit
  dsimp only
  have tr : ∀ mk, trickAt (useLine (confHit (bump s aHits) mk) n) d c = some t := by
    intro mk; rw [← h]; unfold confHit; split <;> rfl
  have hi : ∀ mk ws, hotImage (useLine (confHit (bump s aHits) mk) n) ws = hotImage s ws := by
    intro mk ws; unfold confHit; split <;> rfl
  rw [modTrick_some (tr _), trickAt_setTrick, hi]

theorem lookupHit_frame (s : State) (d c n : Nat) :
    (lookupHit s d c n).regs = (bump s aHits).regs ∧ (lookupHit s d c n).suits = s.suits := by
  unfold lookupHit
  dsimp only
  generalize (match trickAt s d c with
      | some t => if t.task.isNone && !t.reentry then (getPkt s t.pkt).map fun (p : Pkt) => confKey p.port p.rxTime else none
      | none => none) = mk
  unfold confHit
  split <;> exact ⟨rfl, rfl⟩

theorem bump_low48 (s : State) (a : Nat) : regRaw (bump s a) a 0 % 2 ^ 48 = (regRaw s a 0 % 2 ^ 48 + 1) % 2 ^ 48 := by
  unfold bump bumpBy
  rw [regRaw_setReg_same]
  generalize regRaw s a 0 % 2 ^ 48 + 1 = x
  generalize b2n _ = y
  omega

theorem lookupHit_suits (s : State) (d c n : Nat) : (lookupHit s d c n).suits = s.suits := (lookupHit_frame s d c n).2

theorem lookupHit_hits (s : State) (d c n : Nat) :
    regRaw (lookupHit s d c n) aHits 0 % 2 ^ 48 = (regRaw s aHits 0 % 2 ^ 48 + 1) % 2 ^ 48 := by
  have : regRaw (lookupHit s d c n) aHits 0 = regRaw (bump s aHits) aHits 0 := by
    unfold regRaw; rw [(lookupHit_frame s d c n).1]
  rw [this, bump_low48]

/-- A free key is chosen while one is left. -/
theorem chooseFree_some {α : Type} (s : State) {m : KMap α} {lo hi : Nat} (hs : ksorted m = true) (h : kcount m lo hi < hi - lo) :
    ∃ k, chooseFree s m lo hi = some (k, { s with fresh := s.fresh + 1 }) ∧ lo ≤ k ∧ k < hi ∧ kget m k = none := by
  unfold chooseFree
  dsimp only
  rw [if_neg (by omega)]
  obtain ⟨k, a, b, c, d⟩ := kfreeNth_some m lo hi ((draw s).1 % (hi - lo - kcount m lo hi)) hs (Nat.mod_lt _ (by omega))
  exact ⟨k, by rw [a]; rfl, b, c, d⟩

/-- Contexts in use, counted by key. -/
theorem kcount_room (s : State) (d : Nat) : kcount s.tricks (256 * d) (256 * d + 256) = (tricksOf s d).length := by
  unfold kcount tricksOf kfilter
  congr 1
  apply List.filter_congr
  intro e _
  by_cases h : e.1 / 256 = d
  · have a : 256 * d ≤ e.1 := by omega
    have b : e.1 < 256 * d + 256 := by omega
    simp [h, a, b]
  · have : ¬ (256 * d ≤ e.1 ∧ e.1 < 256 * d + 256) := by omega
    by_cases a : 256 * d ≤ e.1
    · have b : ¬ e.1 < 256 * d + 256 := by omega
      simp [a, b, h]
    · simp [a, h]

/-- What a packet's trick is when it enters a stage (R68, R81). -/
theorem enterStage_starts {s : State} {d k : Nat} {p : Pkt} {o : Nat} (hp : getPkt s k = some p) (hs : ksorted s.tricks = true)
    (hr : hasRoom s d = true) (h3 : stageOf d ≠ 3)
    (ho : routineOff s (pktEpoch p) (stageOf d) (pktRoutine p (stageOf d)) = some o) :
    ∃ u c t, enterStage s d k = some u ∧ c < 256 ∧ kget s.tricks (trickKey d c) = none
      ∧ SameButObs { (if stageOf d = 2 then setPkt s k { p with kv := [] } else s) with tricks := kset s.tricks (trickKey d c) t } u
      ∧ t.pkt = k ∧ t.task = none ∧ t.slot = pktEpoch p ∧ t.routine = pktRoutine p (stageOf d) ∧ t.ended = false ∧ t.wait = none
      ∧ t.committed = false ∧ t.addr = rtF s (pktEpoch p) o 2 2 % 2 ^ 14 ∧ t.readyAt = s.clk ∧ t.log = [] := by
  obtain ⟨key, hk, hlo, hhi, hn⟩ := chooseFree_some s (lo := 256 * d) (hi := 256 * d + 256) hs (by
    rw [kcount_room]; unfold hasRoom at hr; simp at hr; omega)
  have kk : trickKey d (key % 256) = key := by unfold trickKey; omega
  obtain ⟨b, hb⟩ : ∃ b, b = if stageOf d = 2 then setPkt { s with fresh := s.fresh + 1 } k { p with kv := [] } else { s with fresh := s.fresh + 1 } := ⟨_, rfl⟩
  have bt : b.tricks = s.tricks ∧ b.clk = s.clk ∧ (∀ e a n, routineOff b e a n = routineOff s e a n) ∧ (∀ e o a n, rtF b e o a n = rtF s e o a n) := by
    rw [hb]; split <;> exact ⟨rfl, rfl, fun _ _ _ => rfl, fun _ _ _ _ => rfl⟩
  obtain ⟨x, hx⟩ : ∃ x : Trick, x = reload { b with order := b.order + 1 } (stageOf d)
      { Trick.blank with pkt := k, slot := pktEpoch p, routine := pktRoutine p (stageOf d), pol := 0, age := b.order, entryClk := b.clk } := ⟨_, rfl⟩
  obtain ⟨u, hu⟩ : ∃ u, u = perfEvent (setTrick { b with order := b.order + 1 } d (key % 256) x) d 11 1 (perfOf (setTrick { b with order := b.order + 1 } d (key % 256) x) x (key % 256) x.addr 0 0 0) := ⟨_, rfl⟩
  refine ⟨u, key % 256, x, ?_, by omega, by rw [kk]; exact hn, ?_, ?_⟩
  · unfold enterStage
    rw [hp, hk]
    dsimp only
    rw [← hb, if_neg h3]
    dsimp only
    unfold startTrick
    dsimp only
    have : routineOff { b with order := b.order + 1 } (pktEpoch p) (stageOf d) (pktRoutine p (stageOf d)) = some o := by
      rw [← ho, ← bt.2.2.1]; rfl
    rw [this]
    dsimp only
    rw [← hx, hu]
    rfl
  · have e : SameButObs { (if stageOf d = 2 then setPkt s k { p with kv := [] } else s) with tricks := kset s.tricks (trickKey d (key % 256)) x } (setTrick { b with order := b.order + 1 } d (key % 256) x) := by
      unfold setTrick
      rw [show ({ b with order := b.order + 1 } : State).tricks = s.tricks from bt.1, hb]
      split <;> rfl
    rw [hu]
    exact e.trans (SameButObs.perfEvent _ _ _ _ _)
  · rw [hx]
    unfold reload
    have : routineOff { b with order := b.order + 1 } (pktEpoch p) (stageOf d) (pktRoutine p (stageOf d)) = some o := by
      rw [← ho, ← bt.2.2.1]; rfl
    dsimp only
    rw [this]
    refine ⟨rfl, rfl, rfl, rfl, rfl, rfl, rfl, ?_, bt.2.1, rfl⟩
    have q := bt.2.2.2 (pktEpoch p) o 2 2
    show rtF { b with order := b.order + 1 } (pktEpoch p) o 2 2 % 2 ^ 14 = _
    rw [← q]
    rfl

theorem hotBody_congr {s u : State} (h0 : u.hot0 = s.hot0) (h1 : u.hot1 = s.hot1) (e : Bool) (ty : Nat) : hotBody u e ty = hotBody s e ty := by
  unfold hotBody; rw [h0, h1]

theorem routineOff_congr {s u : State} (h0 : u.hot0 = s.hot0) (h1 : u.hot1 = s.hot1) (e : Bool) (a n : Nat) :
    routineOff u e a n = routineOff s e a n := by
  unfold routineOff; rw [hotBody_congr h0 h1]

theorem rtF_congr {s u : State} (h0 : u.hot0 = s.hot0) (h1 : u.hot1 = s.hot1) (e : Bool) (a b n : Nat) :
    rtF u e a b n = rtF s e a b n := by
  unfold rtF hotF; rw [hotBody_congr h0 h1]

theorem noteAdmit_frame (s : State) (h : Nat) : (noteAdmit s h).tricks = s.tricks ∧ (noteAdmit s h).pkts = s.pkts ∧ (noteAdmit s h).rb = s.rb
    ∧ (noteAdmit s h).hot0 = s.hot0 ∧ (noteAdmit s h).hot1 = s.hot1 ∧ (noteAdmit s h).deck = s.deck := by
  unfold noteAdmit; split <;> exact ⟨rfl, rfl, rfl, rfl, rfl, rfl⟩

theorem flightUp_frame (s : State) (e : Bool) : (flightUp s e).tricks = s.tricks ∧ (flightUp s e).pkts = s.pkts ∧ (flightUp s e).rb = s.rb
    ∧ (flightUp s e).hot0 = s.hot0 ∧ (flightUp s e).hot1 = s.hot1
    ∧ (flightUp s e).deck = if e then { s.deck with inflight1 := s.deck.inflight1 + 1 } else { s.deck with inflight0 := s.deck.inflight0 + 1 } :=
  ⟨rfl, rfl, rfl, rfl, rfl, rfl⟩

theorem autoExtract_walk (p : Pkt) (st f : List Byte) (h i : Nat) : (autoExtract p st f h i).walk = p.walk ∧ (autoExtract p st f h i).frame = p.frame := by
  unfold autoExtract; dsimp only; split <;> exact ⟨rfl, rfl⟩

theorem cwBits_walk (p : Pkt) (n hi lo v : Nat) : (cwBits p n hi lo v).walk = p.walk ∧ (cwBits p n hi lo v).frame = p.frame := ⟨rfl, rfl⟩

theorem bestRow_spec : ∀ (rows : List (Nat × Row)) (j : Nat) (q : Row) (tie : Bool), (∀ e ∈ rows, j < e.1) → ksorted rows = true →
    ∃ i r tie', bestRow rows (some (j, q, tie)) = some (i, r, tie') ∧ ((i, r) = (j, q) ∨ (i, r) ∈ rows)
      ∧ (∀ e, (e = (j, q) ∨ e ∈ rows) → e.2.trump < r.trump ∨ (e.2.trump = r.trump ∧ i ≤ e.1))
      ∧ (tie' = true ↔ (tie = true ∧ i = j) ∨ ∃ e, (e = (j, q) ∨ e ∈ rows) ∧ e.1 ≠ i ∧ e.2.trump = r.trump) := by
  intro rows
  induction rows with
  | nil =>
    intro j q tie _ _
    refine ⟨j, q, tie, rfl, .inl rfl, ?_, ?_⟩
    · intro e he
      rcases he with rfl | he
      · exact .inr ⟨rfl, Nat.le_refl _⟩
      · simp at he
    · constructor
      · intro h; exact .inl ⟨h, rfl⟩
      · rintro (⟨h, _⟩ | ⟨e, he, h1, _⟩)
        · exact h
        · rcases he with rfl | he
          · exact absurd rfl h1
          · simp at he
  | cons a rest ih =>
    obtain ⟨m, w⟩ := a
    intro j q tie hj hs
    obtain ⟨ha, hs'⟩ := ksorted_cons.mp hs
    have hm : j < m := hj (m, w) (by simp)
    unfold bestRow
    dsimp only
    by_cases c1 : q.trump < w.trump
    · rw [if_pos c1]
      obtain ⟨i, r, tie', h1, h2, h3, h4⟩ := ih m w false ha hs'
      have hr : q.trump < r.trump := by
        rcases h3 (m, w) (.inl rfl) with h | ⟨h, _⟩ <;> simp only at h <;> omega
      have hi : m ≤ i := by
        rcases h2 with h | h
        · cases h; exact Nat.le_refl _
        · exact Nat.le_of_lt (ha _ h)
      refine ⟨i, r, tie', h1, .inr ?_, ?_, ?_⟩
      · rcases h2 with h | h
        · rw [h]; simp
        · exact List.mem_cons_of_mem _ h
      · intro e he
        rcases he with rfl | he
        · exact .inl hr
        · rcases List.mem_cons.mp he with h | h
          · exact h3 e (.inl h)
          · exact h3 e (.inr h)
      · rw [h4]
        constructor
        · rintro (⟨h, _⟩ | ⟨e, he, h5, h6⟩)
          · simp at h
          · refine .inr ⟨e, .inr ?_, h5, h6⟩
            rcases he with h | h
            · rw [h]; simp
            · exact List.mem_cons_of_mem _ h
        · rintro (⟨_, h⟩ | ⟨e, he, h5, h6⟩)
          · omega
          · rcases he with h | h
            · rw [h] at h6; simp only at h6; omega
            · refine .inr ⟨e, ?_, h5, h6⟩
              rcases List.mem_cons.mp h with h | h
              · exact .inl h
              · exact .inr h
    · rw [if_neg c1]
      have jr : ∀ e ∈ rest, j < e.1 := fun e he => Nat.lt_trans hm (ha e he)
      by_cases c2 : q.trump = w.trump
      · rw [if_pos c2]
        obtain ⟨i, r, tie', h1, h2, h3, h4⟩ := ih j q true jr hs'
        have hq := h3 (j, q) (.inl rfl)
        simp only at hq
        refine ⟨i, r, tie', h1, ?_, ?_, ?_⟩
        · rcases h2 with h | h
          · exact .inl h
          · exact .inr (List.mem_cons_of_mem _ h)
        · intro e he
          rcases he with h | he
          · exact h3 e (.inl h)
          · rcases List.mem_cons.mp he with h | h
            · rw [h]; simp only; omega
            · exact h3 e (.inr h)
        · rw [h4]
          constructor
          · rintro (⟨_, h⟩ | ⟨e, he, h5, h6⟩)
            · by_cases k : w.trump = r.trump
              · exact .inr ⟨(m, w), .inr (by simp), by simp only; omega, k⟩
              · rcases h2 with h' | h'
                · cases h'; exact absurd c2.symm k
                · have := jr _ h'; simp only at this; omega
            · refine .inr ⟨e, ?_, h5, h6⟩
              rcases he with h | h
              · exact .inl h
              · exact .inr (List.mem_cons_of_mem _ h)
          · rintro (⟨_, h⟩ | ⟨e, he, h5, h6⟩)
            · exact .inl ⟨rfl, h⟩
            · rcases he with h | h
              · exact .inr ⟨e, .inl h, h5, h6⟩
              · rcases List.mem_cons.mp h with h | h
                · by_cases k : i = j
                  · exact .inl ⟨rfl, k⟩
                  · exact .inr ⟨(j, q), .inl rfl, by simp only; omega, by rw [h] at h6; simp only at h6 ⊢; omega⟩
                · exact .inr ⟨e, .inr h, h5, h6⟩
      · rw [if_neg c2]
        obtain ⟨i, r, tie', h1, h2, h3, h4⟩ := ih j q tie jr hs'
        have hq := h3 (j, q) (.inl rfl)
        simp only at hq
        refine ⟨i, r, tie', h1, ?_, ?_, ?_⟩
        · rcases h2 with h | h
          · exact .inl h
          · exact .inr (List.mem_cons_of_mem _ h)
        · intro e he
          rcases he with h | he
          · exact h3 e (.inl h)
          · rcases List.mem_cons.mp he with h | h
            · rw [h]; simp only; omega
            · exact h3 e (.inr h)
        · rw [h4]
          constructor
          · rintro (h | ⟨e, he, h5, h6⟩)
            · exact .inl h
            · refine .inr ⟨e, ?_, h5, h6⟩
              rcases he with h | h
              · exact .inl h
              · exact .inr (List.mem_cons_of_mem _ h)
          · rintro (h | ⟨e, he, h5, h6⟩)
            · exact .inl h
            · rcases he with h | h
              · exact .inr ⟨e, .inl h, h5, h6⟩
              · rcases List.mem_cons.mp h with h | h
                · exfalso; rw [h] at h6; simp only at h6; clear h4 h3 ih; omega
                · exact .inr ⟨e, .inr h, h5, h6⟩

theorem mem_kget {α : Type} {m : KMap α} {k : Nat} {v : α} (hs : ksorted m = true) (h : (k, v) ∈ m) : kget m k = some v := by
  induction m with
  | nil => simp at h
  | cons e r ih =>
    obtain ⟨j, w⟩ := e
    obtain ⟨ha, hs'⟩ := ksorted_cons.mp hs
    unfold kget
    rcases List.mem_cons.mp h with h | h
    · cases h; simp
    · have := ha _ h
      simp only at this
      rw [if_neg (by omega)]
      exact ih hs' h

/-- A source is the same for the word's issue. -/
theorem srcVal_issued {s u : State} (t : Trick) (r : Nat) (sp : List (Nat × Nat × Nat × Bool)) (w : Mw) (code : Nat)
    (h1 : u.clk = s.clk) (h2 : u.pkts = s.pkts) (h3 : u.time = s.time) :
    srcVal u { t with readyAt := r, spent := sp } w code = srcVal s t w code := by
  have e : flowSeen { t with readyAt := r, spent := sp } s.clk = { flowSeen t s.clk with readyAt := r, spent := sp } := by
    unfold flowSeen
    rcases h : t.flowDue with _ | f
    · simp only [h]
    · simp only [h]; split <;> simp only [h]
  unfold srcVal trickPkt getPkt now40 nowNs
  rw [h1, h2, h3, e]
  rfl

/-- What the ALU field does where its sources' values are known (R72). -/
theorem aluPart_sees {u : State} {d c : Nat} {t : Trick} {w : Mw} {va vb : W32} {r : AluOut} (ut : trickAt u d c = some t)
    (ha : srcVal u t w w.aA = some va) (hb : srcVal u t w w.aB = some vb)
    (hr : r = alu w.aOp (if 1 ≤ aluReads w.aOp then va else 0) (if 2 ≤ aluReads w.aOp then vb else 0) ⟨none, t.z, t.n, t.c, t.v, none⟩) :
    ∃ o, aluPart u d c w = (o, setTrick u d c { t with
        z := r.z, n := r.n, c := r.c, v := r.v, tf := (r.setf.elim t.tf fun x => BitVec.ofNat 8 (setBits t.tf.toNat x.1 x.1 (b2n x.2))),
        g := (r.res.elim t.g fun x => if w.aD < 6 then setNth t.g w.aD x else t.g) }) := by
  have sa : source u t w w.aA = (va, u) := by unfold source; rw [ha]
  have sb : source u t w w.aB = (vb, u) := by unfold source; rw [hb]
  have ea : (if 1 ≤ aluReads w.aOp then source u t w w.aA else (0, u)) = ((if 1 ≤ aluReads w.aOp then va else 0), u) := by
    split
    · exact sa
    · rfl
  have eb : (if 2 ≤ aluReads w.aOp then source u t w w.aB else (0, u)) = ((if 2 ≤ aluReads w.aOp then vb else 0), u) := by
    split
    · exact sb
    · rfl
  unfold aluPart
  rw [ut]
  dsimp only
  rw [ea]
  dsimp only
  rw [eb]
  dsimp only
  rw [← hr]
  cases hres : r.res with
  | none =>
    refine ⟨none, ?_⟩
    cases r.setf <;> rfl
  | some v =>
    refine ⟨if w.aD = 7 then none else some v, ?_⟩
    dsimp only
    by_cases h7 : w.aD = 7 <;> by_cases h6 : w.aD < 6 <;> simp only [h7, h6, if_true, if_false] <;> cases r.setf <;> simp [h6]

theorem runWord_alu {s : State} {d c : Nat} {t : Trick} {w : Mw} {va vb : W32} {r : AluOut} {a : Nat} (ht : trickAt s d c = some t) (hw : w = trickWord s d t)
    (m1 : t.ended = false) (m2 : t.wait = none)
    (k1 : w.kOp = 0) (k2 : w.exLen = 0) (k3 : w.exOff = 0) (k4 : w.mIss = false) (k5 : w.qSrc = 0) (k6 : w.fOp = 0) (k7 : w.eOp = 0) (k8 : w.target = 0)
    (k9 : w.vsrc = false) (k10 : w.imm = 0) (k11 : w.sample = false) (k12 : w.bumpK = 0) (k13 : w.launch = false) (k14 : w.recirc = false) (k15 : w.drop = false)
    (k16 : w.exc = false) (k17 : w.commit = false) (ha : srcVal s t w w.aA = some va) (hb : srcVal s t w w.aB = some vb)
    (hr : r = alu w.aOp (if 1 ≤ aluReads w.aOp then va else 0) (if 2 ≤ aluReads w.aOp then vb else 0) ⟨none, t.z, t.n, t.c, t.v, none⟩)
    (hav : a = (if w.cond = 63 ∨ (w.cond = 1 ∧ r.z = true) then w.alt else w.next)) (hcond : w.cond = 0 ∨ w.cond = 1 ∨ w.cond = 63) (hae : a ≠ endAddr) :
    (runWord s d c).tricks = kset s.tricks (trickKey d c) { t with
        z := r.z, n := r.n, c := r.c, v := r.v, tf := (r.setf.elim t.tf fun x => BitVec.ofNat 8 (setBits t.tf.toNat x.1 x.1 (b2n x.2))),
        g := (r.res.elim t.g fun x => if w.aD < 6 then setNth t.g w.aD x else t.g),
        readyAt := s.clk + w.cyc, spent := t.spent ++ [(t.addr, w.cls, w.cyc, w.bubble)], addr := a }
      ∧ (runWord s d c).clk = s.clk ∧ (runWord s d c).pkts = s.pkts := by
  -- one word
  obtain ⟨t1, ht1⟩ : ∃ t1 : Trick, t1 = { t with readyAt := s.clk + w.cyc, spent := t.spent ++ [(t.addr, w.cls, w.cyc, w.bubble)] } := ⟨_, rfl⟩
  obtain ⟨u, hu⟩ : ∃ u, u = perfBusy (takeSlot (setTrick s d c t1) d t w.cyc) d w.cyc := ⟨_, rfl⟩
  have ut : trickAt u d c = some t1 := by rw [hu]; exact trickAt_setTrick _ _ _ _
  obtain ⟨t2, ht2⟩ : ∃ t2 : Trick, t2 = { t1 with
        z := r.z, n := r.n, c := r.c, v := r.v, tf := (r.setf.elim t.tf fun x => BitVec.ofNat 8 (setBits t.tf.toNat x.1 x.1 (b2n x.2))),
        g := (r.res.elim t.g fun x => if w.aD < 6 then setNth t.g w.aD x else t.g) } := ⟨_, rfl⟩
  have sv : ∀ code, srcVal u t1 w code = srcVal s t w code := by
    intro code; rw [ht1]; exact srcVal_issued (s := s) t _ _ w code (hu ▸ rfl) (hu ▸ rfl) (hu ▸ rfl)
  have al : ∃ o, aluPart u d c w = (o, setTrick u d c t2) := by
    have h := aluPart_sees ut (by rw [sv, ha]) (by rw [sv, hb]) (r := r) (by rw [hr, ht1])
    rw [ht2]
    rw [ht1] at h ⊢
    exact h
  obtain ⟨o, al⟩ := al
  obtain ⟨x, hx⟩ : ∃ x, x = setTrick u d c t2 := ⟨_, rfl⟩
  rw [← hx] at al
  have xt : trickAt x d c = some t2 := by rw [hx]; exact trickAt_setTrick _ _ _ _
  have t2f : t2.ended = false ∧ t2.age = t.age ∧ t2.wait = none ∧ t2.attempt = t.attempt := by rw [ht2, ht1]; exact ⟨m1, rfl, m2, rfl⟩
  have uo : usesOut w = false := by unfold usesOut; rw [k6, k9]; decide
  have kp : keyPart x d c w = x := by unfold keyPart; rw [xt]; simp only [k1]
  have xp : extractPart x d c w = x := by
    unfold extractPart; rw [xt]; dsimp only; rw [if_pos k2, k3]; simp
  have mp : matchPart x d c w = x := by unfold matchPart; rw [k4]; rfl
  have shp : shufflePart x d c w = x := by
    unfold shufflePart; rw [xt]; dsimp only
    rw [if_neg (by unfold startsShuffle; rw [k5]; simp), k5, if_neg (by decide)]
  have fl : ∀ f m o, flowOp x d c 0 f m o = x := fun _ _ _ => rfl
  have av : alive x d c t = true := by unfold alive; rw [xt]; simp [t2f.1, t2f.2.1, t2f.2.2.2]
  have fr : ∀ b, flowReturns x d c w b = x := by
    intro b; unfold flowReturns; rw [show flowLat x b w.fOp = none from by unfold flowLat; rw [k6]; rfl]
  have wh : ∀ f, while_ x d c t f = f x := by intro f; unfold while_; rw [av, if_pos rfl]
  have ed : editPart x d c w = x := by unfold editPart; rw [if_pos k7]
  have me : ∀ o, metaPart x d c w o = x := by intro o; unfold metaPart; rw [k8, k9, k10]; simp
  have ch : choicePart x d c w = x := by unfold choicePart; rw [k5]; rfl
  have mi : miscPart x d c t w = x := by
    unfold miscPart; dsimp only; rw [k11, k12, k13, k14, k15, k16]
    simp only [bne_self_eq_false, Bool.false_and, Bool.false_eq_true, if_false]
  have nx : ∀ b : Trick, b = t2 → nextPart x d c w b = setTrick x d c { t2 with addr := a } := by
    intro b hb'
    unfold nextPart
    rw [xt]
    dsimp only
    rw [t2f.2.2.1]
    simp only [Option.isSome_none, Bool.false_eq_true, if_false]
    have cnd : (if condTrue x d (flowSeen t2 (x.clk + w.cyc)) w.cond = true then w.alt else w.next) = a := by
      rw [hav]
      have z2 : (flowSeen t2 (x.clk + w.cyc)).z = r.z := by
        have : (flowSeen t2 (x.clk + w.cyc)).z = t2.z := by
          unfold flowSeen
          split
          · split <;> rfl
          · rfl
        rw [this, ht2]
      rcases hcond with h | h | h <;> rw [h]
      · show (if false = true then w.alt else w.next) = _
        simp
      · show (if (flowSeen t2 (x.clk + w.cyc)).z = true then w.alt else w.next) = _
        rw [z2]; simp
      · show (if true = true then w.alt else w.next) = _
        simp
    rw [cnd, if_neg (by simp [hae])]
  have rwd : runWord s d c = setTrick x d c { t2 with addr := a } := by
    unfold runWord
    rw [ht]
    dsimp only
    rw [← hw, ← ht1, ← hu, al]
    dsimp only
    rcases o with _ | v
    · dsimp only
      rw [uo, if_neg (by decide)]
      dsimp only
      rw [kp, xp, mp, shp, xt]
      dsimp only
      rw [k6, fl, wh, fr, wh, ed, wh, me, wh, ch, wh, mi, wh, k17]
      simp only [Bool.false_eq_true, if_false]
      rw [wh, nx t2 rfl]
    · dsimp only
      rw [kp, xp, mp, shp, xt]
      dsimp only
      rw [k6, fl, wh, fr, wh, ed, wh, me, wh, ch, wh, mi, wh, k17]
      simp only [Bool.false_eq_true, if_false]
      rw [wh, nx t2 rfl]
  have ux : u.clk = s.clk ∧ u.pkts = s.pkts ∧ u.tricks = kset s.tricks (trickKey d c) t1 := by rw [hu]; exact ⟨rfl, rfl, rfl⟩
  have xx : x.clk = u.clk ∧ x.pkts = u.pkts ∧ x.tricks = kset u.tricks (trickKey d c) t2 := by rw [hx]; exact ⟨rfl, rfl, rfl⟩
  rw [rwd]
  refine ⟨?_, xx.1.trans ux.1, xx.2.1.trans ux.2.1⟩
  show kset x.tricks _ _ = _
  rw [xx.2.2, ux.2.2, kset_kset, kset_kset, ht2, ht1]

theorem fullRecord_congr {s u : State} (h1 : u.hbm = s.hbm) (h2 : u.lines = s.lines) (h3 : u.deck = s.deck) (h4 : u.cold = s.cold) (i : Nat) :
    fullRecord u i = fullRecord s i := by
  have f : ∀ a n, fgF u a n = fgF s a n := by intro a n; unfold fgF coldF coldBody; rw [h4]
  have so : slotsOf u = slotsOf s := by unfold slotsOf; rw [h3]
  have rw_ : recWords u = recWords s := by unfold recWords recBytes; rw [h3]
  have tw : tagW u = tagW s := by unfold tagW; rw [rw_]
  have bo : ∀ b, bucketOff u b = bucketOff s b := by intro b; unfold bucketOff; rw [f]
  have ro : ∀ i w, recWordOff u i w = recWordOff s i w := by
    intro i w; unfold recWordOff recOff tagBytes recBytes; rw [so, bo, h3]
  have ta : ∀ b j, tagAt u b j = tagAt s b j := by intro b j; unfold tagAt tagOff; rw [bo, h1]
  have hr : hbmRecord u i = hbmRecord s i := by
    unfold hbmRecord; rw [tw, ta, so]; simp only [ro, h1]
  have hw : hotWords u = hotWords s := by unfold hotWords; rw [h3]; simp only [f]
  have la : lineAt u i = lineAt s i := by unfold lineAt; rw [h2]
  have lo : ∀ n, lineOf u n = lineOf s n := by intro n; unfold lineOf; rw [h2]
  unfold fullRecord
  dsimp only
  rw [hr, la, hw]
  simp only [lo]

end Sys2Proof.Machine
end

