-- ==== Sys2Proof/Laws/Tasks.lean ====
section
/-!
SUPPORT. The task scheduler: a free handle, the entry of a task that the part posts, entries that other work keeps, the end of a task, and a
trick's start (10_task_scheduler_and_suits.md R224 to R237; 16_observability.md R371, R373).
-/
namespace Sys2Proof.Machine

open Sys2Proof

theorem kfree_some {α : Type} : ∀ (m : KMap α) (lo hi : Nat), ksorted m = true → kcount m lo hi < hi - lo → ∃ k, kfree m lo hi = some k ∧ lo ≤ k ∧ k < hi ∧ kget m k = none := by
  intro m
  induction m with
  | nil =>
    intro lo hi _ h
    have : lo < hi := by omega
    exact ⟨lo, by unfold kfree; rw [if_pos this], Nat.le_refl _, this, rfl⟩
  | cons e r ih =>
    obtain ⟨j, w⟩ := e
    intro lo hi hs h
    rw [ksorted_cons] at hs
    unfold kfree
    by_cases h1 : j < lo
    · rw [if_pos h1]
      have c : kcount ((j, w) :: r) lo hi = kcount r lo hi := by
        unfold kcount; rw [List.filter_cons, if_neg (by simp; omega)]
      obtain ⟨k, a, b, c', d⟩ := ih lo hi hs.2 (by omega)
      refine ⟨k, a, b, c', ?_⟩
      unfold kget; rw [if_neg (by omega)]; exact d
    · rw [if_neg h1]
      by_cases h2 : j = lo
      · rw [if_pos h2]
        have c : kcount r (lo + 1) hi + 1 ≤ kcount ((j, w) :: r) lo hi ∨ hi ≤ lo := by
          by_cases hl : lo < hi
          · left
            unfold kcount
            rw [List.filter_cons, if_pos (by simp; omega), List.length_cons]
            apply Nat.succ_le_succ
            apply Nat.le_of_eq
            congr 1
            apply List.filter_congr
            intro x hx
            have := hs.1 x hx
            by_cases q : lo + 1 ≤ x.1
            · have q' : lo ≤ x.1 := by omega
              simp [q, q']
            · have : x.1 > lo := by rw [← h2]; exact this
              omega
          · right; omega
        obtain ⟨k, a, b, c', d⟩ := ih (lo + 1) hi hs.2 (by omega)
        refine ⟨k, a, by omega, c', ?_⟩
        unfold kget; rw [if_neg (by omega)]; exact d
      · rw [if_neg h2]
        by_cases hl : lo < hi
        · rw [if_pos hl]
          refine ⟨lo, rfl, Nat.le_refl _, hl, ?_⟩
          unfold kget
          rw [if_neg h2]
          exact kget_of_above fun x hx => by have := hs.1 x hx; omega
        · omega

/-- The entry of a task that is posted with nothing to wait for: it is READY unless it is delayed (R228, R231). -/
theorem postAt_entry {s : State} (h : Nat) (b : TaskBody) (kd : TaskKind) (hs : ksorted s.tasks = true) :
    ∃ k, kget (postAt s h 0 b kd).tasks h = some k ∧ k.body = b ∧ k.kind = kd ∧ k.delayed = decide (0 < b.delay)
      ∧ (b.delay = 0 → k.state = .ready) ∧ k.level = b.level % 8 ∧ ksorted (postAt s h 0 b kd).tasks = true
      ∧ ∀ e ∈ (postAt s h 0 b kd).tasks, e.1 = h ∨ e ∈ s.tasks := by
  obtain ⟨x, hx⟩ : ∃ x : Task, x = { state := .waiting, count := 0, level := b.level % 8, list := b.list % 16, urgent := b.urgent, hand := 0, stock := 0, expiry := (listNow s (b.list % 16) + b.delay + 1) % 2 ^ 21, delayed := decide (0 < b.delay), order := s.order, readyClk := 0, via := 17, body := b, kind := kd } := ⟨_, rfl⟩
  obtain ⟨w, hw⟩ : ∃ w, w = bump (hbmWrite { s with tasks := kset s.tasks h x, order := s.order + 1 } 114 (bodyArea + 32 * h) (bodyBytes b)) aPosted := ⟨_, rfl⟩
  have pa : postAt s h 0 b kd = settle w h 17 := by
    unfold postAt; rw [hw, hx]
  have wt : w.tasks = kset s.tasks h x := by
    rw [hw]
    show (hbmWrite _ _ _ _).tasks = _
    rw [hbmWrite_only]
  have so : ∀ y : Task, ksorted (kset w.tasks h y) = true ∧ ∀ e ∈ kset w.tasks h y, e.1 = h ∨ e ∈ s.tasks := fun y => by
    rw [wt]
    refine ⟨ksorted_kset _ _ (ksorted_kset _ _ hs), fun e he => ?_⟩
    rcases mem_kset he with rfl | he
    · exact .inl rfl
    · rcases mem_kset he with rfl | he
      · exact .inl rfl
      · exact .inr he
  have xf : x.body = b ∧ x.kind = kd ∧ x.delayed = decide (0 < b.delay) ∧ x.count = 0 ∧ x.level = b.level % 8 := by rw [hx]; exact ⟨rfl, rfl, rfl, rfl, rfl⟩
  rw [pa]
  unfold settle
  rw [show kget w.tasks h = some x by rw [wt, kget_kset_same]]
  dsimp only
  rw [xf.2.2.2.1]
  split
  · next d => exact ⟨_, kget_kset_same _ _ _, xf.1, xf.2.1, xf.2.2.1, fun c => by rw [xf.2.2.1, c] at d; simp at d, xf.2.2.2.2, so _⟩
  · rw [if_neg (by omega)]
    unfold raiseHigh
    split <;> exact ⟨_, kget_kset_same _ _ _, xf.1, xf.2.1, xf.2.2.1, fun _ => rfl, xf.2.2.2.2, so _⟩

/-- A task that the part posts takes a handle that was free (R228, R231). -/
theorem partPost_entry {s : State} (b : TaskBody) (kd : TaskKind) (hs : ksorted s.tasks = true) (hr : kcount s.tasks 0 poolHandles < poolHandles) :
    ∃ h u k, partPost s b kd = some (h, u) ∧ SameButObs s u ∧ kget s.tasks h = none ∧ kget u.tasks h = some k ∧ k.body = b ∧ k.kind = kd
      ∧ k.delayed = decide (0 < b.delay) ∧ (b.delay = 0 → k.state = .ready) ∧ k.level = b.level % 8 ∧ ksorted u.tasks = true
      ∧ ∀ e ∈ u.tasks, e.1 = h ∨ e ∈ s.tasks := by
  obtain ⟨h, hc, -, -, hn⟩ := chooseFree_some s (m := s.tasks) (lo := 0) (hi := poolHandles) hs (by omega)
  have pp : partPost s b kd = some (h, postAt { s with fresh := s.fresh + 1 } h 0 b kd) := by
    unfold partPost; rw [hc]; rfl
  obtain ⟨k, e⟩ := postAt_entry (s := { s with fresh := s.fresh + 1 }) h b kd hs
  exact ⟨h, _, k, pp, SameButObs.partPost pp, hn, e⟩

/-- A post dispatches nothing. -/
theorem partPost_lastDisp {s u : State} {b : TaskBody} {kd : TaskKind} {h : Nat} (e : partPost s b kd = some (h, u)) : u.lastDisp = s.lastDisp := by
  unfold partPost chooseFree at e
  dsimp only at e
  split at e
  · simp at e
  · rw [Option.map_map, Option.map_eq_some_iff] at e
    obtain ⟨j, -, e⟩ := e
    simp only [Function.comp_apply, Prod.mk.injEq] at e
    rw [← e.2]
    unfold postAt settle Machine.raiseHigh
    dsimp only
    rw [hbmWrite_only]
    repeat' split
    all_goals rfl

/-- A live task entry that others leave alone. -/
def TaskKept (h : Nat) (k : Task) (s : State) : Prop := ksorted s.tasks = true ∧ kget s.tasks h = some k

theorem hbmWrite_kept {s : State} {h : Nat} {k : Task} (hk : TaskKept h k s) (source o : Nat) (bs : List Byte) :
    TaskKept h k (hbmWrite s source o bs) := by
  rw [hbmWrite_only]
  exact hk

theorem settle_kept {s : State} {j h via : Nat} {k : Task} (n : h ≠ j) (hk : TaskKept h k s) : TaskKept h k (settle s j via) := by
  obtain ⟨h1, h2⟩ := hk
  unfold settle
  have st : ∀ (x : Task), TaskKept h k { s with tasks := kset s.tasks j x } := fun x =>
    ⟨ksorted_kset _ _ h1, (kget_kset_ne _ _ n).trans h2⟩
  split
  · exact ⟨h1, h2⟩
  · split
    · exact st _
    · split
      · exact st _
      · dsimp only
        unfold raiseHigh
        split <;> exact st _

theorem partPost_kept {s t : State} {b : TaskBody} {kd : TaskKind} {j h : Nat} {k : Task} (hk : TaskKept h k s)
    (e : partPost s b kd = some (j, t)) : TaskKept h k t := by
  obtain ⟨h1, h2⟩ := hk
  have room : kcount s.tasks 0 poolHandles < poolHandles - 0 := by
    apply Decidable.byContradiction
    intro n
    unfold partPost chooseFree at e
    dsimp only at e
    rw [if_pos (by omega)] at e
    simp at e
  obtain ⟨j', hc, -, -, hn⟩ := chooseFree_some s h1 room
  unfold partPost at e
  rw [hc] at e
  simp only [Option.map_some, Option.some.injEq, Prod.mk.injEq] at e
  have ne : h ≠ j' := by intro q; rw [q, hn] at h2; simp at h2
  rw [← e.2]
  unfold postAt
  dsimp only
  apply settle_kept ne
  exact hbmWrite_kept ⟨ksorted_kset _ _ h1, (kget_kset_ne _ _ ne).trans h2⟩ _ _ _

theorem ringThreshold_kept {s : State} {h : Nat} {k : Task} (hk : TaskKept h k s) (r : Nat) : TaskKept h k (ringThreshold s r) := by
  unfold ringThreshold holdPost
  dsimp only
  repeat' split
  all_goals first
    | exact hk
    | (next p e => exact partPost_kept (t := p.2) hk e)

theorem ringFree_kept {s t : State} {r n h : Nat} {k : Task} (e : ringFree s r n = some t) (hk : TaskKept h k s) : TaskKept h k t := by
  unfold ringFree at e
  dsimp only at e
  rw [Option.map_eq_some_iff] at e
  obtain ⟨_, -, rfl⟩ := e
  exact hk

theorem ringStore_kept {s : State} {h : Nat} {k : Task} (hk : TaskKept h k s) (r size tail : Nat) (item : List Byte) :
    TaskKept h k (ringStore s r size tail item) :=
  hbmWrite_kept (hbmWrite_kept hk _ _ _) _ _ _

theorem ringPut_kept {s : State} {h : Nat} {k : Task} (hk : TaskKept h k s) (r : Nat) (item : List Byte) (p : Bool) :
    TaskKept h k (ringPut s r item p) := by
  unfold ringPut
  split
  · exact hk
  · next t e =>
    have q := ringStore_kept (ringFree_kept e hk) r (2 ^ (ringCfg t r).log2) (ringOf t r).tail item
    apply ringThreshold_kept
    exact q

theorem ringWrite_kept {s : State} {h : Nat} {k : Task} (hk : TaskKept h k s) (r : Nat) (item : List Byte) (p : Bool) :
    TaskKept h k (ringWrite s r item p) := by
  unfold ringWrite
  split
  · unfold addSlot
    rcases e : ringFree s r item.length with _ | t
    · exact hk
    · have q := ringFree_kept e hk
      exact q
  · exact ringPut_kept hk r item p

theorem traceTask_kept {s : State} {h : Nat} {k : Task} (hk : TaskKept h k s) (ev : Nat) (race : Bool) (j : Nat)
    (b : Option TaskBody) (d c : Nat) : TaskKept h k (traceTask s ev race j b d c) := by
  unfold traceTask
  dsimp only
  cases b <;> dsimp only <;> split
  all_goals first
    | exact hk
    | exact ringWrite_kept hk _ _ _

theorem perfCount_kept {s : State} {h : Nat} {k : Task} (hk : TaskKept h k s) (m j d ev n : Nat) (x : PerfAt) : TaskKept h k (perfCount s m j d ev n x) := by
  unfold perfCount
  dsimp only
  repeat' split
  all_goals first
    | exact hk
    | exact ringWrite_kept (s := { bumpBy s _ _ with perfCnt := _ }) hk _ _ _

theorem perfEvent_kept {s : State} {h : Nat} {k : Task} (hk : TaskKept h k s) (d ev n : Nat) (x : PerfAt) : TaskKept h k (perfEvent s d ev n x) := by
  unfold perfEvent
  split
  · exact hk
  · have : ∀ (l : List (Nat × Nat)) (u : State), TaskKept h k u → TaskKept h k (l.foldl (fun s m =>
        let c := regRaw s (aPerfCfg m.1 m.2) 0
        if bits c 4 0 == ev && (m.1 == d || (m.1 < d && d ≤ bits c 22 14)) && perfPass s m.1 m.2 x then
          perfCount s m.1 m.2 d ev n x
        else s) u) := by
      intro l
      induction l with
      | nil => intro u hu; exact hu
      | cons a r ih =>
        intro u hu
        apply ih
        dsimp only
        split
        · exact perfCount_kept hu _ _ _ _ _ _
        · exact hu
    exact this _ _ hk

theorem startTrick_kept {s : State} {h d c o : Nat} {k : Task} {b : Trick} (hk : TaskKept h k s) (hr : routineOff s b.slot (stageOf d) b.routine = some o) :
    TaskKept h k (startTrick s d c b) := by
  unfold startTrick
  dsimp only
  have : routineOff { s with order := s.order + 1 } b.slot (stageOf d) b.routine = some o := hr
  rw [this]
  exact perfEvent_kept (s := setTrick { s with order := s.order + 1 } d c _) hk _ _ _ _

theorem startTrick_starts {s : State} {d c o : Nat} {b : Trick} (h : routineOff s b.slot (stageOf d) b.routine = some o) :
    ∃ x, SameButObs { s with tricks := kset s.tricks (trickKey d c) x } (startTrick s d c b) ∧ x.pkt = b.pkt ∧ x.slot = b.slot
      ∧ x.routine = b.routine ∧ x.ended = false ∧ x.task = b.task ∧ x.wait = none ∧ x.rank = b.rank := by
  unfold startTrick
  dsimp only
  have : routineOff { s with order := s.order + 1 } b.slot (stageOf d) b.routine = some o := h
  rw [this]
  dsimp only
  exact ⟨_, SameButObs.trans (t := setTrick { s with order := s.order + 1 } d c _) rfl (SameButObs.perfEvent _ _ _ _ _), rfl, rfl, rfl, rfl, rfl, rfl, rfl⟩

theorem startTrick_entry {s : State} {d c o : Nat} {b : Trick} (h : routineOff s b.slot (stageOf d) b.routine = some o) :
    ∃ x, SameButObs { s with tricks := kset s.tricks (trickKey d c) x } (startTrick s d c b) ∧ x.pkt = b.pkt ∧ x.slot = b.slot ∧ x.routine = b.routine
      ∧ x.restarts = b.restarts ∧ x.suit = b.suit ∧ x.reentry = b.reentry ∧ x.ended = false ∧ x.task = b.task ∧ x.wait = none ∧ x.rank = b.rank := by
  unfold startTrick
  dsimp only
  have : routineOff { s with order := s.order + 1 } b.slot (stageOf d) b.routine = some o := h
  rw [this]
  dsimp only
  exact ⟨_, SameButObs.trans (t := setTrick { s with order := s.order + 1 } d c _) rfl (SameButObs.perfEvent _ _ _ _ _), rfl, rfl, rfl, rfl, rfl, rfl, rfl, rfl, rfl, rfl⟩

theorem releaseTask_none {s : State} {h : Nat} (hn : ∀ e ∈ s.suits, e.2.holder ≠ some (.task h)) : releaseTask s h = s := by
  unfold releaseTask
  have : s.suits.filter (fun e => e.2.holder == some (.task h)) = [] := by
    rw [List.filter_eq_nil_iff]
    intro e he
    simpa using hn e he
  rw [this]
  rfl

theorem SameButObs.endTask_plain {s : State} {h : Nat} {k : Task} (hk : kget s.tasks h = some k) (hs : k.body.succ = none) :
    SameButObs s (endTask s h) := by
  unfold Sys2Proof.Machine.endTask
  rw [hk]
  dsimp only
  rw [hs]
  rfl

theorem SameButObs.decCount (s : State) (h : Nat) : SameButObs s (decCount s h) := by
  unfold Sys2Proof.Machine.decCount
  split
  · exact SameButObs.bump _ _
  · split
    · exact SameButObs.bump _ _
    · dsimp only
      split
      · exact SameButObs.trans (t := { s with tasks := _ }) rfl (SameButObs.settle _ _ _)
      · rfl

theorem SameButObs.endTask (s : State) (h : Nat) : SameButObs s (endTask s h) := by
  unfold Sys2Proof.Machine.endTask
  split
  · rfl
  · dsimp only
    split
    · exact SameButObs.trans (t := { s with tasks := _ }) rfl (SameButObs.decCount _ _)
    · rfl

/-- A host task that holds at most one suit for which nobody waits lets go of it. -/
theorem releaseTask_one {s : State} {h m : Nat} (hm : ∀ e ∈ s.suits, e.2.holder = some (.task h) → e.1 = m) (hc : (suitAt s m).chain = [])
    (hw : (suitAt s m).waiters = []) (hl : 2 ^ 27 ≤ m → (lineOf s (m - 2 ^ 27)).lstate ≠ .absent) :
    ∃ S, releaseTask s h = { s with suits := S } := by
  unfold releaseTask
  have : ∀ (l : List (Nat × Suit)), (∀ e ∈ l, e.1 = m) → ∀ u : State, (∃ S, u = { s with suits := S }) → (suitAt u m).chain = [] → (suitAt u m).waiters = [] →
      ∃ S, l.foldl (fun s e => releaseSuit s e.1) u = { s with suits := S } := by
    intro l
    induction l with
    | nil => intro _ u hu _ _; exact hu
    | cons a r ih =>
      intro h1 u hu h3 h4
      obtain ⟨S, rfl⟩ := hu
      have ea := h1 a (by simp)
      have one : releaseSuit { s with suits := S } a.1 = { s with suits := kdel S m } := by
        unfold releaseSuit
        rw [ea]
        dsimp only
        rw [h3, h4]
        dsimp only
        rw [if_neg]
        intro q
        simp only [Bool.and_eq_true, decide_eq_true_eq, beq_iff_eq] at q
        exact hl q.1 q.2
      rw [List.foldl_cons, one]
      refine ih (fun e he => h1 e (by simp [he])) _ ⟨_, rfl⟩ ?_ ?_
      · unfold suitAt; show (kgetD (kdel S m) m _).chain = []; unfold kgetD; rw [kget_kdel_same]; rfl
      · unfold suitAt; show (kgetD (kdel S m) m _).waiters = []; unfold kgetD; rw [kget_kdel_same]; rfl
  refine this _ ?_ s ⟨s.suits, rfl⟩ hc hw
  intro e he
  rw [List.mem_filter] at he
  exact hm e he.1 (by simpa using he.2)

/-- A task that the part runs at once touches only what watches it (R373). -/
theorem partRuns_same {s : State} (b : TaskBody) (hs : ksorted s.tasks = true) (hr : kcount s.tasks 0 poolHandles < poolHandles) :
    ∃ v, partRuns s b = some v ∧ SameButObs s v := by
  obtain ⟨h, u, k, pp, so, -⟩ := partPost_entry b .micro hs hr
  have h1 : ∀ d c, SameButObs s (traceTask (endTask (traceTask (bump u aDispatched) 1 false h (some b) d c) h) 2 false h (some b) d c) := fun d c =>
    (((so.trans (SameButObs.bump _ _)).trans (SameButObs.traceTask _ _ _ _ _ _ _)).trans (SameButObs.endTask _ _)).trans (SameButObs.traceTask _ _ _ _ _ _ _)
  unfold partRuns
  rw [pp]
  exact ⟨_, rfl, h1 _ _⟩

theorem captured_fold (gs : List Nat) (s : State) : gs.foldl captured_ s = { s with snapSeq := gs.foldl (fun m g => kset m g ((kgetD m g 0 + 1) % 2 ^ 32)) s.snapSeq } := by
  induction gs generalizing s with
  | nil => rfl
  | cons g gs ih => rw [List.foldl_cons, ih]; rfl

/-- A dump that is not skipped: its images go to the window, its groups count, and its engine has the next number (R373). -/
theorem dumpWrite_same (s : State) (e o : Nat) : SameButWin
    { s with snapSeq := (dumpGroups s o).foldl (fun m g => kset m g ((kgetD m g 0 + 1) % 2 ^ 32)) s.snapSeq,
             dumps := kset s.dumps e ⟨(dumpOf s e).seq + 1, (dumpOf s e).seq % coldF s tyObs (o + 1) 1, true, false⟩ }
    (dumpWrite s e o) := by
  have a : SameButWin s (if (dumpOf s e).headers = true then s
      else (List.range (coldF s tyObs (o + 1) 1)).foldl (fun u j => hbmWrite u (104 + e) (dumpRegion s + coldF s tyObs (o + 8) 4 * 4096 + j * dumpSlotBytes s (dumpGroups s o)) (dumpHeader u 0 e false false (dumpGroups s o).length (dumpBytes s (dumpGroups s o)))) s) := by
    split
    · exact .refl s
    · exact .foldl (fun u j => .hbmWrite u _ _ _) _ _
  unfold dumpWrite
  dsimp only
  generalize (if (dumpOf s e).headers = true then s else _) = v at a ⊢
  rw [captured_fold, Nat.add_sub_cancel]
  have b : SameButWin { s with snapSeq := (dumpGroups s o).foldl (fun m g => kset m g ((kgetD m g 0 + 1) % 2 ^ 32)) s.snapSeq }
      { v with snapSeq := (dumpGroups s o).foldl (fun m g => kset m g ((kgetD m g 0 + 1) % 2 ^ 32)) v.snapSeq } := by
    unfold SameButWin at a ⊢
    rw [a]
  have fin : ∀ (q : KMap Nat) (w : State), SameButWin { s with snapSeq := q } w →
      SameButWin { s with snapSeq := q, dumps := kset s.dumps e ⟨(dumpOf s e).seq + 1, (dumpOf s e).seq % coldF s tyObs (o + 1) 1, true, false⟩ }
        { w with dumps := kset w.dumps e ⟨(dumpOf s e).seq + 1, (dumpOf s e).seq % coldF s tyObs (o + 1) 1, true, false⟩ } := by
    intro q w h
    unfold SameButWin at h ⊢
    rw [h]
  exact fin _ _ (((b.trans (.hbmWrite _ _ _ _)).trans (.hbmWrite _ _ _ _)).trans (.hbmWrite _ _ _ _))

theorem SameButHbm.recordReads (s : State) (source : Nat) (is : List Nat) : SameButHbm s (recordReads s source is) :=
  .foldl (fun s i => .hbmRead s source _ _) _ _

theorem SameButHbm.tagReads (s : State) (source : Nat) (key : List Byte) : SameButHbm s (tagReads s source key) := by
  unfold Sys2Proof.Machine.tagReads
  generalize hu : Sys2Proof.Machine.readPiece s source _ _ = u
  have h : SameButHbm s u := hu ▸ SameButHbm.readPiece s source _ _
  exact h.trans (.readPiece u source _ _)

theorem SameButWin.compareSet (s : State) (source a want : Nat) (rs : List (Nat × List Byte)) : SameButWin s (compareSet s source a want rs).2 := by
  have h1 : SameButWin s (Machine.writeRuns s source rs) := .writeRuns s source rs
  have h2 : SameButWin s (Machine.readPiece s source a 4) := SameButHbm.win (.readPiece s source a 4)
  unfold Machine.compareSet
  split
  · dsimp only; exact h1
  · dsimp only; exact h2

theorem SameButWin.writeRecord (s : State) (i : Nat) (ws : List W32) (tag : Nat) : SameButWin s (writeRecord s i ws tag) :=
  .compareSet _ _ _ _ _

theorem SameButHbm.tagsRead (s : State) (n : Nat) (poison : Bool) : SameButHbm s (tagsRead s n poison) := by
  unfold Sys2Proof.Machine.tagsRead
  dsimp only
  refine SameButHbm.trans ?_ (.hbmc _ _)
  split
  · split
    · exact (SameButHbm.poisonSector _ _).trans (.hbmUncorr _ _ _)
    · exact .refl s
  · exact .refl s

theorem wakeFetch_frame (s : State) (n m : Nat) : (wakeFetch s n m).lines = s.lines ∧ (wakeFetch s n m).hbm = s.hbm := by
  have dc : ∀ (u : State) h, (decCount u h).lines = u.lines ∧ (decCount u h).hbm = u.hbm := by
    intro u h
    unfold decCount
    split
    · exact ⟨rfl, rfl⟩
    · split
      · exact ⟨rfl, rfl⟩
      · dsimp only
        split
        · unfold settle
          repeat' split
          all_goals first
            | exact ⟨rfl, rfl⟩
            | (dsimp only; unfold raiseHigh; split <;> exact ⟨rfl, rfl⟩)
        · exact ⟨rfl, rfl⟩
  unfold wakeFetch
  dsimp only
  repeat' split
  all_goals first
    | exact dc _ _
    | exact ⟨rfl, rfl⟩

end Sys2Proof.Machine
end

