-- ==== Sys2Proof/Laws/Host.lean ====
section
/-!
SUPPORT. Host TABLE and FLOW transactions: the task that runs at once in a service context, and the record that a host FLOW INSERT places
(15_zatas_control_protocol.md R350, R351; 08_flow_records.md R184, R195).
-/
namespace Sys2Proof.Machine

open Sys2Proof

theorem dispatchesNow_host {s p : State} {h : Nat} {k : Task} (hq : hostRuns s) (sp : SameButObs s p) (hl : p.lastDisp = s.lastDisp)
    (sorted : ksorted p.tasks = true) (hk : kget p.tasks h = some k) (hr : k.state = .ready) (hb : k.body.delay = 0) (hkd : isReentry k = false)
    (hlev : k.level < 8) (hx : ∀ e ∈ p.tasks, e.1 = h ∨ e ∈ s.tasks) : dispatchesNow p h = true := by
  obtain ⟨-, -, -, q4, qh, q5, q6, -⟩ := hq
  have sf : p.tricks = s.tricks ∧ p.suits = s.suits ∧ p.clk = s.clk := by
    unfold SameButObs at sp; rw [sp]; exact ⟨rfl, rfl, rfl⟩
  have ph : held p = false := by unfold SameButObs at sp; rw [sp]; exact qh
  have tk : ∀ d, tricksOf p d = tricksOf s d := fun d => by unfold tricksOf; rw [sf.1]
  have td : takeDealer p = takeDealer s := by unfold takeDealer inTake; simp only [tk]
  have live : p.tasks.filter (fun e => !isReentry e.2 && (e.2.state == .ready || suitGranted p e)) = [(h, k)] := by
    refine kfilter_one sorted hk (by simp [hkd, hr]) fun e he ne => ?_
    rcases hx e he with c | c
    · exact absurd c ne
    · have sg : suitGranted p e = suitGranted s e := by unfold suitGranted suitAt; rw [sf.2.1]
      rcases q6 e c with c | ⟨c1, c2⟩
      · simp [c]
      · simp [sg, c1, c2]
  have nt : nextTask p = some (h, k) := by
    unfold nextTask
    dsimp only
    rw [live]
    have ud : urgentDue (h, k) = false := by unfold urgentDue; simp [hb]
    rw [List.filter_cons, ud, if_neg (by simp)]
    show (List.range 8).findSome? (fun l => match oldestTask (([(h, k)].filter fun e => e.2.level == l).filter fun e => e.2.state == .suitWait) with
      | some x => some x | none => oldestTask ([(h, k)].filter fun e => e.2.level == l)) = _
    have f : ∀ l, ([(h, k)].filter fun e : Nat × Task => e.2.level == l) = if k.level = l then [(h, k)] else [] := fun l => by
      by_cases c : k.level = l <;> simp [c]
    have g : ([(h, k)].filter fun e : Nat × Task => e.2.state == .suitWait) = [] := by simp [hr]
    have all : ∀ n, k.level ∈ List.range n → (List.range n).findSome? (fun l => match oldestTask (([(h, k)].filter fun e : Nat × Task => e.2.level == l).filter fun e => e.2.state == .suitWait) with
      | some x => some x | none => oldestTask ([(h, k)].filter fun e => e.2.level == l)) = some (h, k) := by
      intro n hn
      obtain ⟨y, hy⟩ : ∃ y, (List.range n).findSome? (fun l => match oldestTask (([(h, k)].filter fun e : Nat × Task => e.2.level == l).filter fun e => e.2.state == .suitWait) with
        | some x => some x | none => oldestTask ([(h, k)].filter fun e => e.2.level == l)) = some y := by
        rw [← Option.isSome_iff_exists, List.findSome?_isSome_iff]
        refine ⟨k.level, hn, ?_⟩
        rw [f, if_pos rfl, g]
        rfl
      rw [hy]
      obtain ⟨l, -, e⟩ := List.exists_of_findSome?_eq_some hy
      rw [f] at e
      split at e
      · rename_i x e2
        split at e2
        · rw [g] at e2; simp [oldestTask] at e2
        · simp [oldestTask] at e2
      · split at e
        · simpa [oldestTask] using e.symm
        · simp [oldestTask] at e
    exact all 8 (List.mem_range.2 hlev)
  unfold dispatchesNow
  rw [nt, td, hl, sf.2.2, ph]
  have : 0 < inTake p (takeDealer s) := by unfold inTake; rw [tk]; omega
  simp [this, q5]

/-- A host transaction whose task is dispatched at once: its fixed sequence runs in a free context of the dealer with the most room (R230, R234, R350). -/
theorem postHost_now {s : State} {t : Txn} {d : Nat} (hq : hostRuns s) (hd : d = takeDealer s) :
    ∃ h p c v, partPost s (hostBody s) (.host s.zat.nextWait) = some (h, p)
      ∧ v = traceTask (bump { p with lastDisp := some p.clk } aDispatched) 1 false h (some (hostBody s)) d c
      ∧ SameButObs s v ∧ (∀ e ∈ s.suits, e.2.holder ≠ some (.task h)) ∧ (∃ k, kget v.tasks h = some k ∧ k.body = hostBody s)
      ∧ (∀ st data x, hostRun v (d - 192) c h s.zat.nextWait t = .done st data x →
          postHost s t = .done st t.addr data (traceTask (endTask (releaseTask x h) h) 2 false h (some (hostBody s)) d c))
      ∧ (∀ x, hostRun v (d - 192) c h s.zat.nextWait t = .move x → x.moves.any (fun m => m.wait == s.zat.nextWait) = true →
          ∃ k, k.body = hostBody s ∧ postHost s t = .waits .matchMove (hostStays x d c h k .unit)) := by
  obtain ⟨hs, hr, hst, hroom, -, -, -, hheld⟩ := id hq
  obtain ⟨h, p, k, pp, sp, hn, hk, kb, kk, -, kr, kl, sorted, hx⟩ := partPost_entry (hostBody s) (.host s.zat.nextWait) hs hr
  have sf := sp.fields
  have dp : takeDealer p = d := by
    rw [hd]; unfold takeDealer inTake tricksOf; rw [sf.1]
  have tp : tricksOf p d = tricksOf s d := by unfold tricksOf; rw [sf.1]
  rw [← hd] at hroom
  obtain ⟨cc, hc, -, -, -⟩ := kfree_some p.tricks (256 * d) (256 * d + 256) (by rw [sf.1]; exact hst) (by
    rw [kcount_room, tp, Nat.add_sub_cancel_left]; exact hroom)
  have kv : kget (traceTask (bump { p with lastDisp := some p.clk } aDispatched) 1 false h (some (hostBody s)) d (cc % 256)).tasks h = some k :=
    (traceTask_kept (s := bump { p with lastDisp := some p.clk } aDispatched) ⟨sorted, hk⟩ _ _ _ _ _ _).2
  have now : dispatchesNow p h = true := dispatchesNow_host hq sp (partPost_lastDisp pp) sorted hk (kr rfl) (by rw [kb]; rfl)
    (by unfold isReentry; rw [kk]) (by rw [kl]; omega) hx
  have body : ∀ y, y = hostTry p d (cc % 256) h s.zat.nextWait t → postHost s t = (match y.1 with
      | some (st, data) => .done st t.addr data y.2
      | none => .waits (if y.2.moves.any (·.wait == s.zat.nextWait) then .matchMove else .hostTask) y.2) := by
    intro y hy
    unfold postHost
    dsimp only
    rw [pp]
    dsimp only
    rw [dp, now, if_pos rfl, hc]
    dsimp only
    rw [← hy]
    all_goals rfl
  have tr : hostTry p d (cc % 256) h s.zat.nextWait t
      = hostGo (traceTask (bump { p with lastDisp := some p.clk } aDispatched) 1 false h (some (hostBody s)) d (cc % 256)) d (cc % 256) h s.zat.nextWait k t := by
    unfold hostTry
    rw [hk]
    dsimp only
    rw [kb]
  refine ⟨h, p, cc % 256, _, pp, rfl, ?_, ?_, ⟨k, kv, kb⟩, ?_, ?_⟩
  · exact (sp.trans (SameButObs.trans (t := { p with lastDisp := some p.clk }) rfl (SameButObs.bump _ _))).trans (SameButObs.traceTask _ _ _ _ _ _ _)
  · intro e he q
    have := hheld e he h q
    unfold khas at this
    rw [hn] at this
    simp at this
  · intro st data x hx
    rw [body _ rfl, tr]
    unfold hostGo
    rw [hx]
    dsimp only
    rw [kb]
  · intro x hx hm
    refine ⟨k, kb, ?_⟩
    rw [body _ rfl, tr]
    unfold hostGo
    rw [hx]
    dsimp only
    rw [if_pos]
    exact hm

/-- The response of a host FLOW transaction whose sequence runs to its end (R351). -/
theorem flow_now {s : State} {n : Nat} {t : Txn} {st : Nat} (P : List Byte → Prop) (Q : KMap Line → Prop) (hr : ready s n 2) (hd : hasDeck s = true) (hf : s.rst.foldFlow = .open_)
    (hq : hostRuns s) (hop : t.op = 0x13) (htag : t.tag = 0) (hsub : t.addr % 16 ≤ 6) (hwf : flowWf s (t.addr % 16) t = true)
    (run : ∀ (v p : State) (src h c : Nat), partPost s (hostBody s) (.host s.zat.nextWait) = some (h, p) → v = traceTask (bump { p with lastDisp := some p.clk } aDispatched) 1 false h (some (hostBody s)) (takeDealer s) c → SameButObs s v → (∀ e ∈ s.suits, e.2.holder ≠ some (.task h)) → ∃ x m out, flowRun v src c h t = .done st out x ∧ P out ∧ Q x.lines ∧ x.zat = s.zat ∧ x.sent = s.sent
      ∧ (∀ e ∈ x.suits, e.2.holder = some (.task h) → e.1 = m) ∧ (suitAt x m).chain = [] ∧ (suitAt x m).waiters = [] ∧ (2 ^ 27 ≤ m → (lineOf x (m - 2 ^ 27)).lstate ≠ .absent)) :
    ∃ out, P out ∧ Q (direct s n t opFlow).lines ∧ (direct s n t opFlow).sent = s.sent ++ [.response n ⟨0x13, 0, st, t.addr, out⟩] := by
  obtain ⟨r1, r2, r3⟩ := hr
  obtain ⟨h, p, c, v, pp, hv, sv, hh, ⟨k, hk, kb⟩, hdone, -⟩ := postHost_now (t := t) hq rfl
  obtain ⟨x, m, out, h1, hP, h2, h3, h4, h5, h6, h7, h8⟩ := run v p (takeDealer s - 192) h c pp hv sv hh
  have op : opFlow s n t = postHost s t := by
    unfold opFlow gate
    dsimp only
    rw [if_neg (by split <;> omega), if_pos (by simpa using hsub), hd, if_neg (by simp), hwf, if_neg (by simp), hf]
    rfl
  have hrun : hostRun v (takeDealer s - 192) c h s.zat.nextWait t = .done st out x := by
    unfold hostRun
    rw [hop, if_neg (by decide)]
    exact h1
  have d := hdone _ _ _ hrun
  obtain ⟨e, he⟩ : ∃ e, e = traceTask (endTask (releaseTask x h) h) 2 false h (some (hostBody s)) (takeDealer s) c := ⟨_, rfl⟩
  rw [← he] at d
  obtain ⟨S, hS⟩ := releaseTask_one h5 h6 h7 h8
  have se : SameButObs { x with suits := S } e := by
    rw [he, hS]
    exact (SameButObs.endTask _ _).trans (SameButObs.traceTask _ _ _ _ _ _ _)
  have ef : e.lines = x.lines ∧ e.zat = s.zat ∧ e.sent = s.sent := by
    unfold SameButObs at se; rw [se]; exact ⟨rfl, h3, h4⟩
  have io : isOpen e n = true := by rw [← r2]; unfold isOpen sessOf; rw [ef.2.1]
  have dr : direct s n t opFlow = { e with sent := e.sent ++ [.response n (txnRes t st t.addr out)] } := by
    unfold direct
    rw [r2, if_pos rfl, op, d]
    dsimp only
    rw [io, if_pos rfl]
  rw [dr]
  refine ⟨out, hP, ?_, ?_⟩
  · show Q e.lines
    rw [ef.1]; exact h2
  · show e.sent ++ _ = _
    rw [ef.2.2]
    unfold txnRes
    rw [hop, htag]

/-- Changed words of a PROVISIONAL record stand in its line (R182, R185, R220). -/
theorem applyRecord_prov {w : State} {z : Nat} {l : Line} {x : RecCtx} {es : List Effect} {held : Option Nat} {d c : Nat} (hl : lineOf w z = l) (hlr : l.lstate = .record) (hp : l.provisional = true)
    (hne : es ≠ []) (hnd : es.contains .delete = false) :
    (applyRecord w (.line z) x es held d c).lines = kset w.lines z { l with words := es.foldl (recEffect w x) l.words, dirty := true }
    ∧ (applyRecord w (.line z) x es held d c).zat = w.zat ∧ (applyRecord w (.line z) x es held d c).sent = w.sent
    ∧ (applyRecord w (.line z) x es held d c).suits = w.suits ∧ (applyRecord w (.line z) x es held d c).deck = w.deck
    ∧ (applyRecord w (.line z) x es held d c).cold = w.cold := by
  have e1 : es.isEmpty = false := by cases es with | nil => exact absurd rfl hne | cons => rfl
  have old : wordsAt w (.line z) = l.words := by
    unfold wordsAt; dsimp only; rw [hl, hp, if_pos rfl]
  have live : recLive w (.line z) = true := by unfold recLive; dsimp only; rw [hl, hlr]; rfl
  have store : ∀ a b, storeLine w z a b = wroteSet (setLine w z { l with words := b, dirty := true }) z := by
    intro a b; unfold storeLine; dsimp only; rw [hl, hp, if_pos rfl]
  have md : ∀ (u : State) i, (mirrorDue u i).lines = u.lines ∧ (mirrorDue u i).zat = u.zat ∧ (mirrorDue u i).sent = u.sent ∧ (mirrorDue u i).suits = u.suits ∧ (mirrorDue u i).deck = u.deck ∧ (mirrorDue u i).cold = u.cold := by
    intro u i
    unfold mirrorDue raiseHigh
    split
    · exact ⟨rfl, rfl, rfl, rfl, rfl, rfl⟩
    · split <;> exact ⟨rfl, rfl, rfl, rfl, rfl, rfl⟩
  have um : ∀ (u : State) i, (unmirror u i).lines = u.lines ∧ (unmirror u i).zat = u.zat ∧ (unmirror u i).sent = u.sent ∧ (unmirror u i).suits = u.suits ∧ (unmirror u i).deck = u.deck ∧ (unmirror u i).cold = u.cold := by
    intro u i
    unfold unmirror
    dsimp only
    split <;> exact ⟨rfl, rfl, rfl, rfl, rfl, rfl⟩
  unfold applyRecord
  rw [e1, live, hnd, if_neg (by simp), if_neg (by simp)]
  dsimp only
  rw [old, store]
  repeat' split
  all_goals first
    | exact md _ _
    | exact um _ _
    | exact ⟨rfl, rfl, rfl, rfl, rfl, rfl⟩

/-- A task other than the holder leaves the waiters of a suit that has none. -/
theorem unwait_suits {w : State} {m j : Nat} {y : Suit} (hm : kget w.suits m = some y) (hw : y.waiters = []) :
    (∀ e ∈ (unwait w m j).suits, e = (m, y) ∨ e ∈ w.suits) ∧ kget (unwait w m j).suits m = some y := by
  have f : ({ y with waiters := y.waiters.filter (· != .task j) } : Suit) = y := by rw [hw, List.filter_nil, ← hw]
  have e : (unwait w m j).suits = kset w.suits m y := by
    show kadj _ _ _ = _
    rw [kadj_some hm, f]
  rw [e]
  exact ⟨fun _ h => mem_kset h, kget_kset_same ..⟩

/-- A PROVISIONAL record deleted under its suit by host task `h`: its line goes, and with it its insert task (R186, R238). -/
theorem deleteLine_prov {w : State} {z h d c : Nat} {l : Line} (hl : lineOf w z = l) (hp : l.provisional = true) (ht : timerBit w l.words = false)
    (hs : kget w.suits (lineSuit z) = some ⟨some (.task h), [], []⟩) (hk : ∀ k, kget w.tasks h = some k → k.body.suit = none) :
    ∃ x, deleteLine w z (some (lineSuit z)) d c = x ∧ x.lines = kdel w.lines z ∧ x.zat = w.zat ∧ x.sent = w.sent
      ∧ (∀ e ∈ x.suits, e = (lineSuit z, ⟨some (.task h), [], []⟩) ∨ e ∈ w.suits) ∧ kget x.suits (lineSuit z) = some ⟨some (.task h), [], []⟩ := by
  have old : wordsAt w (.line z) = l.words := by unfold wordsAt; dsimp only; rw [hl, hp, if_pos rfl]
  have ct : cancelTimer w l.words (some (lineSuit z)) d c = w := by unfold cancelTimer; rw [ht]; rfl
  obtain ⟨v, hv⟩ : ∃ v, v = unmirror (wroteSet w z) (suitOf z l) := ⟨_, rfl⟩
  have vf : v.lines = w.lines ∧ v.zat = w.zat ∧ v.sent = w.sent ∧ v.suits = w.suits ∧ v.tasks = w.tasks := by
    rw [hv]
    unfold unmirror
    dsimp only
    split <;> exact ⟨rfl, rfl, rfl, rfl, rfl⟩
  obtain ⟨f, hf⟩ : ∃ f, f = freeLine v z := ⟨_, rfl⟩
  have ff : f.lines = kdel w.lines z ∧ f.zat = w.zat ∧ f.sent = w.sent ∧ f.suits = w.suits ∧ f.tasks = w.tasks := by
    rw [hf, ← vf.1, ← vf.2.1, ← vf.2.2.1, ← vf.2.2.2.1, ← vf.2.2.2.2]
    exact ⟨rfl, rfl, rfl, rfl, rfl⟩
  have same : ∀ u : State, SameButObs f u → u.lines = kdel w.lines z ∧ u.zat = w.zat ∧ u.sent = w.sent
      ∧ (∀ e ∈ u.suits, e = (lineSuit z, ⟨some (.task h), [], []⟩) ∨ e ∈ w.suits) ∧ kget u.suits (lineSuit z) = some ⟨some (.task h), [], []⟩ := by
    intro u hu
    unfold SameButObs at hu
    rw [hu]
    exact ⟨ff.1, ff.2.1, ff.2.2.1, by dsimp only; rw [ff.2.2.2.1]; exact fun _ a => .inr a, by dsimp only; rw [ff.2.2.2.1]; exact hs⟩
  refine ⟨_, rfl, ?_⟩
  unfold deleteLine
  dsimp only
  rw [hl, old, ct, ← hv, hp, if_pos rfl]
  split
  · next j k hj =>
    rw [← hf]
    unfold cancelTask
    split
    · exact same _ rfl
    · next t et =>
      dsimp only
      split
      · next ok =>
        have bs : t.body.suit = some (lineSuit z) := by
          simp only [Bool.and_eq_true, beq_iff_eq] at ok
          exact ok.1.2
        have hne : h ≠ j := by
          intro q
          rw [q] at hk
          rw [hk t (by rw [← ff.2.2.2.2]; exact et)] at bs
          exact absurd bs (by simp)
        have nh : ¬ ((suitAt f (lineSuit z)).holder == some (Holder.task j)) = true := by
          unfold suitAt kgetD
          rw [ff.2.2.2.1, hs]
          simp [hne]
        rw [bs]
        dsimp only
        rw [if_neg nh]
        have uw := unwait_suits (w := f) (j := j) (by rw [ff.2.2.2.1]; exact hs) rfl
        rw [ff.2.2.2.1] at uw
        obtain ⟨g, hg⟩ : ∃ g, g = unwait f (lineSuit z) j := ⟨_, rfl⟩
        have gf : g.lines = kdel w.lines z ∧ g.zat = w.zat ∧ g.sent = w.sent := by rw [hg]; exact ⟨ff.1, ff.2.1, ff.2.2.1⟩
        rw [← hg] at uw ⊢
        have done_ : ∀ u, SameButObs g u → u.lines = kdel w.lines z ∧ u.zat = w.zat ∧ u.sent = w.sent
            ∧ (∀ e ∈ u.suits, e = (lineSuit z, ⟨some (.task h), [], []⟩) ∨ e ∈ w.suits) ∧ kget u.suits (lineSuit z) = some ⟨some (.task h), [], []⟩ := by
          intro u hu
          unfold SameButObs at hu
          rw [hu]
          exact ⟨gf.1, gf.2.1, gf.2.2, uw.1, uw.2⟩
        have en : SameButObs g (bump (endTask g j) aCancelled) := (SameButObs.endTask g j).trans rfl
        apply done_
        split
        · exact (en.trans (u := bump (bump (endTask g j) aCancelled) aCancelReady) rfl).trans (.traceTask _ _ _ _ _ _ _)
        · exact en.trans (.traceTask _ _ _ _ _ _ _)
      · exact same _ rfl
  · rw [← hf]
    exact same _ (.refl f)

theorem over_same {x : State} {h d c : Nat} {k : Task} {b : TaskBody} (hn : ∀ e ∈ x.suits, e.2.holder ≠ some (.task h)) (hk : kget x.tasks h = some k) (hs : k.body.succ = none) :
    SameButObs x (traceTask (endTask (releaseTask x h) h) 2 false h (some b) d c) := by
  rw [releaseTask_none hn]
  exact (SameButObs.endTask_plain hk hs).trans (SameButObs.traceTask _ _ _ _ _ _ _)

theorem SameButObs.table {s v : State} (h : SameButObs s v) (R : KMap Row) (M : List Move) :
    SameButObs { s with rows := R, moves := M } { v with rows := R, moves := M } := by
  unfold SameButObs at *
  rw [h]

theorem mem_kdel_ne {α : Type} {m : KMap α} {k : Nat} {e : Nat × α} (h : e ∈ kdel m k) : e.1 ≠ k := by
  induction m with
  | nil => simp [kdel] at h
  | cons a r ih =>
    obtain ⟨j, w⟩ := a
    unfold kdel at h
    split at h
    · exact ih h
    · rcases List.mem_cons.mp h with rfl | h
      · assumption
      · exact ih h

theorem filter_kset_le {α : Type} (P : Nat × α → Bool) (m : KMap α) (k : Nat) (v : α) (h : P (k, v) = false) :
    ((kset m k v).filter P).length ≤ (m.filter P).length := by
  induction m with
  | nil => unfold kset; simp [h]
  | cons e r ih =>
    obtain ⟨j, w⟩ := e
    unfold kset
    split
    · rw [List.filter_cons, h, if_neg (by simp)]
      all_goals exact Nat.le_refl _
    · split
      · rw [List.filter_cons, h, if_neg (by simp), List.filter_cons]
        split
        · exact Nat.le_succ_of_le (Nat.le_refl _)
        · exact Nat.le_refl _
      · rw [List.filter_cons, List.filter_cons]
        split
        · exact Nat.succ_le_succ ih
        · exact ih

/-- `t` is `s` but for what a fetch touches: lines, suits, counters and the HBM. -/
def SameButMiss (s t : State) : Prop :=
  t = { s with regs := t.regs, sets := t.sets, hbm := t.hbm, hbmc := t.hbmc, rings := t.rings, tasks := t.tasks, order := t.order, high := t.high, xq := t.xq,
               fresh := t.fresh, postHeld := t.postHeld, lastDisp := t.lastDisp, perfCnt := t.perfCnt, perfLast := t.perfLast, lines := t.lines, plru := t.plru, suits := t.suits, conf := t.conf }

theorem SameButMiss.trans {s t u : State} (h : SameButMiss s t) (k : SameButMiss t u) : SameButMiss s u := by
  unfold SameButMiss at *
  rw [h] at k
  rw [k]

theorem SameButObs.miss {s t : State} (h : SameButObs s t) : SameButMiss s t := by
  unfold SameButObs at h
  unfold SameButMiss
  rw [h]

theorem SameButHbm.miss {s t : State} (h : SameButHbm s t) : SameButMiss s t := by
  unfold SameButHbm at h
  unfold SameButMiss
  rw [h]

theorem confMiss_frame (s : State) : ∃ x, confMiss s = { s with conf := x } := by
  unfold confMiss
  split
  · exact ⟨_, rfl⟩
  · exact ⟨s.conf, rfl⟩

/-- Whether a fetch meets poison depends on the HBM, the seeds and the deck alone while every stack works (R327). -/
theorem fetchPoison_same {s t : State} (key : List Byte) (r : Fetched) (htr : s.hbmc.trained % 16 = 15) (hb : t.hbm = s.hbm) (hc : t.hbmc = s.hbmc)
    (hs : t.seeds = s.seeds) (hcold : t.cold = s.cold) (hd : t.deck = s.deck) :
    tagPoison t key = tagPoison s key ∧ recordPoison t (fetchVisits (tagAt t) t key r) = recordPoison s (fetchVisits (tagAt s) s key r) := by
  have hp : ∀ o n, hbmPoisoned t o n = hbmPoisoned s o n := by
    intro o n
    unfold hbmPoisoned
    rw [stackDown_false htr, stackDown_false (by rw [hc]; exact htr), hc]
  have sl : slotsOf t = slotsOf s := by unfold slotsOf; rw [hd]
  have bo : ∀ b, bucketOff t b = bucketOff s b := by intro b; unfold bucketOff fgF coldF coldBody; rw [hcold]
  have tb : tagBytes t = tagBytes s := by unfold tagBytes; rw [sl]
  have b1 : bucket1 t key = bucket1 s key := by unfold bucket1 seedA; rw [hs]
  have b2 : bucket2 t key = bucket2 s key := by unfold bucket2 seedB; rw [b1, hs]
  have dg : digestOf t key = digestOf s key := by unfold digestOf dkey; rw [hs]
  have ta : ∀ a b, tagAt t a b = tagAt s a b := by intro a b; unfold tagAt tagOff; rw [bo, hb]
  have bp : bothPlaces t key = bothPlaces s key := by unfold bothPlaces; rw [b1, b2, sl]
  have rb : recBytes t = recBytes s := by unfold recBytes; rw [hd]
  have ro : ∀ i w, recWordOff t i w = recWordOff s i w := by intro i w; unfold recWordOff recOff; rw [sl, bo, tb, rb]
  refine ⟨by unfold tagPoison; rw [hp, hp, bo, bo, b1, b2, tb], ?_⟩
  have fv : fetchVisits (tagAt t) t key r = fetchVisits (tagAt s) s key r := by
    unfold fetchVisits
    simp only [ta, bp, dg, sl]
  unfold recordPoison
  rw [fv]
  simp only [hp, ro, rb]

/-- A host transaction whose key no record has: it takes a free line, fetches, and goes on under the line's suit with the hint (R184, R351). -/
theorem hostMiss_absent {s v : State} {z src c h sub : Nat} {key : List Byte} {hint : Option Nat} {t : Txn} (sv : SameButObs s v)
    (hh : ∀ e ∈ s.suits, e.2.holder ≠ some (.task h)) (hvic : victim s (setOf s key) = some z) (hfree : (lineOf s z).lstate = .free)
    (hsz : kget s.suits (lineSuit z) = none) (hff : fetchFind (tagAt v) v key = .absent hint) (htp : tagPoison v key = false)
    (hrp : recordPoison v (fetchVisits (tagAt v) v key (.absent hint)) = false) (htr : v.hbmc.trained % 16 = 15) :
    ∃ u, hostMiss v src c h sub key t = hostOnAbsent u z sub t
      ∧ lineOf u z = { Line.blank with digest := digestOf s key, lstate := .absent, key := key, hint := hint }
      ∧ u.suits = kset s.suits (lineSuit z) ⟨some (.task h), [], []⟩ ∧ u.hbm = v.hbm ∧ SameButMiss s u := by
  have sl : v.lines = s.lines ∧ v.suits = s.suits ∧ victim v (setOf v key) = some z ∧ digestOf v key = digestOf s key := by
    unfold SameButObs at sv
    rw [sv]
    exact ⟨rfl, rfl, hvic, rfl⟩
  have lz : lineOf v z = lineOf s z := by unfold lineOf; rw [sl.1]
  obtain ⟨pend, hpend⟩ : ∃ l : Line, l = { Line.blank with digest := digestOf s key, lstate := .pending, key := key } := ⟨_, rfl⟩
  obtain ⟨s2, h2⟩ : ∃ u, u = confMiss (bump (useLine (setLine v z pend) z) aMisses) := ⟨_, rfl⟩
  obtain ⟨s3, h3⟩ : ∃ u, u = recordReads (tagReads s2 src key) src (fetchVisits (tagAt s2) s2 key (.absent hint)) := ⟨_, rfl⟩
  obtain ⟨s4, h4⟩ : ∃ u, u = takeSuit s3 (lineSuit z) (.task h) := ⟨_, rfl⟩
  obtain ⟨abs_, habs⟩ : ∃ l : Line, l = { pend with lstate := .absent, hint := hint, gathered := none, touches := (0, 0, 0) } := ⟨_, rfl⟩
  obtain ⟨s5, h5⟩ : ∃ u, u = setLine s4 z abs_ := ⟨_, rfl⟩
  have f2 : s2.lines = kset s.lines z pend ∧ s2.suits = s.suits ∧ s2.hbm = v.hbm ∧ SameButMiss v s2 := by
    rw [h2]
    unfold confMiss
    split
    · exact ⟨by show kset v.lines z pend = _; rw [sl.1], sl.2.1, rfl, rfl⟩
    · exact ⟨by show kset v.lines z pend = _; rw [sl.1], sl.2.1, rfl, rfl⟩
  have hb3 : SameButHbm s2 s3 := by rw [h3]; exact (SameButHbm.tagReads _ _ _).trans (.recordReads _ _ _)
  have f3 : s3.lines = kset s.lines z pend ∧ s3.suits = s.suits ∧ s3.hbm = v.hbm ∧ SameButMiss v s3 := by
    refine ⟨?_, ?_, ?_, SameButMiss.trans f2.2.2.2 (SameButHbm.miss hb3)⟩
    all_goals (unfold SameButHbm at hb3; rw [hb3])
    · exact f2.1
    · exact f2.2.1
    · exact f2.2.2.1
  have f4 : s4.lines = kset s.lines z pend ∧ s4.suits = kset s.suits (lineSuit z) ⟨some (.task h), [], []⟩ ∧ s4.hbm = v.hbm ∧ SameButMiss v s4 := by
    refine ⟨by rw [h4]; exact f3.1, ?_, by rw [h4]; exact f3.2.2.1, SameButMiss.trans f3.2.2.2 (by rw [h4]; rfl)⟩
    rw [h4]
    show kset s3.suits _ { suitAt s3 (lineSuit z) with holder := some (.task h) } = _
    have : suitAt s3 (lineSuit z) = Suit.idle := by unfold suitAt kgetD; rw [f3.2.1, hsz]; rfl
    rw [this, f3.2.1]
    rfl
  have l4 : lineOf s4 z = pend := by unfold lineOf kgetD; rw [f4.1, kget_kset_same]; rfl
  have f5 : s5.lines = kset (kset s.lines z pend) z abs_ ∧ s5.suits = kset s.suits (lineSuit z) ⟨some (.task h), [], []⟩ ∧ s5.hbm = v.hbm ∧ SameButMiss s s5 := by
    refine ⟨by rw [h5]; show kset s4.lines z abs_ = _; rw [f4.1], by rw [h5]; exact f4.2.1, by rw [h5]; exact f4.2.2.1, SameButMiss.trans (SameButObs.miss sv) (SameButMiss.trans f4.2.2.2 (by rw [h5]; rfl))⟩
  have l5 : lineOf s5 z = abs_ := by unfold lineOf kgetD; rw [f5.1, kget_kset_same]; rfl
  have absent : fetchAbsent s4 z hint = s5 := by
    unfold Machine.fetchAbsent
    dsimp only
    have g : pend.gathered = none := by rw [hpend]; rfl
    have sf : suitFree s4 (lineSuit z) = false := by unfold suitFree khas; rw [f4.2.1, kget_kset_same]; rfl
    rw [l4, g]
    dsimp only
    rw [sf, if_neg (by simp), ← habs, ← h5]
    unfold wakeFetch
    dsimp only
    have : (suitAt s5 (lineSuit z)).holder = some (.task h) := by unfold suitAt kgetD; rw [f5.2.1, kget_kset_same]; rfl
    rw [this]
  refine ⟨s5, ?_, by rw [l5, habs, hpend]; rfl, f5.2.1, f5.2.2.1, f5.2.2.2⟩
  unfold hostMiss
  rw [sl.2.2.1]
  dsimp only
  rw [hff]
  dsimp only
  rw [releaseTask_none (by rw [sl.2.1]; exact hh), lz, hfree, if_neg (show ¬ ((LState.free == LState.record) = true) by decide), sl.2.2.2, ← hpend]
  have hb : (tagPoison s2 key || recordPoison s2 (fetchVisits (tagAt s2) s2 key (.absent hint))) = false := by
    obtain ⟨x, hx⟩ := confMiss_frame (bump (useLine (setLine v z pend) z) aMisses)
    obtain ⟨e1, e2⟩ := fetchPoison_same (s := v) (t := s2) key (.absent hint) htr f2.2.2.1 (by rw [h2, hx]; rfl) (by rw [h2, hx]; rfl) (by rw [h2, hx]; rfl) (by rw [h2, hx]; rfl)
    rw [e1, e2, htp, hrp]
    rfl
  rw [← h2, hb, if_neg (by simp), ← h3, ← h4, absent]

/-- A host INSERT under the suit of an ABSENT line writes its record where the fetch hinted, and the suit goes with it (R185, R351). -/
theorem hostOnAbsent_places {s : State} {z i h : Nat} {l : Line} {d : List Byte} {ws : List W32} (hl : lineOf s z = l) (hint : l.hint = some i)
    (htag : tagAt s (i / slotsOf s) (i % slotsOf s) = 0) (hwin : inWindow s = false) (hi : i < 2 ^ 27) (hsz : suitAt s (lineSuit z) = ⟨some (.task h), [], []⟩)
    (hsi : kget s.suits i = none) (hkey : txnKey s d = l.key) (hws : ws = hostWords s l.key (d.drop (keyPad s)))
    (hh : ∀ e ∈ s.suits, e.2.holder = some (.task h) → e.1 = lineSuit z) :
    ∃ x, hostOnAbsent s z 2 (flowTxn 2 0 d) = .done stOk (flowData x (.line z)) x
      ∧ kget x.lines z = some { l with lstate := .record, index := i, dirty := false, provisional := false, words := lineHot s ws, hint := none }
      ∧ x.zat = s.zat ∧ x.sent = s.sent
      ∧ (∀ e ∈ x.suits, e.2.holder = some (.task h) → e.1 = i) ∧ (suitAt x i).chain = [] ∧ (suitAt x i).waiters = [] := by
  obtain ⟨y, hy⟩ : ∃ y : Line, y = { l with lstate := .record, index := i, dirty := false, provisional := false, words := lineHot s ws, hint := none } := ⟨_, rfl⟩
  obtain ⟨u, hu⟩ : ∃ u, u = writeRecord (bump s aCreates) i ws (tagWord (i / slotsOf s != bucket1 s l.key) l.digest) := ⟨_, rfl⟩
  obtain ⟨x, hx⟩ : ∃ x, x = moveSuit (setLine u z y) (lineSuit z) i := ⟨_, rfl⟩
  have cc : countCreate s (bankOf s (z / 16)) = bump s aCreates := by
    unfold countCreate
    dsimp only
    rw [show inWindow (bump s aCreates) = false from hwin]
    rfl
  have f6 : u.lines = s.lines ∧ u.suits = s.suits ∧ u.zat = s.zat ∧ u.sent = s.sent ∧ u.cold = s.cold ∧ u.deck = s.deck := by
    have w := SameButWin.writeRecord (bump s aCreates) i ws (tagWord (i / slotsOf s != bucket1 s l.key) l.digest)
    rw [hu]
    unfold SameButWin at w
    rw [w]
    exact ⟨rfl, rfl, rfl, rfl, rfl, rfl⟩
  have pl : placeHinted (countCreate s (bankOf s (z / 16))) z i ws = x := by
    unfold placeHinted
    dsimp only
    rw [cc]
    have lc : lineOf (bump s aCreates) z = l := hl
    rw [lc]
    have e : writeRecord (bump s aCreates) i ws (tagWord (i / slotsOf (bump s aCreates) != bucket1 (bump s aCreates) l.key) l.digest) = u := hu.symm
    rw [e]
    have lh : lineHot u ws = lineHot s ws := by unfold lineHot hotImage hotWords fgF coldF coldBody; rw [f6.2.2.2.2.1, f6.2.2.2.2.2]
    rw [lh, ← hy, hx]
  have sx : x.suits = kset (kdel s.suits (lineSuit z)) i ⟨some (.task h), [], []⟩ ∧ x.lines = kset s.lines z y ∧ x.zat = s.zat ∧ x.sent = s.sent := by
    have ne : i ≠ lineSuit z := by unfold lineSuit; omega
    have a : suitAt (setLine u z y) (lineSuit z) = ⟨some (.task h), [], []⟩ := by
      rw [← hsz]; unfold suitAt; show kgetD u.suits _ _ = _; rw [f6.2.1]
    have b : suitAt (setLine u z y) i = Suit.idle := by
      unfold suitAt kgetD; show (kget u.suits _).getD _ = _; rw [f6.2.1, hsi]; rfl
    have md : ∀ v : State, ∀ n, (if (keepSlotOf v n).isSome then mirrorDue v n else v).suits = v.suits ∧ (if (keepSlotOf v n).isSome then mirrorDue v n else v).lines = v.lines
        ∧ (if (keepSlotOf v n).isSome then mirrorDue v n else v).zat = v.zat ∧ (if (keepSlotOf v n).isSome then mirrorDue v n else v).sent = v.sent := by
      intro v n
      unfold mirrorDue raiseHigh
      repeat' split
      all_goals exact ⟨rfl, rfl, rfl, rfl⟩
    rw [hx]
    unfold moveSuit
    dsimp only
    rw [a, b]
    refine ⟨(md _ _).1.trans ?_, (md _ _).2.1.trans ?_, (md _ _).2.2.1.trans f6.2.2.1, (md _ _).2.2.2.trans f6.2.2.2.1⟩
    · dsimp only
      refine (if_neg ?_).trans ?_
      · intro q
        exact absurd (congrArg Suit.holder q) (by simp [Suit.idle])
      · show kset (kdel u.suits _) i _ = _
        rw [f6.2.1]
        rfl
    · show kset u.lines z y = _
      rw [f6.1]
  obtain ⟨sx, sl, sz, st⟩ := sx
  refine ⟨x, ?_, by rw [sl, kget_kset_same, hy], sz, st, ?_, ?_, ?_⟩
  · unfold hostOnAbsent
    rw [if_neg (by decide)]
    dsimp only
    have dd : (flowTxn 2 0 d).data = d := rfl
    have adm : createOk s z = true := by
      unfold createOk
      dsimp only
      rw [hl, hint, hwin]
      simp
    have hf : hintFree s l = some i := by
      unfold hintFree
      rw [hint, Option.bind_some, if_pos htag]
    rw [adm, if_neg (by simp), hl, hf]
    dsimp only
    rw [dd, hkey, ← hws, pl]
  · intro e he q
    rw [sx] at he
    rcases mem_kset he with rfl | he
    · rfl
    · exact absurd (hh e (mem_kdel he) q) (mem_kdel_ne he)
  all_goals (unfold suitAt kgetD; rw [sx, kget_kset_same]; rfl)

/-- A host INSERT that finds no record takes the free line, fetches, and places the record where the fetch hinted (R184, R185, R351). -/
theorem hostMiss_places {s v : State} {z i src c h : Nat} {key d : List Byte} {ws : List W32} (sv : SameButObs s v) (hh : ∀ e ∈ s.suits, e.2.holder ≠ some (.task h))
    (hkey : key = slice d 0 (keyBytes s)) (hvic : victim s (setOf s key) = some z) (hfree : (lineOf s z).lstate = .free)
    (hsz : kget s.suits (lineSuit z) = none) (hi : i < 2 ^ 27) (hsi : kget s.suits i = none)
    (hff : fetchFind (tagAt v) v key = .absent (some i)) (htag : tagAt v (i / slotsOf s) (i % slotsOf s) = 0) (htp : tagPoison v key = false)
    (hrp : recordPoison v (fetchVisits (tagAt v) v key (.absent (some i))) = false) (htr : v.hbmc.trained % 16 = 15)
    (hwin : inWindow s = false) (hws : ws = hostWords s key (d.drop (keyPad s))) :
    ∃ x y, hostMiss v src c h 2 key (flowTxn 2 0 d) = .done stOk (flowData x (.line z)) x ∧ kget x.lines z = some y ∧ y.lstate = .record ∧ y.index = i ∧ y.provisional = false
      ∧ y.dirty = false ∧ y.words = lineHot s ws ∧ y.digest = digestOf s key ∧ x.zat = s.zat ∧ x.sent = s.sent
      ∧ (∀ e ∈ x.suits, e.2.holder = some (.task h) → e.1 = i) ∧ (suitAt x i).chain = [] ∧ (suitAt x i).waiters = [] := by
  obtain ⟨u, e1, lu, su, bu, mu⟩ := hostMiss_absent (src := src) (c := c) (sub := 2) (t := flowTxn 2 0 d) sv hh hvic hfree hsz hff htp hrp htr
  have ne : i ≠ lineSuit z := by unfold lineSuit; omega
  have cu : slotsOf u = slotsOf s ∧ inWindow u = false ∧ keyPad u = keyPad s ∧ (∀ k r, hostWords u k r = hostWords s k r) ∧ (∀ w, lineHot u w = lineHot s w)
      ∧ txnKey u d = key ∧ u.zat = s.zat ∧ u.sent = s.sent ∧ u.cold = s.cold := by
    unfold SameButMiss at mu
    rw [mu]
    exact ⟨rfl, hwin, rfl, fun _ _ => rfl, fun _ => rfl, hkey.symm, rfl, rfl, rfl⟩
  obtain ⟨x, x1, x2, x3, x4, x5, x6, x7⟩ := hostOnAbsent_places (s := u) (z := z) (i := i) (h := h) (d := d) (ws := ws) lu rfl
    (by
      rw [cu.1, ← htag]
      have vc : v.cold = s.cold := by unfold SameButObs at sv; rw [sv]
      unfold tagAt tagOff bucketOff fgF coldF coldBody
      rw [bu, cu.2.2.2.2.2.2.2.2, vc])
    cu.2.1 hi (by unfold suitAt kgetD; rw [su, kget_kset_same]; rfl) (by rw [su, kget_kset_ne _ _ ne, hsi]) cu.2.2.2.2.2.1
    (by rw [hws, cu.2.2.1, cu.2.2.2.1]) (by
      intro e he q
      rw [su] at he
      rcases mem_kset he with rfl | he
      · rfl
      · exact absurd q (hh e he))
  exact ⟨x, _, e1.trans x1, x2, rfl, rfl, rfl, rfl, cu.2.2.2.2.1 ws, rfl, x3.trans cu.2.2.2.2.2.2.1, x4.trans cu.2.2.2.2.2.2.2.1, x5, x6, x7⟩

end Sys2Proof.Machine
end

