-- ==== Sys2Proof/Laws/Kitty.lean ====
section
/-!
SUPPORT. Fields of a byte string that is written part by part, and the header of a saved image
(17_reset_power_and_kitty.md R403, R404, Table 17.10).
-/
namespace Sys2Proof.Machine

open Sys2Proof

theorem slice_mid (a b c : List Byte) {off n : Nat} (ho : a.length = off) (hn : b.length = n) : slice (a ++ (b ++ c)) off n = b := by
  subst ho; subst hn
  unfold slice
  simp

theorem fld_mid (a c : List Byte) {off n x : Nat} (ho : a.length = off) : fld (a ++ (toBytes n x ++ c)) off n = x % 256 ^ n := by
  unfold fld
  rw [slice_mid a _ c ho (toBytes_length n x), ofBytes_toBytes]

theorem slice_head (b c : List Byte) {n : Nat} (hn : b.length = n) : slice (b ++ c) 0 n = b := slice_mid [] b c rfl hn

theorem crc32c_lt (i : Nat) (bs : List Byte) : crc32c i bs < 2 ^ 32 := BitVec.isLt _

/-- The first 60 bytes of an image's header. -/
theorem imageHeader_facts (s : State) (seq crc micros : Nat) (hc : crc < 2 ^ 32) (hm : micros < 2 ^ 16) (h : List Byte)
    (e : h = imageHeader s seq crc micros) :
    h.length = 64 ∧ hdrValid h = true ∧ fld h 4 1 = 1 ∧ hdrSeq h = seq % 2 ^ 64 ∧ fld h 20 4 = crc ∧ fld h 34 4 = micros := by
  unfold imageHeader at e
  simp only at e
  have l60 : ∀ x1 x2 x3 x4 x5 x6 x7 x8 x9 x10 : Nat, (toBytes 4 x1 ++ toBytes 1 x2 ++ toBytes 3 x3 ++ toBytes 8 x4 ++ toBytes 4 x5 ++ toBytes 4 x6
    ++ toBytes 6 x7 ++ toBytes 4 x8 ++ toBytes 4 x9 ++ toBytes 8 x10 ++ toBytes 14 0).length = 60 := by
    intros; simp
  generalize hh : (toBytes 4 0x4B495459 ++ toBytes 1 1 ++ toBytes 3 0 ++ toBytes 8 seq ++ toBytes 4 kittyBytes ++ toBytes 4 crc
    ++ toBytes 6 (nowS s) ++ toBytes 4 (nowNs s % 10 ^ 9) ++ toBytes 4 micros ++ toBytes 8 (memNat s.kitty kIdent 8) ++ toBytes 14 0) = g at e
  have lg : g.length = 60 := by rw [← hh]; apply l60
  have f1 : fld h 0 4 = 0x4B495459 := by
    rw [e, ← hh]; simp only [List.append_assoc]; exact fld_mid [] _ rfl
  have f2 : fld h 4 1 = 1 := by
    rw [e, ← hh]; simp only [List.append_assoc]; exact fld_mid (toBytes 4 _) _ (by simp)
  have f3 : fld h 8 8 = seq % 2 ^ 64 := by
    rw [e, ← hh]; simp only [List.append_assoc]
    exact fld_mid (toBytes 4 _ ++ (toBytes 1 _ ++ toBytes 3 _)) _ (by simp)
  have f4 : fld h 20 4 = crc := by
    rw [e, ← hh]; simp only [List.append_assoc]
    refine Eq.trans (fld_mid (toBytes 4 _ ++ (toBytes 1 _ ++ (toBytes 3 _ ++ (toBytes 8 _ ++ toBytes 4 _)))) _ (by simp)) ?_
    omega
  have f5 : fld h 34 4 = micros := by
    rw [e, ← hh]; simp only [List.append_assoc]
    refine Eq.trans (fld_mid (toBytes 4 _ ++ (toBytes 1 _ ++ (toBytes 3 _ ++ (toBytes 8 _ ++ (toBytes 4 _ ++ (toBytes 4 _ ++ (toBytes 6 _ ++ toBytes 4 _))))))) _ (by simp)) ?_
    omega
  have f6 : fld h 60 4 = hdrCrc h := by
    have c : hdrCrc h = hdrCrc g := by
      unfold hdrCrc
      rw [e, slice_head g _ lg]
      have := slice_head g [] lg
      rw [List.append_nil] at this
      rw [this]
    rw [c, e]
    have := fld_mid g ([] : List Byte) (n := 4) (x := hdrCrc g) lg
    rw [List.append_nil] at this
    rw [this]
    have : hdrCrc g < 2 ^ 32 := crc32c_lt _ _
    omega
  refine ⟨by rw [e]; simp [lg], ?_, f2, f3, f4, f5⟩
  unfold hdrValid
  rw [f1, f2, f6]; simp

theorem memRead_part (m : Mem) (a : Nat) (pre mid post : List Byte) (h : memRead m a (pre ++ (mid ++ post)).length = pre ++ (mid ++ post)) :
    memRead m (a + pre.length) mid.length = mid := by
  have split : ∀ (n k a : Nat), memRead m a (n + k) = memRead m a n ++ memRead m (a + n) k := by
    intro n
    induction n with
    | zero => intro k a; simp [memRead]
    | succ n ih =>
      intro k a
      have : n + 1 + k = (n + k) + 1 := by omega
      rw [this, memRead, memRead, ih, List.cons_append]
      congr 3
      omega
  rw [List.length_append, List.length_append, split, split] at h
  have h1 := List.append_inj h (by rw [memRead_length])
  exact (List.append_inj h1.2 (by rw [memRead_length])).1

theorem chooseFree_none {α : Type} (s : State) (m : KMap α) (lo hi : Nat) (h : hi - lo ≤ kcount m lo hi) : chooseFree s m lo hi = none := by
  unfold chooseFree
  dsimp only
  rw [if_pos (by omega)]

theorem slot_word (f : Nat → List Byte) (hf : ∀ w, (f w).length = 4) (n w : Nat) (h : w < n) :
    ∃ pre post, (List.range n).flatMap f = pre ++ (f w ++ post) ∧ pre.length = 4 * w := by
  have e : List.range n = List.range w ++ (w :: (List.range (n - w - 1)).map (fun i => w + 1 + i)) := by
    apply List.ext_getElem
    · simp; omega
    · intro i h1 h2
      simp only [List.getElem_range, List.getElem_append, List.length_range]
      split
      · rfl
      · rename_i h3
        obtain ⟨j, rfl⟩ : ∃ j, i = w + j := ⟨i - w, by omega⟩
        cases j with
        | zero => simp
        | succ j => simp; omega
  refine ⟨(List.range w).flatMap f, ((List.range (n - w - 1)).map (fun i => w + 1 + i)).flatMap f, ?_, ?_⟩
  · rw [e, List.flatMap_append, List.flatMap_cons]
  · clear e h
    induction w with
    | zero => rfl
    | succ k ih => rw [List.range_succ, List.flatMap_append, List.length_append, ih]; simp [hf]; omega

theorem memRead_congr {m m' : Mem} {a n : Nat} (h : ∀ i, i < n → memGet m (a + i) = memGet m' (a + i)) : memRead m a n = memRead m' a n := by
  induction n generalizing a with
  | zero => rfl
  | succ n ih =>
    rw [memRead, memRead, ih]
    · have := h 0 (by omega); rw [Nat.add_zero] at this; rw [this]
    · intro i hi
      have := h (i + 1) (by omega)
      rwa [show a + (i + 1) = a + 1 + i by omega] at this

theorem kittyPut_frame (s : State) (off : Nat) (bs : List Byte) : (kittyPut s off bs).kitty = memWrite s.kitty off bs
    ∧ (kittyPut s off bs).keep = s.keep ∧ (kittyPut s off bs).time = s.time ∧ (kittyPut s off bs).regs = s.regs := ⟨rfl, rfl, rfl, rfl⟩

theorem summary_frame (l : List Nat) (s : State) : (l.foldl captured_ s).kitty = s.kitty ∧ (l.foldl captured_ s).keep = s.keep
    ∧ (l.foldl captured_ s).time = s.time :=
  ⟨foldl_keeps (f := captured_) State.kitty (fun _ _ => rfl) l s, foldl_keeps (f := captured_) State.keep (fun _ _ => rfl) l s,
   foldl_keeps (f := captured_) State.time (fun _ _ => rfl) l s⟩

theorem counters_kitty (s : State) : (kittyCounters s).kitty = memWrite s.kitty kSummary
    (summaryGroups.flatMap fun g => groupImage (summaryGroups.foldl captured_ s) g ((groupWords (summaryGroups.foldl captured_ s) g).getD [])) := by
  unfold kittyCounters
  dsimp only
  rw [(kittyPut_frame _ _ _).1, (summary_frame summaryGroups s).1]

theorem counters_frame (s : State) : (kittyCounters s).keep = s.keep ∧ (kittyCounters s).time = s.time := by
  obtain ⟨h1, h2, h3⟩ := summary_frame summaryGroups s
  unfold kittyCounters
  dsimp only
  rw [(kittyPut_frame _ _ _).2.1, (kittyPut_frame _ _ _).2.2.1, h2, h3]
  exact ⟨rfl, rfl⟩

theorem timeArea_low (u : State) (a : Nat) (ha : a < kTime + 0x1000) :
    memGet (kittyTimeArea u).kitty a = memGet (memWrite u.kitty kTime ([timeReg u, rateReg u, phaseReg u, utcReg u, u.time.leapAt % 2 ^ 48].flatMap (toBytes 8))) a := by
  unfold kittyTimeArea
  dsimp only
  rw [← (kittyPut_frame u _ _).1]
  refine foldl_keeps (fun s : State => memGet s.kitty a) ?_ _ _
  intro s p
  rw [(kittyPut_frame s _ _).1]
  exact memGet_memWrite_out _ _ _ (.inl (Nat.lt_of_lt_of_le ha (Nat.le_add_right _ _)))

theorem timeArea_frame (s : State) : (kittyTimeArea s).keep = s.keep ∧ (kittyTimeArea s).time = s.time := by
  unfold kittyTimeArea
  dsimp only
  constructor
  · refine Eq.trans (foldl_keeps State.keep ?_ _ _) (kittyPut_frame _ _ _).2.1
    intro s p; exact (kittyPut_frame _ _ _).2.1
  · refine Eq.trans (foldl_keeps State.time ?_ _ _) (kittyPut_frame _ _ _).2.2.1
    intro s p; exact (kittyPut_frame _ _ _).2.2.1

end Sys2Proof.Machine
end

