-- ==== Sys2Proof/Laws/Port.lean ====
section
/-!
SUPPORT. Lane tests: what a write of LANE.TEST leaves, and what settling the lanes of an octet changes
(05_ports_and_lanes.md R116).
-/
namespace Sys2Proof.Machine

open Sys2Proof

theorem testWord_lt (s : State) (l v : Nat) : testWord s l v < 1024 := by
  unfold testWord bits
  split <;> split <;> omega

theorem laneIdle_setReg {s : State} {l w v : Nat} (hw : w < 0x1000) (hl : l < 258) : laneIdle (setReg s (aLane l + w) v) l = laneIdle s l := by
  unfold laneIdle
  have : ∀ p, portEnabled (setReg s (aLane l + w) v) p = portEnabled s p := by
    intro p
    unfold portEnabled portCtl
    rw [regRaw_setReg_ne]
    unfold aPort aLane
    omega
  simp only [this]
  rfl

/-- A test word is the same whatever bits above it the write brings. -/
theorem testWord_low (s : State) (l v : Nat) : testWord s l (bits v 9 0) = testWord s l v := by
  have b1 : bits (bits v 9 0) 3 0 = bits v 3 0 := by simp only [bits]; omega
  have b2 : bits (bits v 9 0) 7 4 = bits v 7 4 := by simp only [bits]; omega
  have b3 : bits (bits v 9 0) 9 8 = bits v 9 8 := by simp only [bits]; omega
  unfold testWord
  rw [b1, b2, b3]

theorem laneSettle_set {s : State} {l v w : Nat} (hl : l < 256) (hw : w = testWord s l v) :
    laneSettle (setReg s (aLane l + 8) (bits v 9 0)) l = { setReg s (aLane l + 8) (bits v 9 0) with
      laneTest := if laneIdle s l && w != 0 then kset s.laneTest l (BitVec.ofNat 64 w) else kdel s.laneTest l } := by
  have ht : testReg (setReg s (aLane l + 8) (bits v 9 0)) l = w := by
    unfold testReg
    rw [regRaw_setReg, if_pos rfl, Nat.mod_eq_of_lt (by simp only [bits]; omega), hw, ← testWord_low s l v]
    rfl
  unfold laneSettle
  rw [laneIdle_setReg (by omega) (by omega), ht]
  by_cases hi : laneIdle s l = true
  · by_cases hz : w = 0
    · simp only [hi, hz]; rfl
    · have : (w != 0) = true := by simp [hz]
      simp only [hi, hz, this, if_true, if_false, Bool.and_self]; rfl
  · simp only [Bool.not_eq_true] at hi
    simp only [hi]; rfl

theorem wrLane_eq {s u : State} {l v w : Nat} (hl : l < 256) (hw : w = testWord s l v)
    (hu : u = { setReg s (aLane l + 8) (bits v 9 0) with
      laneTest := if laneIdle s l && w != 0 then kset s.laneTest l (BitVec.ofNat 64 w) else kdel s.laneTest l }) :
    wrLaneTest s l v = if bit v 10 && (laneIdle s l && w != 0 && bits w 3 0 != 0 && bits w 7 4 == bits w 3 0
      && (bits w 9 8 == 1 || bits w 9 8 == 2)) then bump u (aLane l + 0x10) else u := by
  have hlt := testWord_lt s l v
  rw [← hw] at hlt
  have g : kget u.laneTest l = if laneIdle s l && w != 0 then some (BitVec.ofNat 64 w) else none := by
    rw [hu]
    show kget (if laneIdle s l && w != 0 then kset s.laneTest l (BitVec.ofNat 64 w) else kdel s.laneTest l) l = _
    by_cases ho : (laneIdle s l && w != 0) = true
    · rw [if_pos ho, if_pos ho, kget_kset_same]
    · rw [if_neg ho, if_neg ho, kget_kdel_same]
  unfold wrLaneTest
  rw [laneSettle_set hl hw, ← hu]
  dsimp only
  rw [g]
  clear hu
  by_cases ho : (laneIdle s l && w != 0) = true
  · have e : (BitVec.ofNat 64 w).toNat = w := by simp only [BitVec.toNat_ofNat]; omega
    simp only [ho, if_true, e, Bool.true_and, Bool.and_assoc]
  · simp only [Bool.not_eq_true] at ho
    simp [ho, bits]

/-- what a lane shows once it has settled -/
def settled (s : State) (l : Nat) : Option W64 :=
  if laneIdle s l && testReg s l != 0 then some (BitVec.ofNat 64 (testReg s l)) else none

theorem settle_fold (ls : List Nat) (s : State) : ∃ m, ls.foldl laneSettle s = { s with laneTest := m } ∧
    ∀ l, kget m l = if l ∈ ls then settled s l else kget s.laneTest l := by
  induction ls generalizing s with
  | nil => exact ⟨s.laneTest, rfl, by simp⟩
  | cons a r ih =>
    have e : ∃ m1, laneSettle s a = { s with laneTest := m1 } ∧ ∀ l, kget m1 l = if l = a then settled s a else kget s.laneTest l := by
      unfold laneSettle settled
      by_cases hi : laneIdle s a = true
      · by_cases hz : testReg s a = 0
        · refine ⟨kdel s.laneTest a, by simp only [hi, hz, if_true], ?_⟩
          intro l; rw [kget_kdel]; simp [hz]
        · refine ⟨kset s.laneTest a (BitVec.ofNat 64 (testReg s a)), by simp only [hi, hz, if_true, if_false], ?_⟩
          intro l; rw [kget_kset]; simp [hz, hi]
      · simp only [Bool.not_eq_true] at hi
        refine ⟨kdel s.laneTest a, by simp only [hi, if_true, if_false, Bool.false_eq_true], ?_⟩
        intro l; rw [kget_kdel]; simp [hi]
    obtain ⟨m1, e1, e2⟩ := e
    obtain ⟨m, e3, e4⟩ := ih { s with laneTest := m1 }
    refine ⟨m, ?_, ?_⟩
    · rw [List.foldl_cons, e1, e3]
    · intro l
      have : settled { s with laneTest := m1 } l = settled s l := rfl
      rw [e4, this]
      dsimp only
      rw [e2]
      by_cases h1 : l ∈ r
      · simp [h1]
      · by_cases h2 : l = a
        · subst h2; simp [h1]
        · simp [h1, h2]

theorem settle_octet (s : State) (p : Nat) : ∃ m,
    (List.range 8).foldl (fun s i => laneSettle s (8 * (p / 8) + i)) s = { s with laneTest := m } ∧
    ∀ l, kget m l = if l / 8 = p / 8 then settled s l else kget s.laneTest l := by
  obtain ⟨m, h1, h2⟩ := settle_fold ((List.range 8).map fun i => 8 * (p / 8) + i) s
  rw [List.foldl_map] at h1
  refine ⟨m, h1, ?_⟩
  intro l
  rw [h2]
  have : (l ∈ (List.range 8).map fun i => 8 * (p / 8) + i) ↔ l / 8 = p / 8 := by
    simp only [List.mem_map, List.mem_range]
    constructor
    · rintro ⟨i, hi, rfl⟩; omega
    · intro h; exact ⟨l % 8, by omega, by omega⟩
  simp only [this]

theorem frameOut_frame (u : State) (a b : Nat) (c : Bool) : (frameOut u a b c).ports = u.ports ∧ (frameOut u a b c).rst = u.rst ∧ (frameOut u a b c).cold = u.cold := by
      unfold frameOut flightDown potRemove noteDepth setQueue
      cases c <;> exact ⟨rfl, rfl, rfl⟩

theorem frameOut_contract (u : State) (a b : Nat) (c : Bool) : (frameOut u a b c).deck.contract = u.deck.contract := by
  unfold frameOut flightDown potRemove noteDepth setQueue
  cases c <;> rfl

theorem frameOut_portOf (u : State) (a b q : Nat) (c : Bool) : portOf (frameOut u a b c) q = portOf u q := by
  unfold portOf; rw [(frameOut_frame u a b c).1]

theorem setPort_portOf (u : State) (p q : Nat) (x : PortState) : portOf (setPort u p x) q = if q = p then x else portOf u q := by
      unfold portOf setPort; dsimp only
      by_cases h : q = p
      · subst h; simp
      · rw [kgetD_kset_ne _ _ _ h, if_neg h]

theorem bump_portOf (s : State) (a q : Nat) : portOf (bump s a) q = portOf s q := rfl

theorem abortHead_frame (s : State) (p q : Nat) : (portOf (abortHead s p) q).up = (portOf s q).up ∧ (abortHead s p).rst = s.rst
    ∧ (abortHead s p).cold = s.cold ∧ (abortHead s p).deck.contract = s.deck.contract := by
  unfold abortHead
  dsimp only
  split
  · exact ⟨rfl, rfl, rfl, rfl⟩
  · rename_i e rest hx
    have a : (portOf (setPort (bump s (aPortCtr p 30)) p { portOf s p with txq := rest }) q).up = (portOf s q).up := by
      rw [setPort_portOf]
      by_cases h : q = p
      · subst h; rw [if_pos rfl]
      · rw [if_neg h, bump_portOf]
    split
    · exact ⟨a, rfl, rfl, rfl⟩
    · obtain ⟨f1, f2, f3⟩ := frameOut_frame (setPort (bump s (aPortCtr p 30)) p { portOf s p with txq := rest }) e.pkt.queue e.frame (pktEpoch e.pkt)
      refine ⟨?_, by rw [f2]; rfl, by rw [f3]; rfl, by rw [frameOut_contract]; rfl⟩
      rw [frameOut_portOf]; exact a

/-- A port as its link goes down (R104, R105). -/
theorem linkDownOp_up {s : State} {p : Nat} (h : (portOf s p).up = true) :
    linkDownOp s p = setPort (bump s (aPortCtr p 34)) p { portOf s p with
      up := false, anState := b2n (portStarted s p && portAn s p), xoff := 0, paused := [] } := by
  have e : ∀ x : PortState, portStarted (setPort (bump s (aPortCtr p 34)) p x) p = portStarted s p := by
    intro x
    unfold portStarted portShut portCtl
    rw [show regRaw (setPort (bump s (aPortCtr p 34)) p x) (aPort p) 1 = regRaw s (aPort p) 1 from
      regRaw_bump_ne (s := s) (a := aPortCtr p 34) 1 (by unfold aPortCtr aPort; omega)]
    rfl
  have f : ∀ x : PortState, portAn (setPort (bump s (aPortCtr p 34)) p x) p = portAn s p := fun _ => rfl
  unfold linkDownOp
  dsimp only
  rw [if_pos h]
  unfold settleAn
  dsimp only
  rw [setPort_portOf, if_pos rfl, e, f]
  cases portStarted s p && portAn s p
  · rfl
  · unfold setPort b2n
    simp [kset_kset]

theorem linkDownOp_frame (s : State) (p q : Nat) : (portOf (linkDownOp s p) q).up = (if q = p then false else (portOf s q).up)
    ∧ (linkDownOp s p).rst = s.rst ∧ (linkDownOp s p).cold = s.cold ∧ (linkDownOp s p).deck = s.deck := by
  by_cases hu : (portOf s p).up = true
  · rw [linkDownOp_up hu]
    refine ⟨?_, rfl, rfl, rfl⟩
    rw [setPort_portOf]
    by_cases h : q = p
    · rw [if_pos h, if_pos h]
    · rw [if_neg h, if_neg h, bump_portOf]
  · rw [show linkDownOp s p = s from if_neg hu]
    refine ⟨?_, rfl, rfl, rfl⟩
    by_cases h : q = p
    · subst h; simpa using hu
    · rw [if_neg h]

theorem linkLost_ports (s : State) (p q : Nat) : (portOf (linkLost s p) q).up = (if q = p then false else (portOf s q).up)
    ∧ (linkLost s p).rst = s.rst ∧ (linkLost s p).cold = s.cold ∧ (linkLost s p).deck.contract = s.deck.contract := by
  unfold linkLost
  split
  · obtain ⟨a1, a2, a3, a4⟩ := abortHead_frame (linkDownOp s p) p q
    obtain ⟨b1, b2, b3, b4⟩ := linkDownOp_frame s p q
    exact ⟨by rw [a1, b1], by rw [a2, b2], by rw [a3, b3], by rw [a4, b4]⟩
  · rename_i hu
    refine ⟨?_, rfl, rfl, rfl⟩
    by_cases h : q = p
    · subst h; simp at hu; simp [hu]
    · rw [if_neg h]

theorem isPort_cold {s t : State} (h : t.cold = s.cold) (h2 : t.deck.contract = s.deck.contract) (p : Nat) : isPort t p = isPort s p := by
  unfold isPort hasDeck portStart laneMode laneByte octetF coldF coldBody; rw [h, h2]

theorem dropLinks_up (s : State) (f : Nat → Bool) (q : Nat) :
    (portOf (dropLinks s f) q).up = (if isPort s q && f q then false else (portOf s q).up) ∧ (dropLinks s f).rst = s.rst := by
  unfold dropLinks
  have key : ∀ (l : List Nat) (u : State), u.cold = s.cold → u.deck.contract = s.deck.contract →
      (portOf (l.foldl (fun s k => if (isPort s k && f k) = true then linkLost s k else s) u) q).up
        = (if q ∈ l ∧ (isPort s q && f q) = true then false else (portOf u q).up)
      ∧ (l.foldl (fun s k => if (isPort s k && f k) = true then linkLost s k else s) u).rst = u.rst := by
    intro l
    induction l with
    | nil => intro u _ _; simp
    | cons k r ih =>
      intro u hu hv
      rw [List.foldl_cons]
      rw [isPort_cold hu hv]
      by_cases hk : (isPort s k && f k) = true
      · rw [if_pos hk]
        obtain ⟨a1, a2, a3, a4⟩ := linkLost_ports u k q
        obtain ⟨b1, b2⟩ := ih (linkLost u k) (by rw [a3, hu]) (by rw [a4, hv])
        refine ⟨?_, by rw [b2, a2]⟩
        rw [b1, a1]
        by_cases hq : q = k
        · subst hq; simp [hk]
        · simp [hq]
      · rw [if_neg hk]
        obtain ⟨b1, b2⟩ := ih u hu hv
        refine ⟨?_, b2⟩
        rw [b1]
        by_cases hq : q = k
        · subst hq; simp [hk]
        · simp [hq]
  obtain ⟨k1, k2⟩ := key (List.range 256) s rfl rfl
  refine ⟨?_, k2⟩
  rw [k1]
  by_cases hp : (isPort s q && f q) = true
  · have : q < 256 := by
      unfold isPort portStart at hp; simp at hp; omega
    simp [hp, this]
  · simp [hp]

theorem setOcc_occ (s : State) (p c n k : Nat) (h : n ≠ 0) : kget (setOcc s p c n).occ k = if k = 8 * p + c then some n else kget s.occ k := by
  unfold setOcc
  rw [if_neg h]
  dsimp only
  exact kget_kset _ _ _ _

theorem raiseHigh_frame (s : State) (k v : Nat) : (raiseHigh s k v).occ = s.occ ∧ (raiseHigh s k v).rb = s.rb ∧ (raiseHigh s k v).regs = s.regs
    ∧ (raiseHigh s k v).clk = s.clk ∧ (raiseHigh s k v).time = s.time ∧ (raiseHigh s k v).cold = s.cold := by
  unfold raiseHigh; split <;> exact ⟨rfl, rfl, rfl, rfl, rfl, rfl⟩

theorem stampNow_congr {s t : State} (h1 : t.regs = s.regs) (h2 : t.time = s.time) (h3 : t.cold = s.cold) (p : Nat) (b : Bool) :
    stampNow t p b = stampNow s p b := by
  have c : ∀ i o n, tiR t i o n = tiR s i o n := by intro i o n; unfold tiR coldF coldBody; rw [h3]
  have d : timeCount t = timeCount s := by unfold timeCount coldBody; rw [h3]
  have m : ∀ p, laneMode t p = laneMode s p := by intro p; unfold laneMode laneByte octetF coldF coldBody; rw [h3]
  unfold stampNow stampAdj now16 calRec timeFind regRaw
  simp only [c, d, m, h1, h2]

theorem sendFc_pfc (s : State) (p : Nat) (cs : List (Nat × Nat)) (h : portFc s p = 2) :
    ∃ r, sendFc s p cs = { s with regs := r, sent := s.sent ++ [.flowControl p (portMac s p)
      (some (BitVec.ofNat 8 ((cs.map fun x => 2 ^ x.1).sum)))
      ((List.range 8).map fun c => match cs.find? (·.1 == c) with | some x => x.2 | none => 0)] } := by
  have hr := SameButRegs.foldl (f := fun s (x : Nat × Nat) => bump s (aPortCtr p (20 + x.1))) (fun _ _ => rfl) cs s
  have hm : portMac (cs.foldl (fun s (x : Nat × Nat) => bump s (aPortCtr p (20 + x.1))) s) p = portMac s p := by
    unfold portMac
    have : ∀ (l : List (Nat × Nat)) (t : State) d, regRaw (l.foldl (fun s (x : Nat × Nat) => bump s (aPortCtr p (20 + x.1))) t) (aPort p + 0x10) d = regRaw t (aPort p + 0x10) d := by
      intro l t d
      refine foldl_keeps (fun t : State => regRaw t (aPort p + 0x10) d) ?_ l t
      intro t x
      exact regRaw_bump_ne _ (by unfold aPortCtr; omega)
    unfold SameButRegs at hr
    rw [this]
    rw [hr]
  refine ⟨(cs.foldl (fun s (x : Nat × Nat) => bump s (aPortCtr p (20 + x.1))) s).regs, ?_⟩
  unfold sendFc
  have : (portFc s p == 1) = false := by rw [h]; rfl
  rw [this, if_neg (by simp)]
  dsimp only
  rw [hm]
  unfold SameButRegs at hr
  rw [hr]
  all_goals rfl

theorem sendFc_pause (s : State) (p : Nat) (cs : List (Nat × Nat)) (h : portFc s p = 1) :
    sendFc s p cs = { bump s (aPortCtr p 11) with sent := s.sent ++ [.flowControl p (portMac s p) none (cs.map (·.2))] } := by
  unfold sendFc
  have : (portFc s p == 1) = true := by rw [h]; rfl
  rw [this, if_pos rfl]
  dsimp only
  have : portMac (bump s (aPortCtr p 11)) p = portMac s p := by
    unfold portMac
    rw [regRaw_bump_ne _ (by unfold aPortCtr; omega)]; rfl
  rw [this]; rfl

theorem find_pairs (on off : List Nat) (c : Nat) :
    (match ((on.map (fun c => (c, 0xFFFF)) ++ off.map fun c => (c, 0) : List (Nat × Nat)).find? (·.1 == c)) with | some x => x.2 | none => 0)
      = if on.contains c then 0xFFFF else 0 := by
  induction on with
  | nil =>
    simp only [List.map_nil, List.nil_append, List.contains_nil, Bool.false_eq_true, if_false]
    induction off with
    | nil => rfl
    | cons x r ih =>
      rw [List.map_cons, List.find?_cons]
      by_cases h : x = c
      · subst h; simp
      · simp only [beq_eq_false_iff_ne.mpr h]; exact ih
  | cons x r ih =>
    rw [List.map_cons, List.cons_append, List.find?_cons]
    by_cases h : x = c
    · subst h; simp
    · simp only [beq_eq_false_iff_ne.mpr h, ih]
      have : (x :: r).contains c = r.contains c := by simp [Ne.symm h]
      rw [this]

theorem potRemove_gone (s : State) (q id : Nat) : potFrame (potRemove s q id) q id = none := by
  have sh : ∀ (u : State) (p : Nat), (settleHolds u p).queues = u.queues := by
    intro u p
    unfold settleHolds
    first | rfl | (dsimp only; split <;> rfl)
  have q1 : ∀ (u : State) (x : PQueue), queueOf (setQueue u q x) q = x := by
    intro u x; unfold queueOf setQueue; simp
  unfold potRemove noteDepth potFrame
  dsimp only
  have : ∀ u p, queueOf (settleHolds u p) q = queueOf u q := by intro u p; unfold queueOf; rw [sh]
  rw [this, q1, q1]
  dsimp only
  rw [List.find?_eq_none]
  intro f hf
  have := (List.mem_filter.mp hf).2
  simpa using this

theorem confFrame_frame (s : State) (port : Nat) (p : Pkt) (len : Nat) : (confFrame s port p len).sent = s.sent
    ∧ (confFrame s port p len).ports = s.ports ∧ (confFrame s port p len).queues = s.queues := by
  unfold confFrame
  dsimp only
  repeat' split
  all_goals exact ⟨rfl, rfl, rfl⟩

theorem noteTx_frame (s : State) (port : Nat) (p : Pkt) (f : List Byte) : (noteTx s port p f).sent = s.sent
    ∧ (portOf (noteTx s port p f) port).txq = (portOf s port).txq ∧ (noteTx s port p f).queues = s.queues := by
  obtain ⟨u, hu⟩ : ∃ u, u = if bit (cw p 7) 19 && decide (Int.ofNat (tiF s 28 2) < sint 40 (stampNow s port true + 2 ^ 40 - pktLaunch p % 2 ^ 40)) then bump s (aTimeCtr 0) else s := ⟨_, rfl⟩
  have uf : u.sent = s.sent ∧ u.ports = s.ports ∧ u.queues = s.queues := by rw [hu]; split <;> exact ⟨rfl, rfl, rfl⟩
  unfold noteTx
  dsimp only
  rw [← hu]
  split
  · have r : ∀ (x : State) k v, (raiseHigh x k v).sent = x.sent ∧ (raiseHigh x k v).ports = x.ports ∧ (raiseHigh x k v).queues = x.queues := by
      intro x k v; unfold raiseHigh; split <;> exact ⟨rfl, rfl, rfl⟩
    refine ⟨?_, ?_, ?_⟩
    · rw [(r _ _ _).1]; exact uf.1
    · unfold portOf
      rw [(r _ _ _).2.1]
      unfold setPort
      dsimp only
      rw [kgetD_kset_same, uf.2.1]
    · rw [(r _ _ _).2.2]; exact uf.2.2
  · exact ⟨uf.1, by unfold portOf; rw [uf.2.1], uf.2.2⟩

theorem dropUntaken_frame (s : State) (h : Nat) : (dropUntaken s h).rst = s.rst ∧ (dropUntaken s h).rb = kdel s.rb h ∧ (dropUntaken s h).zat = s.zat
    ∧ (dropUntaken s h).tricks = s.tricks ∧ (dropUntaken s h).pkts = s.pkts ∧ (dropUntaken s h).stock = s.stock
    ∧ keepFixed s (dropUntaken s h) = dropUntaken s h ∧ (kgetD s.rb h [] = [] → dropUntaken s h = { s with rb := kdel s.rb h }) := by
  have fr : ∀ (l : List RbFrame) (t : State), ∃ o r, l.foldl (fun s f => freeOcc (bump s (aPortCtr f.port 9)) f.port f.cls f.entries) t = { t with occ := o, regs := r } := by
    intro l
    induction l with
    | nil => intro t; exact ⟨t.occ, t.regs, rfl⟩
    | cons f l ih =>
      intro t
      obtain ⟨o, r, e⟩ := ih (freeOcc (bump t (aPortCtr f.port 9)) f.port f.cls f.entries)
      exact ⟨o, r, by rw [List.foldl_cons, e]; rfl⟩
  obtain ⟨o, r, e⟩ := fr (kgetD s.rb h []) { s with rb := kdel s.rb h }
  have d : dropUntaken s h = { s with occ := o, regs := r, rb := kdel s.rb h } := by
    unfold dropUntaken
    rw [e]
  rw [d]
  refine ⟨rfl, rfl, rfl, rfl, rfl, rfl, rfl, ?_⟩
  intro hn
  rw [← d]
  unfold dropUntaken
  rw [hn]
  rfl

theorem frameOut_rest (s : State) (q id : Nat) (e : Bool) : (frameOut s q id e).regs = s.regs ∧ (frameOut s q id e).zat = s.zat ∧ (frameOut s q id e).rst = s.rst
    ∧ keepFixed s (frameOut s q id e) = frameOut s q id e ∧ (queueOf (frameOut s q id e) q).frames = (queueOf s q).frames.filter (·.id != id) := by
  have nd : ∀ u : State, ∃ m h, noteDepth u q = { u with queues := m, holds := h } ∧ (queueOf { u with queues := m, holds := h } q).frames = (queueOf u q).frames := by
    intro u
    unfold noteDepth
    refine ⟨_, _, rfl, ?_⟩
    show PQueue.frames (kgetD (kset _ _ _) _ _) = _
    rw [kgetD_kset_same]
  obtain ⟨m, h, e1, e2⟩ := nd (setQueue s q { queueOf s q with frames := (queueOf s q).frames.filter (·.id != id) })
  have e3 : frameOut s q id e = flightDown { setQueue s q { queueOf s q with frames := (queueOf s q).frames.filter (·.id != id) } with queues := m, holds := h } e := by
    unfold frameOut potRemove
    dsimp only
    rw [e1]
  rw [e3]
  refine ⟨by cases e <;> rfl, by cases e <;> rfl, by cases e <;> rfl, by cases e <;> rfl, ?_⟩
  have q1 : ∀ v : State, queueOf (flightDown v e) q = queueOf v q := fun v => by cases e <;> rfl
  rw [q1, e2]
  show PQueue.frames (kgetD (kset _ _ _) _ _) = _
  rw [kgetD_kset_same]

theorem settleAn_port (s : State) (p : Nat) : ∃ P, settleAn s p = { s with ports := P }
    ∧ ∀ q, portOf { s with ports := P } q = if q = p then anSettled s p else portOf s q := by
  unfold settleAn anSettled
  dsimp only
  generalize hx : portOf s p = x
  have e : (if (!(portStarted s p && portAn s p)) = true then 0 else if x.anState = 3 then 3 else 1)
      = if (portStarted s p && portAn s p) = true then (if x.anState = 3 then 3 else 1) else 0 := by
    cases portStarted s p && portAn s p <;> rfl
  rw [e]
  generalize (if (portStarted s p && portAn s p) = true then (if x.anState = 3 then 3 else 1) else 0) = n
  cases hu : x.up
  · by_cases hn : n = x.anState
    · refine ⟨s.ports, by simp [hn], fun q => ?_⟩
      split
      · next h => rw [h, hn, if_neg (by simp), ← hu]; exact hx
      · rfl
    · refine ⟨_, by rw [if_neg (by simp [hn])]; rfl, fun q => ?_⟩
      unfold portOf
      dsimp only
      split
      · next h => rw [h, kgetD_kset_same]; simp [hu]
      · next h => rw [kgetD_kset_ne _ _ _ h]
  · refine ⟨s.ports, by simp, fun q => ?_⟩
    split
    · next h => rw [h]; exact hx
    · rfl

theorem anSettled_same {s : State} {P : KMap PortState} {q : Nat} (h : portOf { s with ports := P } q = portOf s q) :
    anSettled { s with ports := P } q = anSettled s q := by
  have st : portStarted { s with ports := P } q = portStarted s q ∧ portAn { s with ports := P } q = portAn s q := ⟨rfl, rfl⟩
  unfold anSettled
  dsimp only
  rw [h, st.1, st.2]

theorem anSettled_twice {s : State} {P : KMap PortState} {q : Nat} (h : portOf { s with ports := P } q = anSettled s q) :
    anSettled { s with ports := P } q = anSettled s q := by
  have st : portStarted { s with ports := P } q = portStarted s q ∧ portAn { s with ports := P } q = portAn s q := ⟨rfl, rfl⟩
  unfold anSettled at h ⊢
  dsimp only at h ⊢
  rw [h, st.1, st.2]
  by_cases hu : (portOf s q).up = true
  · simp [hu]
  · rw [Bool.not_eq_true] at hu
    cases portStarted s q && portAn s q <;> by_cases h3 : (portOf s q).anState = 3 <;> simp [hu, h3]

/-- Negotiation settles on the ports of a group of lanes. -/
theorem settleAn_fold (k : Nat) (l : List Nat) (s : State) : ∃ P, l.foldl (fun s i => settleAn s (k + i)) s = { s with ports := P }
    ∧ ∀ q, portOf { s with ports := P } q = if ∃ i ∈ l, q = k + i then anSettled s q else portOf s q := by
  induction l generalizing s with
  | nil => exact ⟨s.ports, rfl, fun q => by simp⟩
  | cons i l ih =>
    obtain ⟨P, hP, hp⟩ := settleAn_port s (k + i)
    obtain ⟨P', hP', hp'⟩ := ih { s with ports := P }
    refine ⟨P', by rw [List.foldl_cons, hP, hP'], fun q => (hp' q).trans ?_⟩
    have hq := hp q
    by_cases h2 : q = k + i
    · rw [if_pos (⟨i, by simp, h2⟩ : ∃ j ∈ i :: l, q = k + j)]
      rw [if_pos h2, ← h2] at hq
      split
      · exact anSettled_twice hq
      · exact hq
    · rw [if_neg h2] at hq
      have e : (∃ j ∈ i :: l, q = k + j) ↔ ∃ j ∈ l, q = k + j :=
        ⟨fun ⟨j, a, b⟩ => (List.mem_cons.1 a).elim (fun c => absurd (c ▸ b) h2) fun c => ⟨j, c, b⟩, fun ⟨j, a, b⟩ => ⟨j, by simp [a], b⟩⟩
      simp only [e]
      split
      · exact anSettled_same hq
      · exact hq

end Sys2Proof.Machine
end

