-- ==== Sys2Proof/Laws/Time.lean ====
section
/-!
SUPPORT. The time unit: what activating gate lists, stepping the timebase and a time transaction change (13_time_and_launch.md R290 to R315).
-/
namespace Sys2Proof.Machine

open Sys2Proof

theorem activate_frame (s : State) (e : Bool) (k : Nat) : ∃ g a b y,
    activate s e k = { s with time := { s.time with gates := g, lateList := a, late := b }, sets := y } := by
  unfold activate
  split
  · exact ⟨s.time.gates, s.time.lateList, s.time.late, s.sets, rfl⟩
  · split
    · exact ⟨s.time.gates, s.time.lateList, s.time.late, s.sets, rfl⟩
    · dsimp only
      split <;> exact ⟨_, _, _, _, rfl⟩

theorem gates_fold (s : State) (l : List Nat) : ∃ g a b y, l.foldl (fun s k => activate s (curSlot s) k) s
    = { s with time := { s.time with gates := g, lateList := a, late := b }, sets := y } := by
  induction l generalizing s with
  | nil => exact ⟨s.time.gates, s.time.lateList, s.time.late, s.sets, rfl⟩
  | cons k l ih =>
    obtain ⟨g', a', b', y', h'⟩ := activate_frame s (curSlot s) k
    obtain ⟨g, a, b, y, h⟩ := ih (activate s (curSlot s) k)
    refine ⟨g, a, b, y, ?_⟩
    rw [List.foldl_cons, h, h']

/-- A step of the timebase starts the gate lists anew and leaves every other part of the machine alone (R312). -/
theorem activateAll_frame (s : State) : ∃ g a b p y, activateAll s
    = { s with time := { s.time with gates := g, lateList := a, late := b }, ports := p, sets := y, coreTime := [] } := by
  unfold activateAll
  dsimp only
  obtain ⟨g, a, b, y, h⟩ := gates_fold (stopGates s) (gateLists (hotBody s (curSlot s) tyGates).length (hotBody s (curSlot s) tyGates) 0)
  exact ⟨g, a, b, _, y, by rw [h]; rfl⟩

theorem setGates_frame (s : State) (p v : Nat) : ∃ h, setGates s p v = { s with coreTime := s.coreTime ++ [(p, v)], high := h } := by
  unfold setGates raiseHigh
  dsimp only
  split
  · exact ⟨_, rfl⟩
  · exact ⟨s.high, rfl⟩

theorem sendTimeWord_frame (s : State) : ∃ x h c, sendTimeWord s = { s with xq := x, high := h, coreTime := c } := by
  have f : ∀ (w : List Byte) (l : List Nat) (s : State), ∃ x h, l.foldl (fun s n => cross s (64 + n) 16 [w]) s = { s with xq := x, high := h } := by
    intro w l
    induction l with
    | nil => intro s; exact ⟨s.xq, s.high, rfl⟩
    | cons n l ih =>
      intro s
      obtain ⟨x, h, e⟩ := cross_frame s (64 + n) 16 [w]
      obtain ⟨x', h', e'⟩ := ih (cross s (64 + n) 16 [w])
      exact ⟨x', h', by rw [List.foldl_cons, e', e]⟩
  unfold sendTimeWord
  dsimp only
  obtain ⟨x, h, e⟩ := f (toBytes 8 (nowNs s)) (List.range 32) s
  rw [e]
  split
  · obtain ⟨h', e'⟩ := setGates_frame { s with xq := x, high := h } 256 (now40 { s with xq := x, high := h })
    exact ⟨x, h', _, e'⟩
  · exact ⟨x, h, s.coreTime, rfl⟩

/-- A step of the timebase: what it loads, and what it leaves (R295, R296). -/
theorem stepTo_frame (s : State) (base k : Nat) : ∃ g a b p e r y c q x h, stepTo s base k = { s with
    time := { s.time with base := base, valid := true, steppedBy := k, unlocked := false, alarm := false, lastEdge := e, edgeRef := r,
                          gates := g, lateList := a, late := b },
    ports := p, sets := y, coreTime := c, queues := q, xq := x, high := h } := by
  have u : ∀ s : State, ∃ q, unlaunch s = { s with queues := q } := fun _ => ⟨_, rfl⟩
  unfold stepTo
  dsimp only
  generalize (s.time.lastEdge.map fun x => x + (Int.ofNat base / 2 ^ 40 - Int.ofNat s.time.base / 2 ^ 40)) = e
  generalize nearNs base = r
  obtain ⟨q, hq⟩ := u { s with
    time := { s.time with base := base, valid := true, steppedBy := k, unlocked := false, alarm := false, lastEdge := e, edgeRef := r } }
  rw [hq]
  obtain ⟨g, a, b, p, y, h⟩ := activateAll_frame { s with
    time := { s.time with base := base, valid := true, steppedBy := k, unlocked := false, alarm := false, lastEdge := e, edgeRef := r },
    queues := q }
  rw [h]
  obtain ⟨x, i, c, w⟩ := sendTimeWord_frame { s with
    time := { s.time with base := base, valid := true, steppedBy := k, unlocked := false, alarm := false, lastEdge := e, edgeRef := r,
                          gates := g, lateList := a, late := b },
    ports := p, sets := y, coreTime := [], queues := q }
  exact ⟨g, a, b, p, e, r, y, c, q, x, i, w⟩

/-- The state of the time unit after a TIME SET (R297). -/
def setHost (t : State) : State := { t with time := { t.time with state := .hostSet } }

theorem hostSet_eq (s : State) (sec ns fr : Nat) : hostSet s sec ns fr = setHost (stepTo s ((sec * 10 ^ 9 + ns) * 2 ^ 48 + fr * 2 ^ 32) 2) := rfl


theorem setHost_frame (s : State) (k : Nat) : ∃ x p y c q z h,
    setHost (stepTo s k 2) = { s with time := x, ports := p, sets := y, coreTime := c, queues := q, xq := z, high := h }
    ∧ x.base = k
    ∧ x.valid = true ∧ x.state = .hostSet ∧ x.steppedBy = 2 ∧ x.unlocked = false ∧ x.utcOff = s.time.utcOff ∧ x.rate = s.time.rate := by
  obtain ⟨g, a, b, p, e, r, y, c, q, x, i, h⟩ := stepTo_frame s k 2
  refine ⟨{ s.time with base := k, valid := true, steppedBy := 2, unlocked := false, alarm := false, lastEdge := e, edgeRef := r,
                        gates := g, lateList := a, late := b, state := .hostSet }, p, y, c, q, x, i, ?_, rfl, rfl, rfl, rfl, rfl, rfl, rfl⟩
  rw [h]
  rfl

theorem hostSet_frame (s : State) (sec ns fr : Nat) : ∃ x p y c q z h,
    hostSet s sec ns fr = { s with time := x, ports := p, sets := y, coreTime := c, queues := q, xq := z, high := h }
    ∧ x.base = (sec * 10 ^ 9 + ns) * 2 ^ 48 + fr * 2 ^ 32
    ∧ x.valid = true ∧ x.state = .hostSet ∧ x.steppedBy = 2 ∧ x.unlocked = false ∧ x.utcOff = s.time.utcOff ∧ x.rate = s.time.rate :=
  hostSet_eq s sec ns fr ▸ setHost_frame s _

theorem fld_at (p a c : List Byte) {off n x : Nat} (e : p = a ++ (toBytes n x ++ c)) (ho : a.length = off) (hx : x < 256 ^ n) : fld p off n = x := by
  rw [e, fld_mid a c ho, Nat.mod_eq_of_lt hx]

theorem opTime_answers {s t : State} {n f need st : Nat} {d x : List Byte} (h : ready s n 0) (hf : timeLevel f = need)
    (hl : levelOf s n < need → st = stPrivilege ∧ x = [] ∧ t = s)
    (hr : need ≤ levelOf s n → opTime s n ⟨0x40, 0, f, d⟩ = .done st f x t) (hz : t.zat.sessions = s.zat.sessions) :
    direct s n ⟨0x40, 0, f, d⟩ opTime = answer t n 0x40 f st x := by
  refine direct_done (x := ⟨0x40, 0, f, d⟩) h.2.1 ?_ hz
  by_cases c : levelOf s n < need
  · obtain ⟨rfl, rfl, rfl⟩ := hl c
    unfold opTime gate
    dsimp only
    rw [hf, if_pos c]; rfl
  · exact hr (by omega)

theorem opTime_run {s : State} {n f : Nat} {d : List Byte} (h : timeLevel f ≤ levelOf s n) : opTime s n ⟨0x40, 0, f, d⟩ =
    if (decide (f < 4) && (d.length == if f = 1 ∨ f = 3 then 16 else 0) && (f != 1 || setOk d) && (f != 3 || leapOk s d)) = true then
      (match f with
        | 0 => .done stOk f (timeData s) s
        | 1 => if mayStep s then .done stOk f [] (hostSet s (fld d 0 6) (fld d 6 4) (fld d 10 2)) else .done stTimeLocked f [] s
        | 2 => .done stOk f [] { s with time := { s.time with unlocked := true } }
        | _ => .done stOk f [] (leapSet s d)) else .done stMalformed f [] s := by
  unfold opTime gate
  dsimp only
  rw [if_neg (by omega)]
  match f with
  | 0 => rfl
  | 1 => rfl
  | 2 => rfl
  | k + 3 => rfl

theorem below {P : Prop} {a b : Nat} (h : a ≤ b) (k : b < a) : P := absurd k (by omega)

theorem startGates_frame (old s : State) (e tgt hot : Bool) : ∃ x y p c,
    startGates old s e tgt hot = { s with time := x, sets := y, ports := p, coreTime := c } := by
  unfold startGates
  dsimp only
  have h : ∀ (l : List Nat) (t : State), ∃ x y, l.foldl (fun t k => if t.time.valid && gateList t tgt k != gateList old e k then activate t tgt k else t) t
      = { t with time := x, sets := y } := by
    intro l
    induction l with
    | nil => intro t; exact ⟨t.time, t.sets, rfl⟩
    | cons k l ih =>
      intro t
      rw [List.foldl_cons]
      split
      · obtain ⟨x, a, b, y, hx⟩ := activate_frame t tgt k
        obtain ⟨x', y', hy⟩ := ih (activate t tgt k)
        exact ⟨x', y', by rw [hy, hx]⟩
      · exact ih t
  obtain ⟨x, y, hx⟩ := h (gateLists (hotBody s tgt tyGates).length (hotBody s tgt tyGates) 0) _
  exact ⟨x, y, _, _, hx⟩

theorem runOf_mem {s : State} {list : Nat} {b : Bool} {r : GateRun} {g : GateList} (h : runOf s list b = some (r, g)) :
    r ∈ s.time.gates ∧ r.list = list ∧ r.running = b ∧ g = r.what := by
  unfold runOf at h
  obtain ⟨x, hm, hx⟩ := List.exists_of_findSome?_eq_some h
  split at hx
  · rename_i c
    simp only [Option.some.injEq, Prod.mk.injEq] at hx
    obtain ⟨rfl, rfl⟩ := hx
    simp at c
    exact ⟨hm, c.1, c.2, rfl⟩
  · simp at hx

/-- The accounts of a clk, and the refreshes that begin in it, touch what observation touches. -/
theorem SameButObs.accounts (s : State) : SameButObs s (accounts s) := by
  have wait : ∀ u e, SameButObs u (waitOne u e) := by
    intro u e
    unfold waitOne
    split
    · exact (SameButObs.refl u).setCnt _
    · exact .refl u
  have back : ∀ d u, SameButObs u (backDealer u d) := by
    intro d u
    unfold backDealer
    refine SameButObs.foldl (fun v e => ?_) _ _
    unfold backOne
    dsimp only
    exact (((SameButObs.perfAcct _ _ _ _).trans (by exact (SameButObs.refl _).setCnt _)).trans (SameButObs.perfEvent _ _ _ _ _)).trans (SameButObs.perfEvent _ _ _ _ _)
  unfold Machine.accounts
  dsimp only
  refine ((SameButObs.foldl (fun u d => back d u) _ s).trans (SameButObs.foldl (fun u m => ?_) _ _)).trans
    (SameButObs.foldl (fun u e => wait u e) _ _)
  unfold clockCounter
  dsimp only
  split
  · refine SameButObs.foldl (fun v d => ?_) _ _
    split <;> split <;> first | exact .refl _ | exact SameButObs.perfCount ..
  · exact .refl _

theorem SameButObs.refreshes (s : State) : SameButObs s (refreshes s) := by
  unfold Machine.refreshes
  refine SameButObs.foldl (fun v x => ?_) _ _
  unfold hbmRefreshOp
  split
  · exact SameButObs.trans (t := { v with hbmc := { v.hbmc with refAt := kset v.hbmc.refAt x v.clk } }) rfl (SameButObs.bump _ _)
  · exact .refl _

/-- A step on an empty queue is a clk, with the release of a pipeline that is held until then. -/
theorem step_clk {s : State} (hp : s.pending = []) :
    ∃ v, step s = .next (keepFixed v (timeTick (if s.clk + 1 = s.rst.heldTill then releasePipe v else v))) ∧ ∃ u, SameButObs s u ∧ v = tick u := by
  obtain ⟨u, hu⟩ : ∃ u, u = Machine.accounts (Machine.refreshes s) := ⟨_, rfl⟩
  have su : SameButObs s u := by rw [hu]; exact (SameButObs.refreshes s).trans (SameButObs.accounts _)
  have f : (tick u).clk = s.clk + 1 ∧ (tick u).rst.heldTill = s.rst.heldTill := by
    have su' := su
    unfold SameButObs at su'
    have c : ∀ v : State, (tick v).clk = v.clk + 1 ∧ (tick v).rst = v.rst := by
      intro v
      unfold tick
      dsimp only
      split
      · exact ⟨rfl, rfl⟩
      · split <;> exact ⟨rfl, rfl⟩
    rw [(c u).1, (c u).2, su']
    exact ⟨rfl, rfl⟩
  refine ⟨tick u, ?_, u, su, rfl⟩
  unfold step
  rw [hp]
  show Host.Outcome.next (tickAll s) = _
  unfold tickAll
  dsimp only
  rw [← hu, f.1, f.2]

/-- A step on an empty queue in which no pipeline is released. -/
theorem step_idle {s : State} (hp : s.pending = []) (hr : s.clk + 1 ≠ s.rst.heldTill) :
    ∃ v, step s = .next (keepFixed v (timeTick v)) ∧ ∃ u, SameButObs s u ∧ v = tick u := by
  obtain ⟨v, h, hv⟩ := step_clk hp
  rw [if_neg hr] at h
  exact ⟨v, h, hv⟩

end Sys2Proof.Machine
end

