-- ==== Sys2Proof/Laws/Load.lean ====
section
/-!
SUPPORT. Deck loads, redeals and L3s: what reading an image leaves alone, and what the pipeline, the deck's own state and the cold segments hold
after an application (03_deck.md R44 to R65; 17_reset_power_and_kitty.md R387, R388).
-/
namespace Sys2Proof.Machine

open Sys2Proof

theorem SameButHbm.readImage (s : State) (b : Nat) (skip : Bool) : SameButHbm s (readImage s b skip).1 := by
  unfold Sys2Proof.Machine.readImage
  dsimp only
  have k : ∀ u src o m, SameButHbm s u → SameButHbm s (Sys2Proof.Machine.hbmRead u src o m).1 := fun u src o m h => h.trans (SameButHbm.hbmRead u src o m)
  repeat' split
  all_goals
    repeat apply k
  all_goals exact SameButHbm.refl s

theorem SameButHbm.loadImage (s : State) (b : Nat) (skip : Bool) : SameButHbm s (loadImage s b skip).1 := by
  have h := SameButHbm.readImage s b skip
  unfold Sys2Proof.Machine.loadImage
  dsimp only
  repeat' split
  all_goals first | exact h | rfl

theorem SameButHbm.hotFail (s : State) (i : Img) : SameButHbm s (hotFail s i).1 := by
  have h := SameButHbm.loadImage s (deckArea s false) true
  unfold Sys2Proof.Machine.hotFail
  repeat' split
  all_goals first | rfl | exact h | skip
  all_goals
    dsimp only
    repeat' split
  all_goals first | rfl | exact h

theorem kittyIdentity_frame (s : State) : ∃ x, kittyIdentity s = { s with kitty := x } := ⟨_, rfl⟩

theorem fillBuckets_frame (s : State) : ∃ x, fillBuckets s = { s with buckets := x } := ⟨_, rfl⟩

/-- What the application of a deck leaves alone: the packets and tasks in the pipeline. -/
def coreOf (s : State) := (s.tricks, s.pkts, s.stock, s.tasks, s.suits, s.rb)

theorem coreOf_hbm {s t : State} (h : SameButHbm s t) : coreOf t = coreOf s := by
  unfold SameButHbm at h; rw [h]; rfl

theorem coreOf_foldl {α : Type} {f : State → α → State} (h : ∀ s x, coreOf (f s x) = coreOf s) (l : List α) (s : State) :
    coreOf (l.foldl f s) = coreOf s := foldl_keeps coreOf h l s

theorem coreOf_loadImage (s : State) (b : Nat) (skip : Bool) : coreOf (loadImage s b skip).1 = coreOf s :=
  coreOf_hbm (SameButHbm.loadImage s b skip)

theorem coreOf_placeDeck (s : State) (e : Bool) (i : Img) : coreOf (placeDeck s e i) = coreOf s := by
  unfold placeDeck putCold putHot dealRows
  rfl

theorem coreOf_laneSettle (s : State) (l : Nat) : coreOf (laneSettle s l) = coreOf s := rfl

theorem coreOf_settleDeck (s : State) : coreOf (settleDeck s) = coreOf s := by
  unfold settleDeck
  have k : ∀ t, coreOf (kittyIdentity t) = coreOf t := fun t => by
    obtain ⟨x, hx⟩ := kittyIdentity_frame t
    rw [hx]
    rfl
  have f : coreOf (fillBuckets s) = coreOf s := by
    obtain ⟨x, hx⟩ := fillBuckets_frame s
    rw [hx]
    rfl
  rw [k]
  unfold loadPortCtl
  dsimp only
  rw [coreOf_foldl coreOf_laneSettle, coreOf_foldl, f]
  intro s p
  split
  · split <;> rfl
  · rfl

theorem coreOf_endFolds (s : State) : coreOf (endFolds s) = coreOf s := rfl

theorem coreOf_reapply (s : State) (e : Bool) : coreOf (reapply s e) = coreOf s := by
  have h := coreOf_loadImage s (deckArea s false) true
  unfold reapply
  dsimp only
  split
  · rw [coreOf_settleDeck, coreOf_placeDeck, h]
  · exact h

/-- After an L3 nothing is left in the pipeline. -/
theorem coreOf_runL3 (s : State) : coreOf (runL3 s) = ([], [], [], [], [], []) := by
  have h : coreOf (l3Begin s) = ([], [], [], [], [], []) := rfl
  unfold runL3
  dsimp only
  have hold : ∀ u t, coreOf (holdPipe u t) = coreOf t := fun _ _ => rfl
  rw [hold]
  rw [coreOf_endFolds]
  split
  · exact (coreOf_reapply ..).trans h
  · exact h

theorem l3From_facts (s : State) (src : Nat) (f : State → State) (h : earlyStep s = false) (hh : held s = false) :
    ∃ u, l3From s src f = u ∧ u.rst.lastLevel = 3 ∧ u.rst.lastSrc = src ∧ u.rst.lastTime = now40 s
      ∧ u.rst.cause = s.rst.cause ||| BitVec.ofNat 8 (2 ^ src) ∧ coreOf u = ([], [], [], [], [], []) := by
  have g : ∀ v t : State, (keepLast v t).rst.lastLevel = v.rst.lastLevel ∧ (keepLast v t).rst.lastSrc = v.rst.lastSrc
      ∧ (keepLast v t).rst.lastTime = v.rst.lastTime ∧ (keepLast v t).rst.cause = v.rst.cause ∧ coreOf (keepLast v t) = coreOf t :=
    fun v t => ⟨rfl, rfl, rfl, rfl, rfl⟩
  obtain ⟨v, hv⟩ : ∃ v, v = kittyCause (noteLast (noteCause s src) 3 src (now40 s)) := ⟨_, rfl⟩
  have e : l3From s src f = keepLast v (runL3 v) := by
    unfold l3From
    rw [h, hh, if_neg (by simp), if_neg (by simp), hv]
  obtain ⟨g1, g2, g3, g4, g5⟩ := g v (runL3 v)
  refine ⟨_, rfl, ?_⟩
  rw [e]
  refine ⟨by rw [g1, hv]; rfl, by rw [g2, hv]; rfl, by rw [g3, hv]; rfl, by rw [g4, hv]; rfl, by rw [g5]; exact coreOf_runL3 v⟩

/-- The deck that is applied and the pipeline that it finds. -/
def dealtOf (s : State) := ((s.tricks, s.pkts, s.stock, s.tasks, s.suits, s.rb), s.cold, s.deck.phase, s.deck.contract, s.deck.number, s.deck.deckId,
  s.deck.current, s.deck.retiring, s.deck.hot, s.deck.source, s.deck.dealt, s.deck.stagedOk)

theorem dealtOf_foldl {α : Type} {f : State → α → State} (h : ∀ s x, dealtOf (f s x) = dealtOf s) (l : List α) (s : State) :
    dealtOf (l.foldl f s) = dealtOf s := foldl_keeps dealtOf h l s

theorem dealtOf_endFolds (s : State) : dealtOf (endFolds s) = dealtOf s := rfl

theorem dealtOf_settleDeck (s : State) : dealtOf (settleDeck s) = dealtOf s := by
  unfold settleDeck
  have k : ∀ t, dealtOf (kittyIdentity t) = dealtOf t := fun t => by
    obtain ⟨x, hx⟩ := kittyIdentity_frame t
    rw [hx]
    rfl
  have f : dealtOf (fillBuckets s) = dealtOf s := by
    obtain ⟨x, hx⟩ := fillBuckets_frame s
    rw [hx]
    rfl
  have l : ∀ (t : State) n, dealtOf (laneSettle t n) = dealtOf t := fun _ _ => rfl
  rw [k]
  unfold loadPortCtl
  dsimp only
  rw [dealtOf_foldl l, dealtOf_foldl, f]
  intro s p
  split
  · split <;> rfl
  · rfl

theorem dealtOf_startGates (old s : State) (e tgt hot : Bool) : dealtOf (startGates old s e tgt hot) = dealtOf s := by
  obtain ⟨_, _, _, _, h⟩ := startGates_frame old s e tgt hot
  rw [h]
  rfl

theorem dealtOf_settleAn (s : State) (p : Nat) : dealtOf (settleAn s p) = dealtOf s := by
  unfold settleAn
  dsimp only
  generalize (if (!(portStarted s p && portAn s p)) = true then 0 else if (portOf s p).anState = 3 then 3 else 1) = n
  split <;> rfl

theorem dealtOf_frameOut (s : State) (q id : Nat) (e : Bool) : dealtOf (frameOut s q id e) = dealtOf s := by
  unfold frameOut flightDown potRemove noteDepth setQueue
  cases e <;> rfl

theorem dealtOf_linkLost (s : State) (p : Nat) : dealtOf (linkLost s p) = dealtOf s := by
  unfold linkLost
  split
  · have d : dealtOf (linkDownOp s p) = dealtOf s := by
      unfold linkDownOp
      dsimp only
      rw [if_pos ‹_›]
      exact dealtOf_settleAn _ _
    rw [← d]
    unfold abortHead
    dsimp only
    split
    · rfl
    · split
      · rfl
      · exact (dealtOf_frameOut ..).trans rfl
  · rfl

theorem dealtOf_startLanes (old s : State) (first : Bool) : dealtOf (startLanes old s first) = dealtOf s := by
  unfold startLanes
  split
  · rfl
  · dsimp only
    have h : ∀ (t : State) p, dealtOf (if portStart old p && ((List.range 256).filter (laneChanged old s)).contains p then linkLost t p else t) = dealtOf t := by
      intro t p
      split
      · exact dealtOf_linkLost ..
      · rfl
    have k := dealtOf_foldl h (List.range 256) s
    obtain ⟨X, hX⟩ : ∃ X, X = (List.range 256).foldl (fun t p => if portStart old p && ((List.range 256).filter (laneChanged old s)).contains p then linkLost t p else t) s := ⟨_, rfl⟩
    rw [← hX] at k ⊢
    rw [dealtOf_foldl dealtOf_settleAn, ← k]
    rfl

theorem dealtOf_closeSess (s : State) (n : Nat) : dealtOf (closeSess s n) = dealtOf s := by
  unfold closeSess
  dsimp only
  split
  · unfold dropRings; split <;> rfl
  · rfl

theorem dealtOf_revoke (s : State) : dealtOf (revoke s) = dealtOf s := by
  unfold revoke closeOver
  dsimp only
  rw [dealtOf_foldl dealtOf_closeSess, dealtOf_foldl dealtOf_closeSess, dealtOf_foldl dealtOf_closeSess]

theorem dealtOf_keptCheck (s : State) : dealtOf (keptCheck s) = dealtOf s := by
  unfold keptCheck
  split
  · dsimp only
    have h : ∀ (t : State) k, dealtOf (freeSlot t k) = dealtOf t := fun t k => by unfold freeSlot; rfl
    have k := dealtOf_foldl h (s.keep.slots.map (·.1)) s
    obtain ⟨X, hX⟩ : ∃ X, X = (s.keep.slots.map (·.1)).foldl freeSlot s := ⟨_, rfl⟩
    rw [← hX]
    rw [show (s.keep.slots.map (·.1)).foldl (fun t k => freeSlot t k) s = X from hX.symm] at k
    rw [← k]
    rfl
  · rfl

theorem dealtOf_loadObs (old s : State) : dealtOf (loadObs old s) = dealtOf s := rfl

theorem dealtOf_loadTime (old s : State) (b : Bool) : dealtOf (loadTime old s b) = dealtOf s := rfl

theorem dealtOf_loadSeeds (s : State) : dealtOf (loadSeeds s) = dealtOf s := rfl

theorem dealtOf_loadPool (old s : State) : dealtOf (loadPool old s) = dealtOf s := by
  unfold loadPool
  split <;> rfl

theorem dealtOf_groupsEnd (s : State) : dealtOf (groupsEnd (setStep s 9)) = dealtOf s := by
  unfold groupsEnd
  split <;> rfl

theorem dealtOf_redeal (old : State) (e : Bool) (i : Img) (src : Nat) : ∃ a, dealtOf (applyRedeal old e i src) = dealtOf a
    ∧ (a.tricks, a.pkts, a.stock, a.tasks, a.suits, a.rb) = (old.tricks, old.pkts, old.stock, old.tasks, old.suits, old.rb)
    ∧ a.cold = (i.segs.filter fun x => !isHotSeg x).foldl (fun m x => kset m x.ty x.body) [] ∧ a.deck.phase = .active ∧ a.deck.contract = coldF a tyContract 0 1
    ∧ a.deck.number = fld i.hdr 0x18 4 ∧ a.deck.deckId = fld i.hdr 0x10 8 ∧ a.deck.current = false ∧ a.deck.retiring = false ∧ a.deck.hot = none
    ∧ a.deck.source = (if src = 3 then old.deck.source else sourceCode src) ∧ a.deck.dealt = true ∧ a.deck.stagedOk = (src == 3 && old.deck.stagedOk) := by
  obtain ⟨b, hb⟩ : ∃ b : State, b = (if (!old.deck.dealt || geomDiffers (coldBody old tyFlowgeom) ((segBody i tyFlowgeom).getD [])) = true then clearTable old (fld ((segBody i tyFlowgeom).getD []) 13 1) else old) := ⟨_, rfl⟩
  have b6 : ((b.tricks, b.pkts, b.stock, b.tasks, b.suits, b.rb), b.deck.source, b.deck.stagedOk)
      = ((old.tricks, old.pkts, old.stock, old.tasks, old.suits, old.rb), old.deck.source, old.deck.stagedOk) := by
    rw [hb]
    split
    · have f : ∀ (l : List Nat) (t : State), ∃ r, l.foldl (fun s st => bumpBy s (aHbmCtr st 4) (nBuckets / 4)) t = { t with regs := r } := by
        intro l
        induction l with
        | nil => intro t; exact ⟨t.regs, rfl⟩
        | cons k l ih => intro t; obtain ⟨r, h⟩ := ih (bumpBy t (aHbmCtr k 4) (nBuckets / 4)); exact ⟨r, by rw [List.foldl_cons, h]; rfl⟩
      obtain ⟨r, h⟩ := f (List.range 4) old
      unfold clearTable
      dsimp only
      rw [h]
    · rfl
  obtain ⟨d, hd⟩ : ∃ d, d = placeDeck b e i := ⟨_, rfl⟩
  have d1 : d.cold = (i.segs.filter fun x => !isHotSeg x).foldl (fun m x => kset m x.ty x.body) []
      ∧ ((d.tricks, d.pkts, d.stock, d.tasks, d.suits, d.rb), d.deck.source, d.deck.stagedOk)
        = ((old.tricks, old.pkts, old.stock, old.tasks, old.suits, old.rb), old.deck.source, old.deck.stagedOk)
      ∧ d.deck.phase = .active ∧ d.deck.contract = coldF d tyContract 0 1 ∧ d.deck.number = fld i.hdr 0x18 4 ∧ d.deck.deckId = fld i.hdr 0x10 8
      ∧ d.deck.current = false ∧ d.deck.retiring = false ∧ d.deck.hot = none := by
    rw [hd, ← b6]
    unfold placeDeck putCold putHot dealRows coldF coldBody
    dsimp only
    exact ⟨rfl, rfl, rfl, rfl, rfl, rfl, rfl, rfl, rfl⟩
  obtain ⟨a, ha⟩ : ∃ a : State, a = { d with deck := { d.deck with upperActive := if src = 3 then d.deck.upperActive else !d.deck.upperActive, source := if src = 3 then d.deck.source else sourceCode src, commits := (d.deck.commits + 1) % 65536, dealt := true, stagedOk := src == 3 && d.deck.stagedOk } } := ⟨_, rfl⟩
  refine ⟨a, ?_, ?_, ?_, ?_, ?_, ?_, ?_, ?_, ?_, ?_, ?_, ?_, ?_⟩
  · have e1 : applyRedeal old e i src = (fun x : State => if x.rst.step = 7 then groupsEnd (setStep x 9) else x)
        (revoke (startLanes old (settleDeck (loadObs old (startGates old (loadTime old (if (!old.deck.dealt) = true then keptCheck (loadSeeds (loadPool old a)) else loadSeeds (loadPool old a)) (!old.deck.dealt)) e false false))) (!old.deck.dealt))) := by
      rw [ha, hd, hb]
      rfl
    rw [e1]
    dsimp only
    have e2 : ∀ x : State, dealtOf (if x.rst.step = 7 then groupsEnd (setStep x 9) else x) = dealtOf x := by
      intro x
      split
      · exact dealtOf_groupsEnd x
      · rfl
    rw [e2, dealtOf_revoke, dealtOf_startLanes, dealtOf_settleDeck, dealtOf_loadObs, dealtOf_startGates, dealtOf_loadTime]
    split
    · rw [dealtOf_keptCheck, dealtOf_loadSeeds, dealtOf_loadPool]
    · rw [dealtOf_loadSeeds, dealtOf_loadPool]
  · rw [← (Prod.mk.inj d1.2.1).1, ha]
  · rw [ha]
    exact d1.1
  · rw [ha]; exact d1.2.2.1
  · have : coldF a tyContract 0 1 = coldF d tyContract 0 1 := by rw [ha]; rfl
    rw [this, ← d1.2.2.2.1, ha]
  · rw [ha]; exact d1.2.2.2.2.1
  · rw [ha]; exact d1.2.2.2.2.2.1
  · rw [ha]; exact d1.2.2.2.2.2.2.1
  · rw [ha]; exact d1.2.2.2.2.2.2.2.1
  · rw [ha]; exact d1.2.2.2.2.2.2.2.2
  · have := (Prod.mk.inj (Prod.mk.inj d1.2.1).2).1
    rw [← this, ha]
  · rw [ha]
  · have := (Prod.mk.inj (Prod.mk.inj d1.2.1).2).2
    rw [← this, ha]

end Sys2Proof.Machine
end

