-- ==== Sys2Proof/Laws/Pot.lean ====
section
/-!
SUPPORT. The pots: which queue an update of one frame changes, what admission, holds and depths leave alone, a whole frame that enters its
queue, the charges of a frame that starts, and the matches of the fabric's planes (11_fabric_and_pots.md R248 to R257; 12 R272 to R286).
-/
namespace Sys2Proof.Machine

open Sys2Proof

theorem queueOf_set (s : State) (q : Nat) (x : PQueue) : queueOf (setQueue s q x) q = x := by
  unfold queueOf setQueue; exact kgetD_kset_same _ _ _ _

/-- `t` is `s` but for queues, holds, counters and free values. -/
def SameButPot (s t : State) : Prop :=
  t = { s with queues := t.queues, holds := t.holds, regs := t.regs, fresh := t.fresh, frameNo := t.frameNo, pkts := t.pkts }

theorem SameButPot.trans {s t u : State} (h : SameButPot s t) (k : SameButPot t u) : SameButPot s u := by
  unfold SameButPot at *
  rw [h] at k
  rw [k]

theorem SameButPot.refl (s : State) : SameButPot s s := rfl

theorem SameButPot.setQueue (s : State) (q : Nat) (x : PQueue) : SameButPot s (setQueue s q x) := rfl

theorem SameButPot.bump (s : State) (a : Nat) : SameButPot s (bump s a) := rfl

theorem SameButPot.modFrame (s : State) (q id : Nat) (f : PotFrame → PotFrame) : SameButPot s (modFrame s q id f) := rfl

theorem SameButPot.settleHolds (s : State) (p : Nat) : SameButPot s (settleHolds s p) := rfl

theorem SameButPot.noteDepth (s : State) (q : Nat) : SameButPot s (noteDepth s q) := by
  unfold Sys2Proof.Machine.noteDepth
  exact SameButPot.trans (SameButPot.setQueue s _ _) (SameButPot.settleHolds _ _)

theorem noteDepth_frames (s : State) (q : Nat) : (queueOf (noteDepth s q) q).frames = (queueOf s q).frames := by
  unfold noteDepth
  dsimp only
  have : ∀ u p, queueOf (settleHolds u p) q = queueOf u q := fun _ _ => rfl
  rw [this, queueOf_set]

theorem modFrame_frames (s : State) (q id : Nat) (f : PotFrame → PotFrame) :
    (queueOf (modFrame s q id f) q).frames = (queueOf s q).frames.map fun w => if w.id = id then f w else w := by
  unfold modFrame
  dsimp only
  rw [queueOf_set]

/-- What keeps a queue's frames and the frame number. -/
def QueueKept (s t : State) (q : Nat) : Prop := SameButPot s t ∧ (queueOf t q).frames = (queueOf s q).frames ∧ t.frameNo = s.frameNo

theorem QueueKept.curveTest (s : State) (q : Nat) (e : Bool) (c w : Nat) : QueueKept s (curveTest s q e c w).2 q := by
  unfold Sys2Proof.Machine.curveTest
  dsimp only
  have h : ∀ x : PQueue, x.frames = (queueOf s q).frames → ∀ a : Nat, QueueKept s (bump (draw (setQueue s q x)).2 a) q ∧ QueueKept s (draw (setQueue s q x)).2 q
      ∧ QueueKept s (setQueue s q x) q := fun x hx a => by
    have : ∀ u : State, u.queues = (setQueue s q x).queues → (queueOf u q).frames = (queueOf s q).frames := by
      intro u hu
      have e : queueOf u q = queueOf (setQueue s q x) q := by unfold queueOf; rw [hu]
      rw [e, queueOf_set, hx]
    exact ⟨⟨rfl, this _ rfl, rfl⟩, ⟨rfl, this _ rfl, rfl⟩, ⟨rfl, this _ rfl, rfl⟩⟩
  repeat' split
  all_goals first
    | (refine (h _ ?_ _).1; rfl)
    | (refine (h _ ?_ 0).2.1; rfl)
    | (refine (h _ ?_ 0).2.2; rfl)

theorem QueueKept.bump {s t : State} {q : Nat} (h : QueueKept s t q) (a : Nat) : QueueKept s (bump t a) q :=
  ⟨h.1.trans rfl, h.2.1, h.2.2⟩

theorem QueueKept.admitPot (s : State) (q : Nat) (hdr : List Byte) : QueueKept s (admitPot s q hdr).2 q := by
  unfold Sys2Proof.Machine.admitPot
  have h := QueueKept.curveTest s q (bit (fld hdr 0 4) 20) (bits (fld hdr 12 4) 4 3) (fld hdr 28 4)
  have r : QueueKept s s q := ⟨rfl, rfl, rfl⟩
  repeat' split
  all_goals first
    | exact r.bump _
    | exact h.bump _
    | exact h
    | (dsimp only; repeat' split)
  all_goals first
    | exact h.bump _
    | exact h

theorem QueueKept.freeCell (s : State) (p q : Nat) : QueueKept s (freeCell s p).2 q := by
  unfold Sys2Proof.Machine.freeCell chooseFree
  dsimp only
  split
  · exact ⟨rfl, rfl, rfl⟩
  · cases kfreeNth _ _ _ _ <;> exact ⟨rfl, rfl, rfl⟩

theorem growCells_frames (k : Nat) (s : State) (q id need : Nat) :
    SameButPot s (growCells k s q id need).1 ∧ (growCells k s q id need).1.frameNo = s.frameNo
    ∧ ∃ c : PotFrame → List Nat, (queueOf (growCells k s q id need).1 q).frames = (queueOf s q).frames.map fun x => { x with cells := c x } := by
  have same : ∀ u : State, SameButPot u u ∧ u.frameNo = u.frameNo
    ∧ ∃ c : PotFrame → List Nat, (queueOf u q).frames = (queueOf u q).frames.map fun x => { x with cells := c x } := fun u =>
    ⟨rfl, rfl, fun x => x.cells, by simp⟩
  induction k generalizing s with
  | zero => exact same s
  | succ k ih =>
    unfold growCells
    split
    · exact same s
    · next f _ =>
      split
      · exact same s
      · split
        · dsimp only
          obtain ⟨y, hy⟩ : ∃ y, y = (freeCell s (q / 2048)).2 := ⟨_, rfl⟩
          have fq := QueueKept.freeCell s (q / 2048) q
          rw [← hy] at fq ⊢
          obtain ⟨z, hz⟩ : ∃ z, z = noteDepth (modFrame y q id fun x => { x with cells := x.cells ++ [(freeCell s (q / 2048)).1] }) q := ⟨_, rfl⟩
          rw [← hz]
          obtain ⟨h1, h2, c, h3⟩ := ih z
          have zz : SameButPot s z := by
            rw [hz]; exact (fq.1.trans (SameButPot.modFrame ..)).trans (SameButPot.noteDepth _ _)
          refine ⟨zz.trans h1, ?_, fun x => c (if x.id = id then { x with cells := x.cells ++ [(freeCell s (q / 2048)).1] } else x), ?_⟩
          · rw [h2, hz]
            show y.frameNo = _
            exact fq.2.2
          · rw [h3, hz, noteDepth_frames, modFrame_frames, fq.2.1, List.map_map]
            apply List.map_congr_left
            intro x _
            dsimp only [Function.comp]
            split <;> rfl
        · exact same s

/-- The frames of a queue under one number all satisfy `P`, and there is one. -/
def Holds1 (s : State) (q n : Nat) (P : PotFrame → Prop) : Prop :=
  (∃ f ∈ (queueOf s q).frames, f.id = n) ∧ ∀ f ∈ (queueOf s q).frames, f.id = n → P f

theorem Holds1.map {s t : State} {q n : Nat} {P Q : PotFrame → Prop} {g : PotFrame → PotFrame} (h : Holds1 s q n P)
    (e : (queueOf t q).frames = (queueOf s q).frames.map g) (k : ∀ f, (g f).id = f.id) (pq : ∀ f, f.id = n → P f → Q (g f)) : Holds1 t q n Q := by
  obtain ⟨⟨f, h1, h2⟩, h3⟩ := h
  constructor
  · exact ⟨g f, by rw [e]; exact List.mem_map_of_mem h1, by rw [k, h2]⟩
  · intro x hx hn
    rw [e, List.mem_map] at hx
    obtain ⟨y, hy, rfl⟩ := hx
    rw [k] at hn
    exact pq y hn (h3 y hy hn)

theorem Holds1.find {s : State} {q n : Nat} {P : PotFrame → Prop} (h : Holds1 s q n P) :
    ∃ f, potFrame s q n = some f ∧ f.id = n ∧ P f := by
  obtain ⟨⟨f, h1, h2⟩, h3⟩ := h
  unfold potFrame
  cases c : (queueOf s q).frames.find? (·.id == n) with
  | none =>
    have := List.find?_eq_none.mp c f h1
    simp [h2] at this
  | some x =>
    have a := List.find?_some c
    have b := List.mem_of_find?_eq_some c
    simp only [beq_iff_eq] at a
    exact ⟨x, rfl, a, h3 x b a⟩

/-- The last segment of a frame that no trick has started leaves everything of it but its header's length (R244). -/
theorem lastSeg_takes {s : State} {q n : Nat} {bad : Bool} {P : PotFrame → Prop} (h : Holds1 s q n P) (hs : ∀ f, P f → f.started = false)
    (hp : ∀ f x, P f → P { f with hdr := x }) :
    SameButPot s (lastSeg s q n bad) ∧ (lastSeg s q n bad).frameNo = s.frameNo ∧ Holds1 (lastSeg s q n bad) q n P := by
  obtain ⟨f, hf, -, pf⟩ := h.find
  unfold lastSeg
  rw [hf]
  dsimp only
  rw [hs f pf, Bool.false_and, if_neg (by simp)]
  refine ⟨(SameButPot.modFrame ..).trans rfl, rfl, ?_⟩
  exact h.map (t := modFrame s q n _) (by rw [modFrame_frames]) (fun x => by split <;> rfl) (fun x hx px => by rw [if_pos hx]; exact hp _ _ px)

theorem wholeEnd_takes {s : State} {q n : Nat} {bs : List Byte} {ed : List (Nat × Nat × W32)} 
    (h : Holds1 s q n fun f => f.bytes = bs ∧ f.macEd = ed ∧ f.visible = false ∧ f.bad = false ∧ f.started = false) (tx : inTx s q n = false) :
    SameButPot s (wholeEnd s q n) ∧ (wholeEnd s q n).frameNo = s.frameNo
    ∧ Holds1 (wholeEnd s q n) q n fun f => f.bytes = bs ∧ f.macEd = ed ∧ f.visible = true ∧ f.whole = true ∧ f.bad = false ∧ f.started = false := by
  obtain ⟨f, hf, hid, h1, h2, h3, h4, h5⟩ := h.find
  unfold wholeEnd
  rw [hf]
  dsimp only
  obtain ⟨r, hr⟩ : ∃ r, r = lastSeg s q n false := ⟨_, rfl⟩
  have hr1 : SameButPot s r ∧ r.frameNo = s.frameNo ∧ Holds1 r q n fun f => f.bytes = bs ∧ f.macEd = ed ∧ f.visible = false ∧ f.bad = false ∧ f.started = false := by
    rw [hr]; exact lastSeg_takes h (fun _ k => k.2.2.2.2) (fun _ _ k => k)
  rw [← hr]
  obtain ⟨u, hu⟩ : ∃ u, u = modFrame r q n fun x => { x with whole := true } := ⟨_, rfl⟩
  have hu1 : Holds1 u q n fun f => f.bytes = bs ∧ f.macEd = ed ∧ f.visible = false ∧ f.whole = true ∧ f.bad = false ∧ f.started = false := by
    refine hr1.2.2.map (by rw [hu, modFrame_frames]) (fun x => by split <;> rfl) ?_
    intro x hx hp
    rw [if_pos hx]
    exact ⟨hp.1, hp.2.1, hp.2.2.1, rfl, hp.2.2.2.1, hp.2.2.2.2⟩
  rw [← hu]
  obtain ⟨v, hv⟩ : ∃ v, v = makeVisible u q n := ⟨_, rfl⟩
  have hv1 : SameButPot u v ∧ v.frameNo = u.frameNo ∧ Holds1 v q n fun f => f.bytes = bs ∧ f.macEd = ed ∧ f.visible = true ∧ f.whole = true ∧ f.bad = false ∧ f.started = false := by
    obtain ⟨g, hg, gid, g1, g2, g3, g4, g5, g6⟩ := hu1.find
    unfold potFrame at hg
    rw [hv]
    unfold makeVisible
    dsimp only
    rw [hg]
    dsimp only
    rw [if_neg (by simp [g3])]
    refine ⟨rfl, rfl, ⟨{ g with visible := true, fromClk := _ }, by rw [queueOf_set]; exact List.mem_append_left _ (List.mem_append_right _ (List.mem_singleton.2 rfl)), gid⟩, ?_⟩
    intro x hx hn
    rw [queueOf_set] at hx
    simp only [List.mem_append, List.mem_filter, List.mem_singleton, bne_iff_ne, ne_eq] at hx
    rcases hx with (hx | hx) | hx
    · exact absurd hn hx.1.2
    · rw [hx]; exact ⟨g1, g2, rfl, g4, g5, g6⟩
    · exact absurd hn hx.1.2
  rw [← hv]
  obtain ⟨w, hw⟩ : ∃ w, w = modPkt v (eKey n) fun p => { p with ended := true } := ⟨_, rfl⟩
  rw [← hw]
  have sw : SameButPot s w := by
    have a : SameButPot s u := by rw [hu]; exact hr1.1.trans (SameButPot.modFrame ..)
    exact (a.trans hv1.1).trans (by rw [hw]; rfl)
  have tw : inTx w q n = false := by
    rw [← tx]
    unfold SameButPot at sw
    rw [sw]; rfl
  rw [if_neg (by simp [tw])]
  refine ⟨sw, ?_, ?_⟩
  · rw [hw]
    show v.frameNo = _
    rw [hv1.2.1, hu]; exact hr1.2.1
  · rw [hw]; exact hv1.2.2

/-- A frame that a pot takes whole stands in its queue, visible, under the next frame number (R257). -/
theorem injectFrame_takes {s u : State} {q : Nat} {frame hdr : List Byte} {ed : List (Nat × Nat × W32)}
    (h : injectFrame s q frame hdr ed = (true, u)) (fr : ∀ f ∈ (queueOf s q).frames, f.id ≠ s.frameNo) (tx : inTx s q s.frameNo = false) :
    SameButPot { s with deck := u.deck } u ∧ u.frameNo = s.frameNo + 1 ∧ Holds1 u q s.frameNo fun f =>
      f.bytes = frame ∧ f.macEd = ed ∧ f.visible = true ∧ f.whole = true ∧ f.bad = false ∧ f.started = false := by
  unfold injectFrame at h
  have ak := QueueKept.admitPot s q hdr
  cases e : admitPot s q hdr with
  | mk a v =>
    rw [e] at h ak
    cases a with
    | none => simp at h
    | some h' =>
      dsimp only at h ak
      obtain ⟨w, hw⟩ : ∃ w, w = newFrame v q h' (bit (fld hdr 0 4) 20) false := ⟨_, rfl⟩
      rw [← hw, ak.2.2] at h
      have w1 : SameButPot v w ∧ w.frameNo = s.frameNo + 1 ∧ Holds1 w q s.frameNo fun f =>
          f.visible = false ∧ f.bad = false ∧ f.started = false := by
        rw [hw]
        unfold newFrame
        dsimp only
        have fq := QueueKept.freeCell v (q / 2048) q
        obtain ⟨y, hy⟩ : ∃ y, y = (freeCell v (q / 2048)).2 := ⟨_, rfl⟩
        rw [← hy] at fq ⊢
        have yn : y.frameNo = s.frameNo := by rw [fq.2.2, ak.2.2]
        refine ⟨SameButPot.trans fq.1 (SameButPot.trans (t := setQueue { y with frameNo := y.frameNo + 1 } q _) rfl (SameButPot.noteDepth _ _)), ?_, ?_, ?_⟩
        · show y.frameNo + 1 = _
          rw [yn]
        · rw [noteDepth_frames, queueOf_set]
          exact ⟨_, List.mem_append_right _ (List.mem_singleton.mpr rfl), yn⟩
        · rw [noteDepth_frames, queueOf_set]
          intro f hf hn
          dsimp only at hf
          rw [List.mem_append, List.mem_singleton, fq.2.1, ak.2.1] at hf
          rcases hf with hf | hf
          · exact absurd hn (fr f hf)
          · rw [hf]; exact ⟨rfl, rfl, rfl⟩
      obtain ⟨x, hx⟩ : ∃ x, x = flightUp w (bit (fld hdr 0 4) 20) := ⟨_, rfl⟩
      rw [← hx] at h
      obtain ⟨d, hd⟩ : ∃ d, x = { w with deck := d } := by rw [hx]; exact ⟨_, rfl⟩
      have x1 : Holds1 x q s.frameNo fun f => f.visible = false ∧ f.bad = false ∧ f.started = false := by rw [hd]; exact w1.2.2
      obtain ⟨c1, c2, c, c3⟩ := growCells_frames (cdiv (frame.length + 32) 256) x q s.frameNo (cdiv (frame.length + 32) 256)
      obtain ⟨g, hg⟩ : ∃ g, g = growCells (cdiv (frame.length + 32) 256) x q s.frameNo (cdiv (frame.length + 32) 256) := ⟨_, rfl⟩
      rw [← hg] at h c1 c2 c3
      split at h
      · simp at h
      · simp only [Prod.mk.injEq, true_and] at h
        have g1 := x1.map (t := g.1) c3 (fun _ => rfl) (Q := fun f => f.visible = false ∧ f.bad = false ∧ f.started = false) (fun f _ hp => hp)
        obtain ⟨z, hz⟩ : ∃ z, z = modFrame g.1 q s.frameNo fun x => { x with bytes := frame, macEd := ed } := ⟨_, rfl⟩
        rw [← hz] at h
        have z1 : Holds1 z q s.frameNo fun f => f.bytes = frame ∧ f.macEd = ed ∧ f.visible = false ∧ f.bad = false ∧ f.started = false := by
          refine g1.map (by rw [hz, modFrame_frames]) (fun x => by split <;> rfl) ?_
          intro f hf hp
          rw [if_pos hf]
          exact ⟨rfl, rfl, hp⟩
        have az : SameButPot { s with deck := d } z := by
          have a : SameButPot { s with deck := d } { w with deck := d } := by
            have := ak.1.trans w1.1
            unfold SameButPot at this ⊢
            rw [this]
          rw [← hd] at a
          exact (a.trans c1).trans (by rw [hz]; exact SameButPot.modFrame ..)
        have tz : inTx z q s.frameNo = false := by
          rw [← tx]
          unfold SameButPot at az
          rw [az]; rfl
        obtain ⟨e1, e2, e3⟩ := wholeEnd_takes z1 tz
        rw [h] at e1 e2 e3
        have all := az.trans e1
        have dd : u.deck = d := by unfold SameButPot at all; rw [all]
        refine ⟨by rw [dd]; exact all, ?_, e3⟩
        rw [e2, hz]
        show g.1.frameNo = _
        rw [c2, hd]
        exact w1.2.1

theorem reseq_set (s : State) (p h : Nat) (x : Reseq) : reseqOf (setReseq s p h x) p h = x := by
  unfold reseqOf setReseq; exact kgetD_kset_same _ _ _ _

theorem SameButPot.draw (s : State) : SameButPot s (draw s).2 := rfl

theorem SameButPot.curveTest (s : State) (q : Nat) (e : Bool) (c w : Nat) : SameButPot s (curveTest s q e c w).2 := by
  unfold Sys2Proof.Machine.curveTest
  dsimp only
  repeat' split
  all_goals rfl

theorem SameButPot.admitPot (s : State) (q : Nat) (hdr : List Byte) : SameButPot s (admitPot s q hdr).2 := by
  unfold Sys2Proof.Machine.admitPot
  have h := SameButPot.curveTest s q (bit (fld hdr 0 4) 20) (bits (fld hdr 12 4) 4 3) (fld hdr 28 4)
  repeat' split
  all_goals first
    | rfl
    | exact h.trans (SameButPot.bump _ _)
    | exact h
    | (dsimp only; repeat' split)
  all_goals first
    | rfl
    | exact h.trans (SameButPot.bump _ _)
    | exact h

theorem SameButPot.freeCell (s : State) (p : Nat) : SameButPot s (freeCell s p).2 := by
  unfold Sys2Proof.Machine.freeCell chooseFree
  dsimp only
  split
  · rfl
  · cases kfreeNth _ _ _ _ <;> rfl

theorem freeCell_frames (s : State) (p q : Nat) : queueOf (freeCell s p).2 q = queueOf s q := by
  have : (freeCell s p).2.queues = s.queues := by
    unfold freeCell chooseFree
    dsimp only
    split
    · rfl
    · cases kfreeNth _ _ _ _ <;> rfl
  unfold queueOf; rw [this]

theorem inject_keeps {s u : State} (h : SameButPot { s with deck := u.deck } u) (p a : Nat) (y : Nat × Nat × Nat) :
    keepFixed s (bump (setSeq u p y) a) = bump (setSeq u p y) a := by
  unfold SameButPot at h
  rw [h]; rfl

theorem setPort_portOf' (s : State) (p : Nat) (x : PortState) : portOf (setPort s p x) p = x := by
  unfold portOf setPort; exact kgetD_kset_same _ _ _ _

theorem queueOf_set' (s : State) (q : Nat) (x : PQueue) : queueOf (setQueue s q x) q = x := by
  unfold queueOf setQueue; exact kgetD_kset_same _ _ _ _

/-- `t` is `s` but for shapers, queues, deficits and counters. -/
def SameButCharge (s t : State) : Prop :=
  t = { s with shapers := t.shapers, queues := t.queues, grpDef := t.grpDef, regs := t.regs }

theorem SameButCharge.trans {s t u : State} (h : SameButCharge s t) (k : SameButCharge t u) : SameButCharge s u := by
  unfold SameButCharge at *
  rw [h] at k
  rw [k]

theorem SameButCharge.bump (s : State) (a : Nat) : SameButCharge s (bump s a) := rfl

theorem SameButCharge.bumpBy (s : State) (a n : Nat) : SameButCharge s (bumpBy s a n) := rfl

theorem SameButCharge.setQueue (s : State) (q : Nat) (x : PQueue) : SameButCharge s (setQueue s q x) := rfl

theorem SameButCharge.chargeShaper (s : State) (l i : Nat) (c : Int) : SameButCharge s (chargeShaper s l i c) := by
  unfold Sys2Proof.Machine.chargeShaper
  split <;> rfl

theorem SameButCharge.chargeAll (s : State) (q : Nat) (c : Int) : SameButCharge s (chargeAll s q c) := by
  unfold Sys2Proof.Machine.chargeAll
  dsimp only
  exact (((SameButCharge.chargeShaper s 0 q c).trans (SameButCharge.chargeShaper _ 1 _ c)).trans (SameButCharge.chargeShaper _ 2 _ c)).trans rfl

theorem chargeShaper_queues (s : State) (l i : Nat) (c : Int) : (chargeShaper s l i c).queues = s.queues := by
  unfold chargeShaper
  split <;> rfl

theorem bump_queues (s : State) (a : Nat) : (bump s a).queues = s.queues := rfl

theorem bumpBy_queues (s : State) (a n : Nat) : (bumpBy s a n).queues = s.queues := rfl

theorem chargeAll_queues (s : State) (q : Nat) (c : Int) :
    (chargeAll s q c).queues = kset s.queues q { queueOf s q with deficit := (queueOf s q).deficit - c } := by
  unfold chargeAll
  dsimp only
  have : ∀ u : State, u.queues = s.queues → ∀ y : Int, (setQueue u q { queueOf u q with deficit := (queueOf u q).deficit - y }).queues
      = kset s.queues q { queueOf s q with deficit := (queueOf s q).deficit - y } := by
    intro u h y
    unfold setQueue queueOf
    rw [h]
  exact this _ (by rw [chargeShaper_queues, chargeShaper_queues, chargeShaper_queues]) c

theorem startFrame_takes {s : State} {q p o : Nat} {f : PotFrame} (hqp : q / 2048 = p) (hfr : (queueOf s q).frames = [f]) (hhead : headFrame s q = some f)
    (htt : timeTriggered f = false) (hs : ksorted s.tricks = true) (hroom : (tricksOf s (160 + p)).length < 256)
    (ho : routineOff s (hdrEpoch f) (stageOf (160 + p)) (bits (hdrW f 6) 23 16) = some o) :
    ∃ t1 key x, startFrame s q = some t1 ∧ (queueOf t1 q).frames = [{ f with started := true }]
      ∧ (queueOf t1 q).deficit = (queueOf s q).deficit - startCharge s q f
      ∧ (∀ q' y, (q', y) ∈ t1.queues → q' = q ∨ ∃ y, (q', y) ∈ s.queues)
      ∧ trickKey (160 + p) (key % 256) = key ∧ kget s.tricks key = none ∧ t1.tricks = kset s.tricks key x ∧ kget t1.pkts (eKey f.id) = some (takePkt f q)
      ∧ x.pkt = eKey f.id ∧ x.slot = hdrEpoch f ∧ x.routine = bits (hdrW f 6) 23 16 ∧ x.ended = false := by
  have d6 : 160 + q / 2048 = 160 + p := by rw [hqp]
  obtain ⟨s1, h1⟩ : ∃ u, u = modFrame s q f.id fun x => { x with started := true } := ⟨_, rfl⟩
  obtain ⟨s2, h2⟩ : ∃ u, u = bumpBy (bump (chargeAll s1 q (startCharge s q f)) (aTmQCtr q 2)) (aTmQCtr q 3) (startCharge s q f).toNat := ⟨_, rfl⟩
  obtain ⟨s3, h3⟩ : ∃ u, u = setQueue s2 q { queueOf s2 q with sample := { (queueOf s2 q).sample with frames := (queueOf s2 q).sample.frames + 1, maxSojourn := max (queueOf s2 q).sample.maxSojourn (sojourn s f) } } := ⟨_, rfl⟩
  have c3 : SameButCharge s s3 := by
    rw [h3]
    refine SameButCharge.trans (t := s2) ?_ (SameButCharge.setQueue _ _ _)
    rw [h2]
    refine SameButCharge.trans (t := s1) (by rw [h1]; rfl) ?_
    exact ((SameButCharge.chargeAll s1 q _).trans (SameButCharge.bump _ _)).trans (SameButCharge.bumpBy _ _ _)
  have q1 : queueOf s1 q = { queueOf s q with frames := [{ f with started := true }] } := by
    rw [h1]; unfold modFrame; dsimp only; rw [queueOf_set', hfr]; simp
  have q2 : queueOf s2 q = { queueOf s1 q with deficit := (queueOf s1 q).deficit - startCharge s q f } := by
    unfold queueOf at *
    rw [h2, bumpBy_queues, bump_queues, chargeAll_queues, kgetD_kset_same]
    unfold queueOf
    rfl
  have q3f : (queueOf s3 q).frames = [{ f with started := true }] ∧ (queueOf s3 q).deficit = (queueOf s q).deficit - startCharge s q f := by
    rw [h3, queueOf_set']
    dsimp only
    rw [q2, q1]
    exact ⟨rfl, rfl⟩
  have keys : ∀ q' x, (q', x) ∈ s3.queues → q' = q ∨ ∃ y, (q', y) ∈ s.queues := by
    intro q' x hm
    rw [h3] at hm
    rcases mem_kset hm with e | hm
    · left; exact congrArg Prod.fst e
    have e2 : s2.queues = kset s1.queues q { queueOf s1 q with deficit := (queueOf s1 q).deficit - startCharge s q f } := by
      rw [h2, bumpBy_queues, bump_queues]; exact chargeAll_queues s1 q (startCharge s q f)
    rw [e2] at hm
    rcases mem_kset hm with e | hm
    · left; exact congrArg Prod.fst e
    rw [h1] at hm
    unfold modFrame at hm
    rcases mem_kset hm with e | hm
    · left; exact congrArg Prod.fst e
    · exact .inr ⟨x, hm⟩
  -- entering TAKE
  have tk : s3.tricks = s.tricks ∧ s3.pkts = s.pkts ∧ (∀ e a n, routineOff s3 e a n = routineOff s e a n) ∧ s3.potTurn = s.potTurn := by
    unfold SameButCharge at c3
    rw [c3]
    exact ⟨rfl, rfl, fun _ _ _ => rfl, rfl⟩
  have room : kcount s3.tricks (256 * (160 + p)) (256 * (160 + p) + 256) < 256 * (160 + p) + 256 - 256 * (160 + p) := by
    rw [tk.1, kcount_room, Nat.add_sub_cancel_left]; exact hroom
  obtain ⟨key, hk, hlo, hhi, hn⟩ := chooseFree_some s3 (m := s3.tricks) (lo := 256 * (160 + p)) (hi := 256 * (160 + p) + 256) (tk.1.symm ▸ hs) room
  have kk : trickKey (160 + p) (key % 256) = key := by unfold trickKey; omega
  obtain ⟨b, hb⟩ : ∃ b : Trick, b = { Trick.blank with pkt := eKey f.id, slot := hdrEpoch f, routine := bits (hdrW f 6) 23 16, rank := 2 } := ⟨_, rfl⟩
  obtain ⟨w, hw⟩ : ∃ w, w = setPkt { s3 with fresh := s3.fresh + 1 } (eKey f.id) (takePkt f q) := ⟨_, rfl⟩
  have wr : routineOff w b.slot (stageOf (160 + p)) b.routine = some o := by
    rw [hw, hb]
    show routineOff s3 _ _ _ = _
    rw [tk.2.2.1]
    exact ho
  obtain ⟨x, hx, x1, x2, x3, x4, -⟩ := startTrick_starts (d := 160 + p) (c := key % 256) wr
  obtain ⟨t1, ht1⟩ : ∃ t1, t1 = startTrick w (160 + p) (key % 256) b := ⟨_, rfl⟩
  have wf3 : w.queues = s3.queues ∧ w.tricks = s.tricks := by rw [hw]; exact ⟨rfl, tk.1⟩
  rw [← ht1] at hx
  obtain ⟨e1, e2, -, -, -, -, -, -, -, -, -, e12, -⟩ := hx.fields
  have e12' : t1.queues = s3.queues := by rw [e12]; exact wf3.1
  have ent : startFrame s q = some t1 := by
    unfold startFrame
    rw [hhead]
    dsimp only
    rw [← h1, ← h2, ← h3]
    unfold enterTake
    dsimp only
    rw [htt]
    rw [if_neg (by simp), d6, hk]
    dsimp only [Option.map_some]
    rw [ht1, hw, hb]
  have tt : t1.tricks = kset s.tricks key x := by
    rw [e1]; show kset w.tricks _ x = _; rw [kk, wf3.2]
  refine ⟨t1, key, x, ent, ?_, ?_, ?_, kk, by rw [← tk.1]; exact hn, tt, ?_, by rw [x1, hb], by rw [x2, hb], by rw [x3, hb], x4⟩
  · unfold queueOf at *
    rw [e12']
    exact q3f.1
  · unfold queueOf at *
    rw [e12']
    exact q3f.2
  · rw [e12']
    exact keys
  · rw [e2, hw]
    show kget (kset _ _ _) _ = _
    rw [kget_kset_same]

theorem kget_kmap {α β : Type} (m : KMap α) (f : Nat → α → β) (k : Nat) : kget (kmap m f) k = (kget m k).map (f k) := by
  induction m with
  | nil => rfl
  | cons e r ih =>
    obtain ⟨j, w⟩ := e
    show kget ((j, f j w) :: kmap r f) k = _
    unfold kget
    by_cases h : j = k
    · subst h; simp
    · rw [if_neg h, if_neg h]; exact ih

theorem regRaw_partPost {a : Nat} (ha : ∀ st k, a ≠ aHbmCtr st k) (hb : a ≠ aPosted) {s t : State} {b : TaskBody} {k : TaskKind} {h : Nat} (e : partPost s b k = some (h, t)) (d : Nat) :
    regRaw t a d = regRaw s a d := by
  unfold partPost chooseFree at e
  dsimp only at e
  split at e
  · simp at e
  · rw [Option.map_map, Option.map_eq_some_iff] at e
    obtain ⟨j, -, e⟩ := e
    simp only [Function.comp_apply, Prod.mk.injEq] at e
    rw [← e.2]
    unfold postAt
    dsimp only
    have st : ∀ (u : State) h v, regRaw (settle u h v) a d = regRaw u a d := by
      intro u h v
      unfold settle
      repeat' split
      all_goals first
        | rfl
        | (dsimp only; unfold raiseHigh; split <;> rfl)
    rw [st, regRaw_bump_ne _ hb, SameRegsButHbm.hbmWrite _ _ _ _ a (fun st k _ _ => ha st k) d]
    rfl

theorem regRaw_ringThreshold {a : Nat} (ha : ∀ st k, a ≠ aHbmCtr st k) (hb : a ≠ aPosted) (s : State) (r d : Nat) :
    regRaw (ringThreshold s r) a d = regRaw s a d := by
  unfold ringThreshold holdPost
  dsimp only
  repeat' split
  all_goals first
    | rfl
    | (next p h => exact regRaw_partPost (t := p.2) ha hb h d)

theorem regRaw_ringFree {a : Nat} {s t : State} {r n : Nat} (hc : ∀ r, a ≠ aRingLost r) (e : ringFree s r n = some t) (d : Nat) :
    regRaw t a d = regRaw s a d := by
  unfold ringFree at e
  dsimp only at e
  rw [Option.map_eq_some_iff] at e
  obtain ⟨_, -, rfl⟩ := e
  exact regRaw_bumpBy_ne _ _ (hc r)

theorem regRaw_ringWrite {a : Nat} (ha : ∀ st k, a ≠ aHbmCtr st k) (hb : a ≠ aPosted) (hc : ∀ r, a ≠ aRingLost r) (s : State) (r : Nat) (item : List Byte) (p : Bool) (d : Nat) :
    regRaw (ringWrite s r item p) a d = regRaw s a d := by
  unfold ringWrite addSlot ringPut
  split
  · rcases e : ringFree s r item.length with _ | t
    · exact regRaw_bump_ne _ (hc r)
    · exact (regRaw_ringFree hc e d :)
  · split
    · exact regRaw_bump_ne _ (hc r)
    · next t e =>
      dsimp only
      rw [regRaw_ringThreshold ha hb]
      exact (((SameRegsButHbm.hbmWrite _ _ _ _).trans (.hbmWrite _ _ _ _)) a (fun st k _ _ => ha st k) d).trans (regRaw_ringFree hc e d)

theorem range_split (n p : Nat) (h : p < n) : List.range n = List.range p ++ p :: (List.range (n - 1 - p)).map (p + 1 + ·) := by
  obtain ⟨k, rfl⟩ : ∃ k, n = p + (1 + k) := ⟨n - 1 - p, by omega⟩
  rw [show p + (1 + k) - 1 - p = k by omega, List.range_add, List.range_add]
  simp [List.map_map, Function.comp_def, Nat.add_assoc]

theorem filterMap_one {α β : Type} [DecidableEq α] (f : α → Option β) (b : β) (a : α) : ∀ l : List α, l.Nodup → a ∈ l → f a = some b → (∀ x ∈ l, x ≠ a → f x = none) →
    l.filterMap f = [b] := by
  intro l
  induction l with
  | nil => intro _ h; simp at h
  | cons x r ih =>
    intro hn ha hf ho
    obtain ⟨h1, h2⟩ := List.nodup_cons.mp hn
    by_cases hx : x = a
    · subst hx
      rw [List.filterMap_cons, hf]
      dsimp only
      congr 1
      rw [List.filterMap_eq_nil_iff]
      intro y hy
      exact ho y (List.mem_cons_of_mem _ hy) (fun e => by rw [e] at hy; exact h1 hy)
    · rw [List.filterMap_cons, ho x (by simp) hx]
      dsimp only
      refine ih h2 ?_ hf (fun y hy => ho y (List.mem_cons_of_mem _ hy))
      rcases List.mem_cons.mp ha with e | e
      · exact absurd e.symm hx
      · exact e

theorem findUp_some' {p : Nat → Bool} : ∀ (n lo : Nat), (∃ i, lo ≤ i ∧ i < lo + n ∧ p i = true) → ∃ j, findUp n lo p = some j ∧ lo ≤ j ∧ j < lo + n ∧ p j = true := by
  intro n
  induction n with
  | zero => rintro lo ⟨i, h1, h2, _⟩; omega
  | succ k ih =>
    rintro lo ⟨i, h1, h2, h3⟩
    unfold findUp
    by_cases hp : p lo = true
    · rw [if_pos hp]; exact ⟨lo, rfl, by omega, by omega, hp⟩
    · rw [if_neg hp]
      have : i ≠ lo := fun e => hp (e ▸ h3)
      obtain ⟨j, a, b, c, d⟩ := ih (lo + 1) ⟨i, by omega, by omega, h3⟩
      exact ⟨j, a, by omega, by omega, d⟩

theorem findUp_no {p : Nat → Bool} : ∀ (n lo : Nat), (∀ i, lo ≤ i → i < lo + n → p i = false) → findUp n lo p = none := by
  intro n
  induction n with
  | zero => intro lo _; rfl
  | succ k ih =>
    intro lo h
    unfold findUp
    rw [h lo (by omega) (by omega), if_neg (by simp)]
    exact ih _ (fun i h1 h2 => h i (by omega) (by omega))

theorem grants_one {s : State} {pl h : Nat} {c : Cell} (hh : h < 32) (hd : c.dst < 32) (h1 : stagedAt s h pl = [c])
    (h2 : ∀ g, g < 32 → g ≠ h → stagedAt s g pl = []) : grants s pl [] = [(c.dst, h)] := by
  have rq : ∀ g p, g < 32 → (requests s pl g p = true ↔ (g = h ∧ p = c.dst)) := by
    intro g p hg
    unfold requests
    by_cases e : g = h
    · subst e
      rw [h1]
      simp only [List.any_cons, List.any_nil, Bool.or_false, beq_iff_eq, true_and]
      exact ⟨fun x => x.symm, fun x => x.symm⟩
    · rw [h2 g hg e]; simp [e]
  unfold grants
  refine filterMap_one _ _ c.dst _ List.nodup_range (List.mem_range.mpr hd) ?_ ?_
  · simp only [List.any_nil, Bool.false_eq_true, if_false, Bool.not_false, Bool.and_true]
    have ⟨j, e, _, _, hj⟩ := findUp_some' (p := fun i => requests s pl (i % 32) c.dst) 32 (kgetD s.grantp (32 * pl + c.dst) 0)
      ⟨kgetD s.grantp (32 * pl + c.dst) 0 + (h + 32 - kgetD s.grantp (32 * pl + c.dst) 0 % 32) % 32, by omega, by omega, by
        rw [rq _ _ (by omega)]; exact ⟨by omega, rfl⟩⟩
    rw [e]
    have := (rq (j % 32) c.dst (by omega)).mp hj
    show some (c.dst, j % 32) = _
    rw [this.1]
  · intro p hp hne
    simp only [List.any_nil, Bool.false_eq_true, if_false, Bool.not_false, Bool.and_true]
    rw [findUp_no]
    · rfl
    · intro i _ _
      have := rq (i % 32) p (by omega)
      cases hr : requests s pl (i % 32) p with
      | false => rfl
      | true => exact absurd (this.mp hr).2 hne

theorem accepts_one (s : State) (pl h p : Nat) (hh : h < 32) (hp : p < 32) : accepts s pl [(p, h)] = [(h, p)] := by
  unfold accepts
  refine filterMap_one _ _ h _ List.nodup_range (List.mem_range.mpr hh) ?_ ?_
  · have ⟨j, e, _, _, hj⟩ := findUp_some' (p := fun i => [(p, h)].contains (i % 32, h)) 32 (kgetD s.acceptp (32 * pl + h) 0)
      ⟨kgetD s.acceptp (32 * pl + h) 0 + (p + 32 - kgetD s.acceptp (32 * pl + h) 0 % 32) % 32, by omega, by omega, by
        simp; omega⟩
    rw [e]
    have : j % 32 = p := by simpa using hj
    show some (h, j % 32) = _
    rw [this]
  · intro g hg hne
    rw [findUp_no]
    · rfl
    · intro i _ _
      simp [hne]

end Sys2Proof.Machine
end

