-- ==== Sys2Proof/Laws/Power.lean ====
section
/-!
SUPPORT. The power-on sequence: the training of the stacks, the restore of the kitty, and the steps up to step 7; what every command keeps of the
fuses and the MRAM (17_reset_power_and_kitty.md R384 to R405).
-/
namespace Sys2Proof.Machine

open Sys2Proof

theorem trainStack_hbm (ls : List W64) (u : State) (k : Nat) : SameButHbm u (trainStack ls u k) := by
  have h := SameButRegs.putLanes u k ((ls.drop (160 * k)).take 160)
  unfold SameButRegs at h
  unfold trainStack
  dsimp only
  rw [h]; rfl

/-- The stack's lane words fail somewhere. -/
def badStack (ls : List W64) (k : Nat) : Bool := ((ls.drop (160 * k)).take 160).any fun w => laneFails w.toNat

theorem trainStack_hbmc (ls : List W64) (u : State) (k : Nat) : (trainStack ls u k).hbmc = { u.hbmc with
    trained := setBits u.hbmc.trained k k (b2n (!badStack ls k)),
    trainFail := setBits u.hbmc.trainFail k k (b2n (badStack ls k)) } := by
  have h := SameButRegs.putLanes u k ((ls.drop (160 * k)).take 160)
  unfold SameButRegs at h
  unfold trainStack badStack
  dsimp only
  rw [h]

theorem train_hbm (s : State) (ls : List W64) : SameButHbm s (train s ls) := by
  unfold train
  dsimp only
  have h := SameButHbm.foldl (trainStack_hbm ls) (List.range 4) { s with hbmc := { s.hbmc with trained := 0, trainFail := 0 } }
  unfold SameButHbm at h ⊢
  rw [h]

theorem train_hbmc (s : State) (ls : List W64) :
    (train s ls).hbmc.trained = b2n (!badStack ls 0) + 2 * b2n (!badStack ls 1) + 4 * b2n (!badStack ls 2) + 8 * b2n (!badStack ls 3)
    ∧ (train s ls).hbmc.trainFail = b2n (badStack ls 0) + 2 * b2n (badStack ls 1) + 4 * b2n (badStack ls 2) + 8 * b2n (badStack ls 3) := by
  unfold train
  simp only [List.range, List.range.loop, List.foldl_cons, List.foldl_nil, trainStack_hbmc]
  generalize badStack ls 0 = b0
  generalize badStack ls 1 = b1
  generalize badStack ls 2 = b2
  generalize badStack ls 3 = b3
  revert b0 b1 b2 b3
  decide

theorem split4 (ls : List W64) (h : ls.length = 640) (p : W64 → Bool) :
    ls.any p = (((ls.drop (160 * 0)).take 160).any p || ((ls.drop (160 * 1)).take 160).any p
      || ((ls.drop (160 * 2)).take 160).any p || ((ls.drop (160 * 3)).take 160).any p) := by
  have e : ls = ls.take 160 ++ ((ls.drop 160).take 160 ++ ((ls.drop 320).take 160 ++ ls.drop 480)) := by
    have a1 := (List.take_append_drop 160 ls).symm
    have a2 := (List.take_append_drop 160 (ls.drop 160)).symm
    have a3 := (List.take_append_drop 160 (ls.drop 320)).symm
    rw [List.drop_drop] at a2 a3
    rw [← a3, ← a2, ← a1]
  have l : (ls.drop 480).take 160 = ls.drop 480 := List.take_of_length_le (by simp [h])
  conv => lhs; rw [e]
  simp only [List.any_append, Nat.mul_zero, Nat.mul_one, List.drop_zero, Nat.reduceMul, l, Bool.or_assoc]

theorem drawSeeds_frame (u : State) : (drawSeeds u).rst = u.rst ∧ (drawSeeds u).fuses = u.fuses ∧ (drawSeeds u).deck = u.deck
    ∧ (drawSeeds u).zat = u.zat ∧ (drawSeeds u).tricks = u.tricks ∧ (drawSeeds u).pkts = u.pkts := ⟨rfl, rfl, rfl, rfl, rfl, rfl⟩

/-- What the sequence does up to step 7. -/
theorem sequence_facts (w : State) (facts : PowerOnFacts) (restore : Bool) (t : State) (ht : t = sequence w facts restore)
    (hl : facts.training.length = 640) (r : State → State) (hr : ∀ u, (if restore then restoreKitty u else u) = r u)
    (rr : ∀ u, (r u).rst.good = u.rst.good ∧ (r u).rst.lastLevel = u.rst.lastLevel ∧ (r u).rst.lastSrc = u.rst.lastSrc
      ∧ (r u).rst.lastTime = u.rst.lastTime ∧ (r u).rst.halted = u.rst.halted ∧ (r u).rst.trimRetry = u.rst.trimRetry
      ∧ (r u).rst.avsAcked = u.rst.avsAcked ∧ (r u).rst.strap = u.rst.strap ∧ (r u).fuses = u.fuses ∧ (r u).deck = u.deck
      ∧ (r u).zat = u.zat ∧ (r u).tricks = u.tricks ∧ (r u).pkts = u.pkts) :
    (facts.trimHalt = true → t.rst.step = 2 ∧ t.rst.halted = true ∧ t.rst.trimRetry = true ∧ t.fuses = w.fuses)
      ∧ (facts.trimHalt = false → t.fuses = facts.fuses ∧ t.rst.lastLevel = w.rst.lastLevel ∧ t.rst.lastSrc = w.rst.lastSrc
          ∧ t.rst.lastTime = w.rst.lastTime)
      ∧ (facts.trimHalt = false → (∃ x ∈ facts.training, laneFails x.toNat = true) → t.rst.step = 5 ∧ t.hbmc.trainFail ≠ 0)
      ∧ (facts.trimHalt = false → (∀ x ∈ facts.training, laneFails x.toNat = false) → strapFlash w = none →
          t.rst.step = 7 ∧ t.rst.good = 2 ^ 25 - 1 ∧ t.rst.halted = false ∧ t.rst.trimRetry = facts.trimRetry
          ∧ t.rst.avsAcked = facts.avsAcked ∧ t.rst.strap = w.rst.strap ∧ t.hbmc.trained = 15 ∧ t.hbmc.trainFail = 0
          ∧ t.deck = w.deck ∧ t.zat = w.zat ∧ t.tricks = w.tricks ∧ t.pkts = w.pkts) := by
  by_cases hh : facts.trimHalt = true
  · have e : t = setStep (loadFuses w facts) 2 := by
      rw [ht]; unfold sequence
      have : (setStep (loadFuses w facts) 2).rst.halted = true := hh
      dsimp only
      rw [if_pos this]
    rw [e]
    refine ⟨fun _ => ⟨rfl, hh, ?_, ?_⟩, fun h => absurd hh (by simp [h]), fun h => absurd hh (by simp [h]), fun h => absurd hh (by simp [h])⟩
    · show (facts.trimRetry || facts.trimHalt) = true; rw [hh]; simp
    · show (if facts.trimHalt then w.fuses else facts.fuses) = _; rw [hh]; rfl
  · simp only [Bool.not_eq_true] at hh
    obtain ⟨c, hc⟩ : ∃ c, c = clocksUp (drawSeeds (avsWrite (setStep (loadFuses w facts) 2))) facts := ⟨_, rfl⟩
    obtain ⟨d1, d2, d3, d4, d5, d6⟩ := drawSeeds_frame (avsWrite (setStep (loadFuses w facts) 2))
    obtain ⟨d, hd⟩ : ∃ d, d = drawSeeds (avsWrite (setStep (loadFuses w facts) 2)) := ⟨_, rfl⟩
    rw [← hd] at d1 d2 d3 d4 d5 d6 hc
    have cf : c.fuses = facts.fuses := by
      rw [hc]; show d.fuses = _; rw [d2]; show (if facts.trimHalt then w.fuses else facts.fuses) = _; rw [hh]; rfl
    have fr : (facts.trimRetry || facts.trimHalt) = facts.trimRetry := by rw [hh]; simp
    have lr : (avsWrite (setStep (loadFuses w facts) 2)).rst = { w.rst with halted := facts.trimHalt, trimRetry := facts.trimRetry || facts.trimHalt, step := 2, elapsed := (w.clk - w.rst.startClk) / usClk % 2 ^ 32 } := rfl
    have cr : c.rst = { d.rst with good := ones 25, avsAcked := facts.avsAcked, avsFail := !facts.avsAcked } := by rw [hc]; rfl
    rw [d1, lr, hh, Bool.or_false] at cr
    have cd : c.deck = w.deck ∧ c.zat = w.zat ∧ c.tricks = w.tricks ∧ c.pkts = w.pkts := by
      rw [hc]
      exact ⟨d3, d4, d5, d6⟩
    obtain ⟨v, hv⟩ : ∃ v, v = setStep (train (r c) facts.training) 5 := ⟨_, rfl⟩
    have e : t = if trainFailed v then v else keepLast v (keepStores v (bootDeck (setStep v 7) facts)) := by
      rw [ht]; unfold sequence
      have : ¬ (setStep (loadFuses w facts) 2).rst.halted = true := by
        show ¬ facts.trimHalt = true
        simp [hh]
      dsimp only
      rw [if_neg this, hr, ← hd, ← hc, ← hv]
    obtain ⟨q1, q2, q3, q4, q5, q6, q7, q8, q9, q10, q11, q12, q13⟩ := rr c
    have th := train_hbm (r c) facts.training
    obtain ⟨t1, t2⟩ := train_hbmc (r c) facts.training
    unfold SameButHbm at th
    have v1 : v.rst.good = 2 ^ 25 - 1 := by rw [hv, th]; show (r c).rst.good = _; rw [q1, cr]; rfl
    have v2 : v.rst.lastLevel = w.rst.lastLevel := by rw [hv, th]; show (r c).rst.lastLevel = _; rw [q2, cr]
    have v3 : v.rst.lastSrc = w.rst.lastSrc := by rw [hv, th]; show (r c).rst.lastSrc = _; rw [q3, cr]
    have v4 : v.rst.lastTime = w.rst.lastTime := by rw [hv, th]; show (r c).rst.lastTime = _; rw [q4, cr]
    have v5 : v.rst.halted = false := by rw [hv, th]; show (r c).rst.halted = _; rw [q5, cr]
    have v6 : v.rst.trimRetry = facts.trimRetry := by rw [hv, th]; show (r c).rst.trimRetry = _; rw [q6, cr]
    have v7 : v.rst.avsAcked = facts.avsAcked := by rw [hv, th]; show (r c).rst.avsAcked = _; rw [q7, cr]
    have v8 : v.rst.strap = w.rst.strap := by rw [hv, th]; show (r c).rst.strap = _; rw [q8, cr]
    have v9 : v.fuses = facts.fuses := by rw [hv, th]; show (r c).fuses = _; rw [q9, cf]
    have v10 : v.deck = w.deck := by rw [hv, th]; show (r c).deck = _; rw [q10, cd.1]
    have v11 : v.zat = w.zat := by rw [hv, th]; show (r c).zat = _; rw [q11, cd.2.1]
    have v12 : v.tricks = w.tricks := by rw [hv, th]; show (r c).tricks = _; rw [q12, cd.2.2.1]
    have v13 : v.pkts = w.pkts := by rw [hv, th]; show (r c).pkts = _; rw [q13, cd.2.2.2]
    have v14 : v.hbmc.trained = (train (r c) facts.training).hbmc.trained := by rw [hv]; rfl
    have v15 : v.hbmc.trainFail = (train (r c) facts.training).hbmc.trainFail := by rw [hv]; rfl
    have v16 : v.rst.step = 5 := by rw [hv]; rfl
    have g : ∀ x y : State, (keepLast x (keepStores x y)).fuses = x.fuses ∧ (keepLast x (keepStores x y)).rst.lastLevel = x.rst.lastLevel
        ∧ (keepLast x (keepStores x y)).rst.lastSrc = x.rst.lastSrc ∧ (keepLast x (keepStores x y)).rst.lastTime = x.rst.lastTime :=
      fun _ _ => ⟨rfl, rfl, rfl, rfl⟩
    have any := split4 facts.training hl fun x => laneFails x.toNat
    refine ⟨fun h => absurd h (by simp [hh]), fun _ => ?_, fun _ hx => ?_, fun _ hx hs => ?_⟩
    · rw [e]
      split
      · exact ⟨v9, v2, v3, v4⟩
      · obtain ⟨g1, g2, g3, g4⟩ := g v (bootDeck (setStep v 7) facts)
        exact ⟨g1.trans v9, g2.trans v2, g3.trans v3, g4.trans v4⟩
    · have a1 : facts.training.any (fun x => laneFails x.toNat) = true := by
        obtain ⟨x, h1, h2⟩ := hx
        exact List.any_eq_true.mpr ⟨x, h1, h2⟩
      rw [a1] at any
      have nz : v.hbmc.trainFail ≠ 0 := by
        rw [v15, t2]
        intro z
        have b : ∀ k, b2n (badStack facts.training k) = 0 → badStack facts.training k = false := by
          intro k; cases badStack facts.training k <;> simp [b2n]
        have z0 := b 0 (by omega)
        have z1 := b 1 (by omega)
        have z2 := b 2 (by omega)
        have z3 := b 3 (by omega)
        unfold badStack at z0 z1 z2 z3
        rw [z0, z1, z2, z3] at any
        simp at any
      have tf : trainFailed v = true := by unfold trainFailed; simp [nz]
      rw [e, if_pos tf]
      exact ⟨v16, nz⟩
    · have z : ∀ k, badStack facts.training k = false := by
        intro k
        unfold badStack
        rw [List.any_eq_false]
        intro x hm
        simp [hx x (List.mem_of_mem_drop (List.mem_of_mem_take hm))]
      simp only [z, Bool.not_false, b2n, if_true, Bool.false_eq_true, if_false] at t1 t2
      have tf : ¬ trainFailed v = true := by unfold trainFailed; rw [v15, t2]; simp
      have sf : strapFlash (setStep v 7) = none := by
        unfold strapFlash at hs ⊢
        show (if (bit v.rst.strap 3 || decide (2 ≤ bits v.rst.strap 2 1)) = true then none else some (2 + bits v.rst.strap 2 1)) = none
        rw [v8]; exact hs
      have bd : bootDeck (setStep v 7) facts = setStep v 7 := by unfold bootDeck; rw [sf]
      rw [e, if_neg tf, bd]
      exact ⟨rfl, v1, v5, v6, v7, v8, v14.trans t1, v15.trans t2, v10, v11, v12, v13⟩

theorem restoreKitty_frame (u : State) : (restoreKitty u).rst.good = u.rst.good ∧ (restoreKitty u).rst.lastLevel = u.rst.lastLevel
      ∧ (restoreKitty u).rst.lastSrc = u.rst.lastSrc
      ∧ (restoreKitty u).rst.lastTime = u.rst.lastTime ∧ (restoreKitty u).rst.halted = u.rst.halted ∧ (restoreKitty u).rst.trimRetry = u.rst.trimRetry
      ∧ (restoreKitty u).rst.avsAcked = u.rst.avsAcked ∧ (restoreKitty u).rst.strap = u.rst.strap ∧ (restoreKitty u).fuses = u.fuses ∧ (restoreKitty u).deck = u.deck
      ∧ (restoreKitty u).zat = u.zat ∧ (restoreKitty u).tricks = u.tricks ∧ (restoreKitty u).pkts = u.pkts := by
  have time : ∀ v : State, restoreTime v = { v with regs := (restoreTime v).regs, time := (restoreTime v).time } := by
    intro v
    unfold restoreTime
    have h : ∀ (p : Nat) (x : State), SameButRegs x ([false, true].foldl (fun s tx =>
        setReg s (aTrim p tx) (memNat s.kitty (kTime + 0x1000 + 16 * p + (if tx then 8 else 0)) 8 % 2 ^ 32)) x) :=
      fun p x => SameButRegs.foldl (fun _ _ => SameButRegs.setReg ..) _ _
    have h2 := SameButRegs.foldl (f := fun s p => [false, true].foldl (fun s tx =>
        setReg s (aTrim p tx) (memNat s.kitty (kTime + 0x1000 + 16 * p + (if tx then 8 else 0)) 8 % 2 ^ 32)) s) (fun x p => h p x) (List.range 256)
      { v with time := { v.time with rate := sint 40 (memNat v.kitty (kTime + 8) 8) } }
    unfold SameButRegs at h2
    dsimp only at h2 ⊢
    rw [h2]
  unfold restoreKitty
  dsimp only
  split
  · exact ⟨rfl, rfl, rfl, rfl, rfl, rfl, rfl, rfl, rfl, rfl, rfl, rfl, rfl⟩
  · split
    · exact ⟨rfl, rfl, rfl, rfl, rfl, rfl, rfl, rfl, rfl, rfl, rfl, rfl, rfl⟩
    · split
      · exact ⟨rfl, rfl, rfl, rfl, rfl, rfl, rfl, rfl, rfl, rfl, rfl, rfl, rfl⟩
      · rw [time]; exact ⟨rfl, rfl, rfl, rfl, rfl, rfl, rfl, rfl, rfl, rfl, rfl, rfl, rfl⟩

theorem cmd_next (i : Instr) (s : State) (f : State → State) : ∃ t, cmd i s f = .next t ∧ t.pending = s.pending ∧ t.clk = s.clk
    ∧ t.flash = s.flash ∧ (i.wellFormed = false → t = s) := by
  refine ⟨_, rfl, ?_, ?_, ?_, fun h => by rw [h]; rfl⟩ <;> split <;> rfl

theorem cmdDeck_next (i : Instr) (s : State) (f : State → State) : ∃ t, cmdDeck i s f = .next t ∧ t.pending = s.pending ∧ t.clk = s.clk
    ∧ t.flash = s.flash ∧ (i.wellFormed = false → t = s) := by
  refine ⟨_, rfl, ?_, ?_, ?_, fun h => by rw [h]; rfl⟩ <;> split <;> rfl

theorem cmdBig_next (i : Instr) (s : State) (f : State → State) : ∃ t, cmdBig i s f = .next t ∧ t.pending = s.pending ∧ t.clk = s.clk
    ∧ t.flash = s.flash ∧ (i.wellFormed = false → t = s) := by
  refine ⟨_, rfl, ?_, ?_, ?_, fun h => by rw [h]; rfl⟩ <;> split <;> rfl

theorem cmd_stores {i : Instr} {s t : State} {f : State → State} (h : cmd i s f = .next t) (k : s.stores) : t.stores := by
  obtain ⟨-, -, a, b, c, -⟩ := cmd_keeps h
  unfold State.stores
  rw [a, b, c]
  exact k

theorem cmdDeck_stores {i : Instr} {s t : State} {f : State → State} (h : cmdDeck i s f = .next t) (k : s.stores) : t.stores := by
  obtain ⟨-, -, a, b, c⟩ := cmdDeck_keeps h
  unfold State.stores
  rw [a, b, c]
  exact k

theorem cmdBig_stores {i : Instr} {s t : State} {f : State → State} (h : cmdBig i s f = .next t) (k : s.stores)
    (g : i.wellFormed = true → okFuses (f s).fuses = true ∧ (f s).mram.wf = true) : t.stores := by
  obtain ⟨-, -, a⟩ := cmdBig_keeps h
  unfold cmdBig at h
  injection h with h
  subst h
  split
  · rename_i w
    exact ⟨k.1, (g w).2, (g w).1⟩
  · exact k

/-- The fuse array and the MRAM of a state have their form. -/
def romOk (s : State) : Prop := okFuses s.fuses = true ∧ s.mram.wf = true

theorem romOk_set {s t : State} (h : romOk s) (f : t.fuses = s.fuses) (m : t.mram = s.mram) : romOk t := by
  unfold romOk
  rw [f, m]
  exact h

theorem romOk_restore (u : State) (h : romOk u) : romOk (restoreKitty u) := by
  have time : ∀ v : State, ∃ r x, restoreTime v = { v with regs := r, time := x } := by
    intro v
    unfold restoreTime
    have h : ∀ (l : List Nat) (x : State), ∃ r, l.foldl (fun s p => [false, true].foldl (fun s tx =>
        setReg s (aTrim p tx) (memNat s.kitty (kTime + 0x1000 + 16 * p + (if tx then 8 else 0)) 8 % 2 ^ 32)) s) x = { x with regs := r } := by
      intro l
      induction l with
      | nil => intro x; exact ⟨x.regs, rfl⟩
      | cons k l ih =>
        intro x
        rw [List.foldl_cons]
        have : ∃ r, [false, true].foldl (fun s tx =>
          setReg s (aTrim k tx) (memNat s.kitty (kTime + 0x1000 + 16 * k + (if tx then 8 else 0)) 8 % 2 ^ 32)) x = { x with regs := r } := ⟨_, rfl⟩
        obtain ⟨r, hr⟩ := this
        rw [hr]
        obtain ⟨r', hr'⟩ := ih { x with regs := r }
        exact ⟨r', hr'⟩
    obtain ⟨r, hr⟩ := h (List.range 256) { v with time := { v.time with rate := sint 40 (memNat v.kitty (kTime + 8) 8) } }
    exact ⟨r, _, hr⟩
  unfold restoreKitty
  dsimp only
  split
  · exact h
  · split
    · exact h
    · split
      · exact h
      · rename_i b _ _ _
        obtain ⟨r, x, e⟩ := time _
        rw [e]
        exact ⟨h.1, Mem.wf_memWrite _ _ h.2⟩

theorem romOk_train (s : State) (ls : List W64) (h : romOk s) : romOk (train s ls) := by
  have := train_hbm s ls
  unfold SameButHbm at this
  rw [this]
  exact h

theorem romOk_kept (x y : State) (h : romOk x) : romOk (keepLast x (keepStores x y)) := h

theorem romOk_sequence (s : State) (f : PowerOnFacts) (b : Bool) (hf : okFuses f.fuses = true) (h : romOk s) : romOk (sequence s f b) := by
  have l : romOk (setStep (loadFuses s f) 2) := by
    refine ⟨?_, h.2⟩
    show okFuses (if f.trimHalt = true then s.fuses else f.fuses) = true
    split
    · exact h.1
    · exact hf
  obtain ⟨v, hv⟩ : ∃ v, v = setStep (loadFuses s f) 2 := ⟨_, rfl⟩
  rw [← hv] at l
  have ts : romOk (setStep (train (if b then restoreKitty (clocksUp (drawSeeds (avsWrite v)) f) else clocksUp (drawSeeds (avsWrite v)) f) f.training) 5) := by
    refine romOk_set (romOk_train (if b then restoreKitty (clocksUp (drawSeeds (avsWrite v)) f) else clocksUp (drawSeeds (avsWrite v)) f) f.training ?_) rfl rfl
    cases b with
    | true => exact romOk_restore _ (romOk_set l rfl rfl)
    | false => exact romOk_set l rfl rfl
  unfold sequence
  dsimp only
  rw [← hv]
  obtain ⟨x, hx⟩ : ∃ x, x = setStep (train (if b = true then restoreKitty (clocksUp (drawSeeds (avsWrite v)) f) else clocksUp (drawSeeds (avsWrite v)) f) f.training) 5 := ⟨_, rfl⟩
  rw [← hx] at ts ⊢
  split
  · exact l
  · split
    · exact ts
    · exact romOk_kept _ _ ts

theorem romOk_l1 (n : Nat) (s : State) (h : romOk s) : romOk (l1 n s) := h

theorem romOk_l2 (n : Nat) (s : State) (h : romOk s) : romOk (l2Base n s) := h

theorem romOk_l2From (s : State) (n : Nat) (f : PowerOnFacts) (hf : okFuses f.fuses = true) (h : romOk s) : romOk (l2From s n f) := by
  unfold l2From
  split
  · exact romOk_l1 _ _ h
  · exact romOk_sequence _ _ _ hf (romOk_l2 _ _ h)

theorem romOk_keep (s t : State) (h : romOk s) : romOk (keepStores s t) := h

theorem romOk_save (s : State) (t : SaveTrigger) (k : Nat) (h : romOk s) : romOk (saveKitty s t k) := by
  unfold saveKitty
  have a := romOk_keep s (kittyFence (mirrorDrain s) t (nextSave s)) h
  generalize keepStores s (kittyFence (mirrorDrain s) t (nextSave s)) = v at a
  exact ⟨a.1, Mem.wf_memWrite _ _ (Mem.wf_memWrite _ _ (Mem.wf_memWrite _ _ a.2))⟩

end Sys2Proof.Machine
end

