-- ==== Sys2Proof/Laws/Zatas.lean ====
section
/-!
SUPPORT. The control plane: a raw frame received and parsed, the session that a frame updates, a raw frame sent, and the common parts of the
transactions FOLD, UNFOLD, INJECT and DEAL_COMMIT (15_zatas_control_protocol.md R334 to R357).
-/
namespace Sys2Proof.Machine

open Sys2Proof

theorem rawIn_cp {cp : Nat} {f b : List Byte} {e : Encap} (h : rawIn cp f = some (e, b)) : e.cp = cp := by
  unfold rawIn at h
  split at h
  · simp only [Option.some.injEq, Prod.mk.injEq] at h; rw [← h.1]
  · simp at h

theorem sessOf_set (s : State) (n : Nat) (x : Session) : sessOf (setSess s n x) n = x := by
  unfold sessOf setSess; exact kgetD_kset_same _ _ _ _

theorem heardFrom_sess (s : State) (e : Encap) (n a k : Nat) : sessOf (heardFrom s e n a k) n =
    { sessOf s n with
      enc := e, lastClk := s.clk, sack := k,
      hack := if 0 < seqDiff a (sessOf s n).hack then a else (sessOf s n).hack,
      kept := if 0 < seqDiff a (sessOf s n).hack then kfilter (sessOf s n).kept fun q _ => 0 ≤ seqDiff q a else (sessOf s n).kept } := by
  unfold heardFrom
  dsimp only
  rw [sessOf_set]

theorem rawIn_raw (s : State) (cp : Nat) (peer msg : List Byte) (h : peer.length = 6) (hm : msg ≠ []) :
    rawIn cp (rawFrame s cp peer msg) = some (⟨cp, peer, [], none⟩, msg) := by
  have t6 : (toBytes 6 (ctlMac s cp)).length = 6 := toBytes_length _ _
  have f : rawFrame s cp peer msg = (toBytes 6 (ctlMac s cp) ++ peer) ++ (toBytes 2 0x88B5 ++ msg) := by
    unfold rawFrame
    rw [List.append_assoc (toBytes 6 _ ++ peer)]
    rfl
  have l12 : (toBytes 6 (ctlMac s cp) ++ peer).length = 12 := by rw [List.length_append, t6, h]
  have e12 : fld (rawFrame s cp peer msg) 12 2 = 0x88B5 := by
    rw [f, fld_mid _ _ l12]
    all_goals rfl
  have vl : vlanOf (rawFrame s cp peer msg) = [] := by unfold vlanOf; rw [e12]; rfl
  have ae : afterEth (rawFrame s cp peer msg) = msg := by
    unfold afterEth; rw [vl]
    have : rawFrame s cp peer msg = ((toBytes 6 (ctlMac s cp) ++ peer) ++ toBytes 2 0x88B5) ++ msg := by rw [f, List.append_assoc _ (toBytes 2 _)]
    rw [this]
    exact List.drop_left' (by rw [List.length_append, l12]; rfl)
  have sp : slice (rawFrame s cp peer msg) 6 6 = peer := by
    rw [f, List.append_assoc]
    exact slice_mid _ _ _ t6 h
  have ne : ¬ (msg.isEmpty = true) := by cases msg with | nil => exact absurd rfl hm | cons => simp
  unfold rawIn ctlType
  rw [ae, vl, if_neg ne, sp]
  rw [show 12 + ([] : List Byte).length = 12 by rfl, e12, if_pos rfl]

theorem parseMsg_ne {b : List Byte} {m : ZMsg} (h : parseMsg b = some m) : 48 ≤ b.length := by
  unfold parseMsg at h
  dsimp only at h
  split at h
  · simp at h
  · rename_i c
    simp only [Bool.or_eq_true, decide_eq_true_eq, not_or] at c
    omega

theorem ctlRx_raw {s : State} {cp : Nat} {peer msg : List Byte} {m : ZMsg} (hp : peer.length = 6) (hz : zatUp s = true) (hl : ctlLink s cp = true)
    (hu : zatUdp s = false) (hlen : msg.length ≤ 9198) (h : parseMsg msg = some m) :
    ctlRx s cp (rawFrame s cp peer msg) true =
      msgRx (cross s (105 + cp % 2) 256 (chunks 256 (rawFrame s cp peer msg))) ⟨cp, peer, [], none⟩ m := by
  have l : (rawFrame s cp peer msg).length = 14 + msg.length := by
    unfold rawFrame
    simp [hp]
    omega
  have n48 := parseMsg_ne h
  obtain ⟨t, ht⟩ : ∃ t, t = cross s (105 + cp % 2) 256 (chunks 256 (rawFrame s cp peer msg)) := ⟨_, rfl⟩
  have ts : zatUdp t = zatUdp s ∧ ctlMac t cp = ctlMac s cp := by
    obtain ⟨_, _, e⟩ := cross_frame s (105 + cp % 2) 256 (chunks 256 (rawFrame s cp peer msg))
    rw [ht, e]
    exact ⟨rfl, rfl⟩
  unfold ctlRx
  rw [if_neg (by simp [hz, hl]), if_neg (by simp), if_neg (by omega)]
  dsimp only
  rw [← ht, ts.1, hu, if_neg (by simp)]
  dsimp only
  unfold decap
  have rf : rawFrame s cp peer msg = rawFrame t cp peer msg := by unfold rawFrame; rw [ts.2]
  rw [ts.1, hu, if_neg (by simp), rf, rawIn_raw t cp peer msg hp (by intro e; rw [e] at n48; simp at n48)]
  dsimp only
  rw [h]

theorem findUp_first {p : Nat → Bool} {i : Nat} : ∀ (n lo : Nat), lo ≤ i → i < lo + n → p i = true → (∀ j, lo ≤ j → j < i → p j = false) →
    findUp n lo p = some i := by
  intro n
  induction n with
  | zero => intro lo h1 h2; omega
  | succ n ih =>
    intro lo h1 h2 hp hl
    unfold findUp
    by_cases e : lo = i
    · rw [e, hp]; rfl
    · rw [hl lo (Nat.le_refl _) (by omega)]
      exact ih (lo + 1) (by omega) (by omega) hp fun j a b => hl j (by omega) b

/-- A control frame leaves through its control queue: nothing else that a session holds changes (R28, R337). -/
theorem ctlSend_frame (s : State) (cp : Nat) (f : List Byte) :
    ∃ r x h, ctlSend s cp f = { s with sent := s.sent ++ [.control cp f], regs := r, xq := x, high := h } := by
  unfold ctlSend cross raiseHigh
  dsimp only
  split <;> exact ⟨_, _, _, rfl⟩

theorem zatSend_raw (u : State) {e : Encap} {msg : List Byte} (h : e.ip = none) :
    zatSend u e msg = ctlSend u e.cp (e.mac ++ toBytes 6 (ctlMac u e.cp) ++ e.vlan ++ [0x88, 0xB5] ++ msg) := by
  unfold zatSend encapFrame
  rw [h]
  rfl

/-- The end of a frame whose outcomes are `out`. -/
theorem endFrame_kept {s : State} {n : Nat} {e : Exec} {x : Session} (hx : x = sessOf s n) (hi : e.enc.ip = none) (hf : bit e.flags 2 = false)
    (ht : trainFailed s = false) :
    ∃ msg, msg = zatMsg (some x.ks) 1 n (windowLeft s x) e.seq x.next (sackOf x) e.done
      ∧ (endFrame s n e).sent = s.sent ++ [.control e.enc.cp (e.enc.mac ++ toBytes 6 (ctlMac s e.enc.cp) ++ e.enc.vlan ++ [0x88, 0xB5] ++ msg)]
      ∧ sessOf (endFrame s n e) n = { x with exec := none, kept := kset x.kept e.seq msg } := by
  refine ⟨_, rfl, ?_⟩
  obtain ⟨msg, hm⟩ : ∃ msg, msg = zatMsg (some x.ks) 1 n (windowLeft s x) e.seq x.next (sackOf x) e.done := ⟨_, rfl⟩
  rw [← hm]
  have e1 : endFrame s n e = zatSend (setSess (setSess s n { x with exec := none }) n { x with exec := none, kept := kset x.kept e.seq msg }) e.enc msg := by
    unfold endFrame
    dsimp only
    have k : ∀ u : State, sessOf u n = { x with exec := none } → frameWindow u = frameWindow s → sessMsg u n 0 e.seq e.done = msg := by
      intro u hu hw
      unfold sessMsg
      dsimp only
      rw [hu, hm]
      unfold windowLeft
      rw [hw]
      rfl
    rw [← hx, k _ (sessOf_set _ _ _) rfl, hf, if_neg (by simp)]
    unfold keepResp
    dsimp only
    have tf : trainFailed (setSess s n { x with exec := none }) = false := ht
    rw [tf, if_neg (by simp), sessOf_set]
  rw [e1, zatSend_raw _ hi]
  obtain ⟨r, y, h, e2⟩ := ctlSend_frame (setSess (setSess s n { x with exec := none }) n { x with exec := none, kept := kset x.kept e.seq msg }) e.enc.cp
    (e.enc.mac ++ toBytes 6 (ctlMac (setSess (setSess s n { x with exec := none }) n { x with exec := none, kept := kset x.kept e.seq msg }) e.enc.cp) ++ e.enc.vlan ++ [0x88, 0xB5] ++ msg)
  rw [e2]
  refine ⟨rfl, ?_⟩
  show sessOf (setSess (setSess s n { x with exec := none }) n { x with exec := none, kept := kset x.kept e.seq msg }) n = _
  rw [sessOf_set]

theorem ringThreshold_reader (s : State) (r : Nat) : (ringOf (ringThreshold s r) r).credits = (ringOf s r).credits ∧ (ringOf (ringThreshold s r) r).reader = (ringOf s r).reader := by
  unfold ringThreshold holdPost
  dsimp only
  repeat' split
  all_goals first
    | exact ⟨rfl, rfl⟩
    | (unfold ringOf; dsimp only; rw [kgetD_kset_same]; exact ⟨rfl, rfl⟩)

theorem foldAddr_parts {b u : Nat} (all force : Bool) (hb : b < 256) (hu : u < 32) :
    foldAddr b u all force % 256 = b ∧ bits (foldAddr b u all force) 12 8 = u ∧ bit (foldAddr b u all force) 13 = all
    ∧ bit (foldAddr b u all force) 14 = force ∧ foldAddr b u all force < 2 ^ 15 ∧ (force = false → foldAddr b u all force < 2 ^ 14) := by
  unfold foldAddr bits bit b2n
  cases all <;> cases force <;> simp <;> omega

theorem opFold_run {s : State} {n b u : Nat} (all force : Bool) (h : ready s n 2) (hb : b < 256) (hu : u < 32) :
    opFold s n ⟨0x28, 0, foldAddr b u all force, []⟩ =
      if foldWf b u all = true then
        (fun s : State =>
          let us := foldUnits b u all
          let r := if force then us.foldl (fun x v => forceFold x b v) (0, s) else (0, s)
          let s := if force then joinAll r.2 b us r.1 else r.2
          if us.all (fun v => foldState s b v == .folded) then Ran.done stOk (foldAddr b u all force) (toBytes 8 r.1) s
          else .waits (.fold b u all force r.1) s) ((foldUnits b u all).foldl (fun s v => foldStart s b v) s)
      else .done stMalformed (foldAddr b u all force) [] s := by
  obtain ⟨h1, h2, h3, h4, h5, -⟩ := foldAddr_parts all force hb hu
  unfold opFold gate foldBlock foldUnit foldAll foldForce
  dsimp only
  rw [if_neg (Nat.not_lt.2 h.2.2), h1, h2, h3, h4]
  have : decide (foldAddr b u all force < 2 ^ 15) = true := by simpa using h5
  rw [this]
  simp only [List.isEmpty_nil, Bool.true_and]
  rfl

theorem opUnfold_run {s : State} {n b u : Nat} (all : Bool) (h : ready s n 2) (hb : b < 256) (hu : u < 32) :
    opUnfold s n ⟨0x29, 0, foldAddr b u all false, []⟩ =
      if foldWf b u all = true then
        (if (foldUnits b u all).any (fun v => foldState s b v == .folding) then Ran.done stBusy (foldAddr b u all false) [] s
        else .done stOk (foldAddr b u all false) [] (resumeInjects ((foldUnits b u all).foldl (fun s v => setFold s b v .open_) s)))
      else .done stMalformed (foldAddr b u all false) [] s := by
  obtain ⟨h1, h2, h3, h4, h5, h6⟩ := foldAddr_parts all false hb hu
  unfold opUnfold gate foldBlock foldUnit foldAll
  dsimp only
  rw [if_neg (Nat.not_lt.2 h.2.2), h1, h2, h3]
  have : decide (foldAddr b u all false < 2 ^ 14) = true := by simpa using h6 rfl
  rw [this]
  simp only [List.isEmpty_nil, Bool.true_and]
  rfl

theorem injParse_addr {p : Nat} (hp : p < 256) : bit (p * 256) 0 = false ∧ bits (p * 256) 15 8 = p := by
  unfold bit bits
  constructor
  · simp; omega
  · omega

theorem injQueue_addr {q : Nat} (hq : q < 65536) : bit (1 + q * 2 ^ 32) 0 = true ∧ bits (1 + q * 2 ^ 32) 47 32 = q := by
  unfold bit bits
  constructor
  · simp; omega
  · omega

theorem commit_fields (k : Nat) (hk : k < 3) : fld (toBytes 1 0 ++ toBytes 1 k ++ toBytes 6 0) 0 1 = 0 ∧ fld (toBytes 1 0 ++ toBytes 1 k ++ toBytes 6 0) 1 1 = k
    ∧ zeroed (toBytes 1 0 ++ toBytes 1 k ++ toBytes 6 0) 2 8 = true := by
  have : k = 0 ∨ k = 1 ∨ k = 2 := by omega
  rcases this with rfl | rfl | rfl <;> exact ⟨by decide, by decide, by decide⟩

/-- DEAL_COMMIT of the staging area: what runs once its checks have passed. -/
theorem opCommit_run {s u : State} {n k : Nat} {x : Except FailRec Img} (h : ready s n 3) (hk : k < 3) (h1 : portRefused s n = false) (h2 : dealBusy s = false)
    (h3 : otherOwner s n = false) (hl : loadImage s (deckArea s true) s.deck.stagedOk = (u, x)) :
    (∀ f, x = .error f → opCommit s n (commitTxn 0 k) = rejected u n (commitTxn 0 k) 0 f)
    ∧ (∀ i, x = .ok i → opCommit s n (commitTxn 0 k) = commitMode u n (commitTxn 0 k) 0 k i) := by
  obtain ⟨c1, c2, c3⟩ := commit_fields k hk
  unfold opCommit gate
  dsimp only
  have d : (commitTxn 0 k).data = toBytes 1 0 ++ toBytes 1 k ++ toBytes 6 0 := rfl
  rw [d, c1, c2, c3, if_neg (Nat.not_lt.2 h.2.2), h1, h2, h3]
  have len : ((commitTxn 0 k).addr == 0 && (toBytes 1 0 ++ toBytes 1 k ++ toBytes 6 0).length == 8 && decide (0 < 4) && decide (k < 3) && true && ((0 : Nat) != 1 || k == 2)) = true := by
    simp [commitTxn, hk]
  rw [if_pos len]
  have st : stage s n 0 = (none, s) := rfl
  simp only [Bool.false_or, Bool.and_false, Bool.false_eq_true, if_false, st]
  have z1 : decide ((0 : Nat) = 1) = false := rfl
  have e1 : decide ((0 : Nat) ≠ 1) = true := rfl
  simp only [z1, Bool.false_or, Bool.false_and, decide_true, Bool.true_and, Bool.false_eq_true, if_false, e1]
  rw [hl]
  exact ⟨fun f e => by rw [e], fun i e => by rw [e]⟩

end Sys2Proof.Machine
end

