-- ==== Sys2Proof/Tests/Slice0.lean ====
section
/-!
SUPPORT. Witnesses that the hypotheses of each statement of Certificates/Slice0/Obligations.lean can be met, one
ill-formed command for each check of WellFormed.lean, and single steps whose results are worked out from the rule named.
-/
open Sys2Proof Sys2Proof.Machine

namespace Sys2Proof.Tests

set_option Elab.async false

/-- Session 1 is OPEN at level `k`; nothing else stands in the control plane. -/
def hostAt (k : Nat) (s : State) : State :=
  { s with zat := { s.zat with sessions := [(1, { Session.free with state := .opened, level := k })] } }

theorem ready_hostAt (s : State) (k : Nat) {lvl : Nat} (h : lvl ≤ k) : ready (hostAt k s) 1 lvl := ⟨rfl, rfl, h⟩

/-- Every clock reads good, the stacks are trained, and CP0's link is up. -/
def live : State :=
  { State.reset with rst := { Rst.reset with step := 15, good := 0x1FFFFFF }, hbmc := { Hbm.reset with trained := 15 },
                     zat := { Zat.reset with link0 := true } }

/-- `live` with session 1 at PRIVILEGED. -/
def host : State := hostAt 3 live
theorem ready_host {lvl : Nat} (h : lvl ≤ 3) : ready host 1 lvl := ready_hostAt _ _ h

/-- `s` with a deck applied. -/
def dealt (s : State) : State := { s with deck := { s.deck with phase := .active, dealt := true } }

/-! ## Witnesses of the structural statements -/

theorem witness_AStepRunsTheFrontCommand : { State.reset with pending := [.epochSwitch] }.pending = .epochSwitch :: [] := rfl
theorem witness_AnEmptyQueueLetsOneClockPass :
    (∀ s ∈ [State.reset, live], s.pending = [] ∧ s.coreTime = [] ∧ s.time.genDue = [] ∧ ¬ (s.clk + 1) % 1600000000 = 0 ∧ s.clk + 1 ≠ s.rst.heldTill)
    ∧ bit State.reset.rst.good 6 = false ∧ (bit live.rst.good 6 = true ∧ live.time.phase16 < 11)
    ∧ ∃ s : State, s.pending = [] ∧ s.coreTime = [] ∧ s.time.genDue = [] ∧ ¬ (s.clk + 1) % 1600000000 = 0 ∧ s.clk + 1 ≠ s.rst.heldTill ∧ bit s.rst.good 6 = true ∧ 11 ≤ s.time.phase16 :=
  ⟨by decide, rfl, ⟨rfl, by decide⟩, { live with time := { live.time with phase16 := 11 } }, by decide⟩
theorem witness_EveryCommandCompletes : (Instr.ping 0 []).wellFormed = false ∧ (Instr.ping 65 []).wellFormed = false := by decide
theorem witness_StoresOutsideTheRunningPartAreKept : ∃ t, exec .epochSwitch State.reset = .next t := ⟨_, rfl⟩
theorem witness_TheStoresKeepTheirForm : State.reset.stores ∧ ∃ t, step State.reset = .next t := ⟨⟨rfl, rfl, by decide⟩, _, rfl⟩
theorem witness_AddressErrorsAreReportedInOrder : ready host 1 2 ∧ bulkCount 8 = true ∧ bulkCount 8192 = true ∧ bulkCount (List.replicate 8 (0 : Byte)).length = true
    ∧ (blockRows (0x7F0000000000 / 2 ^ 40) = none ∧ 0x7F0000000000 / 2 ^ 40 ≠ 0x80)
    ∧ (0x801800000000 ≤ 0x801800000000 ∧ 0x801800000000 / 2 ^ 40 = 0x80)
    ∧ ((blockRows (0x101 / 2 ^ 40)).isSome ∧ 0x101 % 8 ≠ 0)
    ∧ (0xFFFFFFFFF8 % 8 = 0 ∧ ∃ rows, blockRows (0xFFFFFFFFF8 / 2 ^ 40) = some rows ∧ rowFind rows 0xFFFFFFFFF8 = none) :=
  ⟨ready_host (by decide), by decide, by decide, by decide, by decide, by decide, by decide, by decide, _, rfl, by decide⟩
theorem witness_AccessLevelsOfTopAndResetRegisters : ready (hostAt 1 live) 1 1 ∧ levelOf (hostAt 1 live) 1 = 1 ∧ ready (hostAt 2 live) 1 1
    ∧ 2 ≤ levelOf (hostAt 2 live) 1 ∧ levelOf (hostAt 2 live) 1 < 3 ∧ ready host 1 1 ∧ levelOf host 1 = 3 ∧ (1 : W64).toNat % 2 ^ 32 ≠ wdogPeriod host :=
  ⟨ready_hostAt _ _ (by decide), by decide, ready_hostAt _ _ (by decide), by decide, by decide, ready_host (by decide), by decide⟩
theorem witness_PlainRegistersAndCountersAreReadAndWritten :
    (∃ r ix m d, regPlace 0x0C0000000000 = .ok (r, ix) ∧ r.kind = .plain m d ∧ r.rl ≤ levelOf host 1 ∧ r.wl ≤ levelOf host 1)
    ∧ (∃ r ix, regPlace aRowErr = .ok (r, ix) ∧ r.kind = .counter ∧ r.wl ≤ levelOf host 1) ∧ noLaneWord aRowErr = false ∧ ready host 1 2
    ∧ regRaw host aRowErr 0 % 2 ^ 48 + 1 < 2 ^ 48
    ∧ ∃ s : State, regRaw s aRowErr 0 % 2 ^ 48 = 2 ^ 48 - 1 :=
  ⟨⟨_, _, _, _, rfl, rfl, by decide⟩, ⟨_, _, rfl, rfl, by decide⟩, by decide, ready_host (by decide), by decide,
   { host with regs := [(aRowErr, 0xFFFFFFFFFFFF)] }, by decide⟩
/-- `n` bytes, zero but where `xs` says. -/
def bytes (n : Nat) (xs : KMap Byte) : List Byte := (List.range n).map fun i => kgetD xs i 0

/-- A PORTMAP octet with the two-port lane bytes, OPT of port 0, and the MAX_FRAME and thresholds of Table 5.3: port 0 of one
lane, port 1 unused. -/
def octet (opt : Byte) : List Byte :=
  bytes 32 [(0, 0x81), (16, opt), (24, 0x05), (25, 0xEE), (26, 0x01), (28, 0x02), (29, 0x01), (30, 0x04)]

/-- A dealt part with port 0 of one lane, its link up, and more cold segments. -/
def ported (opt : Byte) (cold : KMap (List Byte)) (s : State) : State :=
  { s with deck := { s.deck with phase := .active, contract := 1, dealt := true },
           cold := (tyPortmap, octet opt) :: cold,
           ports := [(0, { portOf s 0 with up := true })] }

theorem witness_WindowsAndReadOnlyWordsKeepTheirAccessRules : ready host 1 2
    ∧ (∃ r ix, regPlace 0x010000000008 = .ok (r, ix) ∧ r.wl ≤ levelOf host 1 ∧ r.kind = .ro)
    ∧ (∃ r ix, regPlace 0x10000000 = .ok (r, ix) ∧ r.wl ≤ levelOf host 1 ∧ r.kind = .window)
    ∧ (bulkCount 8 = true ∧ windowStatus host true 0x200000000 8 = stOk ∧ windowStatus host true (0x17EB800000 - 8) 8 = stOk)
    ∧ (host.hbmc.trained % 16 = 15 ∧ windowStatus host false 0 8 = stOk ∧ windowStatus host false (hbmBytes - 8) 8 = stOk)
    ∧ (trainFailed host = false ∧ 0x17EB800000 + 8 ≤ hbmBytes ∧ 0x17FFFFFFF8 + 8 ≤ hbmBytes ∧ (0x17EB800000 ≤ 0x17FFFFFFF8 ∧ 0x17FFFFFFF8 < 0x1800000000)
      ∧ host.rst.foldFlow ≠ .folded ∧ fgF host 13 1 * 2 ^ 32 ≤ 0x1FFFFFFF8 ∧ 0x1FFFFFFF8 < (fgF host 13 1 + 2) * 2 ^ 32) :=
  ⟨ready_host (by decide), ⟨_, _, rfl, by decide, rfl⟩, ⟨_, _, rfl, by decide, rfl⟩, by decide⟩

theorem witness_PingMarksAndLatches : ready host 1 0 ∧ ready host 1 1 ∧ ready host 1 2
    ∧ (∃ s : State, ready s 1 2 ∧ 142 = regRaw s 0x280000000100 0 % 256) ∧ (regRaw host 0x280000000100 0 % 256 < 143) ∧ 7 < 8 :=
  ⟨ready_host (by decide), ready_host (by decide), ready_host (by decide), ⟨{ host with regs := [(0x280000000100, 142)] }, ⟨rfl, rfl, by decide⟩, by decide⟩,
   by decide⟩

theorem witness_WatchdogAndVolatileKeyCommands : ready host 1 3 ∧ levelOf host 1 = 3 ∧ ready (hostAt 2 live) 1 2 ∧ levelOf (hostAt 2 live) 1 < 3
    ∧ (7 : W32).toNat ≠ wdogPeriod (hostAt 2 live) ∧ (0 : W32).toNat = wdogPeriod (hostAt 2 live) ∧ (8 ≤ 8 ∧ 8 < 16) ∧ (8 ≤ 15 ∧ 15 < 16) ∧ (1 ≤ 3 ∧ 3 < 4) :=
  ⟨ready_host (by decide), by decide, ready_hostAt _ _ (by decide), by decide⟩

/-- In step 9 lane group 15 is the last to start; in `step := 7` others are due too. -/
def grouping (due : List Nat) : State := { ported 0 [] live with rst := { live.rst with step := 9, goHeld := false, groupsDue := due } }

theorem witness_LanesGroupsAndPortControl : (ready host 1 2 ∧ 255 < 256 ∧ 0x11 = (0x11 : W64).toNat ∧ 0x11 = regRaw { host with regs := [(aLane 255 + 8, 0x11)] } (aLane 255 + 8) 0)
    ∧ (257 < 258 ∧ bit (2 ^ 20) 20 = true ∧ bit 0 20 = false ∧ 2 ^ 40 - 1 < 2 ^ 40 ∧ 2 ^ 41 - 1 < 2 ^ 41 ∧ 2 ^ 40 ≤ 2 ^ 41 - 1)
    ∧ (hasDeck (grouping [15]) = true ∧ (grouping [15]).rst.goHeld = false ∧ (grouping [15]).rst.groupsDue.contains 15 = true
      ∧ (grouping [15]).rst.step = 9 ∧ [] = (grouping [15]).rst.groupsDue.filter (· != 15))
    ∧ ((grouping [0, 15]).rst.groupsDue.contains 0 = true ∧ (grouping [0, 15]).rst.groupsDue.filter (· != 0) ≠ [])
    ∧ (let s := hostAt 3 (ported 0 [] live)
       ready s 1 2 ∧ isPort s 255 = false ∧ isPort s 0 = true ∧ bit (1 : W64).toNat 1 = false ∧ bit (2 : W64).toNat 1 = true ∧ (portOf s 0).up = true
        ∧ (portOf s 0).txq = []) :=
  ⟨⟨ready_host (by decide), by decide⟩, by decide, by decide, by decide,
   ready_hostAt _ _ (by decide), by decide⟩

/-- TM records: queue 5's, group 2's; the QUEUES records of queues 0 to 9 on port 0 with profile 0. -/
def queueRange : List Byte := bytes 32 [(0, 2), (1, 0), (2, 0), (3, 0), (4, 0), (5, 9), (6, 0)]
def queued : State := hostAt 3 (ported 0 [(tyQueues, queueRange)] live)
def aPotFrame : PotFrame := { id := 3, hdr := bytes 32 [], bytes := bytes 60 [], slot := false, whole := true, bad := false, visible := true, cut := false,
                              started := false, cells := [7], enqTime := 0, relClk := 0, gateHeld := false, launched := false, macEd := [],
                              fromClk := 0, poison := false }
def queuedWith (f : PotFrame) : State := { queued with queues := [(5, { queueOf queued 5 with frames := [f] })] }

theorem witness_SchedulerAndTrafficConfigurationWrites : ready queued 1 2 ∧ (13 < 14 ∧ 14 ≤ 15 ∧ 15 < 16)
    ∧ 1600000 < bits (1600001 : W64).toNat 20 0 ∧ shaperUsed queued 0 10 = false
    ∧ (bits (1600000 : W64).toNat 20 0 ≤ 1600000 ∧ bits (0x050000000000 + 1600000 : W64).toNat 55 40 = 5 ∧ shaperUsed queued 0 5 = true)
    ∧ bits (0x10000 : W64).toNat 34 16 ≠ bits (queueCfg (queuedWith aPotFrame) 5) 34 16
    ∧ (qDepth (queuedWith aPotFrame) 5 != 0 || inEgress (queuedWith { aPotFrame with started := true }) 5) = true
    ∧ (qDepth queued 65535 != 0 || inEgress queued 65535) = false ∧ 65535 < 65536 ∧ bits (0 : W64).toNat 34 16 = bits (queueCfg queued 65535) 34 16 :=
  ⟨ready_hostAt _ _ (by decide), by decide⟩

def fetchReq (done : Bool) : HbmReq := { source := 0, addr := 0, len := 32, line := 5, clk := 0, seq := 0, done := done }
theorem witness_HbmControllerAndItsRegisters : ready host 1 3 ∧ host.deck.dealt = false
    ∧ ((List.range 12).all fun i => bits (7 : W64).toNat (3 * i + 2) (3 * i) != 7) = false
    ∧ ((List.range 12).all fun i => bits (1 : W64).toNat (3 * i + 2) (3 * i) != 7) = true
    ∧ (∃ s : State, ready s 1 3 ∧ s.deck.dealt = true ∧ s.rst.foldFlow ≠ .folded)
    ∧ (∃ s : State, ready s 1 3 ∧ s.rst.foldFlow = .folded ∧ s.hbmc.retrain = none) ∧ (∃ s : State, ready s 1 3 ∧ s.hbmc.retrain = some 2)
    ∧ (∀ done, ∃ s : State, 127 < 128 ∧ 3 = 127 / 32 ∧ inRefresh s 3 = false ∧ s.hbmc.retrain ≠ some 3 ∧ nextBank s 127 = some 47
        ∧ bankReqs s 127 47 = [fetchReq done] ∧ (fetchReq done).done = done)
    ∧ (∃ s : State, 3 < 4 ∧ s.hbmc.epoch = some 0 ∧ bit s.rst.good (1 + 3) = true ∧ (s.clk - 0) % 6240 = 1560 * 3 ∧ kget s.hbmc.refAt 3 ≠ some s.clk)
    ∧ (3 < 4 ∧ bit live.hbmc.trained 3 = true)
    ∧ (∃ s : State, s.hbmc.retrain = some 3 ∧ (List.replicate 160 (0 : W64)).length = 160) :=
  ⟨ready_host (by decide), by decide, by decide, by decide, ⟨hostAt 3 (ported 0 [] live), ready_hostAt _ _ (by decide), by decide⟩,
   ⟨{ host with rst := { host.rst with foldFlow := .folded } }, ⟨rfl, rfl, by decide⟩, rfl, rfl⟩,
   ⟨{ host with hbmc := { host.hbmc with retrain := some 2 } }, ⟨rfl, rfl, by decide⟩, rfl⟩,
   fun d => ⟨{ live with hbmc := { live.hbmc with reqs := [(127 * 48 + 47, [fetchReq d])] } }, by cases d <;> decide⟩,
   ⟨{ live with clk := 4680, hbmc := { live.hbmc with epoch := some 0 } }, by decide⟩, by decide,
   ⟨{ live with hbmc := { live.hbmc with retrain := some 3 } }, rfl, rfl⟩⟩

theorem witness_SessionsTimeOutAndAcknowledge : okSession 64 = true ∧ okSession 1 = true
    ∧ (sessOf { live with zat := { live.zat with sessions := [(64, { Session.free with state := .challenged })] } } 64).state = .challenged
    ∧ (sessOf host 1).state = .opened ∧ (sessOf host 1).state ≠ .challenged ∧ (sessOf live 1).state ≠ .opened
    ∧ zatUp host = true ∧ ctlLink host (sessOf host 1).enc.cp = true ∧ (sessOf host 1).enc.ip = none
    ∧ (0 < seqDiff (5 : W32).toNat (sessOf host 1).hack) ∧ seqDiff (0 : W32).toNat (sessOf host 1).hack ≤ 0
    ∧ ((sessOf host 1).ackDue = false ∧ (sessOf host 1).rx = [] ∧ (sessOf host 1).exec = none)
    ∧ (∃ s : State, (sessOf s 1).state = .opened ∧ (sessOf s 1).enc.ip = none ∧ (sessOf s 1).ackDue = true) :=
  ⟨by decide, by decide, by decide, by decide, by decide, by decide, by decide, by decide, by decide, by decide, by decide, by decide,
   { live with zat := { live.zat with sessions := [(1, { Session.free with state := .opened, ackDue := true })] } }, by decide⟩

/-! ## Control plane -/

/-- A WRITE of zero from session 1 in frame SEQ 256, sealed under the empty session key, as a raw frame to CP0. -/
def sealedMsg : List Byte := zatMsg (some []) 1 1 0 256 0 0 [⟨9, 0, 0, 0, toBytes 8 0⟩]
def rawTo0 (msg : List Byte) : List Byte := rawFrame live 0 (List.replicate 6 2) msg

/-- The frame is read back as sent: session, SEQ, a transaction that needs a deck, and a good tag. -/
theorem sealed_reads : (parseMsg sealedMsg).map (fun m => (m.session, m.seq, m.txns.any fun t => !preDealOp t.op, tagOk [] m)) = some (1, 256, true, true) := by
  decide +kernel
/-- With the tag left zero the same frame fails its tag. -/
theorem unsealed_reads : (parseMsg (zatMsg none 1 1 0 0 0 0 [])).map (fun m => (m.session, tagOk [] m)) = some (1, false) := by decide +kernel

theorem witness_ControlFramesAreCheckedAndTakenIn : (zatUp State.reset && ctlLink State.reset 1) = false ∧ 1 < 2
    ∧ zatUp host = true ∧ ctlLink host 0 = true ∧ 9212 < (List.replicate 9213 (0 : Byte)).length ∧ (List.replicate 9212 (0 : Byte)).length ≤ 9212
    ∧ zatUdp host = false ∧ rawIn 0 (List.replicate 60 0) = none
    ∧ (∃ e b, rawIn 0 (rawTo0 [1, 2, 3]) = some (e, b) ∧ parseMsg b = none)
    ∧ (∃ e b m, rawIn 0 (rawTo0 (zatMsg none 1 2 0 0 0 0 [])) = some (e, b) ∧ parseMsg b = some m ∧ m.session ≠ 0 ∧ (sessOf host m.session).state = .free)
    ∧ (∃ m, parseMsg (zatMsg none 1 1 0 0 0 0 []) = some m ∧ (sessOf host m.session).state = .opened ∧ tagOk (sessOf host m.session).ks m = false)
    ∧ (∃ m, parseMsg sealedMsg = some m ∧ (sessOf host m.session).state = .opened ∧ tagOk (sessOf host m.session).ks m = true ∧ m.txns ≠ []
        ∧ (frameWindow host : Int) ≤ seqDiff m.seq (sessOf host m.session).hack ∧ hasDeck host = false ∧ (m.txns.any fun t => !preDealOp t.op) = true
        ∧ seqDiff m.seq 1 < (frameWindow host : Int) ∧ 0 ≤ seqDiff m.seq (sessOf host m.session).next ∧ khas (sessOf host m.session).rx m.seq = false)
    ∧ ∃ s : State, hasDeck s = true ∧ (sessOf s 1).state = .opened ∧ (sessOf s 1).ks = [] ∧ (sessOf s 1).hack = 1 ∧ zatUp s = true ∧ ctlLink s 0 = true := by
  refine ⟨by decide, by decide, by decide, by decide, by rw [List.length_replicate]; decide, Nat.le_of_eq List.length_replicate, by decide, by decide +kernel,
    ?_, ?_, ?_, ?_, ?_⟩
  · exact ⟨⟨0, List.replicate 6 2, [], none⟩, [1, 2, 3], by decide +kernel⟩
  · have h : (parseMsg (zatMsg none 1 2 0 0 0 0 [])).map (·.session) = some 2 := by decide +kernel
    cases e : parseMsg (zatMsg none 1 2 0 0 0 0 []) with
    | none => rw [e] at h; cases h
    | some m =>
      rw [e] at h
      simp only [Option.map_some, Option.some.injEq] at h
      exact ⟨⟨0, List.replicate 6 2, [], none⟩, _, m, by decide +kernel, e, by rw [h]; decide, by rw [h]; rfl⟩
  · cases h : parseMsg (zatMsg none 1 1 0 0 0 0 []) with
    | none => have := unsealed_reads; rw [h] at this; cases this
    | some m =>
      have := unsealed_reads
      rw [h] at this
      simp only [Option.map_some, Option.some.injEq, Prod.mk.injEq] at this
      refine ⟨m, rfl, ?_, ?_⟩
      · rw [this.1]; rfl
      · rw [this.1]; exact this.2
  · cases h : parseMsg sealedMsg with
    | none => have := sealed_reads; rw [h] at this; cases this
    | some m =>
      have := sealed_reads
      rw [h] at this
      simp only [Option.map_some, Option.some.injEq, Prod.mk.injEq] at this
      obtain ⟨a, b, c, d⟩ := this
      refine ⟨m, rfl, by rw [a]; rfl, by rw [a]; exact d, ?_, by rw [a, b]; decide, by decide, c, by rw [b]; decide, by rw [a, b]; decide, by rw [a, b]; decide⟩
      intro e
      rw [e] at c
      cases c
  · exact ⟨{ ported 0 [] live with zat := { live.zat with sessions := [(1, { Session.free with state := .opened, hack := 1 })] } }, rfl, rfl, rfl, rfl, rfl, rfl⟩

/-- Key slot 8 holds a key of level 3, and session 1 is CHALLENGED. -/
def challenged : State :=
  { live with zat := { live.zat with vkeys := [(0, ⟨List.replicate 32 9, 3⟩)], sessions := [(1, { Session.free with state := .challenged, np := List.replicate 16 5 })] } }
def challengedKey : List Byte := sessionKey (keySlot challenged 8).key 1 3 8 (List.replicate 16 5) (List.replicate 16 6)
def authMsg (key : Option (List Byte)) (level : Nat) : List Byte :=
  zatMsg key 0 1 0 0 0 0 [⟨2, 0, 0, 0, [8] ++ toBytes 1 level ++ toBytes 6 0 ++ List.replicate 16 6⟩]
/-- What the part reads from an AUTH frame. -/
def authSays (msg : List Byte) : Option (Bool × Nat × Nat × Bool × Bool) :=
  (parseMsg msg).bind fun m => match m.txns with
    | [a] => some (isAuth msg, m.session, msg.length, authOk challenged a, fld a.data 0 1 == 8 && fld a.data 1 1 == 3 && slice a.data 8 16 == List.replicate 16 6)
    | _ => none
theorem auth_reads : authSays (authMsg (some challengedKey) 3) = some (true, 1, 88, true, true) := by decide +kernel
theorem auth_tag : (parseMsg (authMsg (some challengedKey) 3)).map (tagOk challengedKey) = some true := by decide +kernel
/-- A level of 0 is refused, whatever the tag. -/
theorem auth_low : authSays (authMsg none 0) = some (true, 1, 88, false, false) := by decide +kernel

theorem witness_HelloChallengesAndAuthOpensASession : (List.replicate 6 (2 : Byte)).length = 6 ∧ zatUp challenged = true ∧ ctlLink challenged 0 = true ∧ zatUdp challenged = false
    ∧ (countSess live .challenged < 16 ∧ 1 ≤ 1 ∧ 1 ≤ maxSessions live ∧ (sessOf live 1).state = .free ∧ ∀ m, 1 ≤ m → m < 1 → (sessOf live m).state ≠ .free)
    ∧ (sessOf challenged 1).state = .challenged ∧ trainFailed challenged = false
    ∧ (∃ m a, parseMsg (authMsg (some challengedKey) 3) = some m ∧ m.txns = [a] ∧ m.session = 1 ∧ isAuth (authMsg (some challengedKey) 3) = true
        ∧ (authMsg (some challengedKey) 3).length ≤ 9198 ∧ authOk challenged a = true ∧ tagOk challengedKey m = true
        ∧ challengedKey = sessionKey (keySlot challenged (fld a.data 0 1)).key 1 (fld a.data 1 1) (fld a.data 0 1) (sessOf challenged 1).np (slice a.data 8 16))
    ∧ (∃ m a, parseMsg (authMsg none 0) = some m ∧ m.txns = [a] ∧ m.session = 1 ∧ isAuth (authMsg none 0) = true ∧ ∀ ks, (authOk challenged a && tagOk ks m) = false) := by
  refine ⟨by decide, by decide, by decide, by decide, ⟨by decide, by decide, by decide, by decide, fun m a b => by omega⟩, by decide, by decide, ?_, ?_⟩
  · have t := auth_tag
    have h := auth_reads
    unfold authSays at h
    cases e : parseMsg (authMsg (some challengedKey) 3) with
    | none => rw [e] at t; cases t
    | some m =>
      rw [e] at t h
      simp only [Option.map_some, Option.some.injEq, Option.bind_some] at t h
      split at h
      · rename_i a ha
        simp only [Option.some.injEq, Prod.mk.injEq, Bool.and_eq_true, beq_iff_eq] at h
        obtain ⟨h1, h2, h3, h4, ⟨h5, h6⟩, h7⟩ := h
        exact ⟨m, a, rfl, ha, h2, h1, by rw [h3]; decide, h4, t, by rw [h5, h6, h7]; rfl⟩
      · cases h
  · have h := auth_low
    unfold authSays at h
    cases e : parseMsg (authMsg none 0) with
    | none => rw [e] at h; cases h
    | some m =>
      rw [e] at h
      simp only [Option.bind_some] at h
      split at h
      · rename_i a ha
        simp only [Option.some.injEq, Prod.mk.injEq] at h
        exact ⟨m, a, rfl, ha, h.2.1, h.1, fun ks => by rw [h.2.2.2.1]; rfl⟩
      · cases h

/-- Strap bit 0 selects UDP over IPv6: `live` under it, and a solicitation of CP0's link-local address. -/
def udpLive : State := { live with rst := { live.rst with strap := 1 } }
def asker : List Byte := List.replicate 16 0x11
def solicitation : List Byte :=
  let own := linkLocal udpLive 0
  let p := fun c => [135, 0] ++ toBytes 2 c ++ toBytes 4 0 ++ own
  toBytes 6 (ctlMac udpLive 0) ++ List.replicate 6 2 ++ [0x86, 0xDD] ++ ip6Header 0 24 58 255 asker own ++ p (csumOf (pseudo6 asker own 24 58 ++ p 0))
/-- Two BULK_READs of 8,192 bytes exceed the room of a response; a PING does not. -/
def bigFrame : Req := ⟨⟨0, List.replicate 6 2, [], none⟩, 0, [⟨0x0B, 0, hbmBase, toBytes 8 8192⟩, ⟨0x0B, 0, hbmBase, toBytes 8 8192⟩]⟩
def pingFrame : Req := ⟨⟨0, List.replicate 6 2, [], none⟩, 0, [⟨3, 7, 0, List.replicate 64 1⟩]⟩
def framed (r : Req) : Session := { Session.free with state := .opened, next := 1, rx := [(0, r)] }

theorem witness_SolicitationsAnswersAndSessionFrames : (zatUp udpLive = true ∧ ctlLink udpLive 0 = true ∧ zatUdp udpLive = true ∧ solicitation.length ≤ 9212
      ∧ nsIn udpLive 0 solicitation = some (asker, linkLocal udpLive 0) ∧ zeros asker = false)
    ∧ ((framed bigFrame).state = .opened ∧ (framed bigFrame).exec = none ∧ seqDiff 0 (framed bigFrame).next < 0 ∧ bigFrame.enc.ip = none ∧ bit bigFrame.flags 2 = false
      ∧ trainFailed live = false ∧ frameRoom bigFrame.enc < responseBound bigFrame.txns)
    ∧ (∃ tag data, data.length ≤ 64 ∧ pingFrame.txns = [⟨3, tag, 0, data⟩]) :=
  ⟨by decide +kernel, by decide +kernel, _, _, by decide, rfl⟩

/-! ## Tables, tasks and flow -/

/-- One match table over every block; block 0 has a prefilter where `pf` says, and insert groups of 8 rows where `gap` says. -/
def matchGeom (gap pf : Byte) : List Byte := bytes 8 [(0, 0), (1, gap), (2, pf), (3, pf), (4, 0)]
def tabled (gap pf : Byte) : State := hostAt 3 (ported 0 [(tyMatchgeom, matchGeom gap pf)] live)
def rowItem0 (i : Nat) : List Byte := toBytes 4 i ++ bytes 92 []
def aRow : Row := ⟨0, 0, 0, 0, true, false⟩
/-- With no task and no suit, a task that the host posts runs. -/
theorem runs_now {s : State} (h : ksorted s.tasks = true ∧ kcount s.tasks 0 poolHandles < poolHandles ∧ ksorted s.tricks = true
    ∧ (tricksOf s (takeDealer s)).length < 256 ∧ held s = false ∧ s.lastDisp ≠ some s.clk) (t : s.tasks = []) (u : s.suits = []) : hostRuns s :=
  ⟨h.1, h.2.1, h.2.2.1, h.2.2.2.1, h.2.2.2.2.1, h.2.2.2.2.2, (fun e m => by rw [t] at m; cases m), (fun e m => by rw [u] at m; cases m)⟩

theorem witness_HostTableTransactionsActOnMatchRows :
    (let s := tabled 0 0
     ready s 1 2 ∧ hasDeck s = true ∧ hotBusy s = false ∧ 131071 < 131072 ∧ hostRuns s ∧ rowTable s 131071 = some 0 ∧ (rowItem0 131071).length = 96 ∧ fld (rowItem0 131071) 0 4 = 131071 ∧ rowReservedOk (rowItem0 131071) = true
      ∧ rowMaskOk (rowItem0 131071) = true ∧ preOk s (131071 / 2048) (itemRow s (rowItem0 131071)).value (itemRow s (rowItem0 131071)).mask = true ∧ s.moves = [])
    ∧ (let s := tabled 0 0xFF
       ready s 1 2 ∧ hasDeck s = true ∧ rowTable s 0 = some 0 ∧ preOk s (0 / 2048) (itemRow s (rowItem0 0)).value (itemRow s (rowItem0 0)).mask = false) :=
  ⟨⟨ready_hostAt _ _ (by decide), by decide, by decide, by decide, runs_now (by decide +kernel) rfl rfl, by decide +kernel⟩,
   ready_hostAt _ _ (by decide), by decide +kernel⟩

/-- A match insert in progress at row `i`, with its waiting transaction. -/
def moving (gap pf : Byte) (rows : KMap Row) (i : Nat) (hole : Option Nat) : State :=
  { tabled gap pf with rows := rows, moves := [⟨4, 0, i, hole, aRow⟩],
                       zat := { (tabled gap pf).zat with waits := [(4, ⟨1, true, ⟨0x12, 0, 2, []⟩, .matchMove⟩)] } }
def insertAt (s : State) (i : Nat) : Nat × Nat := (insertSpan s 0 i).getD (0, 0)

/-- One task, ready, in general-pool handle 9. -/
def readyTask : Task :=
  { state := .ready, count := 0, level := 0, list := 0, urgent := false, hand := 0, stock := 0, expiry := 0, delayed := false, order := 0, readyClk := 0, via := 17,
    body := ⟨[0, 0, 0, 0], none, none, 6, 0, false, 0, 0, 0⟩, kind := .micro }
def tasked (tricks : KMap Trick) : State :=
  { ported 0 [] live with tasks := [(9, readyTask)], tricks := tricks, hot0 := [(tyRoutines, bytes 16 [(0, 7), (1, 6)])] }

/-- Every context of the service dealers is taken. -/
def fullTricks : KMap Trick := (List.range 64).flatMap fun j => (List.range 256).map fun c => (256 * (224 + j) + c, Trick.blank)
theorem full_length {s : State} (h : s.tricks = fullTricks) (d : Nat) (lo : 224 ≤ d) (hi : d < 288) : (tricksOf s d).length = 256 := by
  have inner : ∀ j, (((List.range 256).map fun c => (256 * (224 + j) + c, Trick.blank)).filter fun e => e.1 / 256 == d).length = if 224 + j = d then 256 else 0 := by
    intro j
    rw [List.filter_map, List.length_map]
    by_cases e : 224 + j = d
    · rw [if_pos e, List.filter_eq_self.mpr, List.length_range]
      intro c hc
      have := List.mem_range.mp hc
      simp only [Function.comp, beq_iff_eq]
      omega
    · rw [if_neg e, List.filter_eq_nil_iff.mpr, List.length_nil]
      intro c hc
      have := List.mem_range.mp hc
      simp only [Function.comp, beq_iff_eq]
      omega
  unfold tricksOf kfilter
  rw [h]
  unfold fullTricks
  rw [List.filter_flatMap, List.length_flatMap]
  simp only [inner]
  exact (by decide +kernel : ∀ d < 288, 224 ≤ d → ((List.range 64).map fun a => if 224 + a = d then 256 else 0).sum = 256) d hi lo
theorem full_taken {s : State} (h : s.tricks = fullTricks) : inTake s (takeDealer s) = 0 := by
  have k : ∀ (l : List Nat) (b : Nat), (∀ i ∈ l, i < 64) → (224 ≤ b ∧ b < 288) →
      224 ≤ l.foldl (fun b i => if inTake s b < inTake s (224 + i) then 224 + i else b) b
      ∧ l.foldl (fun b i => if inTake s b < inTake s (224 + i) then 224 + i else b) b < 288 := by
    intro l
    induction l with
    | nil => intro b _ hb; exact hb
    | cons i r ih =>
      intro b hl hb
      have := hl i (List.mem_cons_self ..)
      refine ih _ (fun x hx => hl x (List.mem_cons_of_mem _ hx)) ?_
      dsimp only
      split <;> omega
  have t := k (List.range 64) 224 (fun i hi => List.mem_range.mp hi) (by omega)
  unfold inTake
  rw [full_length h (takeDealer s) t.1 t.2]

/-- `s` whose INSERT stands in context 0 of service dealer 0, as its host task. -/
def inserting (s : State) : State :=
  { s with tasks := [(9, { readyTask with state := .running, kind := .host 4 })], tricks := [(trickKey 224 0, { Trick.blank with task := some 9, wait := some .unit })] }

theorem witness_MatchInsertsScrubberAndDispatcher : (tabled 0 0).moves = []
    ∧ (∃ s w k, s = inserting (moving 1 0 ((List.range 8).map fun i => (i, aRow)) 3 none) ∧ kget s.zat.waits 4 = some w ∧ w.direct = true
        ∧ moveTask s 4 = some (9, k) ∧ kget s.tasks 9 = some k ∧ k.body.succ = none ∧ s.suits = [] ∧ Machine.hostAt s 9 = some (256 * 224)
        ∧ kget s.displaced (256 * 224 / 256) = none ∧ hotBusy s = false ∧ nearFree s (insertAt s 3).1 (insertAt s 3).2 3 = none)
    ∧ (∃ s k, s = { inserting (moving 1 0 [] 3 none) with deck := { (moving 1 0 [] 3 none).deck with phase := .hotPending } } ∧ moveTask s 4 = some (9, k)
        ∧ hotBusy s = true)
    ∧ (∀ h, moveTask (moving 1 0 [] 3 h) 4 = none ∧ hotBusy (moving 1 0 [] 3 h) = false)
    ∧ (∃ s, s = moving 1 0 [(3, aRow)] 3 none ∧ nearFree s (insertAt s 3).1 (insertAt s 3).2 3 = some 4 ∧ moveOk s 4 3 aRow.value aRow.mask = true)
    ∧ (∃ s, s = moving 1 0xFF [] 3 none ∧ nearFree s (insertAt s 3).1 (insertAt s 3).2 3 = some 3 ∧ moveOk s 3 3 aRow.value aRow.mask = false)
    ∧ (∃ s m, s = moving 1 0 [] 3 (some 3) ∧ s.moves = [m] ∧ m.hole = some 3 ∧ 3 = (if m.at_ ≤ 3 then m.at_ else m.at_ - 1))
    ∧ (∃ s m, s = moving 1 0 [] 3 (some 5) ∧ s.moves = [m] ∧ m.hole = some 5 ∧ 5 ≠ (if m.at_ ≤ 5 then m.at_ else m.at_ - 1) ∧ 4 = (if m.at_ ≤ 5 then 5 - 1 else 5 + 1))
    ∧ (hasDeck (tabled 0 0) = true ∧ nextTask (tabled 0 0) = none) ∧ (∃ s, s = { tasked [] with lastDisp := some 0 } ∧ hasDeck s = true ∧ s.lastDisp = some s.clk)
    ∧ (∃ s, s = { tasked [] with rst := { live.rst with heldTill := 1 } } ∧ hasDeck s = true ∧ held s = true)
    ∧ (let s := tasked []
       hasDeck s = true ∧ nextTask s = some (9, readyTask) ∧ kget s.tasks 9 = some readyTask ∧ urgentDue (9, readyTask) = false ∧ (∀ n, readyTask.kind ≠ .insert n)
        ∧ (∀ n, readyTask.kind ≠ .host n) ∧ readyTask.body.suit = none ∧ held s = false ∧ s.lastDisp ≠ some s.clk ∧ (tricksOf s (takeDealer s)).length < 256 ∧ ksorted s.tricks = true ∧ ksorted s.tasks = true
        ∧ routineOff s (curSlot s) 7 readyTask.body.routine = some 0)
    ∧ (∃ s, s = tasked fullTricks ∧ nextTask s = some (9, readyTask) ∧ inTake s (takeDealer s) = 0) :=
  ⟨by decide, ⟨_, _, _, rfl, rfl, rfl, rfl, by decide +kernel⟩, ⟨_, _, rfl, rfl, rfl⟩, fun h => ⟨rfl, rfl⟩, ⟨_, rfl, by decide +kernel⟩, ⟨_, rfl, by decide +kernel⟩,
   ⟨_, _, rfl, rfl, rfl, by decide⟩, ⟨_, _, rfl, rfl, rfl, by decide⟩, by decide +kernel, ⟨_, rfl, rfl, rfl⟩, ⟨_, rfl, rfl, rfl⟩,
   ⟨by decide, by decide +kernel, by decide +kernel, by decide, fun n => by simp [readyTask], fun n => by simp [readyTask], by decide +kernel⟩,
   ⟨_, rfl, by decide +kernel, full_taken rfl⟩⟩

/-! ## Time, rings, folds, injected frames, decks -/

theorem witness_ASessionReadsSetsUnlocksAndLeapsTheTime : ready host 1 1 ∧ ready host 1 2 ∧ ready host 1 3 ∧ 2 ^ 48 - 1 < 2 ^ 48 ∧ 10 ^ 9 - 1 < 10 ^ 9 ∧ 2 ^ 16 - 1 < 2 ^ 16
    ∧ host.time.valid = false ∧ (∃ s : State, ready s 1 2 ∧ s.time.valid = true ∧ s.time.unlocked = true) ∧ (∃ s : State, ready s 1 2 ∧ s.time.valid = true ∧ s.time.unlocked = false)
    ∧ (ready (hostAt 2 live) 1 0 ∧ levelOf (hostAt 2 live) 1 < 3)
    ∧ (86400 % 86400 = 0 ∧ Int.ofNat (nowS host) - host.time.utcOff < Int.ofNat 86400 ∧ 1 ≤ 2) ∧ (86401 % 86400 ≠ 0 ∧ 3 ≤ 255 ∧ 255 < 256 ∧ Int.ofNat 0 ≤ Int.ofNat (nowS host) - host.time.utcOff) :=
  ⟨ready_host (by decide), ready_host (by decide), ready_host (by decide), by decide, by decide, by decide, by decide,
   ⟨{ host with time := { host.time with valid := true, unlocked := true } }, ⟨rfl, rfl, by decide⟩, rfl, rfl⟩,
   ⟨{ host with time := { host.time with valid := true } }, ⟨rfl, rfl, by decide⟩, rfl, rfl⟩, ⟨ready_hostAt _ _ (by decide), by decide⟩, by decide⟩

/-- Ring 8,191 with these items, read by session `n`. -/
def ringed (items : List (List Byte × Bool)) (part credits : Nat) (n : Option Nat) : State :=
  { host with rings := [(8191, { Ring.empty with items := items, part := part, credits := credits, reader := n })] }
def item40 : List Byte × Bool := (List.replicate 40 1, false)

/-- Ring 8,191 shows its items by LENGTH_SLOT, and one is still being written. -/
def byLengthRing : State :=
  { host with cold := [(tyObs, bytes 80 [(1, 1), (64, 31), (65, 255), (66, 1), (67, 6)])], rings := [(8191, { Ring.empty with slots := [⟨4, none⟩] })] }

theorem witness_RingsHoldItemsAndStreamThem : okRing 8191 = true ∧ ready host 1 1 ∧ 65535 < 65536 ∧ (ringOf host 8191).reader = none
    ∧ (∃ s, s = ringed [] 0 0 (some 1) ∧ ready s 1 1 ∧ (ringOf s 8191).reader = some 1 ∧ (ringOf s 8191).part = 0)
    ∧ (∃ s, s = ringed [item40] 16 0 (some 1) ∧ ready s 1 1 ∧ (ringOf s 8191).reader = some 1 ∧ (ringOf s 8191).part ≠ 0)
    ∧ (∃ s, s = ringed [] 0 0 (some 2) ∧ ready s 1 1 ∧ (ringOf s 8191).reader = some 2 ∧ 2 ≠ 1 ∧ (ringOf s 8191).reader ≠ some 1)
    ∧ (∃ kept lost, freeItems (ringOf host 8191).items (ringOf host 8191).part (2 ^ (ringCfg host 8191).log2 - (ringOf host 8191).waiting) (item40.1).length = some (kept, lost)
        ∧ (item40.1).length < 16384 ∧ (ringOf host 8191).slots = [])
    ∧ (∃ s kept lost, s = byLengthRing ∧ (ringCfg s 8191).byLength = true ∧ (ringOf s 8191).slots ≠ []
        ∧ freeItems (ringOf s 8191).items (ringOf s 8191).part (2 ^ (ringCfg s 8191).log2 - (ringOf s 8191).waiting) (item40.1).length = some (kept, lost))
    ∧ (∃ s : State, s = { ringed [item40] 16 0 none with cold := [(tyObs, bytes 80 [(1, 1), (64, 31), (65, 255), (67, 6)])] }
        ∧ freeItems (ringOf s 8191).items (ringOf s 8191).part (2 ^ (ringCfg s 8191).log2 - (ringOf s 8191).waiting) (item40.1).length = none)
    ∧ (∃ s, s = ringed [item40] 0 1 (some 1) ∧ (ringOf s 8191).reader = some 1 ∧ (sessOf s 1).state = .opened ∧ (sessOf s 1).enc.ip = none
        ∧ (ringOf s 8191).items = [item40] ∧ (ringOf s 8191).part = 0 ∧ 16 + cdiv (item40.1).length 8 * 8 ≤ frameRoom (sessOf s 1).enc ∧ (ringOf s 8191).credits ≠ 0
        ∧ ∀ e ∈ s.zat.waits, e.2.what ≠ .unsub 8191) :=
  ⟨by decide, ready_host (by decide), by decide, by decide, ⟨_, rfl, ⟨rfl, rfl, by decide⟩, by decide⟩, ⟨_, rfl, ⟨rfl, rfl, by decide⟩, by decide⟩,
   ⟨_, rfl, ⟨rfl, rfl, by decide⟩, by decide⟩, ⟨[], 0, by decide⟩, ⟨_, [], 0, rfl, by decide +kernel⟩, ⟨_, rfl, by decide +kernel⟩,
   ⟨_, rfl, by decide, by decide, by decide, by decide, by decide, by decide, by decide, fun e h => absurd h List.not_mem_nil⟩⟩

/-- Folds of hand 31, of FLOW and of pot 31, as a state sets them. -/
def folded (x : FoldSt) (waits : KMap Waiting) (queues : KMap PQueue) (pkts : KMap Pkt) : State :=
  { host with rst := { host.rst with foldIntake := [(31, x)], foldPot := [(31, x)] }, zat := { host.zat with waits := waits }, queues := queues, pkts := pkts }
def potQ (f : PotFrame) : KMap PQueue := [(65535, { PQueue.empty with frames := [f] })]

theorem witness_FoldsAndUnfolds : ready host 1 2 ∧ 255 < 256 ∧ 31 < 32 ∧ foldWf 255 31 false = false
    ∧ (∃ s, s = folded .folded [] [] [] ∧ ready s 1 2 ∧ foldState s 0x0C 31 = .folded ∧ foldState s 0x19 31 = .folded ∧ ∀ e ∈ s.zat.waits, e.2.what ≠ .inject)
    ∧ (foldState host 0x19 31 = .open_ ∧ foldState host 0x0C 31 = .open_ ∧ host.rst.foldFlow = .open_ ∧ kgetD host.rb 31 [] = [])
    ∧ (∃ s, s = folded .folding [] [] [] ∧ ready s 1 2 ∧ foldState s 0x0C 31 = .folding ∧ foldState s 0x19 31 = .folding ∧ foldWorkEnded s 0x19 31 = true ∧ s.zat.waits = [])
    ∧ (∃ s, s = folded .folding [] (potQ aPotFrame) [] ∧ foldState s 0x19 31 = .folding ∧ foldWorkEnded s 0x19 31 = false)
    ∧ (∃ s m x, s = folded .folding [(7, ⟨m, true, x, .fold 0x19 31 false true 5⟩)] [] [] ∧ foldState s 0x19 31 = .folding ∧ foldWorkEnded s 0x19 31 = true)
    ∧ (∃ s, s = { host with queues := potQ aPotFrame } ∧ ready s 1 2 ∧ foldState s 0x19 31 = .open_
        ∧ s.queues.filter (fun e => e.1 / 2048 == 31) = [(65535, queueOf s 65535)] ∧ (queueOf s 65535).frames = [aPotFrame] ∧ aPotFrame.started = false) :=
  ⟨ready_host (by decide), by decide, by decide, by decide, ⟨_, rfl, ⟨rfl, rfl, by decide⟩, by decide, by decide, fun e h => absurd h List.not_mem_nil⟩, by decide,
   ⟨_, rfl, ⟨rfl, rfl, by decide⟩, by decide⟩, ⟨_, rfl, by decide⟩,
   ⟨_, 1, ⟨0x28, 0, 0, []⟩, rfl, by decide⟩, ⟨_, rfl, ⟨rfl, rfl, by decide⟩, by decide⟩⟩

/-- Queue 5 passes every colour and takes 100 cells. -/
def passing : State :=
  hostAt 3 (ported 0 [(tyQueues, queueRange ++ bytes 32 [(0, 1), (7, 100), (11, 200)]), (tyTm, bytes 32 [] ++ bytes 32 [(0, 3), (1, 1), (5, 10), (18, 0xFF), (19, 0xFF), (20, 0xFF)])] live)

/-- A frame of one cell that an empty queue admits goes in. -/
theorem inject_small {s v : State} {q : Nat} {frame hdr h : List Byte} {ed : List (Nat × Nat × W32)} (e : admitPot s q hdr = (some h, v)) (n : cdiv (frame.length + 32) 256 = 1)
    (fr : (queueOf s q).frames = []) : ∃ u, injectFrame s q frame hdr ed = (true, u) := by
  have ak := QueueKept.admitPot s q hdr
  rw [e] at ak
  obtain ⟨w, hw⟩ : ∃ w, w = flightUp (newFrame v q h (bit (fld hdr 0 4) 20) false) (bit (fld hdr 0 4) 20) := ⟨_, rfl⟩
  have one : ∀ f ∈ (queueOf w q).frames, f.cells.length = 1 := by
    intro f hf
    rw [hw] at hf
    change f ∈ (queueOf (newFrame v q h (bit (fld hdr 0 4) 20) false) q).frames at hf
    unfold newFrame at hf
    dsimp only at hf
    rw [noteDepth_frames, queueOf_set] at hf
    dsimp only at hf
    rw [freeCell_frames, ak.2.1, fr, List.nil_append, List.mem_singleton] at hf
    rw [hf]; rfl
  have g : (growCells 1 w q v.frameNo 1).2 = false := by
    unfold growCells
    cases k : potFrame w q v.frameNo with
    | none => rfl
    | some f =>
      dsimp only
      rw [if_pos]
      unfold potFrame at k
      exact Nat.le_of_eq (one f (List.mem_of_find?_eq_some k)).symm
  unfold injectFrame
  rw [e]
  dsimp only
  rw [n, ← hw, if_neg (by rw [g]; decide)]
  exact ⟨_, rfl⟩
theorem admitted {s : State} {q : Nat} {hdr : List Byte} (h : (admitPot s q hdr).1.isSome = true) : ∃ a v, admitPot s q hdr = (some a, v) := by
  cases e : admitPot s q hdr with
  | mk a v =>
    rw [e] at h
    obtain ⟨a, rfl⟩ := Option.isSome_iff_exists.mp h
    exact ⟨a, v, rfl⟩

theorem witness_InjectedFramesEnterParseOrAQueue : ready host 1 2 ∧ okPort 0 = true ∧ hasDeck host = false
    ∧ (ready queued 1 2 ∧ hasDeck queued = true ∧ (List.replicate 59 (0 : Byte)).length < 60 ∧ isPort queued 255 = false ∧ okPort 255 = true
      ∧ maxFrame queued 0 < (List.replicate 1515 (0 : Byte)).length + 4)
    ∧ (60 ≤ (List.replicate 60 (0 : Byte)).length ∧ (List.replicate 60 (0 : Byte)).length + 4 ≤ maxFrame queued 0 ∧ isPort queued 0 = true ∧ held queued = false ∧ foldOfHand queued (0 / 8) = .open_)
    ∧ (∃ s, s = { queued with rst := { queued.rst with heldTill := 1 } } ∧ ready s 1 2 ∧ hasDeck s = true ∧ isPort s 0 = true ∧ held s = true ∧ queuePort s 5 = 0)
    ∧ (∃ s, s = { queued with rst := { queued.rst with foldIntake := [(0, .folding)] } } ∧ ready s 1 2 ∧ foldOfHand s (0 / 8) ≠ .open_)
    ∧ (okQueue 5 = true ∧ queuePort passing 5 = 0 ∧ held passing = false ∧ (∃ u, injectFrame passing 5 (List.replicate 60 0) (injectHdr (curSlot passing) 5 60 0 0 0 0) [] = (true, u))
      ∧ (∀ g ∈ (queueOf passing 5).frames, g.id ≠ passing.frameNo) ∧ inTx passing 5 passing.frameNo = false)
    ∧ (okQueue 65535 = true ∧ held queued = false ∧ isPort queued (queuePort queued 65535) = true ∧ 64 ≤ maxFrame queued (queuePort queued 65535)
      ∧ ∃ u, admitPot queued 65535 (injectHdr (curSlot queued) 65535 60 0 0 0 0) = (none, u)) :=
  ⟨ready_host (by decide), by decide, by decide, ⟨ready_hostAt _ _ (by decide), by decide, by decide, by decide, by decide, by rw [List.length_replicate]; decide⟩, by decide,
   ⟨_, rfl, ⟨rfl, rfl, by decide⟩, by decide⟩, ⟨_, rfl, ⟨rfl, rfl, by decide⟩, by decide⟩, ⟨by decide, by decide, rfl, let ⟨_, _, e⟩ := admitted (q := 5) (by decide +kernel); inject_small e (by decide) (by decide), fun g h => absurd h List.not_mem_nil, by decide⟩,
   by decide, rfl, by decide, by decide, ⟨_, rfl⟩⟩

/-- An image is read: which of the two outcomes. -/
theorem read_ok {x : State × Except FailRec Img} (h : x.2.isOk = true) : ∃ u i, x = (u, .ok i) := by
  obtain ⟨u, r⟩ := x
  cases r with
  | ok i => exact ⟨u, i, rfl⟩
  | error f => cases h
theorem read_bad {x : State × Except FailRec Img} (h : x.2.isOk = false) : ∃ u f, x = (u, .error f) := by
  obtain ⟨u, r⟩ := x
  cases r with
  | ok i => cases h
  | error f => exact ⟨u, f, rfl⟩
/-- A staged image that a VERIFY passed: no segments, of number 1 (or 0, no higher than the deck's). -/
def staged (number : Byte) (s : State) : State :=
  { s with deck := { s.deck with stagedOk := true }, hbm := if number = 0 then [] else [(deckArea s true + 0x1B, number)] }

theorem witness_DealWritesTheStagingArea : (ready (hostAt 2 live) 1 0 ∧ levelOf (hostAt 2 live) 1 < 3 ∧ 0 < 2 ^ 48)
    ∧ (ready host 1 0 ∧ 3 ≤ levelOf host 1 ∧ (List.replicate 7 (0 : Byte)).length < 8 ∧ 8192 < (List.replicate 8193 (0 : Byte)).length
      ∧ portRefused host 1 = false ∧ dealBusy host = false ∧ otherOwner host 1 = false ∧ 4 % 8 ≠ 0 ∧ 2 ^ 25 < 2 ^ 25 + (List.replicate 8 (0 : Byte)).length
      ∧ (2 ^ 25 - 8) % 8 = 0 ∧ (List.replicate 8 (0 : Byte)).length % 8 = 0 ∧ 2 ^ 25 - 8 + (List.replicate 8 (0 : Byte)).length ≤ 2 ^ 25)
    ∧ ∃ s : State, ready s 1 3 ∧ otherOwner s 1 = true := by
  refine ⟨⟨ready_hostAt _ _ (by decide), by decide⟩, ⟨ready_host (by decide), by decide, by decide, ?_, by decide⟩,
    { host with deck := { host.deck with owner := some 2 } }, ⟨rfl, rfl, by decide⟩, rfl⟩
  rw [List.length_replicate]
  decide

theorem witness_CommitsVerifyTheStagedImageOrLoadTheOtherSlot :
    (∀ s ∈ [host, staged 0 host], ready s 1 3 ∧ portRefused s 1 = false ∧ dealBusy s = false ∧ otherOwner s 1 = false)
    ∧ (∀ b ∈ [0, 1], ready (staged b (ported 0 [] host)) 1 3 ∧ dealBusy (staged b (ported 0 [] host)) = false)
    ∧ (∃ u i, loadImage (staged 0 host) (deckArea (staged 0 host) true) (staged 0 host).deck.stagedOk = (u, .ok i))
    ∧ (∃ u f, loadImage host (deckArea host true) host.deck.stagedOk = (u, .error f))
    ∧ (∃ s u i v, s = staged 1 (ported 0 [] host) ∧ loadImage s (deckArea s true) s.deck.stagedOk = (u, .ok i) ∧ hotFail u i = (v, none))
    ∧ (∃ s u i v f, s = staged 0 (ported 0 [] host) ∧ loadImage s (deckArea s true) s.deck.stagedOk = (u, .ok i) ∧ hotFail u i = (v, some f)) := by
  refine ⟨fun s h => ?_, fun b h => ?_, read_ok (by decide +kernel), read_bad (by decide +kernel), ?_, ?_⟩
  · simp only [List.mem_cons, List.not_mem_nil, or_false] at h
    rcases h with rfl | rfl <;> exact ⟨⟨rfl, rfl, by decide⟩, by decide⟩
  · simp only [List.mem_cons, List.not_mem_nil, or_false] at h
    rcases h with rfl | rfl <;> exact ⟨⟨rfl, rfl, by decide⟩, by decide⟩
  · have h : (match loadImage (staged 1 (ported 0 [] host)) (deckArea (staged 1 (ported 0 [] host)) true) true with | (u, .ok i) => (hotFail u i).2.isNone | _ => false) = true := by
      decide +kernel
    split at h
    · rename_i u i e
      exact ⟨_, u, i, (hotFail u i).1, rfl, e, Prod.ext rfl (Option.isNone_iff_eq_none.mp h)⟩
    · cases h
  · have h : (match loadImage (staged 0 (ported 0 [] host)) (deckArea (staged 0 (ported 0 [] host)) true) true with | (u, .ok i) => (hotFail u i).2.isSome | _ => false) = true := by
      decide +kernel
    split at h
    · rename_i u i e
      obtain ⟨f, hf⟩ := Option.isSome_iff_exists.mp h
      exact ⟨_, u, i, (hotFail u i).1, f, rfl, e, Prod.ext rfl hf⟩
    · cases h

def phased (d : Deck) : State := { live with deck := d }
theorem witness_EpochsSwitchInOneStepAndRetireWhenEmpty :
    (∃ s h, s = phased { Deck.reset with phase := .hotPending, hot := some ⟨1, 0, 2, 3⟩ } ∧ s.deck.phase = .hotPending ∧ s.deck.hot = some h)
    ∧ (∃ s id m x, s = { phased { Deck.reset with phase := .hotPending, hot := some ⟨1, 0, 2, 3⟩ } with zat := { live.zat with waits := [(id, ⟨m, true, x, .hot⟩)] } }
        ∧ s.zat.waits = [(id, ⟨m, true, x, .hot⟩)])
    ∧ live.deck.phase ≠ .hotPending
    ∧ (∃ s, s = phased { Deck.reset with phase := .retiring, current := true } ∧ false = !curSlot s ∧ s.deck.phase = .retiring ∧ slotBusy s false = false
        ∧ ∀ x ∈ s.tricks, 224 ≤ x.1 / 256 → x.2.slot = false → x.2.committed = true)
    ∧ (∃ s, s = phased { Deck.reset with phase := .retiring, inflight1 := 1 } ∧ s.deck.phase = .retiring ∧ slotBusy s (!curSlot s) = true) :=
  ⟨⟨_, _, rfl, rfl, rfl⟩, ⟨_, 0, 1, ⟨0x21, 0, 0, []⟩, rfl, rfl⟩, by decide, ⟨_, rfl, by decide, by decide, by decide, fun x h => absurd h List.not_mem_nil⟩, ⟨_, rfl, by decide⟩⟩

theorem witness_ARedealAppliesTheStagedDeckToAnEmptyPipeline : ∃ s u i, s = staged 0 host ∧ ready s 1 3 ∧ portRefused s 1 = false ∧ dealBusy s = false ∧ otherOwner s 1 = false
    ∧ loadImage s (deckArea s true) s.deck.stagedOk = (u, .ok i) := by
  obtain ⟨u, i, h⟩ := read_ok (x := loadImage (staged 0 host) (deckArea (staged 0 host) true) (staged 0 host).deck.stagedOk) (by decide +kernel)
  exact ⟨_, u, i, rfl, ⟨rfl, rfl, by decide⟩, by decide, by decide, by decide, h⟩

/-- `host` with a deck in its blank active area; a sector of that area may be poisoned. -/
def activeDeck (poison : List Nat) : State :=
  { host with deck := { host.deck with contract := 1 }, hbmc := { host.hbmc with poison := poison } }
theorem witness_CommitsTakeAFlashSlotOrTheActiveDeck :
    (∀ s ∈ [host, activeDeck [], activeDeck [deckArea host false / 32]], ready s 1 3 ∧ portRefused s 1 = false ∧ dealBusy s = false)
    ∧ hasDeck host = false ∧ (∀ p, hasDeck (activeDeck p) = true)
    ∧ (∃ u i, loadImage (activeDeck []) (deckArea (activeDeck []) false) true = (u, .ok i))
    ∧ (∃ s u f, s = activeDeck [deckArea host false / 32] ∧ loadImage s (deckArea s false) true = (u, .error f))
    ∧ (∀ src ∈ [2, 3], ∃ w u f, 2 ≤ src ∧ src < 4 ∧ otherOwner host 1 = false
      ∧ w = copyFlash { host with deck := { host.deck with stagedOk := false, owner := some 1 }, fresh := host.fresh + 1 } src
      ∧ loadImage w (deckArea w true) false = (u, .error f)) := by
  refine ⟨fun s h => ?_, rfl, fun _ => rfl, read_ok (by decide +kernel), ?_, fun src h => ?_⟩
  · simp only [List.mem_cons, List.not_mem_nil, or_false] at h
    rcases h with rfl | rfl | rfl <;> exact ⟨⟨rfl, rfl, by decide⟩, by decide⟩
  · obtain ⟨u, f, h⟩ := read_bad (x := loadImage (activeDeck [deckArea host false / 32]) (deckArea (activeDeck [deckArea host false / 32]) false) true) (by decide +kernel)
    exact ⟨_, u, f, rfl, h⟩
  · obtain ⟨w, hw⟩ : ∃ w, w = copyFlash { host with deck := { host.deck with stagedOk := false, owner := some 1 }, fresh := host.fresh + 1 } src := ⟨_, rfl⟩
    have h2 : src = 2 ∨ src = 3 := by simpa using h
    obtain ⟨u, f, e⟩ := read_bad (x := loadImage w (deckArea w true) false) (by
      rw [hw]
      rcases h2 with rfl | rfl <;> decide +kernel)
    exact ⟨w, u, f, by omega, by omega, rfl, hw, e⟩

/-! ## Reset, power and ports -/

/-- A power-on whose training words all pass (`0x1000001000`) or all fail (0). -/
def powerOn (word : W64) (halt : Bool) : PowerOnFacts := ⟨0, Fuses.blank, false, halt, true, List.replicate 640 word, []⟩
theorem powerOn_facts (w : W64) (h : Bool) : okFacts (powerOn w h) = true := by
  show (okFuses Fuses.blank && (List.replicate 640 w).length == 640 && true) = true
  rw [List.length_replicate]; decide

theorem witness_PowerLossAndSaves : State.reset.keep.armed = false ∧ 65535 < 2 ^ 16 ∧ ∃ s : State, s.keep.armed = true :=
  ⟨rfl, by decide, { live with keep := { live.keep with armed := true } }, rfl⟩

theorem witness_ClockMonitorsHoldAndReleaseTheirBlocks : okFacts (powerOn 0 true) = true ∧ live.rst.step ≠ 1 ∧ live.rst.step ≠ 2
    ∧ bit live.rst.good 24 = true ∧ bit live.rst.good 1 = true ∧ bit live.rst.good 4 = true ∧ bit live.rst.good 23 = true
    ∧ (∃ s : State, s.rst.step = 7 ∧ bit s.rst.good 0 = false ∧ bit s.rst.good 7 = false ∧ bit s.rst.good 24 = false
        ∧ dieHeld s ((23 - 8) / 2) = true ∧ isPort s 0 = true ∧ 0 / 32 = (9 - 8) / 2 ∧ dieHeld s ((9 - 8) / 2) = true)
    ∧ (let s := ported 0 [] live
       ∀ w, w = markSet (markSet { s with rst := { s.rst with good := setBits s.rst.good 8 8 0, failed := setBits s.rst.failed 8 8 1, cause := s.rst.cause ||| 0x40 } }
         aCause 0x40) aClock (2 ^ (32 + 8)) → dieHeld w ((8 - 8) / 2) = true ∧ isPort s 0 = true) :=
  ⟨powerOn_facts _ _, by decide, by decide, by decide, by decide, by decide, by decide,
   ⟨{ ported 0 [] live with rst := { live.rst with step := 7, good := 0 } }, by decide⟩, fun w e => ⟨by rw [e]; decide, by decide⟩⟩

theorem witness_PllReferenceTemperatureErrorsAndControlLinks : 63 < 64 ∧ bit live.rst.good 6 = true ∧ bit live.rst.good 5 = true ∧ bit live.rst.good 24 = true
    ∧ (isPort (ported 0 [] live) 0 && inHalf (ported 0 [] live) 0 0) = true
    ∧ (∃ s : State, s.tempOk = true ∧ s.temps = [125, 0, 0, 0, 0] ∧ s.rst.tripped = false ∧ 125 ≤ sint 8 (125 : Byte).toNat)
    ∧ (∃ s : State, s.tempOk = true ∧ s.temps = [0, 0, 0, 0, 105] ∧ s.rst.tripped = false ∧ 105 ≤ sint 8 (105 : Byte).toNat)
    ∧ keepUp live = true ∧ errPresent live .rstLast = true ∧ ctlLink live 0 = true ∧ ctlLink live 1 = false :=
  ⟨by decide, by decide, by decide, by decide, by decide, ⟨{ live with tempOk := true, temps := [125, 0, 0, 0, 0] }, rfl, rfl, rfl, by decide⟩,
   ⟨{ live with tempOk := true, temps := [0, 0, 0, 0, 105] }, rfl, rfl, rfl, by decide⟩, by decide⟩

/-- The host watchdog has a period of one microsecond and has run out. -/
def wdogRan (l3 : Bool) : State := { live with clk := 3200, regs := [(aRstCtl, if l3 then 1 else 0), (aHostWdog, 1)], rst := { live.rst with wdogClk := 0 } }
def oldTrick : State := { live with clk := 2 ^ 40, tricks := [(trickKey 287 255, Trick.blank)] }
/-- An L3 holds the pipeline for one clk more; `x` waits for the release. -/
def releasing (x : Txn) : State :=
  { host with rst := { host.rst with heldTill := 1 }, deck := { host.deck with phase := .redealing }, zat := { host.zat with waits := [(7, ⟨1, true, x, .release⟩)] } }
theorem witness_TheReleaseOfThePipelineAnswersWhatWaitedForIt : ∀ x ∈ [commitTxn 0 2, (⟨0x48, 0, 3, []⟩ : Txn)], (releasing x).pending = []
    ∧ (releasing x).rst.heldTill = (releasing x).clk + 1 ∧ (releasing x).coreTime = [] ∧ (releasing x).time.genDue = [] ∧ ¬ ((releasing x).clk + 1) % 1600000000 = 0
    ∧ (releasing x).zat.waits = [(7, ⟨1, true, x, .release⟩)] ∧ (x = commitTxn 0 2 ∨ x = ⟨0x48, 0, 3, []⟩) := by decide
theorem witness_ResetsOfLevel3AndResetRequests : live.rst.step ≠ 1 ∧ live.rst.step ≠ 2 ∧ held live = false ∧ held host = false ∧ held (wdogRan true) = false
    ∧ held oldTrick = false ∧ (∃ s, s = releasing (commitTxn 0 2) ∧ s.rst.step ≠ 1 ∧ s.rst.step ≠ 2 ∧ held s = true ∧ ready s 1 3 ∧ s.deck.phase = .redealing)
    ∧ (∃ s, s = { host with rst := { host.rst with heldTill := 1 } } ∧ held s = true ∧ ready s 1 3 ∧ s.deck.phase ≠ .redealing) ∧ okFacts (powerOn 0 true) = true ∧ ready host 1 3
    ∧ wdogDue (wdogRan true) = true ∧ bit (regRaw (wdogRan true) aRstCtl 0) 0 = true
    ∧ 287 < 288 ∧ 255 < 256 ∧ trickAt oldTrick 287 255 = some Trick.blank ∧ trickDue oldTrick Trick.blank = true := 
  ⟨by decide, by decide, rfl, rfl, rfl, rfl, ⟨_, rfl, by decide, by decide, rfl, ⟨rfl, rfl, by decide⟩, rfl⟩,
   ⟨_, rfl, rfl, ⟨rfl, rfl, by decide⟩, by decide⟩, powerOn_facts _ _, ready_host (by decide), by decide⟩
theorem witness_PowerOnAndL2RunTheSequence : okFacts (powerOn 0x1000001000 false) = true ∧ okFacts (powerOn 0 false) = true ∧ okFacts (powerOn 0 true) = true
    ∧ (∀ x ∈ (powerOn 0x1000001000 false).training, laneFails x.toNat = false) ∧ (∃ x ∈ (powerOn 0 false).training, laneFails x.toNat = true)
    ∧ State.reset.rst.step = 1 ∧ live.rst.step ≠ 1 ∧ live.rst.step ≠ 2 ∧ bit live.rst.good 0 = true ∧ live.rst.l2Due = false
    ∧ (∃ s : State, strapFlash s = none) ∧ wdogDue (wdogRan false) = true ∧ bit (regRaw (wdogRan false) aRstCtl 0) 0 = false ∧ ∃ s : State, s.rst.step = 15 ∧ s.rst.l2Due = true :=
  ⟨powerOn_facts _ _, powerOn_facts _ _, powerOn_facts _ _, fun x h => (List.eq_of_mem_replicate h) ▸ (by decide), ⟨0, List.mem_replicate.mpr ⟨by decide, rfl⟩, by decide⟩,
   rfl, by decide, by decide, by decide, by decide, ⟨{ live with rst := { live.rst with strap := 8 } }, by decide⟩, by decide, by decide, { live with rst := { live.rst with l2Due := true } }, rfl, rfl⟩

/-- Port 0 with this much of class 7 in its rate buffer. -/
def filled (n : Nat) : State := { ported 0 [] live with occ := [(7, n)] }
/-- Every lane of octet 0 has this LOOP. -/
def looped (opt : Byte) (k : Nat) : State := { ported opt [] live with laneTest := (List.range 8).map fun l => (l, BitVec.ofNat 64 (256 * k)) }
/-- The pipeline is held; the port is disabled; its hand is folded. -/
def quiet (opt : Byte) : List State :=
  [{ ported opt [] live with rst := { live.rst with heldTill := 1 } }, { ported opt [] live with regs := [(aPort 0, 0)] },
   { ported opt [] live with rst := { live.rst with foldIntake := [(0, .folded)] } }]
def heard (s : State) : Bool := portOpen s 0 && !(portLoops s 0).contains 1 && !(portLoops s 0).contains 2
def dropping (s : State) : Bool := held s || !portEnabled s 0 || foldOfHand s (0 / 8) != .open_
theorem witness_ReceivedFramesAreCountedAndAdmitted : portOpen live 255 = false ∧ (∀ k ∈ [1, 2], k ∈ portLoops (looped 0 k) 0)
    ∧ (∀ s ∈ quiet 0, heard s = true ∧ dropping s = true ∧ ((portLoops s 0).all (· == 3)) = false)
    ∧ (let s := { looped 0 3 with rst := { live.rst with heldTill := 1 } }
       heard s = true ∧ dropping s = true ∧ ((portLoops s 0).all (· == 3)) = true)
    ∧ (let s := ported 0 [] live
       heard s = true ∧ dropping s = false ∧ fcsGood .bad = false ∧ etherType (bytes 60 [(12, 0x88), (13, 8)]) = 0x8808 ∧ 64 ≤ 60 + 4 ∧ 60 + 4 ≤ maxFrame s 0
        ∧ 59 + 4 < 64 ∧ 60 + 4 < 128 ∧ 123 + 4 < 128 ∧ 123 + 4 ≤ maxFrame s 0
        ∧ etherType (List.replicate 60 0) ≠ 0x8808 ∧ lossyOcc s 0 < lossyLane s 0 * portLanes s 0 ∧ 0 < 256 * portLanes s 0 - portOcc s 0
        ∧ cdiv (60 + 4) 256 ≤ 256 * portLanes s 0 - portOcc s 0)
    ∧ (256 * portLanes (filled 256) 0 - portOcc (filled 256) 0 = 0 ∧ lossless (filled 4) 0 7 = false ∧ lossyLane (filled 4) 0 * portLanes (filled 4) 0 ≤ lossyOcc (filled 4) 0)
    ∧ (∃ s, s = { ported 0x40 [] live with occ := [(7, 255)] } ∧ heard s = true ∧ dropping s = false ∧ lossless s 0 7 = true ∧ 0 < 256 * portLanes s 0 - portOcc s 0
        ∧ 256 * portLanes s 0 - portOcc s 0 < cdiv (300 + 4) 256 ∧ 300 + 4 ≤ maxFrame s 0) :=
  ⟨by decide, by decide, by decide, by decide, by decide, by decide, ⟨_, rfl, by decide⟩⟩

theorem witness_FlowControlIsReceivedAndSent : portOpen (ported 0x40 [] live) 0 = true ∧ portFc (ported 0x40 [] live) 0 = 1 ∧ portFc (ported 0x80 [] live) 0 = 2
    ∧ portFc (ported 0 [] live) 0 = 0 ∧ (List.replicate 8 (1 : BitVec 16)).length = 8
    ∧ (∀ k ∈ [1, 2], portOpen (looped 0x40 k) 0 = true ∧ k ∈ portLoops (looped 0x40 k) 0) ∧ (∀ s ∈ quiet 0x80, heard s = true ∧ dropping s = true)
    ∧ (∀ opt ∈ [0, 0x40, 0x80], heard (ported opt [] live) = true ∧ dropping (ported opt [] live) = false ∧ portSends (ported opt [] live) 0 = true)
    ∧ (∃ s : State, portOpen s 0 = true ∧ portSends s 0 = false)
    ∧ (∃ s, s = { ported 0x80 [] live with occ := [(0, 2)] } ∧ ((fcClasses s 0).filter fun c => !bit (portOf s 0).xoff.toNat c && decide (xoffLane s 0 * portLanes s 0 ≤ fcLevel s 0 c)) ≠ [])
    ∧ (∃ s, s = { ported 0x80 [] live with ports := [(0, { portOf (ported 0x80 [] live) 0 with xoff := 1 })] }
        ∧ ((fcClasses s 0).filter fun c => bit (portOf s 0).xoff.toNat c && decide (fcLevel s 0 c < xonLane s 0 * portLanes s 0)) ≠ [])
    ∧ (∃ s, s = { ported 0x80 [] live with occ := [(0, 2)], ports := [(0, { portOf (ported 0x80 [] live) 0 with xoff := 1 })] }
        ∧ ((fcClasses s 0).filter fun c => bit (portOf s 0).xoff.toNat c && decide (xonLane s 0 * portLanes s 0 ≤ fcLevel s 0 c)) ≠ [])
    ∧ ((fcClasses (ported 0 [] live) 0) = []) :=
  ⟨by decide, by decide, by decide, by decide, by decide, by decide, by decide, by decide, ⟨{ ported 0 [] live with regs := [(aPort 0, 0)] }, by decide⟩,
   ⟨_, rfl, by decide⟩, ⟨_, rfl, by decide⟩, ⟨_, rfl, by decide⟩, by decide⟩

/-- A packet of a 60-octet frame, as taken in from port 0. -/
def aPkt : Pkt := takenPkt live ⟨0, List.replicate 60 0, .good, 0, 1, 0, none, 0⟩
def sendingPort (ended : Bool) : State :=
  { ported 0 [] live with ports := [(0, { portOf (ported 0 [] live) 0 with up := true, txq := [⟨{ aPkt with ended := ended }, [], false, 3⟩] })] }
/-- Port 0 negotiates (0x20) or not, and its link is down. -/
def unlinked (opt : Byte) (an : Nat) : State := { ported opt [] live with ports := [(0, { portOf live 0 with anState := an })], rst := { live.rst with goHeld := false } }
theorem witness_LinksComeUpGoDownAndRenegotiate :
    (∀ opt ∈ [0, 0x20], ∀ an ∈ [1, 3], portStarted (unlinked opt an) 0 = true ∧ portAn (unlinked opt an) 0 = (opt == 0x20)
        ∧ (portOf (unlinked opt an) 0).up = false ∧ (portOf (unlinked opt an) 0).anState = an)
    ∧ portStarted live 255 = false ∧ (∃ s, s = ported 0 [] live ∧ (portOf s 0).up = true ∧ (portOf s 0).txq = [])
    ∧ (∀ b, (portOf (sendingPort b) 0).up = true ∧ (portOf (sendingPort b) 0).txq = [⟨{ aPkt with ended := b }, [], false, 3⟩]) :=
  ⟨by decide, by decide, ⟨_, rfl, by decide⟩, fun b => ⟨rfl, rfl⟩⟩

/-- A frame whose LAUNCH lies 256 ns ahead. -/
def early : State := { sendingPort true with ports := [(0, { portOf (ported 0 [] live) 0 with up := true, txq := [⟨{ aPkt with cv := bytes 128 [(26, 1), (29, 8)] }, [], false, 3⟩] })] }
theorem witness_TheTransmitMacSendsTheHeadFrame :
    (∀ under, ∃ e, (portOf (sendingPort (!under)) 0).txq = [e] ∧ portSends (sendingPort (!under)) 0 = true ∧ e.pkt.ended = !under ∧ beforeLaunch (sendingPort (!under)) 0 e.pkt = false)
    ∧ (∀ under, ∃ e, (portOf (sendingPort under) 0).txq = [e] ∧ e.pkt.ended = under)
    ∧ (∃ s e, s = { sendingPort true with regs := [(aPort 0, 0)] } ∧ (portOf s 0).txq = [e] ∧ portSends s 0 = false)
    ∧ ∃ e, (portOf early 0).txq = [e] ∧ beforeLaunch early 0 e.pkt = true :=
  ⟨fun u => ⟨_, rfl, by cases u <;> decide⟩, fun u => ⟨_, rfl, rfl⟩, ⟨_, _, rfl, rfl, by decide⟩, ⟨_, rfl, by decide⟩⟩

/-! ## Packets, lookups, words and flow effects -/

/-- A dealt part with these tricks, packets, hot bodies of slot 0 and cold bodies. -/
def dealing (tricks : KMap Trick) (pkts : KMap Pkt) (hot : KMap (List Byte)) (cold : KMap (List Byte)) : State :=
  { ported 0 cold live with tricks := tricks, pkts := pkts, hot0 := hot }
def aFrame : RbFrame := ⟨0, List.replicate 60 0, .good, 0, 1, 0, none, 0⟩

theorem witness_a_capped_recirculation : ∃ s, s = { dealing [] [] [] [] with recircq := [(31, [7])], takes := [(31, List.replicate 128 0)] } ∧ recircOk s 31 = false ∧ kgetD s.recircq 31 [] ≠ [] :=
  ⟨_, rfl, by decide +kernel⟩
theorem witness_ParseTakesTheOldestFrame : ∃ s o, s = { dealing [] [] [(tyRoutines, bytes 16 [])] [] with rb := [(31, [aFrame])] } ∧ 31 < 32 ∧ hasDeck s = true
    ∧ held s = false ∧ hasRoom s 31 = true ∧ walksBusy s 31 < 32 ∧ kgetD s.recircq 31 [] = [] ∧ kget s.rb 31 = some [aFrame] ∧ foldOfHand s 31 = .open_ ∧ rateOk s 31 = true
    ∧ ksorted s.tricks = true ∧ ksorted s.pkts = true ∧ kcount s.pkts (256 * 31) (256 * 31 + 256) < 256
    ∧ routineOff s (pktEpoch (takenPkt s aFrame)) 0 (pktRoutine (takenPkt s aFrame) 0) = some o :=
  ⟨_, 0, rfl, by decide +kernel⟩

/-- State 0 of a parse graph enters format 0 (14 octets) and goes to `t`. -/
def graph (t : Nat) : KMap (List Byte) :=
  [(tyParse, bytes 320 [(6, BitVec.ofNat 8 (t / 256)), (7, BitVec.ofNat 8 t)]), (tyFormats, bytes 32 [(3, 14)])]
def walking (pkt : Pkt) (hot : KMap (List Byte)) : State := dealing [] [(vecKey 31 255, pkt)] hot []
def lateOf (slowp : Bool) (p : Pkt) : State := { dealing [] [] [] [] with late := [⟨31, 8191, 0, slowp, 0, 0, p, none⟩] }
theorem witness_WalksChecksAndLateItems :
    (∃ s, s = walking aPkt [] ∧ getPkt s (vecKey 31 255) = some aPkt ∧ aPkt.walk.unit = true ∧ aPkt.walk.done = false ∧ stateOff s (pktEpoch aPkt) aPkt.walk.state = none)
    ∧ (∀ t ∈ [0x4000, 0x8000, 5], ∃ s so fo st f, s = walking aPkt (graph t) ∧ stateOff s (pktEpoch aPkt) aPkt.walk.state = some so
        ∧ st = slice (hotBody s (pktEpoch aPkt) tyParse) so 320 ∧ formatOff s (pktEpoch aPkt) (fld st 1 1 % 128) = some fo
        ∧ f = slice (hotBody s (pktEpoch aPkt) tyFormats) fo 32 ∧ bits (fld f 5 1) 3 0 = 0 ∧ 14 = fld f 3 1 ∧ fld f 1 1 = 0 ∧ runOut aPkt (aPkt.walk.p + 14) = none
        ∧ fld st 2 1 = 0 ∧ t = fld st 6 2)
    ∧ aPkt.walk.trans ≠ 24 ∧ (∃ p : Pkt, p.walk.trans = 24)
    ∧ (∃ p, p = { aPkt with ended := false, walk := { aPkt.walk with deferred := [.ip 10 61 0 100] } } ∧ p.ended = false ∧ p.walk.deferred.findSome? (defFails p.frame.length) = some 10)
    ∧ (∃ p, p = { aPkt with ended := false } ∧ p.ended = false ∧ p.walk.deferred.findSome? (defFails p.frame.length) = none)
    ∧ (∃ s, s = dealing [(trickKey 31 0, { Trick.blank with pkt := vecKey 31 255 })] [] [] [] ∧ inParse s 31 (vecKey 31 255) = true)
    ∧ (∃ s, s = dealing [] [] [] [] ∧ inParse s 31 (vecKey 31 255) = false)
    ∧ (∀ b, (lateOf b aPkt).late.find? (fun x => x.hand == 31 && x.slowp == b) = some ⟨31, 8191, 0, b, 0, 0, aPkt, none⟩)
    ∧ freeItems (ringOf (lateOf true aPkt) 8191).items (ringOf (lateOf true aPkt) 8191).part (2 ^ (ringCfg (lateOf true aPkt) 8191).log2 - (ringOf (lateOf true aPkt) 8191).waiting) 40 = some ([], 0)
        ∧ (ringCfg (lateOf true aPkt) 8191).byLength = false
    ∧ (∃ i x, i = (⟨31, 8191, 0, true, 0, 0, aPkt, some 4⟩ : LateItem) ∧ (ringCfg byLengthRing i.ring).byLength = true ∧ (ringOf byLengthRing i.ring).slots = [x]
        ∧ i.ticket = some x.ticket ∧ freeItems (ringOf byLengthRing 8191).items (ringOf byLengthRing 8191).part (2 ^ (ringCfg byLengthRing 8191).log2) 40 = some ([], 0))
    ∧ (∃ s x, s = dealing [(trickKey 31 0, { Trick.blank with pkt := vecKey 31 255, committed := true, undo := [(8, (0xFF, 0))] })] [(vecKey 31 255, aPkt)] [] []
        ∧ kfind s.tricks (fun _ y => y.pkt == vecKey 31 255 && y.committed && y.commitClk == s.clk) = some (trickKey 31 0, x)) :=
  ⟨⟨_, rfl, by decide +kernel⟩, by
    intro t ht
    simp only [List.mem_cons, List.not_mem_nil, or_false] at ht
    rcases ht with rfl | rfl | rfl <;> exact ⟨_, 0, 0, _, _, rfl, by decide +kernel, rfl, by decide +kernel, rfl, by decide +kernel⟩,
   by decide, ⟨{ aPkt with walk := { aPkt.walk with trans := 24 } }, rfl⟩, ⟨_, rfl, by decide +kernel⟩, ⟨_, rfl, by decide +kernel⟩, ⟨_, rfl, by decide⟩, ⟨_, rfl, by decide⟩,
   fun b => by cases b <;> decide +kernel, by decide +kernel, by decide +kernel, ⟨_, ⟨4, none⟩, rfl, by decide +kernel⟩, ⟨_, _, rfl, rfl⟩⟩

/-- A trick with this lookup pending in slot `k`. -/
def looking (k : Nat) (l : Look) (committed : Bool) : Trick := { Trick.blank with pend := [(k, l)], committed := committed }
def lookAt (kind : Nat) (result : Option (W64 × Bool)) : Look := ⟨kind, 0, bytes 40 [], 0, result⟩
def lookState (k : Nat) (l : Look) (committed : Bool) (cold : KMap (List Byte)) : State := dealing [(trickKey 287 255, looking k l committed)] [] [] cold
/-- A pool table 0 of this kind, with 4-octet keys and one page. -/
def poolBody (kind : Byte) : KMap (List Byte) := [(tyPool, bytes 32 ([(1, kind), (2, 4), (7, 1)] ++ (List.range 16).map fun i => (16 + i, if i = 0 then 8 else 0xFF)))]
def anyRow (trump : Nat) : Row := ⟨0, 0, trump, 0, true, false⟩
/-- The bucket entry of an all-zero key, as the pool holds it. -/
def pooled (kind : Byte) (len : Nat) : State :=
  { lookState 3 (lookAt 1 none) false (poolBody kind) with
    pool := memWrite [] (poolAddr ((poolTab (lookState 3 (lookAt 1 none) false (poolBody kind)) 0).getD ⟨0, 0, 0, 0, 0, 0, []⟩)
      (poolHash ((poolTab (lookState 3 (lookAt 1 none) false (poolBody kind)) 0).getD ⟨0, 0, 0, 0, 0, 0, []⟩) false (bytes 4 []) len) 0) (0x80 :: BitVec.ofNat 8 len :: bytes 14 []) }
theorem witness_LookupsFindTheirEntriesAndReturn :
    (∃ s t l, s = { lookState 3 (lookAt 0 none) false [(tyMatchgeom, matchGeom 0 0)] with rows := [(5, anyRow 1), (9, anyRow 7), (131071, anyRow 7)] } ∧ trickAt s 287 255 = some t
        ∧ kget t.pend 3 = some l ∧ l.result = none ∧ l.kind = 0 ∧ ksorted s.rows = true ∧ tableBlocks s l.table ≠ []
        ∧ s.rows.filter (fun x => (tableBlocks s l.table).contains (x.1 / 2048) && rowMatches x.2 t.slot (keyNat l.key)) ≠ [])
    ∧ (∃ s t l b rest, s = lookState 3 (lookAt 0 none) false [(tyMatchgeom, matchGeom 0 0)] ∧ trickAt s 287 255 = some t ∧ kget t.pend 3 = some l ∧ tableBlocks s l.table = b :: rest
        ∧ s.rows.filter (fun x => (tableBlocks s l.table).contains (x.1 / 2048) && rowMatches x.2 t.slot (keyNat l.key)) = [])
    ∧ (∃ s t l p, s = lookState 3 (lookAt 1 none) false (poolBody 0) ∧ trickAt s 287 255 = some t ∧ kget t.pend 3 = some l ∧ l.result = none ∧ l.kind = 1
        ∧ poolTab s l.table = some p ∧ p.kind = 0 ∧ poolFind s p (slice l.key 0 p.keyLen) 0 = none)
    ∧ (∃ s p, s = { lookState 3 (lookAt 1 none) false (poolBody 2) with poolSet := [0] } ∧ poolTab s 0 = some p ∧ p.kind = 2
        ∧ ofBytes (slice (bytes 40 []) 0 p.keyLen) < p.pages * 16384 ∧ p.first * 65536 + 4 * ofBytes (slice (bytes 40 []) 0 p.keyLen) ∈ s.poolSet)
    ∧ (∃ s t l, s = lookState 3 (lookAt 2 none) false [] ∧ trickAt s 287 255 = some t ∧ kget t.pend 3 = some l ∧ l.kind = 2 ∧ l.result = none)
    ∧ (∀ b, ∃ s t l v p, s = lookState 3 (lookAt 1 (some (7, true))) b [] ∧ trickAt s 287 255 = some t ∧ kget t.pend 3 = some l ∧ l.result = some (v, p) ∧ l.kind < 2
        ∧ t.log = [] ∧ t.committed = b ∧ t.restarts < restartMax s)
    ∧ (∃ s t, s = dealing [(trickKey 287 255, t)] [] [] [] ∧ t = { looking 3 (lookAt 1 (some (7, false))) true with log := [⟨.qsel none true false, none⟩] } ∧ trickAt s 287 255 = some t)
    ∧ (∀ b, ∃ s t, s = dealing [(trickKey 287 255, t)] [] [] [] ∧ t = { Trick.blank with committed := b, wait := some (.fetch 7 1 0) } ∧ trickAt s 287 255 = some t
        ∧ t.restarts < restartMax s) :=
  ⟨⟨_, _, _, rfl, rfl, rfl, rfl, rfl, by decide +kernel⟩, ⟨_, _, _, 0, _, rfl, rfl, rfl, by rfl, by decide +kernel⟩, ⟨_, _, _, _, rfl, rfl, rfl, rfl, rfl, rfl, by decide +kernel⟩,
   ⟨_, _, rfl, rfl, by decide +kernel⟩, ⟨_, _, _, rfl, rfl, rfl, by decide⟩, fun b => ⟨_, _, _, _, _, rfl, rfl, rfl, rfl, by cases b <;> decide⟩,
   ⟨_, _, rfl, rfl, rfl⟩, fun b => ⟨_, _, rfl, rfl, rfl, by cases b <;> decide⟩⟩
theorem pool_entries : ∃ p, poolTab (pooled 0 0) 0 = some p ∧ p.kind = 0 ∧ (poolFind (pooled 0 0) p (bytes 4 []) 0).isSome = true := ⟨_, rfl, by decide +kernel⟩
theorem pool_prefixes : ∃ p, poolTab (pooled 1 8) 0 = some p ∧ p.kind = 1 ∧ (prefixFind (pooled 1 8) p (bytes 4 []) p.lengths none).isSome = true := ⟨_, rfl, by decide +kernel⟩

/-! ## Words, hand-offs, flow effects, cells -/

def oneTrick (d c : Nat) (t : Trick) : State := dealing [(trickKey d c, t)] [(5, aPkt)] [] []
theorem witness_WordsIssueAndPacketsMoveOn :
    (∃ s t w va vb, s = oneTrick 287 255 Trick.blank ∧ t = Trick.blank ∧ okDealer 287 = true ∧ 255 < 256 ∧ ksorted s.tricks = true ∧ tricksOf s 287 = [(trickKey 287 255, t)]
      ∧ w = trickWord s 287 t ∧ mayIssue s 287 t = true ∧ slotsBusy s 287 < 8 ∧ (0 < w.cyc ∧ w.kOp = 0 ∧ w.exLen = 0 ∧ w.exOff = 0 ∧ w.mIss = false ∧ w.qSrc = 0 ∧ w.fOp = 0 ∧ w.eOp = 0 ∧ w.target = 0
      ∧ w.vsrc = false ∧ w.imm = 0 ∧ w.sample = false ∧ w.bumpK = 0 ∧ w.launch = false ∧ w.recirc = false ∧ w.drop = false ∧ w.exc = false ∧ w.commit = false)
      ∧ srcVal s t w w.aA = some va ∧ srcVal s t w w.aB = some vb ∧ w.cond = 0 ∧ w.next ≠ endAddr)
    ∧ (∀ d ∈ [32, 127, 191], ∃ s t o, s = dealing [(trickKey d 255, t)] [(5, aPkt)] [(tyRoutines, bytes 16 [(0, BitVec.ofNat 8 (stageOf d + 1))])] []
      ∧ t = { Trick.blank with settled := some 0, pkt := 5 } ∧ d < 192 ∧ (stageOf d = 1 ∨ stageOf d = 3 ∨ stageOf d = 5) ∧ ksorted s.tricks = true ∧ tricksOf s d = [(trickKey d 255, t)]
      ∧ kget s.displaced d = none ∧ getPkt s t.pkt = some aPkt ∧ hasRoom s (d + 32) = true ∧ flowTakes s (d % 32) = true
      ∧ routineOff s (pktEpoch aPkt) (stageOf d + 1) (pktRoutine aPkt (stageOf d + 1)) = some o) := by
  refine ⟨⟨_, _, _, 0, 0, rfl, rfl, by decide, by decide, by decide, by rfl, rfl, by decide +kernel⟩, ?_⟩
  intro d h
  simp only [List.mem_cons, List.not_mem_nil, or_false] at h
  rcases h with rfl | rfl | rfl <;> exact ⟨_, _, 0, rfl, rfl, by decide, by decide, by decide, by rfl, by decide, by rfl, by decide, by decide, by decide +kernel⟩

/-- A trick holds suit 5 (with a shuffle result), or no suit. -/
def suited : Trick := { Trick.blank with suit := some 5, shuf := some (1, 2, 3) }
/-- The line of the empty key in the empty cache, in state `x`. -/
def lineNo : Nat := 16 * setOf (dealing [] [] [] []) []
def keyed (l : Line) (h : Option Holder) (t : Trick) : State :=
  { oneTrick 287 255 t with lines := [(lineNo, { l with digest := digestOf (dealing [] [] [] []) [] })], suits := [(lineSuit lineNo, { Suit.idle with holder := h })] }
def atRecord (t : Trick) : State := keyed { Line.blank with lstate := .record } none t
def atAbsent (t : Trick) : State := keyed { Line.blank with lstate := .absent } (some (.trick 287 255)) t
/-- Trick `t` runs in `s` as the statements ask. -/
def runsIn (s : State) (d c : Nat) (t : Trick) : Bool := okDealer d && okCtx c && trickAt s d c == some t && !t.ended && t.wait.isNone && t.mwait.isNone
theorem runs_in {s : State} {d c : Nat} {t : Trick} (h : runsIn s d c t = true) : running s d c t := by
  unfold runsIn at h
  simp only [Bool.and_eq_true, Bool.not_eq_true', beq_iff_eq, Option.isNone_iff_eq_none] at h
  exact ⟨h.1.1.1.1.1, h.1.1.1.1.2, h.1.1.1.2, h.1.1.2, h.1.2, h.2⟩
/-- The line that the empty key names in `s`, for a trick of no packet. -/
def lineFor (s : State) (t : Trick) : Option Nat := findLine s (setOf s (trickKeyOf s t)) (digestOf s (trickKeyOf s t))
theorem witness_FlowEffectsAndLookups :
    (∀ d ∈ [95, 287], runsIn (oneTrick d 255 suited) d 255 suited = true ∧ suited.committed = false ∧ suited.log.length < 32 ∧ suitHeld ≠ suitNone ∧ suited.suit ≠ none
        ∧ kget suited.pend 3 = none ∧ suited.shuf = some (1, 2, 3)) ∧ stageOf 95 = 2 ∧ stageOf 287 = 7
    ∧ (∃ s t, s = oneTrick 287 255 t ∧ t = { Trick.blank with recAt := some (.gather 0 0), log := List.replicate 31 ⟨.touch, none⟩ } ∧ runsIn s 287 255 t = true ∧ t.log.length < 32
        ∧ gathers t = true)
    ∧ (∃ s t, s = oneTrick 287 255 t ∧ t = Trick.blank ∧ runsIn s 287 255 t = true ∧ lineFor s t = none)
    ∧ (∃ s t, s = atRecord t ∧ t = Trick.blank ∧ runsIn s 287 255 t = true ∧ lineFor s t = some lineNo ∧ (lineOf s lineNo).lstate = .record
        ∧ t.suit ≠ some (suitOf lineNo (lineOf s lineNo)) ∧ (suitAt s (suitOf lineNo (lineOf s lineNo))).holder = none)
    ∧ (∃ s t p, s = atAbsent t ∧ t = { Trick.blank with pkt := 5, suit := some (lineSuit lineNo) } ∧ runsIn s 287 255 t = true ∧ lineFor s t = some lineNo ∧ (lineOf s lineNo).lstate = .absent
        ∧ (suitAt s (lineSuit lineNo)).holder = some (.trick 287 255) ∧ trickPkt s t = some p ∧ t.log.length < 32 ∧ createOk s lineNo = true)
    ∧ (∃ s t p, s = { atAbsent t with cold := (tyFlowgeom, bytes 80 [(8, 1)]) :: (atAbsent t).cold }
        ∧ t = { Trick.blank with pkt := 5, suit := some (lineSuit lineNo) } ∧ runsIn s 287 255 t = true ∧ lineFor s t = some lineNo ∧ (lineOf s lineNo).lstate = .absent
        ∧ (suitAt s (lineSuit lineNo)).holder = some (.trick 287 255) ∧ trickPkt s t = some p ∧ t.log.length < 32 ∧ createOk s lineNo = false) := by
  refine ⟨by decide, by decide, by decide, ⟨_, _, rfl, rfl, by decide⟩, ⟨_, _, rfl, rfl, by decide +kernel⟩, ⟨_, _, rfl, rfl, by decide +kernel⟩, ⟨_, _, aPkt, rfl, rfl, by decide +kernel⟩,
    ⟨_, _, aPkt, rfl, rfl, by decide +kernel⟩⟩
theorem syn_frames : ∃ p : Pkt, synOnly p = true := ⟨{ aPkt with cv := bytes 128 [(14, 2)] }, by decide⟩

/-- A record of index `i` with every tag bit, and a scan task over records. -/
def tagged (i : Nat) (s : State) : State := { s with hbm := memWrite [] (tagOff s (i / slotsOf s) (i % slotsOf s)) [0x80, 0, 0, 0] }
def scanning (a b : Nat) (t : Trick) : State :=
  { dealing [(trickKey 287 255, t)] [] [] [(tyFlowgeom, bytes 80 [(49, 1)])] with
    tasks := [(9, { readyTask with state := .running, kind := .scan a b })], time := { live.time with base := 1000 * 10 ^ 9 * 2 ^ 48 } }
/-- Reading record `i` brings poison. -/
def badRead (s : State) (d i : Nat) : Bool := (hbmRead s (recSource d) (recWordOff s i 0) (recBytes s - 4)).2.2
def sized (s : State) : State := { s with deck := { s.deck with geometry := 1 } }
def spoilt (i : Nat) (s : State) : State := { s with hbmc := { s.hbmc with poison := [recWordOff s i 0 / 32] } }
/-- Suit `i` has this holder. -/
def holding (i : Nat) (h : Holder) (s : State) : State := { s with suits := [(i, { Suit.idle with holder := some h })] }
def scanner : Trick := { Trick.blank with task := some 9 }
theorem witness_RecordsAreSteppedScannedAndTasksPosted :
    (∃ s t, s = oneTrick 287 255 t ∧ t = { Trick.blank with recAt := some (.line 7) } ∧ runsIn s 287 255 t = true ∧ t.committed = false ∧ stageOf 287 = 7)
    ∧ (∃ s t, s = oneTrick 95 255 t ∧ t = { Trick.blank with recAt := some (.index 7) } ∧ runsIn s 95 255 t = true ∧ badRead s 95 7 = false)
    ∧ (∃ s t, s = dealing [(trickKey 287 255, t)] [] [(tyFlowfsm, bytes 4096 [])] [] ∧ t = { suited with image := some [] } ∧ runsIn s 287 255 t = true
        ∧ 0 < fsmCount s t.slot ∧ bits (wordOf [] (coreW s)) 31 24 < 32 ∧ bits (wordOf [] (coreW s)) 23 20 = 0)
    ∧ (∃ s t, s = oneTrick 287 255 t ∧ t = { suited with image := some [] } ∧ fsmCount s t.slot ≤ bits (wordOf [] (coreW s)) 23 20)
    ∧ (∃ s, s = oneTrick 287 255 Trick.blank ∧ indexValid s (2 ^ 28 - 1) = false)
    ∧ (∃ s, s = tagged (2 ^ 26 - 1) (oneTrick 287 255 Trick.blank) ∧ indexValid s (2 ^ 26 - 1) = true ∧ (suitAt s (2 ^ 26 - 1)).holder = none
        ∧ badRead s 287 (2 ^ 26 - 1) = false ∧ badRead (takeSuit s (2 ^ 26 - 1) (.trick 287 255)) 287 (2 ^ 26 - 1) = false)
    ∧ (∃ s t, s = spoilt 7 (tagged 7 (sized (oneTrick 287 255 t))) ∧ t = Trick.blank ∧ indexValid s 7 = true ∧ badRead s 287 7 = true ∧ t.restarts < restartMax s)
    ∧ (∃ s, s = scanning 3 7 scanner ∧ runsIn s 287 255 scanner = true ∧ scanCursor s scanner = some (3, 7) ∧ scanner.suit = none ∧ nextExpired s 3 (7 - 3) = none)
    ∧ (∃ s, s = tagged 5 (scanning 3 7 scanner) ∧ scanCursor s scanner = some (3, 7) ∧ nextExpired s 3 (7 - 3) = some 5 ∧ (suitAt s 5).holder = none
        ∧ badRead (takeSuit s 5 (.trick 287 255)) 287 5 = false)
    ∧ (∃ s, s = holding 5 (.trick 95 0) (tagged 5 (scanning 3 7 scanner)) ∧ nextExpired s 3 (7 - 3) = some 5 ∧ (suitAt s 5).holder = some (.trick 95 0))
    ∧ (∃ s : State, ksorted s.tasks = true ∧ 4097 < freeHandles s) :=
  ⟨⟨_, _, rfl, rfl, by decide⟩, ⟨_, _, rfl, rfl, by decide +kernel⟩, ⟨_, _, rfl, rfl, by decide +kernel⟩, ⟨_, _, rfl, rfl, by decide⟩, ⟨_, rfl, by decide⟩,
   ⟨_, rfl, by decide +kernel⟩, ⟨_, _, rfl, rfl, by decide +kernel⟩, ⟨_, rfl, by decide +kernel⟩, ⟨_, rfl, by decide +kernel⟩, ⟨_, rfl, by decide +kernel⟩, ⟨live, by decide⟩⟩

/-- 192K handles used (all but 4,097 free): the tasks 0 to `n` - 1. -/
def manyTasks (n : Nat) : State := { live with tasks := (List.range n).map fun h => (h, readyTask) }
theorem no_handles {n : Nat} (h : poolHandles ≤ n + 4097) (le : n ≤ poolHandles) : freeHandles (manyTasks n) ≤ 4097 := by
  have : kcount (manyTasks n).tasks 0 poolHandles = n := by
    unfold kcount manyTasks
    dsimp only
    rw [List.filter_eq_self.mpr, List.length_map, List.length_range]
    intro e he
    obtain ⟨k, hk, rfl⟩ := List.mem_map.mp he
    have := List.mem_range.mp hk
    simp only [Bool.and_eq_true, decide_eq_true_eq]
    omega
  unfold freeHandles
  omega

/-- A cell of 60 bytes of frame with its header, from hand 31 to pot 31. -/
def aCell (seg : Seg) : Cell := ⟨31, 31, 0, [seg], bytes 92 [], 0, false⟩
def wholeSeg : Seg := ⟨92, true, true, false, false⟩
def tailSeg : Seg := ⟨92, false, true, false, false⟩
def sendingHand (p : Pkt) : State := { dealing [] [(5, p)] [] [] with sendq := [(31, [⟨5, 31, false, bytes 60 []⟩])] }
def crossed (n : Nat) : State := { live with crossing := [(32 * 31 + 31, [{ aCell wholeSeg with seq := n }])] }
def heldCell (n : Nat) (seg : Seg) (r : Recv) (s : State) : State := { s with reseq := [(32 * 31 + 31, ⟨0, [{ aCell seg with seq := n }], r⟩)] }
theorem witness_CellsAreCutStagedMatchedAndReleased :
    (∃ s it, s = sendingHand aPkt ∧ 31 < 32 ∧ kget s.sendq 31 = some [it] ∧ it.pot < 32 ∧ it.started = false ∧ getPkt s it.vec = some aPkt ∧ aPkt.ended = true
      ∧ it.stream.length + 32 < 256 ∧ sendHeld s (pktQueue aPkt) = false ∧ kget s.opens (32 * 31 + it.pot) = none ∧ s.opens = [] ∧ aPkt.entries ≠ 0)
    ∧ (∃ s p it, s = sendingHand p ∧ p = { aPkt with entries := 0 } ∧ kget s.sendq 31 = some [it] ∧ getPkt s it.vec = some p ∧ p.entries = 0)
    ∧ (∃ s, s = { live with cutq := [(31, [aCell wholeSeg])] } ∧ kget s.cutq 31 = some [aCell wholeSeg] ∧ 0 < (pairOf s 31 (aCell wholeSeg).dst).credits
      ∧ (∀ pl, pl < 4 → stagedAt s 31 pl = []) ∧ s.opens = [])
    ∧ (∃ s c, s = crossed 63 ∧ kget s.crossing (32 * 31 + 31) = some (c :: []) ∧ wrapSub 16 c.seq (reseqOf s 31 31).expect < 64)
    ∧ (∃ s c, s = crossed 64 ∧ kget s.crossing (32 * 31 + 31) = some (c :: []) ∧ 64 ≤ wrapSub 16 c.seq (reseqOf s 31 31).expect)
    ∧ (∃ s, s = heldCell 1 wholeSeg .none live ∧ (reseqOf s 31 31).held ≠ [] ∧ (∀ c, c ∈ (reseqOf s 31 31).held → c.seq ≠ (reseqOf s 31 31).expect)
      ∧ ∀ q f, (reseqOf s 31 31).recv ≠ .into q f)
    ∧ (∃ s c, s = heldCell 0 tailSeg .discard live ∧ (reseqOf s 31 31).held = [c] ∧ c.seq = (reseqOf s 31 31).expect ∧ (reseqOf s 31 31).recv = .discard
      ∧ ∃ g, c.segs = [g] ∧ g.start = false)
    ∧ (∃ s c, s = { live with staged := [(4 * 31 + 3, [aCell wholeSeg])] } ∧ 3 < 4 ∧ c = aCell wholeSeg ∧ c.dst < 32 ∧ stagedAt s 31 3 = [c] ∧ ∀ g, g < 32 → g ≠ 31 → stagedAt s g 3 = []) :=
  ⟨⟨_, _, rfl, by decide, by rfl, by decide +kernel⟩, ⟨_, _, _, rfl, rfl, by rfl, by rfl, rfl⟩, ⟨_, rfl, by rfl, by decide, by decide, rfl⟩, ⟨_, _, rfl, by rfl, by decide⟩,
   ⟨_, _, rfl, by rfl, by decide⟩, ⟨_, rfl, by decide, by decide, fun q f h => Recv.noConfusion h⟩, ⟨_, _, rfl, by rfl, by decide, by decide, _, rfl, rfl⟩,
   ⟨_, _, rfl, by decide, rfl, by decide⟩⟩

/-- Queue 63,488 of pot 31, which the deck enables or not, with room. -/
def potDeck (on : Bool) : State :=
  ported 0 [(tyQueues, bytes 32 [(0, if on then 2 else 0), (2, 0xF8), (4, 0xF8)] ++ bytes 32 [(0, 1), (7, 100), (11, 200)]), (tyTm, bytes 32 [] ++ bytes 32 [(0, 3), (1, 1), (2, 0xF8), (5, 1), (18, 0xFF)])] live
def arrived (on : Bool) : State := { potDeck on with reseq := [(32 * 31 + 31, ⟨0, [{ aCell wholeSeg with payload := bytes 32 [(12, 0xF8)] ++ bytes 60 [] }], .none⟩)] }
theorem pair_eta {α β : Type} (x : α × β) : x = (x.1, x.2) := rfl
def released (on : Bool) : State :=
  giveCredit (setReseq (arrived on) 31 31 { reseqOf (arrived on) 31 31 with expect := ((reseqOf (arrived on) 31 31).expect + 1) % 65536, held := [] }) 31 31
theorem witness_AReleasedFrameEntersItsQueue :
    ∀ on, ∃ s u v x c g hdr body a, s = arrived on ∧ x = reseqOf s 31 31 ∧ x.held = [c] ∧ c.seq = x.expect ∧ c.segs = [g] ∧ g.start = true ∧ g.last = true ∧ g.bad = false
    ∧ g.stop = c.payload.length ∧ c.payload = hdr ++ body ∧ hdr.length = 32 ∧ body.length + 32 ≤ 256 ∧ 63488 = fld hdr 12 2
    ∧ u = giveCredit (setReseq s 31 31 { x with expect := (x.expect + 1) % 65536, held := [] }) 31 31 ∧ admitPot u 63488 hdr = (a, v) ∧ a.isSome = on
    ∧ (queueOf v 63488).frames = [] ∧ (portOf v (queuePort v 63488)).txq = [] := by
  intro on
  refine ⟨arrived on, released on, (admitPot (released on) 63488 (bytes 32 [(12, 0xF8)])).2, reseqOf (arrived on) 31 31, { aCell wholeSeg with payload := bytes 32 [(12, 0xF8)] ++ bytes 60 [] }, wholeSeg,
    bytes 32 [(12, 0xF8)], bytes 60 [], (admitPot (released on) 63488 (bytes 32 [(12, 0xF8)])).1, rfl, rfl, ?_⟩
  cases on <;> exact ⟨by rfl, by decide, by rfl, by decide, by decide, by decide, by decide, by rfl, by decide, by decide, by decide, rfl, pair_eta _, by decide +kernel⟩

/-! ## Queues, kitty, fetches, tasks and dumps -/

/-- Queue 65,535 samples group 15 into ring 8,191. -/
def sampling : State := { dealing [] [] [] [] with regs := [(aSGroup 15, 8191 + 2 ^ 13), (aTmQueue 65535 2, BitVec.ofNat 64 (2 ^ 33 + 15 * 2 ^ 29))] }
theorem sampled_elsewhere (q : Nat) (h : q ≠ 65535) : qSampled sampling q = false := by
  have r : regRaw sampling (aTmQueue q 2) (queueCurveD sampling q) = queueCurveD sampling q := by
    have k : kget sampling.regs (aTmQueue q 2) = none := by
      show kget [(aSGroup 15, _), (aTmQueue 65535 2, _)] _ = none
      unfold aTmQueue aSGroup kget
      rw [if_neg (by omega), kget, if_neg (by omega), kget]
    unfold regRaw; rw [k]
  have d : queueCurveD sampling q = 0 := rfl
  unfold qSampled queueCurve
  rw [r, d]; rfl
theorem witness_QueueSamplesAndSweeps : ∃ kept lost, 15 < 16 ∧ 31 < 32 ∧ hasDeck sampling = true ∧ bits (sgroupW sampling 15) 32 13 ≠ 0 ∧ sampledQueues sampling 31 15 = [65535]
    ∧ (∀ p, p < 32 → p ≠ 31 → sampledQueues sampling p 15 = []) ∧ 8191 = bits (sgroupW sampling 15) 12 0
    ∧ freeItems (ringOf sampling 8191).items (ringOf sampling 8191).part (2 ^ (ringCfg sampling 8191).log2 - (ringOf sampling 8191).waiting) (queueItem sampling 65535).length = some (kept, lost)
    ∧ (ringOf sampling 8191).slots = []
    ∧ (∃ s : State, kget s.policers 65535 = some (1, 2, 3) ∧ kget s.shapers (65536 * 2 + 65535) ≠ none ∧ 65535 < 65536) := by
  refine ⟨[], 0, by decide, by decide, by decide, by decide, ?_, ?_, by decide, by decide +kernel, rfl,
    { live with policers := [(65535, (1, 2, 3))], shapers := [(65536 * 2 + 65535, ⟨0, 0⟩)] }, by decide⟩
  · have : sampledQueues sampling 31 15 = ((List.range 2048).map (2048 * 31 + ·)).filter (· == 65535) := by
      apply List.filter_congr
      intro q _
      by_cases e : q = 65535
      · rw [e]; decide
      · rw [sampled_elsewhere q e]
        exact (beq_eq_false_iff_ne.mpr e).symm
    rw [this]
    decide +kernel
  · intro p hp hne
    apply List.filter_eq_nil_iff.mpr
    intro q hq
    obtain ⟨k, hk, rfl⟩ := List.mem_map.mp hq
    have := List.mem_range.mp hk
    rw [sampled_elsewhere _ (by omega)]
    exact Bool.false_ne_true

/-- Queue 5 holds one frame, and its group has the turn of port 0. -/
def selecting : State :=
  { ported 0 [(tyQueues, queueRange)] live with
    hot0 := [(tyRoutines, bytes 16 [(0, 5)])], grpDef := [(0, ⟨64, true, false⟩)], queues := [(5, { queueOf live 5 with frames := [aPotFrame], turn := true, deficit := 64 })] }
theorem witness_ASelectionStartsTheEligibleHeadFrame : ∃ s o, s = selecting ∧ hasDeck s = true ∧ potQueues s 0 = [5] ∧ 5 / 2048 = 0 ∧ queuePort s 5 = 8 * 0 + 0
    ∧ (∀ j, j < 8 → j ≠ 0 → portReady s (8 * 0 + j) = false) ∧ portReady s (8 * 0 + 0) = true ∧ (queueOf s 5).frames = [aPotFrame] ∧ queueEligible s 5 = true
    ∧ timeTriggered aPotFrame = false ∧ qGroup s 5 = 0 ∧ shaperOk s 1 0 = true ∧ turnGroup s (8 * 0 + 0) = some 0 ∧ (grpDefOf s 0).lost = false ∧ 0 < (grpDefOf s 0).deficit ∧ qPrio s 5 < 8
    ∧ (queueOf s 5).turn = true ∧ (queueOf s 5).lost = false ∧ 0 < (queueOf s 5).deficit ∧ ksorted s.tricks = true ∧ (tricksOf s (160 + 0)).length < 256
    ∧ routineOff s (hdrEpoch aPotFrame) (stageOf (160 + 0)) (bits (hdrW aPotFrame 6) 23 16) = some o :=
  ⟨_, 0, rfl, by decide +kernel⟩

/-- A record to mirror, with a slot or with none free; a kept record to re-insert. -/
def mirroring (slots : KMap Nat) : State := { dealing [] [] [] [] with keep := { live.keep with queue := [7], slots := slots } }
def fullSlots : KMap Nat := (List.range 28672).map fun k => (k, 100 + k)
theorem mirror_runs (slots : KMap Nat) : ∃ u, partRuns (mirrorBody (mirroring slots)).2 (mirrorBody (mirroring slots)).1 = some u ∧ u.keep = (mirroring slots).keep := by
  obtain ⟨v, h, so⟩ := partRuns_same (s := (mirrorBody (mirroring slots)).2) (mirrorBody (mirroring slots)).1 rfl (by show kcount [] 0 poolHandles < poolHandles; decide)
  refine ⟨v, h, ?_⟩
  unfold SameButObs at so
  rw [so]; rfl
theorem full_slots : keepSlotOf (mirroring fullSlots) 7 = none ∧ 28672 ≤ kcount fullSlots 0 28672 := by
  constructor
  · unfold keepSlotOf mirroring
    dsimp only
    unfold kfind fullSlots
    rw [List.find?_eq_none.mpr]
    · rfl
    · intro e he
      obtain ⟨k, _, rfl⟩ := List.mem_map.mp he
      simp only [beq_iff_eq]
      omega
  · unfold kcount fullSlots
    refine Nat.le_of_eq (Eq.symm ?_)
    rw [List.filter_eq_self.mpr, List.length_map, List.length_range]
    intro e he
    obtain ⟨k, hk, rfl⟩ := List.mem_map.mp he
    have := List.mem_range.mp hk
    simp only [Bool.and_eq_true, decide_eq_true_eq]
    omega
/-- The tags of both buckets of the empty key read `t` in every slot. -/
def bucketed (t : List Byte) (s : State) : State :=
  { s with hbm := memWrite (memWrite [] (bucketOff s (bucket1 s [])) ((List.range 8).flatMap fun _ => t)) (bucketOff s (bucket2 s [])) ((List.range 8).flatMap fun _ => t) }
/-- No stack holds requests back, none wait, and no sector is poisoned. -/
def Quiet (s : State) : Prop := s.hbmc.poison = [] ∧ s.hbmc.reqs = [] ∧ s.hbmc.refAt = [] ∧ s.hbmc.retrain = none
theorem quiet_write {s : State} (q : Quiet s) (source off : Nat) (bs : List Byte) : (hbmWrite s source off bs).hbmc = s.hbmc := by
  have wp : ∀ u, Quiet u → ∀ o n, (writePiece u source o n).hbmc = u.hbmc := by
    intro u ⟨hp, hr, ha, ht⟩ o n
    have first : readsFirst u source o = u := by unfold readsFirst; rw [hr]; rfl
    have post : postReq u source o n = u := by
      unfold postReq stackHolds inRefresh
      rw [ha, ht, hr]; rfl
    unfold writePiece
    rw [first, post]
    unfold writeSectors
    dsimp only
    have no : ∀ k, (bump u k).hbmc.poison = [] := fun _ => hp
    simp only [no, List.filter_nil, List.foldl_nil]
    show { u.hbmc with poison := [] } = u.hbmc
    rw [← hp]
  have pc : ∀ k u, Quiet u → ∀ o n, (pieces k (fun s o m => writePiece s source o m) u o n).hbmc = u.hbmc := by
    intro k
    induction k with
    | zero => intro u _ o n; rfl
    | succ k ih =>
      intro u q o n
      unfold pieces
      split
      · rfl
      · have a := wp u q o (pieceLen u o n)
        have b := ih (writePiece u source o (pieceLen u o n)) (by unfold Quiet; rw [a]; exact q) (o + pieceLen u o n) (n - pieceLen u o n)
        exact b.trans a
  exact pc _ _ q _ _

theorem write_hbm (s : State) (source off : Nat) (bs : List Byte) : (hbmWrite s source off bs).hbm = memWrite s.hbm off bs := by rw [hbmWrite_only]
/-- A task posted into the pool writes HBM in the body area alone. -/
theorem posted {s : State} (b : TaskBody) (kd : TaskKind) (hs : ksorted s.tasks = true) (hr : kcount s.tasks 0 poolHandles < poolHandles) :
    ∃ h p, partPost s b kd = some (h, p) ∧ SameButObs s p ∧ (Quiet s → p.hbmc = s.hbmc) ∧ ∃ bs, p.hbm = memWrite s.hbm (bodyArea + 32 * h) bs := by
  obtain ⟨h, u, k, e, so, -⟩ := partPost_entry b kd hs hr
  refine ⟨h, u, e, so, ?_⟩
  unfold partPost chooseFree at e
  dsimp only at e
  rw [if_neg (by omega), Option.map_map, Option.map_eq_some_iff] at e
  obtain ⟨j, -, e⟩ := e
  simp only [Function.comp_apply, Prod.mk.injEq] at e
  obtain ⟨rfl, rfl⟩ := e
  have st : ∀ (u : State) h via, (settle u h via).hbm = u.hbm ∧ (settle u h via).hbmc = u.hbmc := by
    intro u h via
    unfold settle
    repeat' split
    all_goals first
      | exact ⟨rfl, rfl⟩
      | (dsimp only; unfold raiseHigh; split <;> exact ⟨rfl, rfl⟩)
  unfold postAt
  dsimp only
  rw [(st _ _ _).1, (st _ _ _).2]
  exact ⟨fun q => quiet_write (by exact q) _ _ _, bodyBytes b, write_hbm _ _ _ _⟩

theorem empty_reads {m : Mem} {h : Nat} {bs : List Byte} {a n : Nat} (e : m = memWrite [] (bodyArea + 32 * h) bs) (le : a + n ≤ bodyArea) : memNat m a n = 0 := by
  have z : ∀ k c, memRead [] c k = List.replicate k 0 := by
    intro k
    induction k with
    | zero => intro c; rfl
    | succ k ih => intro c; rw [List.replicate_succ, ← ih (c + 1)]; rfl
  unfold memNat
  rw [e, memRead_memWrite_out _ _ _ _ _ (Or.inl (by omega)), z]
  have f : ∀ k, beFold 0 (List.replicate k (0 : Byte)) = 0 := by
    intro k
    induction k with
    | zero => rfl
    | succ k ih => rw [List.replicate_succ]; exact ih
  exact f n
/-- What the part reads from HBM below the body area is the same after it has run a task with no successor. -/
theorem runs_quietly {s : State} (b : TaskBody) (hs : ksorted s.tasks = true) (hr : kcount s.tasks 0 poolHandles < poolHandles) (q : bit (regRaw s aTskTrace 0) 0 = false)
    (sc : b.succ = none) : ∃ v, partRuns s b = some v ∧ SameButObs s v ∧ ∀ a n, a + n ≤ bodyArea → memNat v.hbm a n = memNat s.hbm a n := by
  obtain ⟨v, pr, so⟩ := partRuns_same b hs hr
  refine ⟨v, pr, so, fun a n le => ?_⟩
  obtain ⟨h, p, e, -, -, bs, hb⟩ := posted b .micro hs hr
  obtain ⟨h', p', k, e', -, -, hk, kb, -⟩ := partPost_entry b .micro hs hr
  rw [e] at e'
  obtain ⟨rfl, rfl⟩ := Prod.mk.inj (Option.some.inj e')
  have quiet : ∀ u, u.regs = (bump p aDispatched).regs → ∀ ev d c, traceTask u ev false h (some b) d c = u := by
    intro u hu ev d c
    unfold traceTask
    have r : regRaw u aTskTrace 0 = regRaw s aTskTrace 0 := by
      rw [← regRaw_partPost (by intro st k; unfold aHbmCtr aTskTrace; omega) (by decide) e, ← regRaw_bump_ne (s := p) (a := aDispatched) (b := aTskTrace) 0 (by decide)]
      unfold regRaw
      rw [hu]
    dsimp only
    rw [r, q]; rfl
  have ends : endTask (bump p aDispatched) h = { bump p aDispatched with tasks := kdel p.tasks h } := by
    unfold endTask
    rw [show kget (bump p aDispatched).tasks h = some k from hk]
    dsimp only
    rw [kb, sc]; rfl
  have ev : v.hbm = p.hbm := by
    unfold partRuns at pr
    rw [e, Option.map_some, Option.some.injEq] at pr
    rw [← pr]
    dsimp only
    rw [quiet _ rfl, ends, quiet { bump p aDispatched with tasks := kdel p.tasks h } rfl]
    rfl
  unfold memNat
  rw [ev, hb, memRead_memWrite_out _ _ _ _ _ (Or.inl (by omega))]

/-- A walk that finds every place of two buckets used, and leads back to them, finds no place. -/
theorem no_walk {e m : Nat} {used : Nat → Nat → Bool} {other : Nat → Nat → Nat} {x y : Nat} (u : ∀ b, b = x ∨ b = y → ∀ j, j < e → used b j = true)
    (o : ∀ b j, other b j = x ∨ other b j = y) : ∀ n c k acc, cuckooWalk n m e used other c k acc = none := by
  have full : ∀ b, b = x ∨ b = y → findUp e 0 (fun j => !used b j) = none := fun b hb =>
    findUp_none _ _ fun j _ hj => by rw [u b hb j (by omega)]; rfl
  intro n
  induction n with
  | zero => intro c k acc; rfl
  | succ n ih =>
    intro c k acc
    unfold cuckooWalk
    split
    · rfl
    · rw [findUp_none e 0 fun i _ _ => by rw [full _ (o c i)]; rfl]
      exact ih _ _ _

/-- A kept record of the empty key waits for its re-insertion. -/
def reinserting (tags : List Byte) (lines : KMap Line) : State :=
  bucketed tags { dealing [] [] [] [] with lines := lines, keep := { live.keep with slots := [(28671, 2 ^ 28 + 28671)], due := true } }
/-- The state in which its task has run, and one entry of the record has crossed. -/
theorem reinsert_runs (tags : List Byte) (lines : KMap Line) : ∃ v w, partRuns (reinsertBody (reinserting tags lines)).2 (reinsertBody (reinserting tags lines)).1 = some v
    ∧ w = cross v 110 64 (chunks 64 (memRead v.kitty (128 * 28671) 128)) ∧ keyOf v (keptWords v 28671) = [] ∧ w.lines = lines
    ∧ (∀ b, b < 2 ^ 23 → ∀ j, j < 8 → tagAt w b j = tagAt (reinserting tags lines) b j) ∧ bothPlaces w [] = bothPlaces (reinserting tags lines) []
    ∧ slotsOf w = 8 ∧ (∀ i, keyOf w (hbmRecord w i) = []) ∧ bucket1 w [] = bucket1 live [] ∧ bucket2 w [] = bucket2 live []
    ∧ digestOf w [] = digestOf live [] := by
  obtain ⟨v, e, so, same⟩ := runs_quietly (s := (reinsertBody (reinserting tags lines)).2) (reinsertBody (reinserting tags lines)).1 rfl
    (by show kcount [] 0 poolHandles < poolHandles; decide) (by show bit (regRaw (dealing [] [] [] []) aTskTrace 0) 0 = false; decide) rfl
  obtain ⟨xq, high, cf⟩ := cross_frame v 110 64 (chunks 64 (memRead v.kitty (128 * 28671) 128))
  unfold SameButObs at so
  refine ⟨v, _, e, cf.symm, ?_, ?_, ?_, ?_, ?_, ?_, ?_, ?_, ?_⟩
  · rw [so]; rfl
  · show v.lines = _; rw [so]; rfl
  · intro b lb j lj
    have o : ∀ m, tagOff { v with xq := xq, high := high, hbm := m } b j = 1024 * b + 4 * j := by
      intro m
      rw [so]
      show 0 * 2 ^ 32 + 1024 * b + 4 * j = _
      omega
    have w := same (1024 * b + 4 * j) 4 (by unfold bodyArea; omega)
    have o1 := o v.hbm
    unfold tagAt
    have o2 : tagOff (reinserting tags lines) b j = 1024 * b + 4 * j := by
      show 0 * 2 ^ 32 + 1024 * b + 4 * j = _
      omega
    rw [show tagOff { v with xq := xq, high := high } b j = 1024 * b + 4 * j from o1, o2]
    exact w
  all_goals first
    | (rw [so]; rfl)
    | (intro i; unfold keyOf; rw [so]; rfl)
/-- A cached record of the empty key, which its placing has not reached. -/
def heldLine : KMap Line := [(5, { Line.blank with lstate := .record, provisional := true, key := [] })]
/-- The key stands already; its buckets are full and lead nowhere; they have room. -/
theorem witness_a_present_key : ∃ v w, keyBusy (reinserting [0, 0, 0, 0] heldLine) [] = false
    ∧ partRuns (reinsertBody (reinserting [0, 0, 0, 0] heldLine)).2 (reinsertBody (reinserting [0, 0, 0, 0] heldLine)).1 = some v
    ∧ w = cross v 110 64 (chunks 64 (memRead v.kitty (128 * 28671) 128)) ∧ keyOf v (keptWords v 28671) = [] ∧ keyPresent w [] = true := by
  obtain ⟨v, w, e, c, k, l, -⟩ := reinsert_runs [0, 0, 0, 0] heldLine
  refine ⟨v, w, rfl, e, c, k, ?_⟩
  unfold keyPresent
  rw [l]
  exact Bool.or_true _
theorem places_used : ∀ x ∈ bothPlaces live [], x.1 < 2 ^ 23 ∧ x.2 < 8 ∧ tagAt (reinserting [0x80, 0, 0, 0] []) x.1 x.2 = 2 ^ 31
    ∧ (tagAt (reinserting [0x80, 0, 0, 0] []) x.1 x.2 % 2 ^ 30 == digestOf live [] % 2 ^ 30) = false ∧ tagAt (reinserting [0, 0, 0, 0] []) x.1 x.2 = 0 := by decide +kernel
theorem place_of {x : Nat} (h : x = bucket1 live [] ∨ x = bucket2 live []) {j : Nat} (lj : j < 8) : (x, j) ∈ bothPlaces live [] := by
  unfold bothPlaces
  rw [List.mem_append, List.mem_map, List.mem_map]
  rcases h with rfl | rfl
  · exact Or.inl ⟨j, List.mem_range.mpr lj, rfl⟩
  · exact Or.inr ⟨j, List.mem_range.mpr lj, rfl⟩
theorem witness_a_record_without_a_place : ∃ v w, keyBusy (reinserting [0x80, 0, 0, 0] []) [] = false
    ∧ partRuns (reinsertBody (reinserting [0x80, 0, 0, 0] [])).2 (reinsertBody (reinserting [0x80, 0, 0, 0] [])).1 = some v
    ∧ w = cross v 110 64 (chunks 64 (memRead v.kitty (128 * 28671) 128)) ∧ keyOf v (keptWords v 28671) = [] ∧ keyPresent w [] = false ∧ makePlace w [] = none := by
  obtain ⟨v, w, e, c, k, l, tg, bp, sl, ko, b1, b2, dg⟩ := reinsert_runs [0x80, 0, 0, 0] []
  have used : ∀ b, b = bucket1 live [] ∨ b = bucket2 live [] → ∀ j, j < 8 → placeUsed w b j = true := by
    intro b hb j lj
    have := places_used _ (place_of hb lj)
    unfold placeUsed
    rw [tg b this.1 j lj, this.2.2.1]
    decide
  refine ⟨v, w, rfl, e, c, k, ?_, ?_⟩
  · unfold keyPresent fetchFind
    dsimp only
    rw [bp, dg, l, List.find?_eq_none.mpr]
    · rfl
    · intro x hx
      have := places_used x hx
      rw [tg _ this.1 _ this.2.1, this.2.2.2.1, Bool.and_false, Bool.false_and]
      exact Bool.false_ne_true
  · unfold makePlace
    dsimp only
    rw [sl, b1, b2, findUp_none, findUp_none]
    · dsimp only
      rw [no_walk used]
      intro b j
      unfold flowOther
      rw [ko]
      dsimp only
      rw [b1, b2]
      split
      · exact Or.inl rfl
      · exact Or.inr rfl
    · intro j _ lj; rw [used _ (Or.inr rfl) j (by omega)]; rfl
    · intro j _ lj; rw [used _ (Or.inl rfl) j (by omega)]; rfl
theorem witness_a_record_with_a_place : ∃ v w u i second, keyBusy (reinserting [0, 0, 0, 0] []) [] = false
    ∧ partRuns (reinsertBody (reinserting [0, 0, 0, 0] [])).2 (reinsertBody (reinserting [0, 0, 0, 0] [])).1 = some v
    ∧ w = cross v 110 64 (chunks 64 (memRead v.kitty (128 * 28671) 128)) ∧ keyOf v (keptWords v 28671) = [] ∧ keyPresent w [] = false
    ∧ makePlace w [] = some (u, i, second) := by
  obtain ⟨v, w, e, c, k, l, tg, bp, sl, ko, b1, b2, dg⟩ := reinsert_runs [0, 0, 0, 0] []
  have zero : ∀ x ∈ bothPlaces live [], tagAt w x.1 x.2 = 0 := fun x hx => by
    have := places_used x hx
    rw [tg _ this.1 _ this.2.1, this.2.2.2.2]
  obtain ⟨j, fj, -⟩ := findUp_some' (p := fun j => !placeUsed w (bucket1 live []) j) 8 0 ⟨0, by omega, by omega, by
    unfold placeUsed; rw [zero _ (place_of (Or.inl rfl) (by omega))]; decide⟩
  refine ⟨v, w, w, bucket1 live [] * 8 + j, false, rfl, e, c, k, ?_, ?_⟩
  · unfold keyPresent fetchFind
    dsimp only
    rw [bp, l, List.find?_eq_none.mpr]
    · rfl
    · intro x hx
      rw [zero x hx]
      exact Bool.false_ne_true
  · unfold makePlace
    dsimp only
    rw [sl, b1, fj]
theorem keep_up {tags : List Byte} {l : KMap Line} : keepUp (reinserting tags l) = true := by show bit live.rst.good 7 = true; decide
theorem deck_up {tags : List Byte} {l : KMap Line} : hasDeck (reinserting tags l) = true := by show hasDeck (dealing [] [] [] []) = true; decide
theorem witness_TheKittyIsMirroredSummarizedAndReinserted : keepUp (mirroring []) = true ∧ hasDeck (mirroring []) = true
    ∧ keepSlotOf (mirroring [(28671, 7)]) 7 = some 28671 ∧ (mirroring []).keep.queue = [7]
    ∧ (ready host 1 1 ∧ 2 < 65536 ∧ (groupWords host 2).isSome = true ∧ groupPriv 2 = false)
    ∧ (ready (hostAt 1 live) 1 1 ∧ (groupWords (hostAt 1 live) 0x3200).isSome = true ∧ (groupWords (hostAt 1 live) 0x331F).isSome = true ∧ groupPriv 0x331F = true ∧ levelOf (hostAt 1 live) 1 < 3)
    ∧ (∀ tags lines, keepUp (reinserting tags lines) = true ∧ hasDeck (reinserting tags lines) = true ∧ (reinserting tags lines).keep.due = true
      ∧ (reinserting tags lines).rst.foldFlow = .open_ ∧ dueSlots (reinserting tags lines) = [28671] ∧ keyOf (reinserting tags lines) (keptWords (reinserting tags lines) 28671) = []) :=
  ⟨by decide, by decide, by decide, by decide, ⟨ready_host (by decide), by decide +kernel⟩, ⟨ready_hostAt _ _ (by decide), by decide +kernel⟩,
   fun tags lines => ⟨keep_up, deck_up, rfl, rfl, rfl, rfl⟩⟩

/-- A fetch of the empty key is pending in the last line, and a trick waits for it. -/
def fetching (tags : List Byte) : State :=
  bucketed tags { dealing [(trickKey 95 255, { Trick.blank with suit := some (lineSuit 3145727), wait := some (.fetch 3145727 1 0) })] [] [] [] with
    lines := [(3145727, { Line.blank with lstate := .pending })],
    hbmc := { live.hbmc with tags := [(3145727, [bucket1, bucket2].map fun b => ⟨bucketOff live (b live []), (List.range 8).flatMap fun _ => tags, false⟩)] }, suits := [(lineSuit 3145727, ⟨some (.trick 95 255), [], []⟩)] }
/-- Some record that the fetch reads is poisoned. -/
def foundReads (s : State) : Bool := recordPoison s (fetchVisits (lineTag s 3145727) s [] (fetchFind (lineTag s 3145727) s []))
/-- What a fetch of the empty key finds: the index, or that it is absent; and whether a line or suit stands in the way. -/
def foundIndex (s : State) : Option Nat := match fetchFind (lineTag s 3145727) s [] with | .found i => some i | .absent _ => none
theorem witness_AFetchFillsItsLine : (∀ tags, ∃ l, lineOf (fetching tags) 3145727 = l ∧ l.lstate = .pending ∧ l.key = [] ∧ l.gathered = none
      ∧ (∀ e ∈ (fetching tags).hbmc.reqs, ∀ r ∈ e.2, r.line ≠ 3145727) ∧ isSnap (fetching tags) = false ∧ (Instr.fetchComplete 3145727 false).wellFormed = true
      ∧ (∃ d x u b op out, kget (fetching tags).suits (lineSuit 3145727) = some ⟨some (.trick d x), [], []⟩ ∧ trickAt (fetching tags) d x = some u
          ∧ u.suit = some (lineSuit 3145727) ∧ u.more = [] ∧ u.wait = some (.fetch b op out)))
    ∧ (∀ tags, ∀ x ∈ kgetD (fetching tags).hbmc.tags 3145727 [], x.bad = false)
    ∧ (∃ s i, s = fetching (toBytes 4 (2 ^ 31 + digestOf (fetching []) [] % 2 ^ 30)) ∧ fetchFind (lineTag s 3145727) s [] = .found i ∧ foundReads s = false
        ∧ clashLine s 3145727 i = none ∧ kget s.suits i = none ∧ i < 2 ^ 27)
    ∧ (∃ s h, s = fetching [0, 0, 0, 0] ∧ fetchFind (lineTag s 3145727) s [] = .absent h ∧ foundReads s = false)
    ∧ (∃ s : State, s.deck.contract = ctSnap ∧ isSnap s = true) := by
  refine ⟨fun tags => ⟨_, rfl, rfl, rfl, rfl, fun e h => absurd h List.not_mem_nil, by rfl, by decide, 95, 255, _, _, _, _, by rfl, rfl, rfl, rfl, rfl⟩, ?_, ?_, ?_,
    ⟨{ live with deck := { live.deck with contract := ctSnap } }, rfl, by decide⟩⟩
  · intro tags x hx
    rw [show kgetD (fetching tags).hbmc.tags 3145727 [] = [bucket1, bucket2].map fun b => ⟨bucketOff live (b live []), (List.range 8).flatMap fun _ => tags, false⟩ from rfl] at hx
    obtain ⟨b, -, rfl⟩ := List.mem_map.mp hx
    rfl
  · have h : (foundIndex (fetching (toBytes 4 (2 ^ 31 + digestOf (fetching []) [] % 2 ^ 30)))).elim false (fun i =>
        (clashLine (fetching (toBytes 4 (2 ^ 31 + digestOf (fetching []) [] % 2 ^ 30))) 3145727 i).isNone
          && (kget (fetching (toBytes 4 (2 ^ 31 + digestOf (fetching []) [] % 2 ^ 30))).suits i).isNone && decide (i < 2 ^ 27)) = true := by decide +kernel
    unfold foundIndex at h
    split at h
    · rename_i i e
      simp only [Option.elim, Bool.and_eq_true, decide_eq_true_eq, Option.isNone_iff_eq_none] at h
      exact ⟨_, i, rfl, e, by decide +kernel, h.1.1, h.1.2, h.2⟩
    · cases h
  · have h : (foundIndex (fetching [0, 0, 0, 0])).isNone = true := by decide +kernel
    unfold foundIndex at h
    split at h
    · cases h
    · rename_i x e
      exact ⟨_, x, rfl, e, by decide +kernel⟩

theorem any_tasks (T : KMap Task) : hasDeck { dealing [] [] [] [] with tasks := T } = true ∧ ({ dealing [] [] [] [] with tasks := T } : State).postHeld.contains .scan = false := ⟨rfl, rfl⟩
def poolFull : State := { dealing [] [] [] [] with tasks := (List.range poolHandles).map fun h => (h, readyTask) }
theorem pool_full : hasDeck poolFull = true ∧ kcount poolFull.tasks 0 poolHandles = poolHandles ∧ poolFull.postHeld.contains .scan = false := by
  refine ⟨(any_tasks _).1, ?_, (any_tasks _).2⟩
  unfold kcount poolFull
  dsimp only
  rw [List.filter_eq_self.mpr, List.length_map, List.length_range]
  intro e he
  obtain ⟨k, hk, rfl⟩ := List.mem_map.mp he
  have := List.mem_range.mp hk
  simp only [Bool.and_eq_true, decide_eq_true_eq]
  omega

def parkedAt : Parked := { pkt := aPkt, hand := 31, routine := 0, suit := 4, head := true, restarts := 1, poison := false, wd := 9 }
def reentering : State :=
  { dealing [] [] [(tyRoutines, bytes 16 [(0, 2)])] [] with stock := [(3, parkedAt)], tasks := [(0x30003, { readyTask with hand := 31, stock := 3, kind := .reentry })] }
theorem witness_WindowsScansDelaysAndReEntry :
    (∃ s, s = { dealing [] [] [] [(tyFlowgeom, bytes 80 [(9, 1)])] with deck := { (ported 0 [] live).deck with contract := 1 } } ∧ okBank 31 = true ∧ hasDeck s = true ∧ inWindow s = true ∧ 31 < banks s)
    ∧ hasDeck live = false ∧ (∃ s, s = dealing [] [] [] [] ∧ hasDeck s = true ∧ ksorted s.tasks = true ∧ kcount s.tasks 0 poolHandles < poolHandles)
    ∧ (hasDeck poolFull = true ∧ kcount poolFull.tasks 0 poolHandles = poolHandles ∧ poolFull.postHeld.contains .scan = false)
    ∧ (15 < 16 ∧ kget live.tickNew 15 = none ∧ live.tasks = [] ∧ live.postHeld = [])
    ∧ (∃ s x, s = { live with tasks := [(9, x)] } ∧ x = { readyTask with state := .delayed, list := 15, expiry := 1, delayed := true } ∧ ksorted s.tasks = true ∧ kget s.tasks 9 = some x
        ∧ s.tasks.filter (fun e => e.2.state == .delayed && e.2.list == 15 && tickPassed ((listNow s 15 + 1) % 2 ^ 21) e.2.expiry) = [(9, x)])
    ∧ reentryNext live 31 = none
    ∧ (∃ s x p o, s = reentering ∧ reentryNext s 31 = some (0x30003, x) ∧ kget s.stock x.stock = some p ∧ p.poison = false ∧ ksorted s.tricks = true ∧ ksorted s.pkts = true
        ∧ (tricksOf s (64 + 31)).length < 256 ∧ kcount s.pkts (256 * 31) (256 * 31 + 256) < 256 ∧ routineOff s (pktEpoch p.pkt) (stageOf (64 + 31)) p.routine = some o) :=
  ⟨⟨_, rfl, by decide⟩, by decide, ⟨_, rfl, by decide⟩, pool_full, by decide, ⟨_, _, rfl, rfl, by decide⟩, by decide,
   ⟨_, _, _, 0, rfl, rfl, rfl, by decide +kernel⟩⟩

theorem witness_ExportTasksArePostedAndDumpsAreWrittenOrSkipped : hasDeck live = false
    ∧ (∃ s, s = dealing [] [] [] [(tyObs, bytes 128 [(2, 1), (8, 0xFF), (9, 0xFF), (64, 3)])] ∧ coldF s tyObs 8 2 = 65535 ∧ hasDeck s = true ∧ ksorted s.tasks = true
        ∧ kcount s.tasks 0 poolHandles < poolHandles ∧ okEngine 3 = true ∧ (dumpRec s 3).isSome = true ∧ trainFailed s = false)
    ∧ okEngine 0 = true ∧ dumpRec live 0 = none
    ∧ (∃ s : State, s = { dealing [] [] [] [(tyObs, bytes 128 [(2, 1), (64, 3)])] with hbmc := { live.hbmc with trainFail := 1 } } ∧ (dumpRec s 3).isSome = true ∧ trainFailed s = true) :=
  ⟨by decide, ⟨_, rfl, by decide +kernel⟩, by decide, by decide, ⟨_, rfl, by decide +kernel⟩⟩

/-! ## Time -/

/-- A TIME body: sentences before or after the edge as `label` says (TOD on serial input), LOCK_RUN of 4; a PPS_OUT record of output 3; an
INSTANCE of port 0 into queue 5. -/
def timeBody (label : Byte) : List Byte :=
  bytes 64 [(1, 1 + label), (2, 1), (3, 4), (24, 15)] ++ bytes 64 [(0, 1), (1, 3)] ++ bytes 64 [(0, 2), (1, 0), (11, 5)]
def timed (label : Byte) (t : TimeUnit) : State :=
  { ported 0 [(tyQueues, queueRange ++ bytes 32 [(0, 1), (7, 100), (11, 200)]), (tyTime, timeBody label), (tyTm, bytes 32 [] ++ bytes 32 [(0, 3), (1, 1), (5, 10), (18, 0xFF)])] live with time := t }
def gate0 : GateList := ⟨0, 0, 1000, [(1, 500), (2, 500)]⟩
def gated (running : Bool) (start entry : Nat) : State := { live with time := { live.time with gates := [⟨1023, gate0, start, running, entry, 0⟩] } }
def launching (l : Nat) : State := queuedWith { aPotFrame with hdr := bytes 32 [(21, 8), (19, BitVec.ofNat 8 l)] }
theorem witness_TimeEventsAndGateLists :
    (∃ s : State, s.time.state = .locked) ∧ (∃ s : State, s.time.state = .holdover ∧ tiF s 10 2 < holdAge s) ∧ (∃ s : State, s.time.state = .holdover ∧ holdAge s ≤ tiF s 10 2)
    ∧ (∀ k, (k = 1 ∨ k = 2) → ∃ s : State, s.time.pending = k ∧ s.time.pending ≠ 0 ∧ s.time.leapAt ≤ nowS s)
    ∧ (∃ s i, s = timed 0 { live.time with valid := true } ∧ okPps 3 = true ∧ s.time.valid = true ∧ timeTakes s = true ∧ bit (tiF s 24 1) 3 = true ∧ ppsRec s 3 = some i
        ∧ tiF s 2 1 % 4 = 1 ∧ 0 = (Int.ofNat (nowNs s) - sint 32 (tiR s i 8 4)) / 10 ^ 9 ∧ kget s.time.ppsSec 3 ≠ some 0)
    ∧ (∃ s, s = timed 0 { live.time with valid := true, ppsSec := [(3, 0)] } ∧ ppsRec s 3 = some 1 ∧ 0 = (Int.ofNat (nowNs s) - sint 32 (tiR s 1 8 4)) / 10 ^ 9
        ∧ kget s.time.ppsSec 3 = some 0)
    ∧ live.time.valid = false
    ∧ (∃ s : State, okGrant 4095 = true ∧ bit (regRaw s (aUnicast 4095 0) 0) 0 = true ∧ regRaw s (aUnicast 4095 0) 0 / 2 ^ 32 ≤ nowS s % 2 ^ 32)
    ∧ (∃ s : State, bit (regRaw s (aUnicast 4095 0) 0) 0 = true ∧ nowS s % 2 ^ 32 < regRaw s (aUnicast 4095 0) 0 / 2 ^ 32)
    ∧ (∃ s f, s = launching 50 ∧ okQueue 5 = true ∧ headFrame s 5 = some f ∧ hdrLaunchValid f = true ∧ sint 40 (hdrLaunch f + 2 ^ 41 - 50 - now40 s) ≤ 0)
    ∧ (∃ s f, s = launching 51 ∧ headFrame s 5 = some f ∧ hdrLaunchValid f = true ∧ 0 < sint 40 (hdrLaunch f + 2 ^ 41 - 50 - now40 s))
    ∧ okGate 1023 = true ∧ (∀ b a e, (gated b a e).coreTime.length < 16)
    ∧ (∃ s, s = { live with coreTime := [(255, 3)] } ∧ 255 < 256 ∧ s.pending = [] ∧ s.coreTime = [(255, 3)] ∧ s.time.genDue = [] ∧ ¬ (s.clk + 1) % 1600000000 = 0 ∧ s.clk + 1 ≠ s.rst.heldTill)
    ∧ (∃ r g, runOf (gated false 50 0) 1023 false = some (r, g) ∧ r.start ≤ nowNs (gated false 50 0) + 50)
    ∧ (∃ r g, runOf (gated false 51 0) 1023 false = some (r, g) ∧ nowNs (gated false 51 0) + 50 < r.start)
    ∧ (∃ r g, runOf (gated true 0 0) 1023 true = some (r, g) ∧ nowNs (gated true 0 0) + 50 < r.start + r.cycle * g.cycle + entryEnd g r.entry)
    ∧ (∃ s r g, s = { gated true 0 1 with time := { (gated true 0 1).time with base := 1000 * 2 ^ 48 } } ∧ runOf s 1023 true = some (r, g)
        ∧ r.start + r.cycle * g.cycle + entryEnd g r.entry ≤ nowNs s + 50) :=
  ⟨⟨{ live with time := { live.time with state := .locked } }, rfl⟩, ⟨{ live with clk := 1600000000, time := { live.time with state := .holdover } }, rfl, by decide +kernel⟩,
   ⟨{ live with time := { live.time with state := .holdover } }, rfl, by decide +kernel⟩,
   fun k h => ⟨{ live with time := { live.time with pending := k } }, rfl, by rcases h with rfl | rfl <;> decide, Nat.zero_le _⟩,
   ⟨_, 1, rfl, by decide +kernel⟩, ⟨_, rfl, by decide +kernel⟩, by decide +kernel, ⟨{ live with regs := [(aUnicast 4095 0, 1)] }, by decide +kernel⟩,
   ⟨{ live with regs := [(aUnicast 4095 0, BitVec.ofNat 64 (2 ^ 32 + 1))] }, by decide +kernel⟩, ⟨_, _, rfl, by decide +kernel, rfl, by decide +kernel⟩, ⟨_, _, rfl, rfl, by decide +kernel⟩,
   by decide +kernel, fun b a e => by show [].length < 16; decide, ⟨_, rfl, by decide⟩, ⟨_, _, rfl, by decide +kernel⟩, ⟨_, _, rfl, by decide +kernel⟩, ⟨_, _, rfl, by decide +kernel⟩,
   ⟨_, _, _, rfl, rfl, by decide +kernel⟩⟩

/-- `$GPZDA,000000.00,02,01,1970,00,00*6A`: second 86,400 (twice and one more: a leap second has the even number before); its checksum is the XOR of the bytes between `$` and `*`. -/
def zdaDay2 : List Byte := [36, 71, 80, 90, 68, 65, 44, 48, 48, 48, 48, 48, 48, 46, 48, 48, 44, 48, 50, 44, 48, 49, 44, 49, 57, 55, 48, 44, 48, 48, 44, 48, 48, 42, 54, 65]
theorem test_zda_of_the_second_day : parseZda zdaDay2 = some (2 * 86400 + 1) := by decide +kernel
def awaiting (run : Nat) : State := timed 0 { live.time with waitTod := true, lastEdge := some 256, run := run, lastUtc := some 172799 }
theorem witness_InputSecondsAreLabelledCountedAndLocked : bit live.rst.good 6 = true ∧ timeTakes live = false
    ∧ (∃ s e, s = timed 0 { live.time with lastEdge := some 0, base := 10 ^ 9 * 2 ^ 48 } ∧ timeTakes s = true ∧ e = Int.ofNat (s.time.base / 2 ^ 40) + 256000 - sint 16 (tiF s 22 2) * 256
        ∧ s.time.waitTod = false ∧ phaseOf e = sint 32 (uns 32 (phaseOf e)) ∧ bit (tiF s 1 1) 2 = false ∧ (e - 0 - 256 * 10 ^ 9).natAbs ≤ 256000)
    ∧ (∃ s e, s = timed 0 { live.time with lastEdge := some 0, base := 10 ^ 9 * 2 ^ 48 } ∧ e = Int.ofNat (s.time.base / 2 ^ 40) + 256001 - sint 16 (tiF s 22 2) * 256
        ∧ phaseOf e = sint 32 (uns 32 (phaseOf e)) ∧ 256000 < (e - 0 - 256 * 10 ^ 9).natAbs)
    ∧ tiF (timed 0 live.time) 1 1 % 4 = 1 ∧ parseZda [] = none ∧ parseZda zdaDay2 = some 172801
    ∧ (∃ s, s = timed 4 live.time ∧ timeTakes s = true ∧ tiF s 1 1 % 4 = 1 ∧ bit (tiF s 1 1) 2 = true)
    ∧ (∀ run ∈ [2, 3], ∃ s, s = awaiting run ∧ bit s.rst.good 6 = true ∧ timeTakes s = true ∧ tiF s 1 1 % 4 = 1 ∧ bit (tiF s 1 1) 2 = false ∧ s.time.waitTod = true ∧ s.time.lastEdge = some 256
        ∧ utcFollows s 172801 = true ∧ s.time.unlocked = false ∧ s.time.state ≠ .locked ∧ bit (regRaw s aRateTarget 0) 63 = false ∧ s.time.valid = false
        ∧ (run = 2 → s.time.run + 1 < tiF s 3 1) ∧ (run = 3 → tiF s 3 1 ≤ s.time.run + 1)) := by
  refine ⟨by decide, by decide, ⟨_, _, rfl, by decide +kernel, rfl, by decide +kernel⟩, ⟨_, _, rfl, rfl, by decide +kernel⟩, by decide +kernel, by decide +kernel, by decide +kernel,
    ⟨_, rfl, by decide +kernel⟩, ?_⟩
  intro run h
  simp only [List.mem_cons, List.not_mem_nil, or_false] at h
  rcases h with rfl | rfl <;> exact ⟨_, rfl, by decide +kernel⟩

/-- The clock is locked and valid; port 0's instance sends into queue 5. -/
def ptpState : State := timed 0 { live.time with state := .locked, valid := true }
/-- Whether a frame of 60 octets enters queue 5, or (queue 10) does not. -/
def stamped (cls : Nat) : State :=
  { timed 0 { live.time with valid := true } with ports := [(0, { portOf (timed 0 live.time) 0 with up := true, stamps := [⟨0, cls, 65536, 7, List.replicate 60 0⟩] })] }
theorem witness_PtpMessagesAndTransmitStamps :
    (∃ i cls, okPort 0 = true ∧ instRec ptpState 0 = some i ∧ clockClass ptpState = some cls ∧ ptpState.time.valid = true ∧ hasDeck ptpState = true ∧ destOk ptpState i 0 none = true
      ∧ streamDue ptpState i 0 none true = true ∧ held ptpState = false ∧ ptpState.time.genDue = [] ∧ ptpState.time.genNext ≤ ptpState.clk
      ∧ (queueOf ptpState (tiR ptpState i 10 2)).frames = [] ∧ inTx ptpState (tiR ptpState i 10 2) ptpState.frameNo = false)
    ∧ (∃ s u, s = ptpState ∧ admitPot (draw s).2 10 (bytes 32 []) = (none, u))
    ∧ (∃ s, s = timed 0 { live.time with valid := true } ∧ instRec s 0 = some 2 ∧ clockClass s = none ∧ destOk s 2 0 none = true ∧ streamDue s 2 0 none false = true ∧ s.time.genDue = [])
    ∧ (∃ s, s = timed 0 { live.time with state := .locked, valid := true, genNext := 32 } ∧ instRec s 0 = some 2 ∧ streamDue s 2 0 none false = true ∧ s.clk < s.time.genNext)
    ∧ instRec live 0 = none ∧ live.time.valid = false
    ∧ (∃ s : State, bit (regRaw s (aUnicast 4095 0) 0) 0 = true ∧ regRaw s (aUnicast 4095 0) 0 / 2 ^ 32 ≤ nowS s % 2 ^ 32)
    ∧ (okHand 0 = true ∧ oldestStamp live 0 = none)
    ∧ (∃ x, oldestStamp (stamped 2) 0 = some x ∧ x.cls = 2 ∧ (ringCfg (stamped 2) 0).byLength = false)
    ∧ (∃ x, oldestStamp (stamped 1) 0 = some x ∧ x.cls ≠ 2 ∧ instRec (stamped 1) x.port = some 2 ∧ (stamped 1).time.valid = true ∧ (stamped 1).time.genDue = []
        ∧ (stamped 1).time.genNext ≤ (stamped 1).clk ∧ held (stamped 1) = false)
    ∧ (∃ s x, s = { stamped 1 with time := live.time } ∧ oldestStamp s 0 = some x ∧ x.cls ≠ 2 ∧ s.time.valid = false)
    ∧ (∃ kept lost, freeItems (ringOf (stamped 2) 0).items (ringOf (stamped 2) 0).part (2 ^ (ringCfg (stamped 2) 0).log2 - (ringOf (stamped 2) 0).waiting) 24 = some (kept, lost)) :=
  ⟨⟨2, 0, by decide +kernel⟩, ⟨_, _, rfl, rfl⟩, ⟨_, rfl, by decide +kernel⟩, ⟨_, rfl, by decide +kernel⟩, by decide +kernel, by decide,
   ⟨{ live with regs := [(aUnicast 4095 0, 1)] }, by decide +kernel⟩, by decide +kernel,
   ⟨_, rfl, by decide +kernel⟩, ⟨_, rfl, by decide +kernel⟩, ⟨_, _, rfl, rfl, by decide +kernel⟩, ⟨[], 0, by decide +kernel⟩⟩
/-- The Announce of port 0's instance enters queue 5, and so does the Follow_Up of a returned stamp. -/
def announced : List Byte :=
  ptpFrame ptpState 2 0 none 320 (draw ptpState).1 (ptpHeader ptpState 2 0 0xB 64 0 false false 5 0 ++ announceBody ptpState 0)
/-- What has gone out, and when the next message may (R308). -/
def spaced (s : State) : State := { s with time := { s.time with genNext := s.clk + 32 } }
def announcing : State := { ptpState with time := { ptpState.time with msgAt := kset ptpState.time.msgAt (streamKey 0 none true) (nowNs ptpState), genNext := ptpState.clk + 32 } }
theorem witness_an_announce_enters : ∃ u, injectFrame (draw announcing).2 5 announced (injectHdr (curSlot ptpState) 5 announced.length 0 0 0 0) [] = (true, u) :=
  let ⟨_, _, e⟩ := admitted (s := (draw announcing).2) (q := 5) (hdr := injectHdr (curSlot ptpState) 5 announced.length 0 0 0 0) (by decide +kernel)
  inject_small e (by decide +kernel) (by decide +kernel)
def followed : List Byte := followUpFrame (stamped 1) 2 (List.replicate 60 0) ((65536 + 32768) / 65536)
def returned : State := spaced (setPort (stamped 1) 0 { portOf (stamped 1) 0 with stamps := [] })
theorem witness_a_follow_up_enters : ∃ u, injectFrame returned 5 followed (injectHdr (curSlot (stamped 1)) 5 followed.length 0 0 0 0) [] = (true, u) :=
  let ⟨_, _, e⟩ := admitted (s := returned) (q := 5) (hdr := injectHdr (curSlot (stamped 1)) 5 followed.length 0 0 0 0) (by decide +kernel)
  inject_small e (by decide +kernel) (by decide +kernel)

/-! ## Host flow transactions -/

/-- Session 1 at PRIVILEGED on a dealt part of geometry 2 with 32-octet keys and no scan window. -/
def flowing : State :=
  { hostAt 3 (ported 0 [(tyFlowgeom, bytes 80 [(1, 32)])] live) with deck := { live.deck with phase := .active, contract := 1, dealt := true, geometry := 2 } }
/-- The line of the key of 32 zeros, and the place of its record. -/
def zeroKey : List Byte := bytes 32 []
def zeroLine : Nat := 16 * setOf flowing zeroKey
def zeroIndex : Nat := bucket1 flowing zeroKey * slotsOf flowing

theorem witness_AHostFlowInsertPlacesItsRecord : ∃ p h d, ready flowing 1 2 ∧ hasDeck flowing = true ∧ flowing.rst.foldFlow = .open_ ∧ hostRuns flowing ∧ flowing.suits = []
    ∧ flowWf flowing 2 (flowTxn 2 0 d) = true ∧ zeroKey = slice d 0 (keyBytes flowing) ∧ findLine flowing (setOf flowing zeroKey) (digestOf flowing zeroKey) = none
    ∧ victim flowing (setOf flowing zeroKey) = some zeroLine ∧ (lineOf flowing zeroLine).lstate = .free ∧ zeroLine < 2 ^ 27 ∧ zeroIndex < 2 ^ 27
    ∧ partPost flowing (hostBody flowing) (.host flowing.zat.nextWait) = some (h, p) ∧ bit (regRaw (bump p aDispatched) aTskTrace 0) 0 = false
    ∧ fetchFind (tagAt p) p zeroKey = .absent (some zeroIndex) ∧ tagAt p (zeroIndex / slotsOf flowing) (zeroIndex % slotsOf flowing) = 0
    ∧ tagPoison p zeroKey = false ∧ recordPoison p (fetchVisits (tagAt p) p zeroKey (.absent (some zeroIndex))) = false ∧ p.hbmc.trained % 16 = 15
    ∧ inWindow flowing = false := by
  obtain ⟨h, p, e, so, sd, bs, hb⟩ := posted (s := flowing) (hostBody flowing) (.host flowing.zat.nextWait) rfl (by show kcount [] 0 poolHandles < poolHandles; decide)
  have tags : ∀ b j, b < 2 ^ 23 → j < 16 → tagAt p b j = 0 := by
    intro b j lb lj
    have o : tagOff p b j = 1024 * b + 4 * j := by
      unfold SameButObs at so
      rw [so]
      show 0 * 2 ^ 32 + 1024 * b + 4 * j = _
      omega
    unfold tagAt
    rw [o]
    exact empty_reads hb (by unfold bodyArea; omega)
  have places : bothPlaces p zeroKey = bothPlaces flowing zeroKey := by
    unfold SameButObs at so; rw [so]; rfl
  have low : ∀ q ∈ bothPlaces flowing zeroKey, q.1 < 2 ^ 23 ∧ q.2 < 16 := by decide +kernel
  have hq : p.hbmc = flowing.hbmc := sd ⟨rfl, rfl, rfl, rfl⟩
  have tr : p.hbmc.trained % 16 = 15 := by rw [hq]; decide
  have ps : ∀ o n, hbmPoisoned p o n = false := by
    intro o n
    unfold hbmPoisoned
    rw [stackDown_false tr, hq]; rfl
  refine ⟨p, h, bytes (keyPad flowing + 4 * (tagW flowing - keyWords flowing)) [], ⟨rfl, rfl, by decide⟩, by decide, by decide, runs_now (by decide +kernel) rfl rfl, rfl,
    by decide +kernel, by decide +kernel, by decide +kernel, by decide +kernel, by decide +kernel, by decide +kernel, by decide +kernel, e, ?_, ?_, ?_, ?_, ?_, tr, by decide +kernel⟩
  · rw [regRaw_bump_ne _ (by decide), regRaw_partPost (by intro st k; unfold aHbmCtr aTskTrace; omega) (by decide) e]; decide
  · unfold fetchFind
    dsimp only
    rw [places, List.find?_eq_none.mpr]
    · dsimp only
      have first : bothPlaces flowing zeroKey = (bucket1 flowing zeroKey, 0) :: (bothPlaces flowing zeroKey).tail := by decide +kernel
      have sl : slotsOf p = slotsOf flowing := by unfold SameButObs at so; rw [so]; rfl
      rw [first, List.find?_cons_of_pos, sl]
      · simp only [Option.map_some, Nat.add_zero, zeroIndex]
      · have := low (bucket1 flowing zeroKey, 0) (by rw [first]; exact List.mem_cons_self ..)
        simp only [decide_eq_true_eq]
        exact tags _ _ this.1 this.2
    · intro q hq
      rw [tags q.1 q.2 (low q hq).1 (low q hq).2]
      exact Bool.false_ne_true
  · exact tags _ _ (by decide +kernel) (by decide +kernel)
  · unfold tagPoison
    rw [ps, ps]; rfl
  · unfold recordPoison
    rw [List.any_eq_false]
    intro i _
    rw [ps]
    exact Bool.false_ne_true

/-- A provisional record of the key of 32 zeros stands in its line. -/
def provisional : State :=
  { flowing with lines := [(zeroLine, { Line.blank with lstate := .record, provisional := true, digest := digestOf flowing zeroKey, words := List.replicate 64 0 })] }
theorem witness_HostFlowTransactionsActOnARecord : (let s := provisional
    ready s 1 2 ∧ hasDeck s = true ∧ s.rst.foldFlow = .open_ ∧ hostRuns s ∧ kget s.suits (lineSuit zeroLine) = none ∧ zeroLine < 2 ^ 27 ∧ findLine s (setOf s zeroKey) (digestOf s zeroKey) = some zeroLine
    ∧ (lineOf s zeroLine).lstate = .record ∧ (lineOf s zeroLine).provisional = true ∧ zeroKey = slice (bytes 32 []) 0 (keyBytes s) ∧ (bytes 32 []).length = keyPad s
    ∧ timerBit s (lineOf s zeroLine).words = false)
    ∧ (∃ rest ws, rest = bytes 32 [] ++ toBytes 8 (2 ^ 20) ++ bytes 4 [] ∧ ws = maskWords (fld rest (keyPad (provisional)) 8) ∧ ws ≠ []
      ∧ rest.length = keyPad (provisional) + 8 + 4 * ws.length ∧ ∀ w ∈ ws, keyWords (provisional) ≤ w ∧ w < tagW (provisional)) :=
  ⟨⟨⟨rfl, rfl, by decide⟩, by decide, by decide, runs_now (by decide +kernel) rfl rfl, by decide +kernel⟩, ⟨_, _, rfl, rfl, by decide +kernel⟩⟩

/-! ## One ill-formed command for each check of WellFormed.lean, with its neighbour that the check admits -/

theorem test_wf_session : (Instr.ackOnlySend 0).wellFormed = false ∧ (Instr.ackOnlySend 65).wellFormed = false ∧ (Instr.ackOnlySend 64).wellFormed = true := by decide
theorem test_wf_control_port : (Instr.controlLinkUp 2).wellFormed = false ∧ (Instr.controlLinkUp 1).wellFormed = true := by decide
theorem test_wf_peer : (Instr.hello 0 [1, 2, 3, 4, 5]).wellFormed = false ∧ (Instr.auth 0 [1, 2, 3, 4, 5, 6, 7] []).wellFormed = false ∧ (Instr.hello 1 [1, 2, 3, 4, 5, 6]).wellFormed = true := by decide
theorem test_wf_address : (Instr.read 1 (2 ^ 48)).wellFormed = false ∧ (Instr.write 1 (2 ^ 48) 0).wellFormed = false ∧ (Instr.bulkRead 1 (2 ^ 48) 8).wellFormed = false ∧ (Instr.deal 1 (2 ^ 48) []).wellFormed = false
    ∧ (Instr.read 1 (2 ^ 48 - 1)).wellFormed = true := by decide
theorem test_wf_half_word : (Instr.bulkRead 1 0 65536).wellFormed = false ∧ (Instr.snapshot 1 65536).wellFormed = false ∧ (Instr.timeSet 1 0 0 65536).wellFormed = false ∧ (Instr.snapshot 1 65535).wellFormed = true := by decide
theorem test_wf_table : (Instr.tableRead 1 16 0 []).wellFormed = false ∧ (Instr.tableInsert 1 0 (2 ^ 40) []).wellFormed = false ∧ (Instr.flowReadIndex 1 (2 ^ 40)).wellFormed = false ∧ (Instr.tableWrite 1 15 0 []).wellFormed = true := by decide
theorem test_wf_source : (Instr.dealCommitHot 1 4).wellFormed = false ∧ (Instr.dealCommitHot 1 3).wellFormed = true := by decide
theorem test_wf_fold : (Instr.fold 1 256 0 false).wellFormed = false ∧ (Instr.unfold 1 0 32 false).wellFormed = false ∧ (Instr.foldComplete 255 32).wellFormed = false ∧ (Instr.foldComplete 255 31).wellFormed = true := by decide
theorem test_wf_ring : (Instr.streamFrameSend 8192).wellFormed = false ∧ (Instr.ringItemWrite 8192 []).wellFormed = false ∧ (Instr.streamFrameSend 8191).wellFormed = true := by decide
theorem test_wf_item : (Instr.ringItemWrite 0 (List.replicate 16384 0)).wellFormed = false ∧ (Instr.ringItemWrite 0 (List.replicate 16383 0)).wellFormed = true := by
  unfold Instr.wellFormed; simp only [List.length_replicate]; decide
theorem test_wf_port : (Instr.linkUp 256).wellFormed = false ∧ (Instr.injectParse 1 256 []).wellFormed = false ∧ (Instr.ptpMessageDue 256 none true).wellFormed = false ∧ (Instr.linkUp 255).wellFormed = true := by decide
theorem test_wf_queue : (Instr.launchRelease 65536).wellFormed = false ∧ (Instr.injectQueue 1 65536 []).wellFormed = false ∧ (Instr.launchRelease 65535).wellFormed = true := by decide
theorem test_wf_time : (Instr.timeSet 1 (2 ^ 48) 0 0).wellFormed = false ∧ (Instr.timeSet 1 0 (10 ^ 9) 0).wellFormed = false ∧ (Instr.timeLeap 1 0 256).wellFormed = false ∧ (Instr.timeLeap 1 0 3).wellFormed = true := by decide
theorem test_wf_facts : (Instr.pinReset { powerOn 0 true with training := [] }).wellFormed = false ∧ (Instr.pinReset { powerOn 0 true with flashFault := [3] }).wellFormed = false
    ∧ (Instr.pinReset { powerOn 0 true with fuses := { Fuses.blank with grade := 16 } }).wellFormed = false ∧ (Instr.pinReset { powerOn 0 true with fuses := { Fuses.blank with words := [(512, 1)] } }).wellFormed = false
    ∧ (Instr.pinReset { powerOn 0 true with fuses := { Fuses.blank with deckKeys := [(0, ⟨1, []⟩)] } }).wellFormed = false
    ∧ (Instr.pinReset { powerOn 0 true with fuses := { Fuses.blank with zatKeys := [(0, ⟨List.replicate 32 0, 4⟩)] } }).wellFormed = false := by decide +kernel
theorem test_wf_clock : (Instr.clockGood 25).wellFormed = false ∧ (Instr.clockBad 25 (powerOn 0 true)).wellFormed = false ∧ (Instr.clockGood 24).wellFormed = true := by decide
theorem test_wf_half : (Instr.lanePllUnlock 64).wellFormed = false ∧ (Instr.lanePllUnlock 63).wellFormed = true := by decide
theorem test_wf_micros : (Instr.kittySave .pwrwarn 65536).wellFormed = false ∧ (Instr.kittySave .pwrwarn 65535).wellFormed = true := by decide
theorem test_wf_quanta : (Instr.pfcReceive 0 0 []).wellFormed = false ∧ (Instr.pfcReceive 0 0 (List.replicate 8 0)).wellFormed = true := by decide
theorem test_wf_class : (Instr.pauseExpire 0 8).wellFormed = false ∧ (Instr.pauseExpire 0 7).wellFormed = true := by decide
theorem test_wf_group : (Instr.laneGroupStart 16).wellFormed = false ∧ (Instr.laneGroupStart 15).wellFormed = true := by decide
theorem test_wf_lane : (Instr.prbsInject 1 256).wellFormed = false ∧ (Instr.eyeScanStart 1 258 0).wellFormed = false ∧ (Instr.eyeScanDone 0 (2 ^ 41)).wellFormed = false ∧ (Instr.eyeScanStart 1 257 0).wellFormed = true := by decide
theorem test_wf_hand : (Instr.parseTake 32).wellFormed = false ∧ (Instr.cellArrive 0 32).wellFormed = false ∧ (Instr.tmSelect 32).wellFormed = false ∧ (Instr.parseTake 31).wellFormed = true := by decide
theorem test_wf_vector : (Instr.walkState 0 256).wellFormed = false ∧ (Instr.walkState 31 255).wellFormed = true := by decide
theorem test_wf_dealer : (Instr.microwordIssue 288).wellFormed = false ∧ (Instr.matchLookup 0 256 0).wellFormed = false ∧ (Instr.poolLookup 0 0 4).wellFormed = false ∧ (Instr.matchLookup 287 255 3).wellFormed = true := by decide
theorem test_wf_flow : (Instr.lookup 0 0 4).wellFormed = false ∧ (Instr.flowOpWrite 0 0 0 64 0).wellFormed = false ∧ (Instr.taskPost 287 255 3 63 0).wellFormed = true := by decide
theorem test_wf_line : (Instr.fetchComplete 3145728 false).wellFormed = false ∧ (Instr.snapFetchComplete 3145727 false).wellFormed = true := by decide
theorem test_wf_bank : (Instr.insertWindowRoll 64).wellFormed = false ∧ (Instr.insertWindowRoll 63).wellFormed = true := by decide
theorem test_wf_list : (Instr.delayListTick 16).wellFormed = false ∧ (Instr.levelHwClear 1 8).wellFormed = false ∧ (Instr.delayListTick 15).wellFormed = true := by decide
theorem test_wf_plane : (Instr.planeMatch 4 []).wellFormed = false ∧ (Instr.planeMatch 0 [⟨32, false⟩]).wellFormed = false ∧ (Instr.planeMatch 0 [⟨1, false⟩, ⟨1, true⟩]).wellFormed = false
    ∧ (Instr.planeMatch 3 [⟨31, true⟩]).wellFormed = true := by decide
theorem test_wf_window : (Instr.queueCfgWrite 1 0 4 0).wellFormed = false ∧ (Instr.policerCfgWrite 1 65536 0 0).wellFormed = false ∧ (Instr.queueCfgWrite 1 65535 3 0).wellFormed = true := by decide
theorem test_wf_sampling : (Instr.sampleBoundary 16).wellFormed = false ∧ (Instr.sampleBoundary 15).wellFormed = true := by decide
theorem test_wf_outputs : (Instr.ppsOutEdge 4).wellFormed = false ∧ (Instr.unicastExpiry 4096).wellFormed = false ∧ (Instr.gateChange 1024).wellFormed = false ∧ (Instr.gateChange 1023).wellFormed = true := by decide
theorem test_wf_hbm : (Instr.hbmCommandIssue 128 .clean).wellFormed = false ∧ (Instr.hbmRefresh 4).wellFormed = false ∧ (Instr.retrainDone []).wellFormed = false ∧ (Instr.hbmCommandIssue 127 .clean).wellFormed = true := by decide
theorem test_wf_keys : (Instr.vkeyCommit 1 16 0).wellFormed = false ∧ (Instr.vkeyCommit 1 15 4).wellFormed = false ∧ (Instr.vkeyClear 1 16).wellFormed = false ∧ (Instr.vkeyCommit 1 15 3).wellFormed = true := by decide
theorem test_wf_engine : (Instr.dumpCapture 8).wellFormed = false ∧ (Instr.dumpCapture 7).wellFormed = true := by decide

/-! ## Single steps -/

/-- The state after a command. -/
def after (i : Instr) (s : State) : State := match exec i s with | .next t => t | _ => s

/-- R348: PING returns its data. -/
theorem test_ping_returns_its_data : (after (.ping 1 [1, 2, 3]) host).sent = [.response 1 ⟨3, 0, stOk, 0, [1, 2, 3]⟩] := by decide
/-- R348: more than 64 bytes are MALFORMED. -/
theorem test_ping_of_65_is_malformed : (after (.ping 1 (List.replicate 65 0)) host).sent = [.response 1 ⟨3, 0, stMalformed, 0, []⟩] := by decide
/-- R27: an address that is no multiple of 8 is ALIGNMENT. -/
theorem test_read_unaligned : (after (.read 1 0x101) host).sent = [.response 1 ⟨8, 0, stAlignment, 0x101, []⟩] := by decide +kernel
/-- R27: an undefined block code is ADDRESS before anything else is looked at. -/
theorem test_read_undefined_block : (after (.read 1 0x7F0000000001) (hostAt 1 live)).sent = [.response 1 ⟨8, 0, stAddress, 0x7F0000000001, []⟩] := by decide +kernel
/-- R296: UNLOCK below PRIVILEGED. -/
theorem test_unlock_needs_privileged : (after (.timeUnlock 1) (hostAt 2 live)).sent = [.response 1 ⟨0x40, 0, stPrivilege, 2, []⟩] ∧ (after (.timeUnlock 1) (hostAt 2 live)).time.unlocked = false := by decide
/-- R297: a leap second that lies in the past of UTC midnight is refused. -/
theorem test_leap_not_at_midnight : (after (.timeLeap 1 86401 1) host).sent = [.response 1 ⟨0x40, 0, stMalformed, 3, []⟩] ∧ (after (.timeLeap 1 86401 1) host).time.pending = 0 := by decide
/-- R421: THERMTRIP at 125 °C of the core die, not at 124. -/
theorem test_thermtrip : (after .thermtrip { live with tempOk := true, temps := [125, 0, 0, 0, 0] }).rst.tripped = true ∧ (after .thermtrip { live with tempOk := true, temps := [124, 0, 0, 0, 0] }).rst.tripped = false := by decide
/-- R105: a link that goes down counts once, and once only. -/
theorem test_link_down : (portOf (after (.linkDown 0) (ported 0 [] live)) 0).up = false ∧ regRaw (after (.linkDown 0) (ported 0 [] live)) (aPortCtr 0 34) 0 = 1
    ∧ after (.linkDown 0) (after (.linkDown 0) (ported 0 [] live)) = after (.linkDown 0) (ported 0 [] live) := by decide +kernel
/-- R353: a ring has one reader. -/
theorem test_one_reader : (after (.subscribe 1 8191 1) (ringed [] 0 0 (some 2))).sent = [.response 1 ⟨0x30, 0, stBusy, 8191, []⟩] := by decide
/-- R290: TIME.BASE stands while the time clock's monitor reads bad. -/
theorem test_no_clock_no_time : ∃ t, step State.reset = .next t ∧ t.time.base = 0 ∧ t.clk = 1 := ⟨_, rfl, by decide⟩
/-- R252: SEQ wraps at 2^16. -/
theorem test_sequence_wraps : wrapSub 16 1 65535 = 2 ∧ wrapSub 16 65535 1 = 65534 := by decide
/-- The table's rows give no bits (assumption 14). -/
theorem test_no_row_has_bits : decodeTableWord 0 0 = none ∧ decodeTableWord 64 0xFFFFFFFFFFFFFFFF = none := by decide
end Sys2Proof.Tests
end

section
/-!
PROOFS. The transactions READ to BULK_WRITE as commands of a ready session, and what plain registers and counters do
(00_scope.md R5 to R7; 15_zatas_control_protocol.md R349; 16_observability.md R369).
-/
namespace Sys2Proof.Machine

open Sys2Proof

/-! ## Operands -/

theorem slice_append_left (as bs : List Byte) : slice (as ++ bs) 0 as.length = as := by
  simp [slice]

theorem slice_append_right (as bs : List Byte) : slice (as ++ bs) as.length bs.length = bs := by
  simp [slice]

theorem ofBytes_word (v : W64) : ofBytes (toBytes 8 v.toNat) = v.toNat := by
  rw [ofBytes_toBytes]
  exact Nat.mod_eq_of_lt v.isLt

/-- The operands of an RMW read back from its data: MASK, then VALUE. -/
theorem fld_rmwData (mask value : W64) :
    fld (toBytes 8 mask.toNat ++ toBytes 8 value.toNat) 0 8 = mask.toNat
    ∧ fld (toBytes 8 mask.toNat ++ toBytes 8 value.toNat) 8 8 = value.toNat := by
  have hm := slice_append_left (toBytes 8 mask.toNat) (toBytes 8 value.toNat)
  have hv := slice_append_right (toBytes 8 mask.toNat) (toBytes 8 value.toNat)
  rw [toBytes_length] at hm hv
  rw [toBytes_length] at hv
  exact ⟨by rw [fld, hm, ofBytes_word], by rw [fld, hv, ofBytes_word]⟩

theorem bulkCount_iff {c : Nat} : bulkCount c = true ↔ 8 ≤ c ∧ c ≤ 8192 ∧ c % 8 = 0 := by
  simp [bulkCount, and_assoc]

theorem ofBytes_toBytes_count {c : Nat} (h : bulkCount c = true) : ofBytes (toBytes 8 c) = c := by
  have := bulkCount_iff.1 h
  rw [ofBytes_toBytes]
  omega

/-! ## Commands of a ready session -/

/-- Answering a session touches nothing that a command of the running part keeps. -/
theorem keepFixed_answer {s t : State} (k : keepFixed s t = t) (n op a st : Nat) (d : List Byte) :
    keepFixed s (answer t n op a st d) = answer t n op a st d :=
  keepFixed_of (keepFixed_fields (t := t) k)

/-- A ready session and a 48-bit address are operands in range. -/
theorem ready_wf {s : State} {n lvl a : Nat} (h : ready s n lvl) (ha : a < 2 ^ 48) : (okSession n && okAddr a) = true := by
  rw [h.1, Bool.true_and]
  exact decide_eq_true ha

/-- A READ answers the status of its access, and the word where there is one. -/
theorem exec_read {s t : State} {n a st v : Nat} (h : ready s n 1) (ha : a < 2 ^ 48)
    (he : accRead s n (levelOf s n) a = ⟨st, v, t⟩) (hk : keepFixed s t = t) (hz : t.zat.sessions = s.zat.sessions) :
    exec (.read n a) s = .next (answer t n 0x08 a st (if st = stOk || st = stPoison then toBytes 8 v else [])) := by
  have ⟨_, ho, hl⟩ := h
  have ok : addrOk ⟨0x08, 0, a, []⟩ = true := decide_eq_true ha
  exact cmd_run (ready_wf h ha)
    (direct_done ho (by simp [opRead, gate, Nat.not_lt.2 hl, ok, he]) hz) (keepFixed_answer hk _ _ _ _ _)

/-- A WRITE answers the status of its access. -/
theorem exec_write {s t : State} {n a st : Nat} {v : W64} (h : ready s n 2) (ha : a < 2 ^ 48)
    (he : accWrite s n (levelOf s n) a v.toNat = ⟨st, 0, t⟩) (hk : keepFixed s t = t) (hz : t.zat.sessions = s.zat.sessions) :
    exec (.write n a v) s = .next (answer t n 0x09 a st []) :=
  cmd_run (ready_wf h ha) (writeCmd_run h ha v.isLt he hz) (keepFixed_answer hk _ _ _ _ _)

/-- An RMW answers the status of its access, and the old word where there is one. -/
theorem exec_rmw {s t : State} {n a st old : Nat} {mask value : W64} (h : ready s n 2) (ha : a < 2 ^ 48)
    (he : accRmw s n (levelOf s n) a mask.toNat value.toNat = ⟨st, old, t⟩) (hk : keepFixed s t = t)
    (hz : t.zat.sessions = s.zat.sessions) :
    exec (.rmw n a mask value) s
      = .next (answer t n 0x0A a st (if st = stOk || st = stPoison then toBytes 8 old else [])) := by
  have ⟨_, ho, hl⟩ := h
  obtain ⟨hm, hv⟩ := fld_rmwData mask value
  have ok : addrOk ⟨0x0A, 0, a, toBytes 8 mask.toNat ++ toBytes 8 value.toNat⟩ = true := decide_eq_true ha
  exact cmd_run (ready_wf h ha)
    (direct_done ho (by simp [opRmw, gate, Nat.not_lt.2 hl, ok, hm, hv, he]) hz) (keepFixed_answer hk _ _ _ _ _)

/-- A BULK_READ of a byte count in range answers what its access found. -/
theorem exec_bulkRead {s t : State} {n a c st b : Nat} {d : List Byte} (h : ready s n 1) (ha : a < 2 ^ 48)
    (hc : bulkCount c = true) (he : bulkRead s n (levelOf s n) a c = ⟨st, b, d, t⟩) (hk : keepFixed s t = t)
    (hz : t.zat.sessions = s.zat.sessions) :
    exec (.bulkRead n a c) s = .next (answer t n 0x0B b st d) := by
  have ⟨_, ho, hl⟩ := h
  have ok : addrOk ⟨0x0B, 0, a, toBytes 8 c⟩ = true := decide_eq_true ha
  have h16 : ok16 c = true := decide_eq_true (by have := bulkCount_iff.1 hc; omega)
  exact cmd_run (Bool.and_eq_true_iff.2 ⟨ready_wf h ha, h16⟩)
    (direct_done ho (by simp [opBulkRead, gate, Nat.not_lt.2 hl, ok, ofBytes_toBytes_count hc, hc, he]) hz)
    (keepFixed_answer hk _ _ _ _ _)

/-- A BULK_WRITE of a length in range answers the status of its access. -/
theorem exec_bulkWrite {s t : State} {n a st b : Nat} {data d : List Byte} (h : ready s n 2) (ha : a < 2 ^ 48)
    (hc : bulkCount data.length = true) (he : bulkWrite s n (levelOf s n) a data = ⟨st, b, d, t⟩) (hk : keepFixed s t = t)
    (hz : t.zat.sessions = s.zat.sessions) :
    exec (.bulkWrite n a data) s = .next (answer t n 0x0C b st []) := by
  have ⟨_, ho, hl⟩ := h
  have ok : addrOk ⟨0x0C, 0, a, data⟩ = true := decide_eq_true ha
  exact cmd_run (ready_wf h ha)
    (direct_done ho (by simp [opBulkWrite, gate, Nat.not_lt.2 hl, ok, hc, he]) hz) (keepFixed_answer hk _ _ _ _ _)

/-- A command that is a WRITE of an assigned register leaves the register's effect and its answer. -/
theorem cmd_writeReg {i : Instr} {s t : State} {n a v st : Nat} {r : RegRow} {ix : List Nat} (hi : i.wellFormed = true)
    (h : ready s n 2) (hp : regPlace a = .ok (r, ix)) (hl : r.wl ≤ levelOf s n) (hv : v < 2 ^ 64)
    (he : regWrite s r ix a v (levelOf s n) = (st, t)) (hk : keepFixed s t = t) (hz : t.zat.sessions = s.zat.sessions) :
    cmd i s (fun u => writeCmd u n a v) = .next (answer t n 0x09 a st []) :=
  cmd_run hi (writeReg_run h hp hl hv he hz) (keepFixed_answer hk _ _ _ _ _)

/-- A command that is a READ of an assigned register answers its word. -/
theorem cmd_readReg {i : Instr} {s t : State} {n a v : Nat} {r : RegRow} {ix : List Nat} (hi : i.wellFormed = true)
    (h : ready s n 1) (hp : regPlace a = .ok (r, ix)) (hl : r.rl ≤ levelOf s n) (he : regRead s r ix a = (v, t))
    (hk : keepFixed s t = t) (hz : t.zat.sessions = s.zat.sessions) :
    cmd i s (fun u => readCmd u n a) = .next (answer t n 0x08 a stOk (toBytes 8 (v % 2 ^ 64))) :=
  cmd_run hi (readReg_run h hp hl he hz) (keepFixed_answer hk _ _ _ _ _)

/-! ## Plain registers (R5 to R7) -/

section PlainRegister
variable {s : State} {a m d : Nat} {r : RegRow} {ix : List Nat}

theorem regRead_plain (hp : regPlace a = .ok (r, ix)) (hk : r.kind = .plain m d) : regRead s r ix a = (regRaw s a d, s) := by
  obtain ⟨hid, -, hn⟩ := plain_word hp hk
  simp [regRead, readEffect, readRow, hid, hk, hn]

theorem regWrite_plain (hk : r.kind = .plain m d) (v lvl : Nat) : regWrite s r ix a v lvl = (stOk, setReg s a (v &&& m)) := by
  simp [regWrite, hk]

/-- A plain register's stored word is a word. -/
theorem regRaw_plain_lt (hp : regPlace a = .ok (r, ix)) (hk : r.kind = .plain m d) : regRaw s a d < 2 ^ 64 :=
  regRaw_lt s a (plain_word hp hk).2.1

theorem accRmw_plain {n lvl : Nat} (mask value : W64) (hp : regPlace a = .ok (r, ix)) (hk : r.kind = .plain m d)
    (hr : r.rl ≤ lvl) (hw : r.wl ≤ lvl) :
    accRmw s n lvl a mask.toNat value.toNat = ⟨stOk, regRaw s a d,
      setReg s a (((value &&& mask) ||| (BitVec.ofNat 64 (regRaw s a d) &&& ~~~mask)).toNat &&& m)⟩ := by
  obtain ⟨hi, -, -⟩ := regPlace_ok hp
  have hl : ¬ lvl < max r.rl r.wl := by omega
  have hb : pulseBits r = 0 := by simp [pulseBits, hk]
  simp only [accRmw, hi, hp, if_neg hl, Bool.false_eq_true, if_false, regRead_plain hp hk, regWrite_plain hk, hb,
    rmwWord_plain, Nat.mod_eq_of_lt (regRaw_plain_lt hp hk)]

end PlainRegister

/-! ## Counters (R369) -/

theorem regRaw_bump_same (s : State) (a : Nat) :
    regRaw (bump s a) a 0 = (regRaw s a 0 % 2 ^ 48 + 1) % 2 ^ 48
      + b2n (bit (regRaw s a 0) 63 || 2 ^ 48 ≤ regRaw s a 0 % 2 ^ 48 + 1) * 2 ^ 63 := by
  have hb : ∀ b, b2n b ≤ 1 := by decide
  have := hb (bit (regRaw s a 0) 63 || 2 ^ 48 ≤ regRaw s a 0 % 2 ^ 48 + 1)
  unfold bump bumpBy
  rw [regRaw_setReg_same]
  omega

theorem regWrite_counter {s : State} {a : Nat} {r : RegRow} {ix : List Nat} (hk : r.kind = .counter) (hn : noLaneWord a = false)
    (v lvl : Nat) : regWrite s r ix a v lvl = (stOk, setReg s a (counterWord (regRaw s a 0) v)) := by
  simp [regWrite, hk, hn]

/-- A COUNTER_WRITE of a counter is a WRITE of its address. -/
theorem exec_counterWrite {s : State} {n a : Nat} {r : RegRow} {ix : List Nat} (v : W64) (hp : regPlace a = .ok (r, ix))
    (hk : r.kind = .counter) :
    exec (.counterWrite n a v) s = cmd (.counterWrite n a v) s fun u => writeCmd u n a v.toNat := by
  show execCounterWrite n a v s = _
  simp [execCounterWrite, hp, pulseBits, hk]

/-- Settles O10: each access is the register's own read and write, and `bump` counts as R369 says. -/
theorem plainRegistersAndCountersAreReadAndWritten : Obligations.PlainRegistersAndCountersAreReadAndWritten := by
  unfold Obligations.PlainRegistersAndCountersAreReadAndWritten
  refine ⟨?plain, ?counter⟩
  case plain =>
    rintro s n a m d old r ix value mask h hp hk hr hw rfl
    obtain ⟨-, -, ha⟩ := regPlace_ok hp
    refine ⟨?_, ?_, ?_, ?_⟩
    · have e := cmd_readReg (i := .read n a) (ready_wf h ha) (ready_mono h (by omega)) hp hr (regRead_plain hp hk) rfl rfl
      rwa [Nat.mod_eq_of_lt (regRaw_plain_lt hp hk)] at e
    · exact cmd_writeReg (ready_wf h ha) h hp hw value.isLt (regWrite_plain hk _ _) rfl rfl
    · exact cmd_writeReg (ready_wf h ha) h hp hw value.isLt (regWrite_plain hk _ _) rfl rfl
    · exact exec_rmw h ha (accRmw_plain mask value hp hk hr hw) rfl rfl
  case counter =>
    intro s n a r ix value
    refine ⟨fun hlt => ?_, fun htop => ?_, fun h hp hk hw hn => ?_⟩
    · rw [regRaw_bump_same, Nat.mod_eq_of_lt hlt, decide_eq_false (by omega), Bool.or_false]
    · rw [regRaw_bump_same, htop]
      simp [b2n]
    · obtain ⟨-, -, ha⟩ := regPlace_ok hp
      rw [exec_counterWrite value hp hk]
      exact cmd_writeReg (ready_wf h ha) h hp hw value.isLt (regWrite_counter hk hn _ _) rfl rfl

end Sys2Proof.Machine
end

section
/-!
PROOFS. Read-only words and windows, and accesses of the HBM window that its status allows or refuses (00_scope.md R6;
02_contracts_and_floors.md R26; 14_hbm_controller.md R321, R327, R328; 16_observability.md R364).
-/
namespace Sys2Proof.Machine

open Sys2Proof

theorem regWrite_ro {r : RegRow} (hk : r.kind = .ro) (s : State) (ix : List Nat) (a v lvl : Nat) :
    regWrite s r ix a v lvl = (stOk, s) := by
  simp [regWrite, hk]

theorem regWrite_window {r : RegRow} (hk : r.kind = .window) (s : State) (ix : List Nat) (a v lvl : Nat) :
    regWrite s r ix a v lvl = (stProtection, s) := by
  simp [regWrite, hk]

/-! ## What an access of the window leaves alone -/

theorem keepFixed_win {s t : State} (h : SameButWin s t) : keepFixed s t = t := by
  unfold SameButWin at h
  rw [h]; rfl

theorem SameButWin.sessions {s t : State} (h : SameButWin s t) : t.zat.sessions = s.zat.sessions := by
  unfold SameButWin at h
  rw [h]

theorem memRead_hbmWrite (s : State) (src off : Nat) (bs : List Byte) : memRead (hbmWrite s src off bs).hbm off bs.length = bs := by
  rw [hbmWrite_only]
  exact memRead_memWrite s.hbm off bs

theorem memGet_hbmWrite_out (s : State) (src off : Nat) (bs : List Byte) {b : Nat} (h : b < off ∨ off + bs.length ≤ b) :
    memGet (hbmWrite s src off bs).hbm b = memGet s.hbm b := by
  rw [hbmWrite_only]
  exact memGet_memWrite_out s.hbm off bs h

/-- What a read of trained stacks answers: the stored bytes, and whether a touched sector is poisoned (R321, R327). -/
theorem hbmRead_up_data {s : State} (ht : s.hbmc.trained % 16 = 15) (src off len : Nat) :
    (hbmRead s src off len).2
      = (memRead s.hbm off len, s.hbmc.poison.any fun k => off < 32 * k + 32 && 32 * k < off + len) := by
  rw [hbmRead_up ht]

/-! ## Accesses that the window's status allows -/

theorem bulkCount_words {c : Nat} (h : bulkCount c = true) : 0 < c / 8 ∧ 8 * (c / 8) = c := by
  have := bulkCount_iff.1 h
  omega

section WindowAllowed
variable {s : State} {off : Nat}

theorem accWrite_window (hs : windowStatus s true off 8 = stOk) (n lvl v : Nat) :
    accWrite s n lvl (hbmBase + off) v = ⟨stOk, 0, hbmWrite s (zatSource s n) off (toBytes 8 v)⟩ := by
  simp [accWrite, (inHbm_of_status (by omega) hs).1, hs]

theorem bulkWrite_window {data : List Byte} (hc : bulkCount data.length = true)
    (hs : windowStatus s true off data.length = stOk) (n lvl : Nat) :
    bulkWrite s n lvl (hbmBase + off) data = ⟨stOk, hbmBase + off, [], hbmWrite s (zatSource s n) off data⟩ := by
  obtain ⟨hpos, hlen⟩ := bulkCount_words hc
  have hk := windowWords_all hs (Nat.le_of_eq hlen)
  simp [bulkWrite, (inHbm_of_status (by omega) hs).1, hk, hlen, Nat.pos_iff_ne_zero.1 hpos]

theorem accRead_window (hs : windowStatus s false off 8 = stOk) (n lvl : Nat) :
    accRead s n lvl (hbmBase + off) =
      let x := hbmRead s (zatSource s n) off 8
      ⟨if x.2.2 then stPoison else stOk, ofBytes x.2.1, x.1⟩ := by
  simp [accRead, (inHbm_of_status (by omega) hs).1, hs]

theorem bulkRead_window {count : Nat} (hc : bulkCount count = true) (hs : windowStatus s false off count = stOk) (n lvl : Nat) :
    bulkRead s n lvl (hbmBase + off) count =
      let x := hbmRead s (zatSource s n) off count
      ⟨if x.2.2 then stPoison else stOk, hbmBase + off, x.2.1, x.1⟩ := by
  obtain ⟨hpos, hlen⟩ := bulkCount_words hc
  have hk := windowWords_all hs (Nat.le_of_eq hlen)
  simp [bulkRead, (inHbm_of_status (by omega) hs).1, hk, hlen]

end WindowAllowed

/-! ## Accesses that the window refuses -/

theorem inHbm_of_lt {off : Nat} (h : off < hbmBytes) : inHbm (hbmBase + off) = true ∧ hbmBase + off < 2 ^ 48 := by
  refine ⟨by simp [inHbm, h], ?_⟩
  unfold hbmBytes at h
  unfold hbmBase
  omega

/-- Bytes of the task bodies, the session area or the deck areas, and of the flow table while FLOW is not folded, are
refused to writes (R26, R53, R226, R345). -/
theorem windowStatus_protected {s : State} {off : Nat} (ht : trainFailed s = false) (hb : off + 8 ≤ hbmBytes)
    (hp : (0x17EB800000 ≤ off ∧ off < 0x1800000000)
      ∨ (s.rst.foldFlow ≠ .folded ∧ fgF s 13 1 * 2 ^ 32 ≤ off ∧ off < (fgF s 13 1 + 2) * 2 ^ 32)) :
    windowStatus s true off 8 = stProtection := by
  unfold windowStatus
  dsimp only
  rw [if_neg (by simp [ht, Nat.not_lt.2 hb])]
  split
  · rfl
  next hlow =>
    refine if_pos ?_
    simp only [Bool.and_eq_true, Bool.or_eq_true, decide_eq_true_eq, not_and, bne_iff_ne, true_and] at hlow ⊢
    rcases hp with ⟨h1, h2⟩ | ⟨hf, h1, h2⟩
    · left; omega
    · right; exact ⟨hf, by omega, by omega⟩

/-- Where the first word is refused no word of a bulk access is reached. -/
theorem windowWords_none {s : State} {w : Bool} {off k : Nat} (hk : 0 < k) (h : windowStatus s w off 8 ≠ stOk) :
    windowWords s w off k = 0 := by
  obtain ⟨j, rfl⟩ := Nat.exists_eq_succ_of_ne_zero (Nat.pos_iff_ne_zero.1 hk)
  simp [windowWords, findUp, h]

section WindowRefused
variable {s : State} {off st : Nat}

theorem accWrite_refused (hb : off < hbmBytes) (hs : windowStatus s true off 8 = st) (hne : st ≠ stOk) (n lvl v : Nat) :
    accWrite s n lvl (hbmBase + off) v = ⟨st, 0, s⟩ := by
  simp [accWrite, (inHbm_of_lt hb).1, hs, hne]

theorem accRmw_refused (hb : off < hbmBytes) (hs : windowStatus s true off 8 = st) (hne : st ≠ stOk) (n lvl m v : Nat) :
    accRmw s n lvl (hbmBase + off) m v = ⟨st, 0, s⟩ := by
  simp [accRmw, (inHbm_of_lt hb).1, hs, hne]

theorem bulkWrite_refused {data : List Byte} (hb : off < hbmBytes) (hs : windowStatus s true off 8 = st) (hne : st ≠ stOk)
    (hc : bulkCount data.length = true) (n lvl : Nat) :
    bulkWrite s n lvl (hbmBase + off) data = ⟨st, hbmBase + off, [], s⟩ := by
  obtain ⟨hpos, hlen⟩ := bulkCount_words hc
  have hk := windowWords_none hpos (hs ▸ hne)
  have hl : 0 < data.length := by omega
  simp [bulkWrite, (inHbm_of_lt hb).1, hk, hs, hl]

end WindowRefused

/-- The status of a read that finds its bytes lets its word leave. -/
theorem readStatus_data (p : Bool) (d : List Byte) :
    (if (if p then stPoison else stOk) = stOk || (if p then stPoison else stOk) = stPoison then d else []) = d := by
  cases p <;> rfl

theorem toBytes_ofBytes_memRead (m : Mem) (a n : Nat) : toBytes n (ofBytes (memRead m a n)) = memRead m a n := by
  have h := toBytes_ofBytes (memRead m a n)
  rwa [memRead_length] at h

/-- Settles O11: what `regWrite` does to read-only words and windows, and what the window's status lets an access do. -/
theorem windowsAndReadOnlyWordsKeepTheirAccessRules : Obligations.WindowsAndReadOnlyWordsKeepTheirAccessRules := by
  unfold Obligations.WindowsAndReadOnlyWordsKeepTheirAccessRules
  refine ⟨?readOnly, ?writes, ?reads, ?refused⟩
  case readOnly =>
    intro s n a r ix value h hp hw
    obtain ⟨-, -, ha⟩ := regPlace_ok hp
    exact ⟨fun hk => cmd_writeReg (ready_wf h ha) h hp hw value.isLt (regWrite_ro hk ..) rfl rfl,
      fun hk => cmd_writeReg (ready_wf h ha) h hp hw value.isLt (regWrite_window hk ..) rfl rfl⟩
  case writes =>
    intro s n off data value h
    refine ⟨fun hc hs => ?_, fun hs => ?_⟩
    · have hw := SameButWin.hbmWrite s (zatSource s n) off data
      have ha := (inHbm_of_status (by have := bulkCount_iff.1 hc; omega) hs).2
      exact ⟨_, exec_bulkWrite h ha hc (bulkWrite_window hc hs _ _) (keepFixed_win hw) hw.sessions, hw, .hbmWrite _ _ _ _,
        memRead_hbmWrite .., fun b hb => memGet_hbmWrite_out s _ off data hb⟩
    · have hw := SameButWin.hbmWrite s (zatSource s n) off (toBytes 8 value.toNat)
      have ha := (inHbm_of_status (by omega) hs).2
      refine ⟨_, exec_write h ha (accWrite_window hs _ _ _) (keepFixed_win hw) hw.sessions, hw, .hbmWrite _ _ _ _, ?_, fun b hb => ?_⟩
      · simpa using memRead_hbmWrite s (zatSource s n) off (toBytes 8 value.toNat)
      · exact memGet_hbmWrite_out s _ off _ (by simpa using hb)
  case reads =>
    intro s n off count h ht hit
    refine ⟨fun hc hs => ?_, fun hs => ?_⟩
    · have hr := SameButHbm.hbmRead s (zatSource s n) off count
      have ha := (inHbm_of_status (by have := bulkCount_iff.1 hc; omega) hs).2
      have e := exec_bulkRead h ha hc (bulkRead_window hc hs _ _) (keepFixed_hbm hr) hr.win.sessions
      rw [hbmRead_up_data ht] at e
      exact ⟨_, e, hr, .hbmRead _ _ _ _⟩
    · have hr := SameButHbm.hbmRead s (zatSource s n) off 8
      have ha := (inHbm_of_status (by omega) hs).2
      have e := exec_read h ha (accRead_window hs _ _) (keepFixed_hbm hr) hr.win.sessions
      rw [hbmRead_up_data ht, readStatus_data, toBytes_ofBytes_memRead] at e
      exact ⟨_, e, hr, .hbmRead _ _ _ _⟩
  case refused =>
    rintro s n off a value mask data h ht rfl hb hp
    have hs := windowStatus_protected ht hb hp
    have hlt : off < hbmBytes := by omega
    have hne : stProtection ≠ stOk := by decide
    have ha := (inHbm_of_lt hlt).2
    exact ⟨exec_write h ha (accWrite_refused hlt hs hne _ _ _) rfl rfl,
      exec_rmw h ha (accRmw_refused hlt hs hne _ _ _ _) rfl rfl,
      fun hc => exec_bulkWrite h ha hc (bulkWrite_refused hlt hs hne hc _ _) rfl rfl⟩

end Sys2Proof.Machine
end

section
/-!
PROOFS. PING, the clear bits of the high-water marks, and the two latching reads (00_scope.md R8; 01_architecture.md R29;
02_contracts_and_floors.md R43; 13_time_and_launch.md R318; 15_zatas_control_protocol.md R349).
-/
namespace Sys2Proof.Machine

open Sys2Proof

/-- PING answers its data where they fit, and MALFORMED where they do not. -/
theorem exec_ping {s : State} {n : Nat} (data : List Byte) (h : ready s n 0) :
    exec (.ping n data) s
      = .next (if data.length ≤ 64 then answer s n 0x03 0 stOk data else answer s n 0x03 0 stMalformed []) := by
  have ⟨hn, ho, _⟩ := h
  by_cases hd : data.length ≤ 64
  · rw [if_pos hd]
    have e : opPing s n ⟨0x03, 0, 0, data⟩ = .done stOk 0 data s := by simp [opPing, gate, hd, Ran.ok]
    exact cmd_run hn (direct_done ho e rfl) rfl
  · rw [if_neg hd]
    have e : opPing s n ⟨0x03, 0, 0, data⟩ = .done stMalformed 0 [] s := by simp [opPing, gate, hd, Ran.fail]
    exact cmd_run hn (direct_done ho e rfl) rfl

/-! ## Clear bits of the high-water marks (Table 0.4) -/

theorem bit_two_pow (k : Nat) : bit (2 ^ k) k = true := by simp [testBit_bit]

/-- A register whose write acts on the pulse bit `k` alone, written with that bit. -/
theorem regWrite_pulse {s t : State} {r : RegRow} {ix : List Nat} {a lvl : Nat} (k : Nat) (hk : r.kind = .act)
    (hw : w1cBits r.id = 0) (he : wrAct s r ix a (2 ^ k) lvl = (stOk, if bit (2 ^ k) k then t else s)) :
    regWrite s r ix a (2 ^ k) lvl = (stOk, t) := by
  rw [regWrite_act hk hw, he, if_pos (bit_two_pow k)]

section ClearBits
variable (s : State) (ix : List Nat) (a lvl : Nat)

theorem regWrite_xqClear {q : Nat} (hq : q = regRaw s 0x280000000100 0 % 256) (hlt : q < 143) :
    regWrite s (actRow .xqStatus 0x280000000108) ix a (2 ^ 48) lvl = (stOk, { s with high := kset s.high q (xqOcc s q) }) := by
  subst hq
  rw [regWrite_act rfl rfl]
  exact congrArg (Prod.mk stOk) (if_pos (Bool.and_eq_true_iff.2 ⟨bit_two_pow 48, decide_eq_true hlt⟩))

theorem regWrite_walkClear {h : Nat} (hh : h = regRaw s 0x0C0000000000 0 % 32) :
    regWrite s (actRow .handStatus 0x0C0000000008) ix a (2 ^ 12) lvl
      = (stOk, { s with walkHw := kset s.walkHw h (walksBusy s h) }) := by
  subst hh
  exact regWrite_pulse 12 rfl rfl rfl

theorem regWrite_stockClear :
    regWrite s (actRow .stockStatus 0x110000000000) ix a (2 ^ 34) lvl
      = (stOk, { s with high := kset s.high hwStock s.stock.length }) :=
  regWrite_pulse 34 rfl rfl rfl

theorem regWrite_levelClear (l : Nat) :
    regWrite s (actRow .levelDepth 0x140000000040 [(8, 8)]) [l] a (2 ^ 36) lvl
      = (stOk, { s with high := kset s.high (hwLevel l) (levelDepth s l) }) :=
  regWrite_pulse 36 rfl rfl rfl

theorem regWrite_hbmQueueClear {k : Nat} (hk : k = regRaw s aHbmSelect 0 % 4) :
    regWrite s (actRow .queueSt 0x200000000030) ix a (2 ^ 20) lvl
      = (stOk, { s with hbmc := { s.hbmc with high := kset s.hbmc.high k (min 512 (stackReqs s k)) } }) := by
  subst hk
  exact regWrite_pulse 20 rfl rfl rfl

theorem regWrite_peakClear : regWrite s (actRow .temp 0x100) ix a (2 ^ 48) lvl = (stOk, peakClear s) :=
  regWrite_pulse 48 rfl rfl rfl

end ClearBits

/-! ## Latching reads (R8) -/

/-- A read of OBS.CONF_LATCH latches the group and answers the SEQ that the latch has reached (R43). -/
theorem regRead_confLatch (s : State) (ix : List Nat) :
    regRead s (roRow .confLatch aConfLatch) ix aConfLatch
      = ((regRaw s aConfLatch 0 + 1) % 2 ^ 32 % 2 ^ 64, latchConfOp s) :=
  congrArg (·, latchConfOp s) (regRaw_setReg_same s aConfLatch _ 0)

/-- A read of TIME.NOW_S latches the group and answers the seconds (R318). -/
theorem regRead_nowS (s : State) (ix : List Nat) :
    regRead s (roRow .nowS 0x1C0000000008) ix 0x1C0000000008 = (nowSReg s, latchTimeOp s) := rfl

/-- Settles O12: each clear is a WRITE of its register's clear bit, and each latch a READ of the latching register. -/
theorem pingMarksAndLatches : Obligations.PingMarksAndLatches := by
  unfold Obligations.PingMarksAndLatches
  refine ⟨fun s n data h => exec_ping data h, ?marks, ?latches⟩
  case marks =>
    intro s n h
    have ⟨hn, _, hw⟩ := h
    refine ⟨fun q hq hlt => ?_, fun k hk => ?_, ?_, fun l hl => ?_, fun k hk => ?_, ?_⟩
    · exact cmd_writeReg hn h rfl hw (by decide) (regWrite_xqClear s _ _ _ hq hlt) rfl rfl
    · exact cmd_writeReg hn h rfl hw (by decide) (regWrite_walkClear s _ _ _ hk) rfl rfl
    · exact cmd_writeReg hn h rfl hw (by decide) (regWrite_stockClear s _ _ _) rfl rfl
    · exact cmd_writeReg (Bool.and_eq_true_iff.2 ⟨hn, decide_eq_true hl⟩) h (regPlace_level hl) hw (by decide)
        (regWrite_levelClear s _ _ l) rfl rfl
    · exact cmd_writeReg hn h rfl hw (by decide) (regWrite_hbmQueueClear s _ _ _ hk) rfl rfl
    · exact cmd_writeReg hn h rfl hw (by decide) (regWrite_peakClear s _ _ _) rfl rfl
  case latches =>
    intro s n h
    have ⟨hn, _, hr⟩ := h
    refine ⟨?_, cmd_readReg hn h rfl hr (regRead_nowS s _) rfl rfl⟩
    rintro _ rfl
    have e := cmd_readReg (i := .confLatch n) hn h rfl hr (regRead_confLatch s _) rfl rfl
    rwa [Nat.mod_mod, Nat.mod_eq_of_lt (by omega)] at e

end Sys2Proof.Machine
end

section
/-!
PROOFS. What every command completes with and keeps, and the accesses that the register space refuses for their address
(02_contracts_and_floors.md R27).
-/
namespace Sys2Proof.Machine

open Sys2Proof

/-- Settles O3: each meaning is one of the three forms of a command, and each form completes. -/
theorem everyCommandCompletes : Obligations.EveryCommandCompletes := by
  unfold Obligations.EveryCommandCompletes
  intro c s
  obtain ⟨f, e⟩ | ⟨f, e⟩ | ⟨f, e⟩ := exec_form c s
  · rw [e]; exact cmd_next c s f
  · rw [e]; exact cmdDeck_next c s f
  · rw [e]; exact cmdBig_next c s f

/-! ## Addresses that the space refuses (R27) -/

theorem inHbm_iff {a : Nat} : inHbm a = true ↔ 0x800000000000 ≤ a ∧ a < 0x801800000000 := by
  simp only [inHbm, Bool.and_eq_true, decide_eq_true_eq]
  exact Iff.rfl

theorem regPlace_noBlock {a : Nat} (h : blockRows (a / 2 ^ 40) = none) : regPlace a = .error stAddress := by
  rw [regPlace, h]

theorem regPlace_misaligned {a : Nat} (h : (blockRows (a / 2 ^ 40)).isSome) (h8 : a % 8 ≠ 0) :
    regPlace a = .error stAlignment := by
  obtain ⟨rows, hr⟩ := Option.isSome_iff_exists.1 h
  rw [regPlace, hr]
  exact if_pos h8

theorem regPlace_noOffset {a : Nat} {rows : List RegRow} (hr : blockRows (a / 2 ^ 40) = some rows) (h8 : a % 8 = 0)
    (hf : rowFind rows a = none) : regPlace a = .error stAddress := by
  rw [regPlace, hr]
  dsimp only
  rw [if_neg (not_not_intro h8), hf]

/-- An assigned block is not the block of the HBM window. -/
theorem inHbm_of_block {a : Nat} (h : (blockRows (a / 2 ^ 40)).isSome) : inHbm a = false := by
  rw [Bool.eq_false_iff, ne_eq, inHbm_iff]
  rintro ⟨h1, h2⟩
  rw [show a / 2 ^ 40 = 0x80 by omega] at h
  cases h

theorem chunks_cons {n : Nat} {bs : List Byte} (h : bs ≠ []) : ∃ rest, chunks n bs = bs.take n :: rest := by
  cases bs with
  | nil => exact absurd rfl h
  | cons b r => exact ⟨_, rfl⟩

section AddressRefused
variable {s : State} {a e : Nat}

theorem accRead_error (hi : inHbm a = false) (hp : regPlace a = .error e) (n lvl : Nat) :
    accRead s n lvl a = ⟨e, 0, s⟩ := by simp [accRead, hi, hp]

theorem accWrite_error (hi : inHbm a = false) (hp : regPlace a = .error e) (n lvl v : Nat) :
    accWrite s n lvl a v = ⟨e, 0, s⟩ := by simp [accWrite, hi, hp]

theorem accRmw_error (hi : inHbm a = false) (hp : regPlace a = .error e) (n lvl m v : Nat) :
    accRmw s n lvl a m v = ⟨e, 0, s⟩ := by simp [accRmw, hi, hp]

theorem bulkRead_error (hi : inHbm a = false) (hp : regPlace a = .error e) (he : e ≠ stOk) {count : Nat}
    (hc : bulkCount count = true) (n lvl : Nat) : bulkRead s n lvl a count = ⟨e, a, [], s⟩ := by
  obtain ⟨k, hk⟩ := Nat.exists_eq_succ_of_ne_zero (Nat.pos_iff_ne_zero.1 (bulkCount_words hc).1)
  simp [bulkRead, hi, hk, bulkReadGo, accRead_error hi hp, he]

theorem bulkWrite_error (hi : inHbm a = false) (hp : regPlace a = .error e) (he : e ≠ stOk) {data : List Byte}
    (hc : bulkCount data.length = true) (n lvl : Nat) : bulkWrite s n lvl a data = ⟨e, a, [], s⟩ := by
  have hne : data ≠ [] := by rintro rfl; cases hc
  obtain ⟨rest, hr⟩ := chunks_cons (n := 8) hne
  simp [bulkWrite, hi, hr, bulkWriteGo, accWrite_error hi hp, he]

/-- Each of the five accesses to an address that the space refuses answers the address's status alone. -/
theorem exec_accesses_error {n count : Nat} {value mask : W64} {data : List Byte} (h : ready s n 2) (ha : a < 2 ^ 48)
    (hc : bulkCount count = true) (hd : bulkCount data.length = true) (hi : inHbm a = false) (hp : regPlace a = .error e)
    (he : e ≠ stOk) (he' : e ≠ stPoison) :
    exec (.read n a) s = .next (answer s n 0x08 a e [])
    ∧ exec (.write n a value) s = .next (answer s n 0x09 a e [])
    ∧ exec (.rmw n a mask value) s = .next (answer s n 0x0A a e [])
    ∧ exec (.bulkRead n a count) s = .next (answer s n 0x0B a e [])
    ∧ exec (.bulkWrite n a data) s = .next (answer s n 0x0C a e []) := by
  have h1 : ready s n 1 := ready_mono h (by omega)
  have hr := exec_read h1 ha (accRead_error hi hp n _) rfl rfl
  have hm := exec_rmw h ha (accRmw_error hi hp n _ mask.toNat value.toNat) rfl rfl
  rw [if_neg (by simp [he, he'])] at hr hm
  exact ⟨hr, exec_write h ha (accWrite_error hi hp n _ _) rfl rfl, hm,
    exec_bulkRead h1 ha hc (bulkRead_error hi hp he hc n _) rfl rfl,
    exec_bulkWrite h ha hd (bulkWrite_error hi hp he hd n _) rfl rfl⟩

end AddressRefused

/-- Settles O8: in each of R27's cases the address lies outside the window and has no place. -/
theorem addressErrorsAreReportedInOrder : Obligations.AddressErrorsAreReportedInOrder := by
  unfold Obligations.AddressErrorsAreReportedInOrder
  intro s n a e count value mask data h ha hc hd hcase
  obtain ⟨hb, hn, rfl⟩ | ⟨hlo, hb, rfl⟩ | ⟨hb, h8, rfl⟩ | ⟨h8, rfl, rows, hr, hf⟩ := hcase
  · have hi : inHbm a = false := by rw [Bool.eq_false_iff, ne_eq, inHbm_iff]; omega
    exact exec_accesses_error h ha hc hd hi (regPlace_noBlock hb) (by decide) (by decide)
  · have hi : inHbm a = false := by rw [Bool.eq_false_iff, ne_eq, inHbm_iff]; omega
    exact exec_accesses_error h ha hc hd hi (regPlace_noBlock (by rw [hb]; rfl)) (by decide) (by decide)
  · exact exec_accesses_error h ha hc hd (inHbm_of_block hb) (regPlace_misaligned hb h8) (by decide) (by decide)
  · exact exec_accesses_error h ha hc hd (inHbm_of_block (by rw [hr]; rfl)) (regPlace_noOffset hr h8 hf) (by decide) (by decide)

end Sys2Proof.Machine
end

section
/-!
PROOFS. PARSE takes a frame, a word issues, and a packet moves on to the next stage (01_architecture.md R14, R15, R62, R68;
04_dealers_and_microcode.md R69, R71, R72, R81; 06_intake_parser.md R120, R137).
-/
namespace Sys2Proof.Machine

open Sys2Proof

/-! ## Frames -/

theorem raiseWalks_only (s : State) (h : Nat) : ∃ w, raiseWalks s h = { s with walkHw := w } := by
  unfold raiseWalks
  dsimp only
  split
  · exact ⟨_, rfl⟩
  · exact ⟨s.walkHw, rfl⟩

theorem noteAdmit_only (s : State) (h : Nat) : ∃ a, noteAdmit s h = { s with admits := a } := by
  unfold noteAdmit
  split
  · exact ⟨_, rfl⟩
  · exact ⟨s.admits, rfl⟩

/-! ## A packet enters a stage (R15, R68, R81) -/

/-- `u` is `s` after the packet of vector `k` has entered context `c` of dealer `d` as trick `t`, which starts at the routine
record at `o`. -/
structure Entered (s u : State) (d k c o : Nat) (p : Pkt) (t : Trick) : Prop where
  ctx : c < 256
  free : trickAt s d c = none
  tricks : u.tricks = kset s.tricks (trickKey d c) t
  pkts : u.pkts = if stageOf d = 2 then kset s.pkts k { p with kv := [] } else s.pkts
  rb : u.rb = s.rb
  deck : u.deck = s.deck
  displaced : u.displaced = s.displaced
  pkt : t.pkt = k
  slot : t.slot = pktEpoch p
  routine : t.routine = pktRoutine p (stageOf d)
  addr : t.addr = rtF s (pktEpoch p) o 2 2 % 2 ^ 14
  ended : t.ended = false
  committed : t.committed = false

theorem enterStage_entered {s : State} {d k o : Nat} {p : Pkt} (hp : getPkt s k = some p) (hs : ksorted s.tricks = true)
    (hr : hasRoom s d = true) (h3 : stageOf d ≠ 3)
    (ho : routineOff s (pktEpoch p) (stageOf d) (pktRoutine p (stageOf d)) = some o) :
    ∃ u c t, enterStage s d k = some u ∧ Entered s u d k c o p t := by
  obtain ⟨u, c, t, hu, hc, hf, huo, tp, -, ts, tr, te, -, tc, ta, -, -⟩ := enterStage_starts hp hs hr h3 ho
  obtain ⟨b, hb⟩ : ∃ b, b = (if stageOf d = 2 then setPkt s k { p with kv := [] } else s) := ⟨_, rfl⟩
  have hbs : b.rb = s.rb ∧ b.deck = s.deck ∧ b.displaced = s.displaced
      ∧ b.pkts = if stageOf d = 2 then kset s.pkts k { p with kv := [] } else s.pkts := by
    rw [hb]; split <;> exact ⟨rfl, rfl, rfl, rfl⟩
  obtain ⟨brb, bdeck, bdis, bpk⟩ := hbs
  rw [← hb] at huo
  obtain ⟨utr, upk, -, urb, udeck, -, -, -, -, -, -, -, -, udis, -⟩ := huo.fields
  exact ⟨u, c, t, hu, hc, hf, utr, upk.trans bpk, urb.trans brb,
    udeck.trans bdeck, udis.trans bdis, tp, ts, tr, ta, te, tc⟩

/-! ## PARSE_TAKE -/

theorem stageOf_hand {h : Nat} (hh : h < 32) : stageOf h = 0 := by
  unfold stageOf
  rw [if_pos (by omega)]
  omega

/-- PARSE takes the oldest frame of an open hand whose rate is due, where no recirculated packet goes first (R18, R120). -/
theorem parseTakeOp_frame {s : State} {h : Nat} {f : RbFrame} {rest : List RbFrame} (hd : hasDeck s = true)
    (hl : held s = false) (hr : hasRoom s h = true) (hw : walksBusy s h < 32)
    (hq : recircOk s h = false ∨ kgetD s.recircq h [] = []) (hrb : kget s.rb h = some (f :: rest))
    (ho : foldOfHand s h = .open_) (ht : rateOk s h = true) : parseTakeOp s h = takeFrame s h f rest := by
  have hg : (!hasDeck s || held s || !hasRoom s h || walkUnits ≤ walksBusy s h) = false := by
    simp [hd, hl, hr, Nat.not_le.2 hw, show walkUnits = 32 from rfl]
  have hq' : (if recircOk s h then kgetD s.recircq h [] else []) = [] := by
    rcases hq with hq | hq <;> simp [hq]
  have hf : kgetD s.rb h [] = f :: rest := by simp [kgetD, hrb]
  unfold parseTakeOp
  rw [hg, hq', hf]
  simp [ho, ht]

/-- The state in which PARSE starts the routine of the frame it has taken into vector `k`. -/
def tookFrame (s : State) (h k : Nat) (f : RbFrame) (rest : List RbFrame) : State :=
  setPkt (flightUp (noteAdmit { s with fresh := s.fresh + 1, rb := kput s.rb h (if rest.isEmpty then none else some rest) } h)
    (curSlot s)) k (takenPkt s f)

theorem tookFrame_frame (s : State) (h k : Nat) (f : RbFrame) (rest : List RbFrame) :
    (tookFrame s h k f rest).tricks = s.tricks
    ∧ (tookFrame s h k f rest).hot0 = s.hot0 ∧ (tookFrame s h k f rest).hot1 = s.hot1
    ∧ (tookFrame s h k f rest).pkts = kset s.pkts k (takenPkt s f)
    ∧ (tookFrame s h k f rest).rb = kput s.rb h (if rest.isEmpty then none else some rest)
    ∧ (tookFrame s h k f rest).deck = if curSlot s then { s.deck with inflight1 := s.deck.inflight1 + 1 }
        else { s.deck with inflight0 := s.deck.inflight0 + 1 } := by
  obtain ⟨a, ha⟩ := noteAdmit_only
    { s with fresh := s.fresh + 1, rb := kput s.rb h (if rest.isEmpty then none else some rest) } h
  unfold tookFrame
  rw [ha]
  exact ⟨rfl, rfl, rfl, rfl, rfl, rfl⟩

theorem kgetD_kput_rest {α : Type} (m : KMap (List α)) (k : Nat) (l : List α) :
    kgetD (kput m k (if l.isEmpty then none else some l)) k [] = l := by
  cases l <;> simp [kgetD, kput]

/-- Settles O43: the free vector and the free context are `chooseFree`'s, and the trick is the one `enterStage` starts. -/
theorem parseTakesTheOldestFrame : Obligations.ParseTakesTheOldestFrame := by
  unfold Obligations.ParseTakesTheOldestFrame
  intro s h f rest p o hh hd hl hr hw hq hrb ho ht hst hsp hc hp hro
  have h0 : stageOf h = 0 := stageOf_hand hh
  obtain ⟨k, hk, hlo, hhi, hfree⟩ := chooseFree_some s hsp (lo := 256 * h) (hi := 256 * h + 256) (by omega)
  obtain ⟨v, hv⟩ : ∃ v, v = tookFrame s h k f rest := ⟨_, rfl⟩
  obtain ⟨vtr, vh0, vh1, vpk, vrb, vdeck⟩ := tookFrame_frame s h k f rest
  rw [← hv] at vtr vh0 vh1 vpk vrb vdeck
  rw [← hp] at vpk
  obtain ⟨u, c, x, hu, e⟩ := enterStage_entered (s := v) (d := h) (k := k) (p := p) (o := o)
    (by rw [getPkt, vpk, kget_kset_same]) (by rw [vtr]; exact hst) (by unfold hasRoom tricksOf at hr ⊢; rwa [vtr])
    (by omega) (by rw [routineOff_congr vh0 vh1, h0]; exact hro)
  obtain ⟨w, hwk⟩ := raiseWalks_only u h
  have hexec : exec (.parseTake h) s = .next (keepFixed s { u with walkHw := w }) := by
    rw [← hwk, show raiseWalks u h = parseTakeOp s h from ?_]
    · exact cmd_ok (i := .parseTake h) (f := fun s => parseTakeOp s h) s (decide_eq_true hh)
    · rw [parseTakeOp_frame hd hl hr hw hq hrb ho ht, takeFrame, hk]
      dsimp only
      rw [show setPkt _ k (takenPkt s f) = v from hv.symm, hu]
  have hpk : u.pkts = kset s.pkts k p := by rw [e.pkts, if_neg (by omega), vpk]
  have hfree' : trickAt s h c = none := by have := e.free; unfold trickAt at this ⊢; rwa [vtr] at this
  refine ⟨_, k, c, x, hexec, hlo, hhi, hfree, e.ctx, hfree', ?pkt, ?frame, ?port, ?entries, ?walk, ?others, ?rb, ?trick,
    e.pkt, ?routine, ?addr, e.committed, e.ended, ?cur1, ?cur0⟩
  case pkt => show kget u.pkts k = _; rw [hpk, kget_kset_same]
  case others => intro j hj; show kget u.pkts j = _; rw [hpk, kget_kset_ne _ _ hj]
  case rb => show kgetD u.rb h [] = rest; rw [e.rb, vrb, kgetD_kput_rest]
  case trick => show kget u.tricks _ = _; rw [e.tricks, kget_kset_same]
  case routine => rw [e.routine, h0]
  case addr => rw [e.addr, rtF_congr vh0 vh1]
  case cur1 => intro hcur; show u.deck.inflight1 = _ ∧ u.deck.inflight0 = _; rw [e.deck, vdeck, curSlot, hcur]; exact ⟨rfl, rfl⟩
  case cur0 => intro hcur; show u.deck.inflight0 = _ ∧ u.deck.inflight1 = _; rw [e.deck, vdeck, curSlot, hcur]; exact ⟨rfl, rfl⟩
  all_goals rw [hp]; rfl

/-! ## MICROWORD_ISSUE of a dealer's one trick (R69) -/

section OneTrick
variable {s : State} {d c : Nat} {t : Trick}

theorem trickKey_parts (hc : c < 256) : trickKey d c / 256 = d ∧ trickKey d c % 256 = c := by
  unfold trickKey
  omega

theorem trickAt_of_only (hs : ksorted s.tricks = true) (h : tricksOf s d = [(trickKey d c, t)]) : trickAt s d c = some t := by
  have hm : (trickKey d c, t) ∈ tricksOf s d := by rw [h]; exact List.mem_singleton_self _
  exact mem_kget hs (List.mem_filter.1 hm).1

/-- A dealer's one trick stays its one trick when it is written. -/
theorem tricksOf_kset_only {u : State} {t' : Trick} (hc : c < 256) (hs : ksorted s.tricks = true)
    (h : tricksOf s d = [(trickKey d c, t)]) (hu : u.tricks = kset s.tricks (trickKey d c) t') :
    tricksOf u d = [(trickKey d c, t')] := by
  unfold tricksOf kfilter
  rw [hu]
  refine kfilter_one (ksorted_kset _ _ hs) (kget_kset_same _ _ _) (by simp [trickKey_parts hc]) fun e he hne => ?_
  obtain rfl | he := mem_kset he
  · exact absurd rfl hne
  · refine Bool.eq_false_iff.2 fun hd => ?_
    have hm : e ∈ tricksOf s d := List.mem_filter.2 ⟨he, hd⟩
    rw [h, List.mem_singleton] at hm
    exact hne (congrArg Prod.fst hm)

theorem mayIssue_iff : mayIssue s d t = true ↔ t.ended = false ∧ t.wait = none ∧ t.mwait = none
    ∧ flowWaits t s.clk = false ∧ t.readyAt ≤ s.clk ∧ t.addr < endAddr ∧ wordReady s d t (trickWord s d t) = true
    ∧ foldWaits s d t (trickWord s d t) = false
    ∧ (recircPass s d t && !recircFits s (d % 32) (trickWord s d t).cyc) = false := by
  simp only [mayIssue, Bool.and_eq_true, Bool.not_eq_true', Option.isNone_iff_eq_none, decide_eq_true_eq, and_assoc]

/-- A trick that waits for nothing and stands at a word is left alone before the dealer issues. -/
theorem wakeDealer_only (hc : c < 256) (hs : ksorted s.tricks = true) (h : tricksOf s d = [(trickKey d c, t)])
    (hw : t.wait = none) (ha : t.addr < endAddr) : wakeDealer s d = s := by
  have h1 : t.addr ≠ lostAddr := by unfold endAddr at ha; unfold lostAddr; omega
  have h2 : t.addr ≠ endAddr := Nat.ne_of_lt ha
  unfold wakeDealer
  rw [h]
  simp [(trickKey_parts hc).2, hw, trickAt_of_only hs h, h1, h2]

theorem resumeHosts_only (h : tricksOf s d = [(trickKey d c, t)]) (hw : t.wait = none) : resumeHosts s d = s := by
  unfold resumeHosts
  rw [h]
  simp [hw]

theorem issueWords_run (n : Nat) (hc : c < 256) (h : tricksOf s d = [(trickKey d c, t)]) (hm : mayIssue s d t = true) :
    issueWords (n + 1) s d = issueWords n (runWord s d c) d := by
  simp [issueWords, h, hm, bestTrick, (trickKey_parts hc).2]

theorem issueWords_stop (n : Nat) (h : tricksOf s d = [(trickKey d c, t)]) (hm : mayIssue s d t = false) :
    issueWords n s d = s := by
  cases n <;> simp [issueWords, h, hm, bestTrick]

/-- A dealer with a free slot issues one word of its one trick, which that word's slot-clocks then hold back. -/
theorem issueOp_once {t' : Trick} (hc : c < 256) (hs : ksorted s.tricks = true) (h : tricksOf s d = [(trickKey d c, t)])
    (hm : mayIssue s d t = true) (hb : slotsBusy s d < 8)
    (hr : (runWord s d c).tricks = kset s.tricks (trickKey d c) t') (hclk : (runWord s d c).clk < t'.readyAt) :
    issueOp (resumeHosts s d) d = runWord s d c := by
  obtain ⟨-, hw, -, -, -, ha, -⟩ := mayIssue_iff.1 hm
  have hstop : mayIssue (runWord s d c) d t' = false := by
    rw [Bool.eq_false_iff, ne_eq, mayIssue_iff]
    rintro ⟨-, -, -, -, hle, -⟩
    omega
  obtain ⟨n, hn⟩ : ∃ n, 8 - slotsBusy s d = n + 1 := ⟨7 - slotsBusy s d, by omega⟩
  rw [resumeHosts_only h hw, issueOp, wakeDealer_only hc hs h hw ha, hn, issueWords_run n hc h hm,
    issueWords_stop n (tricksOf_kset_only hc hs h hr) hstop]

/-! ## STAGE_HANDOFF of a dealer's one trick (R68) -/

theorem handoffTrick_only (h : tricksOf s d = [(trickKey d c, t)]) (he : t.settled = some 0) (h2 : stageOf d ≠ 2) :
    handoffTrick s d = some (trickKey d c, t) := by
  simp [handoffTrick, h, he, h2]

/-- KEY, ACT and DEAL hand on the packet of their ended trick when the next stage lets it enter. -/
theorem handoffOp_moves {u : State} {p : Pkt} (hc : c < 256) (hst : stageOf d = 1 ∨ stageOf d = 3 ∨ stageOf d = 5)
    (h : tricksOf s d = [(trickKey d c, t)]) (he : t.settled = some 0) (hp : getPkt s t.pkt = some p)
    (hf : stageOf d = 1 → flowTakes s (d % 32) = true) (hu : enterStage s (d + 32) t.pkt = some u) :
    handoffOp s d = freeCtx u d c := by
  have ht := handoffTrick_only h he (by omega)
  unfold handoffOp
  rcases hst with hst | hst | hst <;> simp [hst, ht, hp, hu, (trickKey_parts hc).2, hf]

end OneTrick

theorem freeCtx_empty {s : State} {d : Nat} (h : kget s.displaced d = none) (c : Nat) :
    freeCtx s d c = { s with tricks := kdel s.tricks (trickKey d c) } := by
  unfold freeCtx
  dsimp only
  rw [h]

theorem stageOf_next {d : Nat} (hd : d < 192) : stageOf (d + 32) = stageOf d + 1 := by
  unfold stageOf
  rw [if_pos (by omega), if_pos (by omega)]
  omega

/-- Settles O46: the word is `runWord`'s, and the next stage's trick the one `enterStage` starts. -/
theorem wordsIssueAndPacketsMoveOn : Obligations.WordsIssueAndPacketsMoveOn := by
  unfold Obligations.WordsIssueAndPacketsMoveOn
  refine ⟨?word, ?handoff⟩
  case word =>
    intro s d c t w va vb r a hd hc hs h hw hm hb hcyc k1 k2 k3 k4 k5 k6 k7 k8 k9 k10 k11 k12 k13 k14 k15 k16 k17 ha hvb hr hav
      hcond hae
    obtain ⟨m1, m2, -⟩ := mayIssue_iff.1 hm
    obtain ⟨htr, hclk, hpk⟩ := runWord_alu (trickAt_of_only hs h) hw m1 m2 k1 k2 k3 k4 k5 k6 k7 k8 k9 k10 k11 k12 k13 k14 k15
      k16 k17 ha hvb hr hav hcond hae
    have hop := issueOp_once hc hs h hm hb htr (by rw [hclk]; exact Nat.lt_add_of_pos_right hcyc)
    refine ⟨keepFixed s (runWord s d c), ?_, ?_, hpk⟩
    · rw [← hop]; exact cmd_ok (i := .microwordIssue d) (f := fun s => issueOp (resumeHosts s d) d) s hd
    · show kget (runWord s d c).tricks _ = _
      rw [htr, kget_kset_same]
  case handoff =>
    intro s d c o t p hd hst hc hs h he hdis hp hroom hf ho
    have hnext := stageOf_next hd
    obtain ⟨u, c', x, hu, e⟩ := enterStage_entered (d := d + 32) hp hs hroom (by omega) (by rw [hnext]; exact ho)
    have hop := handoffOp_moves hc hst h he hp hf hu
    rw [freeCtx_empty (by rw [e.displaced, hdis])] at hop
    have hne : trickKey (d + 32) c' ≠ trickKey d c := by have := e.ctx; unfold trickKey; omega
    refine ⟨keepFixed s { u with tricks := kdel u.tricks (trickKey d c) }, c', x, ?exec, kget_kdel_same _ _, e.ctx, e.free,
      ?trick, e.pkt, e.slot, ?routine, e.addr, e.ended, e.committed, ?pkt⟩
    case exec => rw [← hop]; exact cmd_ok (i := .stageHandoff d) (f := fun s => handoffOp s d) s (decide_eq_true (by omega))
    case trick => show kget (kdel u.tricks _) _ = _; rw [kget_kdel_ne _ hne, e.tricks, kget_kset_same]
    case routine => rw [e.routine, hnext]
    case pkt =>
      show kget u.pkts t.pkt = _
      rw [e.pkts, hnext]
      by_cases h1 : stageOf d = 1
      · rw [if_pos (by omega), if_pos h1, kget_kset_same]
      · rw [if_neg (by omega), if_neg h1]; exact hp

end Sys2Proof.Machine
end

section
/-!
PROOFS. The fabric: SEND cuts a short frame into one cell, a closed cell enters staging, the plane match moves the one staged
cell, and the resequencer holds, passes over, releases and counts (11_fabric_and_pots.md R243 to R253).
-/
namespace Sys2Proof.Machine

open Sys2Proof

/-! ## Open cells -/

/-- No open cell of the hand is full: nothing closes (R246). -/
theorem settleOpen_idle {s : State} {h : Nat} (hn : ∀ k c, (k, c) ∈ s.opens → k / 32 = h → cellFull c = false) :
    settleOpen s h = s := by
  unfold settleOpen kfind
  rw [List.find?_eq_none.2]
  rintro ⟨k, c⟩ hm hp
  simp only [Bool.and_eq_true, beq_iff_eq] at hp
  simp [hn k c hm hp.1] at hp

theorem cutStalled_idle {s : State} {h : Nat} (hn : ∀ k c, (k, c) ∈ s.opens → k / 32 = h → cellFull c = false) :
    cutStalled s h = false := by
  unfold cutStalled
  rw [Bool.and_eq_false_imp]
  intro _
  rw [List.any_eq_false]
  rintro ⟨k, c⟩ hm hp
  simp only [Bool.and_eq_true, beq_iff_eq] at hp
  simp [hn k c hm hp.1] at hp

/-! ## CELL_CUT of a short whole frame (R243, R244, R246) -/

theorem frameHdr_length (p : Pkt) (n : Nat) : (frameHdr p n).length = 32 := by
  simp [frameHdr, hdrOrder]

/-- The open cell of a frame that fits: its header and its bytes, in one segment. -/
def wholeCell (s : State) (h : Nat) (it : SendItem) (p : Pkt) : Cell :=
  ⟨h, it.pot, 0, [⟨32 + it.stream.length, true, true, p.bad, pktEpoch p⟩], frameHdr p it.stream.length ++ it.stream, s.order, false⟩

/-- The state in which the frame stands whole in its open cell. -/
def cutWhole (s : State) (h : Nat) (it : SendItem) (p : Pkt) : State :=
  { s with order := s.order + 1, opens := kset s.opens (32 * h + it.pot) (wholeCell s h it p) }

section CutOne
variable {s : State} {h : Nat} {it : SendItem} {p : Pkt}

theorem sendNext_only (hv : kget s.pkts it.vec = some p) (hst : it.started = false) (hh : sendHeld s (pktQueue p) = false) :
    sendNext s [it] [] = some it := by
  simp [sendNext, hv, hst, hh]

theorem wholeCell_open (hn : it.stream.length + 32 < 256) : cellFull (wholeCell s h it p) = false := by
  have hl : (wholeCell s h it p).payload.length = 32 + it.stream.length := by
    simp [wholeCell, frameHdr_length]
  unfold cellFull
  rw [hl]
  simp [wholeCell]
  omega

/-- A piece takes the whole of a frame that fits behind its header into a fresh cell. -/
theorem cutPiece_whole (hst : it.started = false) (he : p.ended = true) (hn : it.stream.length + 32 < 256)
    (ho : kget s.opens (32 * h + it.pot) = none) :
    cutPiece s h it p = some (cutWhole s h it p, { it with started := true, stream := [] }, true) := by
  have hm : mustClose s h it = false := by simp [mustClose, ho]
  have hk : khas s.opens (32 * h + it.pot) = false := by simp [khas, ho]
  have hmin : min (256 - 32) it.stream.length = it.stream.length := by omega
  simp [cutPiece, hm, hk, kgetD, ho, hst, he, frameHdr_length, hmin, addSeg, cutWhole, wholeCell]

theorem settleOpen_cutWhole (hn : it.stream.length + 32 < 256)
    (hf : ∀ k c, (k, c) ∈ s.opens → k / 32 = h → cellFull c = false) : settleOpen (cutWhole s h it p) h = cutWhole s h it p := by
  refine settleOpen_idle fun k c hm hk => ?_
  rcases mem_kset hm with e | hm
  · cases e; exact wholeCell_open hn
  · exact hf k c hm hk

/-- CELL_CUT of a hand's one frame, which is whole and fits into a cell. -/
theorem cellCutOp_whole (hq : kget s.sendq h = some [it]) (hst : it.started = false) (hv : kget s.pkts it.vec = some p)
    (he : p.ended = true) (hn : it.stream.length + 32 < 256) (hh : sendHeld s (pktQueue p) = false)
    (ho : kget s.opens (32 * h + it.pot) = none) (hf : ∀ k c, (k, c) ∈ s.opens → k / 32 = h → cellFull c = false) :
    cellCutOp s h = { cutWhole s h it p with
      sendq := kdel s.sendq h, pkts := kdel s.pkts it.vec,
      occ := if p.entries = 0 then s.occ else (freeOcc s p.port p.cls p.entries).occ } := by
  have hgo : cutGo (it.stream.length + 2) s h it p = (cutWhole s h it p, { it with started := true, stream := [] }, true) := by
    unfold cutGo
    rw [cutPiece_whole hst he hn ho]
    simp [settleOpen_cutWhole hn hf]
  have hs : kgetD s.sendq h [] = [it] := by simp [kgetD, hq]
  unfold cellCutOp
  simp only [settleOpen_idle hf, cutStalled_idle hf, hs, sendNext_only hv hst hh, hv, hgo]
  by_cases h0 : p.entries = 0
  · simp [kput, h0, cutWhole]
  · simp [kput, h0]
    rfl

end CutOne

/-! ## STAGING_FILL (R247, R251) -/

theorem fillOne_none {s : State} {h : Nat} (hq : kget s.cutq h = none) (ho : ∀ k x, (k, x) ∈ s.opens → k / 32 ≠ h) :
    fillOne s h = none := by
  have hold : oldestOpen s h = none := by
    unfold oldestOpen
    rw [List.filter_eq_nil_iff.2]
    · rfl
    · rintro ⟨k, x⟩ hm
      simp [ho k x hm]
  unfold fillOne
  cases bestPlane s h <;> simp [kgetD, hq, hold]

/-- The one closed cell of a hand with empty staging enters the first plane port. -/
theorem fillOne_first {s : State} {h : Nat} {c : Cell} (hq : kget s.cutq h = some [c]) (hc : 0 < (pairOf s h c.dst).credits)
    (hst : ∀ pl, pl < 4 → stagedAt s h pl = []) (ho : ∀ k x, (k, x) ∈ s.opens → k / 32 ≠ h) :
    fillOne s h = some (stageCell { s with cutq := kdel s.cutq h } h 0 c) := by
  have hb : bestPlane s h = some 0 := by
    simp [bestPlane, List.range_succ, hst 0, hst 1, hst 2, hst 3]
  have hset : settleOpen (stageCell { s with cutq := kdel s.cutq h } h 0 c) h = stageCell { s with cutq := kdel s.cutq h } h 0 c :=
    settleOpen_idle fun k x hm hk => absurd hk (ho k x hm)
  simp [fillOne, hb, kgetD, hq, hc, kput, hset]

theorem stagedAt_stageCell (s : State) (h pl : Nat) (c : Cell) :
    stagedAt (stageCell s h pl c) h pl = stagedAt s h pl ++ [{ c with seq := (pairOf s h c.dst).seq }] :=
  kgetD_kset_same _ _ _ _

/-! ## The resequencer (R251 to R253) -/

/-- A lost cell changes the counts of frames in flight alone. -/
theorem cellLost_only (s : State) (c : Cell) : ∃ d, cellLost s c = { s with deck := d } := by
  unfold cellLost
  generalize c.segs.filter (·.start) = gs
  induction gs generalizing s with
  | nil => exact ⟨s.deck, rfl⟩
  | cons g r ih =>
    obtain ⟨d, hd⟩ := ih (flightDown s g.epoch)
    exact ⟨d, hd⟩

theorem keepFixed_cellLost {s t : State} (k : keepFixed s t = t) (c : Cell) : keepFixed s (cellLost t c) = cellLost t c := by
  obtain ⟨d, hd⟩ := cellLost_only t c
  rw [hd]
  exact keepFixed_of (t := { t with deck := d }) (keepFixed_fields (t := t) k)

theorem reseqOf_giveCredit (s : State) (p h : Nat) (x : Reseq) (i j : Nat) :
    reseqOf (giveCredit (setReseq s p h x) i j) p h = x := reseq_set s p h x

/-- The next cell of a pair that crosses is held within the window, and passed over as lost outside it. -/
theorem cellArriveOp_next {s : State} {p h : Nat} {c : Cell} {rest : List Cell} (hx : kget s.crossing (32 * p + h) = some (c :: rest)) :
    cellArriveOp s p h =
      let t := { s with crossing := kput s.crossing (32 * p + h) (if rest = [] then none else some rest) }
      if wrapSub 16 c.seq (reseqOf s p h).expect < 64 then setReseq t p h { reseqOf s p h with held := (reseqOf s p h).held ++ [c] }
      else cellLost t c := by
  simp only [cellArriveOp, kgetD, hx, Option.getD_some, List.isEmpty_iff]
  rfl

/-- Nothing is released while no cell is held. -/
theorem releaseOne_empty {s : State} {p h : Nat} (hx : (reseqOf s p h).held = []) : releaseOne s p h = s := by
  unfold releaseOne
  simp [hx]

/-- The state in which the resequencer `x` has passed over its one cell `c` of a discarded frame. -/
def passOver (s : State) (p h : Nat) (x : Reseq) (c : Cell) : State :=
  setReseq (giveCredit (setReseq s p h { x with expect := (x.expect + 1) % 65536, held := [] }) h p) p h
    { x with expect := (x.expect + 1) % 65536, held := [], recv := if (c.segs.all fun g => g.last) then .none else .discard }

/-- The expected cell of a discarded frame is passed over: its credit returns, and the discard ends with the frame. -/
theorem releaseOne_discard {s : State} {p h : Nat} {x : Reseq} {c : Cell} {g : Seg} (hx : x = reseqOf s p h) (hc : x.held = [c])
    (hs : c.seq = x.expect) (hr : x.recv = .discard) (hg : c.segs = [g]) (hst : g.start = false) :
    releaseOne s p h = passOver s p h x c := by
  unfold releaseOne
  simp [← hx, hc, hs, hr, hg, hst, unpackSegs, unpackSeg, reseqOf_giveCredit, passOver]

theorem cellReleaseOp_discard {s : State} {p h : Nat} {x : Reseq} {c : Cell} {g : Seg} (hx : x = reseqOf s p h) (hc : x.held = [c])
    (hs : c.seq = x.expect) (hr : x.recv = .discard) (hg : c.segs = [g]) (hst : g.start = false) :
    cellReleaseOp s p h = passOver s p h x c := by
  have hempty : releaseOne (passOver s p h x c) p h = passOver s p h x c := releaseOne_empty (by rw [passOver, reseq_set])
  unfold cellReleaseOp
  rw [releaseOne_discard hx hc hs hr hg hst, hempty, hempty, hempty]

/-- The expected cell is counted as lost while later ones are held, and its frame is discarded. -/
theorem reseqTimeoutOp_lost {s : State} {p h : Nat} {x : Reseq} (hx : x = reseqOf s p h) (hne : x.held ≠ [])
    (hno : ∀ c, c ∈ x.held → c.seq ≠ x.expect) (hr : ∀ q f, x.recv ≠ .into q f) :
    reseqTimeoutOp s p h = giveCredit (setReseq (bump s (aReseqLost p)) p h
      { x with expect := (x.expect + 1) % 65536, recv := .discard }) h p := by
  have hc : (x.held.isEmpty || x.held.any (·.seq == x.expect)) = false := by
    rw [Bool.or_eq_false_iff, List.isEmpty_eq_false_iff, List.any_eq_false]
    exact ⟨hne, fun c hm => by simp [hno c hm]⟩
  unfold reseqTimeoutOp
  rw [← hx, if_neg (by simp [hc])]
  cases hv : x.recv with
  | into q f => exact absurd hv (hr q f)
  | none => rfl
  | discard => rfl

/-! ## The plane match (R248, R249) -/

/-- No pot but the matched one is requested: nothing more is granted. -/
theorem grants_rest {s : State} {pl h : Nat} {c : Cell} (h1 : stagedAt s h pl = [c])
    (h2 : ∀ g, g < 32 → g ≠ h → stagedAt s g pl = []) : grants s pl [(h, c.dst)] = [] := by
  unfold grants
  rw [List.filterMap_eq_nil_iff]
  intro p _
  by_cases hp : c.dst = p
  · simp [hp]
  · have hn : ∀ i, requests s pl (i % 32) p = false := by
      intro i
      unfold requests
      by_cases hi : i % 32 = h
      · simp [hi, h1, hp]
      · simp [h2 _ (Nat.mod_lt i (by omega)) hi]
    rw [findUp_none _ _ fun i _ _ => by simp [hn]]
    simp [hp]

theorem accepts_nil (s : State) (pl : Nat) : accepts s pl [] = [] := by
  unfold accepts
  rw [List.filterMap_eq_nil_iff]
  intro h _
  rw [findUp_none _ _ fun i _ _ => by simp]
  rfl

/-- The state in which plane `pl` has matched the one staged cell `c` of hand `h`: its pointers have moved past the pair, and
its counters have counted one match and `idle` pots that stayed idle. -/
def matchedOne (s : State) (pl h : Nat) (c : Cell) (idle : Nat) : State :=
  bumpBy (bumpBy (bumpBy (movePtrs s pl [(h, c.dst)]) (aFab pl 0) 1) (aFab pl 1) 0) (aFab pl 2) idle

theorem regRaw_matchedOne (s : State) (pl h : Nat) (c : Cell) (idle : Nat) :
    regRaw (matchedOne s pl h c idle) (aFab pl 0) 0 % 2 ^ 48 = (regRaw s (aFab pl 0) 0 % 2 ^ 48 + 1) % 2 ^ 48 := by
  unfold matchedOne
  rw [regRaw_bumpBy_ne _ _ (by unfold aFab; omega), regRaw_bumpBy_ne _ _ (by unfold aFab; omega)]
  exact bump_low48 (movePtrs s pl [(h, c.dst)]) (aFab pl 0)

theorem sendCell_one {s : State} {pl h : Nat} {c : Cell} (h1 : stagedAt s h pl = [c]) :
    sendCell s pl [] (h, c.dst) = { s with
      staged := kdel s.staged (4 * h + pl),
      crossing := kset s.crossing (32 * c.dst + h) (kgetD s.crossing (32 * c.dst + h) [] ++ [c]) } := by
  simp [sendCell, h1]

/-- PLANE_MATCH of a plane's one staged cell, with no header in error. -/
theorem planeMatchOp_one {s : State} {pl h : Nat} {c : Cell} (hh : h < 32) (hd : c.dst < 32) (h1 : stagedAt s h pl = [c])
    (h2 : ∀ g, g < 32 → g ≠ h → stagedAt s g pl = []) :
    ∃ idle, planeMatchOp s pl [] = { matchedOne s pl h c idle with
      staged := kdel s.staged (4 * h + pl),
      crossing := kset s.crossing (32 * c.dst + h) (kgetD s.crossing (32 * c.dst + h) [] ++ [c]) } := by
  have hrest : grants (movePtrs s pl [(h, c.dst)]) pl [(h, c.dst)] = [] := grants_rest (s := movePtrs s pl [(h, c.dst)]) h1 h2
  have hst : ∀ idle, stagedAt (matchedOne s pl h c idle) h pl = [c] := fun _ => h1
  unfold planeMatchOp
  rw [grants_one hh hd h1 h2, accepts_one s pl h c.dst hh hd]
  simp only [accepts_nil, List.append_nil, hrest]
  exact ⟨_, sendCell_one (hst _)⟩

/-- Settles O49: each command's operation on the one frame or cell that it finds. -/
theorem cellsAreCutStagedMatchedAndReleased : Obligations.CellsAreCutStagedMatchedAndReleased := by
  unfold Obligations.CellsAreCutStagedMatchedAndReleased
  refine ⟨?cut, ?staging, ?reseq, ?plane⟩
  case cut =>
    rintro s h it p n hh hpot hq hst hv he rfl hn hsh ho hf
    have hop := cellCutOp_whole hq hst hv he hn hsh ho hf
    refine ⟨keepFixed s (cellCutOp s h), wholeCell s h it p,
      cmd_ok (i := .cellCut h) (f := fun s => cellCutOp s h) s (decide_eq_true hh), ?_⟩
    rw [hop]
    exact ⟨kget_kset_same _ _ _, rfl, rfl, rfl, rfl, kget_kdel_same _ _, kget_kdel_same _ _, rfl, fun h0 => if_pos h0,
      fun h0 => if_neg h0⟩
  case staging =>
    intro s h c hh hq hc hst ho
    have hfirst := fillOne_first hq hc hst ho
    have hnext : fillOne (stageCell { s with cutq := kdel s.cutq h } h 0 c) h = none :=
      fillOne_none (s := stageCell { s with cutq := kdel s.cutq h } h 0 c) (kget_kdel_same _ _) ho
    have hop : stagingFillOp s h = stageCell { s with cutq := kdel s.cutq h } h 0 c := by
      simp [stagingFillOp, stagingFillGo, hfirst, hnext]
    refine ⟨_, cmd_run (i := .stagingFill h) (f := fun s => stagingFillOp s h) (decide_eq_true hh) hop rfl, ?_, kget_kdel_same _ _, ?_⟩
    · exact (stagedAt_stageCell _ h 0 c).trans (congrArg (· ++ [_]) (hst 0 (by omega)))
    · exact kgetD_kset_same _ _ _ _
  case reseq =>
    intro s p h hp hh
    have hwf : (decide (p < 32) && decide (h < 32)) = true := by simp [hp, hh]
    refine ⟨?arrive, ?timeout, ?release⟩
    case arrive =>
      rintro c rest t hx rfl
      have hop := cellArriveOp_next (s := s) hx
      refine ⟨fun hlt => ?_, fun hge => ?_⟩
      · exact cmd_run (i := .cellArrive p h) (f := fun s => cellArriveOp s p h) hwf (hop.trans (if_pos hlt)) rfl
      · exact cmd_run (i := .cellArrive p h) (f := fun s => cellArriveOp s p h) hwf (hop.trans (if_neg (Nat.not_lt.2 hge)))
          (keepFixed_cellLost rfl c)
    case timeout =>
      intro x hx hne hno hr
      exact cmd_run (i := .reseqTimeout p h) (f := fun s => reseqTimeoutOp s p h) hwf
        (reseqTimeoutOp_lost hx hne hno hr) rfl
    case release =>
      rintro x c hx hc hs hr ⟨g, hg, hst⟩
      exact cmd_run (i := .cellRelease p h) (f := fun s => cellReleaseOp s p h) hwf
        (cellReleaseOp_discard hx hc hs hr hg hst) rfl
  case plane =>
    intro s pl h c hpl hh hd h1 h2
    obtain ⟨idle, hop⟩ := planeMatchOp_one hh hd h1 h2
    refine ⟨_, cmd_run (i := .planeMatch pl []) (f := fun s => planeMatchOp s pl []) ?_ hop rfl, ?_, kgetD_kset_same _ _ _ _,
      fun k hk => kget_kset_ne _ _ hk, kget_kset_same _ _ _, kget_kset_same _ _ _, regRaw_matchedOne s pl h c idle⟩
    · exact Bool.and_eq_true_iff.2 ⟨decide_eq_true hpl, rfl⟩
    · show kgetD (kdel _ _) _ [] = []
      rw [kgetD, kget_kdel_same]
      rfl

end Sys2Proof.Machine
end

section
/-!
PROOFS. The time unit's events at their instants, and gate lists: holdover, leap seconds, outputs, grants, launches, and the
gate changes that cross to the traffic manager (13_time_and_launch.md R294 to R312; 02_contracts_and_floors.md R28).
-/
namespace Sys2Proof.Machine

open Sys2Proof

/-! ## Holdover and leap seconds (R294, R298) -/

theorem holdEnter_locked {s : State} (h : s.time.state = .locked) :
    holdEnter s = { s with time := { s.time with state := .holdover, run := 0, ppsOk := false, lastUtc := none, waitTod := false,
                                                 holdFrom := s.clk, rate := s.time.integral } } := if_pos h

theorem holdOut_past {s : State} (h : s.time.state = .holdover) (ha : tiF s 10 2 < holdAge s) :
    holdOut s = { s with time := { s.time with state := .holdoverOut } } := by
  simp [holdOut, h, ha]

theorem holdOut_before {s : State} (ha : holdAge s ≤ tiF s 10 2) : holdOut s = s := by
  simp [holdOut, Nat.not_lt.2 ha]

theorem leapOp_due {s : State} (hp : s.time.pending ≠ 0) (hl : s.time.leapAt ≤ nowS s) :
    leapOp s = { s with time := { s.time with
      utcOff := s.time.utcOff + (if s.time.pending = 1 then 1 else -1), pending := 0 } } := by
  simp [leapOp, hp, Nat.not_lt.2 hl]

/-! ## Outputs (R299) -/

section PpsOutput
variable {s : State} {o i : Nat} {n : Int}

theorem ppsSecond_rec (hr : ppsRec s o = some i) : ppsSecond s o = (Int.ofNat (nowNs s) - sint 32 (tiR s i 8 4)) / 10 ^ 9 := by
  rw [ppsSecond, hr]

theorem ppsOutOp_new (hv : s.time.valid = true) (ht : timeTakes s = true) (hb : bit (tiF s 24 1) o = true)
    (hr : ppsRec s o = some i) (hn : n = ppsSecond s o) (hk : kget s.time.ppsSec o ≠ some n) :
    ppsOutOp s o = { s with sent := s.sent ++ [.pps o (tiR s i 4 4)], time := { s.time with ppsSec := kset s.time.ppsSec o n } } := by
  subst hn
  simp [ppsOutOp, ppsWidth, hv, ht, hb, hr, hk]

theorem ppsOutOp_given (hn : n = ppsSecond s o) (hk : kget s.time.ppsSec o = some n) : ppsOutOp s o = s := by
  subst hn
  simp [ppsOutOp, hk]

theorem ppsOutOp_invalid (hv : s.time.valid = false) : ppsOutOp s o = s := by
  simp [ppsOutOp, hv]

end PpsOutput

theorem todOutOp_invalid {s : State} (hv : s.time.valid = false) : todOutOp s = s := by
  simp [todOutOp, hv]

/-- The letters of a talker id. -/
theorem talker_letter (x : Nat) : 65 ≤ (BitVec.ofNat 8 (65 + x % 26)).toNat ∧ (BitVec.ofNat 8 (65 + x % 26)).toNat ≤ 90 := by
  rw [BitVec.toNat_ofNat]
  omega

theorem todOutOp_valid {s : State} (hv : s.time.valid = true) (ht : timeTakes s = true) (hm : tiF s 2 1 % 4 = 1) :
    todOutOp s = { (draw s).2 with sent := s.sent ++ [.tod (zda (BitVec.ofNat 8 (65 + (draw s).1 % 26))
      (BitVec.ofNat 8 (65 + (draw s).1 / 26 % 26)) (Int.ofNat (nowS s) - s.time.utcOff).toNat)] } := by
  simp [todOutOp, hv, ht, hm]

/-! ## Grants and launches (R307, R310) -/

theorem unicastExpire_ended {s : State} {k w : Nat} (hw : w = regRaw s (aUnicast k 0) 0) (hb : bit w 0 = true)
    (he : w / 2 ^ 32 ≤ nowS s % 2 ^ 32) : unicastExpire s k = setReg s (aUnicast k 0) (w - 1) := by
  unfold unicastExpire
  rw [← hw]
  exact if_pos (Bool.and_eq_true_iff.2 ⟨hb, decide_eq_true he⟩)

theorem unicastExpire_live {s : State} {k w : Nat} (hw : w = regRaw s (aUnicast k 0) 0) (he : nowS s % 2 ^ 32 < w / 2 ^ 32) :
    unicastExpire s k = s := by
  unfold unicastExpire
  rw [← hw]
  exact if_neg fun h => Nat.not_le.2 he (of_decide_eq_true (Bool.and_eq_true_iff.1 h).2)

section Launch
variable {s : State} {q : Nat} {f : PotFrame}

theorem launchOp_due (hf : headFrame s q = some f) (hv : hdrLaunchValid f = true)
    (ht : sint 40 (hdrLaunch f + 2 ^ 41 - 50 - now40 s) ≤ 0) :
    launchOp s q = modFrame s q f.id fun x => { x with launched := true } := by
  unfold launchOp
  rw [hf]
  dsimp only
  rw [hv, decide_eq_true ht]
  rfl

theorem launchOp_before (hf : headFrame s q = some f) (ht : 0 < sint 40 (hdrLaunch f + 2 ^ 41 - 50 - now40 s)) :
    launchOp s q = s := by
  unfold launchOp
  rw [hf]
  dsimp only
  rw [decide_eq_false (Int.not_le.2 ht), Bool.and_false]
  rfl

end Launch

/-! ## Gate lists (R278, R311, R312) -/

section Gates
variable {s : State} {list : Nat} {r : GateRun} {g : GateList}

/-- What a gate change leaves: the list's runs as given, and its entry at the end of the core time queue (R28). -/
theorem setGates_run (gs : List GateRun) (p v : Nat) :
    (setGates { s with time := { s.time with gates := gs } } p v).time.gates = gs
    ∧ (setGates { s with time := { s.time with gates := gs } } p v).coreTime = s.coreTime ++ [(p, v)]
    ∧ (setGates { s with time := { s.time with gates := gs } } p v).ports = s.ports := by
  obtain ⟨h, e⟩ := setGates_frame { s with time := { s.time with gates := gs } } p v
  rw [e]
  exact ⟨rfl, rfl, rfl⟩

theorem gateStartOp_before (hr : runOf s list false = some (r, g)) (ht : nowNs s + 50 < r.start) : gateStartOp s list = s := by
  simp [gateStartOp, hr, ht]

theorem gateStartOp_due (hc : s.coreTime.length < 16) (hr : runOf s list false = some (r, g)) (ht : r.start ≤ nowNs s + 50) :
    gateStartOp s list = setGates { s with time := { s.time with
        gates := (s.time.gates.filter fun x => x != r && !(x.running && x.what.port == g.port)) ++ [{ r with running := true }] } }
      g.port (nth g.entries 0 (0, 0)).1 := by
  have hroom : coreTimeRoom s = true := decide_eq_true hc
  simp [gateStartOp, hr, Nat.not_lt.2 ht, hroom]

/-- The entry of a running list that follows the present one. -/
def nextEntry (r : GateRun) (g : GateList) : GateRun :=
  if g.entries.length ≤ r.entry + 1 then { r with entry := 0, cycle := r.cycle + 1 } else { r with entry := r.entry + 1 }

theorem gateChangeOp_before (hr : runOf s list true = some (r, g))
    (ht : nowNs s + 50 < r.start + r.cycle * g.cycle + entryEnd g r.entry) : gateChangeOp s list = s := by
  simp [gateChangeOp, hr, ht]

theorem gateChangeOp_due (hc : s.coreTime.length < 16) (hr : runOf s list true = some (r, g))
    (ht : r.start + r.cycle * g.cycle + entryEnd g r.entry ≤ nowNs s + 50) :
    gateChangeOp s list = setGates { s with time := { s.time with
        gates := s.time.gates.map fun x => if x = r then nextEntry r g else x } }
      g.port (nth g.entries (nextEntry r g).entry (0, 0)).1 := by
  have hroom : coreTimeRoom s = true := decide_eq_true hc
  by_cases hl : g.entries.length ≤ r.entry + 1 <;> simp [gateChangeOp, hr, Nat.not_lt.2 ht, hroom, nextEntry, hl]

end Gates

/-! ## The clk that takes a gate change (R28) -/

/-- A clk's count leaves the core time queue, the ports and the messages that wait alone. -/
theorem tick_frame (u : State) : (tick u).clk = u.clk + 1 ∧ (tick u).coreTime = u.coreTime ∧ (tick u).ports = u.ports
    ∧ (tick u).time.genDue = u.time.genDue := by
  unfold tick
  dsimp only
  split
  · exact ⟨rfl, rfl, rfl, rfl⟩
  · split <;> exact ⟨rfl, rfl, rfl, rfl⟩

theorem takeCoreTime_one {v : State} {p x : Nat} (hp : p < 256) (hc : v.coreTime = [(p, x)]) :
    takeCoreTime v = { v with coreTime := [], ports := kset v.ports p { portOf v p with gates := BitVec.ofNat 8 x } } := by
  unfold takeCoreTime
  rw [hc, List.foldl_cons, List.foldl_nil, if_neg (Nat.not_le.2 hp)]
  rfl

/-- With no message waiting and no second ending, a clk of the time unit takes the core time queue alone. -/
theorem timeTick_takes {v : State} (hg : (takeCoreTime v).time.genDue = []) (hs : ¬ (takeCoreTime v).clk % 1600000000 = 0) :
    timeTick v = takeCoreTime v := by
  have hgen : genTick (takeCoreTime v) = takeCoreTime v := by unfold genTick; rw [hg]
  unfold timeTick hostSteer
  rw [hgen, decide_eq_false hs, Bool.and_false]
  rfl

theorem step_takes_gates {s : State} {p x : Nat} (hp : p < 256) (hpend : s.pending = []) (hc : s.coreTime = [(p, x)])
    (hg : s.time.genDue = []) (hs : ¬ (s.clk + 1) % 1600000000 = 0) (hr : s.clk + 1 ≠ s.rst.heldTill) :
    ∃ t, step s = .next t ∧ t.coreTime = [] ∧ t.ports = kset s.ports p { portOf s p with gates := BitVec.ofNat 8 x } := by
  obtain ⟨v, hstep, u, hu, rfl⟩ := step_idle hpend hr
  obtain ⟨tclk, tcore, tports, tgen⟩ := tick_frame u
  have hcore : (tick u).coreTime = [(p, x)] := by unfold SameButObs at hu; rw [tcore, hu]; exact hc
  obtain ⟨-, -, -, -, -, -, -, -, uclk, -, -, -, uports, -, -, -, -, utime, -⟩ := hu.fields
  have htake := takeCoreTime_one hp hcore
  have htick : timeTick (tick u) = takeCoreTime (tick u) := by
    refine timeTick_takes ?_ ?_ <;> rw [htake]
    · show (tick u).time.genDue = []
      rw [tgen, utime, hg]
    · show ¬ (tick u).clk % 1600000000 = 0
      rwa [tclk, uclk]
  refine ⟨_, hstep, ?_, ?_⟩
  · rw [htick, htake]; rfl
  · rw [htick, htake]
    show kset (tick u).ports p { portOf (tick u) p with gates := _ } = _
    rw [portOf, tports, uports]
    rfl

/-- Settles O57: each event's operation at its instant and before it, and the clk that takes a gate change. -/
theorem timeEventsAndGateLists : Obligations.TimeEventsAndGateLists := by
  unfold Obligations.TimeEventsAndGateLists
  refine ⟨fun s => ⟨?enter, ?out, ?inSpec, ?leap, ?pps, ?invalid, ?tod, ?grant, ?launch⟩,
    fun s list r g hlist hroom => ⟨?start, ?early, ?same, ?change, ?take⟩⟩
  case enter => exact fun h => cmd_run (i := .holdoverEnter) (f := fun s => holdEnter s) rfl (holdEnter_locked h) rfl
  case out => exact fun h ha => cmd_run (i := .holdoverOut) (f := fun s => holdOut s) rfl (holdOut_past h ha) rfl
  case inSpec => exact fun _ ha => cmd_run (i := .holdoverOut) (f := fun s => holdOut s) rfl (holdOut_before ha) rfl
  case leap => exact fun hp hl => cmd_run (i := .leapInstant) (f := fun s => leapOp s) rfl (leapOp_due hp hl) rfl
  case pps =>
    intro o i n ho hv ht hb hr hn
    rw [← ppsSecond_rec hr] at hn
    exact ⟨fun hk => cmd_run (i := .ppsOutEdge o) (f := fun s => ppsOutOp s o) ho (ppsOutOp_new hv ht hb hr hn hk) rfl,
      fun hk => cmd_run (i := .ppsOutEdge o) (f := fun s => ppsOutOp s o) ho (ppsOutOp_given hn hk) rfl⟩
  case invalid =>
    intro o hv
    refine ⟨?_, cmd_run (i := .todOut) (f := fun s => todOutOp s) rfl (todOutOp_invalid hv) rfl⟩
    cases ho : okPps o with
    | true => exact cmd_run (i := .ppsOutEdge o) (f := fun s => ppsOutOp s o) ho (ppsOutOp_invalid hv) rfl
    | false => exact cmd_bad (i := .ppsOutEdge o) (f := fun s => ppsOutOp s o) ho
  case tod =>
    intro hv ht hm
    exact ⟨_, _, _, cmd_run (i := .todOut) (f := fun s => todOutOp s) rfl (todOutOp_valid hv ht hm) rfl, rfl,
      talker_letter _, talker_letter _⟩
  case grant =>
    intro k w hk hw hb
    exact ⟨fun he => cmd_run (i := .unicastExpiry k) (f := fun s => unicastExpire s k) hk (unicastExpire_ended hw hb he) rfl,
      fun he => cmd_run (i := .unicastExpiry k) (f := fun s => unicastExpire s k) hk (unicastExpire_live hw he) rfl⟩
  case launch =>
    intro q f hq hf hv
    exact ⟨fun ht => cmd_run (i := .launchRelease q) (f := fun s => launchOp s q) hq (launchOp_due hf hv ht) rfl,
      fun ht => cmd_run (i := .launchRelease q) (f := fun s => launchOp s q) hq (launchOp_before hf ht) rfl⟩
  case start =>
    intro hr ht
    obtain ⟨hgs, hcore, hports⟩ := setGates_run (s := s)
      ((s.time.gates.filter fun x => x != r && !(x.running && x.what.port == g.port)) ++ [{ r with running := true }])
      g.port (nth g.entries 0 (0, 0)).1
    rw [← gateStartOp_due hroom hr ht] at hgs hcore hports
    refine ⟨_, cmd_ok (i := .gateListStart list) (f := fun s => gateStartOp s list) s hlist, ?_, ?_, hcore, hports⟩
    · show _ ∈ (gateStartOp s list).time.gates
      rw [hgs]
      exact List.mem_append_right _ (List.mem_singleton_self _)
    · show ∀ x ∈ (gateStartOp s list).time.gates, _
      rw [hgs]
      intro x hx hrun hport
      rcases List.mem_append.1 hx with hx | hx
      · simp [hrun, hport] at hx
      · exact List.mem_singleton.1 hx
  case early =>
    exact fun hr ht => cmd_run (i := .gateListStart list) (f := fun s => gateStartOp s list) hlist (gateStartOp_before hr ht) rfl
  case same =>
    exact fun hr ht => cmd_run (i := .gateChange list) (f := fun s => gateChangeOp s list) hlist (gateChangeOp_before hr ht) rfl
  case change =>
    rintro hr ht r' hr'
    obtain rfl : r' = nextEntry r g := hr'
    obtain ⟨hgs, hcore, hports⟩ := setGates_run (s := s) (s.time.gates.map fun x => if x = r then nextEntry r g else x)
      g.port (nth g.entries (nextEntry r g).entry (0, 0)).1
    rw [← gateChangeOp_due hroom hr ht] at hgs hcore hports
    refine ⟨_, cmd_ok (i := .gateChange list) (f := fun s => gateChangeOp s list) s hlist, ?_, ?_, hcore, hports⟩
    · show _ ∈ (gateChangeOp s list).time.gates
      rw [hgs]
      exact List.mem_map.2 ⟨r, (runOf_mem hr).1, if_pos rfl⟩
    · show (gateChangeOp s list).time.gates.length = _
      rw [hgs, List.length_map]
  case take =>
    intro p v hp hpend hc hg hs hheld
    obtain ⟨t, hstep, hcore, hports⟩ := step_takes_gates hp hpend hc hg hs hheld
    refine ⟨t, hstep, hcore, ?_, fun x hx => ?_⟩
    · rw [portOf, hports, kgetD_kset_same]
    · rw [portOf, hports, kgetD_kset_ne _ _ _ hx]; rfl

end Sys2Proof.Machine
end

section
/-!
PROOFS. What every command keeps of the fuse array, the MRAM, the flash and the cold segments, said by the form of its
meaning (03_deck.md R51, R59; 15_zatas_control_protocol.md R341; 17_reset_power_and_kitty.md R388, R391, R403 to R405).
-/
namespace Sys2Proof.Machine

open Sys2Proof

/-! ## The three forms of a meaning -/

/-- The form of a command's meaning: of the running part, of a deck's application or an L3, of a power-up, reset or save. -/
inductive CmdForm
  | running | deck | power

/-- The wrapper of Machine/Cmd.lean that a form names. -/
def CmdForm.run : CmdForm → Instr → State → (State → State) → Host.Outcome State Fault Refusal
  | .running => cmd
  | .deck => cmdDeck
  | .power => cmdBig

/-- The form of each command's meaning. -/
def formOf : Instr → CmdForm
  | .powerOnReset _ | .pinReset _ | .hostWdogExpire _ | .debugReset _ _ | .l2Reset _ | .clockBad _ _ | .railFail _ _
  | .kittySave _ _ => .power
  | .dealCommitRedeal _ _ | .resetReqL3 _ | .l3Reset | .watchdogFire _ _ | .frameExecute _ => .deck
  | _ => .running

theorem exec_formOf (c : Instr) (s : State) : ∃ f, exec c s = (formOf c).run c s f := by
  cases c <;> exact ⟨_, rfl⟩

/-! ## The power commands keep the form of the fuse array and the MRAM -/

section PowerOps
variable {s : State} {f : PowerOnFacts} (hf : okFuses f.fuses = true) (h : romOk s)
include hf h

theorem romOk_powerOn : romOk (powerOn s f) := by
  unfold powerOn
  split
  · exact romOk_sequence _ _ _ hf h
  · exact h

theorem romOk_pinOp : romOk (pinOp s f) := by
  unfold pinOp
  split
  · exact h
  · exact romOk_l2From _ _ _ hf h

theorem romOk_wdogOp : romOk (wdogOp s f) := by
  unfold wdogOp
  split
  · exact h
  · split
    · exact romOk_keep _ _ h
    · exact romOk_l2From _ _ _ hf h

theorem romOk_debugOp (toL2 : Bool) : romOk (debugOp s toL2 f) := by
  cases toL2 with
  | true => exact romOk_l2From _ _ _ hf h
  | false => exact romOk_keep _ _ h

theorem romOk_l2Op : romOk (l2Op s f) := by
  unfold l2Op
  split
  · exact romOk_sequence _ _ _ hf (romOk_l2 _ _ h)
  · exact romOk_l2From _ _ _ hf (romOk_set h rfl rfl)

theorem romOk_clockBadOp (c : Nat) : romOk (clockBadOp s c f) := by
  unfold clockBadOp
  split
  · exact h
  · dsimp only
    split
    · exact romOk_l2From _ _ _ hf (romOk_set h rfl rfl)
    · exact romOk_keep _ _ (romOk_set h rfl rfl)

end PowerOps

theorem romOk_railOp {s : State} (h : romOk s) (r : Rail) : romOk (railOp s r) := by
  unfold railOp
  dsimp only
  split <;> exact h

theorem romOk_saveOp {s : State} (h : romOk s) (t : SaveTrigger) (micros : Nat) : romOk (saveOp s t micros) := by
  unfold saveOp
  split
  · exact romOk_l1 _ _ (romOk_save _ _ _ h)
  · exact h

theorem okFacts_fuses {f : PowerOnFacts} (h : okFacts f = true) : okFuses f.fuses = true := by
  simp only [okFacts, Bool.and_eq_true] at h
  obtain ⟨⟨hfuses, -⟩, -⟩ := h
  exact hfuses

/-- A power-up, a reset or a save in range keeps the form of what it writes of the stores. -/
theorem exec_power_stores {c : Instr} {s t : State} (hc : formOf c = .power) (he : exec c s = .next t) (h : s.stores) : t.stores := by
  have ⟨_, hmram, hfuses⟩ := h
  have hrom : romOk s := ⟨hfuses, hmram⟩
  cases c <;> cases hc
  case powerOnReset f =>
    exact cmdBig_stores (i := .powerOnReset f) (f := fun s => powerOn s f) he h fun w => romOk_powerOn (okFacts_fuses w) hrom
  case pinReset f =>
    exact cmdBig_stores (i := .pinReset f) (f := fun s => pinOp s f) he h fun w => romOk_pinOp (okFacts_fuses w) hrom
  case hostWdogExpire f =>
    exact cmdBig_stores (i := .hostWdogExpire f) (f := fun s => wdogOp s f) he h fun w => romOk_wdogOp (okFacts_fuses w) hrom
  case debugReset toL2 f =>
    exact cmdBig_stores (i := .debugReset toL2 f) (f := fun s => debugOp s toL2 f) he h
      fun w => romOk_debugOp (okFacts_fuses w) hrom toL2
  case l2Reset f =>
    exact cmdBig_stores (i := .l2Reset f) (f := fun s => l2Op s f) he h fun w => romOk_l2Op (okFacts_fuses w) hrom
  case clockBad k f =>
    exact cmdBig_stores (i := .clockBad k f) (f := fun s => clockBadOp s k f) he h
      fun w => romOk_clockBadOp (okFacts_fuses (Bool.and_eq_true_iff.1 w).2) hrom k
  case railFail r p =>
    exact cmdBig_stores (i := .railFail r p) (f := fun s => railOp s r) he h fun _ => romOk_railOp hrom r
  case kittySave tr us =>
    exact cmdBig_stores (i := .kittySave tr us) (f := fun s => saveOp s tr us) he h fun _ => romOk_saveOp hrom tr us

/-- Every command keeps the form of flash, MRAM and fuse array. -/
theorem exec_stores {c : Instr} {s t : State} (he : exec c s = .next t) (h : s.stores) : t.stores := by
  obtain ⟨f, e⟩ := exec_formOf c s
  cases hc : formOf c with
  | running => rw [e, hc] at he; exact cmd_stores he h
  | deck => rw [e, hc] at he; exact cmdDeck_stores he h
  | power => exact exec_power_stores hc he h

/-- A clk on an empty queue leaves the stores as they were. -/
theorem step_empty_stores {s t : State} (hp : s.pending = []) (he : step s = .next t) (h : s.stores) : t.stores := by
  obtain ⟨v, hstep, u, hu, rfl⟩ := step_clk hp
  rw [hstep] at he
  injection he with he
  subst he
  have htick : (tick u).flash = u.flash ∧ (tick u).mram = u.mram ∧ (tick u).fuses = u.fuses := by
    unfold tick
    dsimp only
    split
    · exact ⟨rfl, rfl, rfl⟩
    · split <;> exact ⟨rfl, rfl, rfl⟩
  obtain ⟨hflash, hmram, hfuses⟩ := htick
  show (tick u).flash.wf = true ∧ (tick u).mram.wf = true ∧ okFuses (tick u).fuses = true
  unfold SameButObs at hu
  rw [hflash, hmram, hfuses, hu]
  exact h

/-- Settles O6: a clk leaves the stores alone, and each form of a command keeps their form. -/
theorem theStoresKeepTheirForm : Obligations.TheStoresKeepTheirForm := by
  unfold Obligations.TheStoresKeepTheirForm
  intro s t h he
  cases hp : s.pending with
  | nil => exact step_empty_stores hp he h
  | cons c rest =>
    have hrun : step s = exec c { s with pending := rest } := by unfold step; rw [hp]
    exact exec_stores (s := { s with pending := rest }) (hrun.symm.trans he) h

/-- Settles O7: the memories are empty at reset, and no fuse is programmed. -/
theorem theStoresHaveTheirFormAtReset : Obligations.TheStoresHaveTheirFormAtReset := by
  unfold Obligations.TheStoresHaveTheirFormAtReset
  exact ⟨Mem.wf_nil, Mem.wf_nil, by decide⟩

/-- Settles O4: a command of the running part keeps them all, and a deck's application all but the cold segments. -/
theorem storesOutsideTheRunningPartAreKept : Obligations.StoresOutsideTheRunningPartAreKept := by
  unfold Obligations.StoresOutsideTheRunningPartAreKept
  intro c s t he
  obtain ⟨f, e⟩ := exec_formOf c s
  cases hc : formOf c with
  | running =>
    rw [e, hc] at he
    obtain ⟨-, -, hfuses, -, hmram, hcold⟩ := cmd_keeps he
    exact ⟨fun _ => ⟨hfuses, hmram⟩, fun _ => hcold⟩
  | deck =>
    rw [e, hc] at he
    obtain ⟨-, -, hfuses, -, hmram⟩ := cmdDeck_keeps he
    exact ⟨fun _ => ⟨hfuses, hmram⟩, fun hne => by cases c <;> cases hc <;> cases hne⟩
  | power => constructor <;> intro hne <;> cases c <;> cases hc <;> cases hne

end Sys2Proof.Machine
end

section
/-!
PROOFS. DEAL into the staging area (03_deck.md R53, R54; 15_zatas_control_protocol.md R352).
-/
namespace Sys2Proof.Machine

open Sys2Proof

/-- What an access of the window leaves alone of the deck and of the sessions. -/
theorem SameButWin.deckFields {s t : State} (h : SameButWin s t) :
    t.deck = s.deck ∧ t.sent = s.sent ∧ t.zat = s.zat ∧ t.cold = s.cold ∧ t.hot0 = s.hot0 ∧ t.hot1 = s.hot1 := by
  unfold SameButWin at h
  rw [h]
  exact ⟨rfl, rfl, rfl, rfl, rfl, rfl⟩

/-- Requests to the controller leave the bytes of the window alone. -/
theorem SameButHbm.sameWindow {s t : State} (h : SameButHbm s t) : t.hbm = s.hbm := by
  unfold SameButHbm at h
  rw [h]

section Deal
variable {s t : State} {n o st : Nat} {data : List Byte}

/-- A DEAL that completes leaves its effect and its answer. -/
theorem exec_deal (h : ready s n 0) (ho : o < 2 ^ 48) (he : opDeal s n ⟨0x20, 0, o, data⟩ = .done st o [] t)
    (hk : keepFixed s t = t) (hz : t.zat.sessions = s.zat.sessions) :
    exec (.deal n o data) s = .next (answer t n 0x20 o st []) :=
  cmd_run (ready_wf h ho) (direct_done h.2.1 he hz) (keepFixed_answer hk _ _ _ _ _)

theorem opDeal_privilege (hl : levelOf s n < 3) : opDeal s n ⟨0x20, 0, o, data⟩ = .done stPrivilege o [] s := by
  unfold opDeal gate
  exact if_pos hl

theorem opDeal_malformed (hl : 3 ≤ levelOf s n) (hd : data.length < 8 ∨ 8192 < data.length) :
    opDeal s n ⟨0x20, 0, o, data⟩ = .done stMalformed o [] s := by
  have hwf : (decide (8 ≤ data.length) && decide (data.length ≤ 8192)) = false := by simp; omega
  simp [opDeal, gate, Nat.not_lt.2 hl, hwf, Ran.fail]

/-- A DEAL of a level and a length in range: what its further checks decide, in their order (assumption 32). -/
theorem opDeal_checks (hl : 3 ≤ levelOf s n) (h8 : 8 ≤ data.length) (hmax : data.length ≤ 8192) :
    opDeal s n ⟨0x20, 0, o, data⟩ =
      if portRefused s n || dealBusy s || otherOwner s n then .done stBusy o [] s
      else if o % 8 ≠ 0 ∨ data.length % 8 ≠ 0 ∨ 2 ^ 25 < o + data.length then .done stAddress o [] s
      else .done stOk o [] (hbmWrite { s with deck := { s.deck with stagedOk := false, owner := some n } } (zatSource s n)
        (deckArea s true + o) data) := by
  have hwf : (decide (8 ≤ data.length) && decide (data.length ≤ 8192)) = true := by simp [h8, hmax]
  unfold opDeal gate
  rw [if_neg (Nat.not_lt.2 hl), if_pos hwf]
  simp only [Bool.or_eq_true, decide_eq_true_eq, or_assoc]
  rfl

end Deal

/-- Settles O29: each check of the operation in its order, and what its write of the window leaves. -/
theorem dealWritesTheStagingArea : Obligations.DealWritesTheStagingArea := by
  unfold Obligations.DealWritesTheStagingArea
  intro s n o data h ho
  refine ⟨fun hl => exec_deal h ho (opDeal_privilege hl) rfl rfl, fun hl =>
    ⟨fun hd => exec_deal h ho (opDeal_malformed hl hd) rfl rfl, fun h8 hmax => ?_⟩⟩
  have hop := opDeal_checks (o := o) hl h8 hmax
  refine ⟨fun hbusy => ?busy, fun hport hdeal hown => ?_⟩
  case busy =>
    rw [if_pos (by simpa [or_assoc] using hbusy)] at hop
    exact exec_deal h ho hop rfl rfl
  rw [if_neg (by simp [hport, hdeal, hown])] at hop
  refine ⟨fun haddr => ?address, fun h1 h2 h3 => ?written⟩
  case address =>
    rw [if_pos haddr] at hop
    exact exec_deal h ho hop rfl rfl
  case written =>
    rw [if_neg (by omega)] at hop
    have hw := SameButWin.hbmWrite { s with deck := { s.deck with stagedOk := false, owner := some n } } (zatSource s n)
      (deckArea s true + o) data
    have hk := keepFixed_win hw
    obtain ⟨hdk, hsent, hzat, hcold, hhot0, hhot1⟩ := hw.deckFields
    exact ⟨_, exec_deal h ho hop hk hw.sessions, memRead_hbmWrite .., hdk,
      fun a ha => memGet_hbmWrite_out _ _ _ _ ha, congrArg (· ++ _) hsent, hzat, hcold, hhot0, hhot1⟩

end Sys2Proof.Machine
end

section
/-!
PROOFS. The release of a held pipeline, the epoch switch and the retirement of the old slot (03_deck.md R59, R61 to R65;
06_intake_parser.md R135; 15_zatas_control_protocol.md R352, R356).
-/
namespace Sys2Proof.Machine

open Sys2Proof

/-! ## Waiting transactions that complete -/

/-- A transaction given as a command of its own answers when its wait ends. -/
theorem finishWait_direct {s : State} {id n : Nat} {x : Txn} {w : WaitFor} (h : kget s.zat.waits id = some ⟨n, true, x, w⟩)
    (st a : Nat) (d : List Byte) :
    finishWait s id st a d = { s with zat := { s.zat with waits := kdel s.zat.waits id },
                                      sent := s.sent ++ [.response n (txnRes x st a d)] } := by
  unfold finishWait
  rw [h]
  rfl

/-- The end of a wait touches the sessions, the waiting transactions and what has left the part alone. -/
theorem finishWait_frame (s : State) (id st a : Nat) (d : List Byte) :
    ∃ z o, finishWait s id st a d = { s with zat := z, sent := o } := by
  unfold finishWait
  split
  · exact ⟨s.zat, s.sent, rfl⟩
  · dsimp only
    split
    · exact ⟨_, _, rfl⟩
    · split
      · split <;> exact ⟨_, s.sent, rfl⟩
      · exact ⟨_, s.sent, rfl⟩

theorem kget_one {α : Type} (k : Nat) (v : α) : kget [(k, v)] k = some v := if_pos rfl
theorem kdel_one {α : Type} (k : Nat) (v : α) : kdel [(k, v)] k = [] := if_pos rfl

/-! ## The release of the pipeline -/

/-- DECK.STATUS of a redeal reads ACTIVE from the release on. -/
def releasedDeck (d : Deck) : Deck := { d with phase := if d.phase = .redealing then .active else d.phase }

/-- The release with one transaction that waits for it. -/
theorem releasePipe_one {s : State} {n w : Nat} {x : Txn} (h : s.zat.waits = [(w, ⟨n, true, x, .release⟩)]) :
    releasePipe s = { s with
      deck := releasedDeck s.deck, zat := { s.zat with waits := [] },
      sent := s.sent ++ [.response n (txnRes x stOk x.addr
        (if x.op = 0x21 then toBytes 8 (deckStatusReg { s with deck := releasedDeck s.deck }) else []))] } := by
  have hfin := finishWait_direct (s := { s with deck := releasedDeck s.deck }) (id := w) (n := n) (x := x) (w := .release)
    (by rw [h]; exact kget_one w _) stOk x.addr
    (if x.op = 0x21 then toBytes 8 (deckStatusReg { s with deck := releasedDeck s.deck }) else [])
  have hdel : kdel s.zat.waits w = [] := by rw [h]; exact kdel_one w _
  dsimp only at hfin
  rw [hdel] at hfin
  unfold releasePipe
  dsimp only
  rw [h]
  exact (congrArg (fun u => resumeInjects (finishFolds u)) hfin).trans rfl

/-- With no message waiting, no gate change on its way and no second ending, a clk of the time unit does nothing. -/
theorem timeTick_idle {v : State} (hc : v.coreTime = []) (hg : v.time.genDue = []) (hs : ¬ v.clk % 1600000000 = 0) :
    timeTick v = v := by
  have htake : takeCoreTime v = v := by
    unfold takeCoreTime
    rw [hc, List.foldl_nil, ← hc]
  rw [timeTick_takes (by rw [htake]; exact hg) (by rw [htake]; exact hs), htake]

/-- A clk's count changes the clock, the timebase and the crossing queues alone. -/
theorem tick_only (u : State) : tick u = { u with clk := u.clk + 1, xq := [], time := (tick u).time } := by
  unfold tick
  dsimp only
  split
  · rfl
  · split <;> rfl

/-- Settles O33: on the clk of the release, what waited answers, and the time unit has nothing to do. -/
theorem theReleaseOfThePipelineAnswersWhatWaitedForIt : Obligations.TheReleaseOfThePipelineAnswersWhatWaitedForIt := by
  unfold Obligations.TheReleaseOfThePipelineAnswersWhatWaitedForIt
  intro s n w x hpend hheld hcore hgen hsec hwaits hx
  obtain ⟨v, hstep, u, hu, rfl⟩ := step_clk hpend
  rw [if_pos hheld.symm] at hstep
  obtain ⟨-, -, -, hgenTick⟩ := tick_frame u
  have htick := tick_only u
  unfold SameButObs at hu
  obtain ⟨v, hv⟩ : ∃ v, v = tick u := ⟨_, rfl⟩
  rw [← hv] at hstep hgenTick htick
  have hrel := releasePipe_one (s := v) (n := n) (w := w) (x := x) (by rw [htick, hu]; exact hwaits)
  have hidle : timeTick (releasePipe v) = releasePipe v := by
    refine timeTick_idle ?_ ?_ ?_ <;> rw [hrel]
    · show v.coreTime = []
      rw [htick, hu]; exact hcore
    · show v.time.genDue = []
      rw [hgenTick, hu]; exact hgen
    · show ¬ v.clk % 1600000000 = 0
      rw [htick, hu]; exact hsec
  rw [hidle, hrel] at hstep
  have hop : (x.op = 0x21) = (x = commitTxn 0 2) := by
    rcases hx with rfl | rfl <;> simp [commitTxn]
  refine ⟨_, hstep, ?_, ?_, rfl, ?_, ?_, ?_⟩
  · show v.clk = s.clk + 1
    rw [htick, hu]
  · show decide (v.clk < v.rst.heldTill) = false
    rw [htick, hu]
    simp [hheld]
  · show releasedDeck v.deck = _
    rw [htick, hu]; rfl
  · show v.sent ++ _ = _
    simp only [hop]
    rw [htick, hu]; rfl
  · show v.tricks = _ ∧ v.pkts = _ ∧ v.suits = _ ∧ v.rb = _ ∧ v.cold = _ ∧ v.rst = _
    rw [htick, hu]
    exact ⟨rfl, rfl, rfl, rfl, rfl, rfl⟩

/-! ## The epoch switch -/

/-- The deck's own state after the switch to the load `h` (R61). -/
def switchedDeck (s : State) (h : HotLoad) : Deck :=
  { s.deck with phase := .retiring, retiring := true, switchClk := s.clk, current := !s.deck.current,
                upperActive := !s.deck.upperActive, number := h.number, deckId := h.deckId,
                source := sourceCode h.source, commits := (s.deck.commits + 1) % 65536, stagedOk := false,
                owner := none, hot := none }

/-- The part after the switch, before the waiting commits are answered. -/
def switched (s : State) (h : HotLoad) : State :=
  kittyIdentity (capBuckets (startGates s { s with deck := switchedDeck s h } (curSlot s) (!curSlot s) true) (!curSlot s))

theorem switchOp_pending {s : State} {h : HotLoad} (hp : s.deck.phase = .hotPending) (hh : s.deck.hot = some h) :
    switchOp s = finishHot (switched s h) := by
  unfold switchOp
  rw [hp, hh]
  rfl

theorem switchOp_other {s : State} (hp : s.deck.phase ≠ .hotPending) : switchOp s = s := by
  unfold switchOp
  split
  · exact absurd ‹_› hp
  · rfl

/-- The switch changes the deck's state, the buckets, gates and marks, and the kitty's identity area. -/
theorem switched_frame (s : State) (h : HotLoad) : ∃ x y p c k, switched s h = { s with
    deck := switchedDeck s h, time := x, sets := y, ports := p, coreTime := c, kitty := k,
    buckets := kmap s.buckets fun r b => (min b.1 (exceptF s (!curSlot s) r 6 1 * tokenUnit), b.2) } := by
  obtain ⟨x, y, p, c, e⟩ := startGates_frame s { s with deck := switchedDeck s h } (curSlot s) (!curSlot s) true
  unfold switched
  rw [e]
  exact ⟨x, y, p, c, _, rfl⟩

/-- The answers of the waiting commits touch the sessions, the waiting transactions and what has left the part alone. -/
theorem finishHot_frame (s : State) : ∃ z o, finishHot s = { s with zat := z, sent := o } := by
  unfold finishHot
  generalize s.zat.waits.filter (fun e => e.2.what == .hot) = l
  induction l generalizing s with
  | nil => exact ⟨s.zat, s.sent, rfl⟩
  | cons e l ih =>
    obtain ⟨z, o, h⟩ := finishWait_frame s e.1 stOk e.2.txn.addr (toBytes 8 (deckStatusReg s))
    rw [List.foldl_cons, h]
    exact ih { s with zat := z, sent := o }

theorem finishHot_one {s : State} {id m : Nat} {x : Txn} (h : s.zat.waits = [(id, ⟨m, true, x, .hot⟩)]) :
    finishHot s = { s with zat := { s.zat with waits := [] },
                           sent := s.sent ++ [.response m (txnRes x stOk x.addr (toBytes 8 (deckStatusReg s)))] } := by
  have hdel : kdel s.zat.waits id = [] := by rw [h]; exact kdel_one id _
  unfold finishHot
  rw [h]
  refine (finishWait_direct (by rw [h]; exact kget_one id _) ..).trans ?_
  rw [hdel]

/-! ## The retirement of the old slot -/

/-- Where no service trick of the slot is short of its COMMIT, no trick restarts (R63). -/
theorem retireTricks_none {s : State} {e : Bool}
    (h : ∀ x ∈ s.tricks, 224 ≤ x.1 / 256 → x.2.slot = e → x.2.committed = true) :
    ∃ d, retireTricks s e = { s with displaced := d } := by
  have hnone : (s.tricks.filter fun x => 224 ≤ x.1 / 256 && x.2.slot == e && !x.2.committed) = [] := by
    rw [List.filter_eq_nil_iff]
    intro x hx
    have := h x hx
    simp only [Bool.and_eq_true, decide_eq_true_eq, beq_iff_eq, Bool.not_eq_true', not_and, Bool.not_eq_false]
    exact fun hx => this hx.1 hx.2
  unfold retireTricks
  dsimp only
  rw [hnone]
  exact ⟨_, rfl⟩

theorem retireOp_busy {s : State} (h : slotBusy s (!curSlot s) = true) : retireOp s = s := by
  simp [retireOp, h]

/-- The retirement of slot `e`, where no trick restarts. -/
theorem retireOp_frees {s : State} {e : Bool} (he : e = !curSlot s) (hp : s.deck.phase = .retiring)
    (hb : slotBusy s e = false) (h : ∀ x ∈ s.tricks, 224 ≤ x.1 / 256 → x.2.slot = e → x.2.committed = true) :
    ∃ d, retireOp s = { s with
      displaced := d, deck := { s.deck with phase := .active, retiring := false },
      rows := kfilter (kmap s.rows fun _ r => setV r e false) fun _ r => r.v0 || r.v1,
      hot0 := if e then s.hot0 else [], hot1 := if e then [] else s.hot1 } := by
  obtain ⟨d, ht⟩ := retireTricks_none h
  refine ⟨d, ?_⟩
  unfold retireOp
  dsimp only
  rw [← he, hp, hb, if_pos (by decide), ht]
  cases e <;> rfl

/-- Settles O31: the switch by its frame, and the retirement of a slot that nothing is of. -/
theorem epochsSwitchInOneStepAndRetireWhenEmpty : Obligations.EpochsSwitchInOneStepAndRetireWhenEmpty := by
  unfold Obligations.EpochsSwitchInOneStepAndRetireWhenEmpty
  intro s
  refine ⟨fun h hp hh => ?switch, fun hp => ?other, fun e he hp hb ht => ?retire, fun hp hb => ?busy⟩
  case switch =>
    obtain ⟨x, y, p, c, k, hw⟩ := switched_frame s h
    obtain ⟨z, o, hf⟩ := finishHot_frame (switched s h)
    have hop := (switchOp_pending hp hh).trans hf
    rw [hw] at hop
    refine ⟨_, cmd_run (i := .epochSwitch) rfl hop rfl, rfl, rfl, rfl, rfl, rfl, rfl, rfl, fun id m x hx => ?_⟩
    have hone := hf.symm.trans (finishHot_one (s := switched s h) (id := id) (m := m) (x := x) (by rw [hw]; exact hx))
    rw [hw] at hone
    exact ⟨congrArg (·.zat.waits) hone, congrArg (·.sent) hone⟩
  case other => exact cmd_run (i := .epochSwitch) rfl (switchOp_other hp) rfl
  case retire =>
    obtain ⟨d, hop⟩ := retireOp_frees he hp hb ht
    refine ⟨_, cmd_run (i := .epochRetire) rfl hop rfl, rfl, rfl, ?_, rfl⟩
    cases e <;> exact ⟨rfl, rfl⟩
  case busy => exact cmd_run (i := .epochRetire) rfl (retireOp_busy hb) rfl

end Sys2Proof.Machine
end

section
/-!
PROOFS. DEAL_COMMIT by source and mode: what each way to its end leaves of the deck, the slots, the waiting transactions and
the answer (03_deck.md R55 to R61; 15_zatas_control_protocol.md R352).
-/
namespace Sys2Proof.Machine

open Sys2Proof

/-! ## What a DEAL_COMMIT runs -/

theorem commitTxn_fields : ∀ src < 4, ∀ k < 3, fld (commitTxn src k).data 0 1 = src ∧ fld (commitTxn src k).data 1 1 = k
    ∧ zeroed (commitTxn src k).data 2 8 = true := by decide

/-- The checks that a DEAL_COMMIT passes before it reads an image (R55, R56, R352). -/
def commitAllowed (s : State) (n src k : Nat) : Prop :=
  ready s n 3 ∧ src < 4 ∧ k < 3 ∧ portRefused s n = false ∧ dealBusy s = false
  ∧ (src = 1 → k = 2 ∧ hasDeck s = true) ∧ (src ≠ 1 → otherOwner s n = false)

/-- An allowed DEAL_COMMIT: its staging fails, its image fails, or its mode runs on the image. -/
theorem opCommit_allowed {s : State} {n src k : Nat} (h : commitAllowed s n src k) :
    (∀ w f, stage s n src = (some f, w) → opCommit s n (commitTxn src k) = rejected w n (commitTxn src k) src f)
    ∧ ∀ w u x, stage s n src = (none, w) →
      loadImage w (deckArea w (src ≠ 1)) (src = 1 || (src = 0 && w.deck.stagedOk)) = (u, x) →
      (∀ f, x = .error f → opCommit s n (commitTxn src k) = rejected u n (commitTxn src k) src f)
      ∧ ∀ i, x = .ok i → opCommit s n (commitTxn src k) = commitMode u n (commitTxn src k) src k i := by
  obtain ⟨⟨-, -, hl⟩, hsrc, hk, hport, hbusy, hactive, hown⟩ := h
  obtain ⟨hfs, hfk, hz⟩ := commitTxn_fields src hsrc k hk
  have hwf : ((commitTxn src k).addr == 0 && (commitTxn src k).data.length == 8 && decide (src < 4) && decide (k < 3)
      && true && (src != 1 || k == 2)) = true := by
    by_cases h1 : src = 1 <;> simp [commitTxn, hsrc, hk, h1, hactive]
  have hfree : (portRefused s n || dealBusy s || (decide (src ≠ 1) && otherOwner s n)) = false := by
    by_cases h1 : src = 1 <;> simp [hport, hbusy, h1, hown]
  have hdeck : ¬ ((decide (src = 1) && !hasDeck s) = true) := by
    by_cases h1 : src = 1 <;> simp [h1, hactive]
  unfold opCommit gate
  dsimp only
  rw [hfs, hfk, hz, if_neg (Nat.not_lt.2 hl), if_pos hwf, if_neg (by rw [hfree]; decide), if_neg hdeck]
  refine ⟨fun w f hs => by rw [hs], fun w u x hs hx => ?_⟩
  rw [hs]
  dsimp only
  rw [hx]
  exact ⟨fun f hf => by rw [hf], fun i hi => by rw [hi]⟩

/-- The part with the staging area taken by session `n` for a flash read that has been drawn (R56; assumption 32). -/
def flashTaken (s : State) (n : Nat) : State :=
  { s with deck := { s.deck with stagedOk := false, owner := some n }, fresh := s.fresh + 1 }

/-- No other session owns the staging area: nobody does, or the session itself. -/
theorem owner_free {s : State} {n : Nat} (h : otherOwner s n = false) : s.deck.owner = none ∨ s.deck.owner = some n := by
  unfold otherOwner at h
  cases ho : s.deck.owner with
  | none => exact .inl rfl
  | some m => rw [ho] at h; exact .inr (congrArg some (by simpa using h))

theorem owner_released {s : State} {n : Nat} (h : otherOwner s n = false) :
    (if s.deck.owner = some n then none else s.deck.owner) = none := by
  rcases owner_free h with ho | ho <;> simp [ho]

theorem stage_flash {s : State} {n src : Nat} (h2 : 2 ≤ src) (ho : otherOwner s n = false) :
    stage s n src = if flashFails s then (some (failOf 0x18), flashTaken s n) else (none, copyFlash (flashTaken s n) src) := by
  have hstage : stage s n src
      = if (draw s).1 % 2 = 1 then (some (failOf 0x18), flashTaken s n) else (none, copyFlash (flashTaken s n) src) := by
    unfold stage
    rw [if_pos h2]
    rcases owner_free ho with ho | ho <;> rw [ho] <;> rfl
  simp only [hstage, flashFails, beq_iff_eq]

/-! ## What a session's transaction leaves when it completes or waits -/

theorem direct_waits {s t : State} {n : Nat} {x : Txn} {w : WaitFor} {f : State → Nat → Txn → Ran} (ho : isOpen s n = true)
    (hf : f s n x = .waits w t) : direct s n x f = (keepWait t n true x w).2 := by
  simp [direct, ho, hf]

/-- A session that its own operation closed is sent nothing (R356, R359). -/
theorem direct_closed {s t : State} {n st a : Nat} {x : Txn} {d : List Byte} {f : State → Nat → Txn → Ran} (ho : isOpen s n = true)
    (hf : f s n x = .done st a d t) (hc : isOpen t n = false) : direct s n x f = t := by
  simp [direct, ho, hf, hc]

theorem keepStores_of_keepFixed {s t : State} (h : keepFixed s t = t) : keepStores s t = t := by
  obtain ⟨h1, h2, h3, h4, h5, -⟩ := keepFixed_fields h
  unfold keepStores
  rw [← h1, ← h2, ← h3, ← h4, ← h5]

/-! ## The end of a commit, by frames

`u` is what the reads of the commit left of `s`, with the deck's own state `d` that its staging had made. -/

theorem release_frame (s : State) (n : Nat) : release s n = { s with
    deck := { s.deck with owner := if s.deck.owner = some n then none else s.deck.owner } } := by
  unfold release
  split <;> rfl

/-- What every command of the running part keeps, through accesses of the window. -/
theorem SameButWin.fixed {s u : State} {d : Deck} (h : SameButWin { s with deck := d } u) : u.pending = s.pending
    ∧ u.clk = s.clk ∧ u.fuses = s.fuses ∧ u.flash = s.flash ∧ u.mram = s.mram ∧ u.cold = s.cold := by
  have hk := keepFixed_win h
  exact keepFixed_fields hk

section Ends
variable {s u : State} {d : Deck} {n src k : Nat}

/-- The deck's own state after a failed commit (R56, R58). -/
def failedDeck (d : Deck) (n src : Nat) (f : FailRec) : Deck :=
  { d with fail := { f with source := if f.source = 3 then 3 else commitFrom src }, failSticky := true,
           owner := if d.owner = some n then none else d.owner }

/-- A commit that failed: its record stands in DECK.FAIL and in its answer, and the deck is as it was. -/
structure FailedCommit (s t : State) (d : Deck) (n src : Nat) (f : FailRec) : Prop where
  kept : keepFixed s t = t
  deck : t.deck = failedDeck d n src f
  sent : t.sent = s.sent ++ [.response n ⟨0x21, 0, stRejected, 0, toBytes 8 (failReg t)⟩]
  hot0 : t.hot0 = s.hot0
  hot1 : t.hot1 = s.hot1

theorem rejected_ends {f : FailRec} (ho : isOpen s n = true) (hu : SameButWin { s with deck := d } u)
    (hop : opCommit s n (commitTxn src k) = rejected u n (commitTxn src k) src f) :
    FailedCommit s (direct s n (commitTxn src k) opCommit) d n src f := by
  obtain ⟨hdeck, hsent, hzat, -, hhot0, hhot1⟩ := hu.deckFields
  unfold rejected at hop
  rw [release_frame] at hop
  rw [direct_done ho hop (congrArg (·.sessions) hzat)]
  refine ⟨keepFixed_of hu.fixed, ?_, ?_, hhot0, hhot1⟩
  · show failedDeck u.deck n src f = _
    rw [hdeck]
  · exact congrArg (· ++ _) hsent

/-- A VERIFY that passed: the area counts as verified and is released, and DECK.STATUS is the answer. -/
structure VerifiedCommit (s u t : State) (d : Deck) (n : Nat) : Prop where
  kept : keepFixed s t = t
  deck : t.deck = { d with stagedOk := true, owner := if d.owner = some n then none else d.owner }
  sent : t.sent = s.sent ++ [.response n ⟨0x21, 0, stOk, 0, toBytes 8 (deckStatusReg t)⟩]
  hbm  : t.hbm = u.hbm
  hot0 : t.hot0 = s.hot0
  hot1 : t.hot1 = s.hot1

theorem verify_ends {i : Img} (ho : isOpen s n = true) (hu : SameButWin { s with deck := d } u)
    (hop : opCommit s n (commitTxn src 0) = commitMode u n (commitTxn src 0) src 0 i) :
    VerifiedCommit s u (direct s n (commitTxn src 0) opCommit) d n := by
  obtain ⟨hdeck, hsent, hzat, -, hhot0, hhot1⟩ := hu.deckFields
  unfold commitMode accepted at hop
  rw [release_frame] at hop
  rw [direct_done ho hop (congrArg (·.sessions) hzat)]
  refine ⟨keepFixed_of hu.fixed, ?_, congrArg (· ++ _) hsent, rfl, hhot0, hhot1⟩
  show { u.deck with stagedOk := true, owner := if u.deck.owner = some n then none else u.deck.owner } = _
  rw [hdeck]

/-! ### HOT: the other slot is loaded -/

/-- The part but for its match rows. -/
def noRows (s : State) : State := { s with rows := [] }

theorem noRows_hotRows (s : State) (i : Img) : noRows (hotRows s i) = noRows s := by
  unfold hotRows
  dsimp only
  refine (foldl_keeps noRows (fun t x => ?_) _ _).trans ?_
  · split
    · split <;> rfl
    · rfl
  · split <;> rfl

/-- Placing the rows of a hot commit changes the match rows alone (R65). -/
theorem hotRows_frame (s : State) (i : Img) : hotRows s i = { s with rows := (hotRows s i).rows } :=
  congrArg (fun u : State => { u with rows := (hotRows s i).rows }) (noRows_hotRows s i)

/-- The load of a hot commit fills the slot that is not current, and the deck reads HOT_PENDING (R61). -/
theorem startHot_frame (s : State) (n c : Nat) (i : Img) : ∃ r h0 h1, startHot s n c i = { s with
      rows := r, hot0 := h0, hot1 := h1,
      deck := { s.deck with phase := .hotPending, hot := some ⟨n, c, fld i.hdr 0x18 4, fld i.hdr 0x10 8⟩ } }
    ∧ (curSlot s = false → h0 = s.hot0) ∧ (curSlot s = true → h1 = s.hot1) := by
  unfold startHot
  dsimp only
  rw [hotRows_frame]
  cases curSlot s with
  | false => exact ⟨_, s.hot0, _, rfl, fun _ => rfl, fun h => Bool.noConfusion h⟩
  | true => exact ⟨_, _, s.hot1, rfl, fun h => Bool.noConfusion h, fun _ => rfl⟩

/-- A HOT that passed: the other slot is loaded, and the transaction waits for the switch. -/
structure HotCommit (s t : State) (d : Deck) (n src : Nat) (i : Img) : Prop where
  kept : keepFixed s t = t
  deck : t.deck = { d with phase := .hotPending, hot := some ⟨n, commitFrom src, fld i.hdr 0x18 4, fld i.hdr 0x10 8⟩ }
  zat  : t.zat = { s.zat with waits := kset s.zat.waits s.zat.nextWait ⟨n, true, commitTxn src 1, .hot⟩,
                              nextWait := s.zat.nextWait + 1 }
  sent : t.sent = s.sent
  hot0 : d.current = false → t.hot0 = s.hot0
  hot1 : d.current = true → t.hot1 = s.hot1

theorem hot_ends {i : Img} (ho : isOpen s n = true) (hu : SameButWin { s with deck := d } u)
    (hop : opCommit s n (commitTxn src 1) = .waits .hot (startHot u n (commitFrom src) i)) :
    HotCommit s (direct s n (commitTxn src 1) opCommit) d n src i := by
  obtain ⟨hdeck, hsent, hzat, -, hhot0, hhot1⟩ := hu.deckFields
  obtain ⟨r, h0, h1, hframe, hk0, hk1⟩ := startHot_frame u n (commitFrom src) i
  have hcur : curSlot u = d.current := congrArg (·.current) hdeck
  rw [hcur] at hk0 hk1
  rw [hframe] at hop
  rw [direct_waits ho hop]
  refine ⟨keepFixed_of hu.fixed, ?_, ?_, hsent, fun h => (hk0 h).trans hhot0, fun h => (hk1 h).trans hhot1⟩
  · exact congrArg (fun x : Deck =>
      { x with phase := .hotPending, hot := some ⟨n, commitFrom src, fld i.hdr 0x18 4, fld i.hdr 0x10 8⟩ }) hdeck
  · exact congrArg (fun z : Zat =>
      { z with waits := kset z.waits z.nextWait ⟨n, true, commitTxn src 1, .hot⟩, nextWait := z.nextWait + 1 }) hzat

theorem commitMode_hot {v : State} {i : Img} {x : Txn} {o : Option FailRec} (h : hotFail u i = (v, o)) :
    (∀ f, o = some f → commitMode u n x src 1 i = rejected v n x src f)
    ∧ (o = none → commitMode u n x src 1 i = .waits .hot (startHot v n (commitFrom src) i)) := by
  unfold commitMode
  dsimp only
  rw [h]
  exact ⟨fun f hf => by rw [hf]; rfl, fun hn => by rw [hn]; rfl⟩

end Ends

/-! ### REDEAL: the deck is applied to an empty pipeline -/

/-- The part after a redeal of image `i` from source `c` (3: the active area): an empty pipeline under the image's cold
segments and identity, which reads REDEALING (R59, R60). -/
structure Redealt (t : State) (i : Img) (c : Nat) : Prop where
  core     : coreOf t = ([], [], [], [], [], [])
  cold     : t.cold = (i.segs.filter fun x => !isHotSeg x).foldl (fun m x => kset m x.ty x.body) []
  phase    : t.deck.phase = .redealing
  contract : t.deck.contract = coldF t tyContract 0 1
  number   : t.deck.number = fld i.hdr 0x18 4
  deckId   : t.deck.deckId = fld i.hdr 0x10 8
  current  : t.deck.current = false
  retiring : t.deck.retiring = false
  hot      : t.deck.hot = none
  dealt    : t.deck.dealt = true
  source   : c ≠ 3 → t.deck.source = sourceCode c
  stagedOk : c ≠ 3 → t.deck.stagedOk = false

/-- What a redeal leaves is read from the applied deck and the pipeline that it finds. -/
theorem Redealt.of_dealtOf {t v : State} {i : Img} {c : Nat} (h : Redealt t i c) (e : dealtOf v = dealtOf t) : Redealt v i c := by
  simp only [dealtOf, Prod.mk.injEq] at e
  obtain ⟨⟨e1, e2, e3, e4, e5, e6⟩, ecold, ephase, econtract, enumber, eid, ecurrent, eretiring, ehot, esource, edealt, estaged⟩ := e
  have hbody : coldF v tyContract 0 1 = coldF t tyContract 0 1 := by unfold coldF coldBody; rw [ecold]
  refine ⟨?_, ecold.trans h.cold, ephase.trans h.phase, ?_, enumber.trans h.number, eid.trans h.deckId, ecurrent.trans h.current,
    eretiring.trans h.retiring, ehot.trans h.hot, edealt.trans h.dealt, fun hc => esource.trans (h.source hc),
    fun hc => estaged.trans (h.stagedOk hc)⟩
  · unfold coreOf
    rw [e1, e2, e3, e4, e5, e6]
    exact h.core
  · rw [econtract, hbody]
    exact h.contract

theorem coreOf_l3Begin (s : State) : coreOf (l3Begin s) = ([], [], [], [], [], []) := rfl

/-- Every redeal leaves its deck on an empty pipeline. -/
theorem redealt_runRedeal (s : State) (i : Img) (c : Nat) : Redealt (runRedeal s i c) i c := by
  obtain ⟨a, ha, hcore, hcold, hphase, hcontract, hnumber, hid, hcurrent, hretiring, hhot, hsource, hdealt, hstaged⟩ :=
    dealtOf_redeal (l3Begin s) (curSlot s) i c
  obtain ⟨v, hv⟩ : ∃ v, v = applyRedeal (l3Begin s) (curSlot s) i c := ⟨_, rfl⟩
  rw [← hv] at ha
  have happlied : Redealt { a with deck := { a.deck with phase := .redealing } } i c :=
    ⟨hcore.trans (coreOf_l3Begin s), hcold, rfl, hcontract, hnumber, hid, hcurrent, hretiring, hhot, hdealt,
      fun hc => hsource.trans (if_neg hc), fun hc => hstaged.trans (by simp [hc])⟩
  have hhold : ∀ us x, dealtOf (holdPipe us x) = dealtOf x := fun _ _ => rfl
  refine happlied.of_dealtOf ?_
  unfold runRedeal
  dsimp only
  rw [hhold, ← hv]
  exact congrArg (fun d => (d.1, d.2.1, DeckPhase.redealing, d.2.2.2)) ha

/-- A redeal's transaction waits for the release, where its session is still open. -/
structure WaitingRedeal (t : State) (n src : Nat) : Prop where
  owner : t.deck.owner ≠ some n
  waits : (∃ w, kget t.zat.waits w = some ⟨n, true, commitTxn src 2, .release⟩) ∨ isOpen t n = false

theorem dealtOf_release (s : State) (n : Nat) : dealtOf (release s n) = dealtOf s := by
  rw [release_frame]
  rfl

theorem owner_release (s : State) (n : Nat) : (release s n).deck.owner ≠ some n := by
  rw [release_frame]
  show (if s.deck.owner = some n then none else s.deck.owner) ≠ some n
  split
  · exact (Option.some_ne_none n).symm
  · assumption

theorem redeal_ends {s u : State} {n src : Nat} {i : Img} (ho : isOpen s n = true)
    (hop : opCommit s n (commitTxn src 2) = commitMode u n (commitTxn src 2) src 2 i) :
    Redealt (direct s n (commitTxn src 2) opCommit) i (commitFrom src)
    ∧ WaitingRedeal (direct s n (commitTxn src 2) opCommit) n src := by
  obtain ⟨v, hv⟩ : ∃ v, v = release (runRedeal u i (commitFrom src)) n := ⟨_, rfl⟩
  have hredealt : Redealt v i (commitFrom src) :=
    (redealt_runRedeal u i (commitFrom src)).of_dealtOf (by rw [hv, dealtOf_release])
  have howner : v.deck.owner ≠ some n := hv ▸ owner_release _ n
  have hmode : opCommit s n (commitTxn src 2) = untilRelease v n (commitTxn src 2) := by rw [hop, hv]; rfl
  unfold untilRelease at hmode
  cases hopen : isOpen v n with
  | true =>
    rw [hopen, if_pos rfl] at hmode
    rw [direct_waits ho hmode]
    exact ⟨hredealt.of_dealtOf rfl, howner, .inl ⟨v.zat.nextWait, kget_kset_same _ _ _⟩⟩
  | false =>
    rw [hopen, if_neg Bool.false_ne_true] at hmode
    rw [direct_closed ho hmode hopen]
    exact ⟨hredealt, howner, .inr hopen⟩

theorem Redealt.pipe {t : State} {i : Img} {c : Nat} (h : Redealt t i c) :
    t.tricks = [] ∧ t.pkts = [] ∧ t.stock = [] ∧ t.tasks = [] ∧ t.suits = [] ∧ t.rb = [] := by
  simpa only [coreOf, Prod.mk.injEq] using h.core

theorem FailedCommit.cold {s t : State} {d : Deck} {n src : Nat} {f : FailRec} (h : FailedCommit s t d n src f) : t.cold = s.cold := by
  obtain ⟨-, -, -, -, -, hcold⟩ := keepFixed_fields h.kept
  exact hcold

/-! ## The three commands -/

section Commands
variable {s t : State} {n src : Nat}

theorem commit_wf (hn : okSession n = true) (hsrc : src < 4) : (okSession n && okSource src) = true := by
  rw [hn, Bool.true_and]
  exact decide_eq_true hsrc

theorem exec_commitVerify (hn : okSession n = true) (hsrc : src < 4)
    (hk : keepFixed s (direct s n (commitTxn src 0) opCommit) = direct s n (commitTxn src 0) opCommit) :
    exec (.dealCommitVerify n src) s = .next (direct s n (commitTxn src 0) opCommit) :=
  cmd_run (i := .dealCommitVerify n src) (commit_wf hn hsrc) rfl hk

theorem exec_commitHot (hn : okSession n = true) (hsrc : src < 4)
    (hk : keepFixed s (direct s n (commitTxn src 1) opCommit) = direct s n (commitTxn src 1) opCommit) :
    exec (.dealCommitHot n src) s = .next (direct s n (commitTxn src 1) opCommit) :=
  cmd_run (i := .dealCommitHot n src) (commit_wf hn hsrc) rfl hk

theorem exec_commitRedeal (hn : okSession n = true) (hsrc : src < 4) :
    exec (.dealCommitRedeal n src) s = .next (keepStores s (direct s n (commitTxn src 2) opCommit)) :=
  cmdDeck_ok (i := .dealCommitRedeal n src) s (commit_wf hn hsrc)

/-- A redeal that fails leaves the part as the other modes do. -/
theorem exec_commitRedeal_kept (hn : okSession n = true) (hsrc : src < 4)
    (hk : keepFixed s (direct s n (commitTxn src 2) opCommit) = direct s n (commitTxn src 2) opCommit) :
    exec (.dealCommitRedeal n src) s = .next (direct s n (commitTxn src 2) opCommit) :=
  cmdDeck_run (i := .dealCommitRedeal n src) (commit_wf hn hsrc) rfl (keepStores_of_keepFixed hk)

end Commands

/-! ## The staging area as the source (O30, O32) -/

section Staged
variable {s u : State} {n : Nat} {x : Except FailRec Img}

theorem staged_load (hl : loadImage s (deckArea s true) s.deck.stagedOk = (u, x)) : SameButHbm s u := by
  have h := SameButHbm.loadImage s (deckArea s true) s.deck.stagedOk
  rwa [hl] at h

theorem staged_allowed (h : ready s n 3) (hp : portRefused s n = false) (hb : dealBusy s = false) (ho : otherOwner s n = false)
    {k : Nat} (hk : k < 3) : commitAllowed s n 0 k :=
  ⟨h, by decide, hk, hp, hb, fun h1 => absurd h1 (by decide), fun _ => ho⟩

end Staged

/-- Settles O30: each end of a VERIFY and of a HOT of the staged image. -/
theorem commitsVerifyTheStagedImageOrLoadTheOtherSlot : Obligations.CommitsVerifyTheStagedImageOrLoadTheOtherSlot := by
  unfold Obligations.CommitsVerifyTheStagedImageOrLoadTheOtherSlot
  intro s u n x h hport hbusy hown hload
  have ⟨hn, ho, _⟩ := h
  have hu := staged_load hload
  have hwin : SameButWin { s with deck := s.deck } u := hu.win
  have hfree := owner_released hown
  have hrun : ∀ k < 3, (∀ f, x = .error f → opCommit s n (commitTxn 0 k) = rejected u n (commitTxn 0 k) 0 f)
      ∧ ∀ i, x = .ok i → opCommit s n (commitTxn 0 k) = commitMode u n (commitTxn 0 k) 0 k i := fun k hk =>
    (opCommit_allowed (staged_allowed h hport hbusy hown hk)).2 s u x rfl hload
  refine ⟨fun i hx => ?verified, fun f hx => ?failed, fun i v hx hh => ?hot, fun i v f hx hh => ?hotFailed⟩
  case verified =>
    have e := verify_ends ho hwin ((hrun 0 (by decide)).2 i hx)
    obtain ⟨-, -, -, -, -, hcold⟩ := keepFixed_fields e.kept
    exact ⟨_, exec_commitVerify hn (by decide) e.kept, e.deck.trans (by rw [hfree]), e.sent, hcold, e.hot0, e.hot1,
      e.hbm.trans hu.sameWindow⟩
  case failed =>
    have e := rejected_ends ho hwin ((hrun 0 (by decide)).1 f hx)
    exact ⟨_, exec_commitVerify hn (by decide) e.kept, e.deck.trans (by rw [failedDeck, hfree]; rfl), e.sent, e.cold, e.hot0, e.hot1⟩
  case hot =>
    have hv := SameButHbm.hotFail u i
    rw [hh] at hv
    have e := hot_ends ho (hwin.trans hv.win) (((hrun 1 (by decide)).2 i hx).trans ((commitMode_hot hh).2 rfl))
    obtain ⟨-, -, -, -, -, hcold⟩ := keepFixed_fields e.kept
    exact ⟨_, exec_commitHot hn (by decide) e.kept, e.deck, e.zat, e.sent, e.hot0, e.hot1, hcold⟩
  case hotFailed =>
    have hv := SameButHbm.hotFail u i
    rw [hh] at hv
    have e := rejected_ends ho (hwin.trans hv.win) (((hrun 1 (by decide)).2 i hx).trans ((commitMode_hot hh).1 f rfl))
    exact ⟨_, exec_commitHot hn (by decide) e.kept, e.deck.trans (by rw [failedDeck, hfree]; rfl), e.sent, e.hot0, e.hot1⟩

/-- Settles O32: a redeal's end, by the deck it applies and the pipeline it leaves. -/
theorem aRedealAppliesTheStagedDeckToAnEmptyPipeline : Obligations.ARedealAppliesTheStagedDeckToAnEmptyPipeline := by
  unfold Obligations.ARedealAppliesTheStagedDeckToAnEmptyPipeline
  intro s u n i h hport hbusy hown hload
  have hop := ((opCommit_allowed (staged_allowed h hport hbusy hown (k := 2) (by decide))).2 s u _ rfl hload).2 i rfl
  have ⟨hn, ho, _⟩ := h
  obtain ⟨hr, hw⟩ := redeal_ends ho hop
  obtain ⟨htricks, hpkts, hstock, htasks, hsuits, hrb⟩ := hr.pipe
  exact ⟨_, exec_commitRedeal hn (by decide), htricks, hpkts, hstock, htasks, hsuits, hrb, hr.cold, hr.phase, hr.contract, hr.number,
    hr.deckId, hr.current, hr.retiring, hr.hot, hr.source (by decide), hr.dealt, hr.stagedOk (by decide), hw.owner, hw.waits,
    rfl, rfl, rfl, rfl, rfl⟩

end Sys2Proof.Machine
end

section
/-!
PROOFS. DEAL_COMMIT of a flash slot, which is copied into the staging area, and of the active deck, a source of REDEAL alone
(03_deck.md R55 to R61; 15_zatas_control_protocol.md R352; assumption 32).
-/
namespace Sys2Proof.Machine

open Sys2Proof

/-! ## The active deck -/

section Active
variable {s : State} {n : Nat}

theorem opCommit_active_malformed (h : ready s n 3) {k : Nat} (hk : k < 2) :
    opCommit s n (commitTxn 1 k) = .done stMalformed 0 [] s := by
  obtain ⟨hfs, hfk, -⟩ := commitTxn_fields 1 (by decide) k (by omega)
  have hne : k ≠ 2 := by omega
  unfold opCommit gate
  dsimp only
  rw [hfs, hfk, if_neg (Nat.not_lt.2 h.2.2), if_neg (by simp [hne])]
  rfl

theorem opCommit_active_noDeck (h : ready s n 3) (hp : portRefused s n = false) (hb : dealBusy s = false)
    (hd : hasDeck s = false) : opCommit s n (commitTxn 1 2) = .done stNoDeck 0 [] s := by
  unfold opCommit gate
  dsimp only
  rw [if_neg (Nat.not_lt.2 h.2.2), if_pos (by decide), hp, hb, hd]
  rfl

theorem active_allowed (h : ready s n 3) (hp : portRefused s n = false) (hb : dealBusy s = false) (hd : hasDeck s = true) :
    commitAllowed s n 1 2 :=
  ⟨h, by decide, by decide, hp, hb, fun _ => ⟨rfl, hd⟩, fun h1 => absurd rfl h1⟩

end Active

/-! ## Flash slots -/

section Flash
variable {s w u : State} {n src k : Nat} {x : Except FailRec Img}

theorem flash_allowed (h : ready s n 3) (hp : portRefused s n = false) (hb : dealBusy s = false) (ho : otherOwner s n = false)
    (h4 : src < 4) (hne : src ≠ 1) (hk : k < 3) : commitAllowed s n src k :=
  ⟨h, h4, hk, hp, hb, fun h1 => absurd h1 hne, fun _ => ho⟩

theorem commitFrom_flash (h2 : 2 ≤ src) (h4 : src < 4) : commitFrom src = src - 1 ∧ sourceCode (commitFrom src) = src - 1
    ∧ commitFrom src ≠ 3 := by
  obtain rfl | rfl : src = 2 ∨ src = 3 := by omega
  · decide
  · decide

/-- A commit of a flash slot that failed has released the staging area. -/
theorem FailedCommit.flash {t : State} {f : FailRec} (h : FailedCommit s t (flashTaken s n).deck n src f) (h2 : 2 ≤ src) (h4 : src < 4) :
    commitRejected s t n src f := by
  refine ⟨h.deck.trans ?_, h.sent, h.cold, h.hot0, h.hot1⟩
  rw [failedDeck, (commitFrom_flash h2 h4).1]
  simp [flashTaken]

section Run
variable (hall : commitAllowed s n src k) (h2 : 2 ≤ src)
include hall h2

/-- The flash read fails. -/
theorem flash_unread (hff : flashFails s = true) :
    FailedCommit s (direct s n (commitTxn src k) opCommit) (flashTaken s n).deck n src (failOf 0x18) := by
  have ⟨⟨_, ho, _⟩, _, _, _, _, _, hown⟩ := hall
  have hst := stage_flash (src := src) h2 (hown (by omega))
  rw [hff, if_pos rfl] at hst
  exact rejected_ends ho (u := flashTaken s n) rfl ((opCommit_allowed hall).1 _ _ hst)

/-- The flash read succeeds, and its image is loaded. -/
theorem flash_read (hff : flashFails s = false) (hw : w = copyFlash (flashTaken s n) src)
    (hl : loadImage w (deckArea w true) false = (u, x)) :
    SameButWin { s with deck := (flashTaken s n).deck } u ∧ u.hbm = w.hbm
    ∧ (∀ f, x = .error f → FailedCommit s (direct s n (commitTxn src k) opCommit) (flashTaken s n).deck n src f)
    ∧ ∀ i, x = .ok i → opCommit s n (commitTxn src k) = commitMode u n (commitTxn src k) src k i := by
  have ⟨⟨_, ho, _⟩, _, _, _, _, _, hown⟩ := hall
  have hst := stage_flash (src := src) h2 (hown (by omega))
  rw [hff, if_neg Bool.false_ne_true, ← hw] at hst
  have hcopy : SameButWin { s with deck := (flashTaken s n).deck } w := by
    rw [hw]
    exact SameButWin.trans (t := flashTaken s n) rfl (SameButWin.hbmWrite _ _ _ _)
  have hload := SameButHbm.loadImage w (deckArea w true) false
  rw [hl] at hload
  have hwin := hcopy.trans hload.win
  have hflags : loadImage w (deckArea w (decide (src ≠ 1))) (decide (src = 1) || (decide (src = 0) && w.deck.stagedOk)) = (u, x) := by
    rw [decide_eq_true (by omega : src ≠ 1), decide_eq_false (by omega : src ≠ 1), decide_eq_false (by omega : src ≠ 0)]
    exact hl
  obtain ⟨hbad, hgood⟩ := (opCommit_allowed hall).2 w u x hst hflags
  exact ⟨hwin, hload.sameWindow, fun f hf => rejected_ends ho hwin (hbad f hf), hgood⟩

end Run

end Flash

/-- Settles O60: the active deck's answers, and each end of a commit of a flash slot. -/
theorem commitsTakeAFlashSlotOrTheActiveDeck : Obligations.CommitsTakeAFlashSlotOrTheActiveDeck := by
  unfold Obligations.CommitsTakeAFlashSlotOrTheActiveDeck
  intro s u n src x h hport hbusy
  have ⟨hn, ho, _⟩ := h
  refine ⟨⟨?verifyActive, ?hotActive, fun hd => ?noDeck, fun hd hl => ?active⟩, fun w h2 h4 hown hw hl => ?flash⟩
  case verifyActive =>
    have e := direct_done ho (opCommit_active_malformed h (k := 0) (by decide)) rfl
    exact cmd_run (i := .dealCommitVerify n 1) (commit_wf hn (by decide)) e rfl
  case hotActive =>
    have e := direct_done ho (opCommit_active_malformed h (k := 1) (by decide)) rfl
    exact cmd_run (i := .dealCommitHot n 1) (commit_wf hn (by decide)) e rfl
  case noDeck =>
    have e := direct_done ho (opCommit_active_noDeck h hport hbusy hd) rfl
    exact cmdDeck_run (i := .dealCommitRedeal n 1) (commit_wf hn (by decide)) e rfl
  case active =>
    have hu := SameButHbm.loadImage s (deckArea s false) true
    rw [hl] at hu
    have hwin : SameButWin { s with deck := s.deck } u := hu.win
    obtain ⟨hbad, hgood⟩ := (opCommit_allowed (active_allowed h hport hbusy hd)).2 s u x rfl hl
    cases x with
    | error f =>
      have e := rejected_ends ho hwin (hbad f rfl)
      exact ⟨_, exec_commitRedeal_kept hn (by decide) e.kept, e.deck.trans (by simp [failedDeck, commitFrom]), e.sent, e.cold,
        e.hot0, e.hot1⟩
    | ok i =>
      obtain ⟨hr, hwait⟩ := redeal_ends ho (hgood i rfl)
      obtain ⟨htricks, hpkts, -, htasks, hsuits, -⟩ := hr.pipe
      exact ⟨_, exec_commitRedeal hn (by decide), htricks, hpkts, htasks, hsuits, hr.cold, hr.phase, hr.deckId, hwait.owner⟩
  case flash =>
    have hall : ∀ k < 3, commitAllowed s n src k := fun k hk => flash_allowed h hport hbusy hown h4 (by omega) hk
    obtain ⟨hfrom, hcode, hne⟩ := commitFrom_flash h2 h4
    cases hff : flashFails s with
    | true =>
      have hfail := fun k hk => flash_unread (hall k hk) h2 hff
      have h0 := hfail 0 (by decide)
      have h1 := hfail 1 (by decide)
      have hr := hfail 2 (by decide)
      exact ⟨⟨_, exec_commitVerify hn h4 h0.kept, h0.flash h2 h4⟩, ⟨_, exec_commitHot hn h4 h1.kept, h1.flash h2 h4⟩,
        ⟨_, exec_commitRedeal_kept hn h4 hr.kept, hr.flash h2 h4⟩⟩
    | false =>
      have hread := fun k hk => flash_read (hall k hk) h2 hff hw hl
      obtain ⟨hwin, hhbm, hbad0, hgood0⟩ := hread 0 (by decide)
      obtain ⟨-, -, hbad1, hgood1⟩ := hread 1 (by decide)
      obtain ⟨-, -, hbad2, hgood2⟩ := hread 2 (by decide)
      cases x with
      | error f =>
        have h0 := hbad0 f rfl
        have h1 := hbad1 f rfl
        have hr := hbad2 f rfl
        exact ⟨⟨_, exec_commitVerify hn h4 h0.kept, h0.flash h2 h4⟩, ⟨_, exec_commitHot hn h4 h1.kept, h1.flash h2 h4⟩,
          ⟨_, exec_commitRedeal_kept hn h4 hr.kept, hr.flash h2 h4⟩⟩
      | ok i =>
        refine ⟨?verify, ?hot, ?redeal⟩
        case verify =>
          have e := verify_ends ho hwin (hgood0 i rfl)
          obtain ⟨-, -, -, -, -, hcold⟩ := keepFixed_fields e.kept
          exact ⟨_, exec_commitVerify hn h4 e.kept, e.deck.trans (by simp [flashTaken]), e.sent, e.hbm.trans hhbm, hcold, e.hot0, e.hot1⟩
        case hot =>
          obtain ⟨v, o, hh⟩ : ∃ v o, hotFail u i = (v, o) := ⟨_, _, rfl⟩
          have hv := SameButHbm.hotFail u i
          dsimp only
          rw [hh] at hv ⊢
          obtain ⟨hno, hyes⟩ := commitMode_hot (n := n) (src := src) (x := commitTxn src 1) hh
          cases o with
          | some f =>
            have e := rejected_ends ho (hwin.trans hv.win) ((hgood1 i rfl).trans (hno f rfl))
            exact ⟨_, exec_commitHot hn h4 e.kept, e.flash h2 h4⟩
          | none =>
            have e := hot_ends ho (hwin.trans hv.win) ((hgood1 i rfl).trans (hyes rfl))
            obtain ⟨-, -, -, -, -, hcold⟩ := keepFixed_fields e.kept
            exact ⟨_, exec_commitHot hn h4 e.kept, e.deck.trans (by rw [hfrom]; rfl), e.sent, e.hot0, e.hot1, hcold⟩
        case redeal =>
          obtain ⟨hr, hwait⟩ := redeal_ends ho (hgood2 i rfl)
          obtain ⟨htricks, hpkts, -, htasks, hsuits, -⟩ := hr.pipe
          exact ⟨_, exec_commitRedeal hn h4, htricks, hpkts, htasks, hsuits, hr.cold, hr.phase, hr.deckId, (hr.source hne).trans hcode,
            hr.stagedOk hne, hwait.owner⟩

end Sys2Proof.Machine
end

section
/-!
PROOFS. Host TABLE transactions on match rows (07_match_and_shuffle.md R149 to R152; 15_zatas_control_protocol.md R350, Table 15.8).
-/
namespace Sys2Proof.Machine

open Sys2Proof

/-! ## One operation on a match row (R149, R151, Table 15.8) -/

section Row
variable {s : State} {w i m : Nat} {b : List Byte}

theorem tabRow_read (hi : i < 131072) : tabRow s w 0 i [] = ⟨stOk, rowItem s i, s, false⟩ := by
  unfold tabRow
  rw [if_pos rfl, if_neg (by simp), if_pos hi]
  rfl

theorem tabRow_delete (hm : rowTable s i = some m) :
    tabRow s w 3 i [] = ⟨stOk, [], { s with rows := kdel s.rows i }, false⟩ := by
  unfold tabRow
  rw [if_neg (by decide), if_pos rfl, if_neg (by simp), hm]
  rfl

section Item
variable (hlen : b.length = 96) (hix : fld b 0 4 = i) (hres : rowReservedOk b = true) (hmask : rowMaskOk b = true)
  (hm : rowTable s i = some m)
include hlen hix hres hmask hm

theorem tabRow_write : tabRow s w 1 i b =
    if preOk s (i / 2048) (itemRow s b).value (itemRow s b).mask then ⟨stOk, [], putRow s i (itemRow s b), false⟩
    else ⟨stPrefilter, [], s, false⟩ := by
  unfold tabRow
  rw [if_neg (by decide), if_neg (by decide), if_neg (by simp [hlen, hix, hres, hmask]), hm]
  exact if_pos rfl

theorem tabRow_insert :
    tabRow s w 2 i b = ⟨stOk, [], { s with moves := s.moves ++ [⟨w, m, i, none, itemRow s b⟩] }, true⟩ := by
  unfold tabRow
  rw [if_neg (by decide), if_neg (by decide), if_neg (by simp [hlen, hix, hres, hmask]), hm]
  rfl

end Item

end Row

/-- What observation leaves alone of what a TABLE transaction on a row touches. -/
theorem SameButObs.tableFields {s t : State} (h : SameButObs s t) :
    t.rows = s.rows ∧ t.moves = s.moves ∧ t.suits = s.suits ∧ t.sent = s.sent ∧ t.zat = s.zat ∧ hotBusy t = hotBusy s := by
  unfold SameButObs at h
  rw [h]
  exact ⟨rfl, rfl, rfl, rfl, rfl, rfl⟩

/-- What `r` did to the rows and to the queue of moves, done in `v`. -/
def TabRes.within (r : TabRes) (v : State) : TabRes :=
  { r with state := { v with rows := r.state.rows, moves := r.state.moves } }

/-- Observation changes nothing that an operation on a row reads or writes. -/
theorem SameButObs.tabRow {s v : State} (h : SameButObs s v) (w sub i : Nat) (d : List Byte) :
    tabRow v w sub i d = (tabRow s w sub i d).within v := by
  have hreads : rowItem v i = rowItem s i ∧ rowTable v i = rowTable s i ∧ itemRow v d = itemRow s d
      ∧ ∀ x y, preOk v (i / 2048) x y = preOk s (i / 2048) x y := by
    unfold SameButObs at h
    rw [h]
    exact ⟨rfl, rfl, rfl, fun _ _ => rfl⟩
  obtain ⟨hitem, htable, hrow, hpre⟩ := hreads
  unfold Machine.tabRow
  rw [hitem, htable, hrow]
  simp only [hpre]
  unfold SameButObs at h
  rw [h]
  cases rowTable s i
  all_goals
    dsimp only
    repeat' split
    all_goals rfl

/-! ## The transaction around it (R22, R350, assumption 22) -/

theorem tableTxn_row (sub i : Nat) (hsub : sub < 4) (d : List Byte) : (tableTxn sub 1 i d).addr = sub + 16 + 256 * i
    ∧ (tableTxn sub 1 i d).addr % 16 = sub ∧ (tableTxn sub 1 i d).addr / 16 % 16 = 1 ∧ (tableTxn sub 1 i d).addr / 256 = i := by
  unfold tableTxn
  dsimp only
  omega

section Txn
variable {s v x : State} {n sub i st : Nat} {d data : List Byte}

/-- A TABLE transaction on a row that no deck state refuses is posted. -/
theorem opTable_row (h : ready s n 2) (hd : hasDeck s = true) (hb : hotBusy s = false) (hi : i < 131072) (hsub : sub < 4) :
    opTable s n (tableTxn sub 1 i d) = postHost s (tableTxn sub 1 i d) := by
  obtain ⟨haddr, hfs, hfk, -⟩ := tableTxn_row sub i hsub d
  have ha : (tableTxn sub 1 i d).addr < 2 ^ 48 := by omega
  have hlvl : ¬ levelOf s n < if sub = 0 then 1 else 2 := by have := h.2.2; split <;> omega
  unfold opTable gate
  dsimp only
  rw [hfs, hfk, if_neg hlvl, if_pos (by rw [decide_eq_true ha, decide_eq_true hsub]; rfl), hd, hb]
  rfl

/-- Its host task does the row's operation, in a state that differs by observation alone. -/
theorem hostRun_row (hv : SameButObs s v) (hb : hotBusy s = false) (hsub : sub < 4) (src c h w : Nat) :
    hostRun v src c h w (tableTxn sub 1 i d) =
      if (tabRow s w sub i d).moves then .move ((tabRow s w sub i d).within v).state
      else .done (tabRow s w sub i d).status (tabRow s w sub i d).data ((tabRow s w sub i d).within v).state := by
  obtain ⟨-, hfs, hfk, hfi⟩ := tableTxn_row sub i hsub d
  obtain ⟨-, -, -, -, -, hhot⟩ := hv.tableFields
  have hvb : tableBusy v (tableTxn sub 1 i d) = false := by
    unfold tableBusy
    rw [hhot, hb, Bool.and_false]
  unfold hostRun
  rw [hvb, hfs, hfk, hfi, if_pos (show (tableTxn sub 1 i d).op = 0x12 from rfl), if_neg (by decide),
    show tabRun v w sub 1 i (tableTxn sub 1 i d).data = _ from hv.tabRow w sub i d]
  rfl

variable (h : ready s n 2) (hd : hasDeck s = true) (hb : hotBusy s = false) (hi : i < 131072) (hq : hostRuns s) (hsub : sub < 4)
include h hd hb hi hq hsub

/-- An operation on a row that is done at once answers, and leaves its rows. -/
theorem direct_tableRow_done (hr : tabRow s s.zat.nextWait sub i d = ⟨st, data, x, false⟩) :
    (direct s n (tableTxn sub 1 i d) opTable).rows = x.rows
    ∧ (direct s n (tableTxn sub 1 i d) opTable).sent
      = s.sent ++ [.response n ⟨0x12, 0, st, sub + 16 + 256 * i, data⟩] := by
  obtain ⟨hh, p, c, v, -, -, hv, hfree, -, hdone, -⟩ := postHost_now (t := tableTxn sub 1 i d) hq rfl
  have hrun := hostRun_row (i := i) (d := d) hv hb hsub (takeDealer s - 192) c hh s.zat.nextWait
  rw [hr, if_neg Bool.false_ne_true] at hrun
  have hpost := hdone _ _ _ hrun
  obtain ⟨u, hu⟩ : ∃ u, u = traceTask (endTask (releaseTask (TabRes.within ⟨st, data, x, false⟩ v).state hh) hh) 2 false hh
      (some (hostBody s)) (takeDealer s) c := ⟨_, rfl⟩
  have hend : SameButObs { s with rows := x.rows, moves := x.moves } u := by
    obtain ⟨-, -, hsuits, -⟩ := hv.tableFields
    rw [hu, releaseTask_none (by rw [← hsuits] at hfree; exact hfree)]
    exact ((hv.table x.rows x.moves).trans (.endTask _ _)).trans (.traceTask _ _ _ _ _ _ _)
  obtain ⟨hrows, -, -, hsent, hzat, -⟩ := hend.tableFields
  obtain ⟨haddr, -⟩ := tableTxn_row sub i hsub d
  rw [← hu, ← opTable_row h hd hb hi hsub, haddr] at hpost
  rw [direct_done h.2.1 hpost (congrArg _ hzat)]
  exact ⟨hrows, congrArg (· ++ _) hsent⟩

/-- An operation that leaves its row to the match unit: the transaction waits, and its task stays in its context. -/
theorem direct_tableRow_waits {m : Move} (hr : tabRow s s.zat.nextWait sub i d = ⟨st, data, { s with moves := [m] }, true⟩)
    (hm : m.wait = s.zat.nextWait) :
    (direct s n (tableTxn sub 1 i d) opTable).rows = s.rows ∧ (direct s n (tableTxn sub 1 i d) opTable).sent = s.sent
    ∧ (direct s n (tableTxn sub 1 i d) opTable).moves = [m]
    ∧ kget (direct s n (tableTxn sub 1 i d) opTable).zat.waits s.zat.nextWait
      = some ⟨n, true, tableTxn sub 1 i d, .matchMove⟩
    ∧ ∃ j k, kget (direct s n (tableTxn sub 1 i d) opTable).tasks j = some k ∧ k.state = .running ∧ k.body = hostBody s := by
  obtain ⟨hh, p, c, v, -, -, hv, -, -, -, hmove⟩ := postHost_now (t := tableTxn sub 1 i d) hq rfl
  have hrun := hostRun_row (i := i) (d := d) hv hb hsub (takeDealer s - 192) c hh s.zat.nextWait
  rw [hr, if_pos rfl] at hrun
  obtain ⟨k, hk, hpost⟩ := hmove _ hrun (by simp [TabRes.within, hm])
  rw [← opTable_row h hd hb hi hsub] at hpost
  obtain ⟨-, -, -, hsent, hzat, -⟩ := hv.tableFields
  rw [direct_waits h.2.1 hpost]
  refine ⟨rfl, hsent, rfl, ?_, hh, _, kget_kset_same .., rfl, hk⟩
  show kget (kset v.zat.waits v.zat.nextWait _) _ = _
  rw [hzat, kget_kset_same]

end Txn

/-! ## The commands -/

/-- A command on a row is in range. -/
theorem table_wf {s : State} {n i : Nat} (h : ready s n 2) (hi : i < 131072) :
    (okSession n && decide (1 < 16) && decide (i < 2 ^ 40)) = true := by
  simp only [h.1, Bool.true_and, decide_eq_true_eq, Bool.and_eq_true]
  omega

/-- Settles O21: each transaction is the row's operation, done at once or left to the match unit. -/
theorem hostTableTransactionsActOnMatchRows : Obligations.HostTableTransactionsActOnMatchRows := by
  unfold Obligations.HostTableTransactionsActOnMatchRows
  intro s n i b h hd hb hi hq
  have hwf := table_wf h hi
  refine ⟨?read, fun m hm => ⟨?delete, fun hlen hix hres hmask => ⟨fun hpre => ?write, fun hpre => ?refused, fun hmoves => ?insert⟩⟩⟩
  case read =>
    exact ⟨_, cmd_ok (i := .tableRead n 1 i []) s hwf, direct_tableRow_done h hd hb hi hq (by decide) (tabRow_read hi)⟩
  case delete =>
    exact ⟨_, cmd_ok (i := .tableDelete n 1 i []) s hwf, direct_tableRow_done h hd hb hi hq (by decide) (tabRow_delete hm)⟩
  case write =>
    have hr := (tabRow_write (w := s.zat.nextWait) hlen hix hres hmask hm).trans (if_pos hpre)
    exact ⟨_, cmd_ok (i := .tableWrite n 1 i b) s hwf, direct_tableRow_done h hd hb hi hq (by decide) hr⟩
  case refused =>
    have hr := (tabRow_write (w := s.zat.nextWait) hlen hix hres hmask hm).trans (if_neg (by simp [hpre]))
    exact ⟨_, cmd_ok (i := .tableWrite n 1 i b) s hwf, direct_tableRow_done h hd hb hi hq (by decide) hr⟩
  case insert =>
    have hr := tabRow_insert (w := s.zat.nextWait) hlen hix hres hmask hm
    rw [hmoves] at hr
    exact ⟨_, cmd_ok (i := .tableInsert n 1 i b) s hwf, direct_tableRow_waits h hd hb hi hq (by decide) hr rfl⟩

end Sys2Proof.Machine
end

section
/-!
PROOFS. Host FLOW transactions on a PROVISIONAL record that stands in a cache line (08_flow_records.md R175, R185, R186, R188, R220;
15_zatas_control_protocol.md R351).
-/
namespace Sys2Proof.Machine

open Sys2Proof

/-! ## A PROVISIONAL record and its suit -/

/-- Line `z` holds the PROVISIONAL record `l`. -/
def ProvRecord (s : State) (z : Nat) (l : Line) : Prop := lineOf s z = l ∧ l.lstate = .record ∧ l.provisional = true

/-- INFO of a PROVISIONAL record in a line: CACHED and PROVISIONAL are set, DIRTY as the line has it (R351). -/
def provInfo (z : Nat) (l : Line) : List Byte :=
  toBytes 4 (lineSuit z) ++ toBytes 1 (1 + b2n l.dirty * 2 + 4) ++ toBytes 3 0

/-- Its words as a response carries them, the TAG word's place 0 (R351). -/
def provWords (s : State) (l : Line) : List Byte := (l.words.take (tagW s)).flatMap (fun w => toBytes 4 w.toNat) ++ toBytes 4 0

section Prov
variable {s : State} {z : Nat} {l : Line} (h : ProvRecord s z l)
include h

theorem ProvRecord.suitOf : suitOf z l = lineSuit z := by
  obtain ⟨-, -, hp⟩ := h
  unfold Machine.suitOf
  rw [hp, Bool.not_true, Bool.and_false, if_neg Bool.false_ne_true]

theorem ProvRecord.flowInfo : flowInfo s (.line z) = provInfo z l := by
  have hs := h.suitOf
  obtain ⟨hl, -, hp⟩ := h
  unfold Machine.flowInfo
  dsimp only
  rw [hl, hs, hp]
  rfl

theorem ProvRecord.flowData : flowData s (.line z) = provInfo z l ++ provWords s l := by
  have hi := h.flowInfo
  obtain ⟨hl, -, hp⟩ := h
  have hw : wordsAt s (.line z) = l.words := by
    unfold wordsAt
    dsimp only
    rw [hl, hp, if_pos rfl]
  unfold Machine.flowData
  rw [hw, hi, List.append_assoc]
  rfl

/-- Its words stand in the line, so that no read of the HBM can poison them. -/
theorem ProvRecord.readPlaced (source : Nat) : readPlaced s source (.line z) = (s, false) := by
  obtain ⟨hl, -, hp⟩ := h
  unfold Machine.readPlaced
  dsimp only
  rw [hl, hp, if_pos rfl]

end Prov

theorem ProvRecord.congr {s t : State} {z : Nat} {l : Line} (h : ProvRecord s z l) (hl : t.lines = s.lines) : ProvRecord t z l := by
  obtain ⟨hz, hr, hp⟩ := h
  refine ⟨?_, hr, hp⟩
  unfold lineOf
  rw [hl]
  exact hz

theorem suitAt_none {s : State} {m : Nat} (h : kget s.suits m = none) : suitAt s m = Suit.idle := by
  unfold suitAt kgetD
  rw [h]
  rfl

/-- A free suit is taken at once. -/
theorem hostSuit_free {s : State} {m : Nat} (h : kget s.suits m = none) (j : Nat) :
    hostSuit s j m = some (takeSuit s m (.task j)) := by
  unfold hostSuit
  rw [suitAt_none h]
  rfl

theorem takeSuit_free {s : State} {m : Nat} (h : kget s.suits m = none) (x : Holder) :
    takeSuit s m x = { s with suits := kset s.suits m ⟨some x, [], []⟩ } := by
  unfold takeSuit
  rw [suitAt_none h]
  rfl

/-- Observation leaves the lines and the suits alone. -/
theorem SameButObs.lines_suits {s t : State} (h : SameButObs s t) : t.lines = s.lines ∧ t.suits = s.suits := by
  unfold SameButObs at h
  rw [h]
  exact ⟨rfl, rfl⟩

theorem SameButObs.free_suit {s t : State} {m : Nat} (h : SameButObs s t) (hm : kget s.suits m = none) : kget t.suits m = none := by
  rw [h.lines_suits.2]
  exact hm

theorem confHit_frame (s : State) (mark : Option Nat) : ∃ x, confHit s mark = { s with conf := x } := by
  unfold confHit
  split
  · exact ⟨_, rfl⟩
  · exact ⟨s.conf, rfl⟩

/-! ## The hit of a host task -/

/-- Host task `j` has the suit of line `z`, and its lookup has hit the line (R351). -/
def hostHit (v : State) (z j : Nat) : State := useLine (confHit (bump (takeSuit v (lineSuit z) (.task j)) aHits) none) z

/-- What host task `j`'s work on line `z` may leave in `x`, its lines `L`: beside the suits of `s` the task holds the
line's suit, for which nobody waits, and the line is not ABSENT. -/
def HitDone (s x : State) (z j : Nat) (L : KMap Line) : Prop :=
  x.lines = L ∧ x.zat = s.zat ∧ x.sent = s.sent
    ∧ (∀ e ∈ x.suits, e = (lineSuit z, ⟨some (.task j), [], []⟩) ∨ e ∈ s.suits)
    ∧ kget x.suits (lineSuit z) = some ⟨some (.task j), [], []⟩ ∧ (kgetD L z Line.blank).lstate ≠ .absent

section Hit
variable {s v : State} {z j : Nat} {l : Line} (hv : SameButObs s v) (hfree : kget s.suits (lineSuit z) = none)
include hv hfree

theorem hostHit_frame : SameButMiss s (hostHit v z j) ∧ (hostHit v z j).lines = s.lines ∧ (hostHit v z j).tasks = v.tasks
    ∧ (hostHit v z j).suits = kset s.suits (lineSuit z) ⟨some (.task j), [], []⟩ := by
  obtain ⟨x, hx⟩ := confHit_frame (bump (takeSuit v (lineSuit z) (.task j)) aHits) none
  unfold hostHit
  rw [hx, takeSuit_free (hv.free_suit hfree)]
  unfold SameButMiss SameButObs at *
  rw [hv]
  exact ⟨rfl, rfl, rfl, rfl⟩

theorem takeSuit_done (h : ProvRecord s z l) : HitDone s (takeSuit v (lineSuit z) (.task j)) z j s.lines := by
  obtain ⟨hl, hr, -⟩ := h
  rw [takeSuit_free (hv.free_suit hfree)]
  unfold SameButObs at hv
  rw [hv]
  refine ⟨rfl, rfl, rfl, fun e he => mem_kset he, kget_kset_same .., ?_⟩
  show (lineOf s z).lstate ≠ .absent
  rw [hl, hr]
  decide

theorem hostHit_done (h : ProvRecord s z l) : HitDone s (hostHit v z j) z j s.lines := by
  have ht := takeSuit_done (j := j) hv hfree h
  obtain ⟨x, hx⟩ := confHit_frame (bump (takeSuit v (lineSuit z) (.task j)) aHits) none
  unfold hostHit
  rw [hx]
  exact ht

end Hit

/-! ## What a host task writes to the record (R86, R186, R220) -/

/-- The effects of the host task that has line `z`'s suit, applied to the line's record. -/
def hostApply (u : State) (z src c : Nat) (es : List Effect) : State :=
  applyRecord u (.line z) ⟨false, 0, 0⟩ es (some (lineSuit z)) (src + 192) c

/-- The record of a line whose words the effects have changed. -/
def Line.wrote (s : State) (l : Line) (es : List Effect) : Line :=
  { l with words := es.foldl (recEffect s ⟨false, 0, 0⟩) l.words, dirty := true }

theorem SameButMiss.recEffect {s t : State} (h : SameButMiss s t) (x : RecCtx) : recEffect t x = recEffect s x := by
  unfold SameButMiss at h
  rw [h]
  rfl

theorem SameButMiss.geometry {s t : State} (h : SameButMiss s t) (l : Line) : keyPad t = keyPad s ∧ provWords t l = provWords s l := by
  unfold SameButMiss at h
  rw [h]
  exact ⟨rfl, rfl⟩

theorem SameButMiss.timerBit {s t : State} (h : SameButMiss s t) (ws : List W32) : timerBit t ws = timerBit s ws := by
  unfold SameButMiss at h
  rw [h]
  rfl

section Apply
variable {s v : State} {z j : Nat} {l : Line} (hv : SameButObs s v) (hfree : kget s.suits (lineSuit z) = none)
  (h : ProvRecord s z l) (src c : Nat)
include hv hfree h

/-- Changed words stand in the line, which is DIRTY and still holds a PROVISIONAL record. -/
theorem hostApply_writes {es : List Effect} (hne : es ≠ []) (hnd : es.contains .delete = false) :
    ProvRecord (hostApply (hostHit v z j) z src c es) z (l.wrote s es)
    ∧ HitDone s (hostApply (hostHit v z j) z src c es) z j (kset s.lines z (l.wrote s es))
    ∧ ∀ k, provWords (hostApply (hostHit v z j) z src c es) k = provWords s k := by
  obtain ⟨hm, hlines, -, -⟩ := hostHit_frame (j := j) hv hfree
  obtain ⟨-, hzat, hsent, hmem, hsuit, -⟩ := hostHit_done (j := j) hv hfree h
  obtain ⟨hl, hr, hp⟩ := h.congr hlines
  obtain ⟨alines, azat, asent, asuits, adeck, -⟩ := applyRecord_prov (x := ⟨false, 0, 0⟩) (held := some (lineSuit z))
    (d := src + 192) (c := c) hl hr hp hne hnd
  rw [hlines, hm.recEffect] at alines
  have hat : kgetD (kset s.lines z (l.wrote s es)) z Line.blank = l.wrote s es := kgetD_kset_same ..
  refine ⟨⟨?_, hr, hp⟩, ⟨alines, azat.trans hzat, asent.trans hsent, fun e he => hmem e (asuits ▸ he),
    (congrArg (kget · _) asuits).trans hsuit, ?_⟩, ?_⟩
  · unfold lineOf hostApply
    rw [alines]
    exact hat
  · rw [hat]
    exact fun q => absurd (hr.symm.trans q) (by decide)
  · intro k
    rw [← (hm.geometry k).2]
    unfold provWords tagW recWords recBytes hostApply
    rw [adeck]

/-- A deleted record leaves its line free. -/
theorem hostApply_deletes (ht : timerBit s l.words = false) (hk : ∀ k, kget v.tasks j = some k → k.body.suit = none) :
    HitDone s (hostApply (hostHit v z j) z src c [.delete]) z j (kdel s.lines z) := by
  obtain ⟨hm, hlines, htasks, -⟩ := hostHit_frame (j := j) hv hfree
  obtain ⟨-, hzat, hsent, hmem, hsuit, -⟩ := hostHit_done (j := j) hv hfree h
  obtain ⟨hl, hr, hp⟩ := h.congr hlines
  obtain ⟨x, hx, xlines, xzat, xsent, xmem, xsuit⟩ := deleteLine_prov (h := j) (d := src + 192) (c := c) hl hp
    ((hm.timerBit _).trans ht) (by assumption) (fun k hkk => hk k (htasks ▸ hkk))
  have ha : hostApply (hostHit v z j) z src c [.delete] = x := by
    have hlive : recLive (hostHit v z j) (.line z) = true := by
      unfold recLive
      dsimp only
      rw [hl, hr]
      rfl
    unfold hostApply applyRecord
    rw [hlive, if_neg (by simp), if_pos (by simp)]
    exact hx
  rw [ha]
  refine ⟨hlines ▸ xlines, xzat.trans hzat, xsent.trans hsent, fun e he => (xmem e he).elim .inl (hmem e), xsuit, ?_⟩
  unfold kgetD
  rw [kget_kdel_same]
  decide

end Apply

/-! ## What each sub-operation does (R351) -/

/-- The effects of an UPDATE: one word for each bit of its MASK. -/
def updateEffects (s : State) (d : List Byte) : List Effect :=
  (enum 0 (maskWords (fld d (keyPad s) 8))).map fun w => .word 5 w.2 (BitVec.ofNat 32 (fld d (keyPad s + 8 + 4 * w.1) 4))

/-- An UPDATE of a MASK that is not empty writes words, and deletes nothing. -/
theorem updateEffects_words {s : State} {d : List Byte} (h : maskWords (fld d (keyPad s) 8) ≠ []) :
    updateEffects s d ≠ [] ∧ (updateEffects s d).contains .delete = false := by
  unfold updateEffects
  cases hw : maskWords (fld d (keyPad s) 8) with
  | nil => exact absurd hw h
  | cons w ws => exact ⟨by simp [enum], by simp⟩

section Ops
variable {s v : State} {src c z j : Nat} {l : Line} {t : Txn} (h : ProvRecord (hostHit v z j) z l)
include h

theorem hostOnRecord_read : hostOnRecord (takeSuit v (lineSuit z) (.task j)) src c z 0 t
    = .done stOk (flowData (hostHit v z j) (.line z)) (hostHit v z j) := by
  unfold hostOnRecord
  dsimp only
  rw [show useLine _ _ = hostHit v z j from rfl, h.readPlaced]
  rfl

theorem hostOnRecord_delete : hostOnRecord (takeSuit v (lineSuit z) (.task j)) src c z 4 t
    = .done stOk (flowInfo (hostHit v z j) (.line z)) (hostApply (hostHit v z j) z src c [.delete]) := by
  unfold hostOnRecord
  dsimp only
  rw [show useLine _ _ = hostHit v z j from rfl, h.1, h.suitOf]
  rfl

theorem hostOnRecord_keep (on : Bool) : hostOnRecord (takeSuit v (lineSuit z) (.task j)) src c z (if on then 5 else 6) t
    = .done stOk (flowInfo (hostApply (hostHit v z j) z src c [.keep on]) (.line z)) (hostApply (hostHit v z j) z src c [.keep on]) := by
  unfold hostOnRecord
  dsimp only
  rw [show useLine _ _ = hostHit v z j from rfl, h.1, h.suitOf]
  cases on <;> rfl

theorem hostOnRecord_update {d : List Byte} {l' : Line} (hu : keyPad (hostHit v z j) = keyPad s)
    (ha : ProvRecord (hostApply (hostHit v z j) z src c (updateEffects s d)) z l') :
    hostOnRecord (takeSuit v (lineSuit z) (.task j)) src c z 3 (flowTxn 3 0 d)
    = .done stOk (flowData (hostApply (hostHit v z j) z src c (updateEffects s d)) (.line z))
        (hostApply (hostHit v z j) z src c (updateEffects s d)) := by
  unfold hostApply updateEffects at *
  unfold hostOnRecord
  dsimp only
  rw [show useLine _ _ = hostHit v z j from rfl, h.1, h.suitOf, hu, show (flowTxn 3 0 d).data = d from rfl, ha.readPlaced]
  rfl

end Ops

/-! ## The lookup finds the line (R188, R351) -/

/-- A key that hits line `z`: the host task goes on under the line's free suit (R188, R351). -/
theorem flowRun_hit {s v : State} {src c z j sub : Nat} {l : Line} {d : List Byte} (hv : SameButObs s v)
    (hfree : kget s.suits (lineSuit z) = none) (h : ProvRecord s z l) (hsub : sub ≤ 6) (hne : sub ≠ 1)
    (hfind : findLine s (setOf s (txnKey s d)) (digestOf s (txnKey s d)) = some z) :
    flowRun v src c j (flowTxn sub 0 d) = hostOnRecord (takeSuit v (lineSuit z) (.task j)) src c z sub (flowTxn sub 0 d) := by
  have haddr : (flowTxn sub 0 d).addr % 16 = sub := by
    unfold flowTxn
    dsimp only
    omega
  have hlook : findLine v (setOf v (txnKey v d)) (digestOf v (txnKey v d)) = some z := by
    unfold SameButObs at hv
    rw [hv]
    exact hfind
  obtain ⟨hl, hrec, -⟩ := id (h.congr (t := v) hv.lines_suits.1)
  unfold flowRun
  dsimp only
  rw [haddr, if_neg hne, show (flowTxn sub 0 d).data = d from rfl, hlook]
  dsimp only
  unfold hostOnLine
  dsimp only
  rw [hl, h.suitOf, hrec, hostSuit_free (hv.free_suit hfree)]
  rfl

/-- READ_INDEX of the line's suit reads the record that stands there (R351). -/
theorem flowRun_index {s v : State} {src c z j : Nat} {l : Line} (hv : SameButObs s v) (hfree : kget s.suits (lineSuit z) = none)
    (h : ProvRecord s z l) :
    flowRun v src c j (flowTxn 1 (lineSuit z) []) = .done stOk (provInfo z l ++ provWords s l) (takeSuit v (lineSuit z) (.task j)) := by
  have haddr : (flowTxn 1 (lineSuit z) []).addr % 16 = 1 ∧ (flowTxn 1 (lineSuit z) []).addr / 256 = lineSuit z := by
    unfold flowTxn
    dsimp only
    omega
  have hz : lineSuit z - 2 ^ 27 = z ∧ 2 ^ 27 ≤ lineSuit z := by
    unfold lineSuit
    omega
  have hp := h.congr (t := v) hv.lines_suits.1
  have ht : ProvRecord (takeSuit v (lineSuit z) (.task j)) z l := hp.congr rfl
  have hw : provWords (takeSuit v (lineSuit z) (.task j)) l = provWords s l := by
    unfold SameButObs at hv
    rw [hv]
    rfl
  have hprov : (2 ^ 27 ≤ lineSuit z && (lineOf v (lineSuit z - 2 ^ 27)).lstate == .record && (lineOf v (lineSuit z - 2 ^ 27)).provisional) = true := by
    obtain ⟨hl, hrec, hp⟩ := hp
    rw [hz.1, hl, hrec, hp, decide_eq_true hz.2]
    rfl
  unfold flowRun
  dsimp only
  rw [haddr.1, if_pos rfl, haddr.2]
  unfold hostIndex
  dsimp only
  rw [hprov, hostSuit_free (hv.free_suit hfree)]
  dsimp only
  rw [Bool.not_true, Bool.false_and, if_neg Bool.false_ne_true, if_pos rfl, hz.1, ht.readPlaced, ht.flowData, hw]
  rfl

/-! ## The transaction around it (R22, R351, assumption 22) -/

/-- A host task that is dispatched now holds no suit and names none. -/
theorem hostTask_suitless {s p : State} {j d c : Nat} {k : Task} (hq : hostRuns s)
    (hp : partPost s (hostBody s) (.host s.zat.nextWait) = some (j, p))
    (hk : kget (traceTask (bump { p with lastDisp := some p.clk } aDispatched) 1 false j (some (hostBody s)) d c).tasks j = some k) :
    k.body.suit = none := by
  obtain ⟨hs, hroom, -⟩ := hq
  obtain ⟨h, u, x, hpost, -, -, hx, hbody, -, -, -, -, hsorted, -⟩ := partPost_entry (hostBody s) (.host s.zat.nextWait) hs hroom
  rw [hp, Option.some.injEq, Prod.mk.injEq] at hpost
  obtain ⟨rfl, rfl⟩ := hpost
  have hkept : TaskKept j x (bump { p with lastDisp := some p.clk } aDispatched) := ⟨hsorted, hx⟩
  have hkx : k = x := Option.some.inj (hk.symm.trans (traceTask_kept hkept _ _ _ _ _ _).2)
  rw [hkx, hbody]
  rfl

section Txn
variable {s : State} {n sub i : Nat} {d out : List Byte} {L : KMap Line} (hr : ready s n 2) (hd : hasDeck s = true)
  (hf : s.rst.foldFlow = .open_) (hq : hostRuns s)
include hr hd hf hq

/-- A FLOW transaction whose sequence ends with the suit of line `z` alone answers, and leaves its lines. -/
theorem direct_flow_hit {z : Nat} (hsub : sub ≤ 6) (hwf : flowWf s sub (flowTxn sub i d) = true)
    (run : ∀ v src c j, SameButObs s v → (∀ k, kget v.tasks j = some k → k.body.suit = none) →
      ∃ x, flowRun v src c j (flowTxn sub i d) = .done stOk out x ∧ HitDone s x z j L) :
    (direct s n (flowTxn sub i d) opFlow).lines = L
    ∧ (direct s n (flowTxn sub i d) opFlow).sent = s.sent ++ [.response n ⟨0x13, 0, stOk, sub + 256 * i, out⟩] := by
  have haddr : (flowTxn sub i d).addr % 16 = sub ∧ (flowTxn sub i d).addr = sub + 256 * i := by
    unfold flowTxn
    dsimp only
    omega
  obtain ⟨out', rfl, hL, hsent⟩ := flow_now (t := flowTxn sub i d) (st := stOk) (· = out) (· = L) hr hd hf hq rfl rfl
    (by rw [haddr.1]; exact hsub) (by rw [haddr.1]; exact hwf) (by
      rintro v p src j c hp rfl hv hheld
      obtain ⟨x, hx, hlines, hzat, hsentx, hmem, hsuit, habs⟩ := run _ src c j hv fun k hk => hostTask_suitless hq hp hk
      have hat : suitAt x (lineSuit z) = ⟨some (.task j), [], []⟩ := by
        unfold suitAt kgetD
        rw [hsuit]
        rfl
      refine ⟨x, lineSuit z, out, hx, rfl, hlines, hzat, hsentx, ?_, by rw [hat], by rw [hat], fun _ => ?_⟩
      · intro e he hj
        obtain rfl | he := hmem e he
        · rfl
        · exact absurd hj (hheld e he)
      · rw [show lineSuit z - 2 ^ 27 = z by unfold lineSuit; omega]
        unfold lineOf
        rw [hlines]
        exact habs)
  rw [haddr.2] at hsent
  exact ⟨hL, hsent⟩

variable {z : Nat} {l : Line} (hfree : kget s.suits (lineSuit z) = none) (h : ProvRecord s z l)
include hfree h

/-- A transaction by key whose work on the hit line ends answers, and leaves its lines. -/
theorem direct_flow_key (hfind : findLine s (setOf s (txnKey s d)) (digestOf s (txnKey s d)) = some z)
    (hsub : sub ≤ 6) (hne : sub ≠ 1) (hwf : flowWf s sub (flowTxn sub 0 d) = true)
    (run : ∀ v src c j, SameButObs s v → (∀ k, kget v.tasks j = some k → k.body.suit = none) → ProvRecord (hostHit v z j) z l →
      ∃ x, hostOnRecord (takeSuit v (lineSuit z) (.task j)) src c z sub (flowTxn sub 0 d) = .done stOk out x ∧ HitDone s x z j L) :
    (direct s n (flowTxn sub 0 d) opFlow).lines = L
    ∧ (direct s n (flowTxn sub 0 d) opFlow).sent = s.sent ++ [.response n ⟨0x13, 0, stOk, sub, out⟩] :=
  direct_flow_hit hr hd hf hq hsub hwf fun v src c j hv hk => by
    rw [flowRun_hit hv hfree h hsub hne hfind]
    exact run v src c j hv hk (h.congr (hostHit_frame hv hfree).2.1)

end Txn

/-- A key alone is the data of a READ, a DELETE, a KEEP_SET or a KEEP_CLEAR. -/
theorem flowWf_key {s : State} {sub : Nat} {d : List Byte} (hlen : d.length = keyPad s) (hsub : sub = 0 ∨ sub = 4 ∨ sub = 5 ∨ sub = 6) :
    flowWf s sub (flowTxn sub 0 d) = true := by
  have hn : (flowTxn sub 0 d).data.length = keyPad s := hlen
  obtain rfl | rfl | rfl | rfl := hsub <;> (unfold flowWf; dsimp only; rw [hn]; simp [flowTxn])

/-- A READ_INDEX names an index and carries no data. -/
theorem flowWf_index {s : State} {i : Nat} (hi : i < 2 ^ 40) : flowWf s 1 (flowTxn 1 i []) = true := by
  unfold flowWf flowTxn
  dsimp only [List.length_nil]
  simp only [Bool.and_eq_true, beq_iff_eq, decide_eq_true_eq, and_true]
  omega

/-- An UPDATE's data is its key, its MASK and a word for each bit of it, none of them a key word or past the record. -/
theorem flowWf_update {s : State} {d : List Byte} (hlen : d.length = keyPad s + 8 + 4 * (maskWords (fld d (keyPad s) 8)).length)
    (hin : ∀ w ∈ maskWords (fld d (keyPad s) 8), keyWords s ≤ w ∧ w < tagW s) : flowWf s 3 (flowTxn 3 0 d) = true := by
  unfold flowWf
  dsimp only
  rw [show (flowTxn 3 0 d).data = d from rfl]
  have hall : ((maskWords (fld d (keyPad s) 8)).all fun w => keyWords s ≤ w && w < tagW s) = true := by
    simpa [List.all_eq_true] using hin
  rw [hall, hlen]
  simp [flowTxn]

theorem lineOf_of_lines {t : State} {L : KMap Line} {z : Nat} (h : t.lines = L) : lineOf t z = kgetD L z Line.blank := by
  unfold lineOf
  rw [h]

/-- Settles O23: each transaction's task hits the line, takes its free suit and does its operation there. -/
theorem hostFlowTransactionsActOnARecord : Obligations.HostFlowTransactionsActOnARecord := by
  unfold Obligations.HostFlowTransactionsActOnARecord
  rintro s n z c key rest l info words hr hd hf hq hfree hz hfind hl hrec hprov rfl rfl rfl rfl
  have h : ProvRecord s z l := ⟨hl.symm, hrec, hprov⟩
  have hn : okSession n = true := hr.1
  have hkeep : ∀ on, rest.length = keyPad s →
      (direct s n (flowTxn (if on then 5 else 6) 0 rest) opFlow).lines = kset s.lines z (l.wrote s [.keep on])
      ∧ (direct s n (flowTxn (if on then 5 else 6) 0 rest) opFlow).sent
        = s.sent ++ [.response n ⟨0x13, 0, stOk, if on then 5 else 6, provInfo z (l.wrote s [.keep on])⟩] := by
    intro on hlen
    refine direct_flow_key hr hd hf hq hfree h hfind (by cases on <;> decide) (by cases on <;> decide)
      (flowWf_key hlen (by cases on <;> decide)) fun v src c j hv _ hh => ?_
    obtain ⟨ha, hdone, -⟩ := hostApply_writes hv hfree h src c (es := [.keep on]) (by simp) rfl
    exact ⟨_, by rw [hostOnRecord_keep hh, ha.flowInfo], hdone⟩
  refine ⟨fun hlen => ?read, ?index, ?keepSet, ?keepClear, ?update, fun hlen ht => ?delete⟩
  case read =>
    obtain ⟨hlines, hsent⟩ := direct_flow_key hr hd hf hq hfree h hfind (sub := 0) (by decide) (by decide) (flowWf_key hlen (by decide))
      fun v src c j hv _ hh => ⟨_, by rw [hostOnRecord_read hh, hh.flowData, ((hostHit_frame hv hfree).1.geometry l).2], hostHit_done hv hfree h⟩
    exact ⟨_, cmd_ok (i := .flowRead n rest) s hn, (lineOf_of_lines hlines).trans h.1, hsent⟩
  case index =>
    have hidx : lineSuit z < 2 ^ 40 := by
      unfold lineSuit
      omega
    obtain ⟨hlines, hsent⟩ := direct_flow_hit hr hd hf hq (sub := 1) (i := lineSuit z) (d := []) (by decide)
      (flowWf_index hidx)
      fun v src c j hv _ => ⟨_, flowRun_index hv hfree h, takeSuit_done hv hfree h⟩
    exact ⟨_, cmd_ok (i := .flowReadIndex n (2 ^ 27 + z)) s (Bool.and_eq_true_iff.2 ⟨hn, decide_eq_true hidx⟩), (lineOf_of_lines hlines).trans h.1, hsent⟩
  case keepSet =>
    rintro new hlen rfl
    obtain ⟨hlines, hsent⟩ := hkeep true hlen
    exact ⟨_, cmd_ok (i := .flowKeepSet n rest) s hn, (lineOf_of_lines hlines).trans (kgetD_kset_same ..), hsent⟩
  case keepClear =>
    rintro new hlen rfl
    obtain ⟨hlines, hsent⟩ := hkeep false hlen
    exact ⟨_, cmd_ok (i := .flowKeepClear n rest) s hn, (lineOf_of_lines hlines).trans (kgetD_kset_same ..), hsent⟩
  case update =>
    rintro ws new rfl hne hlen hin hnew
    have hwrote : l.wrote s (updateEffects s rest) = { l with words := new, dirty := true } := by
      unfold Line.wrote updateEffects
      rw [hnew, List.foldl_map]
    obtain ⟨hes, hnd⟩ := updateEffects_words hne
    obtain ⟨hlines, hsent⟩ := direct_flow_key hr hd hf hq hfree h hfind (sub := 3) (by decide) (by decide) (flowWf_update hlen hin)
      fun v src c j hv _ hh => by
        obtain ⟨ha, hdone, hw⟩ := hostApply_writes (j := j) hv hfree h src c hes hnd
        have hrun := hostOnRecord_update hh ((hostHit_frame hv hfree).1.geometry l).1 ha
        rw [ha.flowData, hw] at hrun
        exact ⟨_, hrun, hdone⟩
    rw [hwrote] at hlines hsent
    rw [provWords, ← List.append_assoc] at hsent
    exact ⟨_, cmd_ok (i := .flowUpdate n rest) s hn, (lineOf_of_lines hlines).trans (kgetD_kset_same ..), hsent⟩
  case delete =>
    obtain ⟨hlines, hsent⟩ := direct_flow_key hr hd hf hq hfree h hfind (sub := 4) (by decide) (by decide) (flowWf_key hlen (by decide))
      fun v src c j hv hk hh => ⟨_, by rw [hostOnRecord_delete hh, hh.flowInfo], hostApply_deletes hv hfree h src c ht hk⟩
    exact ⟨_, cmd_ok (i := .flowDelete n rest) s hn, (congrArg (kget · z) hlines).trans (kget_kdel_same ..), hsent⟩

end Sys2Proof.Machine
end

section
/-!
PROOFS. A fetch that ends without poison: the line it fills, or leaves free or ABSENT, and the trick that waits for it
(08_flow_records.md R181, R184, R189, R192).
-/
namespace Sys2Proof.Machine

open Sys2Proof

/-! ## The end of a fetch (R184) -/

/-- Line `z`'s fetch is pending, its tag reads have come back, and none of them is poisoned. -/
def ReadsBack (s : State) (z : Nat) (l : Line) : Prop :=
  lineOf s z = l ∧ l.lstate = .pending ∧ (∀ e ∈ s.hbmc.reqs, ∀ r ∈ e.2, r.line ≠ z) ∧ ∀ r ∈ kgetD s.hbmc.tags z [], r.bad = false

/-- The state once the records of a fetch have been read and its tags are spent. -/
theorem readBack_hbm (s : State) (z src : Nat) (is : List Nat) : SameButHbm s (tagsRead (recordReads s src is) z false) :=
  (SameButHbm.recordReads s src is).trans (.tagsRead _ _ _)

section End
variable {s : State} {z : Nat} {l : Line} (h : ReadsBack s z l)
include h

theorem ReadsBack.waitsNot : (l.lstate != .pending || s.hbmc.reqs.any fun e => e.2.any (·.line == z)) = false := by
  obtain ⟨-, hp, hreq, -⟩ := h
  rw [hp, Bool.or_eq_false_iff]
  refine ⟨by decide, ?_⟩
  rw [List.any_eq_false]
  intro e he
  rw [Bool.not_eq_true, List.any_eq_false]
  intro r hr
  simpa using hreq e he r hr

theorem ReadsBack.clean {r : Fetched} (hrec : recordPoison s (fetchVisits (lineTag s z) s l.key r) = false) :
    (false || (kgetD s.hbmc.tags z []).any (·.bad) || recordPoison s (fetchVisits (lineTag s z) s l.key r)) = false := by
  obtain ⟨-, -, -, hbad⟩ := h
  rw [hrec, Bool.false_or, Bool.or_false, List.any_eq_false]
  intro r hr
  rw [hbad r hr]
  exact Bool.false_ne_true

theorem ReadsBack.absent {hint : Option Nat} (hf : fetchFind (lineTag s z) s l.key = .absent hint)
    (hrec : recordPoison s (fetchVisits (lineTag s z) s l.key (.absent hint)) = false) :
    ∃ u, SameButHbm s u ∧ fetchEnd s z false = fetchAbsent u z hint := by
  have hl := h.1
  refine ⟨_, readBack_hbm s z (bankOf s (z / 16)) (fetchVisits (lineTag s z) s l.key (.absent hint)), ?_⟩
  unfold fetchEnd
  dsimp only
  rw [hl, h.waitsNot, if_neg Bool.false_ne_true, hf]
  dsimp only
  rw [h.clean hrec, if_neg Bool.false_ne_true]

theorem ReadsBack.found {i : Nat} (hf : fetchFind (lineTag s z) s l.key = .found i)
    (hrec : recordPoison s (fetchVisits (lineTag s z) s l.key (.found i)) = false) (hclash : clashLine s z i = none)
    (hsuit : kget s.suits i = none) : ∃ u, SameButHbm s u ∧ fetchEnd s z false = fetchFound u z i := by
  have hl := h.1
  refine ⟨_, readBack_hbm s z (bankOf s (z / 16)) (fetchVisits (lineTag s z) s l.key (.found i)), ?_⟩
  unfold fetchEnd
  dsimp only
  rw [hl, h.waitsNot, if_neg Bool.false_ne_true, hf]
  dsimp only
  rw [h.clean hrec, hclash, suitAt_none hsuit]
  rfl

end End

/-! ## Suits that move (R185) -/

/-- Asking for a copy of a record, where it has a kitty slot, leaves suits, tricks, lines and HBM alone (R220). -/
theorem mirrorDue_frame (c : Bool) (s : State) (i : Nat) :
    (if c then mirrorDue s i else s).suits = s.suits ∧ (if c then mirrorDue s i else s).tricks = s.tricks
    ∧ (if c then mirrorDue s i else s).lines = s.lines ∧ (if c then mirrorDue s i else s).hbm = s.hbm := by
  unfold mirrorDue raiseHigh
  repeat' split
  all_goals exact ⟨rfl, rfl, rfl, rfl⟩

/-- Moving a suit leaves the lines and the HBM alone. -/
theorem moveSuit_frame (s : State) (old new : Nat) :
    (moveSuit s old new).lines = s.lines ∧ (moveSuit s old new).hbm = s.hbm := by
  unfold moveSuit
  dsimp only
  exact ⟨(mirrorDue_frame _ _ new).2.2.1, (mirrorDue_frame _ _ new).2.2.2⟩

/-- A suit that only its holder names goes to a free number whole. -/
theorem moveSuit_suits {s : State} {old new : Nat} {h : Holder} (ho : kget s.suits old = some ⟨some h, [], []⟩)
    (hn : kget s.suits new = none) : (moveSuit s old new).suits = kset (kdel s.suits old) new ⟨some h, [], []⟩ := by
  have hat : suitAt s old = ⟨some h, [], []⟩ := by
    unfold suitAt kgetD
    rw [ho]
    rfl
  unfold moveSuit
  dsimp only
  rw [hat, suitAt_none hn]
  refine (mirrorDue_frame _ _ new).1.trans ?_
  dsimp only
  refine if_neg fun q => ?_
  exact Option.some_ne_none h (congrArg Suit.holder q)

/-- A trick that has the suit and waits for a fetch goes with it. -/
theorem moveSuit_trick {s : State} {old new d x b op : Nat} {out : W32} {u : Trick} (hu : trickAt s d x = some u)
    (hs : u.suit = some old) (hm : u.more = []) (hw : u.wait = some (.fetch b op out)) :
    trickAt (moveSuit s old new) d x = some { u with suit := some new } := by
  unfold trickAt at *
  unfold moveSuit
  dsimp only
  rw [(mirrorDue_frame _ _ new).2.1, kget_kmap, hu, Option.map_some, hs, hm, hw]
  simp

/-! ## Who waits for a fetch (R189) -/

/-- A trick that waits for the fetch of line `z` goes on. -/
theorem wakeFetch_trick {s : State} {z m d x op : Nat} {out : W32} {u : Trick} {ws : List Holder} {ch : List Nat}
    (hs : suitAt s m = ⟨some (.trick d x), ws, ch⟩) (hu : trickAt s d x = some u) (hw : u.wait = some (.fetch z op out)) :
    trickAt (wakeFetch s z m) d x = some { u with wait := some (.woken op out) } := by
  unfold wakeFetch
  dsimp only
  rw [hs]
  dsimp only
  rw [modTrick_some hu, trickAt_setTrick, hw]
  dsimp only
  rw [if_pos rfl]

/-- Waking whoever waits for a fetch leaves the suits alone. -/
theorem wakeFetch_suits (s : State) (z m : Nat) : (wakeFetch s z m).suits = s.suits := by
  unfold wakeFetch
  dsimp only
  split
  · split
    · exact (SameButObs.decCount s _).lines_suits.2
    · rfl
  · rfl
  · rfl

/-! ## A found record fills its line (R181, R192) -/

/-- Line `l` once the fetch that found record `i` has filled it with the record and the touches that waited. -/
def filledLine (s : State) (l : Line) (i : Nat) : Line :=
  { l with lstate := .record, index := i, dirty := l.touches.1 != 0, words := lineHot s (touchSum s (hbmRecord s i) l.touches),
           key := [], hint := none, gathered := none, touches := (0, 0, 0) }

section Fill
variable {s u : State} {z i : Nat} {l : Line} (hl : lineOf s z = l) (hu : SameButHbm s u)
include hl hu

/-- `v` is `s` with the line filled, but for what reads of the HBM change. -/
theorem fetchFound_fill : ∃ v, fetchFound u z i = wakeFetch (moveSuit v (lineSuit z) i) z i
    ∧ v.lines = kset s.lines z (filledLine s l i) ∧ v.hbm = s.hbm ∧ v.suits = s.suits ∧ v.tricks = s.tricks := by
  refine ⟨setLine u z (filledLine s l i), ?_, ?_⟩
  · unfold fetchFound
    dsimp only
    unfold SameButHbm at hu
    rw [hu, ← hl]
    rfl
  · unfold SameButHbm at hu
    rw [hu]
    exact ⟨rfl, rfl, rfl, rfl⟩

theorem fetchFound_line : kget (fetchFound u z i).lines z = some (filledLine s l i) ∧ (fetchFound u z i).hbm = s.hbm := by
  obtain ⟨v, hv, hlines, hhbm, -, -⟩ := fetchFound_fill (i := i) hl hu
  obtain ⟨wlines, whbm⟩ := wakeFetch_frame (moveSuit v (lineSuit z) i) z i
  obtain ⟨mlines, mhbm⟩ := moveSuit_frame v (lineSuit z) i
  rw [hv, wlines, mlines, hlines, whbm, mhbm, hhbm]
  exact ⟨kget_kset_same .., rfl⟩

variable {d x b op : Nat} {out : W32} {t : Trick} (hsuit : kget s.suits (lineSuit z) = some ⟨some (.trick d x), [], []⟩)
  (hfree : kget s.suits i = none)
include hsuit hfree

/-- The trick that holds the line's suit holds the record's instead. -/
theorem fetchFound_suits (hi : i < 2 ^ 27) : suitAt (fetchFound u z i) i = ⟨some (.trick d x), [], []⟩
    ∧ suitAt (fetchFound u z i) (lineSuit z) = Suit.idle := by
  obtain ⟨v, hv, -, -, hsuits, -⟩ := fetchFound_fill (i := i) hl hu
  have hne : lineSuit z ≠ i := by
    unfold lineSuit
    omega
  have hs : (fetchFound u z i).suits = kset (kdel s.suits (lineSuit z)) i ⟨some (.trick d x), [], []⟩ := by
    rw [hv, wakeFetch_suits, moveSuit_suits (hsuits ▸ hsuit) (hsuits ▸ hfree), hsuits]
  unfold suitAt
  rw [hs, kgetD_kset_same, kgetD_kset_ne _ _ _ hne]
  refine ⟨rfl, ?_⟩
  unfold kgetD
  rw [kget_kdel_same]
  rfl

/-- Where it waits for this fetch, it goes on. -/
theorem fetchFound_trick (ht : trickAt s d x = some t) (hs : t.suit = some (lineSuit z)) (hm : t.more = [])
    (hw : t.wait = some (.fetch z op out)) :
    trickAt (fetchFound u z i) d x = some { t with suit := some i, wait := some (.woken op out) } := by
  obtain ⟨v, hv, -, -, hsuits, htricks⟩ := fetchFound_fill (i := i) hl hu
  have hat : suitAt (moveSuit v (lineSuit z) i) i = ⟨some (.trick d x), [], []⟩ := by
    unfold suitAt
    rw [moveSuit_suits (hsuits ▸ hsuit) (hsuits ▸ hfree), kgetD_kset_same]
  have htv : trickAt v d x = some t := (congrArg (kget · _) htricks).trans ht
  rw [hv]
  exact wakeFetch_trick hat (moveSuit_trick htv hs hm hw) hw

end Fill

/-! ## An absent key (R184) -/

section Absent
variable {s u : State} {z : Nat} {l : Line} (hl : lineOf s z = l) (hu : SameButHbm s u) (hg : l.gathered = none) (hint : Option Nat)
include hl hu hg

/-- A line that nobody wants is free again. -/
theorem fetchAbsent_free (hsuit : kget s.suits (lineSuit z) = none) : (fetchAbsent u z hint).lines = kdel s.lines z := by
  unfold SameButHbm at hu
  have hlu : lineOf u z = l := by
    rw [hu]
    exact hl
  have hfree : suitFree u (lineSuit z) = true := by
    unfold suitFree khas
    rw [hu, hsuit]
    rfl
  unfold fetchAbsent
  dsimp only
  rw [hlu, hg]
  dsimp only
  rw [hfree, if_pos rfl, hu]
  rfl

/-- A line that a trick waits for is known ABSENT, and the trick goes on. -/
theorem fetchAbsent_waited {d x op : Nat} {out : W32} {t : Trick} (hsuit : kget s.suits (lineSuit z) = some ⟨some (.trick d x), [], []⟩)
    (ht : trickAt s d x = some t) (hw : t.wait = some (.fetch z op out)) :
    kget (fetchAbsent u z hint).lines z = some { l with lstate := .absent, hint := hint, touches := (0, 0, 0) }
    ∧ trickAt (fetchAbsent u z hint) d x = some { t with wait := some (.woken op out) } := by
  unfold SameButHbm at hu
  have hlu : lineOf u z = l := by
    rw [hu]
    exact hl
  have hheld : suitFree u (lineSuit z) = false := by
    unfold suitFree khas
    rw [hu, hsuit]
    rfl
  obtain ⟨v, hv⟩ : ∃ v, v = setLine u z { l with lstate := .absent, hint := hint, touches := (0, 0, 0) } := ⟨_, rfl⟩
  have habs : fetchAbsent u z hint = wakeFetch v z (lineSuit z) := by
    unfold fetchAbsent
    dsimp only
    rw [hlu, hg]
    dsimp only
    rw [hheld, if_neg Bool.false_ne_true, hv, hg]
  have hat : suitAt v (lineSuit z) = ⟨some (.trick d x), [], []⟩ := by
    unfold suitAt kgetD
    rw [hv, hu]
    exact congrArg (·.getD Suit.idle) hsuit
  have htv : trickAt v d x = some t := by
    rw [hv, hu]
    exact ht
  rw [habs, (wakeFetch_frame v z _).1]
  refine ⟨?_, wakeFetch_trick hat htv hw⟩
  rw [hv]
  exact kget_kset_same ..

end Absent

/-! ## The commands -/

section Commands
variable {s : State} {z : Nat} (hwf : okLine z = true)
include hwf

theorem exec_fetchComplete : exec (.fetchComplete z false) s = .next (if isSnap s then s else keepFixed s (fetchEnd s z false)) := by
  refine (cmd_ok (i := .fetchComplete z false) (f := fun s => if isSnap s then s else fetchEnd s z false) s hwf).trans ?_
  split <;> rfl

theorem exec_snapFetchComplete : exec (.snapFetchComplete z false) s = .next (if isSnap s then keepFixed s (fetchEnd s z false) else s) := by
  refine (cmd_ok (i := .snapFetchComplete z false) (f := fun s => if isSnap s then fetchEnd s z false else s) s hwf).trans ?_
  split <;> rfl

end Commands

/-- The command of the game in force ends the fetch; the other one does nothing. -/
theorem exec_fetch_pair {s : State} {z : Nat} {c o : Instr} (hsnap : isSnap s = true → c = .snapFetchComplete z false ∧ o = .fetchComplete z false)
    (hplain : isSnap s = false → c = .fetchComplete z false ∧ o = .snapFetchComplete z false) (hwf : c.wellFormed = true) :
    exec o s = .next s ∧ exec c s = .next (keepFixed s (fetchEnd s z false)) := by
  cases hg : isSnap s with
  | true =>
    obtain ⟨rfl, rfl⟩ := hsnap hg
    have hz : okLine z = true := hwf
    rw [exec_fetchComplete hz, exec_snapFetchComplete hz, hg]
    exact ⟨rfl, rfl⟩
  | false =>
    obtain ⟨rfl, rfl⟩ := hplain hg
    have hz : okLine z = true := hwf
    rw [exec_fetchComplete hz, exec_snapFetchComplete hz, hg]
    exact ⟨rfl, rfl⟩

/-- Settles O54: the fetch ends in its line, and the suit and the trick that waits go with the record it found. -/
theorem aFetchFillsItsLine : Obligations.AFetchFillsItsLine := by
  unfold Obligations.AFetchFillsItsLine
  intro s z i l c o hz hl hp hreq hbad hsnap hplain hwf
  have h : ReadsBack s z l := ⟨hl.symm, hp, hreq, hbad⟩
  obtain ⟨hother, hexec⟩ := exec_fetch_pair hsnap hplain hwf
  refine ⟨hother, fun hf hrec hclash hfree hi => ?found, fun hint hf hrec hg => ?absent⟩
  case found =>
    obtain ⟨u, hu, hend⟩ := h.found hf hrec hclash hfree
    obtain ⟨hline, hhbm⟩ := fetchFound_line (i := i) h.1 hu
    rw [hend] at hexec
    refine ⟨_, _, hexec, hline, rfl, rfl, rfl, rfl, rfl, hhbm, fun d x b t op out hsuit ht hs hm hw => ?_⟩
    obtain ⟨hnew, hold⟩ := fetchFound_suits h.1 hu hsuit hfree hi
    refine ⟨hnew, hold, fun hb => ?_⟩
    exact fetchFound_trick h.1 hu hsuit hfree ht hs hm (hb ▸ hw)
  case absent =>
    obtain ⟨u, hu, hend⟩ := h.absent hf hrec
    rw [hend] at hexec
    refine ⟨fun hsuit => ⟨_, hexec, fetchAbsent_free h.1 hu hg hint hsuit⟩, fun d x t op out hsuit ht hw => ?_⟩
    exact ⟨_, hexec, fetchAbsent_waited h.1 hu hg hint hsuit ht hw⟩

end Sys2Proof.Machine
end

section
/-!
PROOFS. Start windows, scan tasks, delay lists and re-entry from the stock (08_flow_records.md R189, R193;
10_task_scheduler_and_suits.md R230 to R233, R236).
-/
namespace Sys2Proof.Machine

open Sys2Proof

/-! ## The start window (R193) -/

theorem windowRoll_rolls {s : State} {bank : Nat} (hd : hasDeck s = true) (hw : inWindow s = true) (hb : bank < banks s) :
    windowRoll s bank = { s with windows := kset s.windows bank ((kgetD s.windows bank (0, 0)).1 + 1, 0) } := by
  unfold windowRoll
  rw [hd, hw, decide_eq_true hb]
  rfl

/-! ## Scan tasks (R230) -/

/-- The body of the next chunk's scan task. -/
def scanBody (s : State) : TaskBody :=
  { args := [0, 0, 0, 0], suit := none, succ := none, routine := (draw s).1 % 256, list := 14, urgent := false,
    level := fgF s 12 1 % 8, delay := (fgF s 10 2 * 10 ^ 6 + s.scanRem) / scanChunks s, origin := 2 }

/-- It scans the 4,096 records of the chunk. -/
def scanKind (s : State) : TaskKind := .scan (4096 * s.scanAt) (4096 * s.scanAt + 4096)

theorem scanPostOp_undealt {s : State} (hd : hasDeck s = false) : scanPostOp s = s := by
  unfold scanPostOp
  rw [hd]
  rfl

theorem scanPostOp_posts {s u : State} {h : Nat} (hd : hasDeck s = true) (hp : partPost (draw s).2 (scanBody s) (scanKind s) = some (h, u)) :
    scanPostOp s = { u with scanAt := (u.scanAt + 1) % scanChunks s, scanRem := (fgF s 10 2 * 10 ^ 6 + s.scanRem) % scanChunks s } := by
  unfold scanPostOp
  rw [hd, if_neg (by decide)]
  unfold scanBody scanKind at hp
  dsimp only
  rw [show partPost (draw s).2 _ _ = some (h, u) from hp]

theorem scanPostOp_held {s : State} (hd : hasDeck s = true) (hp : partPost (draw s).2 (scanBody s) (scanKind s) = none) :
    scanPostOp s = holdPost s .scan := by
  unfold scanPostOp
  rw [hd, if_neg (by decide)]
  unfold scanBody scanKind at hp
  dsimp only
  rw [show partPost (draw s).2 _ _ = none from hp]

/-- A full pool gives no handle (R230). -/
theorem partPost_full {s : State} (h : kcount s.tasks 0 poolHandles = poolHandles) (b : TaskBody) (k : TaskKind) : partPost s b k = none := by
  unfold partPost chooseFree
  dsimp only
  rw [h, if_pos (by decide)]
  rfl

/-! ## Posts that found the pool full (R230) -/

/-- What `t` holds back, `s` held back before, or it is the post of a ring. -/
def HeldGrows (s t : State) : Prop := ∀ p ∈ t.postHeld, p ∈ s.postHeld ∨ ∃ r, p = .ring r

theorem HeldGrows.of_eq {s t : State} (h : t.postHeld = s.postHeld) : HeldGrows s t := fun _ hp => .inl (h ▸ hp)

theorem HeldGrows.trans {s t u : State} (h : HeldGrows s t) (k : HeldGrows t u) : HeldGrows s u :=
  fun p hp => (k p hp).elim (h p) .inr

theorem settle_postHeld (s : State) (h via : Nat) : (settle s h via).postHeld = s.postHeld := by
  unfold settle
  split
  · rfl
  · split
    · rfl
    · split
      · rfl
      · unfold raiseHigh
        dsimp only
        split <;> rfl

theorem partPost_postHeld {s u : State} {b : TaskBody} {k : TaskKind} {h : Nat} (e : partPost s b k = some (h, u)) :
    u.postHeld = s.postHeld := by
  unfold partPost at e
  obtain ⟨r, hr, hu⟩ := Option.map_eq_some_iff.1 e
  obtain ⟨-, rfl⟩ := Prod.mk.inj hu
  have hf : r.2.postHeld = s.postHeld := by
    unfold chooseFree at hr
    dsimp only at hr
    split at hr
    · cases hr
    · obtain ⟨j, -, rfl⟩ := Option.map_eq_some_iff.1 hr
      rfl
  unfold postAt
  dsimp only
  rw [settle_postHeld, hbmWrite_only]
  exact hf

theorem ringThreshold_held (s : State) (r : Nat) : HeldGrows s (ringThreshold s r) := by
  unfold ringThreshold
  dsimp only
  split
  · exact .of_eq rfl
  · split
    · split <;> exact .of_eq rfl
    · split
      · split
        · next q e => exact .of_eq (partPost_postHeld (u := q.2) e)
        · unfold holdPost
          split
          · exact .of_eq rfl
          · intro q hq
            exact (List.mem_append.1 hq).imp_right fun hr => ⟨r, List.mem_singleton.1 hr⟩
      · exact .of_eq rfl

theorem ringFree_postHeld {s t : State} {r n : Nat} (e : ringFree s r n = some t) : t.postHeld = s.postHeld := by
  unfold ringFree at e
  obtain ⟨q, -, rfl⟩ := Option.map_eq_some_iff.1 e
  rfl

theorem ringPut_held (s : State) (r : Nat) (item : List Byte) (p : Bool) : HeldGrows s (ringPut s r item p) := by
  unfold ringPut
  split
  · exact .of_eq rfl
  · next t e =>
    have hf := ringFree_postHeld e
    refine HeldGrows.trans (.of_eq ?_) (ringThreshold_held _ r)
    unfold ringStore
    dsimp only
    rw [hbmWrite_only, hbmWrite_only]
    exact hf

theorem ringWrite_held (s : State) (r : Nat) (item : List Byte) (p : Bool) : HeldGrows s (ringWrite s r item p) := by
  unfold ringWrite
  split
  · unfold addSlot
    cases e : ringFree s r item.length with
    | none => exact .of_eq rfl
    | some t =>
      have hf := ringFree_postHeld e
      exact .of_eq hf
  · exact ringPut_held s r item p

theorem traceTask_held (s : State) (ev : Nat) (race : Bool) (h : Nat) (b : Option TaskBody) (d c : Nat) :
    HeldGrows s (traceTask s ev race h b d c) := by
  have hwrite : ∀ (on : Bool) r item, HeldGrows s (if on then ringWrite s r item false else s) := by
    intro on r item
    cases on
    · exact .of_eq rfl
    · exact ringWrite_held s r item false
  unfold traceTask
  cases b <;> exact hwrite _ _ _

/-- Retrying the posts of rings leaves a task's entry alone. -/
theorem repost_rings_kept {h : Nat} {y : Task} : ∀ (ps : List HeldPost) (v : State), (∀ p ∈ ps, ∃ r, p = .ring r) → TaskKept h y v →
    TaskKept h y (ps.foldl repost v) ∧ SameButObs v (ps.foldl repost v) := by
  intro ps
  induction ps with
  | nil => exact fun v _ hk => ⟨hk, .refl v⟩
  | cons p ps ih =>
    intro v hp hk
    obtain ⟨r, rfl⟩ := hp p List.mem_cons_self
    obtain ⟨hkept, hsame⟩ := ih (ringThreshold v r) (fun q hq => hp q (List.mem_cons_of_mem _ hq)) (ringThreshold_kept hk r)
    exact ⟨hkept, (SameButObs.ringThreshold v r).trans hsame⟩

theorem SameButObs.heldList {s t : State} (h : SameButObs s t) (p : HeldPost) : heldList t p = heldList s p := by
  unfold SameButObs at h
  rw [h]
  cases p <;> rfl

/-! ## A tick of a delay list (R231 to R233) -/

/-- List `k` after its tick, once its mover has been given `n` tasks more. -/
def ticked (s : State) (k n : Nat) : State :=
  { s with listNow := kset s.listNow k ((listNow s k + 1) % 2 ^ 21), moverAt := kset s.moverAt k (max s.clk (kgetD s.moverAt k 0) + n) }

/-- The tasks of list `k` whose boundary has passed at `now`. -/
def dueOn (s : State) (k now : Nat) : List (Nat × Task) :=
  s.tasks.filter fun e => e.2.state == .delayed && e.2.list == k && tickPassed now e.2.expiry

section Tick
variable {s : State} {k : Nat} (hn : kget s.tickNew k = none)
include hn

theorem listTickOp_idle (hd : dueOn s k ((listNow s k + 1) % 2 ^ 21) = []) : listTickOp s k = ticked s k 0 := by
  unfold dueOn at hd
  unfold listTickOp
  dsimp only
  rw [hn]
  dsimp only
  rw [hd]
  rfl

theorem listTickOp_one {h : Nat} {x : Task} (hd : dueOn s k ((listNow s k + 1) % 2 ^ 21) = [(h, x)]) :
    ∃ late, listTickOp s k = expire (ticked s k 1) h late := by
  unfold dueOn at hd
  unfold listTickOp
  dsimp only
  rw [hn]
  dsimp only
  rw [hd]
  exact ⟨_, rfl⟩

end Tick

/-- A task that has left its delay list is READY, or waits for those before it (R231). -/
theorem settle_entry {s : State} {h : Nat} {x : Task} (via : Nat) (hs : ksorted s.tasks = true) (hx : kget s.tasks h = some x)
    (hd : x.delayed = false) : ∃ y, TaskKept h y (settle s h via) ∧ y.delayed = false
      ∧ y.state = (if 0 < x.count then .waiting else .ready) ∧ y.body = x.body ∧ y.kind = x.kind := by
  unfold settle
  rw [hx]
  dsimp only
  rw [hd, if_neg Bool.false_ne_true]
  split
  · exact ⟨_, ⟨ksorted_kset _ _ hs, kget_kset_same ..⟩, rfl, rfl, rfl, rfl⟩
  · unfold raiseHigh
    dsimp only
    split <;> exact ⟨_, ⟨ksorted_kset _ _ hs, kget_kset_same ..⟩, rfl, rfl, rfl, rfl⟩

/-- The expired task leaves its list; beside its entry, observation alone changes. -/
theorem expire_entry {s : State} {h : Nat} {x : Task} (late : Bool) (hs : ksorted s.tasks = true) (hx : kget s.tasks h = some x) :
    SameButObs s (expire s h late) ∧ HeldGrows s (expire s h late)
    ∧ ∃ y, TaskKept h y (expire s h late) ∧ y.delayed = false ∧ y.state = (if 0 < x.count then .waiting else .ready)
      ∧ y.body = x.body ∧ y.kind = x.kind := by
  obtain ⟨u, hu⟩ : ∃ u, u = settle { s with tasks := kset s.tasks h { x with delayed := false } } h x.list := ⟨_, rfl⟩
  obtain ⟨y, hy, yd, ys, yb, yk⟩ := settle_entry (s := { s with tasks := kset s.tasks h { x with delayed := false } }) x.list
    (ksorted_kset _ _ hs) (kget_kset_same ..) rfl
  have hsame : SameButObs s u := by
    rw [hu]
    exact SameButObs.trans (t := { s with tasks := kset s.tasks h { x with delayed := false } }) rfl (.settle _ _ _)
  have hpost : u.postHeld = s.postHeld := by
    rw [hu, settle_postHeld]
  rw [← hu] at hy
  have hexp : expire s h late = traceTask (if late then bump u aTskLate else u) 4 false h (some x.body) 0x1FF 0xFF := by
    unfold expire
    rw [hx]
    dsimp only
    rw [← hu]
  obtain ⟨v, hv⟩ : ∃ v, v = if late then bump u aTskLate else u := ⟨_, rfl⟩
  have hvu : SameButObs u v ∧ v.postHeld = u.postHeld ∧ TaskKept h y v := by
    rw [hv]
    cases late <;> exact ⟨rfl, rfl, hy⟩
  obtain ⟨hvs, hvp, hvk⟩ := hvu
  rw [hexp, ← hv]
  exact ⟨(hsame.trans hvs).trans (.traceTask _ _ _ _ _ _ _), (HeldGrows.of_eq (hvp.trans hpost)).trans (traceTask_held _ _ _ _ _ _ _),
    y, traceTask_kept hvk _ _ _ _ _ _, yd, ys, yb, yk⟩

/-- Where no post waits for list `k`, its tick retries those of rings alone (R230). -/
theorem retryPosts_kept {s v : State} {k h : Nat} {y : Task} (hp : ∀ p ∈ s.postHeld, heldList s p ≠ k) (hg : HeldGrows s v)
    (hv : SameButObs s v) (hk : TaskKept h y v) :
    TaskKept h y (retryPosts v k) ∧ (retryPosts v k).listNow = v.listNow := by
  have hrings : ∀ p ∈ v.postHeld.filter (fun p => heldList v p == k), ∃ r, p = .ring r := by
    intro p hpk
    obtain ⟨hmem, hlist⟩ := List.mem_filter.1 hpk
    obtain hold | hring := hg p hmem
    · rw [hv.heldList] at hlist
      exact absurd (by simpa using hlist) (hp p hold)
    · exact hring
  obtain ⟨hkept, hsame⟩ := repost_rings_kept _ { v with postHeld := v.postHeld.filter fun p => heldList v p != k } hrings hk
  refine ⟨hkept, ?_⟩
  unfold SameButObs at hsame
  unfold retryPosts
  dsimp only
  rw [hsame]

theorem retryPosts_none {s : State} {k : Nat} (hp : ∀ p ∈ s.postHeld, heldList s p ≠ k) : retryPosts s k = s := by
  have hdue : s.postHeld.filter (fun p => heldList s p == k) = [] := by
    simpa [List.filter_eq_nil_iff] using hp
  have hkeep : s.postHeld.filter (fun p => heldList s p != k) = s.postHeld := by
    simpa [List.filter_eq_self] using hp
  unfold retryPosts
  dsimp only
  rw [hdue, hkeep]
  rfl

/-- The tick of a list with one due task leaves the task READY, or waiting for those before it (R231, R232). -/
theorem tick_expires {s : State} {k h : Nat} {x : Task} (hn : kget s.tickNew k = none)
    (hd : dueOn s k ((listNow s k + 1) % 2 ^ 21) = [(h, x)]) (hp : ∀ p ∈ s.postHeld, heldList s p ≠ k) (hs : ksorted s.tasks = true)
    (hx : kget s.tasks h = some x) :
    kget (retryPosts (listTickOp s k) k).listNow k = some ((listNow s k + 1) % 2 ^ 21)
    ∧ ∃ y, kget (retryPosts (listTickOp s k) k).tasks h = some y ∧ y.delayed = false
      ∧ y.state = (if 0 < x.count then .waiting else .ready) ∧ y.body = x.body ∧ y.kind = x.kind := by
  obtain ⟨late, htick⟩ := listTickOp_one hn hd
  obtain ⟨hsame, hgrows, y, hy, hyx⟩ := expire_entry (s := ticked s k 1) late hs hx
  obtain ⟨hkept, hnow⟩ := retryPosts_kept (s := ticked s k 1) hp hgrows hsame hy
  rw [htick]
  refine ⟨?_, y, hkept.2, hyx⟩
  unfold SameButObs at hsame
  rw [hnow, hsame]
  exact kget_kset_same ..

/-! ## Re-entry from the stock (R189, R236) -/

/-- The trick of a parked packet that re-enters FLOW in vector `k`. -/
def reentryTrick (p : Parked) (k : Nat) : Trick :=
  { Trick.blank with pkt := k, slot := pktEpoch p.pkt, routine := p.routine, restarts := p.restarts, suit := some p.suit, reentry := true }

/-- The state in which it starts: its packet in vector `k`, its suit held by context `c`, its stock slot and its task gone. -/
def reentered (s : State) (h d c k : Nat) (t : Task) (p : Parked) : State :=
  { setPkt { s with fresh := s.fresh + 2 } k p.pkt with
    stock := kdel s.stock t.stock, tasks := kdel s.tasks h,
    suits := kset s.suits p.suit { suitAt s p.suit with holder := some (.trick d c), chain := (suitAt s p.suit).chain.filter (· != t.stock) } }

section Reentry
variable {s : State} {hand h : Nat}

theorem reentryOp_none (hn : reentryNext s hand = none) : reentryOp s hand = s := by
  unfold reentryOp
  dsimp only
  rw [hn]

variable {t : Task} {p : Parked} (hn : reentryNext s hand = some (h, t)) (hp : kget s.stock t.stock = some p) (hq : p.poison = false)
  (hst : ksorted s.tricks = true) (hsp : ksorted s.pkts = true) (hroom : (tricksOf s (64 + hand)).length < 256)
  (hvec : kcount s.pkts (256 * hand) (256 * hand + 256) < 256)
include hn hp hq hst hsp hroom hvec

/-- A free context and a free vector take the packet. -/
theorem reentryOp_enters : ∃ c k, trickAt s (64 + hand) c = none ∧ kget s.pkts k = none ∧ 256 * hand ≤ k ∧ k < 256 * hand + 256
    ∧ ∀ u, u = startTrick (reentered s h (64 + hand) c k t p) (64 + hand) c (reentryTrick p k) →
      reentryOp s hand = modTrick u (64 + hand) c fun x => { x with entryClk := u.clk - p.wd } := by
  obtain ⟨key, hkey, hlo, hhi, hfree⟩ := chooseFree_some s (lo := 256 * (64 + hand)) (hi := 256 * (64 + hand) + 256) hst
    (by rw [kcount_room]; omega)
  obtain ⟨k, hk, klo, khi, kfree⟩ := chooseFree_some { s with fresh := s.fresh + 1 } (m := s.pkts) (lo := 256 * hand) (hi := 256 * hand + 256) hsp
    (by omega)
  have hctx : trickKey (64 + hand) (key % 256) = key := by
    unfold trickKey
    omega
  refine ⟨key % 256, k, by unfold trickAt; rw [hctx]; exact hfree, kfree, klo, khi, ?_⟩
  rintro u rfl
  unfold reentryOp
  dsimp only
  rw [hn]
  dsimp only
  rw [hp]
  dsimp only
  rw [hkey]
  dsimp only
  rw [hk]
  dsimp only
  rw [hq, if_neg Bool.false_ne_true]
  rfl

end Reentry

/-- What the trick of the re-entered packet and the part around it are once it has started. -/
theorem reentry_started {s : State} {hand h c k o : Nat} {t : Task} {p : Parked} {u : State}
    (hu : u = startTrick (reentered s h (64 + hand) c k t p) (64 + hand) c (reentryTrick p k))
    (ho : routineOff s (pktEpoch p.pkt) (stageOf (64 + hand)) p.routine = some o) :
    ∃ x, SameButObs { reentered s h (64 + hand) c k t p with tricks := kset s.tricks (trickKey (64 + hand) c) x } u
      ∧ x.pkt = k ∧ x.suit = some p.suit ∧ x.reentry = true ∧ x.routine = p.routine ∧ x.restarts = p.restarts ∧ x.slot = pktEpoch p.pkt := by
  obtain ⟨x, hsame, hpkt, hslot, hroutine, hrestarts, hsuit, hre, -⟩ := startTrick_entry (s := reentered s h (64 + hand) c k t p)
    (d := 64 + hand) (c := c) (b := reentryTrick p k) ho
  rw [← hu] at hsame
  exact ⟨x, hsame, hpkt, hsuit, hre, hroutine, hrestarts, hslot⟩

/-- Settles O55: each command's one effect, the tick's through the expired task's own entry. -/
theorem windowsScansDelaysAndReEntry : Obligations.WindowsScansDelaysAndReEntry := by
  unfold Obligations.WindowsScansDelaysAndReEntry
  refine ⟨fun s => ⟨?window, ?undealt, ?posts, ?full, ?tick⟩, ?reentry⟩
  case window =>
    rintro bank w hbank hd hw hb rfl
    exact cmd_run (i := .insertWindowRoll bank) hbank (windowRoll_rolls hd hw hb) rfl
  case undealt =>
    intro hd
    exact cmd_run (i := .scanTaskPost) rfl (scanPostOp_undealt hd) rfl
  case posts =>
    rintro hd hs hroom num rfl
    obtain ⟨h, u, x, hpost, hsame, hnew, hx, hbody, hkind, -⟩ := partPost_entry (s := (draw s).2) (scanBody s) (scanKind s) hs hroom
    have hat : u.scanAt = s.scanAt := by
      unfold SameButObs at hsame
      rw [hsame]
      rfl
    refine ⟨_, h, x, cmd_ok (i := .scanTaskPost) (f := fun s => scanPostOp s) s rfl, hnew, ?_⟩
    rw [scanPostOp_posts hd hpost, hat, hbody]
    exact ⟨hx, hkind, rfl, rfl, rfl, rfl, rfl, rfl⟩
  case full =>
    intro hd hfull hnone
    refine ⟨_, cmd_ok (i := .scanTaskPost) (f := fun s => scanPostOp s) s rfl, ?_⟩
    rw [scanPostOp_held hd (partPost_full (s := (draw s).2) hfull _ _), holdPost, if_neg (by rw [hnone]; exact Bool.false_ne_true)]
    exact ⟨rfl, rfl, rfl, rfl⟩
  case tick =>
    rintro k now hk rfl hp
    refine ⟨fun hn hdue => ?idle, fun h x hn hdue hs hx => ?one⟩
    case idle =>
      refine cmd_run (i := .delayListTick k) (f := fun s => retryPosts (listTickOp s k) k) (decide_eq_true hk) ?_ rfl
      rw [listTickOp_idle hn hdue]
      exact retryPosts_none (s := ticked s k 0) hp
    case one =>
      obtain ⟨hnow, y, hy, hyx⟩ := tick_expires hn hdue hp hs hx
      exact ⟨_, y, cmd_ok (i := .delayListTick k) (f := fun s => retryPosts (listTickOp s k) k) s (decide_eq_true hk), hnow, hy, hyx⟩
  case reentry =>
    rintro s hand h d o t p hh rfl
    have hok : okHand hand = true := decide_eq_true hh
    refine ⟨fun hn => cmd_run (i := .stockReentry hand) (f := fun s => reentryOp s hand) hok (reentryOp_none hn) rfl, fun hn hp hq hst hsp hroom hvec ho => ?_⟩
    obtain ⟨c, k, hctx, hvecFree, hlo, hhi, henter⟩ := reentryOp_enters hn hp hq hst hsp hroom hvec
    obtain ⟨u, hu⟩ : ∃ u, u = startTrick (reentered s h (64 + hand) c k t p) (64 + hand) c (reentryTrick p k) := ⟨_, rfl⟩
    obtain ⟨x, hsame, xpkt, xsuit, xre, xroutine, xrestarts, xslot⟩ := reentry_started hu ho
    obtain ⟨htricks, hpkts, hsuits, -, -, -, -, -, hclk, -, -, -, -, -, hstock, -⟩ := hsame.fields
    have hat : trickAt u (64 + hand) c = some x := by
      unfold trickAt
      rw [htricks]
      exact kget_kset_same ..
    have hsuit : suitAt u p.suit = { suitAt s p.suit with holder := some (.trick (64 + hand) c), chain := (suitAt s p.suit).chain.filter (· != t.stock) } := by
      unfold suitAt
      rw [hsuits]
      exact kgetD_kset_same ..
    have hexec : exec (.stockReentry hand) s = .next (keepFixed s (setTrick u (64 + hand) c { x with entryClk := u.clk - p.wd })) :=
      (cmd_ok (i := .stockReentry hand) (f := fun s => reentryOp s hand) s hok).trans (by rw [henter u hu, modTrick_some hat])
    exact ⟨_, c, k, _, hexec, hctx, hvecFree, hlo, hhi, trickAt_setTrick .., xpkt, xsuit, xre, xroutine, xrestarts, xslot,
      congrArg (· - p.wd) hclk, (congrArg (kget · k) hpkts).trans (kget_kset_same ..), hstock, congrArg Suit.holder hsuit,
      congrArg Suit.chain hsuit⟩

end Sys2Proof.Machine
end

section
/-!
PROOFS. The kitty: a kept record mirrored into its slot, the summary, the re-insertion after a restore
(09_flow_actions.md R220, R222; 17_reset_power_and_kitty.md R402, R405), and the SNAPSHOT of a group
(16_observability.md R365, R366).
-/
namespace Sys2Proof.Machine

open Sys2Proof

/-! ## A slot's bytes (Table 17.9) -/

/-- A part of a byte string just written is read back at its place. -/
theorem memRead_memWrite_part (m : Mem) (a : Nat) (pre mid post : List Byte) :
    memRead (memWrite m a (pre ++ (mid ++ post))) (a + pre.length) mid.length = mid :=
  memRead_part _ _ _ _ _ (memRead_memWrite ..)

theorem memRead_memWrite_head (m : Mem) (a : Nat) (mid post : List Byte) :
    memRead (memWrite m a (mid ++ post)) a mid.length = mid :=
  memRead_memWrite_part m a [] mid post

theorem slotImage_length (s : State) (n : Nat) (ws : List W32) : (slotImage s n ws).length = 128 := by
  have hwords : ∀ m, ((List.range m).flatMap fun w => toBytes 4 (if w < tagW s then wordOf ws w else 0)).length = 4 * m := by
    intro m
    induction m with
    | zero => rfl
    | succ m ih =>
      rw [List.range_succ, List.flatMap_append, List.length_append, ih, List.flatMap_singleton, toBytes_length]
      rfl
  rw [slotImage, List.length_append, toBytes_length, hwords]

theorem memRead_slotImage_name (s : State) (n : Nat) (ws : List W32) (m : Mem) (a : Nat) :
    memRead (memWrite m a (slotImage s n ws)) a 4 = toBytes 4 (2 ^ 31 + n % 2 ^ 28) := by
  have h := memRead_memWrite_head m a (toBytes 4 (2 ^ 31 + n % 2 ^ 28))
    ((List.range 31).flatMap fun w => toBytes 4 (if w < tagW s then wordOf ws w else 0))
  rwa [toBytes_length] at h

theorem memRead_slotImage_word (s : State) (n : Nat) (ws : List W32) (m : Mem) (a : Nat) {w : Nat} (hw : w < 31) :
    memRead (memWrite m a (slotImage s n ws)) (a + 4 + 4 * w) 4 = toBytes 4 (if w < tagW s then wordOf ws w else 0) := by
  obtain ⟨pre, post, hsplit, hpre⟩ := slot_word (fun w => toBytes 4 (if w < tagW s then wordOf ws w else 0))
    (fun _ => toBytes_length 4 _) 31 w hw
  have h := memRead_memWrite_part m a (toBytes 4 (2 ^ 31 + n % 2 ^ 28) ++ pre)
    (toBytes 4 (if w < tagW s then wordOf ws w else 0)) post
  rw [List.append_assoc, List.length_append, toBytes_length, toBytes_length, hpre, ← Nat.add_assoc] at h
  rwa [slotImage, hsplit]

/-! ## The mirroring task (R220, R230, R402) -/

section Mirror
variable {s u : State} (hk : keepUp s = true) (hd : hasDeck s = true) (hrun : partRuns (mirrorBody s).2 (mirrorBody s).1 = some u)

include hrun in
theorem mirrorTask_runs (p : HeldPost) (f : State → State) : mirrorTask s p f = f u := by
  unfold mirrorTask
  dsimp only
  rw [hrun]

include hk hd hrun

/-- KITTY_MIRROR drains the queue in its task. -/
theorem exec_kittyMirror {n : Nat} (hq : s.keep.queue = [n]) : exec .kittyMirror s = .next (keepFixed s (mirrorDrain u)) := by
  have hop : mirrorOp s = mirrorDrain u := by
    unfold mirrorOp
    rw [hk, hd, hq, mirrorTask_runs hrun]
    rfl
  rw [← hop]
  exact cmd_ok (i := .kittyMirror) s rfl

/-- KITTY_SUMMARY writes both of its areas in its task. -/
theorem exec_kittySummary : exec .kittySummary s = .next (keepFixed s (kittyCounters (kittyTimeArea u))) := by
  have hop : summaryOp s = kittyCounters (kittyTimeArea u) := by
    unfold summaryOp
    rw [hk, hd, mirrorTask_runs hrun]
    rfl
  rw [← hop]
  exact cmd_ok (i := .kittySummary) s rfl

end Mirror

/-- A queued record that has a slot is copied into it. -/
theorem mirrorDrain_copies {u : State} {n k : Nat} (hq : u.keep.queue = [n]) (hs : keepSlotOf u n = some k) :
    mirrorDrain u = { u with
      keep := { u.keep with queue := [] }, kitty := memWrite u.kitty (128 * k) (slotImage u n (mirrorWords u n)) } := by
  have hs' : keepSlotOf { u with keep := { u.keep with queue := [] } } n = some k := hs
  rw [mirrorDrain, hq, List.foldl_cons, List.foldl_nil, mirrorOne, hs']
  rfl

/-- A queued record without a slot, while all slots hold records, is counted in MIRROR_FULL. -/
theorem mirrorDrain_full {u : State} {n : Nat} (hq : u.keep.queue = [n]) (hs : keepSlotOf u n = none)
    (hfull : kSlots ≤ kcount u.keep.slots 0 kSlots) :
    mirrorDrain u = bump { u with keep := { u.keep with queue := [] } } aMirrorFull := by
  have hs' : keepSlotOf { u with keep := { u.keep with queue := [] } } n = none := hs
  rw [mirrorDrain, hq, List.foldl_cons, List.foldl_nil, mirrorOne, hs']
  dsimp only
  rw [chooseFree_none _ _ _ _ hfull]

/-! ## The summary (R402) -/

/-- Below the counters summary the summary writes the time area alone. -/
theorem memGet_summary_low (u : State) {a : Nat} (ha : a < kTime + 0x1000) :
    memGet (kittyCounters (kittyTimeArea u)).kitty a
      = memGet (memWrite u.kitty kTime ([timeReg u, rateReg u, phaseReg u, utcReg u, u.time.leapAt % 2 ^ 48].flatMap (toBytes 8))) a := by
  have hlow : a < kSummary := Nat.lt_trans ha (by decide)
  rw [counters_kitty, memGet_memWrite_out _ _ _ (.inl hlow), timeArea_low u a ha]

theorem memRead_summary_time (u : State) :
    memRead (kittyCounters (kittyTimeArea u)).kitty kTime 40
      = [timeReg u, rateReg u, phaseReg u, utcReg u, u.time.leapAt % 2 ^ 48].flatMap (toBytes 8) := by
  have hlen : ([timeReg u, rateReg u, phaseReg u, utcReg u, u.time.leapAt % 2 ^ 48].flatMap (toBytes 8)).length = 40 := by
    simp only [List.flatMap_cons, List.flatMap_nil, List.length_append, List.length_nil, toBytes_length]
  have hread := memRead_memWrite u.kitty kTime ([timeReg u, rateReg u, phaseReg u, utcReg u, u.time.leapAt % 2 ^ 48].flatMap (toBytes 8))
  rw [hlen] at hread
  exact (memRead_congr fun i hi => memGet_summary_low u (by omega)).trans hread

/-- What the summary leaves: the time area's registers, and the records below it and the rest of the part as they were. -/
theorem summary_written {c u : State} (hc : c = kittyCounters (kittyTimeArea u)) :
    memRead c.kitty kTime 40 = toBytes 8 (timeReg u) ++ toBytes 8 (rateReg u) ++ toBytes 8 (phaseReg u) ++ toBytes 8 (utcReg u)
      ++ toBytes 8 (u.time.leapAt % 2 ^ 48)
    ∧ (∀ a, a < kTime → memGet c.kitty a = memGet u.kitty a) ∧ c.keep = u.keep ∧ c.time = u.time := by
  subst hc
  refine ⟨?_, fun a ha => ?_, ?_, ?_⟩
  · rw [memRead_summary_time]
    simp only [List.flatMap_cons, List.flatMap_nil, List.append_nil, List.append_assoc]
  · rw [memGet_summary_low u (Nat.lt_add_right _ ha), memGet_memWrite_out _ _ _ (.inl ha)]
  · rw [(counters_frame _).1, (timeArea_frame u).1]
  · rw [(counters_frame _).2, (timeArea_frame u).2]

/-! ## SNAPSHOT (R365, R366) -/

section Snapshot
variable {s : State} {n g : Nat} {ws : List Nat} (hr : ready s n 1) (hg : g < 65536) (hws : groupWords s g = some ws)
include hr hg hws

/-- A group that no register latches is captured: its sequence counts, and its image is the answer. -/
theorem opSnapshot_captures (hpriv : groupPriv g = true → levelOf s n = 3) (h2 : 2 ≤ g) :
    opSnapshot s n ⟨0x10, 0, g, []⟩ = .done stOk g (groupImage (captured_ s g) g ws) (captured_ s g) := by
  obtain ⟨-, -, hl⟩ := hr
  have hlev : ¬ (groupPriv g && levelOf s n < 3) = true := by
    simp only [Bool.and_eq_true, decide_eq_true_eq, not_and]
    intro hp
    rw [hpriv hp]
    exact Nat.lt_irrefl 3
  simp only [opSnapshot, gate, if_neg (Nat.not_lt.2 hl), hg, decide_true, List.isEmpty_nil, Bool.and_self, if_true, hws, if_neg hlev,
    if_neg (show g ≠ 0 by omega), if_neg (show g ≠ 1 by omega), Ran.ok]

theorem opSnapshot_privilege (hp : groupPriv g = true) (hl3 : levelOf s n < 3) :
    opSnapshot s n ⟨0x10, 0, g, []⟩ = .done stPrivilege g [] s := by
  obtain ⟨-, -, hl⟩ := hr
  simp only [opSnapshot, gate, if_neg (Nat.not_lt.2 hl), hg, decide_true, List.isEmpty_nil, Bool.and_self, if_true, hws, hp, hl3, Ran.fail]

end Snapshot

theorem groupImage_captured (s : State) (g : Nat) (ws : List Nat) :
    groupImage (captured_ s g) g ws = toBytes 2 g ++ toBytes 2 ws.length ++ toBytes 4 ((kgetD s.snapSeq g 0 + 1) % 2 ^ 32) ++ toBytes 6 (nowS s)
      ++ toBytes 4 (nowNs s % 10 ^ 9) ++ toBytes 1 (b2n s.time.valid) ++ toBytes 13 0 ++ ws.flatMap (toBytes 8) := by
  have hseq : kgetD (captured_ s g).snapSeq g 0 = (kgetD s.snapSeq g 0 + 1) % 2 ^ 32 := kgetD_kset_same ..
  rw [groupImage, hseq]
  rfl

/-- A SNAPSHOT of a group in range answers as its operation completes. -/
theorem exec_snapshot {s t : State} {n g st : Nat} {d : List Byte} (hr : ready s n 1) (hg : g < 65536)
    (ho : opSnapshot s n ⟨0x10, 0, g, []⟩ = .done st g d t) (hk : keepFixed s t = t) (hz : t.zat.sessions = s.zat.sessions) :
    exec (.snapshot n g) s = .next (answer t n 0x10 g st d) := by
  obtain ⟨hn, hopen, -⟩ := hr
  have hwf : (okSession n && ok16 g) = true := by
    rw [hn, Bool.true_and]
    exact decide_eq_true hg
  exact cmd_run (i := .snapshot n g) hwf (direct_done hopen ho hz) (keepFixed_answer hk _ _ _ _ _)

/-! ## Re-insertion (R222, R405) -/

/-- A record's words, key and digest do not depend on what stands in the crossing queues. -/
theorem keptWords_cross (s : State) (i depth : Nat) (es : List (List Byte)) (k : Nat) :
    keptWords (cross s i depth es) k = keptWords s k := by
  obtain ⟨x, h, e⟩ := cross_frame s i depth es
  rw [e]
  rfl

theorem keyOf_cross (s : State) (i depth : Nat) (es : List (List Byte)) (ws : List W32) :
    keyOf (cross s i depth es) ws = keyOf s ws := by
  obtain ⟨x, h, e⟩ := cross_frame s i depth es
  rw [e]
  rfl

theorem digestOf_cross (s : State) (i depth : Nat) (es : List (List Byte)) (key : List Byte) :
    digestOf (cross s i depth es) key = digestOf s key := by
  obtain ⟨x, h, e⟩ := cross_frame s i depth es
  rw [e]
  rfl

theorem bump_regs_congr {s t : State} (h : t.regs = s.regs) (a : Nat) : (bump t a).regs = (bump s a).regs := by
  unfold bump bumpBy setReg regRaw
  rw [h]

theorem memRead_freeSlot (s : State) (k : Nat) : memRead (freeSlot s k).kitty (128 * k) 4 = [0, 0, 0, 0] :=
  memRead_memWrite s.kitty (128 * k) [0, 0, 0, 0]

section Reinsert
variable {s v w : State} {k : Nat}

/-- The one record that waits is re-inserted by its task, and what then still waits keeps DUE. -/
theorem exec_keptReinsert_one (hk : keepUp s = true) (hd : hasDeck s = true) (hdue : s.keep.due = true) (hf : s.rst.foldFlow = .open_)
    (hslots : dueSlots s = [k]) (hbusy : keyBusy s (keyOf s (keptWords s k)) = false)
    (hrun : partRuns (reinsertBody s).2 (reinsertBody s).1 = some v) :
    ∃ due, exec .keptReinsert s
      = .next (keepFixed s { reinsertOne v k with keep := { (reinsertOne v k).keep with due := due } }) := by
  have htask : reinsertTask s k = reinsertOne v k := by
    unfold reinsertTask
    dsimp only
    rw [hbusy, hrun]
    rfl
  have hop : reinsertOp s = { reinsertOne v k with
      keep := { (reinsertOne v k).keep with due := !(dueSlots (reinsertOne v k)).isEmpty } } := by
    unfold reinsertOp
    rw [hk, hd, hdue, hf, hslots, List.foldl_cons, List.foldl_nil, htask]
    rfl
  exact ⟨_, (cmd_ok (i := .keptReinsert) (f := reinsertOp) s rfl).trans (by rw [hop])⟩

variable (hw : w = cross v 110 64 (chunks 64 (memRead v.kitty (128 * k) 128)))
include hw

/-- A key that stands already frees the slot (assumption 28). -/
theorem reinsertOne_present (hp : keyPresent w (keyOf v (keptWords v k)) = true) : reinsertOne v k = freeSlot w k := by
  subst hw
  unfold reinsertOne
  dsimp only
  rw [keptWords_cross, keyOf_cross, if_pos hp]

variable (hp : keyPresent w (keyOf v (keptWords v k)) = false)
include hp

/-- A key without a place frees the slot, and INSERT_FAIL counts it. -/
theorem reinsertOne_fails (hm : makePlace w (keyOf v (keptWords v k)) = none) : reinsertOne v k = freeSlot (bump w aInsertFail) k := by
  subst hw
  unfold reinsertOne
  dsimp only
  rw [keptWords_cross, keyOf_cross, hp, if_neg Bool.false_ne_true, hm]

/-- A key with a place: its record is written there, and its slot names the index it got. -/
theorem reinsertOne_placed {u : State} {i : Nat} {second : Bool} (hm : makePlace w (keyOf v (keptWords v k)) = some (u, i, second)) :
    (reinsertOne v k).keep.slots = kset u.keep.slots k i ∧ (reinsertOne v k).keep.restored = (u.keep.restored + 1) % 2 ^ 15
    ∧ memRead (reinsertOne v k).kitty (128 * k) 4 = toBytes 4 (2 ^ 31 + i % 2 ^ 28)
    ∧ (reinsertOne v k).hbm = (writeRecord u i (keptWords v k) (tagWord second (digestOf v (keyOf v (keptWords v k))))).hbm := by
  obtain ⟨x, hx⟩ : ∃ x, x = writeRecord u i (keptWords v k) (tagWord second (digestOf v (keyOf v (keptWords v k)))) := ⟨_, rfl⟩
  have hkeep : x.keep = u.keep := by
    have h := SameButWin.writeRecord u i (keptWords v k) (tagWord second (digestOf v (keyOf v (keptWords v k))))
    unfold SameButWin at h
    rw [hx, h]
  have hone : reinsertOne v k = copySlot { x with keep := { x.keep with
      slots := kset x.keep.slots k i, restored := (x.keep.restored + 1) % 2 ^ 15 } } k i := by
    subst hw
    unfold reinsertOne
    dsimp only
    rw [keptWords_cross, keyOf_cross, digestOf_cross, hp, if_neg Bool.false_ne_true, hm, hx]
  rw [hone, ← hx, ← hkeep]
  exact ⟨rfl, rfl, memRead_slotImage_name .., rfl⟩

end Reinsert

/-- Settles O53: each command's operation runs its one task, and what the task wrote is read back. -/
theorem theKittyIsMirroredSummarizedAndReinserted : Obligations.TheKittyIsMirroredSummarizedAndReinserted := by
  unfold Obligations.TheKittyIsMirroredSummarizedAndReinserted
  refine ⟨fun s u hk hd hrun => ⟨fun n hq hq' => ⟨fun k hs => ?copies, fun hs hfull => ?full⟩, ?summary⟩,
    fun s n g ws hr hg hws => ⟨fun hpriv h2 => ?snapshot, fun hp hl3 => ?privilege⟩, ?reinsert⟩
  case copies =>
    have hexec := exec_kittyMirror hk hd hrun hq
    rw [mirrorDrain_copies hq' hs] at hexec
    refine ⟨_, _, hexec, rfl, rfl, rfl, rfl, memRead_slotImage_name .., fun w hw => memRead_slotImage_word _ _ _ _ _ hw, fun a ha => ?_⟩
    exact memGet_memWrite_out _ _ _ (by rwa [slotImage_length])
  case full =>
    have hexec := exec_kittyMirror hk hd hrun hq
    rw [mirrorDrain_full hq' hs hfull] at hexec
    exact ⟨_, hexec, rfl, rfl, rfl⟩
  case summary =>
    obtain ⟨c, hc⟩ : ∃ c, c = kittyCounters (kittyTimeArea u) := ⟨_, rfl⟩
    have hexec : exec .kittySummary s = .next (keepFixed s c) := hc ▸ exec_kittySummary hk hd hrun
    obtain ⟨hread, hlow, hkeep, htime⟩ := summary_written hc
    exact ⟨_, hexec, hread, hlow, hkeep, htime⟩
  case snapshot =>
    rw [exec_snapshot hr hg (opSnapshot_captures hr hg hws hpriv h2) rfl rfl, groupImage_captured]
    rfl
  case privilege =>
    exact exec_snapshot hr hg (opSnapshot_privilege hr hg hws hp hl3) rfl rfl
  case reinsert =>
    rintro s v w k ws key hk hd hdue hf hslots hbusy hrun hw rfl rfl
    obtain ⟨due, hexec⟩ := exec_keptReinsert_one hk hd hdue hf hslots hbusy hrun
    obtain ⟨hkept, hhbm, hregs, hrest⟩ : w.keep.slots = v.keep.slots ∧ w.hbm = v.hbm ∧ w.regs = v.regs
        ∧ w.keep.restored = v.keep.restored := by
      obtain ⟨x, h, hcross⟩ := cross_frame v 110 64 (chunks 64 (memRead v.kitty (128 * k) 128))
      rw [hw, hcross]
      exact ⟨rfl, rfl, rfl, rfl⟩
    refine ⟨fun hp => ?present, fun hp hm => ?fails, fun u i second hp hm => ?placed⟩
    case present =>
      rw [reinsertOne_present hw hp] at hexec
      exact ⟨_, hexec, congrArg (kdel · k) hkept, memRead_freeSlot w k, hhbm, hregs, hrest⟩
    case fails =>
      rw [reinsertOne_fails hw hp hm] at hexec
      exact ⟨_, hexec, congrArg (kdel · k) hkept, memRead_freeSlot (bump w aInsertFail) k, hhbm, bump_regs_congr hregs aInsertFail⟩
    case placed =>
      obtain ⟨hsl, hrest, hread, hhbm⟩ := reinsertOne_placed hw hp hm
      obtain ⟨r, hr⟩ : ∃ r, r = reinsertOne v k := ⟨_, rfl⟩
      rw [← hr] at hexec hsl hrest hread hhbm
      exact ⟨_, hexec, hsl, hrest, hread, hhbm⟩

end Sys2Proof.Machine
end

section
/-!
PROOFS. Writes of delay-list ticks, shapers, queues and policers (10_task_scheduler_and_suits.md R233; 12_traffic_manager.md
R277, R285, R289).
-/
namespace Sys2Proof.Machine

open Sys2Proof

/-! ## The four commands, each as the write of its register -/

section ConfigurationCommand
variable {s t : State} {n k w : Nat}

theorem exec_listCfgWrite (value : W64) (h : ready s n 2) (hk : k < 16) (he : wrListCfg s k value.toNat = t)
    (hf : keepFixed s t = t) (hz : t.zat.sessions = s.zat.sessions) :
    exec (.listCfgWrite n k value) s = .next (answer t n 0x09 (aListCfg k) stOk []) :=
  cmd_writeReg (Bool.and_eq_true_iff.2 ⟨h.1, decide_eq_true hk⟩) h (regPlace_listCfg hk) h.2.2 value.isLt
    (congrArg (Prod.mk stOk) he) hf hz

theorem exec_shaperCfg {value : W64} (h : ready s n 2) (he : wrShaper s value.toNat = t)
    (hf : keepFixed s t = t) (hz : t.zat.sessions = s.zat.sessions) :
    exec (.shaperCfg n value) s = .next (answer t n 0x09 0x1A0000000040 stOk []) :=
  cmd_writeReg h.1 h rfl h.2.2 value.isLt (congrArg (Prod.mk stOk) he) hf hz

/-- A queue and a word of its window are operands in range. -/
theorem queueCfgWrite_wf {value : W64} (hn : okSession n = true) (hk : k < 65536) (hw : w < 4) :
    (Instr.queueCfgWrite n k w value).wellFormed = true := by
  simp [Instr.wellFormed, hn, okQueue, hk, hw]

/-- A policer and a word of its window are operands in range. -/
theorem policerCfgWrite_wf {value : W64} (hn : okSession n = true) (hk : k < 65536) (hw : w < 4) :
    (Instr.policerCfgWrite n k w value).wellFormed = true := by
  simp [Instr.wellFormed, hn, okPolicer, hk, hw]

/-- Words 0 and 3 of the queue window are read-only: RATE and BURST, and TOKENS (Table 12.6). -/
theorem exec_queueCfgWrite_readOnly (value : W64) (h : ready s n 2) (hk : k < 65536) (hw : w = 0 ∨ w = 3) :
    exec (.queueCfgWrite n k w value) s = .next (answer s n 0x09 (aTmQueue k w) stOk []) := by
  rcases hw with rfl | rfl <;>
  exact cmd_writeReg (queueCfgWrite_wf h.1 hk (by decide)) h (regPlace_tmQueue hk (by decide)) h.2.2 value.isLt
    (regWrite_ro rfl ..) rfl rfl

/-- Word 1 of the queue window: QUANTUM, PRIO, TC, GROUP and OVERRUN_PERMIT (Table 12.6). -/
theorem exec_queueCfgWrite_config {value : W64} (h : ready s n 2) (hk : k < 65536) (he : wrQueueCfg s k value.toNat = t)
    (hf : keepFixed s t = t) (hz : t.zat.sessions = s.zat.sessions) :
    exec (.queueCfgWrite n k 1 value) s = .next (answer t n 0x09 (aTmQueue k 1) stOk []) :=
  cmd_writeReg (queueCfgWrite_wf h.1 hk (by decide)) h (regPlace_tmQueue hk (by decide)) h.2.2 value.isLt
    (congrArg (Prod.mk stOk) he) hf hz

/-- Word 2 of the queue window: the curves and the sampling group (Table 12.6). -/
theorem exec_queueCfgWrite_curve (value : W64) (h : ready s n 2) (hk : k < 65536) :
    exec (.queueCfgWrite n k 2 value) s
      = .next (answer (setReg s (aTmQueue k 2) (value.toNat % 2 ^ 34)) n 0x09 (aTmQueue k 2) stOk []) :=
  cmd_writeReg (queueCfgWrite_wf h.1 hk (by decide)) h (regPlace_tmQueue hk (by decide)) h.2.2 value.isLt rfl rfl rfl

/-- Words 0 and 1 of the policer window: the rates and the bucket sizes. -/
theorem exec_policerCfgWrite_config (value : W64) (h : ready s n 2) (hk : k < 65536) (hw : w < 2) :
    exec (.policerCfgWrite n k w value) s = .next (answer (wrPolicer s k w value.toNat) n 0x09 (aTmPolicer k w) stOk []) := by
  obtain rfl | rfl : w = 0 ∨ w = 1 := by omega
  all_goals
    exact cmd_writeReg (policerCfgWrite_wf h.1 hk (by decide)) h (regPlace_tmPolicer hk (by decide)) h.2.2 value.isLt rfl rfl rfl

/-- Word 2 of the policer window, the buckets, is read-only. -/
theorem exec_policerCfgWrite_tokens (value : W64) (h : ready s n 2) (hk : k < 65536) :
    exec (.policerCfgWrite n k 2 value) s = .next (answer s n 0x09 (aTmPolicer k 2) stOk []) :=
  cmd_writeReg (policerCfgWrite_wf h.1 hk (by decide)) h (regPlace_tmPolicer hk (by decide)) h.2.2 value.isLt
    (regWrite_ro rfl ..) rfl rfl

/-- The registers of the policer window lie far above those of the lanes. -/
theorem noLaneWord_tmPolicer (k w : Nat) : noLaneWord (aTmPolicer k w) = false := by
  unfold noLaneWord aTmPolicer aLane
  simp only [Bool.or_eq_false_iff, decide_eq_false_iff_not]
  omega

/-- Word 3 of the policer window is a counter (R369). -/
theorem exec_policerCfgWrite_counter (value : W64) (h : ready s n 2) (hk : k < 65536) :
    exec (.policerCfgWrite n k 3 value) s
      = .next (answer (setReg s (aTmPolicer k 3) (counterWord (regRaw s (aTmPolicer k 3) 0) value.toNat))
          n 0x09 (aTmPolicer k 3) stOk []) :=
  cmd_writeReg (policerCfgWrite_wf h.1 hk (by decide)) h (regPlace_tmPolicer hk (by decide)) h.2.2 value.isLt
    (regWrite_counter rfl (noLaneWord_tmPolicer k 3) _ _) rfl rfl

end ConfigurationCommand

/-! ## What a write does to its register -/

section ConfigurationWrite
variable {s : State} {k v : Nat}

/-- Lists 14 and 15 serve the part: a write leaves their tick alone (R233). -/
theorem wrListCfg_fixed (h : 14 ≤ k) : wrListCfg s k v = s := if_pos h

theorem wrListCfg_host (h : k < 14) :
    wrListCfg s k v = { s with tickNew := kset s.tickNew k (max 1 (min 10000 (v % 2 ^ 14))) } := by
  rw [wrListCfg, if_neg (Nat.not_le.2 h), bits, Nat.pow_zero, Nat.div_one]

/-- A rate above 1,600,000 Mb/s, or a place that the deck does not use, is rejected (R277). -/
theorem wrShaper_rejected (h : 1600000 < bits v 20 0 ∨ shaperUsed s (bits v 39 38) (bits v 55 40) = false) :
    wrShaper s v = bump s aCfgReject :=
  if_pos (by simpa using h)

theorem wrShaper_used (hr : bits v 20 0 ≤ 1600000) (hu : shaperUsed s (bits v 39 38) (bits v 55 40) = true) :
    wrShaper s v = setShaper
      (setReg s (if bits v 39 38 = 0 then aTmQueue (bits v 55 40) 0 else if bits v 39 38 = 1 then aTmGroup (bits v 55 40) 0
        else aTmPort (bits v 55 40) 0) (bits v 20 0 + bits v 36 21 * 2 ^ 21))
      (bits v 39 38) (bits v 55 40) (if bit v 37 then Int.ofNat (bits v 36 21 * 64) * byteUnit else 0) :=
  if_neg (by simp [hu, Nat.not_lt.2 hr])

/-- PRIO, TC and GROUP stand below the 36 bits that the write keeps. -/
theorem bits_queueCfg_mod (v : Nat) : bits (v % 2 ^ 36) 34 16 = bits v 34 16 := by
  unfold bits
  omega

/-- A change of PRIO, TC or GROUP is rejected while the queue holds a frame or one is in TAKE or FINISH (R289). -/
theorem wrQueueCfg_rejected (hne : bits v 34 16 ≠ bits (queueCfg s k) 34 16)
    (hheld : (qDepth s k != 0 || inEgress s k) = true) : wrQueueCfg s k v = bump s aCfgReject :=
  if_pos (by rw [bits_queueCfg_mod, bne_iff_ne.2 hne, hheld, Bool.and_true])

theorem wrQueueCfg_written (h : bits v 34 16 = bits (queueCfg s k) 34 16 ∨ (qDepth s k != 0 || inEgress s k) = false) :
    wrQueueCfg s k v = setReg s (aTmQueue k 1) (v % 2 ^ 36) := by
  refine if_neg ?_
  rw [bits_queueCfg_mod]
  rcases h with heq | hfree
  · rw [heq, bne_self_eq_false, Bool.false_and]; exact Bool.false_ne_true
  · rw [hfree, Bool.and_false]; exact Bool.false_ne_true

theorem wrPolicer_full (w : Nat) {u : State} (hu : u = setReg s (aTmPolicer k w) (v % 2 ^ (if w = 0 then 59 else 48))) :
    wrPolicer s k w v = { u with policers := kset s.policers k (polCbs u k * polUnit, polEbs u k * polUnit, s.clk) } := by
  subst hu
  unfold wrPolicer
  split <;> rfl

end ConfigurationWrite

/-- Settles O15: each command is the write of its register, and each write stores, rejects or ignores its word. -/
theorem schedulerAndTrafficConfigurationWrites : Obligations.SchedulerAndTrafficConfigurationWrites := by
  unfold Obligations.SchedulerAndTrafficConfigurationWrites
  refine ⟨?ticks, ?shapers, ?windows⟩
  case ticks =>
    intro s n k value h hk
    exact ⟨fun hhost => exec_listCfgWrite value h hk (wrListCfg_host hhost) rfl rfl,
      fun hfixed => exec_listCfgWrite value h hk (wrListCfg_fixed hfixed) rfl rfl⟩
  case shapers =>
    rintro s n _ _ _ _ value h rfl rfl rfl rfl
    refine ⟨fun hbad => exec_shaperCfg h (wrShaper_rejected hbad) rfl rfl, ?_⟩
    rintro hrate hused _ _ rfl rfl
    exact exec_shaperCfg h (wrShaper_used hrate hused) rfl rfl
  case windows =>
    intro s n k value h hk
    refine ⟨fun w hw => exec_queueCfgWrite_readOnly value h hk hw,
      fun hne hheld => exec_queueCfgWrite_config h hk (wrQueueCfg_rejected hne hheld) rfl rfl,
      fun hok => exec_queueCfgWrite_config h hk (wrQueueCfg_written hok) rfl rfl,
      exec_queueCfgWrite_curve value h hk, ?policer, exec_policerCfgWrite_tokens value h hk,
      exec_policerCfgWrite_counter value h hk⟩
    case policer =>
      rintro w u _ hw hu rfl
      rw [exec_policerCfgWrite_config value h hk hw, wrPolicer_full w hu]

end Sys2Proof.Machine
end

section
/-!
PROOFS. INJECT: a frame handed to PARSE or written into an egress queue (11_fabric_and_pots.md R257; 15_zatas_control_protocol.md R354).
-/
namespace Sys2Proof.Machine

open Sys2Proof

/-- The state in which session `n`'s transaction `x`, given as a command of its own, waits for `w`. -/
def withWait (t : State) (n : Nat) (x : Txn) (w : WaitFor) : State :=
  { t with zat := { t.zat with waits := kset t.zat.waits t.zat.nextWait ⟨n, true, x, w⟩, nextWait := t.zat.nextWait + 1 } }

section SessionCommand
variable {i : Instr} {s t : State} {n : Nat} {x : Txn} {f : State → Nat → Txn → Ran} (hi : i.wellFormed = true)
  (ho : isOpen s n = true) (hk : keepFixed s t = t)
include hi ho hk

/-- A session's command whose transaction completes leaves its effect and its answer. -/
theorem cmd_direct_done {st a : Nat} {d : List Byte} (hf : f s n x = .done st a d t) (hz : t.zat.sessions = s.zat.sessions)
    (htag : x.tag = 0) : cmd i s (fun s => direct s n x f) = .next (answer t n x.op a st d) :=
  cmd_run hi ((direct_done ho hf hz).trans (by rw [htag, answer])) (keepFixed_answer hk _ _ _ _ _)

/-- A session's command whose transaction has begun leaves it waiting. -/
theorem cmd_direct_waits {w : WaitFor} (hf : f s n x = .waits w t) :
    cmd i s (fun s => direct s n x f) = .next (withWait t n x w) :=
  cmd_run hi (direct_waits ho hf) (keepFixed_of (t := withWait t n x w) (keepFixed_fields (t := t) hk))

end SessionCommand

/-! ## The checks of INJECT (R354) -/

/-- INJECT of frame `f` at ADDRESS `a`. -/
def injTxn (a : Nat) (f : List Byte) : Txn := ⟨0x39, 0, a, f⟩

section Address
variable (s : State) (a : Nat) (f : List Byte)

theorem injAddrOk_injTxn : injAddrOk (injTxn a f) = if bit a 0 then a == 1 + bits a 47 32 * 2 ^ 32 else a == bits a 15 8 * 256 := rfl

theorem injOwner_injTxn : injOwner s (injTxn a f) = if bit a 0 then queuePort s (bits a 47 32) else bits a 15 8 := rfl

theorem injLenOk_injTxn : injLenOk s (injTxn a f)
    = (decide (60 ≤ f.length) && decide (f.length + 4 ≤ maxFrame s (injOwner s (injTxn a f)))) := rfl

end Address

section Checks
variable {s : State} {n a port : Nat} {f : List Byte} (hl : 2 ≤ levelOf s n) (ha : injAddrOk (injTxn a f) = true)
include hl ha

theorem opInject_noDeck (hd : hasDeck s = false) : opInject s n (injTxn a f) = .done stNoDeck a [] s := by
  rw [opInject, gate, if_neg (Nat.not_lt.2 hl), if_pos ha, hd]
  rfl

variable (hd : hasDeck s = true) (hp : injOwner s (injTxn a f) = port)
include hd hp

theorem opInject_malformed (hbad : f.length < 60 ∨ maxFrame s port < f.length + 4 ∨ isPort s port = false) :
    opInject s n (injTxn a f) = .done stMalformed a [] s := by
  have hcheck : (!injLenOk s (injTxn a f) || !isPort s port) = true := by
    rw [injLenOk_injTxn, hp]
    rcases hbad with h | h | h
    · simp [Nat.not_le.2 h]
    · simp [Nat.not_le.2 h]
    · simp [h]
  rw [opInject, gate, if_neg (Nat.not_lt.2 hl), if_pos ha, hp, hd, if_neg (by simp), if_pos hcheck]
  rfl

variable (h60 : 60 ≤ f.length) (hmax : f.length + 4 ≤ maxFrame s port) (hport : isPort s port = true)
include h60 hmax hport

/-- A frame within its port's lengths is handed over, or waits. -/
theorem opInject_tries : opInject s n (injTxn a f)
    = match injectTry s n (injTxn a f) with
      | some (st, t) => .done st a [] t
      | none => .waits .inject s := by
  have hcheck : ¬ (!injLenOk s (injTxn a f) || !isPort s port) = true := by
    rw [injLenOk_injTxn, hp, hport]
    simp [h60, hmax]
  rw [opInject, gate, if_neg (Nat.not_lt.2 hl), if_pos ha, hp, hd, if_neg (by simp), if_neg hcheck]
  rfl

end Checks

/-! ## The hand-over (R257, R354) -/

theorem injectTry_held {s : State} (hd : hasDeck s = true) (hh : held s = true) (n : Nat) (x : Txn) : injectTry s n x = none := by
  simp [injectTry, hd, hh]

section HandOver
variable {s : State} {n a : Nat} {f : List Byte} (hd : hasDeck s = true) (hh : held s = false)
include hd hh

theorem injectTry_parse {p : Nat} (hmode : bit a 0 = false) (hp : bits a 15 8 = p) :
    injectTry s n (injTxn a f)
      = if foldOfHand s (p / 8) = .open_ then some (stOk, pushRb s (p / 8) (injected s n p f)) else none := by
  simp [injectTry, injPort, injTxn, hd, hh, hmode, hp, parseOpen]

theorem injectTry_queue {q : Nat} {took : Bool} {u : State} (hmode : bit a 0 = true) (hq : bits a 47 32 = q)
    (ht : injectFrame s q f (injectHdr (curSlot s) q f.length 0 0 0 0) [] = (took, u)) :
    injectTry s n (injTxn a f) = some (if took then stOk else stRefused, u) := by
  simp [injectTry, injQueue, injTxn, hd, hh, hmode, hq, ht]

end HandOver

theorem injectFrame_refused {s u : State} {q : Nat} {hdr : List Byte} (h : admitPot s q hdr = (none, u)) (frame : List Byte)
    (ed : List (Nat × Nat × W32)) : injectFrame s q frame hdr ed = (false, u) := by
  rw [injectFrame, h]

/-- What a pot does to its queues leaves alone what no command of the running part writes, and the sessions. -/
theorem SameButPot.fixed {s u : State} {d : Deck} (h : SameButPot { s with deck := d } u) :
    keepFixed s u = u ∧ u.zat = s.zat := by
  unfold SameButPot at h
  rw [h]
  exact ⟨rfl, rfl⟩

section Commands
variable {s t : State} {n st : Nat} {f : List Byte}

theorem injTxn_parse {p : Nat} (hp : p < 256) (s : State) (f : List Byte) :
    injAddrOk (injTxn (p * 256) f) = true ∧ injOwner s (injTxn (p * 256) f) = p := by
  obtain ⟨hmode, hport⟩ := injParse_addr hp
  rw [injAddrOk_injTxn, injOwner_injTxn, hmode, hport, if_neg Bool.false_ne_true, if_neg Bool.false_ne_true]
  exact ⟨beq_self_eq_true _, rfl⟩

theorem injTxn_queue {q a : Nat} (hq : q < 65536) (ha : a = 1 + q * 2 ^ 32) (s : State) (f : List Byte) :
    injAddrOk (injTxn a f) = true ∧ injOwner s (injTxn a f) = queuePort s q := by
  obtain ⟨hmode, hqueue⟩ := injQueue_addr hq
  rw [← ha] at hmode hqueue
  rw [injAddrOk_injTxn, injOwner_injTxn, hmode, hqueue, if_pos rfl, if_pos rfl, ← ha]
  exact ⟨beq_self_eq_true _, rfl⟩

section Parse
variable {p : Nat} (hr : ready s n 2) (hp : okPort p = true)
include hr hp

theorem exec_injectParse_done (hop : opInject s n (injTxn (p * 256) f) = .done st (p * 256) [] t) (hk : keepFixed s t = t)
    (hz : t.zat.sessions = s.zat.sessions) : exec (.injectParse n p f) s = .next (answer t n 0x39 (p * 256) st []) :=
  cmd_direct_done (i := .injectParse n p f) (x := injTxn (p * 256) f) (Bool.and_eq_true_iff.2 ⟨hr.1, hp⟩) hr.2.1 hk hop hz rfl

theorem exec_injectParse_waits (hop : opInject s n (injTxn (p * 256) f) = .waits .inject s) :
    exec (.injectParse n p f) s = .next (withWait s n (injTxn (p * 256) f) .inject) :=
  cmd_direct_waits (i := .injectParse n p f) (x := injTxn (p * 256) f) (Bool.and_eq_true_iff.2 ⟨hr.1, hp⟩) hr.2.1 rfl hop

end Parse

section Queue
variable {q a : Nat} (hr : ready s n 2) (hq : okQueue q = true) (ha : a = 1 + q * 2 ^ 32)
include hr hq ha

theorem exec_injectQueue_done (hop : opInject s n (injTxn a f) = .done st a [] t) (hk : keepFixed s t = t)
    (hz : t.zat.sessions = s.zat.sessions) : exec (.injectQueue n q f) s = .next (answer t n 0x39 a st []) := by
  subst ha
  exact cmd_direct_done (i := .injectQueue n q f) (x := injTxn _ f) (Bool.and_eq_true_iff.2 ⟨hr.1, hq⟩) hr.2.1 hk hop hz rfl

theorem exec_injectQueue_waits (hop : opInject s n (injTxn a f) = .waits .inject s) :
    exec (.injectQueue n q f) s = .next (withWait s n (injTxn a f) .inject) := by
  subst ha
  exact cmd_direct_waits (i := .injectQueue n q f) (x := injTxn _ f) (Bool.and_eq_true_iff.2 ⟨hr.1, hq⟩) hr.2.1 rfl hop

end Queue

end Commands

/-- Settles O28: each check of the operation in its order, and where the frame stands once it is handed over. -/
theorem injectedFramesEnterParseOrAQueue : Obligations.InjectedFramesEnterParseOrAQueue := by
  unfold Obligations.InjectedFramesEnterParseOrAQueue
  intro s n f hr
  have hl := hr.2.2
  refine ⟨?parse, ?queue⟩
  case parse =>
    rintro p _ hp rfl
    obtain ⟨hmode, hport⟩ := injParse_addr (of_decide_eq_true hp)
    obtain ⟨haddr, howner⟩ := injTxn_parse (of_decide_eq_true hp) s f
    refine ⟨fun hd => exec_injectParse_done hr hp (opInject_noDeck hl haddr hd) rfl rfl,
      fun hd hbad => exec_injectParse_done hr hp (opInject_malformed hl haddr hd howner hbad) rfl rfl,
      fun hd h60 hmax hmap => ⟨fun hh hopen => ?taken, fun hwait => ?waits⟩⟩
    case taken =>
      have hop := opInject_tries hl haddr hd howner h60 hmax hmap
      rw [injectTry_parse hd hh hmode hport, if_pos hopen] at hop
      exact exec_injectParse_done hr hp hop rfl rfl
    case waits =>
      have hnone : injectTry s n (injTxn (p * 256) f) = none := by
        cases hh : held s with
        | true => exact injectTry_held hd hh n _
        | false => rw [injectTry_parse hd hh hmode hport, if_neg (hwait.resolve_left (by simp [hh]))]
      have hop := opInject_tries hl haddr hd howner h60 hmax hmap
      rw [hnone] at hop
      exact exec_injectParse_waits hr hp hop
  case queue =>
    rintro q a _ u hq ha rfl hd h60 hmax hmap
    obtain ⟨hmode, hqueue⟩ := injQueue_addr (of_decide_eq_true hq)
    rw [← ha] at hmode hqueue
    obtain ⟨haddr, howner⟩ := injTxn_queue (of_decide_eq_true hq) ha s f
    have hop := opInject_tries hl haddr hd howner h60 hmax hmap
    refine ⟨fun hh => ?held, fun hh htake hnew htx => ?taken, fun hh hadmit => ?refused⟩
    case held =>
      rw [injectTry_held hd hh] at hop
      exact exec_injectQueue_waits hr hq ha hop
    case taken =>
      obtain ⟨hu, -, ⟨g, hg, hid⟩, hall⟩ := injectFrame_takes htake hnew htx
      obtain ⟨hbytes, -, hvis, hwhole, hgood, hwaits⟩ := hall g hg hid
      obtain ⟨hk, hz⟩ := hu.fixed
      rw [injectTry_queue hd hh hmode hqueue htake] at hop
      exact ⟨_, g, exec_injectQueue_done hr hq ha hop hk (congrArg (·.sessions) hz), rfl, hg, hid, hbytes, hvis, hwhole, hgood, hwaits⟩
    case refused =>
      have hu := SameButPot.admitPot s q (injectHdr (curSlot s) q f.length 0 0 0 0)
      rw [hadmit] at hu
      obtain ⟨hk, hz⟩ := SameButPot.fixed (d := s.deck) hu
      rw [injectTry_queue hd hh hmode hqueue (injectFrame_refused hadmit f [])] at hop
      exact exec_injectQueue_done hr hq ha hop hk (congrArg (·.sessions) hz)

end Sys2Proof.Machine
end

section
/-!
PROOFS. FOLD, its forced form, its completion, and UNFOLD (11_fabric_and_pots.md R269; 15_zatas_control_protocol.md R352;
17_reset_power_and_kitty.md R396, R397).
-/
namespace Sys2Proof.Machine

open Sys2Proof

/-! ## Targets (Table 17.6) -/

theorem foldWf_hand {u : Nat} (hu : u < 32) (all : Bool) : foldWf 0x0C u all = true := by
  simp [foldWf, blkIntake, hu]

theorem foldWf_pot {u : Nat} (hu : u < 32) (all : Bool) : foldWf 0x19 u all = true := by
  simp [foldWf, blkPot, hu]

theorem foldWf_flow (u : Nat) : foldWf 0x10 u true = true := by
  simp [foldWf, blkFlow]

theorem foldWf_unit {b u : Nat} (hb : b = 0x0C ∨ b = 0x19) (hu : u < 32) (all : Bool) : foldWf b u all = true := by
  rcases hb with rfl | rfl
  · exact foldWf_hand hu all
  · exact foldWf_pot hu all

/-- A hand or a pot is folded alone. -/
theorem foldUnits_unit {b : Nat} (hb : b = 0x0C ∨ b = 0x19) (u : Nat) : foldUnits b u false = [u] := by
  rcases hb with rfl | rfl <;> rfl

/-- A target that is folding or folded does not begin to fold again. -/
theorem foldStart_notOpen {s : State} {b u : Nat} (h : foldState s b u ≠ .open_) : foldStart s b u = s := if_neg h

/-- The part with the fold of pot `u` reading `x`. -/
def withPotFold (s : State) (u : Nat) (x : FoldSt) : State := { s with rst := { s.rst with foldPot := kset s.rst.foldPot u x } }

/-- The part with the fold of hand `u` reading `x`. -/
def withHandFold (s : State) (u : Nat) (x : FoldSt) : State := { s with rst := { s.rst with foldIntake := kset s.rst.foldIntake u x } }

theorem setFold_pot (s : State) (u : Nat) {x : FoldSt} (hx : x ≠ .open_) : setFold s 0x19 u x = withPotFold s u x := by
  show { s with rst := { s.rst with foldPot := putFold s.rst.foldPot u x } } = _
  rw [putFold, if_neg hx, kget_kput_some]
  rfl

theorem setFold_hand (s : State) (u : Nat) {x : FoldSt} (hx : x ≠ .open_) : setFold s 0x0C u x = withHandFold s u x := by
  show { s with rst := { s.rst with foldIntake := putFold s.rst.foldIntake u x } } = _
  rw [putFold, if_neg hx, kget_kput_some]
  rfl

theorem foldState_withPotFold (s : State) (u : Nat) (x : FoldSt) : foldState (withPotFold s u x) 0x19 u = x :=
  kgetD_kset_same s.rst.foldPot u x .open_

theorem foldState_withHandFold (s : State) (u : Nat) (x : FoldSt) : foldState (withHandFold s u x) 0x0C u = x :=
  kgetD_kset_same s.rst.foldIntake u x .open_

theorem foldStart_pot {s : State} {u : Nat} (h : foldState s 0x19 u = .open_) : foldStart s 0x19 u = withPotFold s u .folding := by
  rw [foldStart, if_pos h, ← setFold_pot s u (by decide)]
  rfl

theorem foldStart_hand {s : State} {u : Nat} (h : foldState s 0x0C u = .open_) :
    foldStart s 0x0C u = dropUntaken (withHandFold s u .folding) u := by
  rw [foldStart, if_pos h, ← setFold_hand s u (by decide)]
  rfl

/-! ## The commands -/

/-- FOLD, or UNFOLD, of a target at its ADDRESS. -/
def foldTxn (op b u : Nat) (all force : Bool) : Txn := ⟨op, 0, foldAddr b u all force, []⟩

section Commands
variable {s t : State} {n b u st : Nat} {d : List Byte} (all : Bool) (hr : ready s n 2) (hb : b < 256) (hu : u < 32)
include hr hb hu

theorem fold_wf : (okSession n && decide (b < 256) && decide (u < 32)) = true := by
  simp [hr.1, hb, hu]

theorem exec_fold_done (hop : opFold s n (foldTxn 0x28 b u all false) = .done st (foldAddr b u all false) d t) (hk : keepFixed s t = t)
    (hz : t.zat.sessions = s.zat.sessions) : exec (.fold n b u all) s = .next (answer t n 0x28 (foldAddr b u all false) st d) :=
  cmd_direct_done (i := .fold n b u all) (fold_wf hr hb hu) hr.2.1 hk hop hz rfl

theorem exec_fold_waits {w : WaitFor} (hop : opFold s n (foldTxn 0x28 b u all false) = .waits w t) (hk : keepFixed s t = t) :
    exec (.fold n b u all) s = .next (withWait t n (foldTxn 0x28 b u all false) w) :=
  cmd_direct_waits (i := .fold n b u all) (fold_wf hr hb hu) hr.2.1 hk hop

theorem exec_forcedFold_waits {w : WaitFor} (hop : opFold s n (foldTxn 0x28 b u all true) = .waits w t) (hk : keepFixed s t = t) :
    exec (.forcedFold n b u all) s = .next (withWait t n (foldTxn 0x28 b u all true) w) :=
  cmd_direct_waits (i := .forcedFold n b u all) (fold_wf hr hb hu) hr.2.1 hk hop

theorem exec_unfold_done (hop : opUnfold s n (foldTxn 0x29 b u all false) = .done st (foldAddr b u all false) d t) (hk : keepFixed s t = t)
    (hz : t.zat.sessions = s.zat.sessions) : exec (.unfold n b u all) s = .next (answer t n 0x29 (foldAddr b u all false) st d) :=
  cmd_direct_done (i := .unfold n b u all) (fold_wf hr hb hu) hr.2.1 hk hop hz rfl

/-- FOLD and UNFOLD refuse a block that cannot be folded, and FLOW without ALL. -/
theorem opFold_malformed (hwf : foldWf b u all = false) :
    opFold s n (foldTxn 0x28 b u all false) = .done stMalformed (foldAddr b u all false) [] s
    ∧ opUnfold s n (foldTxn 0x29 b u all false) = .done stMalformed (foldAddr b u all false) [] s :=
  ⟨(opFold_run all false hr hb hu).trans (if_neg (by simp [hwf])), (opUnfold_run all hr hb hu).trans (if_neg (by simp [hwf]))⟩

variable {x : Nat} (hunits : foldUnits b u all = [x]) (hwf : foldWf b u all = true)
include hunits hwf

/-- A FOLD of one target that is folded already completes at once. -/
theorem opFold_folded (hf : foldState s b x = .folded) :
    opFold s n (foldTxn 0x28 b u all false) = .done stOk (foldAddr b u all false) (toBytes 8 0) s := by
  refine (opFold_run all false hr hb hu).trans ?_
  have hstart : foldStart s b x = s := foldStart_notOpen (by simp [hf])
  simp [hwf, hunits, hstart, hf]

/-- A FOLD of one target begins its fold and waits for its end. -/
theorem opFold_waits (hs : foldState (foldStart s b x) b x = .folding) :
    opFold s n (foldTxn 0x28 b u all false) = .waits (.fold b u all false 0) (foldStart s b x) := by
  refine (opFold_run all false hr hb hu).trans ?_
  simp [hwf, hunits, hs]

/-- A forced FOLD of one target discards its work, joins the folds that wait for it and waits with them. -/
theorem opFold_forced {v : State} {c : Nat} (hs : forceFold (0, foldStart s b x) b x = (c, v)) (hv : foldState v b x = .folding) :
    opFold s n (foldTxn 0x28 b u all true) = .waits (.fold b u all true c) (joinAll v b [x] c) := by
  refine (opFold_run all true hr hb hu).trans ?_
  have hj : foldState (joinAll v b [x] c) b x = .folding := hv
  simp [hwf, hunits, hs, hj]

theorem opUnfold_busy (hf : foldState s b x = .folding) :
    opUnfold s n (foldTxn 0x29 b u all false) = .done stBusy (foldAddr b u all false) [] s := by
  refine (opUnfold_run all hr hb hu).trans ?_
  simp [hwf, hunits, hf]

theorem opUnfold_opens (hf : foldState s b x = .folded) :
    opUnfold s n (foldTxn 0x29 b u all false) = .done stOk (foldAddr b u all false) [] (resumeInjects (setFold s b x .open_)) := by
  refine (opUnfold_run all hr hb hu).trans ?_
  simp [hwf, hunits, hf]

end Commands

/-! ## What waits -/

theorem foldl_skips {α σ : Type} {f : σ → α → σ} {s : σ} {l : List α} (h : ∀ x ∈ l, f s x = s) : l.foldl f s = s := by
  induction l with
  | nil => rfl
  | cons x l ih =>
    rw [List.foldl_cons, h x List.mem_cons_self]
    exact ih fun y hy => h y (List.mem_cons_of_mem x hy)

/-- Where no INJECT waits, none is resumed. -/
theorem resumeInjects_none {s : State} (h : ∀ e ∈ s.zat.waits, e.2.what ≠ .inject) : resumeInjects s = s := by
  refine foldl_skips fun e he => ?_
  have hne := h e he
  cases hw : e.2.what with
  | inject => exact absurd hw hne
  | _ => rfl

theorem finishFolds_nil {s : State} (h : s.zat.waits = []) : finishFolds s = s := by
  rw [finishFolds, h]
  rfl

/-- The one fold that waits completes once its target reads folded. -/
theorem finishFolds_one {s : State} {id m b u c x : Nat} {t : Txn} {all forced : Bool}
    (h : s.zat.waits = [(id, ⟨m, true, t, .fold b u all forced c⟩)]) (hunits : foldUnits b u all = [x])
    (hf : foldState s b x = .folded) :
    finishFolds s = { s with zat := { s.zat with waits := [] },
                             sent := s.sent ++ [.response m (txnRes t stOk t.addr (toBytes 8 c))] } := by
  have hall : allFolded s b u all = true := by simp [allFolded, hunits, hf]
  have hdel : kdel s.zat.waits id = [] := by rw [h]; exact kdel_one id _
  have hfin := finishWait_direct (s := s) (id := id) (n := m) (x := t) (w := .fold b u all forced c)
    (by rw [h]; exact kget_one id _) stOk t.addr (toBytes 8 c)
  rw [hdel] at hfin
  rw [finishFolds, h]
  refine Eq.trans ?_ hfin
  exact if_pos hall

/-! ## A forced fold of a pot (R269) -/

/-- The one frame that waits in a pot is discarded and counted, and nothing else but the pot's own bookkeeping changes. -/
theorem forcePot_one {s : State} {u q : Nat} {f : PotFrame} (hq : s.queues.filter (fun e => e.1 / 2048 == u) = [(q, queueOf s q)])
    (hf : (queueOf s q).frames = [f]) (hst : f.started = false) :
    ∃ v, forcePot s u = (1, v) ∧ keepFixed s v = v ∧ (queueOf v q).frames = [] ∧ v.rst = s.rst
      ∧ v.regs = (bump s (aForcedDiscard u)).regs ∧ v.zat = s.zat := by
  obtain ⟨hregs, hzat, hrst, hkeep, hframes⟩ := frameOut_rest s q f.id f.slot
  obtain ⟨o, ho⟩ : ∃ o, o = frameOut s q f.id f.slot := ⟨_, rfl⟩
  rw [← ho] at hregs hzat hrst hkeep hframes
  obtain ⟨re, hforce⟩ : ∃ re, forcePot s u = (1, { bump o (aForcedDiscard u) with reseq := re }) := by
    rw [ho]
    unfold forcePot
    simp [hq, hf, hst]
  refine ⟨_, hforce, ?_, ?_, hrst, bump_regs_congr hregs _, hzat⟩
  · exact keepFixed_of (t := { bump o (aForcedDiscard u) with reseq := re }) (keepFixed_fields (t := o) hkeep)
  · show (queueOf o q).frames = []
    rw [hframes, hf]
    simp

/-- The forced fold of an open pot in which one frame waits. -/
theorem forceFold_pot {s : State} {u q : Nat} {f : PotFrame} (ho : foldState s 0x19 u = .open_)
    (hq : s.queues.filter (fun e => e.1 / 2048 == u) = [(q, queueOf s q)])
    (hf : (queueOf s q).frames = [f]) (hst : f.started = false) :
    ∃ v, forceFold (0, foldStart s 0x19 u) 0x19 u = (1, v) ∧ foldState v 0x19 u = .folding ∧ keepFixed s v = v
      ∧ (queueOf v q).frames = [] ∧ v.rst = (withPotFold s u .folding).rst
      ∧ v.regs = (bump s (aForcedDiscard u)).regs ∧ v.zat = s.zat := by
  have hfold := foldState_withPotFold s u .folding
  obtain ⟨v, hforce, hk, hframes, hrst, hregs, hzat⟩ := forcePot_one (s := withPotFold s u .folding) (u := u) hq hf hst
  refine ⟨v, ?_, ?_, keepFixed_of (keepFixed_fields (s := withPotFold s u .folding) hk), hframes, hrst, hregs, hzat⟩
  · rw [foldStart_pot ho, forceFold, if_pos hfold]
    exact congrArg (fun r : Nat × State => (0 + r.1, r.2)) hforce
  · show foldOfPot v u = _
    rw [foldOfPot, hrst]
    exact hfold

/-! ## The end of a fold -/

section Complete
variable {s : State} {b u : Nat} (hb : b < 256) (hu : u < 32)
include hb hu

theorem exec_foldComplete {t : State} (h : foldDone s b u = t) (hk : keepFixed s t = t) : exec (.foldComplete b u) s = .next t :=
  cmd_run (i := .foldComplete b u) (by simp [Instr.wellFormed, hb, hu]) h hk

theorem exec_foldComplete_works (hw : foldWorkEnded s b u = false) : exec (.foldComplete b u) s = .next s :=
  exec_foldComplete hb hu (by simp [foldDone, hw]) rfl

end Complete

/-- A folding pot whose work has ended reads folded. -/
theorem foldDone_pot {s : State} {u : Nat} (hf : foldState s 0x19 u = .folding) (hw : foldWorkEnded s 0x19 u = true) :
    foldDone s 0x19 u = finishFolds (withPotFold s u .folded) := by
  rw [foldDone, hf, hw, if_pos (by decide), if_neg (by decide), setFold_pot s u (by decide)]

/-- Settles O27: each check of FOLD and UNFOLD in its order, the discards of a forced fold, and the answers at its end. -/
theorem foldsAndUnfolds : Obligations.FoldsAndUnfolds := by
  unfold Obligations.FoldsAndUnfolds
  refine ⟨fun s n b u hr hb hu => ⟨fun hwf => ?malformed, fun hb' hf => ?folded, ?pot, ?hand, ?flow, fun hb' hf => ?busy, ?opens⟩,
    fun s u hu => ⟨?forced, fun b hb' _ hw => ?works, fun hf hw hn => ?done, fun id m x forced c hf hw hone => ?answered⟩⟩
  case malformed =>
    obtain ⟨hfold, hunfold⟩ := opFold_malformed false hr hb hu hwf
    exact ⟨exec_fold_done false hr hb hu hfold rfl rfl, exec_unfold_done false hr hb hu hunfold rfl rfl⟩
  case folded =>
    exact exec_fold_done false hr hb hu (opFold_folded false hr hb hu (foldUnits_unit hb' u) (foldWf_unit hb' hu false) hf) rfl rfl
  case pot =>
    rintro rfl ho
    have hstart := foldStart_pot ho
    have hop := opFold_waits false hr hb hu (foldUnits_unit (.inr rfl) u) (foldWf_pot hu false)
      (by rw [hstart, foldState_withPotFold])
    rw [hstart] at hop
    exact exec_fold_waits false hr hb hu hop rfl
  case hand =>
    rintro rfl ho
    obtain ⟨hrst, hrb, hzat, htricks, hpkts, hstock, hk, hnone⟩ := dropUntaken_frame (withHandFold s u .folding) u
    rw [← foldStart_hand ho] at hrst hrb hzat htricks hpkts hstock hk hnone
    obtain ⟨v, hv⟩ : ∃ v, v = foldStart s 0x0C u := ⟨_, rfl⟩
    have hfolds : foldState v 0x0C u = .folding := by
      show foldOfHand v u = _
      rw [foldOfHand, hv, hrst]
      exact foldState_withHandFold s u .folding
    have hop := opFold_waits false hr hb hu (foldUnits_unit (.inl rfl) u) (foldWf_hand hu false) (hv ▸ hfolds)
    rw [← hv] at hrst hrb hzat htricks hpkts hstock hk hnone hop
    refine ⟨_, exec_fold_waits false hr hb hu hop (keepFixed_of (keepFixed_fields (s := withHandFold s u .folding) hk)), hrst, hrb, ?_,
      htricks, hpkts, hstock, fun he => ?_⟩
    · exact congrArg (fun z : Zat => { z with
        waits := kset z.waits z.nextWait ⟨n, true, foldTxn 0x28 0x0C u false false, .fold 0x0C u false false 0⟩,
        nextWait := z.nextWait + 1 }) hzat
    · rw [hnone he]
      exact ⟨rfl, rfl⟩
  case flow =>
    rintro rfl ho
    have hstart : foldStart s 0x10 0 = { s with rst := { s.rst with foldFlow := .folding } } := if_pos ho
    have hop := opFold_waits true hr hb hu (x := 0) rfl (foldWf_flow u) (by rw [hstart]; rfl)
    rw [hstart] at hop
    exact exec_fold_waits true hr hb hu hop rfl
  case busy =>
    exact exec_unfold_done false hr hb hu (opUnfold_busy false hr hb hu (foldUnits_unit hb' u) (foldWf_unit hb' hu false) hf) rfl rfl
  case opens =>
    rintro rfl hf hn
    have hop := opUnfold_opens false hr hb hu (foldUnits_unit (.inr rfl) u) (foldWf_pot hu false) hf
    rw [resumeInjects_none (s := setFold s 0x19 u .open_) hn] at hop
    exact exec_unfold_done false hr hb hu hop rfl rfl
  case forced =>
    rintro n q f _ hr rfl ho hq hf hst
    obtain ⟨v, hforce, hfold, hk, hgone, hrst, hregs, hzat⟩ := forceFold_pot ho hq hf hst
    have hop := opFold_forced false hr (by decide) hu (foldUnits_unit (.inr rfl) u) (foldWf_pot hu false) hforce hfold
    refine ⟨_, exec_forcedFold_waits false hr (by decide) hu hop (keepFixed_of (t := joinAll v 0x19 [u] 1) (keepFixed_fields (t := v) hk)),
      hgone, hrst, hregs, ?_⟩
    exact congrArg (fun z : Zat => { z with
      waits := kset (kmap z.waits fun _ w => joinForced w 0x19 [u] 1) z.nextWait ⟨n, true, foldTxn 0x28 0x19 u false true, .fold 0x19 u false true 1⟩,
      nextWait := z.nextWait + 1 }) hzat
  case works =>
    exact exec_foldComplete_works (by omega) hu hw
  case done =>
    refine exec_foldComplete (by decide) hu ((foldDone_pot hf hw).trans (finishFolds_nil hn)) rfl
  case answered =>
    refine exec_foldComplete (by decide) hu ((foldDone_pot hf hw).trans (finishFolds_one hone (foldUnits_unit (.inr rfl) u) ?_)) rfl
    exact foldState_withPotFold s u .folded

end Sys2Proof.Machine
end

section
/-!
PROOFS. Record rings and their readers: SUBSCRIBE, EXCEPT and UNSUBSCRIBE, the items a writer puts in, and the stream frame that
carries one to its reader (11_fabric_and_pots.md R260, R261; 15_zatas_control_protocol.md R353).
-/
namespace Sys2Proof.Machine

open Sys2Proof

/-- Ring `r` is `g`. -/
def setRing (s : State) (r : Nat) (g : Ring) : State := { s with rings := kset s.rings r g }

theorem ringOf_setRing (s : State) (r : Nat) (g : Ring) : ringOf (setRing s r g) r = g := kgetD_kset_same s.rings r g Ring.empty

/-- A counter that counts leaves the rings, the sessions and what has left the part. -/
theorem bump_leaves (s : State) (a r : Nat) :
    ringOf (bump s a) r = ringOf s r ∧ (bump s a).sent = s.sent ∧ (bump s a).zat = s.zat := ⟨rfl, rfl, rfl⟩

/-! ## The reader (R353) -/

section Reader
variable {s : State} {n r : Nat} (hr : ready s n 1) (hk : okRing r = true)
include hr hk

section Subscribe
variable {cr : Nat} (hc : cr < 65536)
include hc

/-- SUBSCRIBE and EXCEPT in range: the session reads the ring with the credits added, unless another reads it. -/
theorem subscribeAs_run (exc : Bool) (op : Nat) :
    subscribeAs exc s n ⟨op, 0, r, toBytes 8 cr⟩ =
      if ((ringOf s r).reader.isSome && (ringOf s r).reader != some n) = true then .done stBusy r [] s
      else .done stOk r (toBytes 8 (min 65535 ((ringOf s r).credits + cr) + ringLost s r * 2 ^ 16))
        (setRing s r { ringOf s r with reader := some n, exc := exc, credits := min 65535 ((ringOf s r).credits + cr) }) := by
  have hdata : ofBytes (toBytes 8 cr) = cr := by
    rw [ofBytes_toBytes]
    omega
  have hwf : (decide (r < 8192) && (toBytes 8 cr).length == 8 && decide (ofBytes (toBytes 8 cr) < 65536)) = true := by
    rw [hdata, toBytes_length]
    simp [of_decide_eq_true hk, hc]
  unfold subscribeAs gate
  rw [if_neg (Nat.not_lt.2 hr.2.2), if_pos hwf, hdata]
  rfl

theorem subscribe_wf : (okSession n && okRing r && ok16 cr) = true := by
  rw [hr.1, hk]
  exact decide_eq_true hc

/-- A ring that nobody else reads takes the session as its reader. -/
theorem exec_subscribe_reads (hg : (ringOf s r).reader = none ∨ (ringOf s r).reader = some n) {c : Nat}
    (hcr : c = min 65535 ((ringOf s r).credits + cr)) :
    exec (.subscribe n r cr) s
      = .next (answer (setRing s r { ringOf s r with reader := some n, exc := false, credits := c }) n 0x30 r stOk
          (toBytes 8 (c + ringLost s r * 2 ^ 16)))
    ∧ exec (.except n r cr) s
      = .next (answer (setRing s r { ringOf s r with reader := some n, exc := true, credits := c }) n 0x38 r stOk
          (toBytes 8 (c + ringLost s r * 2 ^ 16))) := by
  have hfree : ¬ ((ringOf s r).reader.isSome && (ringOf s r).reader != some n) = true := by
    rcases hg with h | h <;> simp [h]
  have hop (exc : Bool) (op : Nat) := (subscribeAs_run hr hk hc exc op).trans (if_neg hfree)
  subst hcr
  exact ⟨cmd_direct_done (i := .subscribe n r cr) (subscribe_wf hr hk hc) hr.2.1 rfl (hop false 0x30) rfl rfl,
    cmd_direct_done (i := .except n r cr) (subscribe_wf hr hk hc) hr.2.1 rfl (hop true 0x38) rfl rfl⟩

theorem exec_subscribe_busy {m : Nat} (hg : (ringOf s r).reader = some m) (hm : m ≠ n) :
    exec (.subscribe n r cr) s = .next (answer s n 0x30 r stBusy [])
    ∧ exec (.except n r cr) s = .next (answer s n 0x38 r stBusy []) := by
  have hbusy : ((ringOf s r).reader.isSome && (ringOf s r).reader != some n) = true := by
    simp [hg, hm]
  have hop (exc : Bool) (op : Nat) := (subscribeAs_run hr hk hc exc op).trans (if_pos hbusy)
  exact ⟨cmd_direct_done (i := .subscribe n r cr) (subscribe_wf hr hk hc) hr.2.1 rfl (hop false 0x30) rfl rfl,
    cmd_direct_done (i := .except n r cr) (subscribe_wf hr hk hc) hr.2.1 rfl (hop true 0x38) rfl rfl⟩

end Subscribe

/-- UNSUBSCRIBE in range: nothing for a ring that the session does not read, at once between two items, else at the
end of the item partly sent (assumption 38). -/
theorem opUnsubscribe_run : opUnsubscribe s n ⟨0x31, 0, r, []⟩ =
    if (ringOf s r).reader ≠ some n then .done stOk r [] s
    else if (ringOf s r).part = 0 then .done stOk r [] (ringQuit s r)
    else .waits (.unsub r) s := by
  have hwf : (decide (r < 8192) && ([] : List Byte).isEmpty) = true := by
    simp [of_decide_eq_true hk]
  unfold opUnsubscribe gate
  rw [if_neg (Nat.not_lt.2 hr.2.2), if_pos hwf]
  simp only [bne_iff_ne]
  rfl

theorem unsubscribe_wf : (okSession n && okRing r) = true := by
  rw [hr.1, hk]
  rfl

theorem exec_unsubscribe_other (hg : (ringOf s r).reader ≠ some n) :
    exec (.unsubscribe n r) s = .next (answer s n 0x31 r stOk []) :=
  cmd_direct_done (i := .unsubscribe n r) (unsubscribe_wf hr hk) hr.2.1 rfl ((opUnsubscribe_run hr hk).trans (if_pos hg)) rfl rfl

theorem exec_unsubscribe_quits (hg : (ringOf s r).reader = some n) (hp : (ringOf s r).part = 0) :
    exec (.unsubscribe n r) s = .next (answer (ringQuit s r) n 0x31 r stOk []) :=
  cmd_direct_done (i := .unsubscribe n r) (unsubscribe_wf hr hk) hr.2.1 rfl
    (((opUnsubscribe_run hr hk).trans (if_neg fun h => h hg)).trans (if_pos hp)) rfl rfl

theorem exec_unsubscribe_waits (hg : (ringOf s r).reader = some n) (hp : (ringOf s r).part ≠ 0) :
    exec (.unsubscribe n r) s = .next (withWait s n ⟨0x31, 0, r, []⟩ (.unsub r)) :=
  cmd_direct_waits (i := .unsubscribe n r) (unsubscribe_wf hr hk) hr.2.1 rfl
    (((opUnsubscribe_run hr hk).trans (if_neg fun h => h hg)).trans (if_neg hp))

end Reader

/-! ## Items (R260, R261) -/

/-- What observation changes leaves alone what no command of the running part writes. -/
theorem keepFixed_obs {s t : State} (h : SameButObs s t) : keepFixed s t = t := by
  unfold SameButObs at h
  rw [h]
  rfl

theorem SameButObs.sent_zat {s t : State} (h : SameButObs s t) : t.sent = s.sent ∧ t.zat = s.zat := by
  unfold SameButObs at h
  rw [h]
  exact ⟨rfl, rfl⟩

theorem ringFree_none {s : State} {r n : Nat} (h : freeItems (ringOf s r).items (ringOf s r).part (ringRoom s r) n = none) :
    ringFree s r n = none := by
  rw [ringFree, h]
  rfl

/-- Where no oldest items can make room, the item is discarded and counted. -/
theorem ringWrite_lost {s : State} {r : Nat} {item : List Byte} (p : Bool)
    (h : freeItems (ringOf s r).items (ringOf s r).part (ringRoom s r) item.length = none) :
    ringWrite s r item p = bump s (aRingLost r) := by
  unfold ringWrite
  split
  · rw [addSlot, ringFree_none h]
    rfl
  · rw [ringPut, ringFree_none h]

/-- Behind an item that is still being written, an item waits in its place (R260). -/
theorem ringWrite_slot {s : State} {r lost : Nat} {item : List Byte} {kept : List (List Byte × Bool)} (p : Bool)
    (hb : (ringCfg s r).byLength = true) (hs : (ringOf s r).slots ≠ [])
    (h : freeItems (ringOf s r).items (ringOf s r).part (ringRoom s r) item.length = some (kept, lost)) :
    (ringOf (ringWrite s r item p) r).items = kept
    ∧ (ringOf (ringWrite s r item p) r).slots = (ringOf s r).slots ++ [⟨s.order, some (item, p)⟩] := by
  obtain ⟨u, hu, hg, ho⟩ : ∃ u, ringFree s r item.length = some u ∧ (∃ x, ringOf u r = { ringOf s r with items := kept, head := x })
      ∧ u.order = s.order := by
    rw [ringFree, h]
    exact ⟨_, rfl, ⟨_, ringOf_setRing ..⟩, rfl⟩
  obtain ⟨x, hx⟩ := hg
  have hw : ringWrite s r item p
      = { setRing u r { ringOf u r with slots := (ringOf u r).slots ++ [⟨u.order, some (item, p)⟩] } with order := u.order + 1 } := by
    unfold ringWrite
    rw [hb, if_pos (by simpa using hs), addSlot, hu]
    rfl
  have hring : ringOf (ringWrite s r item p) r = { ringOf u r with slots := (ringOf u r).slots ++ [⟨u.order, some (item, p)⟩] } := by
    rw [hw]
    exact ringOf_setRing ..
  rw [hring, hx, ho]
  exact ⟨rfl, rfl⟩

/-- A written item joins the ring or waits, and the sessions and what has left the part are as they were. -/
theorem exec_ringItemWrite {s : State} {r : Nat} {item : List Byte} (hk : okRing r = true) (hn : item.length < 16384) :
    exec (.ringItemWrite r item) s = .next (ringWrite s r item false) :=
  cmd_run (i := .ringItemWrite r item) (f := fun s => ringWrite s r item false) (Bool.and_eq_true_iff.2 ⟨hk, decide_eq_true hn⟩) rfl (keepFixed_obs (.ringWrite s r item false))

/-! ## Stream frames (R353) -/

theorem unsubWait_none {s : State} {r : Nat} (h : ∀ e ∈ s.zat.waits, e.2.what ≠ .unsub r) : unsubWait s r = none := by
  rw [unsubWait, List.find?_eq_none]
  intro e he
  have hne := h e he
  cases hw : e.2.what with
  | unsub q =>
    rw [hw] at hne
    simpa using hne
  | _ => exact Bool.false_ne_true

/-- A frame takes the ring's one item whole, where it fits. -/
theorem streamGo_one {s : State} {r room : Nat} {one : Bool} {item : List Byte} {p : Bool} {items : List (List Byte × Bool)} {g : Ring}
    (hitems : items = [(item, p)]) (hpart : g.part = 0) (hroom : 16 + cdiv item.length 8 * 8 ≤ room) :
    streamGo s r room 0 one items g [] = ([pieceTxn r g.exc (itemPoison s r g.head (item, p)) item 0 item.length],
      { g with items := [], part := 0, head := (g.head + item.length) % 2 ^ (ringCfg s r).log2 }) := by
  subst hitems
  unfold streamGo
  cases one <;> simp [hpart, hroom, streamGo]

theorem SameButHbm.streamReads (s : State) (r : Nat) (g g' : Ring) : SameButHbm s (streamReads s r g g') :=
  (SameButHbm.hbmRead s _ _ _).trans (.hbmRead _ _ _ _)

theorem streamReads_trainFail (s : State) (r : Nat) (g g' : Ring) : (streamReads s r g g').hbmc.trainFail = s.hbmc.trainFail := by
  unfold streamReads
  dsimp only
  rw [hbmRead_trainFail, hbmRead_trainFail]

/-- The part when the frame that carries the head item of ring `r` leaves: the item has been read, the ring stands at `g`,
and the session's stream has gone on. -/
def streamed (s : State) (r n : Nat) (g : Ring) : State :=
  setRing (setSess (streamReads s r (ringOf s r) g) n { sessOf s n with stream := ((sessOf s n).stream + 1) % 2 ^ 32 }) r g

theorem streamed_sess (s : State) (r n : Nat) (g : Ring) :
    sessOf (streamed s r n g) n = { sessOf s n with stream := ((sessOf s n).stream + 1) % 2 ^ 32 } := sessOf_set ..

/-- The reads of the item change the controller and its counters alone, and the session keeps its window. -/
theorem streamed_frame (s : State) (r n : Nat) (g : Ring) :
    (streamed s r n g).sent = s.sent ∧ (streamed s r n g).fuses = s.fuses
    ∧ trainFailed (streamed s r n g) = trainFailed s := by
  obtain ⟨v, hv⟩ : ∃ v, v = streamReads s r (ringOf s r) g := ⟨_, rfl⟩
  have hread := SameButHbm.streamReads s r (ringOf s r) g
  have htrain := streamReads_trainFail s r (ringOf s r) g
  rw [← hv] at hread htrain
  have hkept : v.sent = s.sent ∧ v.fuses = s.fuses := by
    unfold SameButHbm at hread
    rw [hread]
    exact ⟨rfl, rfl⟩
  unfold streamed
  rw [← hv]
  exact ⟨hkept.1, hkept.2, congrArg (· != 0) htrain⟩

/-- The stream frame of one item, whose sequence number is the session's own stream count. -/
theorem sessMsg_streamed (s : State) (r n seq : Nat) (g : Ring) (ts : List TxnRes) :
    sessMsg (streamed s r n g) n 2 seq ts
      = zatMsg (some (sessOf s n).ks) 3 n (windowLeft s (sessOf s n)) seq (sessOf s n).next (sackOf (sessOf s n)) ts := by
  obtain ⟨-, -, htrain⟩ := streamed_frame s r n g
  have hwindow : frameWindow (streamed s r n g) = frameWindow s := by rw [frameWindow, htrain, frameWindow]
  unfold sessMsg
  dsimp only
  rw [streamed_sess]
  unfold windowLeft
  rw [hwindow]
  rfl

/-- A frame toward a peer without UDP leaves its control port, and the rings and sessions are as they were. -/
theorem zatSend_leaves {u : State} {e : Encap} {msg : List Byte} (h : e.ip = none) :
    (zatSend u e msg).sent = u.sent ++ [.control e.cp (e.mac ++ toBytes 6 (ctlMac u e.cp) ++ e.vlan ++ [0x88, 0xB5] ++ msg)]
    ∧ (zatSend u e msg).zat = u.zat ∧ (zatSend u e msg).rings = u.rings := by
  obtain ⟨regs, xq, high, hctl⟩ := ctlSend_frame u e.cp (e.mac ++ toBytes 6 (ctlMac u e.cp) ++ e.vlan ++ [0x88, 0xB5] ++ msg)
  rw [zatSend_raw u h, hctl]
  exact ⟨rfl, rfl, rfl⟩

section Stream
variable {s : State} {n r : Nat}

theorem streamSend_unread (hg : (ringOf s r).reader = none) : streamSend s r = s := by
  unfold streamSend
  dsimp only
  rw [hg]

variable {item : List Byte} {p : Bool} (hg : (ringOf s r).reader = some n) (hx : (sessOf s n).state = .opened)
  (hitems : (ringOf s r).items = [(item, p)]) (hpart : (ringOf s r).part = 0)
  (hroom : 16 + cdiv item.length 8 * 8 ≤ frameRoom (sessOf s n).enc) (hc : (ringOf s r).credits ≠ 0)
  (hw : ∀ e ∈ s.zat.waits, e.2.what ≠ .unsub r)
include hg hx hitems hpart hroom hc hw

/-- The ring after its one item has been sent for one credit. -/
def sentRing (s : State) (r : Nat) (item : List Byte) : Ring :=
  { ringOf s r with credits := (ringOf s r).credits - 1, items := [], part := 0,
                    head := ((ringOf s r).head + item.length) % 2 ^ (ringCfg s r).log2 }

/-- STREAM_FRAME_SEND of a ring with one item that fits: a frame carries it whole. -/
theorem streamSend_one : ∃ u, u = streamed s r n (sentRing s r item) ∧ streamSend s r
    = ringThreshold (bump (zatSend u (sessOf s n).enc (sessMsg u n 2 (sessOf s n).stream
        [pieceTxn r (ringOf s r).exc (itemPoison s r (ringOf s r).head (item, p)) item 0 item.length])) (aZatCtr (sessOf s n).enc.cp 12)) r := by
  refine ⟨_, rfl, ?_⟩
  have hgo := streamGo_one (s := s) (r := r) (one := false) (g := { ringOf s r with credits := (ringOf s r).credits - 1 }) hitems hpart hroom
  have hlen : ((ringOf s r).items.head?.map fun i => i.1.length).getD 0 = item.length := by
    rw [hitems]
    rfl
  have hsends : ¬ ((sessOf s n).state != .opened || (ringOf s r).items.isEmpty || decide ((ringOf s r).credits = 0)
      || (decide ((ringOf s r).part = 0) && decide ((ringOf s r).credits < itemCredits (frameRoom (sessOf s n).enc) item.length))) = true := by
    rw [itemCredits, if_pos hroom]
    simp [hx, hitems, hc]
  unfold streamSend
  dsimp only
  split
  · next h => rw [hg] at h; cases h
  · next m h =>
    obtain rfl : n = m := by rw [hg] at h; injection h
    rw [hlen, if_neg hsends, unsubWait_none hw]
    dsimp only [Option.isSome_none] at hgo ⊢
    rw [hgo]
    rfl

/-- What that frame is, and what it leaves of the ring, of the session and of the part. -/
theorem streamSend_sends (hip : (sessOf s n).enc.ip = none) {msg : List Byte}
    (hmsg : msg = zatMsg (some (sessOf s n).ks) 3 n (windowLeft s (sessOf s n)) (sessOf s n).stream (sessOf s n).next (sackOf (sessOf s n))
      [pieceTxn r (ringOf s r).exc (itemPoison s r (ringOf s r).head (item, p)) item 0 item.length]) :
    ∃ t, streamSend s r = t
      ∧ t.sent = s.sent ++ [.control (sessOf s n).enc.cp ((sessOf s n).enc.mac ++ toBytes 6 (ctlMac s (sessOf s n).enc.cp)
          ++ (sessOf s n).enc.vlan ++ [0x88, 0xB5] ++ msg)]
      ∧ (ringOf t r).items = [] ∧ (ringOf t r).credits = (ringOf s r).credits - 1 ∧ (ringOf t r).reader = some n
      ∧ sessOf t n = { sessOf s n with stream := ((sessOf s n).stream + 1) % 2 ^ 32 } := by
  obtain ⟨u, hu, hsend⟩ := streamSend_one hg hx hitems hpart hroom hc hw
  have hsess : sessOf u n = { sessOf s n with stream := ((sessOf s n).stream + 1) % 2 ^ 32 } := hu ▸ streamed_sess ..
  have hring : ringOf u r = sentRing s r item := hu ▸ ringOf_setRing ..
  have hm := sessMsg_streamed s r n (sessOf s n).stream (sentRing s r item)
    [pieceTxn r (ringOf s r).exc (itemPoison s r (ringOf s r).head (item, p)) item 0 item.length]
  obtain ⟨hsent, hfuses, -⟩ := streamed_frame s r n (sentRing s r item)
  rw [← hu] at hm hsent hfuses
  have hmac : ctlMac u (sessOf s n).enc.cp = ctlMac s (sessOf s n).enc.cp := by rw [ctlMac, hfuses, ctlMac]
  have hleaves := zatSend_leaves (u := u) (msg := msg) hip
  rw [hm, ← hmsg] at hsend
  rw [hmac, hsent] at hleaves
  generalize zatSend u (sessOf s n).enc msg = w at hsend hleaves
  obtain ⟨hwsent, hwzat, hwrings⟩ := hleaves
  have hcount := bump_leaves w (aZatCtr (sessOf s n).enc.cp 12) r
  generalize bump w (aZatCtr (sessOf s n).enc.cp 12) = v at hsend hcount
  obtain ⟨hvring, hvsent, hvzat⟩ := hcount
  replace hvring : ringOf v r = sentRing s r item := by rw [hvring, ringOf, hwrings]; exact hring
  obtain ⟨htsent, htzat⟩ := (SameButObs.ringThreshold v r).sent_zat
  obtain ⟨hcredits, hreader⟩ := ringThreshold_reader v r
  have hitem := ringThreshold_items v r
  rw [hvring] at hcredits hreader hitem
  refine ⟨_, hsend, htsent.trans (hvsent.trans hwsent), hitem, hcredits, hreader.trans hg, ?_⟩
  rw [← hsess, sessOf, htzat, hvzat, hwzat, sessOf]

end Stream

theorem exec_streamFrameSend {s t : State} {r : Nat} (hk : okRing r = true) (h : streamSend s r = t) :
    exec (.streamFrameSend r) s = .next (keepFixed s t) :=
  h ▸ cmd_ok (i := .streamFrameSend r) (f := fun s => streamSend s r) s hk

/-- Settles O26: what each command does of a ring, its items and its reader. -/
theorem ringsHoldItemsAndStreamThem : Obligations.RingsHoldItemsAndStreamThem := by
  unfold Obligations.RingsHoldItemsAndStreamThem
  refine ⟨?commands, ?stream⟩
  case commands =>
    rintro s n r _ hk rfl
    refine ⟨fun cr c hr hcr hc => ⟨fun hg => exec_subscribe_reads hr hk hcr hg hc, fun m hg hm => exec_subscribe_busy hr hk hcr hg hm⟩,
      fun hr => ⟨exec_unsubscribe_other hr hk, exec_unsubscribe_quits hr hk, exec_unsubscribe_waits hr hk⟩, ?items⟩
    rintro item _ hn rfl
    have hexec := exec_ringItemWrite (s := s) hk hn
    obtain ⟨hsent, hzat⟩ := (SameButObs.ringWrite s r item false).sent_zat
    refine ⟨fun hlost => ?lost, fun kept lost hkept => ⟨_, hexec, hzat, hsent, fun ho => ?visible, fun hb hs => ?waits⟩⟩
    case lost =>
      rw [hexec, ringWrite_lost false hlost]
    case visible =>
      exact ringWrite_items false (by rcases ho with h | h <;> simp [openRing, h]) hkept
    case waits =>
      exact ringWrite_slot false hb hs hkept
  case stream =>
    rintro s n r _ _ item p hk rfl rfl
    refine ⟨fun hg => exec_streamFrameSend hk (streamSend_unread hg), fun hg hx hip hitems hpart hroom hc hw => ?sends⟩
    obtain ⟨t, hsend, hsent, hring⟩ := streamSend_sends hg hx hitems hpart hroom hc hw hip rfl
    exact ⟨keepFixed s t, _, exec_streamFrameSend hk hsend, rfl, hsent, hring⟩

end Sys2Proof.Machine
end

section
/-!
PROOFS. MAC_TRANSMIT: the head frame of a port leaves with its MAC edits, and what its stamp, its measurement and its counters
leave alone (11_fabric_and_pots.md R264, R265; 13_time_and_launch.md R301, R310).
-/
namespace Sys2Proof.Machine

open Sys2Proof

/-- A frame that leaves is counted, measured and stamped: what this leaves alone. -/
def OnlyNotes (p : Nat) (s t : State) : Prop :=
  t.sent = s.sent ∧ (portOf t p).txq = (portOf s p).txq ∧ t.queues = s.queues

theorem OnlyNotes.trans {p : Nat} {s t u : State} (h : OnlyNotes p s t) (k : OnlyNotes p t u) : OnlyNotes p s u :=
  ⟨k.1.trans h.1, k.2.1.trans h.2.1, k.2.2.trans h.2.2⟩

theorem OnlyNotes.bump (p : Nat) (s : State) (a : Nat) : OnlyNotes p s (bump s a) := ⟨rfl, rfl, rfl⟩

theorem OnlyNotes.bumpBy (p : Nat) (s : State) (a n : Nat) : OnlyNotes p s (bumpBy s a n) := ⟨rfl, rfl, rfl⟩

theorem OnlyNotes.confFrame (p : Nat) (s : State) (k : Pkt) (len : Nat) : OnlyNotes p s (confFrame s p k len) := by
  obtain ⟨hsent, hports, hqueues⟩ := confFrame_frame s p k len
  exact ⟨hsent, by rw [portOf, hports, portOf], hqueues⟩

theorem flightDown_leaves (s : State) (e : Bool) : (flightDown s e).sent = s.sent ∧ (flightDown s e).queues = s.queues := by
  cases e <;> exact ⟨rfl, rfl⟩

theorem frameOut_sent (s : State) (q id : Nat) (e : Bool) : (frameOut s q id e).sent = s.sent :=
  (flightDown_leaves _ e).1.trans rfl

theorem potFrame_frameOut (s : State) (q id : Nat) (e : Bool) : potFrame (frameOut s q id e) q id = none := by
  rw [frameOut, potFrame, queueOf, (flightDown_leaves _ e).2]
  exact potRemove_gone s q id

/-- A frame that leaves the pot is counted: what this leaves alone. -/
theorem frameOut_bump (s : State) (q id n : Nat) (e : Bool) :
    (bump (frameOut s q id e) n).sent = s.sent ∧ potFrame (bump (frameOut s q id e) n) q id = none
    ∧ ∀ p, portOf (bump (frameOut s q id e) n) p = portOf s p := by
  have hsent := frameOut_sent s q id e
  have hpot := potFrame_frameOut s q id e
  have hport (p : Nat) := frameOut_portOf s q id p e
  generalize frameOut s q id e = u at hsent hpot hport ⊢
  refine ⟨(bump_leaves u n 0).2.1.trans hsent, ?_, fun p => (bump_portOf u n p).trans (hport p)⟩
  rw [potFrame, queueOf, bump_queues]
  exact hpot

/-- The part when the head frame is off its port's queue; what the pot holds of a frame that underran is freed. -/
def headGone (s : State) (p : Nat) (under : Bool) (e : TxFrame) (rest : List TxFrame) : State :=
  let a := setPort s p { portOf s p with txq := rest }
  if under then bump (frameOut a e.pkt.queue e.frame (pktEpoch e.pkt)) (aUnderrun (e.pkt.queue / 2048)) else a

/-- What taking the head frame off its queue does. -/
theorem headGone_frame (s : State) (p : Nat) (under : Bool) (e : TxFrame) (rest : List TxFrame) :
    (headGone s p under e rest).sent = s.sent
    ∧ (portOf (headGone s p under e rest) p).txq = rest
    ∧ (under = true → potFrame (headGone s p under e rest) e.pkt.queue e.frame = none)
    ∧ (under = false → (headGone s p under e rest).queues = s.queues) := by
  have hset := congrArg PortState.txq (setPort_portOf' s p { portOf s p with txq := rest })
  cases under with
  | false => exact ⟨rfl, hset, Bool.noConfusion, fun _ => rfl⟩
  | true =>
    obtain ⟨hsent, hpot, hport⟩ := frameOut_bump (setPort s p { portOf s p with txq := rest }) e.pkt.queue e.frame
      (aUnderrun (e.pkt.queue / 2048)) (pktEpoch e.pkt)
    exact ⟨hsent, (congrArg PortState.txq (hport p)).trans hset, fun _ => hpot, Bool.noConfusion⟩

/-- The bytes that leave of the head frame before the MAC's edits. -/
def headBytes (s : State) (under : Bool) (e : TxFrame) : List Byte :=
  if under then (match potFrame s e.pkt.queue e.frame with | some x => x.bytes | none => e.pkt.frame) else e.pkt.frame

/-- The part when the frame of `len` bytes that leaves has been counted and measured. -/
def headNoted (u : State) (p : Nat) (k : Pkt) (stomp : Bool) (len : Nat) : State :=
  let w := bumpBy (bump u (aPortCtr p 2)) (aPortCtr p 3) (len + 4)
  let w := if stomp then bump (bump w (aPortCtr p 29)) (aQCtr k.queue 2) else w
  if stomp then w else confFrame w p k (len + 4)

theorem OnlyNotes.headNoted (u : State) (p : Nat) (k : Pkt) (stomp : Bool) (len : Nat) : OnlyNotes p u (headNoted u p k stomp len) := by
  have hsent : OnlyNotes p u (Machine.bumpBy (Machine.bump u (aPortCtr p 2)) (aPortCtr p 3) (len + 4)) := (OnlyNotes.bump ..).trans (.bumpBy ..)
  cases stomp
  · exact hsent.trans (.confFrame ..)
  · exact hsent.trans ((OnlyNotes.bump ..).trans (.bump ..))

section Transmit
variable {s : State} {p : Nat} {under : Bool} {e : TxFrame} {rest : List TxFrame} (hx : (portOf s p).txq = e :: rest)
include hx

theorem macTransmitOp_stays (h : portSends s p = false ∨ e.pkt.ended = under ∨ beforeLaunch s p e.pkt = true) : macTransmitOp s p under = s := by
  unfold macTransmitOp
  dsimp only
  rw [hx]
  exact if_pos (by rcases h with h | h | h <;> simp [h])

/-- The head frame leaves; the rest of the command counts, measures and stamps. -/
theorem macTransmitOp_sends (hsend : portSends s p = true) (hend : e.pkt.ended = !under) (hlaunch : beforeLaunch s p e.pkt = false)
    {f : List Byte} {w : State} (hf : f = e.edits.foldl (macEdit (headGone s p under e rest) p e.pkt) (headBytes s under e))
    (hw : w = headNoted (headGone s p under e rest) p e.pkt (e.stomp || under) f.length) :
    macTransmitOp s p under = noteTx { w with sent := w.sent ++ [.frame p f (e.stomp || under)] } p e.pkt f := by
  have hgo : ¬ (!portSends s p || e.pkt.ended == under || beforeLaunch s p e.pkt) = true := by
    simp [hsend, hend, hlaunch]
  unfold macTransmitOp
  dsimp only
  rw [hx]
  dsimp only
  rw [if_neg hgo, hw, hf]
  rfl

end Transmit

/-- Settles O42: the head frame leaves, or stays. -/
theorem theTransmitMacSendsTheHeadFrame : Obligations.TheTransmitMacSendsTheHeadFrame := by
  unfold Obligations.TheTransmitMacSendsTheHeadFrame
  intro s p under e rest hp hx
  have hrun {t : State} (h : macTransmitOp s p under = t) : exec (.macTransmit p under) s = .next (keepFixed s t) :=
    h ▸ cmd_ok (i := .macTransmit p under) (f := fun s => macTransmitOp s p under) s (decide_eq_true hp)
  refine ⟨?sends, fun h => hrun (macTransmitOp_stays hx h)⟩
  rintro hsend hend hlaunch _ _ f rfl rfl hf
  obtain ⟨hgsent, hgtxq, hgpot, hgq⟩ := headGone_frame s p under e rest
  have hop := macTransmitOp_sends hx hsend hend hlaunch hf rfl
  obtain ⟨hwsent, hwtxq, hwq⟩ := OnlyNotes.headNoted (headGone s p under e rest) p e.pkt (e.stomp || under) f.length
  generalize headNoted (headGone s p under e rest) p e.pkt (e.stomp || under) f.length = w at hop hwsent hwtxq hwq
  obtain ⟨htsent, httxq, htq⟩ := noteTx_frame { w with sent := w.sent ++ [.frame p f (e.stomp || under)] } p e.pkt f
  have hqueues := htq.trans hwq
  refine ⟨_, hrun hop, htsent.trans ?_, httxq.trans (hwtxq.trans hgtxq), fun hu => ?_, fun hu => hqueues.trans (hgq hu)⟩
  · rw [hwsent, hgsent]
  · rw [← hgpot hu, potFrame, queueOf]
    show (kgetD (noteTx _ p e.pkt f).queues e.pkt.queue PQueue.empty).frames.find? _ = _
    rw [hqueues, potFrame, queueOf]

end Sys2Proof.Machine
end

section
/-!
PROOFS. A released cell with one whole frame: admission, and the frame that stands alone in its queue, whole and visible
(11_fabric_and_pots.md R244, R251, R252, R254, R255).
-/
namespace Sys2Proof.Machine

open Sys2Proof

/-! ## A frame alone in its queue -/

section One
variable {s : State} {q : Nat} {f : PotFrame} (hone : (queueOf s q).frames = [f])
include hone

theorem potFrame_one : potFrame s q f.id = some f := by
  simp [potFrame, hone]

theorem modFrame_one (g : PotFrame → PotFrame) : (queueOf (modFrame s q f.id g) q).frames = [g f] := by
  simp [modFrame_frames, hone]

/-- A frame that is not visible becomes so after 8 clk; one that is stays as it is (R275). -/
theorem makeVisible_one : (queueOf (makeVisible s q f.id) q).frames
      = [{ f with visible := true, fromClk := if f.visible then f.fromClk else s.clk + 8 }]
    ∧ SameButPot s (makeVisible s q f.id) ∧ (makeVisible s q f.id).frameNo = s.frameNo := by
  unfold makeVisible
  dsimp only
  rw [← potFrame, potFrame_one hone]
  dsimp only
  cases hv : f.visible with
  | true =>
    rw [if_pos rfl]
    refine ⟨?_, rfl, rfl⟩
    rw [hone, if_pos rfl, ← hv]
  | false =>
    rw [if_neg Bool.false_ne_true]
    refine ⟨?_, rfl, rfl⟩
    rw [queueOf_set]
    simp [hone]

/-- The last segment of a frame that has not started writes its header alone. -/
theorem lastSeg_one (hs : f.started = false) (bad : Bool) : ∃ h, (queueOf (lastSeg s q f.id bad) q).frames = [{ f with hdr := h }]
    ∧ SameButPot s (lastSeg s q f.id bad) ∧ (lastSeg s q f.id bad).frameNo = s.frameNo := by
  unfold lastSeg
  rw [potFrame_one hone]
  dsimp only
  rw [if_neg (by simp [hs])]
  exact ⟨_, modFrame_one hone _, rfl, rfl⟩

/-- The last byte of a good frame that no port has taken yet: it is whole and visible. -/
theorem wholeEnd_one (hs : f.started = false) (tx : inTx s q f.id = false) : ∃ h, (queueOf (wholeEnd s q f.id) q).frames
      = [{ f with hdr := h, whole := true, visible := true, fromClk := if f.visible then f.fromClk else s.clk + 8 }]
    ∧ SameButPot s (wholeEnd s q f.id) ∧ (wholeEnd s q f.id).frameNo = s.frameNo := by
  unfold wholeEnd
  rw [potFrame_one hone]
  dsimp only
  obtain ⟨h, hr, hrs, hrn⟩ := lastSeg_one hone hs false
  generalize lastSeg s q f.id false = r at hr hrs hrn ⊢
  have hm := modFrame_one hr fun x => { x with whole := true }
  have hms := hrs.trans (.modFrame r q f.id fun x => { x with whole := true })
  have hmn : (modFrame r q f.id fun x => { x with whole := true }).frameNo = s.frameNo := hrn
  dsimp only at hm
  generalize modFrame r q f.id (fun x => { x with whole := true }) = m at hm hms hmn ⊢
  obtain ⟨hv, hvs, hvn⟩ := makeVisible_one hm
  dsimp only at hv hvs hvn
  generalize makeVisible m q f.id = v at hv hvs hvn ⊢
  have hw : SameButPot s (modPkt v (eKey f.id) fun p => { p with ended := true }) := (hms.trans hvs).trans rfl
  have hclk : m.clk = s.clk := by
    unfold SameButPot at hms
    rw [hms]
  have htx : inTx (modPkt v (eKey f.id) fun p => { p with ended := true }) q f.id = inTx s q f.id := by
    unfold SameButPot at hw
    rw [hw]
    rfl
  rw [htx, tx, if_neg Bool.false_ne_true]
  exact ⟨h, by rw [← hclk]; exact hv, hw, hvn.trans hmn⟩

/-- All bytes of a frame in its first cell arrive at once. -/
theorem frameBytes_one {body : List Byte} (hs : f.started = false) (hb : f.bytes = []) (hc : f.cells.length = 1) (hn : body.length + 32 ≤ 256)
    (tx : inTx s q f.id = false) : ∃ h t, frameBytes s q f.id body true false = (t, .none)
    ∧ (queueOf t q).frames = [{ f with bytes := body, bad := false, hdr := h, whole := true, visible := true, fromClk := if f.visible then f.fromClk else s.clk + 8 }]
    ∧ SameButPot s t ∧ t.frameNo = s.frameNo := by
  have hneed : cdiv (0 + body.length + 32) 256 = 1 := by
    unfold cdiv
    omega
  have hgrow : growCells 1 s q f.id 1 = (s, false) := by
    rw [growCells, potFrame_one hone]
    simp [hc]
  obtain ⟨m, hm⟩ : ∃ m, m = modFrame s q f.id fun x => { x with bytes := body, bad := false } := ⟨_, rfl⟩
  have hmone := modFrame_one hone fun x => { x with bytes := body, bad := false }
  rw [← hm] at hmone
  have hms : SameButPot s m := hm ▸ .modFrame ..
  obtain ⟨h, hw, hws, hwn⟩ := wholeEnd_one hmone hs (by rw [hm]; exact tx)
  refine ⟨h, wholeEnd m q f.id, ?_, ?_, hms.trans hws, hwn.trans (hm ▸ rfl)⟩
  · unfold frameBytes
    rw [potFrame_one hone]
    dsimp only
    rw [hb, List.length_nil, hneed, hgrow, List.nil_append]
    dsimp only
    rw [potFrame_one hone, hm]
    rfl
  · rw [hw, hm]
    rfl

end One

/-- The first frame of an empty queue has one cell, and stands visible where it cuts through. -/
theorem newFrame_one {s : State} {q : Nat} {hdr : List Byte} {slot cut : Bool} (hempty : (queueOf s q).frames = []) :
    ∃ f, (queueOf (newFrame s q hdr slot cut) q).frames = [f] ∧ f.id = s.frameNo ∧ f.bytes = [] ∧ f.cells.length = 1 ∧ f.started = false
      ∧ f.slot = slot ∧ f.visible = cut ∧ (cut = true → f.fromClk = s.clk + 8)
      ∧ SameButPot s (newFrame s q hdr slot cut) ∧ (newFrame s q hdr slot cut).frameNo = s.frameNo + 1 := by
  unfold newFrame
  dsimp only
  obtain ⟨hcs, hcq, hcn⟩ := QueueKept.freeCell s (q / 2048) q
  generalize freeCell s (q / 2048) = c at hcs hcq hcn ⊢
  have hclk : c.2.clk = s.clk := by
    unfold SameButPot at hcs
    rw [hcs]
  rw [noteDepth_frames, queueOf_set, hcq, hempty]
  refine ⟨_, rfl, hcn, rfl, rfl, rfl, rfl, rfl, fun hc => ?_, ?_, ?_⟩
  · rw [← hclk]
    exact if_pos hc
  · exact hcs.trans (SameButPot.trans (t := setQueue { c.2 with frameNo := c.2.frameNo + 1 } q _) rfl (.noteDepth ..))
  · exact congrArg (· + 1) hcn

/-- What pots change leaves the transmit queues, so a frame's place there, as they are. -/
theorem SameButPot.inTx {s t : State} (h : SameButPot s t) (q id : Nat) : inTx t q id = inTx s q id := by
  unfold SameButPot at h
  rw [h]
  rfl

theorem SameButPot.clk {s t : State} (h : SameButPot s t) : t.clk = s.clk := by
  unfold SameButPot at h
  rw [h]

theorem admitPot_only {u v : State} {q : Nat} {hdr : List Byte} {a : Option (List Byte)} (ha : admitPot u q hdr = (a, v)) : SameButPot u v := by
  have h := SameButPot.admitPot u q hdr
  rwa [ha] at h

/-- Pots leave the resequencers and the pairs. -/
theorem SameButPot.pairs {s t : State} (h : SameButPot s t) : t.reseq = s.reseq ∧ t.pairs = s.pairs := by
  unfold SameButPot at h
  rw [h]
  exact ⟨rfl, rfl⟩

/-- A refused frame that is in flight no more leaves the fixed parts. -/
theorem SameButPot.keepFixed_flightDown {u v : State} (h : SameButPot u v) (e : Bool) (p k : Nat) (x : Reseq) :
    keepFixed u (setReseq (flightDown v e) p k x) = setReseq (flightDown v e) p k x := by
  unfold SameButPot at h
  rw [h]
  rfl

/-! ## The released cell -/

section Release
variable {u v : State} {q : Nat} {g : Seg} {hdr body : List Byte} (hq : q = fld hdr 12 2)
include hq

/-- A refused START segment that is its frame's last: one frame less is in flight. -/
theorem startSeg_refused (hlast : g.last = true) (ha : admitPot u q hdr = (none, v)) : startSeg u hdr body g = (flightDown v g.epoch, .none) := by
  unfold startSeg
  dsimp only
  rw [← hq, ha]
  dsimp only
  rw [hlast, if_pos rfl]

/-- An admitted START segment that is its frame's last stands in its empty queue, whole and visible. -/
theorem startSeg_takes {h' : List Byte} (hlast : g.last = true) (hgood : g.bad = false) (hn : body.length + 32 ≤ 256) (ha : admitPot u q hdr = (some h', v))
    (hempty : (queueOf v q).frames = []) (htx : (portOf v (queuePort v q)).txq = []) :
    ∃ t f, startSeg u hdr body g = (t, .none) ∧ SameButPot u t ∧ t.frameNo = v.frameNo + 1 ∧ (queueOf t q).frames = [f]
      ∧ f.bytes = body ∧ f.whole = true ∧ f.visible = true ∧ f.bad = false ∧ f.started = false ∧ f.fromClk = u.clk + 8
      ∧ f.id = v.frameNo ∧ f.slot = g.epoch ∧ f.cells.length = 1 := by
  have huv := admitPot_only ha
  obtain ⟨w, hw⟩ : ∃ w, w = if cutsThrough v q (fld hdr 0 1) = true then bump v (aQCtr q 4) else v := ⟨_, rfl⟩
  have hvw : SameButPot v w ∧ queueOf w q = queueOf v q ∧ w.frameNo = v.frameNo := by
    rw [hw]
    split
    · exact ⟨.bump .., rfl, rfl⟩
    · exact ⟨.refl v, rfl, rfl⟩
  obtain ⟨hws, hwq, hwn⟩ := hvw
  obtain ⟨f, hone, hid, hbytes, hcells, hstarted, hslot, hvisible, hfrom, hns, hnn⟩ :=
    newFrame_one (s := w) (q := q) (hdr := h') (slot := g.epoch) (cut := cutsThrough v q (fld hdr 0 1)) (by rw [hwq, hempty])
  have hnot : inTx (newFrame w q h' g.epoch (cutsThrough v q (fld hdr 0 1))) q f.id = false := by
    rw [(hws.trans hns).inTx, inTx, htx]
    rfl
  obtain ⟨k, t, ht, hframes, hts, htn⟩ := frameBytes_one hone hstarted hbytes hcells hn hnot
  have hstart : startSeg u hdr body g = (t, .none) := by
    unfold startSeg
    dsimp only
    rw [← hq, ha]
    dsimp only
    rw [← hw, hlast, hgood, ← hwn, ← hid]
    exact ht
  have hclk := (huv.trans hws).clk
  refine ⟨t, _, hstart, ((huv.trans hws).trans hns).trans hts, ?_, hframes, rfl, rfl, rfl, rfl, hstarted, ?_, hid.trans hwn, hslot, hcells⟩
  · rw [htn, hnn, hwn]
  · dsimp only
    split
    · next hc => rw [hfrom (hvisible ▸ hc), hclk]
    · rw [hns.clk, hclk]

end Release

section Pair
variable {s u t : State} {p h : Nat} {x : Reseq} {c : Cell} {g : Seg} {hdr body : List Byte} (hx : x = reseqOf s p h) (hheld : x.held = [c])
  (hseq : c.seq = x.expect) (hsegs : c.segs = [g]) (hstart : g.start = true) (hstop : g.stop = c.payload.length) (hpay : c.payload = hdr ++ body)
  (hlen : hdr.length = 32) (hu : u = giveCredit (setReseq s p h { x with expect := (x.expect + 1) % 65536, held := [] }) h p)
include hx hheld hseq hsegs hstart hstop hpay hlen hu

/-- The expected cell of one whole frame is released, and with it all that the pair holds. -/
theorem cellReleaseOp_start (ht : startSeg u hdr body g = (t, .none)) (hkeep : t.reseq = u.reseq) :
    cellReleaseOp s p h = setReseq t p h { x with expect := (x.expect + 1) % 65536, held := [], recv := .none } := by
  have hunpack : unpackSegs (u, x.recv) c.segs 0 c.payload = (t, .none) := by
    have hdrop : (hdr ++ body).drop 32 = body := by
      rw [← hlen, List.drop_left]
    rw [hsegs, unpackSegs, unpackSegs, unpackSeg, if_pos hstart, hstop, List.take_length, List.drop_zero, hpay, slice_head hdr body hlen, hdrop, ht]
  have hreseq : reseqOf t p h = { x with expect := (x.expect + 1) % 65536, held := [] } := by
    rw [reseqOf, hkeep, hu]
    exact reseqOf_giveCredit ..
  have hone : releaseOne s p h = setReseq t p h { x with expect := (x.expect + 1) % 65536, held := [], recv := .none } := by
    unfold releaseOne
    dsimp only
    rw [← hx, hheld]
    simp only [List.find?_cons, hseq, beq_self_eq_true, List.erase_cons_head]
    rw [← hu, hunpack, hreseq]
  have hempty := releaseOne_empty (s := setReseq t p h { x with expect := (x.expect + 1) % 65536, held := [], recv := .none }) (p := p) (h := h)
    (by rw [reseq_set])
  unfold cellReleaseOp
  rw [hone, hempty, hempty, hempty]

end Pair

/-- Settles O50: admission refuses the cell's frame, or takes it. -/
theorem aReleasedFrameEntersItsQueue : Obligations.AReleasedFrameEntersItsQueue := by
  unfold Obligations.AReleasedFrameEntersItsQueue
  intro s u v p h q x c g hdr body a hp hh hx hheld hseq hsegs hstart hlast hgood hstop hpay hlen hn hq hu ha
  have hrun {t : State} (ht : cellReleaseOp s p h = t) : exec (.cellRelease p h) s = .next (keepFixed u t) := by
    rw [← ht, hu]
    exact cmd_ok (i := .cellRelease p h) (f := fun s => cellReleaseOp s p h) s (Bool.and_eq_true_iff.2 ⟨decide_eq_true hp, decide_eq_true hh⟩)
  have hop {t : State} := cellReleaseOp_start (t := t) hx hheld hseq hsegs hstart hstop hpay hlen hu
  have huv := admitPot_only ha
  refine ⟨?refused, ?taken⟩
  case refused =>
    rintro rfl
    rw [hrun (hop (startSeg_refused hq hlast ha) huv.pairs.1), huv.keepFixed_flightDown]
  case taken =>
    intro hsome hempty htx
    obtain ⟨h', rfl⟩ := Option.ne_none_iff_exists'.1 hsome
    obtain ⟨t, f, ht, hut, htn, hframes, hbytes, hwhole, hvisible, hbad, hstarted, hfrom, hid, hslot, hcells⟩ :=
      startSeg_takes hq hlast hgood hn ha hempty htx
    obtain ⟨hreseq, hpairs⟩ := hut.pairs
    refine ⟨_, f, hrun (hop ht hreseq), hframes, hbytes, hwhole, hvisible, hbad, hstarted, ?_,
      hid, htn, hslot, hcells, reseq_set .., ?_⟩
    · rw [hfrom, hu]
      rfl
    · show kgetD t.pairs (32 * h + p) _ = _
      rw [hpairs, hu]
      exact kgetD_kset_same ..

end Sys2Proof.Machine
end

section
/-!
PROOFS. TM_SELECT with one queue ready: its turn stands, its head frame starts, and nothing more is selected in the same clk
(12_traffic_manager.md R272 to R275).
-/
namespace Sys2Proof.Machine

open Sys2Proof

/-! ## One queue that has the turn -/

/-- The pot's one queue `q` is eligible, and it and its group have the turn of `port` with bytes left to send. -/
structure HasTurn (s : State) (p q g port : Nat) : Prop where
  queues : potQueues s p = [q]
  port_eq : queuePort s q = port
  eligible : queueEligible s q = true
  group_eq : qGroup s q = g
  shaped : shaperOk s 1 g = true
  group_turn : turnGroup s port = some g
  group_kept : (grpDefOf s g).lost = false
  group_due : 0 < (grpDefOf s g).deficit
  prio : qPrio s q < 8
  turn : (queueOf s q).turn = true
  kept : (queueOf s q).lost = false
  due : 0 < (queueOf s q).deficit

/-- An eligible queue has a head frame, which fits its gate. -/
theorem queueEligible_head {s : State} {q : Nat} (h : queueEligible s q = true) : ∃ f, headFrame s q = some f ∧ fitsGate s q f = true := by
  unfold queueEligible at h
  cases hf : headFrame s q with
  | none =>
    rw [hf] at h
    cases h
  | some f =>
    rw [hf] at h
    simp only [Bool.and_eq_true] at h
    exact ⟨f, rfl, h.1.2⟩

/-- An eligible queue is not held by its gate. -/
theorem noteGateHeld_eligible {s : State} {q : Nat} (h : queueEligible s q = true) : noteGateHeld s q = s := by
  obtain ⟨f, hf, hfits⟩ := queueEligible_head h
  have hno : gateHolds s q = false := by simp [gateHolds, hf, hfits]
  unfold noteGateHeld
  rw [hf]
  dsimp only
  rw [hno, Bool.false_and, if_neg Bool.false_ne_true]

theorem headFrame_one {s : State} {q : Nat} {f : PotFrame} (hone : (queueOf s q).frames = [f]) (h : queueEligible s q = true) :
    headFrame s q = some f := by
  obtain ⟨g, hg, -⟩ := queueEligible_head h
  have hmem := List.mem_of_find?_eq_some hg
  rw [hone, List.mem_singleton] at hmem
  rw [hg, hmem]

/-- Groups that keep their turn marks have the same turns. -/
theorem turnGroup_kmap (s : State) (port : Nat) {f : Nat → GroupTurn → GroupTurn} (hf : ∀ k x, (f k x).turn = x.turn) :
    turnGroup { s with grpDef := kmap s.grpDef f } port = turnGroup s port := by
  have hsame : ((fun e : Nat × GroupTurn => e.2.turn && gPort s e.1 == port) ∘ fun e : Nat × GroupTurn => (e.1, f e.1 e.2))
      = fun e : Nat × GroupTurn => e.2.turn && gPort s e.1 == port := by
    funext e
    simp only [Function.comp, hf]
  unfold turnGroup
  show ((kmap s.grpDef f).find? fun e => e.2.turn && gPort s e.1 == port).map _ = _
  rw [kmap, List.find?_map, hsame, Option.map_map]
  rfl

section Turn
variable {s : State} {p q g port : Nat} (h : HasTurn s p q g port)
include h

theorem HasTurn.portGroups_eq : portGroups s p port = [g] := by
  simp [portGroups, h.queues, h.port_eq, h.eligible, h.group_eq, h.shaped, sortNat, sortInsert]

theorem HasTurn.gPort_eq : gPort s g = port := by
  have ht := h.group_turn
  obtain ⟨e, he, hg⟩ := Option.map_eq_some_iff.1 ht
  have hp := List.find?_some he
  rw [hg] at hp
  simp only [Bool.and_eq_true, beq_iff_eq] at hp
  exact hp.2

/-- Where the eligible queue has the turn, no queue and not its group loses one. -/
theorem HasTurn.loseTurns : ∃ m, Machine.loseTurns s p = { s with grpDef := m } ∧ HasTurn { s with grpDef := m } p q g port := by
  have hqueues : (potQueues s p).foldl (fun s q =>
      if (queueOf s q).turn && !queueEligible s q then setQueue s q { queueOf s q with lost := true } else s) s = s := by
    refine foldl_skips fun x hx => ?_
    rw [h.queues, List.mem_singleton] at hx
    simp [hx, h.eligible]
  obtain ⟨m, hm⟩ : ∃ m, m = kmap s.grpDef fun g x =>
      if x.turn && gPort s g / 8 = p && !(portGroups s p (gPort s g)).contains g then { x with lost := true } else x := ⟨_, rfl⟩
  have hstays (x : GroupTurn) : (if x.turn && gPort s g / 8 = p && !(portGroups s p (gPort s g)).contains g then { x with lost := true } else x) = x := by
    rw [h.gPort_eq, h.portGroups_eq]
    simp
  have hget : kgetD m g GroupTurn.empty = grpDefOf s g := by
    rw [kgetD, hm, kget_kmap, grpDefOf, kgetD]
    cases kget s.grpDef g with
    | none => rfl
    | some x => exact hstays x
  have hturn : turnGroup { s with grpDef := m } port = some g := by
    rw [hm, turnGroup_kmap s port fun k x => by split <;> rfl]
    exact h.group_turn
  refine ⟨m, ?_, ?_⟩
  · unfold Machine.loseTurns
    dsimp only
    rw [hqueues, hm]
  · exact { h with
      group_turn := hturn
      group_kept := (congrArg GroupTurn.lost hget).trans h.group_kept
      group_due := (congrArg GroupTurn.deficit hget).symm ▸ h.group_due }

/-- The group and the queue that have the turn keep it while they have bytes left. -/
theorem HasTurn.picks {k : Nat} (hk : 0 < k) : pickGroup k s port [g] = some (g, s) ∧ pickQueue k s p g (qPrio s q) [q] = some (q, s) := by
  have hqueue : turnQueue s p g (qPrio s q) = some q := by simp [turnQueue, h.queues, h.turn, h.group_eq]
  obtain ⟨n, rfl⟩ := Nat.exists_eq_succ_of_ne_zero (Nat.ne_of_gt hk)
  unfold pickGroup pickQueue
  dsimp only
  rw [h.group_turn, hqueue]
  constructor
  · exact if_pos (by simp [h.group_kept, h.group_due])
  · exact if_pos (by simp [h.kept, h.due])

/-- Where a queue has the turn, its head frame is the one that starts. -/
theorem HasTurn.selectPort : Machine.selectPort s p port = startFrame s q := by
  have hfuel (n : Nat) (ds : List Int) : 0 < turnFuel n ds := Nat.mul_pos (Nat.succ_pos _) (Nat.succ_pos n)
  have hgroups : groupQueues s p g = [q] := by simp [groupQueues, h.queues, h.group_eq, h.eligible]
  have hbest : bestPrio s [q] = qPrio s q := Nat.min_eq_right (Nat.le_of_lt_succ h.prio)
  have hsame : [q].filter (fun x => qPrio s x == qPrio s q) = [q] := by simp
  unfold Machine.selectPort
  dsimp only
  rw [h.portGroups_eq, if_neg (by simp), (h.picks (hfuel ..)).1]
  dsimp only
  rw [hgroups, hbest, hsame, (h.picks (hfuel ..)).2]

end Turn

/-! ## A pot without an eligible queue -/

/-- What turns that are lost leave of a pot: its queues, their frames and their deficits. -/
def OnlyTurns (p : Nat) (s t : State) : Prop :=
  t = { s with queues := t.queues, grpDef := t.grpDef }
  ∧ (∀ q ∈ potQueues t p, q ∈ potQueues s p)
  ∧ ∀ q, (queueOf t q).frames = (queueOf s q).frames ∧ (queueOf t q).deficit = (queueOf s q).deficit

theorem OnlyTurns.trans {p : Nat} {s t u : State} (h : OnlyTurns p s t) (k : OnlyTurns p t u) : OnlyTurns p s u := by
  obtain ⟨h1, h2, h3⟩ := h
  obtain ⟨k1, k2, k3⟩ := k
  refine ⟨?_, fun q hq => h2 q (k2 q hq), fun q => ⟨(k3 q).1.trans (h3 q).1, (k3 q).2.trans (h3 q).2⟩⟩
  rw [h1] at k1
  exact k1

theorem OnlyTurns.fields {p : Nat} {s t : State} (h : OnlyTurns p s t) : t.tricks = s.tricks ∧ t.pkts = s.pkts ∧ t.potTurn = s.potTurn := by
  obtain ⟨hrest, -⟩ := h
  rw [hrest]
  exact ⟨rfl, rfl, rfl⟩

theorem mem_potQueues {s : State} {p q : Nat} : q ∈ potQueues s p ↔ (∃ x, (q, x) ∈ s.queues) ∧ q / 2048 = p := by
  simp [potQueues]

theorem OnlyTurns.lost {s t : State} {p q : Nat} (h : OnlyTurns p s t) (hq : q ∈ potQueues s p) :
    OnlyTurns p s (setQueue t q { queueOf t q with lost := true }) := by
  obtain ⟨hrest, hqueues, hkept⟩ := h
  refine ⟨?_, fun q' hq' => ?_, fun q' => ?_⟩
  · rw [hrest]
    rfl
  · obtain ⟨⟨x, hx⟩, hp⟩ := mem_potQueues.1 hq'
    rcases mem_kset hx with e | hx
    · injection e with e
      rwa [e]
    · exact hqueues q' (mem_potQueues.2 ⟨⟨x, hx⟩, hp⟩)
  · by_cases e : q' = q
    · rw [e, queueOf_set]
      exact hkept q
    · have hother : queueOf (setQueue t q { queueOf t q with lost := true }) q' = queueOf t q' := by
        rw [queueOf, kgetD, setQueue, kget_kset_ne _ _ e]
        rfl
      rw [hother]
      exact hkept q'

theorem OnlyTurns.loseTurns (s : State) (p : Nat) : OnlyTurns p s (loseTurns s p) := by
  have hfold : ∀ (l : List Nat) (t : State), (∀ q ∈ l, q ∈ potQueues s p) → OnlyTurns p s t → OnlyTurns p s (l.foldl (fun s q =>
      if (queueOf s q).turn && !queueEligible s q then setQueue s q { queueOf s q with lost := true } else s) t) := by
    intro l
    induction l with
    | nil => exact fun t _ h => h
    | cons q l ih =>
      intro t hl h
      refine ih _ (fun q' hq' => hl q' (List.mem_cons_of_mem q hq')) ?_
      dsimp only
      split
      · exact h.lost (hl q List.mem_cons_self)
      · exact h
  obtain ⟨hrest, hqueues, hkept⟩ := hfold (potQueues s p) s (fun _ hq => hq) ⟨rfl, fun _ hq => hq, fun _ => ⟨rfl, rfl⟩⟩
  unfold Machine.loseTurns
  refine ⟨?_, hqueues, hkept⟩
  dsimp only
  rw [hrest]

/-- No queue of the pot has a head frame. -/
def NoHead (s : State) (p : Nat) : Prop := ∀ q ∈ potQueues s p, headFrame s q = none

theorem OnlyTurns.noHead {s t : State} {p : Nat} (h : OnlyTurns p s t) (hno : NoHead s p) : NoHead t p := by
  obtain ⟨-, hqueues, hkept⟩ := h
  intro q hq
  rw [← hno q (hqueues q hq), headFrame, (hkept q).1, headFrame]

/-- Without a head frame in the pot, a selection takes turns alone. -/
theorem NoHead.selectOne {s : State} {p : Nat} (hno : NoHead s p) : selectOne s p = loseTurns s p := by
  have hlost := (OnlyTurns.loseTurns s p).noHead hno
  unfold Machine.selectOne
  dsimp only
  generalize loseTurns s p = t at hlost ⊢
  have hidle (port : Nat) : selectPort t p port = none := by
    have hgroups : portGroups t p port = [] := by
      have hnone : (potQueues t p).filter (fun q => queuePort t q == port && queueEligible t q) = [] :=
        List.filter_eq_nil_iff.2 fun q hq => by simp [queueEligible, hlost q hq]
      simp [portGroups, hnone, sortNat]
    unfold selectPort
    dsimp only
    rw [hgroups]
    rfl
  have hnone : (List.range 8).findSome? (fun i => if portReady t (8 * p + (kgetD t.potTurn p 7 + 1 + i) % 8) then
      (selectPort t p (8 * p + (kgetD t.potTurn p 7 + 1 + i) % 8)).map fun u => ((8 * p + (kgetD t.potTurn p 7 + 1 + i) % 8) % 8, u) else none) = none :=
    List.findSome?_eq_none_iff.2 fun i _ => by rw [hidle, Option.map_none, ite_self]
  rw [hnone]

/-- The one candidate of a search. -/
theorem findSome_one {α β : Type} {f : α → Option β} {b : β} {l : List α} (h : ∀ x ∈ l, f x = none ∨ f x = some b) (hb : ∃ x ∈ l, f x = some b) :
    l.findSome? f = some b := by
  obtain ⟨x, hx, hfx⟩ := hb
  obtain ⟨c, hc⟩ : ∃ c, l.findSome? f = some c := Option.isSome_iff_exists.1 (List.findSome?_isSome_iff.2 ⟨x, hx, by rw [hfx]; rfl⟩)
  obtain ⟨y, hy, hfy⟩ := List.exists_of_findSome?_eq_some hc
  rcases h y hy with e | e <;> rw [e] at hfy
  · cases hfy
  · rw [hc, hfy]

/-- The selection of the one port that is ready, which gets the turn (R275). -/
theorem selectOne_ready {s u t : State} {p q g i : Nat} (hu : loseTurns s p = u) (h : HasTurn u p q g (8 * p + i)) (hi : i < 8)
    (hready : portReady u (8 * p + i) = true) (hother : ∀ j, j < 8 → j ≠ i → portReady u (8 * p + j) = false) (ht : startFrame u q = some t) :
    selectOne s p = { t with potTurn := kset t.potTurn p i } := by
  have hsel : (List.range 8).findSome? (fun k => if portReady u (8 * p + (kgetD u.potTurn p 7 + 1 + k) % 8) then
      (selectPort u p (8 * p + (kgetD u.potTurn p 7 + 1 + k) % 8)).map fun t => ((8 * p + (kgetD u.potTurn p 7 + 1 + k) % 8) % 8, t) else none) = some (i, t) := by
    generalize kgetD u.potTurn p 7 = last
    have hturn (k : Nat) (hk : (last + 1 + k) % 8 = i) : (if portReady u (8 * p + (last + 1 + k) % 8) then
        (selectPort u p (8 * p + (last + 1 + k) % 8)).map fun t => ((8 * p + (last + 1 + k) % 8) % 8, t) else none) = some (i, t) := by
      have hmod : (8 * p + i) % 8 = i := by omega
      rw [hk, if_pos hready, h.selectPort, ht, Option.map_some, hmod]
    refine findSome_one (fun k _ => ?_) ⟨(i + 8 - (last + 1) % 8) % 8, List.mem_range.2 (by omega), hturn _ (by omega)⟩
    by_cases hk : (last + 1 + k) % 8 = i
    · exact .inr (hturn k hk)
    · exact .inl (by rw [hother _ (by omega) hk, if_neg Bool.false_ne_true])
  unfold selectOne
  dsimp only
  rw [hu, hsel]

/-- Settles O52: the turn stands, the head frame starts, and then the pot has no other to start. -/
theorem aSelectionStartsTheEligibleHeadFrame : Obligations.ASelectionStartsTheEligibleHeadFrame := by
  unfold Obligations.ASelectionStartsTheEligibleHeadFrame
  intro s p q g i o f hp hi hdeck hqueues hpot hport hother hready hframes heligible htriggered hgroup hshaped hturn hgkept hgdue hprio
    hqturn hqkept hqdue hsorted hroom hroutine
  obtain ⟨m, hu, h⟩ := HasTurn.loseTurns ⟨hqueues, hport, heligible, hgroup, hshaped, hturn, hgkept, hgdue, hprio, hqturn, hqkept, hqdue⟩
  obtain ⟨t, key, x, hstart, htframes, htdeficit, htqueues, hkey, hfree, htricks, htpkt, hxpkt, hxslot, hxroutine, hxended⟩ :=
    startFrame_takes (s := { s with grpDef := m }) hpot hframes (headFrame_one hframes h.eligible) htriggered hsorted hroom hroutine
  have hone := selectOne_ready hu h hi hready hother hstart
  generalize hv : ({ t with potTurn := kset t.potTurn p i } : State) = v at hone
  have hno : NoHead v p := by
    intro q' hq'
    obtain ⟨⟨y, hy⟩, hp'⟩ := mem_potQueues.1 hq'
    have hq : q' = q := by
      rw [← hv] at hy
      rcases htqueues q' y hy with e | e
      · exact e
      · have hold : q' ∈ potQueues s p := mem_potQueues.2 ⟨e, hp'⟩
        rwa [hqueues, List.mem_singleton] at hold
    rw [hq, headFrame, ← hv]
    show (queueOf t q).frames.find? _ = none
    rw [htframes]
    simp
  have honly := (OnlyTurns.loseTurns v p).trans (.loseTurns _ p)
  have hop : tmSelectOp s p = loseTurns (loseTurns v p) p := by
    have hgate : (potQueues s p).foldl noteGateHeld s = s := by
      rw [hqueues]
      exact noteGateHeld_eligible heligible
    unfold tmSelectOp
    rw [hdeck, Bool.not_true, if_neg Bool.false_ne_true]
    dsimp only
    rw [hgate, hone, hno.selectOne]
  generalize loseTurns (loseTurns v p) p = w at hop honly
  obtain ⟨hwtricks, hwpkts, hwturn⟩ := honly.fields
  obtain ⟨-, -, hwq⟩ := honly
  refine ⟨keepFixed s w, key % 256, x, ?_, (hwq q).1.trans ?_, (hwq q).2.trans ?_, ?_, ?_, hxpkt, hxslot, hxroutine, hxended, ?_, ?_⟩
  · rw [← hop]
    exact cmd_ok (i := .tmSelect p) (f := fun s => tmSelectOp s p) s (decide_eq_true hp)
  · rw [← hv]
    exact htframes
  · rw [← hv]
    exact htdeficit
  · rw [trickAt, hkey]
    exact hfree
  · show kget w.tricks _ = _
    rw [hkey, hwtricks, ← hv]
    exact htricks ▸ kget_kset_same ..
  · show kget w.pkts _ = _
    rw [hwpkts, ← hv]
    exact htpkt
  · show kget w.potTurn _ = _
    rw [hwturn, ← hv]
    exact kget_kset_same ..

end Sys2Proof.Machine
end

section
/-!
PROOFS. The sampling boundary of a group with one sampled queue, and the sweep of policers and shapers
(12_traffic_manager.md R284 to R286).
-/
namespace Sys2Proof.Machine

open Sys2Proof

/-! ## The sampled queues of a pot (R286) -/

/-- Writing an item counts elsewhere than in a queue's TM.CURVE word. -/
theorem queueCurve_ringWrite (s : State) (r : Nat) (item : List Byte) (b : Bool) {q : Nat} (hq : q < 65536) :
    queueCurve (ringWrite s r item b) q = queueCurve s q := by
  have hcold : (ringWrite s r item b).cold = s.cold := by
    rw [SameButObs.ringWrite s r item b]
  have hdeck : queueCurveD (ringWrite s r item b) q = queueCurveD s q := by
    unfold queueCurveD tmQueue tmFind tmCount tmF coldF coldBody
    rw [hcold]
  unfold queueCurve
  rw [hdeck]
  refine regRaw_ringWrite (fun st k => ?_) ?_ (fun r => ?_) s r item b _
  · unfold aTmQueue aHbmCtr
    omega
  · unfold aTmQueue aPosted aTskCtr
    omega
  · unfold aTmQueue aRingLost
    omega

/-- Which queues a pot samples for a group depends on their TM.CURVE words alone. -/
theorem sampledQueues_congr {s t : State} {p : Nat} (hp : p < 32) (h : ∀ q, q < 65536 → queueCurve t q = queueCurve s q) (g : Nat) :
    sampledQueues t p g = sampledQueues s p g := by
  unfold sampledQueues
  refine List.filter_congr fun q hq => ?_
  obtain ⟨k, hk, rfl⟩ := List.mem_map.1 hq
  have hk := List.mem_range.1 hk
  unfold qSampled qSGroup
  rw [h _ (by omega)]

/-! ## A pot at the boundary (R286) -/

/-- A pot without a sampled queue does nothing at the boundary. -/
theorem samplePot_nil {s : State} {g p : Nat} (h : sampledQueues s p g = []) : samplePot s g p = s := by
  unfold samplePot
  rw [h]
  simp

/-- An interval has a clk for the pot's one sampled queue: its item is written and its measures start again. -/
theorem samplePot_one {s : State} {g p q : Nat} (hinterval : bits (sgroupW s g) 32 13 ≠ 0) (h : sampledQueues s p g = [q]) :
    samplePot s g p = freshSample (ringWrite s (bits (sgroupW s g) 12 0) (queueItem s q) false) q := by
  obtain ⟨room, hroom⟩ : ∃ n, bits (sgroupW s g) 32 13 * usClk = n + 1 :=
    Nat.exists_eq_succ_of_ne_zero (Nat.mul_ne_zero hinterval (by decide))
  unfold samplePot
  dsimp only
  rw [h, hroom]
  simp

/-- The new measures of the interval start at the present depth, and the queue's frames stay. -/
theorem queueOf_freshSample (s : State) (q : Nat) :
    queueOf (freshSample s q) q = { queueOf s q with sample := ⟨qDepth s q, qDepth s q, 0, 0⟩ } := queueOf_set s q _

theorem queueCurve_freshSample (s : State) (q q' : Nat) : queueCurve (freshSample s q) q' = queueCurve s q' := rfl

/-! ## The boundary of a group with one sampled queue -/

/-- A pass over a range in which one number alone has work. -/
theorem foldl_range_one {σ : Type} {f : σ → Nat → σ} {s t : σ} {n p : Nat} (hp : p < n) (hbefore : ∀ k, k < n → k ≠ p → f s k = s)
    (hat : f s p = t) (hafter : ∀ k, k < n → k ≠ p → f t k = t) : (List.range n).foldl f s = t := by
  have hkeep (u : σ) (l : List Nat) (h : ∀ k ∈ l, f u k = u) : l.foldl f u = u := by
    induction l with
    | nil => rfl
    | cons k l ih =>
      rw [List.foldl_cons, h k List.mem_cons_self]
      exact ih fun j hj => h j (List.mem_cons_of_mem k hj)
  rw [range_split n p hp, List.foldl_append, List.foldl_cons, hkeep s, hat, hkeep t]
  · intro k hk
    obtain ⟨j, hj, rfl⟩ := List.mem_map.1 hk
    have hj := List.mem_range.1 hj
    exact hafter _ (by omega) (by omega)
  · intro k hk
    have hk := List.mem_range.1 hk
    exact hbefore k (by omega) (by omega)

/-- At the boundary the one sampled queue's item goes to the group's ring, and nothing else is sampled. -/
theorem sampleOp_one {s : State} {g p q : Nat} (hp : p < 32) (hdeck : hasDeck s = true) (hinterval : bits (sgroupW s g) 32 13 ≠ 0)
    (h : sampledQueues s p g = [q]) (hother : ∀ p', p' < 32 → p' ≠ p → sampledQueues s p' g = []) :
    sampleOp s g = freshSample (ringWrite s (bits (sgroupW s g) 12 0) (queueItem s q) false) q := by
  unfold sampleOp
  rw [if_pos (by simp [hdeck, hinterval])]
  refine foldl_range_one hp (fun k hk hne => samplePot_nil (hother k hk hne)) (samplePot_one hinterval h) (fun k hk hne => ?_)
  refine samplePot_nil ((sampledQueues_congr hk (fun q' hq' => ?_) g).trans (hother k hk hne))
  rw [queueCurve_freshSample, queueCurve_ringWrite s _ _ _ hq']

/-- Writing an item leaves the pots' queues alone. -/
theorem ringWrite_queues (s : State) (r : Nat) (item : List Byte) (b : Bool) : (ringWrite s r item b).queues = s.queues := by
  rw [SameButObs.ringWrite s r item b]

/-- The queue after its item is written: the same frames, and measures that start at their depth. -/
theorem queueOf_sampled (s : State) (r : Nat) (item : List Byte) (b : Bool) (q : Nat) :
    queueOf (freshSample (ringWrite s r item b) q) q = { queueOf s q with sample := ⟨qDepth s q, qDepth s q, 0, 0⟩ } := by
  rw [queueOf_freshSample, qDepth, queueOf, ringWrite_queues]
  rfl

/-! ## The sweep (R284, R285) -/

/-- A policer's buckets never hold more than their bursts. -/
theorem policerNow_le (s : State) (n : Nat) :
    (policerNow s n).1 ≤ polCbs s n * polUnit ∧ (policerNow s n).2 ≤ polEbs s n * polUnit := by
  unfold policerNow
  split
  · exact ⟨Nat.le_refl _, Nat.le_refl _⟩
  · dsimp only
    split <;> exact ⟨Nat.min_le_left .., Nat.min_le_left ..⟩

/-- Buckets within their bursts that stand at the present clock hold what they stand at: no time has passed, so nothing accrues. -/
theorem policerNow_present {s : State} {n c e : Nat} (h : kget s.policers n = some (c, e, s.clk)) (hc : c ≤ polCbs s n * polUnit)
    (he : e ≤ polEbs s n * polUnit) : policerNow s n = (c, e) := by
  have hover : c - polCbs s n * polUnit = 0 := Nat.sub_eq_zero_of_le hc
  unfold policerNow
  rw [h]
  dsimp only
  simp [hover, hc, he]

theorem kget_policers_sweepAll (s : State) (n : Nat) :
    kget (sweepAll s).policers n = (kget s.policers n).map fun _ => ((policerNow s n).1, (policerNow s n).2, s.clk) := by
  rw [sweepAll, kget_kmap]

theorem kget_shapers_sweepAll (s : State) (k : Nat) :
    kget (sweepAll s).shapers k = (kget s.shapers k).map fun _ => ⟨shaperNow s (k / 65536) (k % 65536), s.clk⟩ := by
  rw [sweepAll, kget_kmap]

theorem policerNow_sweepAll (s : State) (n : Nat) : policerNow (sweepAll s) n = policerNow s n := by
  obtain ⟨hc, he⟩ := policerNow_le s n
  have hswept := kget_policers_sweepAll s n
  cases hold : kget s.policers n with
  | none =>
    rw [hold] at hswept
    unfold policerNow
    rw [hswept, hold]
    rfl
  | some x =>
    rw [hold] at hswept
    exact policerNow_present hswept hc he

/-- Settles O51: the boundary's one item joins the ring that is open to it and its queue measures afresh; the sweep restates
what the buckets hold at the present clock. -/
theorem queueSamplesAndSweeps : Obligations.QueueSamplesAndSweeps := by
  unfold Obligations.QueueSamplesAndSweeps
  refine ⟨fun s g p q r lost kept hg hp hdeck hinterval hqueue hother hr hopen hkept => ?_, fun s => ?_⟩
  · subst hr
    have hring : openRing s (bits (sgroupW s g) 12 0) = true := by
      rcases hopen with h | h <;> simp [openRing, h]
    have hop := sampleOp_one hp hdeck hinterval hqueue hother
    have hsampled := queueOf_sampled s (bits (sgroupW s g) 12 0) (queueItem s q) false q
    refine ⟨keepFixed s (sampleOp s g), cmd_ok (i := .sampleBoundary g) (f := fun s => sampleOp s g) s (decide_eq_true hg), ?_, ?_, ?_⟩
    · rw [hop]
      exact ringWrite_items false hring hkept
    · rw [hop]
      exact (congrArg PQueue.frames hsampled :)
    · rw [hop]
      exact (congrArg PQueue.sample hsampled :)
  · refine ⟨sweepAll s, cmd_run (i := .tmSweep) (f := fun s => sweepAll s) rfl rfl rfl, fun n c e a h => ?_, policerNow_sweepAll s,
      fun k n hn h => ?_⟩
    · rw [kget_policers_sweepAll, h]
      rfl
    · obtain ⟨x, hx⟩ := Option.ne_none_iff_exists'.1 h
      have hlevel : (65536 * k + n) / 65536 = k := by omega
      have hindex : (65536 * k + n) % 65536 = n := by omega
      rw [kget_shapers_sweepAll, hx, hlevel, hindex]
      rfl

end Sys2Proof.Machine
end

section
/-!
PROOFS. One step of the part: the command at the front of the queue, or one clk on an empty one (98_reader.md; 13_time_and_launch.md
R290; 14_hbm_controller.md R326; 16_observability.md R377, R378).
-/
namespace Sys2Proof.Machine

open Sys2Proof

theorem step_front {s : State} {c : Instr} {rest : List Instr} (h : s.pending = c :: rest) :
    step s = exec c { s with pending := rest } := by
  rw [step, h]

/-- Settles O1: the queue's front is what `step` takes. -/
theorem aStepRunsTheFrontCommand : Obligations.AStepRunsTheFrontCommand := fun _ _ _ h => step_front h

/-! ## A clk -/

/-- The timebase after a clk: CK_TIME stands while its monitor reads bad, and else has an edge where 16 sixteenths of it have
passed (R290, R392). -/
def clkTime (u : State) : TimeUnit :=
  if bit u.rst.good 6 = false then u.time
  else if u.time.phase16 < 11 then { u.time with phase16 := u.time.phase16 + 5 }
  else { u.time with phase16 := u.time.phase16 - 11, base := u.time.base + (2 * (2 ^ 48 + u.time.rate)).toNat }

theorem tick_eq (u : State) : tick u = { u with clk := u.clk + 1, time := clkTime u, xq := [] } := by
  unfold tick clkTime
  dsimp only
  cases hb : bit u.rst.good 6 with
  | false => rfl
  | true =>
    by_cases hp : u.time.phase16 < 11
    · have hlow : ¬ 16 ≤ u.time.phase16 + 5 := by omega
      simp only [Bool.not_true, Bool.false_eq_true, Bool.true_eq_false, if_false, if_neg hlow, if_pos hp]
    · have hhigh : 16 ≤ u.time.phase16 + 5 := by omega
      have hsub : u.time.phase16 + 5 - 16 = u.time.phase16 - 11 := by omega
      simp only [Bool.not_true, Bool.false_eq_true, Bool.true_eq_false, if_false, if_pos hhigh, if_neg hp, hsub]

/-- A clk on an empty queue with nothing due counts, and otherwise changes what observation writes. -/
theorem step_quiet {s : State} (hp : s.pending = []) (hc : s.coreTime = []) (hg : s.time.genDue = [])
    (hs : ¬ (s.clk + 1) % 1600000000 = 0) (hr : s.clk + 1 ≠ s.rst.heldTill) :
    ∃ u, SameButObs s u ∧ step s = .next { u with clk := s.clk + 1, time := clkTime s, xq := [] } := by
  obtain ⟨v, hstep, u, hu, hv⟩ := step_idle hp hr
  have hclk : clkTime u = clkTime s := by unfold SameButObs at hu; rw [hu]; rfl
  have huc : u.clk = s.clk ∧ u.coreTime = s.coreTime ∧ u.time = s.time := by
    unfold SameButObs at hu
    rw [hu]
    exact ⟨rfl, rfl, rfl⟩
  obtain ⟨tclk, tcore, -, tgen⟩ := tick_frame u
  rw [← hv] at tclk tcore tgen
  have hidle : timeTick v = v :=
    timeTick_idle (by rw [tcore, huc.2.1, hc]) (by rw [tgen, huc.2.2, hg]) (by rw [tclk, huc.1]; exact hs)
  refine ⟨u, hu, ?_⟩
  rw [hstep, hidle, hv, tick_eq, hclk, huc.1]
  rfl

/-- Settles O2: a clk keeps the stores by its form, and a quiet one only counts and observes. -/
theorem anEmptyQueueLetsOneClockPass : Obligations.AnEmptyQueueLetsOneClockPass := by
  unfold Obligations.AnEmptyQueueLetsOneClockPass
  intro s hp
  obtain ⟨v, hstep, u, hu, hv⟩ := step_clk hp
  have hkeep : v.pending = [] ∧ v.clk = s.clk + 1 ∧ v.fuses = s.fuses ∧ v.flash = s.flash ∧ v.mram = s.mram ∧ v.cold = s.cold := by
    unfold SameButObs at hu
    rw [hv, tick_eq, hu]
    exact ⟨hp, rfl, rfl, rfl, rfl, rfl⟩
  obtain ⟨kpend, kclk, kfuses, kflash, kmram, kcold⟩ := hkeep
  refine ⟨_, hstep, kpend, kclk, kfuses, kflash, kmram, kcold, fun hc hg hs hr => ?_⟩
  obtain ⟨w, hw, hq⟩ := step_quiet hp hc hg hs hr
  rw [hstep] at hq
  injection hq with hq
  rw [hq]
  refine ⟨fun hb => if_pos hb, fun hb hlow => ?low, fun hb hhigh => ?high, rfl, ?frame⟩
  case low =>
    show clkTime s = _
    simp [clkTime, hb, hlow]
  case high =>
    show clkTime s = _
    simp [clkTime, hb, Nat.not_lt.2 hhigh]
  case frame =>
    unfold SameButObs at hw
    rw [hw]

end Sys2Proof.Machine
end

section
/-!
PROOFS. The TIME transactions READ, SET, UNLOCK and LEAP (13_time_and_launch.md R295 to R297; 15_zatas_control_protocol.md R355).
-/
namespace Sys2Proof.Machine

open Sys2Proof

/-- The data of a TIME SET. -/
def setData (sec ns fr : Nat) : List Byte := toBytes 6 sec ++ toBytes 4 ns ++ toBytes 2 fr ++ toBytes 4 0

/-- The data of a TIME LEAP. -/
def leapData (sec a : Nat) : List Byte := toBytes 6 sec ++ toBytes 1 a ++ toBytes 9 0

section Data
variable {sec ns fr a : Nat}

theorem setData_fields (hs : sec < 2 ^ 48) (hn : ns < 10 ^ 9) (hf : fr < 2 ^ 16) :
    fld (setData sec ns fr) 0 6 = sec ∧ fld (setData sec ns fr) 6 4 = ns ∧ fld (setData sec ns fr) 10 2 = fr
    ∧ fld (setData sec ns fr) 12 4 = 0 := by
  refine ⟨fld_at _ [] (toBytes 4 ns ++ toBytes 2 fr ++ toBytes 4 0) ?_ rfl hs,
    fld_at _ (toBytes 6 sec) (toBytes 2 fr ++ toBytes 4 0) ?_ (by simp) (by omega),
    fld_at _ (toBytes 6 sec ++ toBytes 4 ns) (toBytes 4 0) ?_ (by simp) hf,
    fld_at _ (toBytes 6 sec ++ toBytes 4 ns ++ toBytes 2 fr) [] ?_ (by simp) (by omega)⟩ <;>
  simp [setData]

theorem leapData_fields (hs : sec < 2 ^ 48) (ha : a < 256) :
    fld (leapData sec a) 0 6 = sec ∧ fld (leapData sec a) 6 1 = a ∧ fld (leapData sec a) 7 8 = 0 ∧ fld (leapData sec a) 15 1 = 0 := by
  have h9 : toBytes 9 0 = toBytes 8 0 ++ toBytes 1 0 := rfl
  refine ⟨fld_at _ [] (toBytes 1 a ++ toBytes 9 0) ?_ rfl hs,
    fld_at _ (toBytes 6 sec) (toBytes 9 0) ?_ (by simp) ha,
    fld_at _ (toBytes 6 sec ++ toBytes 1 a) (toBytes 1 0) ?_ (by simp) (by omega),
    fld_at _ (toBytes 6 sec ++ toBytes 1 a ++ toBytes 8 0) [] ?_ (by simp) (by omega)⟩ <;>
  simp [leapData, h9]

theorem setOk_setData (hs : sec < 2 ^ 48) (hn : ns < 10 ^ 9) (hf : fr < 2 ^ 16) : setOk (setData sec ns fr) = true := by
  obtain ⟨-, h6, -, h12⟩ := setData_fields hs hn hf
  rw [setOk, h6, h12, decide_eq_true hn]
  rfl

/-- A LEAP is a cancel, or one of the two actions at a later multiple of 86,400 s (Table 13.2). -/
theorem leapOk_leapData (s : State) (hs : sec < 2 ^ 48) (ha : a < 256) :
    leapOk s (leapData sec a) = (a == 0 || (decide (a ≤ 2) && sec % 86400 == 0 && decide (utcNow s < Int.ofNat sec))) := by
  obtain ⟨h0, h6, h7, h15⟩ := leapData_fields hs ha
  simp [leapOk, h0, h6, h7, h15]

end Data

/-! ## The four operations of a session whose level suffices -/

section Ops
variable {s : State} {n sec ns fr a : Nat}

theorem opTime_read (h : 1 ≤ levelOf s n) : opTime s n ⟨0x40, 0, 0, []⟩ = .done stOk 0 (timeData s) s :=
  (opTime_run (f := 0) h).trans (if_pos rfl)

theorem opTime_unlock (h : 3 ≤ levelOf s n) :
    opTime s n ⟨0x40, 0, 2, []⟩ = .done stOk 2 [] { s with time := { s.time with unlocked := true } } :=
  (opTime_run (f := 2) h).trans (if_pos rfl)

theorem opTime_set (h : 2 ≤ levelOf s n) (hs : sec < 2 ^ 48) (hn : ns < 10 ^ 9) (hf : fr < 2 ^ 16) :
    opTime s n ⟨0x40, 0, 1, setData sec ns fr⟩
      = if mayStep s then .done stOk 1 [] (hostSet s sec ns fr) else .done stTimeLocked 1 [] s := by
  obtain ⟨h0, h6, h10, -⟩ := setData_fields hs hn hf
  have hlen : (setData sec ns fr).length = 16 := by simp [setData]
  rw [opTime_run (f := 1) h, if_pos (by simp [hlen, setOk_setData hs hn hf])]
  show (if mayStep s then Ran.done stOk 1 [] (hostSet s (fld _ 0 6) (fld _ 6 4) (fld _ 10 2)) else _) = _
  rw [h0, h6, h10]

theorem opTime_leap (h : 2 ≤ levelOf s n) : opTime s n ⟨0x40, 0, 3, leapData sec a⟩
    = if leapOk s (leapData sec a) then .done stOk 3 [] (leapSet s (leapData sec a)) else .done stMalformed 3 [] s := by
  have hlen : (leapData sec a).length = 16 := by simp [leapData]
  have hwf : (decide (3 < 4) && ((leapData sec a).length == if 3 = 1 ∨ 3 = 3 then 16 else 0)
      && (3 != 1 || setOk (leapData sec a)) && (3 != 3 || leapOk s (leapData sec a))) = leapOk s (leapData sec a) := by
    simp [hlen]
  rw [opTime_run (f := 3) h, hwf]
  rfl

/-- A TIME operation of a session whose level suffices completes with its answer. -/
theorem timeCmd_run {i : Instr} {t : State} {f st : Nat} {d x : List Byte} (hi : i.wellFormed = true)
    (h : ready s n (timeLevel f)) (hr : opTime s n ⟨0x40, 0, f, d⟩ = .done st f x t) (hz : t.zat.sessions = s.zat.sessions)
    (hk : keepFixed s t = t) :
    cmd i s (fun u => direct u n ⟨0x40, 0, f, d⟩ opTime) = .next (answer t n 0x40 f st x) :=
  cmd_run hi (direct_done (x := ⟨0x40, 0, f, d⟩) h.2.1 hr hz) (keepFixed_answer hk _ _ _ _ _)

end Ops

/-- Settles O25: each function of TIME is its operation's answer. -/
theorem aSessionReadsSetsUnlocksAndLeapsTheTime : Obligations.ASessionReadsSetsUnlocksAndLeapsTheTime := by
  unfold Obligations.ASessionReadsSetsUnlocksAndLeapsTheTime
  intro s n
  refine ⟨fun h => ?read, fun sec ns fr h hs hn hf => ⟨fun hm => ?set, fun hv hu => ?locked⟩, fun h => ?unlock, fun h hl => ?low,
    fun sec a h hs ha => ?leap⟩
  case read => exact timeCmd_run (i := .timeRead n) (f := 0) h.1 h (opTime_read h.2.2) rfl rfl
  case set =>
    have hi : (Instr.timeSet n sec ns fr).wellFormed = true := by
      simp only [Instr.wellFormed, h.1, ok16, Bool.true_and, Bool.and_eq_true, decide_eq_true_eq]
      exact ⟨⟨hs, hn⟩, hf⟩
    have hmay : mayStep s = true := by
      rcases hm with hm | hm <;> simp [mayStep, hm]
    obtain ⟨x, p, y, c, q, z, g, he, hb, hv, hst, hby, hun, hutc, hrate⟩ := hostSet_frame s sec ns fr
    have hr := opTime_set h.2.2 hs hn hf
    rw [if_pos hmay, he] at hr
    exact ⟨_, timeCmd_run (f := 1) hi h hr rfl rfl, hb, hv, hst, hby, hun, hutc, hrate, rfl⟩
  case locked =>
    have hi : (Instr.timeSet n sec ns fr).wellFormed = true := by
      simp only [Instr.wellFormed, h.1, ok16, Bool.true_and, Bool.and_eq_true, decide_eq_true_eq]
      exact ⟨⟨hs, hn⟩, hf⟩
    have hr := opTime_set h.2.2 hs hn hf
    rw [if_neg (by simp [mayStep, hv, hu])] at hr
    exact timeCmd_run (f := 1) hi h hr rfl rfl
  case unlock => exact timeCmd_run (i := .timeUnlock n) (f := 2) h.1 h (opTime_unlock h.2.2) rfl rfl
  case low =>
    exact cmd_run (i := .timeUnlock n) h.1
      (opTime_answers (need := 3) h rfl (fun _ => ⟨rfl, rfl, rfl⟩) (fun hge => absurd hl (by omega)) rfl)
      (keepFixed_answer rfl _ _ _ _ _)
  case leap =>
    have hi : (Instr.timeLeap n sec a).wellFormed = true := by
      simp only [Instr.wellFormed, h.1, Bool.true_and, Bool.and_eq_true, decide_eq_true_eq]
      exact ⟨hs, ha⟩
    have hok := leapOk_leapData s hs ha
    obtain ⟨h0, h6, -, -⟩ := leapData_fields hs ha
    have hr := opTime_leap (sec := sec) (a := a) h.2.2
    refine ⟨?cancel, ?schedule, ?bad⟩
    case cancel =>
      rintro rfl
      rw [hok, if_pos (by rfl), leapSet, h6] at hr
      exact timeCmd_run (f := 3) hi h hr rfl rfl
    case schedule =>
      intro h1 h2 hday hnow
      have hlater : utcNow s < Int.ofNat sec := hnow
      rw [hok, decide_eq_true h2, decide_eq_true hlater, hday, if_pos (by simp), leapSet, h6, h0, if_neg (by omega)] at hr
      exact timeCmd_run (f := 3) hi h hr rfl rfl
    case bad =>
      intro hbad
      have hno : (a == 0 || (decide (a ≤ 2) && sec % 86400 == 0 && decide (utcNow s < Int.ofNat sec))) = false := by
        have ha0 : a ≠ 0 := by omega
        rcases hbad with h3 | ⟨-, hday | hnow⟩
        · simp [ha0, Nat.not_le.2 h3]
        · simp [ha0, hday]
        · rw [utcNow, decide_eq_false (Int.not_lt.2 hnow)]; simp [ha0]
      rw [hok, hno] at hr
      exact timeCmd_run (f := 3) hi h hr rfl rfl

end Sys2Proof.Machine
end

section
/-!
PROOFS. The levels of the TOP, RST and KEEP registers, and the writes of HOST_WDOG and of the volatile key slots
(17_reset_power_and_kitty.md R385, R407; 18_electrical_and_package.md R424; 15_zatas_control_protocol.md R341).
-/
namespace Sys2Proof.Machine

open Sys2Proof

/-! ## Reads at OBSERVE -/

/-- Registers whose READ changes nothing (R8). -/
def quietRead (i : RegId) : Bool := !([RegId.nowS, .confLatch, .adaptation, .laneStatus, .kitty].contains i)

theorem regRead_quiet (s : State) {r : RegRow} (ix : List Nat) (a : Nat) (h : quietRead r.id = true) :
    (regRead s r ix a).2 = s := by
  have he : readEffect s r ix = s := by
    unfold readEffect
    split
    rotate_right
    · rfl
    all_goals
      rename_i e
      rw [e] at h
      exact absurd h (by decide)
  unfold regRead
  rw [he]
  split <;> rfl

/-- The address is that of a register that a session of level OBSERVE may read, and whose READ changes nothing. -/
def observable (a : Nat) : Bool := match regPlace a with
  | .ok x => decide (x.1.rl ≤ 1) && quietRead x.1.id
  | .error _ => false

theorem observable_place {a : Nat} (h : observable a = true) :
    ∃ r ix, regPlace a = .ok (r, ix) ∧ r.rl ≤ 1 ∧ quietRead r.id = true := by
  unfold observable at h
  cases hp : regPlace a with
  | error e => rw [hp] at h; cases h
  | ok x =>
    rw [hp] at h
    obtain ⟨hl, hq⟩ := Bool.and_eq_true_iff.1 h
    exact ⟨x.1, x.2, rfl, of_decide_eq_true hl, hq⟩

theorem exec_read_observable {s : State} {n a : Nat} (h : ready s n 1) (ho : observable a = true) :
    ∃ w, exec (.read n a) s = .next (answer s n 0x08 a stOk (toBytes 8 w)) := by
  obtain ⟨r, ix, hp, hl, hq⟩ := observable_place ho
  obtain ⟨-, -, ha⟩ := regPlace_ok hp
  exact ⟨_, cmd_readReg (i := .read n a) (ready_wf h ha) h hp (Nat.le_trans hl h.2.2)
    (Prod.ext rfl (regRead_quiet s ix a hq)) rfl rfl⟩

theorem observable_sys : ∀ a ∈ [0x100, 0x108, 0x010000000000, 0x010000000008, 0x010000000010, 0x010000000018, 0x010000000020,
    0x010000000028, 0x010000000030, 0x010000000040, 0x010000000048, 0x010000000050, 0x020000000000, 0x020000000100, 0x020000000108],
    observable a = true := by decide

/-! ## HOST_WDOG (R385, R407) -/

/-- HOST_WDOG holding `v`, its count begun anew. -/
def wdogRestarted (s : State) (v : Nat) : State :=
  { setReg s 0x010000000018 v with rst := { s.rst with wdogClk := s.clk } }

section Wdog
variable {s : State} {lvl v : Nat} (ix : List Nat) (a : Nat)

theorem wdogPeriod_lt (s : State) : wdogPeriod s < 2 ^ 32 := Nat.mod_lt _ (by decide)

/-- A KICK with PERIOD as it stands, at any level that may write. -/
theorem regWrite_wdogKick : regWrite s (actRow .hostWdog 0x010000000018) ix a (2 ^ 32 + wdogPeriod s) lvl
    = (stOk, wdogRestarted s (wdogPeriod s)) := by
  have hlt := wdogPeriod_lt s
  have hmod : (2 ^ 32 + wdogPeriod s) % 2 ^ 32 = wdogPeriod s := by omega
  have hbit : bit (2 ^ 32 + wdogPeriod s) 32 = true := by
    have : (2 ^ 32 + wdogPeriod s) / 2 ^ 32 % 2 = 1 := by omega
    simp only [bit, this, beq_self_eq_true]
  rw [regWrite_act rfl rfl]
  simp only [wrAct, actRow, hmod, hbit, Bool.true_or, if_true, wrHostWdog]
  rfl

/-- A PRIVILEGED write restarts the count with the written PERIOD. -/
theorem regWrite_wdogPrivileged :
    regWrite s (actRow .hostWdog 0x010000000018) ix a v 3 = (stOk, wdogRestarted s (v % 2 ^ 32)) := by
  rw [regWrite_act rfl rfl]
  by_cases hv : v % 2 ^ 32 = wdogPeriod s
  · simp only [wrAct, actRow, if_pos hv, decide_true, Bool.or_true, if_true]
    rfl
  · simp only [wrAct, actRow, if_neg hv]
    rfl

/-- Below PRIVILEGED a write that would change PERIOD is refused. -/
theorem regWrite_wdogRefused (hl : lvl < 3) (hv : v % 2 ^ 32 ≠ wdogPeriod s) :
    regWrite s (actRow .hostWdog 0x010000000018) ix a v lvl = (stPrivilege, s) := by
  rw [regWrite_act rfl rfl]
  simp only [wrAct, actRow, if_neg hv, if_pos hl]

/-- Below PRIVILEGED a write of the present PERIOD without KICK does nothing. -/
theorem regWrite_wdogSame (hl : lvl < 3) (hlt : v < 2 ^ 32) (hv : v = wdogPeriod s) :
    regWrite s (actRow .hostWdog 0x010000000018) ix a v lvl = (stOk, s) := by
  have hmod : v % 2 ^ 32 = wdogPeriod s := (Nat.mod_eq_of_lt hlt).trans hv
  have hbit : bit v 32 = false := by
    rw [bit, Nat.div_eq_of_lt hlt]
    rfl
  have hno : (bit v 32 || decide (lvl = 3)) = false := by
    rw [hbit, decide_eq_false (by omega), Bool.false_or]
  rw [regWrite_act rfl rfl]
  simp only [wrAct, actRow, if_pos hmod, hno, Bool.false_eq_true, if_false]

end Wdog

theorem exec_hostWdogKick {s : State} {n : Nat} (h : ready s n 2) :
    exec (.hostWdogKick n) s = .next (answer (wdogRestarted s (wdogPeriod s)) n 0x09 0x010000000018 stOk []) := by
  have hlt := wdogPeriod_lt s
  exact cmd_run (i := .hostWdogKick n) h.1
    (writeReg_run h (r := actRow .hostWdog 0x010000000018) (ix := []) rfl h.2.2 (by omega) (regWrite_wdogKick _ _) rfl)
    (keepFixed_answer rfl _ _ _ _ _)

/-! ## Volatile key slots (R341) -/

/-- The volatile slots once slot `k` has taken its staged key at a level; none at LEVEL 0. -/
def vkeysTaken (s : State) (k lvl : Nat) : KMap KeySlot :=
  if lvl = 0 then kdel s.zat.vkeys k else kset s.zat.vkeys k ⟨kgetD s.zat.staged k (List.replicate 32 0), lvl⟩

section Vkey
variable {s : State} {k lvl : Nat} (a wl : Nat)

theorem regWrite_vkeyCommit (hl : lvl < 4) : regWrite s (actRow .vkeyCtl 0x240000002020 [(0x40, 8)] 3) [k] a (4 + lvl) wl
    = (stOk, { s with zat := { s.zat with vkeys := vkeysTaken s k lvl } }) := by
  have hb : bit (4 + lvl) 3 = false ∧ bit (4 + lvl) 2 = true ∧ (4 + lvl) % 4 = lvl := by
    revert lvl
    decide
  obtain ⟨h3, h2, hm⟩ := hb
  rw [regWrite_act rfl rfl]
  simp only [wrAct, actRow, wrVkeyCtl, h3, h2, hm, Bool.false_eq_true, if_false, if_true]
  rfl

theorem regWrite_vkeyClear : regWrite s (actRow .vkeyCtl 0x240000002020 [(0x40, 8)] 3) [k] a 8 wl
    = (stOk, { s with zat := { s.zat with vkeys := kdel s.zat.vkeys k } }) := by
  have h3 : bit 8 3 = true := by decide
  rw [regWrite_act rfl rfl]
  simp only [wrAct, actRow, wrVkeyCtl, h3, if_true]
  rfl

end Vkey

theorem exec_vkeyCommit {s : State} {n v : Nat} (lvl : Nat) (h : 8 ≤ v) :
    exec (.vkeyCommit n v lvl) s
      = cmd (.vkeyCommit n v lvl) s fun u => writeCmd u n (0x240000002020 + (v - 8) * 0x40) (4 + lvl) := by
  show execVkeyCommit n v lvl s = _
  simp only [execVkeyCommit, if_neg (Nat.not_lt.2 h)]

theorem exec_vkeyClear {s : State} {n v : Nat} (h : 8 ≤ v) :
    exec (.vkeyClear n v) s = cmd (.vkeyClear n v) s fun u => writeCmd u n (0x240000002020 + (v - 8) * 0x40) 8 := by
  show execVkeyClear n v s = _
  simp only [execVkeyClear, if_neg (Nat.not_lt.2 h)]

/-! ## The statements -/

/-- Settles O9: a READ of a register that may be observed, the level of each row, and HOST_WDOG's own check. -/
theorem accessLevelsOfTopAndResetRegisters : Obligations.AccessLevelsOfTopAndResetRegisters := by
  unfold Obligations.AccessLevelsOfTopAndResetRegisters
  intro s n a value h
  refine ⟨fun ha => exec_read_observable h (observable_sys a ha), fun hl => ⟨?_, ?_⟩, fun hl => ⟨?peak, ⟨_, exec_hostWdogKick ⟨h.1, h.2.1, hl⟩⟩⟩,
    fun ha => ⟨fun hl => ?refused, fun hl => ?done⟩⟩
  · exact cmd_run (i := .peakClear n) h.1 (opWrite_low h hl) rfl
  · exact cmd_run (i := .hostWdogKick n) h.1 (opWrite_low h hl) rfl
  case peak =>
    exact ⟨_, cmd_writeReg (i := .peakClear n) h.1 ⟨h.1, h.2.1, hl⟩ rfl hl (by decide) (regWrite_peakClear s _ _ _) rfl rfl⟩
  case refused =>
    have hwf : (Instr.registerWrite n a value).wellFormed = true :=
      ready_wf h (by rcases ha with rfl | rfl | ⟨rfl, -⟩ <;> decide)
    by_cases h1 : levelOf s n = 1
    · exact cmd_run hwf (opWrite_low h h1) rfl
    have h2 : ready s n 2 := ⟨h.1, h.2.1, by have := h.2.2; omega⟩
    rcases ha with rfl | rfl | ⟨rfl, hv⟩
    · exact cmd_run hwf (writeReg_low h2 (r := actRow .cause aCause [] 3) (ix := []) rfl hl value.isLt) rfl
    · exact cmd_run hwf (writeReg_low h2 (r := wordRow 0x010000000010 1 0 [] 1 3) (ix := []) rfl hl value.isLt) rfl
    · exact cmd_writeReg hwf h2 rfl h2.2.2 value.isLt (regWrite_wdogRefused _ _ hl hv) rfl rfl
  case done =>
    have hwf : (Instr.registerWrite n a value).wellFormed = true :=
      ready_wf h (by rcases ha with rfl | rfl | ⟨rfl, -⟩ <;> decide)
    have h2 : ready s n 2 := ⟨h.1, h.2.1, by omega⟩
    rcases ha with rfl | rfl | ⟨rfl, -⟩
    · exact ⟨_, cmd_writeReg (r := actRow .cause aCause [] 3) (ix := []) hwf h2 rfl (Nat.le_of_eq hl.symm) value.isLt rfl rfl rfl⟩
    · exact ⟨_, cmd_writeReg (r := wordRow 0x010000000010 1 0 [] 1 3) (ix := []) hwf h2 rfl (Nat.le_of_eq hl.symm) value.isLt rfl rfl rfl⟩
    · exact ⟨wdogRestarted s _, cmd_writeReg hwf h2 rfl h2.2.2 value.isLt (by rw [hl]; exact regWrite_wdogPrivileged _ _) rfl rfl⟩

/-- Settles O13: each command is the write of its register. -/
theorem watchdogAndVolatileKeyCommands : Obligations.WatchdogAndVolatileKeyCommands := by
  unfold Obligations.WatchdogAndVolatileKeyCommands
  refine ⟨fun s n period h => ?wdog, fun s n v h h8 h16 => ?vkey⟩
  case wdog =>
    have hper : period.toNat < 2 ^ 64 := Nat.lt_trans period.isLt (by decide)
    have hmod : period.toNat % 2 ^ 32 = period.toNat := Nat.mod_eq_of_lt period.isLt
    refine ⟨?_, fun hl => ?_, fun hl hne => ?_, fun hl he => ?_⟩
    · exact exec_hostWdogKick h
    · refine cmd_writeReg (i := .hostWdogPeriod n period) (r := actRow .hostWdog 0x010000000018) (ix := []) h.1 h rfl h.2.2 hper ?_ rfl rfl
      rw [hl, regWrite_wdogPrivileged, hmod]
      rfl
    · exact cmd_writeReg (i := .hostWdogPeriod n period) h.1 h rfl h.2.2 hper
        (regWrite_wdogRefused _ _ hl (by rwa [hmod])) rfl rfl
    · exact cmd_writeReg (i := .hostWdogPeriod n period) h.1 h rfl h.2.2 hper
        (regWrite_wdogSame _ _ hl period.isLt he) rfl rfl
  case vkey =>
    have hk : v - 8 < 8 := by omega
    have hwf : (okSession n && okKeySlot v) = true := Bool.and_eq_true_iff.2 ⟨h.1, decide_eq_true h16⟩
    have hcommit : ∀ lvl < 4, exec (.vkeyCommit n v lvl) s
        = .next (answer { s with zat := { s.zat with vkeys := vkeysTaken s (v - 8) lvl } } n 0x09
          (0x240000002020 + (v - 8) * 0x40) stOk []) := by
      intro lvl hl
      rw [exec_vkeyCommit lvl h8]
      exact cmd_writeReg (Bool.and_eq_true_iff.2 ⟨hwf, decide_eq_true hl⟩) (ready_mono h (by omega)) (regPlace_vkeyCtl hk)
        h.2.2 (by omega) (regWrite_vkeyCommit _ _ hl) rfl rfl
    refine ⟨?_, hcommit 0 (by decide), ?_⟩
    · rintro lvl _ h1 h4 rfl
      have e := hcommit lvl h4
      rwa [vkeysTaken, if_neg (by omega)] at e
    · rw [exec_vkeyClear h8]
      exact cmd_writeReg hwf (ready_mono h (by omega)) (regPlace_vkeyCtl hk) h.2.2 (by omega) (regWrite_vkeyClear _ _) rfl rfl

end Sys2Proof.Machine
end

section
/-!
PROOFS. State.reset, an L1, and the save of the kitty to the MRAM (17_reset_power_and_kitty.md R383, R384, R390, R393 to R404).
-/
namespace Sys2Proof.Machine

open Sys2Proof

/-- Settles O5: each field of State.reset has its value by definition, and an empty table holds no session, port, byte or register. -/
theorem powerOnLeavesThePartEmpty : Obligations.PowerOnLeavesThePartEmpty :=
  ⟨rfl, rfl, rfl, rfl, rfl, rfl, rfl, fun _ => rfl, fun _ => rfl, rfl, fun _ => rfl, fun _ _ => rfl⟩

/-! ## The image that a save writes (R403, R404) -/

theorem newestImage_congr {s t : State} (h : t.mram = s.mram) : newestImage t = newestImage s := by
  unfold newestImage mramHeader
  rw [h]

theorem saveTarget_congr {s t : State} (h : t.mram = s.mram) : saveTarget t = saveTarget s := by
  unfold saveTarget
  rw [newestImage_congr h]

theorem nextSave_congr {s t : State} (h : t.mram = s.mram) : nextSave t = nextSave s := by
  unfold nextSave mramHeader
  rw [newestImage_congr h, h]

/-- The MRAM once an image of `n` payload bytes has been written at `base`: STATE INVALID, the payload, the header. -/
def imageWritten (m : Mem) (base : Nat) (hdr pay : List Byte) : Mem :=
  memWrite (memWrite (memWrite m (base + 4) [0]) (base + 0x1000) pay) base hdr

section Image
variable (m : Mem) (base : Nat) {hdr pay : List Byte}

theorem imageWritten_header (h64 : hdr.length = 64) : memRead (imageWritten m base hdr pay) base 64 = hdr := by
  have h := memRead_memWrite (memWrite (memWrite m (base + 4) [0]) (base + 0x1000) pay) base hdr
  rwa [h64] at h

theorem imageWritten_payload (h64 : hdr.length = 64) : memRead (imageWritten m base hdr pay) (base + 0x1000) pay.length = pay := by
  unfold imageWritten
  rw [memRead_memWrite_out _ _ _ _ _ (by omega), memRead_memWrite]

theorem imageWritten_out (h64 : hdr.length = 64) {a : Nat}
    (ha : a < base ∨ (base + 64 ≤ a ∧ a < base + 0x1000) ∨ base + 0x1000 + pay.length ≤ a) :
    memGet (imageWritten m base hdr pay) a = memGet m a := by
  unfold imageWritten
  rw [memGet_memWrite_out _ _ _ (by omega), memGet_memWrite_out _ _ _ (by omega),
    memGet_memWrite_out _ _ _ (by simp only [List.length_cons, List.length_nil]; omega)]

end Image

/-- The part when the image is written: the mirror queue drained and the fence recorded (Table 17.8). -/
def fenced (s : State) (t : SaveTrigger) : State := keepStores s (kittyFence (mirrorDrain s) t (nextSave s))

/-- The payload of a save. -/
def savePayload (s : State) (t : SaveTrigger) : List Byte := memRead (kittyFence (mirrorDrain s) t (nextSave s)).kitty 0 kittyBytes

/-- The header of a save. -/
def saveHeader (s : State) (t : SaveTrigger) (micros : Nat) : List Byte :=
  imageHeader (fenced s t) (nextSave s) (crc32c crcInit (savePayload s t)) micros

theorem saveKitty_mram (s : State) (t : SaveTrigger) (micros : Nat) : (saveKitty s t micros).mram
    = imageWritten s.mram (mramBase (saveTarget s)) (saveHeader s t micros) (savePayload s t) := by
  have hm : (fenced s t).mram = s.mram := rfl
  have hk : memRead (fenced s t).kitty 0 kittyBytes = savePayload s t := rfl
  show (saveImage (fenced s t) micros).mram = _
  unfold saveImage
  dsimp only
  rw [saveTarget_congr hm, nextSave_congr hm, hk, hm]
  rfl

theorem savePayload_length (s : State) (t : SaveTrigger) : (savePayload s t).length = kittyBytes := memRead_length _ _ _

/-! ## An L1 (R384) -/

/-- The part after an L1, by its cause, its source, and whether THERMTRIP_N stays asserted. -/
def afterL1 (s : State) (cause : Byte) (src : Nat) (trip : Bool) : State :=
  { State.reset with
    pending := s.pending, clk := s.clk, fresh := s.fresh, frameNo := s.frameNo, sent := s.sent, fuses := s.fuses, mram := s.mram,
    flash := s.flash, perfAt := s.clk,
    rst := { Rst.reset with cause := cause, lastLevel := 1, lastSrc := src, lastTime := now40 s, tripped := trip } }

theorem l1_eq (src : Nat) (s : State) : l1 src s = afterL1 s (BitVec.ofNat 8 (2 ^ src)) src s.rst.tripped := rfl

theorem railOp_eq (s : State) (r : Rail) : railOp s r = afterL1 s 1 0 (s.rst.tripped && r != .vddIo) := by
  unfold railOp
  by_cases hr : r = .vddIo
  · subst hr
    rw [if_pos rfl, Bool.and_comm]
    rfl
  · rw [if_neg hr, bne_iff_ne.2 hr, Bool.and_true]
    rfl

theorem saveOp_disarmed {s : State} (h : s.keep.armed = false) (t : SaveTrigger) (micros : Nat) :
    saveOp s t micros = afterL1 s 2 1 s.rst.tripped := by
  unfold saveOp
  rw [h, if_neg (by decide)]
  rfl

theorem saveOp_armed {s : State} (h : s.keep.armed = true) (t : SaveTrigger) (micros : Nat) :
    saveOp s t micros = l1 1 (saveKitty s t micros) := by
  unfold saveOp
  rw [h, if_pos rfl]

theorem cmdBig_ok {i : Instr} (s : State) {f : State → State} (h : i.wellFormed = true) :
    cmdBig i s f = .next { f s with pending := s.pending, clk := s.clk, flash := s.flash } := by
  simp [cmdBig, h]

/-- Settles O34: an L1 by its definition, and the image by the three writes of the save. -/
theorem powerLossAndSaves : Obligations.PowerLossAndSaves := by
  unfold Obligations.PowerLossAndSaves
  refine ⟨fun s rail pulse trigger micros u hu => ?loss, fun s trigger micros ha hm => ?save⟩
  case loss =>
    have he : ∀ cause src trip, u cause src trip = afterL1 s cause src trip := hu
    simp only [he]
    exact ⟨cmdBig_run (i := .railFail rail pulse) (f := fun s => railOp s rail) rfl (railOp_eq s rail) rfl,
      fun ha hm => cmdBig_run (i := .kittySave trigger micros) (f := fun s => saveOp s trigger micros) (decide_eq_true hm)
        (saveOp_disarmed ha trigger micros) rfl⟩
  case save =>
    obtain ⟨v, hv⟩ : ∃ v, v = saveKitty s trigger micros := ⟨_, rfl⟩
    have hfuses : v.fuses = s.fuses := by rw [hv]; rfl
    have hmram : v.mram = _ := hv ▸ saveKitty_mram s trigger micros
    have hrun := cmdBig_ok (i := .kittySave trigger micros) s (f := fun s => saveOp s trigger micros) (decide_eq_true hm)
    dsimp only at hrun
    rw [saveOp_armed ha, ← hv] at hrun
    refine ⟨_, hrun, rfl, rfl, rfl, rfl, hfuses, ?_⟩
    rintro base _ _ rfl rfl rfl
    have hlen := savePayload_length s trigger
    obtain ⟨h64, hvalid, hstate, hseq, hcrc, hmicros⟩ := imageHeader_facts (fenced s trigger) (nextSave s)
      (crc32c crcInit (savePayload s trigger)) micros (crc32c_lt _ _) hm (saveHeader s trigger micros) rfl
    have hhdr := imageWritten_header s.mram (mramBase (saveTarget s)) (pay := savePayload s trigger) h64
    have hpay := imageWritten_payload s.mram (mramBase (saveTarget s)) (pay := savePayload s trigger) h64
    have hout := fun a => imageWritten_out s.mram (mramBase (saveTarget s)) (pay := savePayload s trigger) h64 (a := a)
    rw [hlen] at hpay hout
    rw [← hmram] at hhdr hpay hout
    show hdrValid (memRead v.mram _ 64) = true ∧ fld (memRead v.mram _ 64) 4 1 = 1 ∧ hdrSeq (memRead v.mram _ 64) = _
      ∧ fld (memRead v.mram _ 64) 20 4 = crc32c crcInit (memRead v.mram _ kittyBytes) ∧ fld (memRead v.mram _ 64) 34 4 = micros
      ∧ memRead v.mram _ kittyBytes = _ ∧ ∀ a, _ → memGet v.mram a = _
    rw [hhdr, hpay]
    exact ⟨hvalid, hstate, hseq, hcrc, hmicros, rfl, hout⟩

end Sys2Proof.Machine
end

section
/-!
PROOFS. The HBM controller: GRAIN and RETRAIN, the issue of a request, refresh, the scrubber and the end of a retraining
(14_hbm_controller.md R320 to R331).
-/
namespace Sys2Proof.Machine

open Sys2Proof

/-! ## GRAIN and RETRAIN (R320, R331) -/

/-- The row of the two GRAIN registers. -/
def grainRow : RegRow := actRow .grain aGrain0 [(8, 2)] 3

/-- The row of RETRAIN. -/
def retrainRow : RegRow := actRow .retrain 0x200000000018 [] 3

theorem regPlace_grain (second : Bool) :
    regPlace (if second then aGrain1 else aGrain0) = .ok (grainRow, [if second then 1 else 0]) := by
  cases second <;> rfl

section Guarded
variable {s : State} {v : Nat} (ix : List Nat) (a lvl : Nat)

theorem regWrite_grainDealt (h : s.deck.dealt = true) : regWrite s grainRow ix a v lvl = (stProtection, s) := by
  rw [regWrite_act rfl rfl]
  exact if_pos h

theorem regWrite_grainBad (h : s.deck.dealt = false) (hc : grainOk v = false) :
    regWrite s grainRow ix a v lvl = (stMalformed, s) := by
  rw [regWrite_act rfl rfl]
  simp only [wrAct, grainRow, actRow, h, hc, Bool.false_eq_true, if_false]

theorem regWrite_grainLegal (h : s.deck.dealt = false) (hc : grainOk v = true) :
    regWrite s grainRow ix a v lvl = (stOk, regrain s (setReg s a (v % 2 ^ 36))) := by
  rw [regWrite_act rfl rfl]
  simp only [wrAct, grainRow, actRow, h, hc, Bool.false_eq_true, if_false, if_true]

/-- The part with a retraining begun where the written word's START bit is set. -/
def retrainBegun (s : State) (v : Nat) : State :=
  { s with hbmc := { s.hbmc with retrain := if bit v 2 then some (v % 4) else none } }

theorem retrainBegun_idle (h : s.hbmc.retrain = none) (hb : bit v 2 = false) : retrainBegun s v = s := by
  unfold retrainBegun
  rw [hb, if_neg (by decide), ← h]

theorem regWrite_retrainBegins (hf : s.rst.foldFlow = .folded) (h : s.hbmc.retrain = none) :
    regWrite s retrainRow ix a v lvl = (stOk, retrainBegun s v) := by
  have hok : retrainOk s = true := by simp [retrainOk, hf, h]
  rw [regWrite_act rfl rfl]
  cases hb : bit v 2 with
  | true => simp only [wrAct, retrainRow, actRow, hok, hb, if_true, retrainBegun]
  | false =>
    simp only [wrAct, retrainRow, actRow, hok, hb, if_true, Bool.false_eq_true, if_false]
    rw [retrainBegun_idle h hb]

theorem regWrite_retrainBusy (h : s.rst.foldFlow ≠ .folded ∨ s.hbmc.retrain ≠ none) :
    regWrite s retrainRow ix a v lvl = (stBusy, s) := by
  have hno : retrainOk s = false := by
    rcases h with h | h
    · simp [retrainOk, h]
    · simp [retrainOk, Option.isNone_eq_false_iff, Option.isSome_iff_ne_none.2 h]
  rw [regWrite_act rfl rfl]
  simp only [wrAct, retrainRow, actRow, hno, Bool.false_eq_true, if_false]

end Guarded

/-! ## A request issues (R324) -/

/-- Pseudo-channel `pc` once bank `b` has been served and `rest` of its requests wait on. -/
def served (s : State) (pc b : Nat) (rest : List HbmReq) : State :=
  { s with hbmc := { s.hbmc with
      reqs := if rest = [] then kdel s.hbmc.reqs (pc * 48 + b) else kset s.hbmc.reqs (pc * 48 + b) rest,
      lastBank := kset s.hbmc.lastBank pc b,
      columns := kset s.hbmc.columns pc ((kgetD s.hbmc.columns pc 0 + 1) % 23) } }

/-- What the request does by the error that its word brings (R327). -/
def issued (s : State) (pc : Nat) (r : HbmReq) : EccFault → State
  | .clean => execReq s r
  | .single => bump (execReq s r) (aHbmCtr (pc / 32) 0)
  | .double =>
    if r.done then hbmUncorr (poisonSector s (r.addr / 32)) r.source (r.addr / 32)
    else execReq (poisonSector s (r.addr / 32)) r

section Issue
variable {s : State} {pc b : Nat} {r : HbmReq} {rest : List HbmReq}

theorem SameButHbm.served (s : State) (pc b : Nat) (rest : List HbmReq) : SameButHbm s (served s pc b rest) := rfl

theorem SameButHbm.issued (s : State) (pc : Nat) (r : HbmReq) (err : EccFault) : SameButHbm s (issued s pc r err) := by
  cases err with
  | clean => exact .execReq s r
  | single => exact (SameButHbm.execReq s r).trans (SameButRegs.bump _ _).hbm
  | double =>
    have hbad := SameButHbm.poisonSector s (r.addr / 32)
    show SameButHbm s (if r.done = true then _ else _)
    split
    · exact hbad.trans (.hbmUncorr _ _ _)
    · exact hbad.trans (.execReq _ _)

theorem hbmIssue_serves (hf : inRefresh s (pc / 32) = false) (ht : s.hbmc.retrain ≠ some (pc / 32))
    (hb : nextBank s pc = some b) (hr : bankReqs s pc b = r :: rest) (err : EccFault) :
    hbmIssue s pc err = issued (served s pc b rest) pc r err := by
  have hholds : stackHolds s (pc / 32) = false := by simp [stackHolds, hf, ht]
  have hput : kput s.hbmc.reqs (pc * 48 + b) (if rest.isEmpty then none else some rest)
      = if rest = [] then kdel s.hbmc.reqs (pc * 48 + b) else kset s.hbmc.reqs (pc * 48 + b) rest := by
    cases rest <;> rfl
  unfold hbmIssue
  rw [hholds, hb]
  dsimp only
  rw [hr, if_neg (by decide)]
  dsimp only
  rw [hput]
  cases err <;> rfl

theorem exec_hbmCommandIssue (hpc : pc < 128) (hf : inRefresh s (pc / 32) = false) (ht : s.hbmc.retrain ≠ some (pc / 32))
    (hb : nextBank s pc = some b) (hr : bankReqs s pc b = r :: rest) (err : EccFault) :
    exec (.hbmCommandIssue pc err) s = .next (issued (served s pc b rest) pc r err) :=
  cmd_run (i := .hbmCommandIssue pc err) (f := fun s => hbmIssue s pc err) (decide_eq_true hpc) (hbmIssue_serves hf ht hb hr err)
    (keepFixed_hbm ((SameButHbm.served s pc b rest).trans (.issued _ _ _ _)))

end Issue

/-! ## Refresh, scrubber and retraining (R326, R328, R331) -/

/-- The scrubber of stack `st` has moved to its next unit. -/
def scrubMoved (s : State) (st : Nat) : State :=
  { s with hbmc := { s.hbmc with scrub := kset s.hbmc.scrub st ((kgetD s.hbmc.scrub st 0 + 1) % stackUnits) } }

/-- What a scrub of the unit at `off` does by the error it finds. -/
def scrubbed (u : State) (st off : Nat) : EccFault → State
  | .clean => readPiece u 114 off 64
  | .single => bump (readPiece u 114 off 64) (aHbmCtr st 0)
  | .double => readPiece (badUnit u (off / 32)) 114 off 64

theorem SameButHbm.badUnit (s : State) (k : Nat) : SameButHbm s (badUnit s k) := by
  have hd : SameButHbm s (draw s).2 := rfl
  unfold Machine.badUnit
  dsimp only
  split
  · exact hd.trans (.poisonSector _ _)
  · exact hd.trans (.poisonSector _ _)
  · exact (hd.trans (.poisonSector _ _)).trans (.poisonSector _ _)

theorem SameButHbm.scrubbed (u : State) (st off : Nat) (err : EccFault) : SameButHbm u (scrubbed u st off err) := by
  cases err with
  | clean => exact .readPiece u _ _ _
  | single => exact (SameButHbm.readPiece u _ _ _).trans (SameButRegs.bump _ _).hbm
  | double => exact (SameButHbm.badUnit u _).trans (.readPiece _ _ _ _)

section Stack
variable {s : State} {st : Nat}

theorem exec_hbmScrub (hst : st < 4) (hup : bit s.hbmc.trained st = true) (err : EccFault) : exec (.hbmScrub st err) s
    = .next (scrubbed (scrubMoved s st) st (scrubOff s st (kgetD s.hbmc.scrub st 0)) err) := by
  have he : hbmScrubOp s st err = scrubbed (scrubMoved s st) st (scrubOff s st (kgetD s.hbmc.scrub st 0)) err := by
    unfold hbmScrubOp stackUp
    rw [hup, if_neg (by decide)]
    cases err <;> rfl
  have hmoved : SameButHbm s (scrubMoved s st) := rfl
  exact cmd_run (i := .hbmScrub st err) (f := fun s => hbmScrubOp s st err) (decide_eq_true hst) he
    (keepFixed_hbm (hmoved.trans (.scrubbed _ _ _ _)))

theorem hbmRefreshOp_due {e : Nat} (he : s.hbmc.epoch = some e) (hg : bit s.rst.good (1 + st) = true)
    (hc : (s.clk - e) % 6240 = 1560 * st) (hn : kget s.hbmc.refAt st ≠ some s.clk) :
    hbmRefreshOp s st = bump { s with hbmc := { s.hbmc with refAt := kset s.hbmc.refAt st s.clk } } (aHbmCtr st 2) := by
  have hdue : refreshDue s st = true := by simp [refreshDue, he, hg, hc, hn]
  exact if_pos hdue

/-- The retraining of a stack has ended, with FAIL where a lane's windows were too narrow. -/
def retrainEnded (s : State) (st : Nat) (bad : Bool) : State :=
  { s with hbmc := { s.hbmc with retrain := none, retrainFail := setBits s.hbmc.retrainFail st st (b2n bad) } }

theorem exec_retrainDone {lanes : List W64} {bad : Bool} (hl : lanes.length = 160) (hr : s.hbmc.retrain = some st)
    (hb : bad = lanes.any fun w => laneFails w.toNat) : exec (.retrainDone lanes) s
      = .next (if bad then markSet (retrainEnded s st bad) aHbmStatus (2 ^ (12 + st)) else putLanes (retrainEnded s st bad) st lanes) := by
  have he : retrainDoneOp s lanes
      = if bad then markSet (retrainEnded s st bad) aHbmStatus (2 ^ (12 + st)) else putLanes (retrainEnded s st bad) st lanes := by
    unfold retrainDoneOp
    rw [hr, hb]
    rfl
  refine cmd_run (i := .retrainDone lanes) (f := fun s => retrainDoneOp s lanes) (decide_eq_true hl) he (keepFixed_hbm ?_)
  have hended : SameButHbm s (retrainEnded s st bad) := rfl
  split
  · rfl
  · exact hended.trans (SameButRegs.putLanes _ _ _).hbm

end Stack

/-- Settles O16: each guarded write by its own check, and each command of the controller by its one operation. -/
theorem hbmControllerAndItsRegisters : Obligations.HbmControllerAndItsRegisters := by
  unfold Obligations.HbmControllerAndItsRegisters
  refine ⟨?registers, ?commands⟩
  case registers =>
    rintro s n a second value h rfl
    have h2 := ready_mono h (b := 2) (by omega)
    have hgrain : ∀ {st t}, regWrite s grainRow [if second then 1 else 0] (if second then aGrain1 else aGrain0) value.toNat
        (levelOf s n) = (st, t) → keepFixed s t = t → t.zat.sessions = s.zat.sessions →
        exec (.grainWrite n second value) s = .next (answer t n 0x09 (if second then aGrain1 else aGrain0) st []) :=
      fun he hk hz => cmd_writeReg (i := .grainWrite n second value) h.1 h2 (regPlace_grain second) h.2.2 value.isLt he hk hz
    have hretrain : ∀ {st t}, regWrite s retrainRow [] 0x200000000018 value.toNat (levelOf s n) = (st, t) →
        keepFixed s t = t → t.zat.sessions = s.zat.sessions →
        exec (.retrain n value) s = .next (answer t n 0x09 0x200000000018 st []) :=
      fun he hk hz => cmd_writeReg (i := .retrain n value) (r := retrainRow) (ix := []) h.1 h2 rfl h.2.2 value.isLt he hk hz
    exact ⟨fun hd => hgrain (regWrite_grainDealt _ _ _ hd) rfl rfl, fun hd hc => hgrain (regWrite_grainBad _ _ _ hd hc) rfl rfl,
      fun hd hc => hgrain (regWrite_grainLegal _ _ _ hd hc) rfl rfl,
      fun hf hn => hretrain (regWrite_retrainBegins _ _ _ hf hn) rfl rfl,
      fun hb => hretrain (regWrite_retrainBusy _ _ _ hb) rfl rfl⟩
  case commands =>
    intro s pc st b r rest lanes
    refine ⟨?issue, ?refresh, ?scrub, ?done⟩
    case issue =>
      rintro hpc rfl hf ht hb hr u reqs rfl rfl
      have hrun := exec_hbmCommandIssue hpc hf ht hb hr
      have hclean := hrun .clean
      refine ⟨fun hd => ?_, hclean, hrun .single, fun hd => ?_, fun hd => ?_⟩
      · rw [hclean]
        exact congrArg Host.Outcome.next (if_pos hd)
      · rw [hrun .double]
        exact congrArg Host.Outcome.next (if_neg (by rw [hd]; decide))
      · rw [hrun .double]
        exact congrArg Host.Outcome.next (if_pos hd)
    case refresh =>
      intro hst e he hg hc hn
      exact cmd_run (i := .hbmRefresh st) (f := fun s => hbmRefreshOp s st) (decide_eq_true hst) (hbmRefreshOp_due he hg hc hn) rfl
    case scrub =>
      rintro hst hup u off next rfl rfl rfl
      exact ⟨exec_hbmScrub hst hup .clean, exec_hbmScrub hst hup .single, exec_hbmScrub hst hup .double⟩
    case done =>
      rintro hl hr bad u hb rfl
      exact exec_retrainDone hl hr hb

end Sys2Proof.Machine
end

section
/-!
PROOFS. Clock monitors and what they hold (17_reset_power_and_kitty.md R392, R393, Table 17.5).
-/
namespace Sys2Proof.Machine

open Sys2Proof

theorem earlyStep_false {s : State} (h1 : s.rst.step ≠ 1) (h2 : s.rst.step ≠ 2) : earlyStep s = false := by
  simp [earlyStep, h1, h2]

/-! ## A clock goes bad -/

/-- RST once clock `c` has been declared bad. -/
def lostRst (s : State) (c : Nat) : Rst :=
  { s.rst with good := setBits s.rst.good c c 0, failed := setBits s.rst.failed c c 1, cause := s.rst.cause ||| 0x40 }

/-- The part once clock `c` has been declared bad, before its block is held. -/
def clockLost (s : State) (c : Nat) : State :=
  markSet (markSet { s with rst := lostRst s c } aCause 0x40) aClock (2 ^ (32 + c))

section Bad
variable {s : State} {c : Nat} {facts : PowerOnFacts}

theorem clockBadOp_lost (hb : bit s.rst.good c = true) (hc : c ≠ 0) (f : PowerOnFacts) :
    clockBadOp s c f = keepStores s (holdClock (clockLost s c) c) := by
  unfold clockBadOp
  rw [hb, if_neg (by decide)]
  dsimp only
  rw [if_neg hc]
  rfl

/-- A clock other than the core's goes bad: its block is held. -/
theorem exec_clockBad_holds {t : State} (hc : c < 25) (hf : okFacts facts = true) (h0 : c ≠ 0) (hb : bit s.rst.good c = true)
    (hh : holdClock (clockLost s c) c = t) : exec (.clockBad c facts) s = .next (keepStores s t) :=
  cmdBig_run (i := .clockBad c facts) (f := fun s => clockBadOp s c facts) (Bool.and_eq_true_iff.2 ⟨decide_eq_true hc, hf⟩)
    ((clockBadOp_lost hb h0 facts).trans (by rw [hh])) rfl

theorem exec_clockBad_same (hc : c < 25) (hf : okFacts facts = true) (hb : bit s.rst.good c = false) :
    exec (.clockBad c facts) s = .next s := by
  refine cmdBig_run (i := .clockBad c facts) (f := fun s => clockBadOp s c facts) (Bool.and_eq_true_iff.2 ⟨decide_eq_true hc, hf⟩) ?_ rfl
  unfold clockBadOp
  rw [hb]
  rfl

end Bad

/-! ## A stack is held -/

/-- What the controller holds of its stacks: which are trained, and the requests that wait. -/
def stackState (s : State) : Nat × KMap (List HbmReq) := (s.hbmc.trained, s.hbmc.reqs)

theorem stackState_readSectors (s : State) (source off n : Nat) : stackState (readSectors s source off n) = stackState s := by
  unfold readSectors
  dsimp only
  rw [foldl_keeps (f := fun s k => hbmUncorr s source k) stackState (fun _ _ => rfl)]
  obtain ⟨x, h, e⟩ := cross_frame s (101 + stackAt s off) 512 (chunks 64 (memRead s.hbm (off + n - min n 32768) (min n 32768)))
  unfold readReturn
  dsimp only
  rw [e]
  rfl

theorem stackState_execReq (s : State) (r : HbmReq) : stackState (execReq s r) = stackState s := by
  have hbytes : stackState (hbmBytesAt s r.addr r.len).2 = stackState s := by
    unfold hbmBytesAt
    split
    · show stackState (drawN _ s).2 = _
      rw [drawN_frame]
      rfl
    · rfl
  have hread := (stackState_readSectors (hbmBytesAt s r.addr r.len).2 r.source r.addr r.len).trans hbytes
  unfold execReq
  generalize hbmBytesAt s r.addr r.len = x at hread ⊢
  dsimp only
  generalize readSectors x.2 r.source r.addr r.len = y at hread ⊢
  split
  · rfl
  · split
    · exact hread
    · exact hread

/-- The part once the requests of held stack `st` have completed. -/
def stackDrained (s : State) (st : Nat) : State :=
  ((s.hbmc.reqs.filter fun e => e.1 / 48 / 32 == st).flatMap (·.2)).foldl execReq
    { s with hbmc := { s.hbmc with trained := setBits s.hbmc.trained st st 0 } }

theorem holdStack_eq (s : State) (st : Nat) : holdStack s st = { stackDrained s st with
    hbmc := { (stackDrained s st).hbmc with reqs := kfilter (stackDrained s st).hbmc.reqs fun k _ => k / 48 / 32 != st } } := rfl

theorem stackDrained_state (s : State) (st : Nat) :
    stackState (stackDrained s st) = (setBits s.hbmc.trained st st 0, s.hbmc.reqs) :=
  foldl_keeps stackState stackState_execReq _ _

theorem SameButHbm.holdStack (s : State) (st : Nat) : SameButHbm s (holdStack s st) := by
  have hup : SameButHbm s { s with hbmc := { s.hbmc with trained := setBits s.hbmc.trained st st 0 } } := rfl
  have hdrain : SameButHbm s (stackDrained s st) := hup.trans (.foldl (fun s r => .execReq s r) _ _)
  rw [holdStack_eq]
  exact hdrain.trans (.hbmc _ _)

theorem SameRegsButHbm.holdStack (s : State) (st : Nat) : SameRegsButHbm s (holdStack s st) := by
  have hup : SameRegsButHbm s { s with hbmc := { s.hbmc with trained := setBits s.hbmc.trained st st 0 } } := .of_regs rfl
  have hdrain : SameRegsButHbm s (stackDrained s st) := hup.trans (.foldl (fun s r => .execReq s r) _ _)
  rw [holdStack_eq]
  exact hdrain.trans (.of_regs rfl)

theorem holdStack_hbmc (s : State) (st : Nat) : (holdStack s st).hbmc.trained = setBits s.hbmc.trained st st 0
    ∧ (holdStack s st).hbmc.reqs = kfilter s.hbmc.reqs fun k _ => k / 48 / 32 != st := by
  obtain ⟨htrained, hreqs⟩ := Prod.mk.inj (stackDrained_state s st)
  rw [holdStack_eq]
  exact ⟨htrained, congrArg (fun m => kfilter m fun k _ => k / 48 / 32 != st) hreqs⟩

/-! ## ZAT is held -/

/-- What a session's end leaves alone of RST, the links and the volatile keys. -/
def zatKept (s : State) : Rst × Bool × Bool × KMap KeySlot := (s.rst, s.zat.link0, s.zat.link1, s.zat.vkeys)

theorem sessions_closeSess (s : State) (n : Nat) : (closeSess s n).zat.sessions = kdel s.zat.sessions n := rfl

theorem closeAll_sessions (s : State) (n : Nat) : kget ((s.zat.sessions.map (·.1)).foldl closeSess s).zat.sessions n = none := by
  rw [kget_foldl_kdel (fun s : State => s.zat.sessions) closeSess sessions_closeSess]
  split
  · rfl
  · rename_i h
    exact kget_none_of_notin h

/-- The links and the counters alone move as a control link goes down. -/
theorem ctlDown_frame (s : State) (cp : Nat) : (ctlDown s cp).rst = s.rst ∧ (ctlDown s cp).zat.sessions = s.zat.sessions
    ∧ (ctlDown s cp).zat.vkeys = s.zat.vkeys
    ∧ (ctlDown s cp).zat.link0 = (if cp = 0 then false else s.zat.link0)
    ∧ (ctlDown s cp).zat.link1 = (if cp = 0 then s.zat.link1 else false) := by
  unfold ctlDown
  dsimp only
  by_cases hc : cp = 0
  · simp only [if_pos hc]
    split
    · exact ⟨rfl, rfl, rfl, rfl, rfl⟩
    · rename_i h
      exact ⟨rfl, rfl, rfl, by simpa using h, rfl⟩
  · simp only [if_neg hc]
    split
    · exact ⟨rfl, rfl, rfl, rfl, rfl⟩
    · rename_i h
      exact ⟨rfl, rfl, rfl, rfl, by simpa using h⟩

theorem holdZat_frame (s : State) : (holdZat s).rst = s.rst ∧ (∀ n, kget (holdZat s).zat.sessions n = none)
    ∧ (holdZat s).zat.link0 = false ∧ (holdZat s).zat.link1 = false ∧ (holdZat s).zat.vkeys = s.zat.vkeys := by
  obtain ⟨v, hv⟩ : ∃ v, v = (s.zat.sessions.map (·.1)).foldl closeSess s := ⟨_, rfl⟩
  have hkept : zatKept v = zatKept s := hv ▸ foldl_keeps (f := closeSess) zatKept (fun _ _ => rfl) _ _
  have hsess : ∀ n, kget v.zat.sessions n = none := fun n => hv ▸ closeAll_sessions s n
  have hhold : holdZat s = ctlDown (ctlDown v 0) 1 := by rw [hv]; rfl
  obtain ⟨hrst, -⟩ := Prod.mk.inj hkept
  obtain ⟨-, hkept'⟩ := Prod.mk.inj hkept
  obtain ⟨arst, asess, akeys, alink0, -⟩ := ctlDown_frame v 0
  obtain ⟨brst, bsess, bkeys, blink0, blink1⟩ := ctlDown_frame (ctlDown v 0) 1
  rw [hhold]
  refine ⟨by rw [brst, arst, hrst], fun n => by rw [bsess, asess]; exact hsess n, by rw [blink0, alink0]; rfl, by rw [blink1]; rfl, ?_⟩
  rw [bkeys, akeys]
  exact (Prod.mk.inj (Prod.mk.inj hkept').2).2

/-! ## Which block a clock holds (Table 17.5) -/

section Hold
variable (s : State) {c : Nat}

theorem holdClock_stack (h : c ≤ 4) : holdClock s c = holdStack s (c - 1) := if_pos h

theorem holdClock_zat (h : c = 5 ∨ c = 24) : holdClock s c = holdZat s := by
  rcases h with rfl | rfl <;> rfl

theorem holdClock_die (h8 : 8 ≤ c) (h23 : c ≤ 23) : holdClock s c
    = if dieHeld s ((c - 8) / 2) then dropLinks s fun p => p / 32 == (c - 8) / 2 else s := by
  have h5 : (decide (c = 5) || decide (c = 24)) = false := by
    rw [decide_eq_false (by omega), decide_eq_false (by omega)]
    rfl
  unfold holdClock
  rw [if_neg (by omega), h5, if_neg (by decide), if_neg (by omega), if_neg (by omega)]

/-- The links of a held die go down, and no other. -/
theorem holdClock_die_links (h8 : 8 ≤ c) (h23 : c ≤ 23) (p : Nat) : (holdClock s c).rst = s.rst
    ∧ (portOf (holdClock s c) p).up = if dieHeld s ((c - 8) / 2) && (isPort s p && p / 32 == (c - 8) / 2) then false else (portOf s p).up := by
  rw [holdClock_die s h8 h23]
  obtain ⟨hup, hrst⟩ := dropLinks_up s (fun p => p / 32 == (c - 8) / 2) p
  cases dieHeld s ((c - 8) / 2) with
  | true => exact ⟨hrst, hup⟩
  | false => exact ⟨rfl, rfl⟩

end Hold

/-! ## A clock comes back -/

/-- The part once clock `c` reads good again; the keep domain comes back cleared, with saves armed. -/
def clockBack (s : State) (c : Nat) : State :=
  if c = 7 then { s with rst := { s.rst with good := setBits s.rst.good c c 1 }, kitty := [], keep := { s.keep with armed := true } }
  else { s with rst := { s.rst with good := setBits s.rst.good c c 1 } }

theorem clockGoodOp_back {s : State} {c : Nat} (he : earlyStep s = false) (hb : bit s.rst.good c = false) :
    clockGoodOp s c = clockBack s c := by
  unfold clockGoodOp
  rw [he, hb]
  rfl

theorem keepFixed_clockBack (s : State) (c : Nat) : keepFixed s (clockBack s c) = clockBack s c := by
  unfold clockBack
  split <;> rfl

theorem clockGoodOp_same {s : State} {c : Nat} (hb : bit s.rst.good c = true) : clockGoodOp s c = s := by
  unfold clockGoodOp
  rw [hb, Bool.or_true]
  rfl

/-- Settles O35: a monitor's change by what it records, and each block's hold by its own frame. -/
theorem clockMonitorsHoldAndReleaseTheirBlocks : Obligations.ClockMonitorsHoldAndReleaseTheirBlocks := by
  unfold Obligations.ClockMonitorsHoldAndReleaseTheirBlocks
  rintro s c facts hc hf h1 h2 good lost w rfl rfl rfl
  have he := earlyStep_false h1 h2
  refine ⟨fun hb => ?_, fun hb => ?_, exec_clockBad_same hc hf, fun hb => ⟨?time, ?keep, ?stack, ?zat, ?lane⟩⟩
  · exact cmd_run (i := .clockGood c) (f := fun s => clockGoodOp s c) (decide_eq_true hc) (clockGoodOp_back he hb) (keepFixed_clockBack s c)
  · exact cmd_run (i := .clockGood c) (f := fun s => clockGoodOp s c) (decide_eq_true hc) (clockGoodOp_same hb) rfl
  case time =>
    rintro rfl
    exact exec_clockBad_holds hc hf (by decide) hb rfl
  case keep =>
    rintro rfl
    exact exec_clockBad_holds hc hf (by decide) hb rfl
  case stack =>
    intro hlo hhi
    obtain ⟨htrained, hreqs⟩ := holdStack_hbmc (clockLost s c) (c - 1)
    have hsame := SameButHbm.holdStack (clockLost s c) (c - 1)
    have hkeep : keepStores s (holdStack (clockLost s c) (c - 1)) = holdStack (clockLost s c) (c - 1) :=
      keepStores_of_keepFixed (s := clockLost s c) (keepFixed_hbm hsame)
    refine ⟨holdStack (clockLost s c) (c - 1), ?_, hsame, SameRegsButHbm.holdStack (clockLost s c) (c - 1), htrained, hreqs⟩
    exact (exec_clockBad_holds hc hf (by omega) hb (holdClock_stack _ hhi)).trans (congrArg _ hkeep)
  case zat =>
    intro hz
    exact ⟨_, exec_clockBad_holds hc hf (by omega) hb (holdClock_zat _ hz), holdZat_frame (clockLost s c)⟩
  case lane =>
    intro h8 h23
    have hlinks := holdClock_die_links (clockLost s c) h8 h23
    refine ⟨_, exec_clockBad_holds hc hf (by omega) hb rfl, (hlinks 0).1, fun hd p hp hdie => ?_, fun p hup => ?_, fun p hdie => ?_⟩
    · have hport : isPort (clockLost s c) p = true := hp
      have hheld : dieHeld (clockLost s c) ((c - 8) / 2) = true := hd
      exact (hlinks p).2.trans (if_pos (by simp [hheld, hport, hdie]))
    · have hkept := (hlinks p).2.symm.trans hup
      split at hkept
      · exact absurd hkept (by decide)
      · exact hkept
    · exact (hlinks p).2.trans (if_neg (by simp [hdie]))

end Sys2Proof.Machine
end

section
/-!
PROOFS. Power-on and the L2: the sequence of Table 17.4, its sources and what it keeps (17_reset_power_and_kitty.md
R384, R386, R389 to R391).
-/
namespace Sys2Proof.Machine

open Sys2Proof

/-- What the sequence of Table 17.4, begun in `w`, leaves in `t`. -/
def SequenceEnds (facts : PowerOnFacts) (w t : State) : Prop :=
  (facts.trimHalt = true → t.rst.step = 2 ∧ t.rst.halted = true ∧ t.rst.trimRetry = true ∧ t.fuses = w.fuses)
  ∧ (facts.trimHalt = false → t.fuses = facts.fuses ∧ t.rst.lastLevel = w.rst.lastLevel ∧ t.rst.lastSrc = w.rst.lastSrc
      ∧ t.rst.lastTime = w.rst.lastTime)
  ∧ (facts.trimHalt = false → (∃ x ∈ facts.training, laneFails x.toNat = true) → t.rst.step = 5 ∧ t.hbmc.trainFail ≠ 0)
  ∧ (facts.trimHalt = false → (∀ x ∈ facts.training, laneFails x.toNat = false) → strapFlash w = none →
      t.rst.step = 7 ∧ t.rst.good = 2 ^ 25 - 1 ∧ t.rst.halted = false ∧ t.rst.trimRetry = facts.trimRetry
      ∧ t.rst.avsAcked = facts.avsAcked ∧ t.rst.strap = w.rst.strap ∧ t.hbmc.trained = 15 ∧ t.hbmc.trainFail = 0
      ∧ t.deck = w.deck ∧ t.zat = w.zat ∧ t.tricks = w.tricks ∧ t.pkts = w.pkts)

/-- What an L2 of source `src`, run in `s`, leaves in `t`. -/
def L2Ends (facts : PowerOnFacts) (s : State) (src : Nat) (t : State) : Prop :=
  ∃ w, SequenceEnds facts w t ∧ w.rst.lastLevel = 2 ∧ w.rst.lastSrc = src ∧ w.rst.lastTime = now40 s ∧ w.rst.strap = s.rst.strap
    ∧ w.fuses = s.fuses ∧ w.deck = Deck.reset ∧ w.zat = Zat.reset ∧ w.tricks = [] ∧ w.pkts = []
    ∧ t.flash = s.flash ∧ t.clk = s.clk ∧ t.pending = s.pending

section
variable {facts : PowerOnFacts}

theorem okFacts_training (h : okFacts facts = true) : facts.training.length = 640 := by
  simp only [okFacts, Bool.and_eq_true, beq_iff_eq] at h
  exact h.1.2

theorem sequence_ends (h : okFacts facts = true) (w : State) (restore : Bool) : SequenceEnds facts w (sequence w facts restore) := by
  have hlen := okFacts_training h
  cases restore with
  | true => exact sequence_facts w facts true _ rfl hlen restoreKitty (fun _ => rfl) restoreKitty_frame
  | false => exact sequence_facts w facts false _ rfl hlen id (fun _ => rfl) fun _ => ⟨rfl, rfl, rfl, rfl, rfl, rfl, rfl, rfl, rfl, rfl, rfl, rfl, rfl⟩

/-- An L2 begun in `u`, which has the straps, fuses and time of `s`, ends as one of `s`. -/
theorem l2_ends (h : okFacts facts = true) {s u : State} (src : Nat) (hstrap : u.rst.strap = s.rst.strap) (hfuses : u.fuses = s.fuses)
    (hnow : now40 u = now40 s) : L2Ends facts s src
      { sequence (l2Base src u) facts false with pending := s.pending, clk := s.clk, flash := s.flash } :=
  ⟨l2Base src u, sequence_ends h (l2Base src u) false, rfl, rfl, hnow, hstrap, hfuses, rfl, rfl, rfl, rfl, rfl, rfl, rfl⟩

/-- A command that runs the L2 of a state with the straps, fuses and time of `s`. -/
theorem cmdBig_l2 {i : Instr} {s u : State} {f : State → State} {src : Nat} (hi : i.wellFormed = true) (h : okFacts facts = true)
    (hf : f s = sequence (l2Base src u) facts false) (hstrap : u.rst.strap = s.rst.strap) (hfuses : u.fuses = s.fuses)
    (hnow : now40 u = now40 s) : ∃ t, cmdBig i s f = .next t ∧ L2Ends facts s src t :=
  ⟨_, cmdBig_ok s hi, by rw [hf]; exact l2_ends h src hstrap hfuses hnow⟩

theorem l2From_late {s : State} (he : earlyStep s = false) (src : Nat) (f : PowerOnFacts) :
    l2From s src f = sequence (l2Base src (noteCause s src)) f false := by
  unfold l2From
  rw [he]
  rfl

theorem wdogOp_l2 {s : State} (hd : wdogDue s = true) (hw : bit (regRaw s aRstCtl 0) 0 = false) (f : PowerOnFacts) :
    wdogOp s f = l2From s 3 f := by
  unfold wdogOp
  rw [hd, hw]
  rfl

theorem clockBadOp_core {s : State} (hb : bit s.rst.good 0 = true) (f : PowerOnFacts) :
    clockBadOp s 0 f = l2From (clockLost s 0) 6 f := by
  unfold clockBadOp
  rw [hb]
  rfl

end

/-- The source that an unnamed L2 takes is one of those that lead to it. -/
theorem anySource_l2 (s : State) : (anySource s [2, 3, 5, 6]).1 = 2 ∨ (anySource s [2, 3, 5, 6]).1 = 3
    ∨ (anySource s [2, 3, 5, 6]).1 = 5 ∨ (anySource s [2, 3, 5, 6]).1 = 6 := by
  have hpick : (anySource s [2, 3, 5, 6]).1 = nth [2, 3, 5, 6] ((draw s).1 % 4) 0 := rfl
  rw [hpick]
  match (draw s).1 % 4, Nat.mod_lt (draw s).1 (by decide : 0 < 4) with
  | 0, _ => exact .inl rfl
  | 1, _ => exact .inr (.inl rfl)
  | 2, _ => exact .inr (.inr (.inl rfl))
  | 3, _ => exact .inr (.inr (.inr rfl))

/-- Settles O38: the sequence's own facts at power-on, and at the L2 of each source. -/
theorem powerOnAndL2RunTheSequence : Obligations.PowerOnAndL2RunTheSequence := by
  unfold Obligations.PowerOnAndL2RunTheSequence
  intro s facts hf after hafter
  obtain rfl : after = SequenceEnds facts := funext fun w => funext fun t => propext (hafter w t)
  refine ⟨fun h1 => ?powerOn, fun h1 h2 l2 hl2 => ?_⟩
  case powerOn =>
    refine ⟨_, cmdBig_ok (i := .powerOnReset facts) s (f := fun s => powerOn s facts) hf,
      { s with rst := { s.rst with startClk := s.clk, strap := strapCode facts.cfgsel } }, ?_, rfl, rfl, rfl, rfl, rfl⟩
    dsimp only
    unfold powerOn
    rw [if_pos h1]
    exact sequence_ends hf _ true
  obtain rfl : l2 = L2Ends facts s := funext fun src => funext fun t => propext (hl2 src t)
  have he := earlyStep_false h1 h2
  refine ⟨?pin, ?debug, fun hdue hwdog => ?watchdog, fun hgood => ?core, fun hdue => ?request, fun hdue => ?unnamed⟩
  case pin =>
    exact cmdBig_l2 (i := .pinReset facts) (f := fun s => pinOp s facts) hf hf ((if_neg h1).trans (l2From_late he 2 facts)) rfl rfl rfl
  case debug => exact cmdBig_l2 (i := .debugReset true facts) (f := fun s => debugOp s true facts) hf hf (l2From_late he 5 facts) rfl rfl rfl
  case watchdog =>
    exact cmdBig_l2 (i := .hostWdogExpire facts) (f := fun s => wdogOp s facts) hf hf
      ((wdogOp_l2 hdue hwdog facts).trans (l2From_late he 3 facts)) rfl rfl rfl
  case core =>
    exact cmdBig_l2 (i := .clockBad 0 facts) (f := fun s => clockBadOp s 0 facts) hf hf
      ((clockBadOp_core hgood facts).trans (l2From_late (s := clockLost s 0) he 6 facts)) rfl rfl rfl
  case request => exact cmdBig_l2 (i := .l2Reset facts) (f := fun s => l2Op s facts) hf hf (if_pos hdue) rfl rfl rfl
  case unnamed =>
    have hop : l2Op s facts = sequence (l2Base (anySource s [2, 3, 5, 6]).1 (noteCause (anySource s [2, 3, 5, 6]).2 (anySource s [2, 3, 5, 6]).1)) facts false :=
      (if_neg (by simp [hdue])).trans (l2From_late (s := (anySource s [2, 3, 5, 6]).2) he _ facts)
    obtain ⟨t, hrun, hends⟩ := cmdBig_l2 (i := .l2Reset facts) (f := fun s => l2Op s facts) hf hf hop rfl rfl rfl
    exact ⟨t, _, hrun, hends, anySource_l2 s⟩

end Sys2Proof.Machine
end

section
/-!
PROOFS. The end of sessions by their time-outs, and acknowledgements (15_zatas_control_protocol.md R343, R345, R353, R382).
-/
namespace Sys2Proof.Machine

open Sys2Proof

/-! ## Time-outs -/

/-- The staging area's owner is released with its session alone. -/
theorem closeSess_eq (s : State) (n : Nat) : closeSess s n = { s with
    rings := kmap s.rings fun _ g => if g.reader = some n then { g with reader := none, credits := 0, part := 0 } else g,
    deck := { s.deck with owner := if s.deck.owner = some n then none else s.deck.owner },
    zat := { s.zat with sessions := kdel s.zat.sessions n, waits := kfilter s.zat.waits fun _ w => w.session != n } } := by
  unfold closeSess dropRings
  dsimp only
  by_cases h : s.deck.owner = some n
  · rw [if_pos h, h]
    simp
  · rw [if_neg h]
    cases howner : s.deck.owner with
    | none =>
      dsimp only
      rw [if_neg (by decide), ← howner]
    | some m =>
      have hm : ¬ (m == n) = true := by
        rw [beq_iff_eq]
        rintro rfl
        exact h howner
      dsimp only
      rw [if_neg hm, ← howner]

section
variable {s : State} {n : Nat}

theorem exec_challengeTimeout_challenged (hn : okSession n = true) (h : (sessOf s n).state = .challenged) :
    exec (.challengeTimeout n) s = .next (closeSess s n) :=
  cmd_run (i := .challengeTimeout n) (f := fun s => if (sessOf s n).state == .challenged then closeSess s n else s) hn
    (by simp [h]) (by rw [closeSess_eq]; rfl)

theorem exec_challengeTimeout_same (hn : okSession n = true) (h : (sessOf s n).state ≠ .challenged) :
    exec (.challengeTimeout n) s = .next s :=
  cmd_run (i := .challengeTimeout n) (f := fun s => if (sessOf s n).state == .challenged then closeSess s n else s) hn
    (by simp [h]) rfl

theorem exec_sessionIdleTimeout_open (hn : okSession n = true) (h : (sessOf s n).state = .opened) :
    exec (.sessionIdleTimeout n) s = .next (closeSess s n) :=
  cmd_run (i := .sessionIdleTimeout n) (f := fun s => if isOpen s n then closeSess s n else s) hn
    (by simp [isOpen, h]) (by rw [closeSess_eq]; rfl)

theorem exec_sessionIdleTimeout_same (hn : okSession n = true) (h : (sessOf s n).state ≠ .opened) :
    exec (.sessionIdleTimeout n) s = .next s :=
  cmd_run (i := .sessionIdleTimeout n) (f := fun s => if isOpen s n then closeSess s n else s) hn
    (by simp [isOpen, h]) rfl

end

/-! ## Acknowledgements -/

/-- A session that was heard with `ack` and `sack`. -/
def heardSess (s : State) (x : Session) (e : Encap) (ack sack : Nat) : Session :=
  { x with
    enc := e, lastClk := s.clk, sack := sack,
    hack := if 0 < seqDiff ack x.hack then ack else x.hack,
    kept := if 0 < seqDiff ack x.hack then kfilter x.kept fun q _ => 0 ≤ seqDiff q ack else x.kept }

theorem heardFrom_eq (s : State) (e : Encap) (n ack sack : Nat) : heardFrom s e n ack sack =
    { bump s (aZatCtr e.cp 0) with zat := { s.zat with sessions := kset s.zat.sessions n (heardSess s (sessOf s n) e ack sack) } } := rfl

theorem heardSess_ahead {s : State} {x : Session} {e : Encap} {ack sack : Nat} (h : 0 < seqDiff ack x.hack) :
    (heardSess s x e ack sack).hack = ack
    ∧ (heardSess s x e ack sack).kept = kfilter x.kept fun q _ => 0 ≤ seqDiff q ack := ⟨if_pos h, if_pos h⟩

theorem heardSess_behind {s : State} {x : Session} {e : Encap} {ack sack : Nat} (h : seqDiff ack x.hack ≤ 0) :
    (heardSess s x e ack sack).hack = x.hack ∧ (heardSess s x e ack sack).kept = x.kept :=
  ⟨if_neg (Int.not_lt.2 h), if_neg (Int.not_lt.2 h)⟩

section
variable {s : State} {n : Nat}

theorem exec_ackOnlyFrame {ack sack : W32} (hn : okSession n = true) (hopen : (sessOf s n).state = .opened) (hup : zatUp s = true)
    (hlink : ctlLink s (sessOf s n).enc.cp = true) :
    exec (.ackOnlyFrame n ack sack) s = .next (heardFrom s (sessOf s n).enc n ack.toNat sack.toNat) :=
  cmd_run (i := .ackOnlyFrame n ack sack) (f := fun s => if isOpen s n && zatUp s && ctlLink s (sessOf s n).enc.cp
    then heardFrom s (sessOf s n).enc n ack.toNat sack.toNat else s) hn (by simp [isOpen, hopen, hup, hlink]) rfl

/-- An acknowledgement that is due leaves. -/
theorem ackSendOp_due (hopen : (sessOf s n).state = .opened)
    (hdue : (sessOf s n).ackDue = true ∨ (sessOf s n).rx ≠ [] ∨ (sessOf s n).exec ≠ none) : ackSendOp s n = sendAck s n := by
  refine if_pos ?_
  rcases hdue with h | h | h
  · simp [isOpen, hopen, h]
  · simp [isOpen, hopen, h]
  · simp [isOpen, hopen, Option.isSome_iff_ne_none.2 h]

theorem ackSendOp_idle (hdue : (sessOf s n).ackDue = false) (hrx : (sessOf s n).rx = []) (hexec : (sessOf s n).exec = none) :
    ackSendOp s n = s := if_neg (by simp [hdue, hrx, hexec])

/-- The raw frame of an acknowledgement. -/
theorem sendAck_raw (hip : (sessOf s n).enc.ip = none) : sendAck s n = ctlSend (setSess s n { sessOf s n with ackDue := false }) (sessOf s n).enc.cp
    ((sessOf s n).enc.mac ++ toBytes 6 (ctlMac s (sessOf s n).enc.cp) ++ (sessOf s n).enc.vlan ++ [0x88, 0xB5] ++ sessMsg s n 0 0 []) :=
  zatSend_raw (setSess s n { sessOf s n with ackDue := false }) hip

theorem keepFixed_ctlSend {t : State} (k : keepFixed s t = t) (cp : Nat) (f : List Byte) : keepFixed s (ctlSend t cp f) = ctlSend t cp f := by
  obtain ⟨regs, xq, high, hsend⟩ := ctlSend_frame t cp f
  rw [hsend]
  exact keepFixed_of (keepFixed_fields (t := t) k)

theorem exec_ackOnlySend_due (hn : okSession n = true) (hopen : (sessOf s n).state = .opened) (hip : (sessOf s n).enc.ip = none)
    (hdue : (sessOf s n).ackDue = true ∨ (sessOf s n).rx ≠ [] ∨ (sessOf s n).exec ≠ none) :
    exec (.ackOnlySend n) s = .next (sendAck s n) := by
  refine cmd_run (i := .ackOnlySend n) (f := fun s => ackSendOp s n) hn (ackSendOp_due hopen hdue) ?_
  rw [sendAck_raw hip]
  exact keepFixed_ctlSend (t := setSess s n { sessOf s n with ackDue := false }) rfl _ _

end

/-- Settles O17: a session's end by its record, and an acknowledgement by what hearing and sending do. -/
theorem sessionsTimeOutAndAcknowledge : Obligations.SessionsTimeOutAndAcknowledge := by
  unfold Obligations.SessionsTimeOutAndAcknowledge
  refine ⟨?timeout, ?ack⟩
  case timeout =>
    rintro s n hn freed owner rfl rfl
    rw [← closeSess_eq]
    exact ⟨exec_challengeTimeout_challenged hn, exec_sessionIdleTimeout_open hn, exec_challengeTimeout_same hn,
      exec_sessionIdleTimeout_same hn⟩
  case ack =>
    rintro s n x ack sack hn rfl hopen
    refine ⟨fun hup hlink => ?heard, fun hip hdue f hf => ?send, fun hdue hrx hexec => ?idle⟩
    case heard =>
      exact ⟨heardSess s (sessOf s n) (sessOf s n).enc ack.toNat sack.toNat, exec_ackOnlyFrame hn hopen hup hlink, rfl,
        heardSess_ahead, heardSess_behind⟩
    case send =>
      subst hf
      exact (exec_ackOnlySend_due hn hopen hip hdue).trans (congrArg _ (sendAck_raw hip))
    case idle =>
      exact cmd_run (i := .ackOnlySend n) (f := fun s => ackSendOp s n) hn (ackSendOp_idle hdue hrx hexec) rfl

end Sys2Proof.Machine
end

section
/-!
PROOFS. Reception on a control port: the checks in their order, and a request frame that passes them
(15_zatas_control_protocol.md R335, R343, R344, Table 15.1).
-/
namespace Sys2Proof.Machine

open Sys2Proof

/-! ## The checks of a frame -/

/-- The part once a control frame has crossed. -/
def ctlCrossed (s : State) (cp : Nat) (f : List Byte) : State := cross s (105 + cp % 2) 256 (chunks 256 f)

theorem ctlCrossed_frame (s : State) (cp : Nat) (f : List Byte) : ∃ x h, ctlCrossed s cp f = { s with xq := x, high := h } :=
  cross_frame s _ _ _

theorem sessOf_ctlCrossed (s : State) (cp : Nat) (f : List Byte) (n : Nat) : sessOf (ctlCrossed s cp f) n = sessOf s n := by
  obtain ⟨x, h, e⟩ := ctlCrossed_frame s cp f
  rw [e]
  rfl

/-- What the checks of a message read of the state. -/
theorem ctlCrossed_reads (s : State) (cp : Nat) (f : List Byte) : frameWindow (ctlCrossed s cp f) = frameWindow s
    ∧ hasDeck (ctlCrossed s cp f) = hasDeck s ∧ zatUdp (ctlCrossed s cp f) = zatUdp s ∧ (ctlCrossed s cp f).clk = s.clk := by
  obtain ⟨x, h, e⟩ := ctlCrossed_frame s cp f
  rw [e]
  exact ⟨rfl, rfl, rfl, rfl⟩

section
variable {s : State} {cp : Nat} {f : List Byte}

theorem ctlRx_down (h : (zatUp s && ctlLink s cp) = false) (fcs : Bool) : ctlRx s cp f fcs = s := by
  unfold ctlRx
  rw [h]
  rfl

theorem ctlRx_badFcs (h : (zatUp s && ctlLink s cp) = true) : ctlRx s cp f false = bump s (aZatCtr cp 2) := by
  unfold ctlRx
  rw [h]
  rfl

theorem ctlRx_long (h : (zatUp s && ctlLink s cp) = true) (hlen : 9212 < f.length) : ctlRx s cp f true = bump s (aZatCtr cp 3) := by
  unfold ctlRx
  rw [h, if_neg (by decide), if_neg (by decide), if_pos (by omega)]

/-- A whole frame, with raw encapsulation, goes on to checks 2 and 3 of Table 15.1. -/
theorem ctlRx_whole (h : (zatUp s && ctlLink s cp) = true) (hlen : f.length ≤ 9212) (hu : zatUdp s = false) :
    ctlRx s cp f true = match rawIn cp f with
      | none => bump (ctlCrossed s cp f) (aZatCtr cp 4)
      | some (e, b) => match parseMsg b with
        | none => bump (ctlCrossed s cp f) (aZatCtr cp 5)
        | some m => msgRx (ctlCrossed s cp f) e m := by
  have hudp : zatUdp (ctlCrossed s cp f) = false := (ctlCrossed_reads s cp f).2.2.1.trans hu
  unfold ctlRx
  rw [h, if_neg (by decide), if_neg (by decide), if_neg (by omega)]
  dsimp only
  change (match (if zatUdp (ctlCrossed s cp f) then nsIn (ctlCrossed s cp f) cp f else none) with
    | some (src, target) => nsAnswer (bump (ctlCrossed s cp f) (aZatCtr cp 0)) cp f src target
    | none => match decap (ctlCrossed s cp f) cp f with
      | none => bump (ctlCrossed s cp f) (aZatCtr cp 4)
      | some (e, b) => match parseMsg b with
        | none => bump (ctlCrossed s cp f) (aZatCtr cp 5)
        | some m => msgRx (ctlCrossed s cp f) e m) = _
  unfold decap
  rw [hudp]
  rfl

theorem exec_ctl {t : State} {fcs : Bool} (hcp : cp < 2) (h : ctlRx s cp f fcs = t) (k : keepFixed s t = t) :
    exec (.controlFrameReceive cp f fcs) s = .next t :=
  cmd_run (i := .controlFrameReceive cp f fcs) (f := fun s => ctlRx s cp f fcs) (decide_eq_true hcp) h k

/-- A whole frame that a check refuses is counted. -/
theorem exec_ctl_counted {v : State} {fcs : Bool} {k : Nat} (hv : v = ctlCrossed s cp f) (hcp : cp < 2)
    (h : ctlRx s cp f fcs = bump v (aZatCtr cp k)) : exec (.controlFrameReceive cp f fcs) s = .next (bump v (aZatCtr cp k)) := by
  have hkeep : keepFixed s v = v := by
    rw [hv]
    exact keepFixed_cross rfl _ _ _
  exact exec_ctl hcp h (keepFixed_bump hkeep _)

end

/-! ## The checks of a message -/

section
variable {u : State} {e : Encap} {m : ZMsg}

theorem msgRx_free (hm : m.session ≠ 0) (h : (sessOf u m.session).state = .free) : msgRx u e m = bump u (aZatCtr e.cp 6) := by
  unfold msgRx
  dsimp only
  rw [if_neg hm, h, if_pos (by rfl)]

/-- The checks that a frame of an open session meets. -/
theorem msgRx_open (hm : m.session ≠ 0) (h : (sessOf u m.session).state = .opened) : msgRx u e m =
    if !tagOk (sessOf u m.session).ks m then bump u (aZatCtr e.cp 7)
    else if !m.txns.isEmpty && (frameWindow u : Int) ≤ seqDiff m.seq (sessOf u m.session).hack then bump u (aZatCtr e.cp 8)
    else if !hasDeck u && (m.txns.any fun t => !preDealOp t.op) then bump u (aZatCtr e.cp 9)
    else if m.txns.isEmpty then heardFrom u e m.session m.ack m.sack
    else takeReq (heardFrom u e m.session m.ack m.sack) e m.session m := by
  unfold msgRx
  dsimp only
  rw [if_neg hm, h, if_neg (by decide), if_neg (by decide)]

/-- A new request in the window is held under its SEQ. -/
theorem takeReq_new {n : Nat} (hseq : 0 ≤ seqDiff m.seq (sessOf u n).next) (hnew : khas (sessOf u n).rx m.seq = false) :
    takeReq u e n m = setSess u n { sessOf u n with
      rx := kset (sessOf u n).rx m.seq ⟨e, m.flags, m.txns⟩,
      next := passNext 257 (kset (sessOf u n).rx m.seq ⟨e, m.flags, m.txns⟩) (sessOf u n).next,
      ackDue := (sessOf u n).ackDue || m.seq != (sessOf u n).next } := by
  unfold takeReq
  dsimp only
  rw [if_neg (Int.not_lt.2 hseq), hnew, if_neg (by decide)]

end

theorem keepFixed_setSess {s t : State} (k : keepFixed s t = t) (n : Nat) (x : Session) : keepFixed s (setSess t n x) = setSess t n x :=
  keepFixed_of (keepFixed_fields (t := t) k)

theorem keepFixed_heardFrom {s t : State} (k : keepFixed s t = t) (e : Encap) (n ack sack : Nat) :
    keepFixed s (heardFrom t e n ack sack) = heardFrom t e n ack sack :=
  keepFixed_of (keepFixed_fields (t := t) k)

/-- Settles O18: the frame's checks in their order, then the message's, and the session that took the request. -/
theorem controlFramesAreCheckedAndTakenIn : Obligations.ControlFramesAreCheckedAndTakenIn := by
  unfold Obligations.ControlFramesAreCheckedAndTakenIn
  intro s cp f fcs hcp
  refine ⟨fun hdown => exec_ctl hcp (ctlRx_down hdown fcs) rfl, fun hup hlink => ?_⟩
  have hon : (zatUp s && ctlLink s cp) = true := Bool.and_eq_true_iff.2 ⟨hup, hlink⟩
  refine ⟨?fcs, ?length, ?_⟩
  case fcs =>
    rintro rfl
    exact exec_ctl hcp (ctlRx_badFcs hon) (keepFixed_bump rfl _)
  case length =>
    rintro rfl hlen
    exact exec_ctl hcp (ctlRx_long hon hlen) (keepFixed_bump rfl _)
  rintro rfl hlen hu v hv
  have hcount : ∀ {k : Nat}, ctlRx s cp f true = bump v (aZatCtr cp k) → exec (.controlFrameReceive cp f true) s = .next (bump v (aZatCtr cp k)) :=
    exec_ctl_counted hv hcp
  have hwhole := ctlRx_whole hon hlen hu
  have hreads := ctlCrossed_reads s cp f
  have hsessions := sessOf_ctlCrossed s cp f
  rw [← (show v = ctlCrossed s cp f from hv)] at hwhole hreads hsessions
  obtain ⟨hwindow, hdeck, -, hclk⟩ := hreads
  refine ⟨fun hraw => hcount (by rw [hwhole, hraw]), fun e b hraw => ⟨fun hmsg => hcount (by rw [hwhole, hraw]; simp only [hmsg]), ?_⟩⟩
  intro m x hmsg hm hx
  have hcp' : e.cp = cp := rawIn_cp hraw
  have hsess : sessOf v m.session = x := (hsessions m.session).trans hx.symm
  have hrx : ctlRx s cp f true = msgRx v e m := by rw [hwhole, hraw]; simp only [hmsg]
  refine ⟨fun hfree => hcount (hrx.trans (hcp' ▸ msgRx_free hm (by rw [hsess]; exact hfree))), fun hopen htag => ?_, fun hopen htag htxns => ?_⟩
  all_goals
    have hchecks := msgRx_open (u := v) (e := e) hm (by rw [hsess]; exact hopen)
    rw [hsess, hwindow, hdeck, htag, hcp', ← hrx] at hchecks
  · exact hcount hchecks
  have hsome : m.txns.isEmpty = false := by simpa using htxns
  rw [hsome] at hchecks
  refine ⟨fun hfar => ?window, fun hnear => ⟨fun hnone hops => ?deck, fun hdealt hseq hnew => ?taken⟩⟩
  case window => exact hcount (hchecks.trans (by simp [hfar]))
  case deck => exact hcount (hchecks.trans (by simp [Int.not_le.2 hnear, hnone, hops]))
  case taken =>
    have hpass : (!hasDeck s && m.txns.any fun t => !preDealOp t.op) = false := by
      rcases hdealt with h | h
      · rw [h]; rfl
      · rw [h, Bool.and_false]
    rw [hpass] at hchecks
    simp only [Bool.not_true, Bool.false_eq_true, if_false, Bool.not_false, Bool.true_and, decide_eq_true_eq, Int.not_le.2 hnear] at hchecks
    have hheard := heardFrom_sess v e m.session m.ack m.sack
    rw [hsess, hclk] at hheard
    have htaken := takeReq_new (u := heardFrom v e m.session m.ack m.sack) (e := e) (m := m) (n := m.session)
      (by rw [hheard]; exact hseq) (by rw [hheard]; exact hnew)
    rw [hheard] at htaken
    refine ⟨_, _, exec_ctl hcp (hchecks.trans htaken) ?_, sessOf_set _ _ _, rfl, rfl, hopen, rfl, rfl, rfl, rfl, rfl, ?_⟩
    · exact keepFixed_setSess (keepFixed_heardFrom (hv ▸ keepFixed_cross rfl _ _ _) _ _ _ _) _ _
    · rw [← hcp']
      rfl

end Sys2Proof.Machine
end

section
/-!
PROOFS. The opening of a session: HELLO and AUTH (15_zatas_control_protocol.md R339, R340).
-/
namespace Sys2Proof.Machine

open Sys2Proof

/-! ## Frames of a session that is not open -/

/-- The encapsulation of a raw peer. -/
def rawPeer (cp : Nat) (peer : List Byte) : Encap := ⟨cp, peer, [], none⟩

/-- A message to a raw peer leaves in a frame; the rest of the part that a session depends on stays. -/
theorem zatSend_peer (u : State) (cp : Nat) (peer msg : List Byte) : ∃ regs xq high, zatSend u (rawPeer cp peer) msg = { u with
    sent := u.sent ++ [.control cp (peer ++ toBytes 6 (ctlMac u cp) ++ [0x88, 0xB5] ++ msg)], regs := regs, xq := xq, high := high } := by
  obtain ⟨regs, xq, high, hsend⟩ := ctlSend_frame u cp (peer ++ toBytes 6 (ctlMac u cp) ++ [] ++ [0x88, 0xB5] ++ msg)
  refine ⟨regs, xq, high, (zatSend_raw u (e := rawPeer cp peer) rfl).trans (hsend.trans ?_)⟩
  rw [List.append_nil]

theorem keepFixed_zatSend {s u : State} (k : keepFixed s u = u) {e : Encap} (hip : e.ip = none) (msg : List Byte) :
    keepFixed s (zatSend u e msg) = zatSend u e msg := by
  rw [zatSend_raw u hip]
  exact keepFixed_ctlSend k _ _

theorem keepFixed_closeSess {s t : State} (k : keepFixed s t = t) (n : Nat) : keepFixed s (closeSess t n) = closeSess t n := by
  rw [closeSess_eq]
  exact keepFixed_of (keepFixed_fields (t := t) k)

/-! ## HELLO -/

theorem parse_helloMsg : ∃ body tag, parseMsg helloMsg = some ⟨0, 0, 0, 0, 0, [⟨1, 0, 0, []⟩], body, tag⟩ := ⟨_, _, rfl⟩

theorem helloMsg_length : helloMsg.length = 64 := rfl

/-- The part once it has drawn NP and challenged session `n`. -/
def helloChallenged (s : State) (n : Nat) : State :=
  setSess { (drawN 2 s).2 with zat := { (drawN 2 s).2.zat with nextOrd := (drawN 2 s).2.zat.nextOrd + 1 } } n
    { Session.free with state := .challenged, np := toBytes 16 (drawN 2 s).1, order := (drawN 2 s).2.zat.nextOrd + 1, lastClk := (drawN 2 s).2.clk }

/-- The data of a HELLO's response (Table 15.7). -/
def helloData (s : State) (n : Nat) (np : List Byte) : List Byte :=
  toBytes 2 n ++ [1] ++ toBytes 1 (deckStateCode s.deck.phase) ++ toBytes 2 (frameWindow s) ++ [0, 0] ++ toBytes 8 (chipId s) ++ np

theorem helloOp_free {s : State} {n : Nat} (hfew : countSess s .challenged < 16)
    (hfree : findUp (maxSessions s) 1 (fun n => (sessOf s n).state == .free) = some n) (e : Encap) :
    helloOp s e ⟨1, 0, 0, []⟩ = helloAnswer (helloChallenged s n) e ⟨1, 0, 0, []⟩ stOk
      (helloData (helloChallenged s n) n (toBytes 16 (drawN 2 s).1)) := by
  have hevict : evict s = s := if_neg (Nat.not_le.2 hfew)
  unfold helloOp
  rw [if_neg (by decide), hevict]
  dsimp only
  rw [hfree]
  rfl

theorem helloChallenged_frame (s : State) (n : Nat) : (helloChallenged s n).sent = s.sent ∧ keepFixed s (helloChallenged s n) = helloChallenged s n :=
  ⟨rfl, rfl⟩

/-- The lone HELLO of a frame. -/
theorem msgRx_hello (u : State) (e : Encap) (body tag : List Byte) :
    msgRx u e ⟨0, 0, 0, 0, 0, [⟨1, 0, 0, []⟩], body, tag⟩ = helloOp (bump u (aZatCtr e.cp 0)) e ⟨1, 0, 0, []⟩ := rfl

/-! ## AUTH -/

theorem isAuth_fields {msg : List Byte} {m : ZMsg} {a : Txn} (h : isAuth msg = true) (hm : parseMsg msg = some m) (ha : m.txns = [a]) :
    a.op = 2 ∧ m.session ≠ 0 ∧ m.seq = 0 := by
  unfold isAuth at h
  rw [hm] at h
  simp only [ha, Bool.and_eq_true, beq_iff_eq, bne_iff_ne] at h
  exact ⟨h.1.1, h.1.2, h.2⟩

theorem msgRx_challenged {u : State} {e : Encap} {m : ZMsg} (hm : m.session ≠ 0) (h : (sessOf u m.session).state = .challenged) :
    msgRx u e m = authRx u e m.session m := by
  unfold msgRx
  dsimp only
  rw [if_neg hm, h]
  rfl

/-- The session that an AUTH opens. -/
def authSess (u : State) (e : Encap) (n : Nat) (a : Txn) (ks : List Byte) : Session :=
  { sessOf u n with
    state := .opened, level := fld a.data 1 1, slot := fld a.data 0 1, enc := e, next := 1, hack := 0, ks := ks, lastClk := u.clk }

/-- The part once an AUTH has opened session `n`. -/
def authOpened (u : State) (e : Encap) (n : Nat) (a : Txn) (ks : List Byte) : State :=
  setSess (bump u (aZatCtr e.cp 0)) n (authSess u e n a ks)

/-- The message that answers an AUTH. -/
def authAnswer (u : State) (e : Encap) (n : Nat) (a : Txn) (ks : List Byte) : List Byte :=
  sessMsg (authOpened u e n a ks) n 0 0 [txnRes a stOk a.addr (authData (authOpened u e n a ks) (fld a.data 1 1))]

/-- An AUTH frame is decided by its slot and its tag. -/
theorem authRx_eq {u : State} {e : Encap} {n : Nat} {m : ZMsg} {a : Txn} {ks : List Byte} (ha : m.txns = [a]) (hop : a.op = 2)
    (hseq : m.seq = 0)
    (hks : ks = sessionKey (keySlot u (fld a.data 0 1)).key n (fld a.data 1 1) (fld a.data 0 1) (sessOf u n).np (slice a.data 8 16)) :
    authRx u e n m = if authOk u a && tagOk ks m
      then zatSend (keepResp (authOpened u e n a ks) n 0 (authAnswer u e n a ks)) e (authAnswer u e n a ks)
      else bump (closeSess u n) (aZatCtr e.cp 11) := by
  unfold authRx
  rw [ha]
  dsimp only
  rw [if_neg (by simp [hop, hseq]), ← hks]
  rfl

section
variable {u : State} {e : Encap} {n : Nat} {a : Txn} {ks : List Byte} (htrained : trainFailed u = false)
include htrained

theorem keepResp_authOpened (msg : List Byte) : keepResp (authOpened u e n a ks) n 0 msg
    = setSess (authOpened u e n a ks) n { authSess u e n a ks with kept := kset (sessOf u n).kept 0 msg } := by
  have hsess : sessOf (authOpened u e n a ks) n = authSess u e n a ks := sessOf_set _ _ _
  have hstacks : trainFailed (authOpened u e n a ks) = false := htrained
  unfold keepResp
  rw [hstacks, hsess]
  rfl

/-- The answer under the session key, with a whole window (Table 15.7). -/
theorem authAnswer_eq (hop : a.op = 2) (haddr : a.addr = 0) :
    authAnswer u e n a ks = zatMsg (some ks) 1 n 255 0 1 (sackOf { sessOf u n with next := 1 })
      [⟨2, a.tag, 0, 0, toBytes 1 (fld a.data 1 1) ++ toBytes 1 (idleS u) ++ toBytes 2 256 ++ toBytes 4 0⟩] := by
  have hsess : sessOf (authOpened u e n a ks) n = authSess u e n a ks := sessOf_set _ _ _
  have hframes : frameWindow (authOpened u e n a ks) = 256 := if_neg (by rw [show trainFailed (authOpened u e n a ks) = false from htrained]; decide)
  have hwindow : windowLeft (authOpened u e n a ks) (authSess u e n a ks) = 255 := by
    have hspan : min 256 (seqDiff (0 + 256) 1).toNat = 255 := by decide
    unfold windowLeft
    rw [hframes]
    exact hspan
  unfold authAnswer sessMsg authData txnRes
  dsimp only
  rw [hsess, hwindow, hframes, hop, haddr]
  rfl

end

theorem authOk_addr {s : State} {a : Txn} (h : authOk s a = true) : a.addr = 0 := by
  unfold authOk at h
  simp only [Bool.and_eq_true, beq_iff_eq] at h
  obtain ⟨⟨⟨⟨⟨⟨⟨-, haddr⟩, -⟩, -⟩, -⟩, -⟩, -⟩, -⟩ := h
  exact haddr

/-! ## O19 -/

section
variable {s : State} {cp : Nat} {peer : List Byte} (hpeer : peer.length = 6) (hup : zatUp s = true) (hlink : ctlLink s cp = true)
  (hu : zatUdp s = false)
include hpeer hup hlink hu

theorem ctlRx_hello : ctlRx s cp (rawFrame s cp peer helloMsg) true
    = helloOp (bump (ctlCrossed s cp (rawFrame s cp peer helloMsg)) (aZatCtr cp 0)) (rawPeer cp peer) ⟨1, 0, 0, []⟩ := by
  obtain ⟨body, tag, hparse⟩ := parse_helloMsg
  exact (ctlRx_raw hpeer hup hlink hu (by rw [helloMsg_length]; decide) hparse).trans (msgRx_hello _ _ body tag)

/-- An AUTH frame of a challenged session is decided by its slot and its tag. -/
theorem ctlRx_auth {msg : List Byte} {m : ZMsg} {a : Txn} {ks : List Byte} (hauth : isAuth msg = true) (hparse : parseMsg msg = some m)
    (ha : m.txns = [a]) (hlen : msg.length ≤ 9198) (hstate : (sessOf s m.session).state = .challenged) {v : State}
    (hv : v = ctlCrossed s cp (rawFrame s cp peer msg))
    (hks : ks = sessionKey (keySlot s (fld a.data 0 1)).key m.session (fld a.data 1 1) (fld a.data 0 1) (sessOf s m.session).np (slice a.data 8 16)) :
    ctlRx s cp (rawFrame s cp peer msg) true = if authOk s a && tagOk ks m
      then zatSend (keepResp (authOpened v (rawPeer cp peer) m.session a ks) m.session 0 (authAnswer v (rawPeer cp peer) m.session a ks))
        (rawPeer cp peer) (authAnswer v (rawPeer cp peer) m.session a ks)
      else bump (closeSess v m.session) (aZatCtr cp 11) := by
  obtain ⟨hop, hsession, hseq⟩ := isAuth_fields hauth hparse ha
  obtain ⟨x, h, hcross⟩ := ctlCrossed_frame s cp (rawFrame s cp peer msg)
  have hrx := ctlRx_raw hpeer hup hlink hu hlen hparse
  rw [← (show v = cross s (105 + cp % 2) 256 (chunks 256 (rawFrame s cp peer msg)) from hv)] at hrx
  rw [hcross] at hv
  have hmsg : msgRx v (rawPeer cp peer) m = authRx v (rawPeer cp peer) m.session m := msgRx_challenged hsession (by rw [hv]; exact hstate)
  have hokay : authOk v a = authOk s a := by rw [hv]; rfl
  have hends := authRx_eq (u := v) (e := rawPeer cp peer) (ks := ks) ha hop hseq (by rw [hv]; exact hks)
  rw [hokay] at hends
  exact hrx.trans (hmsg.trans hends)

/-- The HELLO of a raw peer challenges the lowest free session. -/
theorem exec_hello_challenges (hwf : (okCp cp && okPeer peer) = true) {n : Nat} (hfew : countSess s .challenged < 16) (hlo : 1 ≤ n)
    (hhi : n ≤ maxSessions s) (hfree : (sessOf s n).state = .free) (hleast : ∀ m, 1 ≤ m → m < n → (sessOf s m).state ≠ .free) :
    ∃ t np, exec (.hello cp peer) s = .next t ∧ np.length = 16 ∧ (sessOf t n).state = .challenged ∧ (sessOf t n).np = np
      ∧ t.sent = s.sent ++ [.control cp (peer ++ toBytes 6 (ctlMac s cp) ++ [0x88, 0xB5]
        ++ zatMsg none 1 0 0 0 0 0 [⟨1, 0, 0, 0, helloData s n np⟩])] := by
  have hrx := ctlRx_hello hpeer hup hlink hu
  obtain ⟨x, h, hcross⟩ := ctlCrossed_frame s cp (rawFrame s cp peer helloMsg)
  rw [hcross] at hrx
  obtain ⟨v, hv⟩ : ∃ v, v = bump { s with xq := x, high := h } (aZatCtr cp 0) := ⟨_, rfl⟩
  rw [← hv] at hrx
  have hfind : findUp (maxSessions v) 1 (fun n => (sessOf v n).state == .free) = some n := by
    rw [hv]
    exact findUp_first (p := fun n => (sessOf s n).state == .free) _ _ hlo (by rw [Nat.add_comm]; exact Nat.lt_succ_of_le hhi)
      (by simp [hfree]) fun j h1 h2 => by simp [hleast j h1 h2]
  have hop := helloOp_free (s := v) (by rw [hv]; exact hfew) hfind (rawPeer cp peer)
  obtain ⟨regs, xq, high, hsend⟩ := zatSend_peer (helloChallenged v n) cp peer (zatMsg none 1 0 0 0 0 0
    [⟨1, 0, 0, 0, helloData (helloChallenged v n) n (toBytes 16 (drawN 2 v).1)⟩])
  have hend : ctlRx s cp (rawFrame s cp peer helloMsg) true = _ := hrx.trans (hop.trans hsend)
  refine ⟨_, toBytes 16 (drawN 2 v).1, cmd_run (i := .hello cp peer) (f := fun s => ctlRx s cp (rawFrame s cp peer helloMsg) true) hwf hend ?_,
    toBytes_length _ _, congrArg Session.state (sessOf_set _ _ _), congrArg Session.np (sessOf_set _ _ _), ?_⟩
  · rw [hv]; rfl
  · rw [hv]; rfl

section
variable {msg : List Byte} {m : ZMsg} {a : Txn} {ks : List Byte} (hwf : (okCp cp && okPeer peer) = true) (hauth : isAuth msg = true)
  (hparse : parseMsg msg = some m) (ha : m.txns = [a]) (hlen : msg.length ≤ 9198) (hstate : (sessOf s m.session).state = .challenged)
  (hks : ks = sessionKey (keySlot s (fld a.data 0 1)).key m.session (fld a.data 1 1) (fld a.data 0 1) (sessOf s m.session).np (slice a.data 8 16))
include hwf hauth hparse ha hlen hstate hks

/-- An AUTH with a good slot and tag opens its session and is answered under the session key. -/
theorem exec_auth_opens (hok : authOk s a = true) (htag : tagOk ks m = true) (htrained : trainFailed s = false) {r : List Byte}
    (hr : r = zatMsg (some ks) 1 m.session 255 0 1 (sackOf { sessOf s m.session with next := 1 })
      [⟨2, a.tag, 0, 0, toBytes 1 (fld a.data 1 1) ++ toBytes 1 (idleS s) ++ toBytes 2 256 ++ toBytes 4 0⟩]) :
    ∃ t, exec (.auth cp peer msg) s = .next t
      ∧ sessOf t m.session = { authSess s (rawPeer cp peer) m.session a ks with kept := kset (sessOf s m.session).kept 0 r }
      ∧ t.sent = s.sent ++ [.control cp (peer ++ toBytes 6 (ctlMac s cp) ++ [0x88, 0xB5] ++ r)] := by
  have hrx := ctlRx_auth hpeer hup hlink hu hauth hparse ha hlen hstate rfl hks
  have hkeep : keepFixed s (ctlCrossed s cp (rawFrame s cp peer msg)) = ctlCrossed s cp (rawFrame s cp peer msg) := keepFixed_cross rfl _ _ _
  obtain ⟨xq, high, hcross⟩ := ctlCrossed_frame s cp (rawFrame s cp peer msg)
  obtain ⟨v, hv⟩ : ∃ v, v = ctlCrossed s cp (rawFrame s cp peer msg) := ⟨_, rfl⟩
  rw [← hv] at hrx hkeep hcross
  have hmsg : authAnswer v (rawPeer cp peer) m.session a ks = r := by
    rw [authAnswer_eq (by rw [hcross]; exact htrained) (isAuth_fields hauth hparse ha).1 (authOk_addr hok), hr, hcross]
    rfl
  rw [hok, htag, if_pos (by rfl), keepResp_authOpened (by rw [hcross]; exact htrained), hmsg] at hrx
  obtain ⟨w, hw⟩ : ∃ w, w = setSess (authOpened v (rawPeer cp peer) m.session a ks) m.session
    { authSess v (rawPeer cp peer) m.session a ks with kept := kset (sessOf v m.session).kept 0 r } := ⟨_, rfl⟩
  rw [← hw] at hrx
  have hwkeep : keepFixed s w = w := by
    rw [hw]
    exact keepFixed_setSess (keepFixed_setSess (keepFixed_bump hkeep _) _ _) _ _
  have hfinal := keepFixed_zatSend hwkeep (e := rawPeer cp peer) rfl r
  obtain ⟨regs, xq', high', hsend⟩ := zatSend_peer w cp peer r
  rw [hsend] at hrx hfinal
  refine ⟨_, cmd_run (i := .auth cp peer msg) (f := fun s => if isAuth msg then ctlRx s cp (rawFrame s cp peer msg) true else s) hwf
    ((if_pos hauth).trans hrx) hfinal, ?_, ?_⟩
  · rw [hw, hcross]
    exact sessOf_set _ _ _
  · rw [hw, hcross]
    rfl

/-- Another AUTH frees its session and is counted. -/
theorem exec_auth_refused (hrefused : (authOk s a && tagOk ks m) = false) : ∃ t, exec (.auth cp peer msg) s = .next t
    ∧ kget t.zat.sessions m.session = none ∧ t.sent = s.sent
    ∧ regRaw t (aZatCtr cp 11) 0 = regRaw (bump s (aZatCtr cp 11)) (aZatCtr cp 11) 0 := by
  have hrx := ctlRx_auth hpeer hup hlink hu hauth hparse ha hlen hstate rfl hks
  rw [hrefused, if_neg (by decide)] at hrx
  have hkeep : keepFixed s (ctlCrossed s cp (rawFrame s cp peer msg)) = ctlCrossed s cp (rawFrame s cp peer msg) := keepFixed_cross rfl _ _ _
  obtain ⟨xq, high, hcross⟩ := ctlCrossed_frame s cp (rawFrame s cp peer msg)
  generalize ctlCrossed s cp (rawFrame s cp peer msg) = v at hrx hkeep hcross
  refine ⟨_, cmd_run (i := .auth cp peer msg) (f := fun s => if isAuth msg then ctlRx s cp (rawFrame s cp peer msg) true else s) hwf
    ((if_pos hauth).trans hrx) (keepFixed_bump (keepFixed_closeSess hkeep _) _), kget_kdel_same _ _, ?_, ?_⟩
  · rw [hcross]; rfl
  · rw [hcross]; rfl

end

end

/-- Settles O19: the session that a HELLO challenges, and the two ends of an AUTH. -/
theorem helloChallengesAndAuthOpensASession : Obligations.HelloChallengesAndAuthOpensASession := by
  unfold Obligations.HelloChallengesAndAuthOpensASession
  intro s cp peer hcp hpeer hup hlink hu
  have hwf : (okCp cp && okPeer peer) = true := by simp [okCp, okPeer, hcp, hpeer]
  refine ⟨fun n hfew hlo hhi hfree hleast => exec_hello_challenges hpeer hup hlink hu hwf hfew hlo hhi hfree hleast, ?auth⟩
  case auth =>
    intro msg m a n x ks hauth hparse ha hlen hn hx hstate hks
    subst hn
    subst hx
    refine ⟨fun hok htag htrained => ?opened, exec_auth_refused hpeer hup hlink hu hwf hauth hparse ha hlen hstate hks⟩
    obtain ⟨t, hrun, hsess, hsent⟩ := exec_auth_opens hpeer hup hlink hu hwf hauth hparse ha hlen hstate hks hok htag htrained rfl
    exact ⟨t, _, hrun, hsess, rfl, rfl, rfl, rfl, rfl, rfl, rfl, _, hsent, rfl, rfl⟩

end Sys2Proof.Machine
end

section
/-!
PROOFS. Neighbour solicitations, and the execution of a session's frames (15_zatas_control_protocol.md R334, R346 to R348).
-/
namespace Sys2Proof.Machine

open Sys2Proof

/-! ## A neighbour solicitation -/

/-- A crossing reads and changes the crossing queues and their marks alone. -/
theorem cross_alter {s t : State} (hxq : t.xq = s.xq) (hhigh : t.high = s.high) (i depth : Nat) (es : List (List Byte)) :
    cross t i depth es = { t with xq := (cross s i depth es).xq, high := (cross s i depth es).high } := by
  unfold cross raiseHigh
  dsimp only
  rw [hxq, hhigh]
  split <;> rfl

/-- A frame leaves port `cp` of `u`, which is `s` but for counters, sent frames and free values. -/
theorem ctlSend_alter {s u : State} (hxq : u.xq = s.xq) (hhigh : u.high = s.high) (cp : Nat) (f : List Byte) :
    ctlSend u cp f = bump { u with
      sent := u.sent ++ [.control cp f], xq := (cross s (107 + cp % 2) 256 (chunks 256 f)).xq,
      high := (cross s (107 + cp % 2) 256 (chunks 256 f)).high } (aZatCtr cp 1) := by
  unfold ctlSend
  rw [cross_alter (s := s) (t := { u with sent := u.sent ++ [.control cp f] }) hxq hhigh]

/-- The advertisement that answers a solicitation from `src`. -/
def naBody (s : State) (cp : Nat) (src target : List Byte) : List Byte :=
  [136, 0] ++ toBytes 2 (csumOf (pseudo6 target src 32 58 ++ ([136, 0] ++ toBytes 2 0 ++ toBytes 4 0x60000000 ++ target ++ [2, 1] ++ toBytes 6 (ctlMac s cp))))
    ++ toBytes 4 0x60000000 ++ target ++ [2, 1] ++ toBytes 6 (ctlMac s cp)

/-- The frame that carries it, to the solicitation's sender. -/
def naFrame (s : State) (cp : Nat) (f src target : List Byte) (free : Nat) : List Byte :=
  slice f 6 6 ++ toBytes 6 (ctlMac s cp) ++ vlanOf f ++ [0x86, 0xDD] ++ ip6Header free 32 58 255 target src ++ naBody s cp src target

theorem nsAnswer_eq (u : State) (cp : Nat) (f : List Byte) {src : List Byte} (target : List Byte) (hsrc : zeros src = false) :
    nsAnswer u cp f src target = ctlSend { u with fresh := u.fresh + 1 } cp (naFrame u cp f src target (Config.freeWord u.fresh).toNat) := by
  unfold nsAnswer
  rw [hsrc]
  rfl

theorem ctlRx_solicitation {s : State} {cp : Nat} {f src target : List Byte} (hon : (zatUp s && ctlLink s cp) = true) (hu : zatUdp s = true)
    (hlen : f.length ≤ 9212) (hns : nsIn s cp f = some (src, target)) :
    ctlRx s cp f true = nsAnswer (bump (ctlCrossed s cp f) (aZatCtr cp 0)) cp f src target := by
  obtain ⟨x, h, hcross⟩ := ctlCrossed_frame s cp f
  have hudp : zatUdp (ctlCrossed s cp f) = true := (ctlCrossed_reads s cp f).2.2.1.trans hu
  have hin : nsIn (ctlCrossed s cp f) cp f = some (src, target) := by
    rw [hcross]
    exact hns
  unfold ctlRx
  rw [hon, if_neg (by decide), if_neg (by decide), if_neg (by omega)]
  dsimp only
  rw [← (show ctlCrossed s cp f = cross s (105 + cp % 2) 256 (chunks 256 f) from rfl), hudp, if_pos rfl, hin]

theorem keepFixed_solicitation {s : State} {cp : Nat} {f src target : List Byte} (hon : (zatUp s && ctlLink s cp) = true)
    (hu : zatUdp s = true) (hlen : f.length ≤ 9212) (hns : nsIn s cp f = some (src, target)) (hsrc : zeros src = false) :
    keepFixed s (ctlRx s cp f true) = ctlRx s cp f true := by
  have hcross : keepFixed s (ctlCrossed s cp f) = ctlCrossed s cp f := keepFixed_cross rfl _ _ _
  rw [ctlRx_solicitation hon hu hlen hns, nsAnswer_eq _ cp f target hsrc]
  have hcount := keepFixed_bump hcross (aZatCtr cp 0)
  generalize bump (ctlCrossed s cp f) (aZatCtr cp 0) = b at hcount ⊢
  exact keepFixed_ctlSend (t := { b with fresh := b.fresh + 1 }) (keepFixed_of (keepFixed_fields (t := b) hcount)) _ _

/-- The advertisement leaves, and the solicitation and it are counted. -/
theorem ctlRx_answers {s : State} {cp : Nat} {f src target : List Byte} (hon : (zatUp s && ctlLink s cp) = true) (hu : zatUdp s = true)
    (hlen : f.length ≤ 9212) (hns : nsIn s cp f = some (src, target)) (hsrc : zeros src = false) :
    ctlRx s cp f true = { bump (bump (cross (ctlCrossed s cp f) (107 + cp % 2) 256
        (chunks 256 (naFrame s cp f src target (Config.freeWord s.fresh).toNat))) (aZatCtr cp 0)) (aZatCtr cp 1) with
      fresh := s.fresh + 1,
      sent := s.sent ++ [.control cp (naFrame s cp f src target (Config.freeWord s.fresh).toNat)] } := by
  have hrx := ctlRx_solicitation hon hu hlen hns
  obtain ⟨x, h, hcross⟩ := ctlCrossed_frame s cp f
  generalize ctlCrossed s cp f = c at hrx hcross ⊢
  have hfresh : c.fresh = s.fresh := by rw [hcross]
  have hsent : c.sent = s.sent := by rw [hcross]
  have hmac : ctlMac (bump c (aZatCtr cp 0)) cp = ctlMac s cp := by rw [hcross]; rfl
  have hframe : ∀ free, naFrame (bump c (aZatCtr cp 0)) cp f src target free = naFrame s cp f src target free := by
    intro free
    unfold naFrame naBody
    rw [hmac]
  generalize hfr : naFrame s cp f src target (Config.freeWord s.fresh).toNat = fr
  have hanswer := nsAnswer_eq (bump c (aZatCtr cp 0)) cp f target hsrc
  rw [hframe, show (bump c (aZatCtr cp 0)).fresh = s.fresh from hfresh, hfr,
    ctlSend_alter (s := c) (u := { bump c (aZatCtr cp 0) with fresh := s.fresh + 1 }) rfl rfl] at hanswer
  obtain ⟨x', h', hleaves⟩ := cross_frame c (107 + cp % 2) 256 (chunks 256 fr)
  rw [hleaves] at hanswer ⊢
  rw [← hsent, hrx, hanswer]
  rfl

/-! ## A frame of a session -/

theorem keepFixed_keepResp {s t : State} (k : keepFixed s t = t) (n q : Nat) (msg : List Byte) : keepFixed s (keepResp t n q msg) = keepResp t n q msg := by
  unfold keepResp
  dsimp only
  split
  · exact k
  · exact keepFixed_setSess k _ _

theorem keepFixed_endFrame {s t : State} (k : keepFixed s t = t) (n : Nat) {e : Exec} (hip : e.enc.ip = none) :
    keepFixed s (endFrame t n e) = endFrame t n e := by
  have hsent := keepFixed_zatSend (keepFixed_keepResp (keepFixed_setSess k n { sessOf t n with exec := none }) n e.seq
    (sessMsg (setSess t n { sessOf t n with exec := none }) n 0 e.seq e.done)) hip
    (sessMsg (setSess t n { sessOf t n with exec := none }) n 0 e.seq e.done)
  unfold endFrame
  dsimp only
  split
  · exact keepFixed_closeSess hsent n
  · exact hsent

section
variable {s : State} {n q : Nat} {r : Req}

/-- The frame of session `n` that is being executed. -/
def execSess (x : Session) (e : Exec) : Session := { x with rx := [], exec := some e }

theorem nextFrame_single {x : Session} (hrx : x.rx = [(q, r)]) (hnext : seqDiff q x.next < 0) : nextFrame x = some (q, r) := by
  unfold nextFrame
  rw [hrx]
  simp [hnext]

/-- The record of a request that is taken up. -/
def begun (q : Nat) (r : Req) : Exec :=
  ⟨q, r.enc, r.flags, if frameRoom r.enc < responseBound r.txns then r.txns.map fun t => txnRes t stTooBig t.addr [] else [],
    if frameRoom r.enc < responseBound r.txns then [] else r.txns, none⟩

theorem beginFrame_single (hrx : (sessOf s n).rx = [(q, r)]) (hnext : seqDiff q (sessOf s n).next < 0) :
    beginFrame s n = setSess s n (execSess (sessOf s n) (begun q r)) := by
  have hdel : kdel [(q, r)] q = [] := by simp [kdel]
  unfold beginFrame
  dsimp only
  rw [nextFrame_single hrx hnext]
  dsimp only
  rw [hrx, hdel]
  rfl

theorem runFrame_ended {u : State} {e : Exec} (k : Nat) (hexec : (sessOf u n).exec = some e) (hrest : e.rest = []) :
    runFrame k u n = endFrame u n e := by
  unfold runFrame
  rw [hexec]
  dsimp only
  rw [hrest]

/-- The next transaction of a frame completes, and its session stays open. -/
theorem runFrame_done {u v : State} {e : Exec} {t : Txn} {rest : List Txn} {st a : Nat} {d : List Byte} (k : Nat)
    (hexec : (sessOf u n).exec = some e) (hrest : e.rest = t :: rest) (hgo : stopped e = false)
    (hrun : runTxn (setSess u n { sessOf u n with exec := some { e with rest := rest } }) n t = .done st a d v) (hopen : isOpen v n = true) :
    runFrame (k + 1) u n = runFrame k (noteDone v n (txnRes t st a d)) n := by
  conv => lhs; unfold runFrame
  rw [hexec]
  dsimp only
  rw [hrest]
  dsimp only
  rw [hgo, if_neg (by decide), hrun]
  dsimp only
  rw [hopen, if_pos rfl]

/-- `u` is `s` but for its sessions. -/
def SameButSessions (s u : State) : Prop := ∃ m, u = { s with zat := { s.zat with sessions := m } }

theorem SameButSessions.setSess {u : State} (h : SameButSessions s u) (x : Session) : SameButSessions s (setSess u n x) := by
  obtain ⟨m, rfl⟩ := h
  exact ⟨_, rfl⟩

/-- A frame whose transactions have all completed, in a part that is `s` but for its sessions, ends. -/
theorem endFrame_sends {u : State} {x : Session} {e : Exec} (hu : SameButSessions s u) (hsess : sessOf u n = execSess x e)
    (hip : e.enc.ip = none) (hflags : bit e.flags 2 = false) (htrained : trainFailed s = false) :
    ∃ msg, keepFixed s (endFrame u n e) = endFrame u n e
      ∧ msg = zatMsg (some x.ks) 1 n (windowLeft s { x with rx := [], exec := none }) e.seq x.next (sackOf { x with rx := [], exec := none }) e.done
      ∧ (endFrame u n e).sent
        = s.sent ++ [.control e.enc.cp (e.enc.mac ++ toBytes 6 (ctlMac s e.enc.cp) ++ e.enc.vlan ++ [0x88, 0xB5] ++ msg)]
      ∧ sessOf (endFrame u n e) n = { x with rx := [], exec := none, kept := kset x.kept e.seq msg } := by
  obtain ⟨m, rfl⟩ := hu
  obtain ⟨msg, hmsg, hsent, hkept⟩ := endFrame_kept (s := { s with zat := { s.zat with sessions := m } }) hsess.symm hip hflags htrained
  exact ⟨msg, keepFixed_endFrame rfl n hip, hmsg, hsent, hkept⟩

/-- The begun frame with its transactions answered so far by `out` and `rest` to run. -/
def begunWith (q : Nat) (r : Req) (out : List TxnRes) (rest : List Txn) : Exec := ⟨q, r.enc, r.flags, out, rest, none⟩

theorem begun_big (h : frameRoom r.enc < responseBound r.txns) :
    begun q r = begunWith q r (r.txns.map fun t => txnRes t stTooBig t.addr []) [] := by
  simp only [begun, if_pos h]
  rfl

theorem begun_small (h : responseBound r.txns ≤ frameRoom r.enc) : begun q r = begunWith q r [] r.txns := by
  simp only [begun, if_neg (Nat.not_lt.2 h)]
  rfl

/-! ## A PING -/

theorem frameRoom_large (e : Encap) : 9098 ≤ frameRoom e := by
  unfold frameRoom
  split <;> split <;> decide

theorem responseBound_ping {tag : Nat} {data : List Byte} (h : data.length ≤ 64) : responseBound [⟨3, tag, 0, data⟩] ≤ 80 := by
  simp only [responseBound, dataBound, List.map_cons, List.map_nil, List.sum_cons, List.sum_nil, if_pos h, cdiv]
  omega

theorem runTxn_ping (u : State) (n tag : Nat) {data : List Byte} (h : data.length ≤ 64) :
    runTxn u n ⟨3, tag, 0, data⟩ = .done stOk 0 data u := by
  show opPing u n ⟨3, tag, 0, data⟩ = _
  unfold opPing gate
  rw [if_neg (Nat.not_lt_zero _), if_pos (by simpa using h)]
  rfl

theorem noteDone_sess {u : State} {x : Session} {e : Exec} (h : sessOf u n = execSess x e) (r : TxnRes) :
    sessOf (noteDone u n r) n = execSess x { e with done := e.done ++ [r] } := by
  unfold noteDone
  rw [sessOf_set, h]
  rfl

/-- A frame that holds a PING alone runs it, and ends. -/
theorem runFrame_ping {u : State} {x : Session} {tag : Nat} {data : List Byte} (k : Nat) (hu : SameButSessions s u)
    (hsess : sessOf u n = execSess x (begunWith q r [] [⟨3, tag, 0, data⟩])) (hopen : x.state = .opened) (h : data.length ≤ 64) :
    ∃ v, SameButSessions s v ∧ sessOf v n = execSess x (begunWith q r [⟨3, tag, stOk, 0, data⟩] [])
      ∧ runFrame (k + 1) u n = endFrame v n (begunWith q r [⟨3, tag, stOk, 0, data⟩] []) := by
  obtain ⟨w, hw⟩ : ∃ w, w = setSess u n { sessOf u n with exec := some (begunWith q r [] []) } := ⟨_, rfl⟩
  have hws : sessOf w n = execSess x (begunWith q r [] []) := by
    rw [hw, sessOf_set, hsess]
    rfl
  have hdone := noteDone_sess hws ⟨3, tag, stOk, 0, data⟩
  have hrun : runFrame (k + 1) u n = runFrame k (noteDone w n ⟨3, tag, stOk, 0, data⟩) n := by
    have hwopen : isOpen w n = true := by rw [isOpen, hws]; exact beq_iff_eq.2 hopen
    have hstop : stopped (begunWith q r [] [⟨3, tag, 0, data⟩]) = false := Bool.and_false _
    exact runFrame_done k (by rw [hsess]; rfl) rfl hstop (by rw [hw]; exact runTxn_ping _ n tag h) hwopen
  refine ⟨noteDone w n ⟨3, tag, stOk, 0, data⟩, ?_, hdone, hrun.trans (runFrame_ended k (by rw [hdone]; rfl) rfl)⟩
  rw [hw]
  exact (hu.setSess _).setSess _

end

theorem frameExec_begins {s : State} {n q : Nat} {r : Req} (hopen : (sessOf s n).state = .opened) (hidle : (sessOf s n).exec = none)
    (hrx : (sessOf s n).rx = [(q, r)]) (hnext : seqDiff q (sessOf s n).next < 0) :
    frameExec s n = runFrame 65 (setSess s n (execSess (sessOf s n) (begun q r))) n := by
  have hisOpen : isOpen s n = true := beq_iff_eq.2 hopen
  unfold frameExec
  rw [hisOpen, if_neg (by decide), hidle]
  dsimp only
  rw [beginFrame_single hrx hnext]

/-- Settles O20: the advertisement by the crossing's frame, and a session's frame by its end. -/
theorem solicitationsAnswersAndSessionFrames : Obligations.SolicitationsAnswersAndSessionFrames := by
  unfold Obligations.SolicitationsAnswersAndSessionFrames
  refine ⟨?solicited, ?executed⟩
  case solicited =>
    intro s cp f src target na hcp hup hlink hu hlen hns hsrc hna
    have hon : (zatUp s && ctlLink s cp) = true := Bool.and_eq_true_iff.2 ⟨hup, hlink⟩
    subst hna
    have hrun : exec (.neighbourSolicitation cp f) s = .next (ctlRx s cp f true) :=
      cmd_run (i := .neighbourSolicitation cp f) (f := fun s => if zatUdp s && (nsIn s cp f).isSome then ctlRx s cp f true else s)
        (decide_eq_true hcp) (if_pos (by rw [hu, hns]; rfl)) (keepFixed_solicitation hon hu hlen hns hsrc)
    exact ⟨_, _, rfl, hrun.trans (congrArg _ (ctlRx_answers hon hu hlen hns hsrc))⟩
  case executed =>
    rintro s n q x y r hn rfl hopen hidle hrx hnext hip hflags htrained rfl out hout
    have hbegin := frameExec_begins hopen hidle hrx hnext
    have hused : SameButSessions s (setSess s n (execSess (sessOf s n) (begun q r))) := ⟨_, rfl⟩
    have hsess : sessOf (setSess s n (execSess (sessOf s n) (begun q r))) n = execSess (sessOf s n) (begun q r) := sessOf_set _ _ _
    obtain ⟨v, hv, hvs, hrun⟩ : ∃ v, SameButSessions s v ∧ sessOf v n = execSess (sessOf s n) (begunWith q r out [])
        ∧ frameExec s n = endFrame v n (begunWith q r out []) := by
      rcases hout with ⟨rfl, hbig⟩ | ⟨tag, data, hdata, htxns, rfl⟩
      · rw [begun_big hbig] at hbegin hused hsess
        exact ⟨_, hused, hsess, hbegin.trans (runFrame_ended 65 (by rw [hsess]; rfl) rfl)⟩
      · have hsmall : responseBound r.txns ≤ frameRoom r.enc :=
          (htxns ▸ responseBound_ping hdata).trans ((by decide : 80 ≤ 9098).trans (frameRoom_large r.enc))
        rw [begun_small hsmall, htxns] at hbegin hused hsess
        obtain ⟨v, hv, hvs, hrun⟩ := runFrame_ping 64 hused hsess hopen hdata
        exact ⟨v, hv, hvs, hbegin.trans hrun⟩
    obtain ⟨msg, hkeep, hmsg, hsent, hkept⟩ := endFrame_sends hv hvs hip hflags htrained
    rw [← hrun] at hkeep hsent hkept
    exact ⟨_, msg, cmdDeck_run (i := .frameExecute n) (f := fun s => frameExec s n) hn rfl (keepStores_of_keepFixed hkeep), hmsg, hsent, hkept⟩

end Sys2Proof.Machine
end

section
/-!
PROOFS. Input seconds: the edges of 1PPS and the sentences that label them (13_time_and_launch.md R293 to R295).
-/
namespace Sys2Proof.Machine

open Sys2Proof

section
variable {s : State}

/-! ## The two commands -/

theorem exec_ppsEdge {t : State} {phase : Int} (hup : bit s.rst.good 6 = true) (h : ppsEdgeOp s phase = t) (k : keepFixed s t = t) :
    exec (.ppsEdge phase) s = .next t :=
  cmd_run (i := .ppsEdge phase) (f := fun s => if timeUp s then ppsEdgeOp s phase else s) rfl ((if_pos hup).trans h) k

theorem exec_todSentence {t : State} {bs : List Byte} (hup : bit s.rst.good 6 = true) (h : todOp s bs = t) (k : keepFixed s t = t) :
    exec (.todSentence bs) s = .next t :=
  cmd_run (i := .todSentence bs) (f := fun s => if timeUp s then todOp s bs else s) rfl ((if_pos hup).trans h) k

theorem ppsEdgeOp_untaken (h : timeTakes s = false) (phase : Int) : ppsEdgeOp s phase = s := by
  unfold ppsEdgeOp
  rw [h]
  rfl

theorem todOp_untaken (h : timeTakes s = false) (bs : List Byte) : todOp s bs = s := by
  unfold todOp
  rw [h]
  rfl

/-! ## Edges -/

/-- The time unit once an edge at `e` has been seen. -/
def edgeSeen (t : TimeUnit) (e : Int) : TimeUnit := { t with lastEdge := some e, phase := phaseOf e, todBad := false }

theorem notePhase_kept {u : State} {e : Int} (h : phaseOf e = sint 32 (uns 32 (phaseOf e))) :
    notePhase u e = { u with time := { u.time with phase := phaseOf e } } := if_pos h

section
variable {phase e l : Int} (htakes : timeTakes s = true)
  (he : e = Int.ofNat (s.time.base / 2 ^ 40) + phase - sint 16 (tiF s 22 2) * 256) (hwait : s.time.waitTod = false)
  (hphase : phaseOf e = sint 32 (uns 32 (phaseOf e))) (hlast : s.time.lastEdge = some l)
include htakes he hwait hphase hlast

/-- An edge that no sentence was to label, by its distance from the last one. -/
theorem ppsEdgeOp_edge {near : Bool} (hnear : decide ((e - l - 256 * 10 ^ 9).natAbs ≤ 256000) = near) (hlabel : bit (tiF s 1 1) 2 = false) :
    ppsEdgeOp s phase = if near then { s with time := { edgeSeen s.time e with waitTod := true } }
      else endRun { s with time := { edgeSeen s.time e with tod := none } } 3 := by
  unfold ppsEdgeOp
  rw [htakes, if_neg (by decide)]
  dsimp only
  rw [← he, hlast]
  dsimp only
  simp only [hnear]
  rw [notePhase_kept hphase, hwait]
  cases near with
  | true =>
    refine (if_neg (by decide)).trans (if_neg ?_)
    show ¬ bit (tiF s 1 1) 2 = true
    rw [hlabel]
    decide
  | false => rfl

end

/-! ## Sentences -/

section
variable {bs : List Byte} {u : Nat} (htakes : timeTakes s = true) (hin : tiF s 1 1 % 4 = 1)
include htakes hin

theorem todOp_malformed (h : parseZda bs = none) :
    todOp s bs = endRun { s with time := { s.time with tod := none, todBad := bit (tiF s 1 1) 2 } } 2 := by
  unfold todOp
  rw [htakes, hin, if_neg (by decide), h]

theorem todOp_next (h : parseZda bs = some u) (hlabel : bit (tiF s 1 1) 2 = true) :
    todOp s bs = { s with time := { s.time with tod := some u, todBad := false } } := by
  unfold todOp
  rw [htakes, hin, if_neg (by decide), h]
  exact if_pos hlabel

theorem todOp_previous {e : Int} (h : parseZda bs = some u) (hlabel : bit (tiF s 1 1) 2 = false) (hwait : s.time.waitTod = true)
    (hlast : s.time.lastEdge = some e) (hfollows : utcFollows s u = true) : todOp s bs = validSecond s e u := by
  unfold todOp
  rw [htakes, hin, if_neg (by decide), h]
  dsimp only
  rw [hlabel, if_neg (by decide), hlast]
  dsimp only
  rw [hwait, if_neg (by decide), hfollows, if_pos rfl]

end

/-! ## Valid seconds -/

/-- The time unit as it counts a valid second that does not lock it. -/
def secondCounted (t : TimeUnit) (e : Int) (u : Nat) : TimeUnit :=
  { t with
    run := t.run + 1, ppsOk := true, lastUtc := some u, waitTod := false, tod := none, edgeRef := ((e + 128) / 256).toNat,
    cameFrom := if t.state = .acquiring then t.cameFrom else t.state, state := .acquiring }

theorem tiF_time (s : State) (t : TimeUnit) (off n : Nat) : tiF { s with time := t } off n = tiF s off n := rfl

theorem regRaw_time (s : State) (t : TimeUnit) (a d : Nat) : regRaw { s with time := t } a d = regRaw s a d := rfl

section
variable {e : Int} {u : Nat} (hstate : s.time.state ≠ .locked) (hunlocked : s.time.unlocked = false)
include hstate hunlocked

/-- The second that locks a unit whose time is not valid steps the timebase. -/
theorem validSecond_locks (hrun : tiF s 3 1 ≤ s.time.run + 1) (hvalid : s.time.valid = false) :
    validSecond s e u = alignTo { s with time := { secondCounted s.time e u with state := .locked } } e (Int.ofNat (u / 2) + s.time.utcOff) := by
  have hnew : (TimeSt.acquiring != TimeSt.locked) = true := rfl
  unfold validSecond
  simp only [secondCounted, tiF_time, hunlocked, if_neg hstate, decide_eq_false hstate, decide_eq_true hrun, hnew, hvalid, Bool.false_and,
    Bool.false_or, Bool.true_and, Bool.not_false, if_true, decide_eq_true_eq]
  rfl

/-- A second before the last one counts. -/
theorem validSecond_counts (hservo : bit (regRaw s aRateTarget 0) 63 = false) (hrun : s.time.run + 1 < tiF s 3 1) :
    validSecond s e u = { s with time := { secondCounted s.time e u with
      alarm := s.time.valid && Int.ofNat (tiF s 30 4 * 256) < (phaseOf e).natAbs } } := by
  have hnew : (TimeSt.acquiring == TimeSt.locked) = false := rfl
  unfold validSecond steer
  simp only [secondCounted, tiF_time, regRaw_time, hunlocked, if_neg hstate, decide_eq_false hstate, decide_eq_false (Nat.not_le.2 hrun), hservo, hnew,
    Bool.false_and, Bool.false_or, Bool.and_false, Bool.false_eq_true, if_false, decide_eq_true_eq]

end

end

/-- Settles O58: an edge by its distance, a sentence by what it labels, a second by what it counts. -/
theorem inputSecondsAreLabelledCountedAndLocked : Obligations.InputSecondsAreLabelledCountedAndLocked := by
  unfold Obligations.InputSecondsAreLabelledCountedAndLocked
  intro s hup
  refine ⟨fun h => ⟨fun ph => exec_ppsEdge hup (ppsEdgeOp_untaken h ph) rfl, fun bs => exec_todSentence hup (todOp_untaken h bs) rfl⟩,
    fun ph e l htakes he hwait hphase hlast hlabel => ⟨fun h => ?near, fun h => ?far⟩, fun bs htakes hin h => ?malformed,
    fun bs u htakes hin h hlabel => ?next, fun bs u e htakes hin h hlabel hwait hlast hfollows hunlocked hstate hservo =>
      ⟨fun hrun => ?counts, fun hrun hvalid => ?locks⟩⟩
  case near => exact exec_ppsEdge hup (ppsEdgeOp_edge htakes he hwait hphase hlast (decide_eq_true h) hlabel) rfl
  case far => exact ⟨_, exec_ppsEdge hup (ppsEdgeOp_edge htakes he hwait hphase hlast (decide_eq_false (Nat.not_le.2 h)) hlabel) rfl, rfl⟩
  case malformed => exact ⟨_, exec_todSentence hup (todOp_malformed htakes hin h) rfl, rfl⟩
  case next => exact exec_todSentence hup (todOp_next htakes hin h hlabel) rfl
  all_goals have hop := todOp_previous htakes hin h hlabel hwait hlast hfollows
  case counts => exact exec_todSentence hup (hop.trans (validSecond_counts hstate hunlocked hservo hrun)) rfl
  case locks =>
    have hlock := validSecond_locks (e := e) (u := u) hstate hunlocked hrun hvalid
    obtain ⟨g, a, b, p, edge, r, y, c, q, x, high, hstep⟩ := stepTo_frame { s with time := { secondCounted s.time e u with state := .locked } }
      (((Int.ofNat (u / 2) + s.time.utcOff) * 10 ^ 9 * 2 ^ 48 + (Int.ofNat s.time.base - e * 2 ^ 40)).toNat) 1
    exact ⟨_, exec_todSentence hup (hop.trans (hlock.trans hstep)) rfl, rfl, rfl, rfl, rfl, rfl, rfl, rfl, rfl⟩

end Sys2Proof.Machine
end

section
/-!
PROOFS. Generated PTP messages and the transmit stamps that return (13_time_and_launch.md R302, R304 to R308).
-/
namespace Sys2Proof.Machine

open Sys2Proof

/-! ## A message that falls due -/

/-- The message that port `p` sends to `to_` by its TIME record `i` (R305). -/
def dueBody (s : State) (p i cls : Nat) (to_ : Option Nat) (announce : Bool) : List Byte :=
  if announce then
    ptpHeader s i p 0xB 64 (seqOf s p).2.1 false to_.isSome 5 (if to_.isSome then 0x7F else tiR s i 7 1) ++ announceBody s cls
  else
    ptpHeader s i p 0 44 (seqOf s p).1 (!bit (tiR s i 5 1) 0) to_.isSome 0 (if to_.isSome then 0x7F else tiR s i 6 1) ++ toBytes 10 0

def duePort (announce : Bool) : Nat := if announce then 320 else 319

/-- The stamp class of the frame: a two-step Sync returns its stamp. -/
def dueClass (s : State) (i : Nat) (announce : Bool) : Nat := if announce then 0 else if bit (tiR s i 5 1) 0 then 0 else 1

/-- The edits of the frame: a one-step Sync takes its origin timestamp as it leaves. -/
def dueEdits (s : State) (i : Nat) (announce : Bool) : List (Nat × Nat × W32) :=
  if announce then [] else if bit (tiR s i 5 1) 0 then [(9, ptpOff s i + 34, BitVec.ofNat 32 (if tiR s i 3 1 = 3 then 36 * 256 else 0))] else []

/-- The sequence ids once the message has been sent. -/
def dueSeq (x : Nat × Nat × Nat) (announce : Bool) : Nat × Nat × Nat :=
  if announce then (x.1, (x.2.1 + 1) % 65536, x.2.2) else ((x.1 + 1) % 65536, x.2.1, x.2.2)

def dueCtr (announce : Bool) : Nat := if announce then 3 else 1

/-- The frame of a due message; `free` fills what the spec leaves open. -/
def dueFrame (s : State) (p i cls : Nat) (to_ : Option Nat) (announce : Bool) (free : Nat) : List Byte :=
  ptpFrame s i p to_ (duePort announce) free (dueBody s p i cls to_ announce)

/-- The header its queue takes it with. -/
def dueHdr (s : State) (i : Nat) (announce : Bool) (f : List Byte) : List Byte :=
  injectHdr (curSlot s) (tiR s i 10 2) f.length (tiR s i 14 1) (tiR s i 15 1) (dueClass s i announce) 0

section
variable {s : State} {p i cls : Nat} {to_ : Option Nat}

/-- A due message of a port that may send is injected into the queue of its TIME record. -/
theorem sendDue_eq (announce : Bool) (hi : instRec s p = some i) (hc : clockClass s = some cls) (hv : s.time.valid = true)
    (hd : hasDeck s = true) (hdest : destOk s i p to_ = true) {f : List Byte} (hf : f = dueFrame s p i cls to_ announce (draw s).1)
    {r : Bool × State} (hr : injectFrame (draw s).2 (tiR s i 10 2) f (dueHdr s i announce f) (dueEdits s i announce) = r) :
    sendDue s p to_ announce
      = if r.1 then bump (setSeq r.2 p (dueSeq (seqOf s p) announce)) (aInst p (dueCtr announce)) else r.2 := by
  unfold sendDue
  rw [hi, hc]
  dsimp only
  rw [hv, hd, hdest, if_neg (by decide)]
  subst hr
  subst hf
  cases announce with
  | true => rfl
  | false => rfl

theorem sendDue_silent (announce : Bool) (hc : clockClass s = none) : sendDue s p to_ announce = s := by
  unfold sendDue
  rw [hc]
  cases instRec s p <;> rfl

/-- The part that has taken note of a due message and may send it now. -/
def dueNoted (s : State) (p : Nat) (to_ : Option Nat) (announce : Bool) : State :=
  { s with time := { s.time with msgAt := kset s.time.msgAt (streamKey p to_ announce) (nowNs s), genNext := s.clk + 32 } }

theorem dueBody_noted (announce b : Bool) : dueBody (dueNoted s p to_ b) p i cls to_ announce = dueBody s p i cls to_ announce := by
  cases announce <;> rfl

theorem dueFrame_noted (announce b : Bool) (free : Nat) :
    dueFrame (dueNoted s p to_ b) p i cls to_ announce free = dueFrame s p i cls to_ announce free := by
  unfold dueFrame
  rw [dueBody_noted]
  rfl

/-! ## The generator's rate (R308) -/

theorem genDueOp_sends (m : GenMsg) (hh : held s = false) (hdue : s.time.genDue = []) (hnext : s.time.genNext ≤ s.clk) :
    genDueOp s m = genSend s m := by
  unfold genDueOp
  rw [hh, hdue, decide_eq_false (Nat.not_lt.2 hnext)]
  rfl

theorem genDueOp_late (m : GenMsg) (hh : held s = false) (h : s.clk < s.time.genNext ∨ s.time.genDue ≠ []) :
    genDueOp s m = { bump s (aInst m.port 4) with time := { s.time with genDue := s.time.genDue ++ [m] } } := by
  have hlate : (decide (s.clk < s.time.genNext) || !s.time.genDue.isEmpty) = true := by
    rcases h with h | h
    · simp [h]
    · simp [h]
  unfold genDueOp
  rw [hh, hlate]
  rfl

/-! ## The grants of unicast streams (R307) -/

/-- A due message first ends the grant of its entry, where its time has come. -/
def dueExpired (s : State) (to_ : Option Nat) : State := match to_ with
  | some k => unicastExpire s k
  | none => s

/-- A due message goes to the generator where its stream is served. -/
def servePtp (s : State) (p : Nat) (to_ : Option Nat) (announce : Bool) : State := match instRec s p with
  | some i =>
    if s.time.valid && hasDeck s && destOk s i p to_ && streamDue s i p to_ announce then
      genDueOp { s with time := { s.time with msgAt := kset s.time.msgAt (streamKey p to_ announce) (nowNs s) } } (.due p to_ announce)
    else s
  | none => s

theorem ptpDueOp_eq (announce : Bool) : ptpDueOp s p to_ announce = servePtp (dueExpired s to_) p to_ announce := rfl

theorem grantLive_fields {k : Nat} (h : grantLive s p k = true) :
    bit (regRaw s (aUnicast k 0) 0) 0 = true ∧ nowS s % 2 ^ 32 < regRaw s (aUnicast k 0) 0 / 2 ^ 32 := by
  unfold grantLive at h
  simp only [Bool.and_eq_true, decide_eq_true_eq] at h
  exact ⟨h.1.1, h.2⟩

/-- An entry that is served keeps its grant. -/
theorem dueExpired_served (h : destOk s i p to_ = true) : dueExpired s to_ = s := by
  cases to_ with
  | none => rfl
  | some k =>
    have hlive : grantLive s p k = true := (Bool.and_eq_true_iff.1 h).2
    exact unicastExpire_live rfl (grantLive_fields hlive).2

/-- A stream of messages is served: the port's record, the time and the destination are there, and its interval has passed. -/
theorem ptpDueOp_due (announce : Bool) (hi : instRec s p = some i) (hv : s.time.valid = true) (hd : hasDeck s = true)
    (hdest : destOk s i p to_ = true) (hstream : streamDue s i p to_ announce = true) : ptpDueOp s p to_ announce
      = genDueOp { s with time := { s.time with msgAt := kset s.time.msgAt (streamKey p to_ announce) (nowNs s) } } (.due p to_ announce) := by
  rw [ptpDueOp_eq, dueExpired_served hdest, servePtp, hi]
  dsimp only
  rw [hv, hd, hdest, hstream]
  rfl

theorem ptpDueOp_unserved (announce : Bool) (h : ∀ i, instRec (dueExpired s to_) p = some i → (dueExpired s to_).time.valid = true →
    destOk (dueExpired s to_) i p to_ = false) : ptpDueOp s p to_ announce = dueExpired s to_ := by
  rw [ptpDueOp_eq]
  generalize dueExpired s to_ = v at h ⊢
  unfold servePtp
  cases hi : instRec v p with
  | none => rfl
  | some i =>
    dsimp only
    refine if_neg fun hall => ?_
    simp only [Bool.and_eq_true] at hall
    obtain ⟨⟨⟨hv, -⟩, hdest⟩, -⟩ := hall
    rw [h i hi hv] at hdest
    exact absurd hdest (by decide)

theorem ptpDueOp_sends (announce : Bool) (hi : instRec s p = some i) (hv : s.time.valid = true) (hd : hasDeck s = true)
    (hdest : destOk s i p to_ = true) (hstream : streamDue s i p to_ announce = true) (hh : held s = false) (hdue : s.time.genDue = [])
    (hnext : s.time.genNext ≤ s.clk) : ptpDueOp s p to_ announce = sendDue (dueNoted s p to_ announce) p to_ announce :=
  (ptpDueOp_due announce hi hv hd hdest hstream).trans (genDueOp_sends _ hh hdue hnext)

/-- The entry whose grant has ended serves no message. -/
theorem destOk_ended {k n : Nat} (hn : n = regRaw s (aUnicast k 0) 0) (hb : bit n 0 = true) (he : n / 2 ^ 32 ≤ nowS s % 2 ^ 32) (i : Nat) :
    destOk (dueExpired s (some k)) i p (some k) = false := by
  have hexpired : dueExpired s (some k) = setReg s (aUnicast k 0) (n - 1) := unicastExpire_ended hn hb he
  have hcleared : bit ((n - 1) % 2 ^ 64) 0 = false := by
    unfold bit at hb ⊢
    simp at hb ⊢
    omega
  have hlive : grantLive (dueExpired s (some k)) p k = false := by
    rw [hexpired, ← Bool.not_eq_true]
    intro h
    obtain ⟨hbit, -⟩ := grantLive_fields h
    rw [regRaw_setReg_same, hcleared] at hbit
    exact absurd hbit (by decide)
  show (_ && grantLive (dueExpired s (some k)) p k) = false
  rw [hlive, Bool.and_false]

theorem exec_ptpMessageDue {t : State} {announce : Bool} (hp : okPort p = true) (hto : ∀ e, to_ = some e → okGrant e = true)
    (h : ptpDueOp s p to_ announce = t) (k : keepFixed s t = t) : exec (.ptpMessageDue p to_ announce) s = .next t := by
  refine cmd_run (i := .ptpMessageDue p to_ announce) (f := fun s => ptpDueOp s p to_ announce) (Bool.and_eq_true_iff.2 ⟨hp, ?_⟩) h k
  cases to_ with
  | none => rfl
  | some e => exact hto e rfl

/-- Port `p`, by its TIME record `i`, may send to `to_` now. -/
structure MaySend (s : State) (p i : Nat) (to_ : Option Nat) (announce : Bool) : Prop where
  inst : instRec s p = some i
  valid : s.time.valid = true
  deck : hasDeck s = true
  dest : destOk s i p to_ = true
  due : streamDue s i p to_ announce = true
  held : held s = false

section
variable {announce : Bool} (hp : okPort p = true) (hto : ∀ e, to_ = some e → okGrant e = true) (hmay : MaySend s p i to_ announce)
include hp hto hmay

/-- While the rate is exhausted the message waits. -/
theorem exec_ptpMessageDue_late (h : s.clk < s.time.genNext ∨ s.time.genDue ≠ []) :
    exec (.ptpMessageDue p to_ announce) s = .next { bump s (aInst p 4) with
      time := { s.time with msgAt := kset s.time.msgAt (streamKey p to_ announce) (nowNs s), genDue := s.time.genDue ++ [.due p to_ announce] } } :=
  exec_ptpMessageDue hp hto ((ptpDueOp_due announce hmay.inst hmay.valid hmay.deck hmay.dest hmay.due).trans (genDueOp_late _ hmay.held h)) rfl

variable (hdue : s.time.genDue = []) (hnext : s.time.genNext ≤ s.clk) {w : State} (hw : w = dueNoted s p to_ announce)
include hdue hnext hw

omit hp hto in
theorem ptpDueOp_noted : ptpDueOp s p to_ announce = sendDue w p to_ announce := by
  rw [hw]
  exact ptpDueOp_sends announce hmay.inst hmay.valid hmay.deck hmay.dest hmay.due hmay.held hdue hnext

theorem exec_ptpMessageDue_silent (hc : clockClass s = none) : exec (.ptpMessageDue p to_ announce) s = .next w := by
  have hwc : clockClass w = none := by rw [hw]; exact hc
  exact exec_ptpMessageDue hp hto ((ptpDueOp_noted hmay hdue hnext hw).trans (sendDue_silent announce hwc)) (by rw [hw]; rfl)

variable {f : List Byte} {u : State} (hc : clockClass s = some cls) (hf : f = dueFrame s p i cls to_ announce (draw s).1)
include hc hf

omit hp hto in
/-- What the message comes to, by what its queue does with the frame. -/
theorem ptpDueOp_injects {r : Bool × State}
    (hr : injectFrame (draw w).2 (tiR s i 10 2) f (dueHdr s i announce f) (dueEdits s i announce) = r) : ptpDueOp s p to_ announce
      = if r.1 then bump (setSeq r.2 p (dueSeq (seqOf s p) announce)) (aInst p (dueCtr announce)) else r.2 := by
  refine (ptpDueOp_noted hmay hdue hnext hw).trans ?_
  subst hw
  exact sendDue_eq (s := dueNoted s p to_ announce) announce hmay.inst hc hmay.valid hmay.deck hmay.dest
    (hf.trans (dueFrame_noted announce announce _).symm) hr

/-- A frame that its queue refuses leaves nothing but what the queue counts. -/
theorem exec_ptpMessageDue_refused (h : admitPot (draw w).2 (tiR s i 10 2) (dueHdr s i announce f) = (none, u)) :
    exec (.ptpMessageDue p to_ announce) s = .next u := by
  have hpot := SameButPot.admitPot (draw w).2 (tiR s i 10 2) (dueHdr s i announce f)
  rw [h] at hpot
  have hkeep : keepFixed w u = u := (SameButPot.fixed (s := w) (d := w.deck) ((SameButPot.draw w).trans hpot)).1
  refine exec_ptpMessageDue hp hto (ptpDueOp_injects hmay hdue hnext hw hc hf (injectFrame_refused h f _)) ?_
  rw [hw] at hkeep
  exact hkeep

/-- A frame that its queue takes stands in it whole. -/
theorem exec_ptpMessageDue_taken (h : injectFrame (draw w).2 (tiR s i 10 2) f (dueHdr s i announce f) (dueEdits s i announce) = (true, u))
    (hnew : ∀ g ∈ (queueOf s (tiR s i 10 2)).frames, g.id ≠ s.frameNo) (htx : inTx s (tiR s i 10 2) s.frameNo = false) {t : State}
    (ht : t = bump (setSeq u p (dueSeq (seqOf s p) announce)) (aInst p (dueCtr announce))) :
    exec (.ptpMessageDue p to_ announce) s = .next t ∧ ∃ g ∈ (queueOf t (tiR s i 10 2)).frames, g.id = s.frameNo ∧ g.bytes = f
      ∧ g.macEd = dueEdits s i announce ∧ g.visible = true ∧ g.whole = true ∧ g.bad = false := by
  have hop := ptpDueOp_injects hmay hdue hnext hw hc hf h
  rw [if_pos rfl, ← ht] at hop
  subst hw
  obtain ⟨hpot, -, ⟨g, hg, hid⟩, hall⟩ := injectFrame_takes h hnew htx
  obtain ⟨hbytes, heds, hvisible, hwhole, hgood, -⟩ := hall g hg hid
  subst ht
  exact ⟨exec_ptpMessageDue hp hto hop (inject_keeps hpot p _ _), g, hg, hid, hbytes, heds, hvisible, hwhole, hgood⟩

end

end

/-! ## A stamp that returns -/

/-- The part once stamp `x` has been taken from its port. -/
def stampTaken (s : State) (x : TxStamp) : State :=
  setPort s x.port { portOf s x.port with stamps := (portOf s x.port).stamps.erase x }

/-- That part once the generator may send again only later (R308). -/
def stampSpaced (s : State) (x : TxStamp) : State :=
  { stampTaken s x with time := { (stampTaken s x).time with genNext := (stampTaken s x).clk + 32 } }

section
variable {s : State} {o : Nat} {x : TxStamp}

theorem stampReturnOp_none (h : oldestStamp s o = none) : stampReturnOp s o = s := by
  unfold stampReturnOp
  rw [h]

theorem stampReturnOp_some (h : oldestStamp s o = some x) : stampReturnOp s o =
    if x.cls = 2 then ringWrite (stampTaken s x) (tiF s 34 2 % 8192) (stampItem x) false
    else if (instRec s x.port).isSome && s.time.valid then genDueOp (stampTaken s x) (.followUp x) else stampTaken s x := by
  unfold stampReturnOp
  rw [h]
  rfl

theorem exec_txStampReturn {t : State} (ho : okHand o = true) (h : stampReturnOp s o = t) (k : keepFixed s t = t) :
    exec (.txStampReturn o) s = .next t :=
  cmd_run (i := .txStampReturn o) (f := fun s => stampReturnOp s o) ho h k

theorem stampItem_length (x : TxStamp) : (stampItem x).length = 24 := by
  simp [stampItem, toBytes_length]

/-- The item of a returned stamp joins its ring. -/
theorem stampItem_joins {v : State} {r : Nat} {kept : List (List Byte × Bool)} {lost : Nat}
    (hslots : (ringCfg v r).byLength = false ∨ (ringOf v r).slots = [])
    (hroom : freeItems (ringOf v r).items (ringOf v r).part (2 ^ (ringCfg v r).log2 - (ringOf v r).waiting) 24 = some (kept, lost)) :
    (ringOf (ringWrite v r (stampItem x) false) r).items = kept ++ [(stampItem x, false)] := by
  have hopen : openRing v r = true := by
    unfold openRing
    rcases hslots with h | h
    · rw [h]; rfl
    · rw [h, List.isEmpty_nil, Bool.not_true, Bool.and_false]; rfl
  exact ringWrite_items false hopen (by rw [stampItem_length]; exact hroom)

theorem stampTaken_stamps : (portOf (stampTaken s x) x.port).stamps = (portOf s x.port).stamps.erase x :=
  congrArg PortState.stamps (setPort_portOf' s x.port _)

theorem SameButPot.portOf {u v : State} {d : Deck} (h : SameButPot { u with deck := d } v) (p : Nat) : portOf v p = portOf u p := by
  unfold SameButPot at h
  rw [h]
  rfl

/-- Taking a stamp leaves what a port sends alone. -/
theorem inTx_stampTaken (q id : Nat) : inTx (stampTaken s x) q id = inTx s q id := by
  have hport : (portOf (stampTaken s x) (queuePort s q)).txq = (portOf s (queuePort s q)).txq := by
    unfold stampTaken
    rw [setPort_portOf]
    split
    · rename_i h
      rw [h]
    · rfl
  unfold inTx
  rw [← hport]
  rfl

/-- The Follow_Up of a Sync whose stamp has returned. -/
theorem sendFollowUp_sends {w u : State} {i q : Nat} {f hdr : List Byte} (hi : instRec w x.port = some i) (hv : w.time.valid = true)
    (hf : f = followUpFrame w i x.frame ((x.time + 32768) / 65536))
    (hq : tiR w i 10 2 = q) (hhdr : injectHdr (curSlot w) q f.length (tiR w i 14 1) (tiR w i 15 1) 0 0 = hdr)
    (h : injectFrame w q f hdr [] = (true, u)) :
    sendFollowUp w x = bump (setSeq u x.port ((seqOf w x.port).1, (seqOf w x.port).2.1, (fld f (ptpOff w i + 30) 2 + 1) % 65536)) (aInst x.port 2) := by
  unfold sendFollowUp sendPtp
  rw [hi]
  dsimp only
  rw [hv, if_neg (by decide), ← hf, hq, hhdr, h]
  rfl

end

/-- Settles O59: a due message by its injection, and a returned stamp by its class. -/
theorem ptpMessagesAndTransmitStamps : Obligations.PtpMessagesAndTransmitStamps := by
  unfold Obligations.PtpMessagesAndTransmitStamps
  refine ⟨?messages, ?stamps⟩
  case messages =>
    intro s u w p i cls q udp c k d to_ announce m f hdr ed x y hp hto hx hd hq hannounce hsync hf hhdr hw
    have hfields : m = dueBody s p i cls to_ announce ∧ udp = duePort announce ∧ c = dueClass s i announce ∧ ed = dueEdits s i announce
        ∧ y = dueSeq x announce ∧ k = dueCtr announce := by
      subst hx
      cases announce with
      | true => exact hannounce rfl
      | false =>
        obtain ⟨hm, hudp, hc, hy, hk, hed⟩ := hsync rfl
        exact ⟨hm, hudp, hc, hed, hy, hk⟩
    obtain ⟨rfl, rfl, rfl, rfl, rfl, rfl⟩ := hfields
    subst hd hq hx
    have hframe : f = dueFrame s p i cls to_ announce (draw s).1 := hf
    have hdr_eq : hdr = dueHdr s i announce f := hhdr
    refine ⟨fun hi hv hdeck hdest hdue hheld => ?served, fun hnone hsilent => ?silent, fun e n he hn hb hended => ?ended⟩
    case served =>
      have hmay : MaySend s p i to_ announce := ⟨hi, hv, hdeck, hdest, hdue, hheld⟩
      refine ⟨fun hempty hnext => ⟨fun hc htake hnew htx => ?_, fun hc hadmit => ?_, fun hc => ?_⟩, exec_ptpMessageDue_late hp hto hmay⟩
      · rw [hdr_eq] at htake
        obtain ⟨hrun, g, hg, htaken⟩ := exec_ptpMessageDue_taken hp hto hmay hempty hnext hw hc hframe htake hnew htx rfl
        exact ⟨_, g, hrun, rfl, hg, htaken⟩
      · rw [hdr_eq] at hadmit
        exact exec_ptpMessageDue_refused hp hto hmay hempty hnext hw hc hframe hadmit
      · exact exec_ptpMessageDue_silent hp hto hmay hempty hnext hw hc
    case silent =>
      subst hnone
      refine exec_ptpMessageDue hp hto (ptpDueOp_unserved announce fun j hj hvalid => ?_) rfl
      rcases hsilent with h | h
      · exact absurd (hj.symm.trans h) (by simp)
      · exact absurd (hvalid.symm.trans h) (by decide)
    case ended =>
      subst he
      exact exec_ptpMessageDue hp hto ((ptpDueOp_unserved announce fun j _ _ => destOk_ended hn hb hended j).trans (unicastExpire_ended hn hb hended)) rfl
  case stamps =>
    intro s v w o q x ho
    refine ⟨fun hnone => exec_txStampReturn ho (stampReturnOp_none hnone) rfl, fun hx hv => ?_⟩
    have hop := stampReturnOp_some hx
    obtain rfl : v = stampTaken s x := hv
    refine ⟨fun hcls r hr => ?item, fun hcls hnone => ?dropped, fun hcls hvalid hdue hnext hheld hw i u f hi hq hf htake hnew htx => ?followUp⟩
    case item =>
      subst hr
      refine ⟨exec_txStampReturn ho (hop.trans (if_pos hcls)) (keepFixed_obs (s := stampTaken s x) (SameButObs.ringWrite _ _ _ _)), fun kept lost hslots hroom => ?_⟩
      exact stampItem_joins (v := stampTaken s x) hslots hroom
    case dropped =>
      refine exec_txStampReturn ho (hop.trans ((if_neg hcls).trans (if_neg ?_))) rfl
      rcases hnone with h | h
      · simp [h]
      · simp [h]
    case followUp =>
      subst hq
      obtain rfl : w = stampSpaced s x := hw
      have hsend : stampReturnOp s o = sendFollowUp (stampSpaced s x) x := by
        rw [hop, if_neg hcls, hi, hvalid, if_pos (by rfl)]
        exact genDueOp_sends (s := stampTaken s x) (.followUp x) hheld hdue hnext
      have hfollow := sendFollowUp_sends (w := stampSpaced s x) hi hvalid hf rfl rfl htake
      have hfree : inTx (stampTaken s x) (tiR s i 10 2) s.frameNo = false := (inTx_stampTaken _ _).trans htx
      obtain ⟨hpot, -, ⟨g, hg, hid⟩, hall⟩ := injectFrame_takes htake hnew hfree
      obtain ⟨hbytes, -, hvisible, hwhole, -, -⟩ := hall g hg hid
      refine ⟨_, g, seqOf s x.port, exec_txStampReturn ho (hsend.trans hfollow) (inject_keeps hpot x.port _ _), rfl, rfl, hg, hbytes, hvisible, hwhole, ?_⟩
      exact (congrArg PortState.stamps (hpot.portOf x.port)).trans stampTaken_stamps

end Sys2Proof.Machine
end

section
/-!
PROOFS. Links that come up, go down and renegotiate (05_ports_and_lanes.md R104, R105, R115).
-/
namespace Sys2Proof.Machine

open Sys2Proof

theorem keepFixed_trans {s t u : State} (h : keepFixed s t = t) (k : keepFixed t u = u) : keepFixed s u = u := by
  obtain ⟨h1, h2, h3, h4, h5, h6⟩ := keepFixed_fields h
  obtain ⟨k1, k2, k3, k4, k5, k6⟩ := keepFixed_fields k
  exact keepFixed_of ⟨k1.trans h1, k2.trans h2, k3.trans h3, k4.trans h4, k5.trans h5, k6.trans h6⟩

theorem portStarted_iff {s : State} {p : Nat} : portStarted s p = true ↔
    isPort s p = true ∧ portShut s p = false ∧ dieHeld s (p / 32) = false ∧ s.rst.goHeld = false ∧ groupOf p ∉ s.rst.groupsDue := by
  simp [portStarted, and_assoc]

theorem portOf_linkDownOp {s : State} {p : Nat} (h : (portOf s p).up = true) :
    portOf (linkDownOp s p) p = { portOf s p with up := false, anState := b2n (portStarted s p && portAn s p), xoff := 0, paused := [] } := by
  rw [linkDownOp_up h, setPort_portOf, if_pos rfl]

theorem linkDownOp_queues (s : State) (p : Nat) : (linkDownOp s p).queues = s.queues := by
  by_cases h : (portOf s p).up = true
  · rw [linkDownOp_up h]; rfl
  · rw [show linkDownOp s p = s from if_neg h]

/-- A link that is down has no frame to lose. -/
theorem linkLost_down {s : State} {p : Nat} (h : (portOf s p).up = false) : linkLost s p = s := by
  simp [linkLost, h]

theorem abortHead_nil {s : State} {p : Nat} (h : (portOf s p).txq = []) : abortHead s p = s := by
  unfold abortHead
  dsimp only
  rw [h]

/-- The head frame is off the queue; the pot keeps what it holds of a frame that has ended and frees any other. -/
theorem abortHead_cons {s : State} {p : Nat} {e : TxFrame} {rest : List TxFrame} (h : (portOf s p).txq = e :: rest) :
    portOf (abortHead s p) p = { portOf s p with txq := rest }
    ∧ (e.pkt.ended = true → (abortHead s p).queues = s.queues)
    ∧ (e.pkt.ended = false → potFrame (abortHead s p) e.pkt.queue e.frame = none)
    ∧ keepFixed s (abortHead s p) = abortHead s p := by
  have hport := setPort_portOf' (bump s (aPortCtr p 30)) p { portOf s p with txq := rest }
  have hkeep : keepFixed s (setPort (bump s (aPortCtr p 30)) p { portOf s p with txq := rest })
      = setPort (bump s (aPortCtr p 30)) p { portOf s p with txq := rest } := rfl
  have hop : abortHead s p = if e.pkt.ended then setPort (bump s (aPortCtr p 30)) p { portOf s p with txq := rest }
      else frameOut (setPort (bump s (aPortCtr p 30)) p { portOf s p with txq := rest }) e.pkt.queue e.frame (pktEpoch e.pkt) := by
    unfold abortHead
    dsimp only
    rw [h]
  rw [hop]
  cases e.pkt.ended with
  | true => exact ⟨hport, fun _ => rfl, Bool.noConfusion, hkeep⟩
  | false =>
    obtain ⟨-, -, -, hout, -⟩ := frameOut_rest (setPort (bump s (aPortCtr p 30)) p { portOf s p with txq := rest }) e.pkt.queue e.frame (pktEpoch e.pkt)
    exact ⟨(frameOut_portOf ..).trans hport, Bool.noConfusion, fun _ => potFrame_frameOut .., keepFixed_of (keepFixed_fields hout)⟩

/-- Settles O41: each command's operation on the one port. -/
theorem linksComeUpGoDownAndRenegotiate : Obligations.LinksComeUpGoDownAndRenegotiate := by
  unfold Obligations.LinksComeUpGoDownAndRenegotiate
  rintro s p _ hp rfl
  have hwf : decide (p < 256) = true := decide_eq_true hp
  have hup {t : State} (h : linkUpOp s p = t) (k : keepFixed s t = t) : exec (.linkUp p) s = .next t :=
    cmd_run (i := .linkUp p) (f := fun s => linkUpOp s p) hwf h k
  have hdown {t : State} (h : linkLost s p = t) (k : keepFixed s t = t) : exec (.linkDown p) s = .next t :=
    cmd_run (i := .linkDown p) (f := fun s => linkLost s p) hwf h k
  have han {t : State} (h : anRestart s p = t) (k : keepFixed s t = t) : exec (.autonegRestart p) s = .next t :=
    cmd_run (i := .autonegRestart p) (f := fun s => anRestart s p) hwf h k
  refine ⟨portStarted_iff, fun hst hx => hup (by simp [linkUpOp, hst, hx]) rfl,
    fun h => hup (by rcases h with h | h <;> simp [linkUpOp, h]) rfl, fun hx hq => ?empty, fun e rest hx hq => ?lost,
    fun hx => hdown (linkLost_down hx) rfl, fun hst hn hx => han (by simp [anRestart, hst, hn, hx]) rfl,
    fun h => han (by rcases h with h | h | h <;> simp [anRestart, h]) rfl⟩
  case empty =>
    refine hdown ?_ rfl
    rw [linkLost, if_pos hx, abortHead_nil (by rw [portOf_linkDownOp hx]; exact hq), linkDownOp_up hx]
  case lost =>
    have hport := portOf_linkDownOp hx
    have hqueue : (portOf (linkDownOp s p) p).txq = e :: rest := by rw [hport]; exact hq
    obtain ⟨hout, hended, hcut, hkeep⟩ := abortHead_cons hqueue
    have hk : keepFixed s (linkDownOp s p) = linkDownOp s p := by rw [linkDownOp_up hx]; rfl
    refine ⟨_, hdown (if_pos hx) ?_, by rw [hout, hport], fun h => (hended h).trans (linkDownOp_queues s p), hcut⟩
    exact keepFixed_trans hk hkeep

end Sys2Proof.Machine
end

section
/-!
PROOFS. PAUSE and PFC, received, expiring, sent and repeated, and the gates that every received frame passes
(05_ports_and_lanes.md R108, R111, R112, R114, R116).
-/
namespace Sys2Proof.Machine

open Sys2Proof

/-! ## The gates of the receive MAC (R114, R116) -/

/-- A loopback at the near end replaces what the peer sends. -/
def loopsNear (s : State) (p : Nat) : Bool := (portLoops s p).any fun l => l == 1 || l == 2

/-- What arrives is counted in HOLD_DROP. -/
def portHolds (s : State) (p : Nat) : Bool := held s || !portEnabled s p || foldOfHand s (p / 8) != .open_

theorem loopsNear_iff {s : State} {p : Nat} : loopsNear s p = true ↔ 1 ∈ portLoops s p ∨ 2 ∈ portLoops s p := by
  simp only [loopsNear, List.any_eq_true, Bool.or_eq_true, beq_iff_eq]
  constructor
  · rintro ⟨l, hl, rfl | rfl⟩
    · exact .inl hl
    · exact .inr hl
  · rintro (h | h)
    · exact ⟨1, h, .inl rfl⟩
    · exact ⟨2, h, .inr rfl⟩

theorem loopsNear_eq_false {s : State} {p : Nat} (h1 : 1 ∉ portLoops s p) (h2 : 2 ∉ portLoops s p) : loopsNear s p = false := by
  rw [← Bool.not_eq_true, loopsNear_iff]
  simp [h1, h2]

theorem portHolds_iff {s : State} {p : Nat} :
    portHolds s p = true ↔ held s = true ∨ portEnabled s p = false ∨ foldOfHand s (p / 8) ≠ .open_ := by
  simp [portHolds, or_assoc]

theorem portHolds_eq_false {s : State} {p : Nat} (hheld : held s = false) (hen : portEnabled s p = true) (hfold : foldOfHand s (p / 8) = .open_) :
    portHolds s p = false := by
  simp [portHolds, hheld, hen, hfold]

theorem macControl_eq (s : State) (p : Nat) (obey : State → State) :
    macControl s p obey = if (!portOpen s p || loopsNear s p) = true then s else if portHolds s p then bump s (aPortCtr p 9) else obey s := rfl

theorem macControl_looped {s : State} {p : Nat} (obey : State → State) (h : loopsNear s p = true) : macControl s p obey = s := by
  rw [macControl_eq, h, Bool.or_true, if_pos rfl]

theorem macControl_held {s : State} {p : Nat} (obey : State → State) (ho : portOpen s p = true) (hl : loopsNear s p = false)
    (h : portHolds s p = true) : macControl s p obey = bump s (aPortCtr p 9) := by
  rw [macControl_eq, ho, hl, h]; rfl

theorem macControl_obeys {s : State} {p : Nat} (obey : State → State) (ho : portOpen s p = true) (hl : loopsNear s p = false)
    (h : portHolds s p = false) : macControl s p obey = obey s := by
  rw [macControl_eq, ho, hl, h]; rfl

/-! ## PFC received (R112) -/

/-- What one class of a received PFC frame does. -/
def rxPfcClass (p enable : Nat) (quanta : List Nat) (s : State) (c : Nat) : State :=
  if bit enable c then
    let s := bump s (aPortCtr p (12 + c))
    if portFc s p == 2 then
      let x := portOf s p
      let q := nth quanta c 0
      setPort s p { x with paused := if q = 0 then kdel x.paused c else kset x.paused c q }
    else s
  else s

theorem rxPfc_eq (s : State) (p enable : Nat) (quanta : List Nat) :
    rxPfc s p enable quanta = (List.range 8).foldl (rxPfcClass p enable quanta) s := rfl

/-- `t` is `s` but for its registers and its ports. -/
def SameButPorts (s t : State) : Prop := t = { s with regs := t.regs, ports := t.ports }

theorem SameButPorts.trans {s t u : State} (h : SameButPorts s t) (k : SameButPorts t u) : SameButPorts s u := by
  unfold SameButPorts at *
  rw [k, h]

theorem SameButPorts.portFc {s t : State} (h : SameButPorts s t) (p : Nat) : portFc t p = portFc s p := by
  unfold SameButPorts at h
  rw [h]; rfl

/-- The port after some classes of the frame: each class of the frame among them counts once, and pauses or resumes under FC 2. -/
structure PfcTaken (p enable : Nat) (quanta : List Nat) (s t : State) (among : Nat → Prop) [DecidablePred among] : Prop where
  frame : SameButPorts s t
  ports : portFc s p ≠ 2 → t.ports = s.ports
  paused : portFc s p = 2 → ∀ c, kget (portOf t p).paused c = if among c ∧ bit enable c = true then
    (if nth quanta c 0 = 0 then none else some (nth quanta c 0)) else kget (portOf s p).paused c
  counted : ∀ c, regRaw t (aPortCtr p (12 + c)) 0 = if among c ∧ bit enable c = true then
    regRaw (bump s (aPortCtr p (12 + c))) (aPortCtr p (12 + c)) 0 else regRaw s (aPortCtr p (12 + c)) 0

theorem regRaw_bump_congr {s t : State} {a : Nat} (h : regRaw t a 0 = regRaw s a 0) : regRaw (bump t a) a 0 = regRaw (bump s a) a 0 := by
  simp only [bump, bumpBy, regRaw_setReg_same, h]

/-- A class pauses for its quanta; quanta of 0 resume it. -/
theorem kget_pause (m : KMap Nat) (c e q : Nat) :
    kget (if q = 0 then kdel m c else kset m c q) e = if e = c then (if q = 0 then none else some q) else kget m e := by
  split
  · exact kget_kdel ..
  · exact kget_kset ..

theorem PfcTaken.one (p enable : Nat) (quanta : List Nat) (s : State) (c : Nat) :
    PfcTaken p enable quanta s (rxPfcClass p enable quanta s c) (· = c) := by
  unfold rxPfcClass
  by_cases hb : bit enable c = true
  · have hcount (e : Nat) : regRaw (bump s (aPortCtr p (12 + c))) (aPortCtr p (12 + e)) 0
        = if e = c ∧ bit enable e = true then regRaw (bump s (aPortCtr p (12 + e))) (aPortCtr p (12 + e)) 0 else regRaw s (aPortCtr p (12 + e)) 0 := by
      by_cases he : e = c
      · subst he; rw [if_pos ⟨rfl, hb⟩]
      · rw [if_neg fun h => he h.1, regRaw_bump_ne _ (by unfold aPortCtr; omega)]
    have hfc : portFc (bump s (aPortCtr p (12 + c))) p = portFc s p := rfl
    rw [if_pos hb]
    dsimp only
    by_cases h2 : portFc s p = 2
    · rw [if_pos (by rw [hfc, h2]; rfl)]
      refine ⟨rfl, fun h => absurd h2 h, fun _ e => ?_, hcount⟩
      rw [setPort_portOf, if_pos rfl]
      refine (kget_pause (portOf s p).paused c e (nth quanta c 0)).trans ?_
      by_cases he : e = c
      · simp [he, hb]
      · simp [he]
    · rw [if_neg (by rw [hfc]; simpa using h2)]
      exact ⟨rfl, fun _ => rfl, fun h => absurd h h2, hcount⟩
  · rw [if_neg hb]
    refine ⟨rfl, fun _ => rfl, fun _ e => (if_neg ?_).symm, fun e => (if_neg ?_).symm⟩ <;>
      (rintro ⟨rfl, h⟩; exact hb h)

theorem PfcTaken.classes (p enable : Nat) (quanta : List Nat) : ∀ (l : List Nat) (s : State), l.Nodup →
    PfcTaken p enable quanta s (l.foldl (rxPfcClass p enable quanta) s) (· ∈ l) := by
  intro l
  induction l with
  | nil => exact fun s _ => ⟨rfl, fun _ => rfl, fun _ c => by simp, fun c => by simp⟩
  | cons c l ih =>
    intro s hnd
    obtain ⟨hc, hnd⟩ := List.nodup_cons.1 hnd
    have h1 := PfcTaken.one p enable quanta s c
    have h2 := ih (rxPfcClass p enable quanta s c) hnd
    have hfc := h1.frame.portFc p
    rw [List.foldl_cons]
    refine ⟨h1.frame.trans h2.frame, fun h => (h2.ports (hfc ▸ h)).trans (h1.ports h), fun h e => ?_, fun e => ?_⟩
    · rw [h2.paused (hfc ▸ h), h1.paused h]
      by_cases he : e = c
      · subst he; simp [hc]
      · simp [he]
    · rw [h2.counted]
      by_cases he : e = c
      · subst he; simp [hc, h1.counted]
      · have hsame := h1.counted e
        rw [if_neg fun h => he h.1] at hsame
        rw [regRaw_bump_congr hsame, hsame]
        simp [he]

theorem nth_map {α β : Type} (f : α → β) (d : α) : ∀ (l : List α) (i : Nat), nth (l.map f) i (f d) = f (nth l i d)
  | [], _ => rfl
  | _ :: _, 0 => rfl
  | _ :: l, k + 1 => nth_map f d l k

/-! ## Flow control sent (R111) -/

/-- Classes that reach XOFF. -/
def fcOn (s : State) (p : Nat) : List Nat :=
  (fcClasses s p).filter fun c => !bit (portOf s p).xoff.toNat c && decide (xoffLane s p * portLanes s p ≤ fcLevel s p c)

/-- Classes held off that stand below XON. -/
def fcOff (s : State) (p : Nat) : List Nat :=
  (fcClasses s p).filter fun c => bit (portOf s p).xoff.toNat c && decide (fcLevel s p c < xonLane s p * portLanes s p)

/-- Classes held off that stand at or above XON. -/
def fcStays (s : State) (p : Nat) : List Nat :=
  (fcClasses s p).filter fun c => bit (portOf s p).xoff.toNat c && decide (xonLane s p * portLanes s p ≤ fcLevel s p c)

/-- The classes of one frame with their quanta: 0xFFFF to stop, 0 to go on. -/
def fcQuanta (on off : List Nat) : List (Nat × Nat) := on.map (fun c => (c, 0xFFFF)) ++ off.map fun c => (c, 0)

theorem fcRepeat_eq (s : State) (p : Nat) :
    fcRepeat s p = if (fcStays s p).isEmpty then s else sendFc s p ((fcStays s p).map fun c => (c, 0xFFFF)) := rfl

theorem flowControl_eq (s : State) (p : Nat) : flowControl s p = if (fcOn s p).isEmpty && (fcOff s p).isEmpty then s else
    sendFc (setPort s p { portOf s p with
      xoff := BitVec.ofNat 8 ((portOf s p).xoff.toNat + ((fcOn s p).map fun c => 2 ^ c).sum - ((fcOff s p).map fun c => 2 ^ c).sum) }) p
      (fcQuanta (fcOn s p) (fcOff s p)) := rfl

theorem fcClasses_pause {s : State} {p : Nat} (h : portFc s p = 1) : fcClasses s p = [0] := by simp [fcClasses, h]

/-- Only a port that runs flow control has classes to hold. -/
theorem portFc_of_fcClasses {s : State} {p : Nat} (h : fcClasses s p ≠ []) : portFc s p = 1 ∨ portFc s p = 2 := by
  by_contra hno
  rw [not_or] at hno
  exact h (by simp [fcClasses, hno.1, hno.2])

theorem portFc_of_filter {s : State} {p : Nat} {f : Nat → Bool} (h : (fcClasses s p).filter f ≠ []) : portFc s p = 1 ∨ portFc s p = 2 :=
  portFc_of_fcClasses fun h0 => h (by rw [h0]; rfl)

/-- Under pause the one class either stops or goes on, not both. -/
theorem fcQuanta_pause {s : State} {p : Nat} (h : portFc s p = 1) (hne : fcOn s p ≠ [] ∨ fcOff s p ≠ []) :
    (fcQuanta (fcOn s p) (fcOff s p)).map (·.2) = if fcOff s p = [] then [0xFFFF] else [0] := by
  revert hne
  unfold fcQuanta fcOn fcOff
  rw [fcClasses_pause h, List.filter_singleton, List.filter_singleton]
  cases bit (portOf s p).xoff.toNat 0 <;> cases decide (xoffLane s p * portLanes s p ≤ fcLevel s p 0)
    <;> cases decide (fcLevel s p 0 < xonLane s p * portLanes s p) <;> simp

/-- Under pause the one class that stays held is repeated. -/
theorem fcStays_pause {s : State} {p : Nat} (h : portFc s p = 1) (hne : fcStays s p ≠ []) :
    ((fcStays s p).map fun c => (c, 0xFFFF)).map (·.2) = [0xFFFF] := by
  revert hne
  unfold fcStays
  rw [fcClasses_pause h, List.filter_singleton]
  cases bit (portOf s p).xoff.toNat 0 && decide (xonLane s p * portLanes s p ≤ fcLevel s p 0) <;> simp

theorem fcQuanta_sum (on off : List Nat) :
    ((fcQuanta on off).map fun x => 2 ^ x.1).sum = (on.map fun c => 2 ^ c).sum + (off.map fun c => 2 ^ c).sum := by
  simp [fcQuanta, Function.comp_def]

/-- The frame that a port sends to its peer, by the kind of its flow control. -/
theorem sendFc_sent {s : State} {p : Nat} (on off : List Nat) (h : portFc s p = 1 ∨ portFc s p = 2) :
    (sendFc s p (fcQuanta on off)).ports = s.ports
    ∧ (portFc s p = 1 → (sendFc s p (fcQuanta on off)).sent = s.sent ++ [.flowControl p (portMac s p) none ((fcQuanta on off).map (·.2))])
    ∧ (portFc s p = 2 → (sendFc s p (fcQuanta on off)).sent = s.sent ++ [.flowControl p (portMac s p)
        (some (BitVec.ofNat 8 ((on.map fun c => 2 ^ c).sum + (off.map fun c => 2 ^ c).sum)))
        ((List.range 8).map fun c => if on.contains c then 0xFFFF else 0)])
    ∧ keepFixed s (sendFc s p (fcQuanta on off)) = sendFc s p (fcQuanta on off) := by
  rcases h with h | h
  · rw [sendFc_pause s p _ h, h]
    exact ⟨rfl, fun _ => rfl, fun h => absurd h (by decide), rfl⟩
  · obtain ⟨r, hr⟩ := sendFc_pfc s p (fcQuanta on off) h
    rw [hr, h]
    refine ⟨rfl, fun h => absurd h (by decide), fun _ => ?_, rfl⟩
    exact congrArg₂ (fun m l => s.sent ++ [Out.flowControl p (portMac s p) (some (BitVec.ofNat 8 m)) l]) (fcQuanta_sum on off)
      (List.map_congr_left fun c _ => find_pairs on off c)

/-! ## The commands -/

section Commands
variable {s : State} {p : Nat} (hp : p < 256)
include hp

theorem exec_pauseReceive (q : BitVec 16) {t : State} (h : macControl s p (fun s => rxPause s p q.toNat) = t) (k : keepFixed s t = t) :
    exec (.pauseReceive p q) s = .next t :=
  cmd_run (i := .pauseReceive p q) (f := fun s => macControl s p fun s => rxPause s p q.toNat) (decide_eq_true hp) h k

theorem exec_pfcReceive (enable : Byte) {quanta : List (BitVec 16)} (hq : quanta.length = 8) {t : State}
    (h : macControl s p (fun s => rxPfc s p enable.toNat (quanta.map (·.toNat))) = t) (k : keepFixed s t = t) :
    exec (.pfcReceive p enable quanta) s = .next t := by
  have hwf : (Instr.pfcReceive p enable quanta).wellFormed = true := by
    rw [Instr.wellFormed]
    exact Bool.and_eq_true_iff.2 ⟨decide_eq_true hp, beq_iff_eq.2 hq⟩
  dsimp only [exec, execPfcReceive]
  exact cmd_run hwf h k

theorem exec_flowControlSend {t : State} (h : (if portSends s p then flowControl s p else s) = t) (k : keepFixed s t = t) :
    exec (.flowControlSend p) s = .next t :=
  cmd_run (i := .flowControlSend p) (f := fun s => if portSends s p then flowControl s p else s) (decide_eq_true hp) h k

theorem exec_pfcRepeat {t : State} (h : (if portSends s p then fcRepeat s p else s) = t) (k : keepFixed s t = t) :
    exec (.pfcRepeat p) s = .next t :=
  cmd_run (i := .pfcRepeat p) (f := fun s => if portSends s p then fcRepeat s p else s) (decide_eq_true hp) h k

/-- A PAUSE frame past the gates (R108, R112). -/
theorem exec_pauseReceive_obeyed (ho : portOpen s p = true) (hl : loopsNear s p = false) (hh : portHolds s p = false) (q : BitVec 16) :
    exec (.pauseReceive p q) s = .next (if portFc s p = 1 then setPort (bump s (aPortCtr p 10)) p { portOf s p with
      paused := if q.toNat = 0 then [] else (List.range 8).map fun c => (c, q.toNat) } else bump s (aPortCtr p 10)) := by
  refine exec_pauseReceive hp q ((macControl_obeys _ ho hl hh).trans ?_) (by split <;> rfl)
  have hfc : portFc (bump s (aPortCtr p 10)) p = portFc s p := rfl
  simp only [rxPause, hfc, beq_iff_eq]
  rfl

/-- A PFC frame past the gates (R108, R112). -/
theorem exec_pfcReceive_obeyed (ho : portOpen s p = true) (hl : loopsNear s p = false) (hh : portHolds s p = false) (enable : Byte)
    {quanta : List (BitVec 16)} (hq : quanta.length = 8) : ∃ t, exec (.pfcReceive p enable quanta) s = .next t
      ∧ PfcTaken p enable.toNat (quanta.map (·.toNat)) s t (· ∈ List.range 8) := by
  have htaken := PfcTaken.classes p enable.toNat (quanta.map (·.toNat)) (List.range 8) s List.nodup_range
  have hkeep := htaken.frame
  unfold SameButPorts at hkeep
  exact ⟨_, exec_pfcReceive hp enable hq ((macControl_obeys _ ho hl hh).trans (rxPfc_eq ..)) (by rw [hkeep]; rfl), htaken⟩

/-- The classes that cross a threshold are signalled in one frame (R111). -/
theorem exec_flowControlSend_signals (hs : portSends s p = true) (hne : fcOn s p ≠ [] ∨ fcOff s p ≠ []) :
    ∃ t, exec (.flowControlSend p) s = .next t
      ∧ (portOf t p).xoff = BitVec.ofNat 8 ((portOf s p).xoff.toNat + ((fcOn s p).map fun c => 2 ^ c).sum - ((fcOff s p).map fun c => 2 ^ c).sum)
      ∧ (portFc s p = 1 → t.sent = s.sent ++ [.flowControl p (portMac s p) none (if fcOff s p = [] then [0xFFFF] else [0])])
      ∧ (portFc s p = 2 → t.sent = s.sent ++ [.flowControl p (portMac s p)
          (some (BitVec.ofNat 8 (((fcOn s p).map fun c => 2 ^ c).sum + ((fcOff s p).map fun c => 2 ^ c).sum)))
          ((List.range 8).map fun c => if (fcOn s p).contains c then 0xFFFF else 0)]) := by
  have hfc : portFc s p = 1 ∨ portFc s p = 2 := hne.elim portFc_of_filter portFc_of_filter
  have hop := flowControl_eq s p
  rw [if_neg (by simpa [List.isEmpty_iff, or_iff_not_imp_left] using hne)] at hop
  generalize hx : PortState.mk (portOf s p).up (portOf s p).anState (portOf s p).paused
    (BitVec.ofNat 8 ((portOf s p).xoff.toNat + ((fcOn s p).map fun c => 2 ^ c).sum - ((fcOff s p).map fun c => 2 ^ c).sum))
    (portOf s p).txq (portOf s p).stamps (portOf s p).gates = x at hop
  obtain ⟨hports, hpause, hpfc, hkeep⟩ := sendFc_sent (s := setPort s p x) (fcOn s p) (fcOff s p) hfc
  refine ⟨_, exec_flowControlSend hp ((if_pos hs).trans hop) (keepFixed_trans (t := setPort s p x) rfl hkeep), ?_, fun h => ?_, hpfc⟩
  · rw [portOf, hports]
    exact (congrArg PortState.xoff (setPort_portOf' s p x)).trans (hx ▸ rfl)
  · rw [← fcQuanta_pause h hne]
    exact hpause h

/-- The classes that stay held are repeated in one frame (R111). -/
theorem exec_pfcRepeat_repeats (hs : portSends s p = true) (hne : fcStays s p ≠ []) :
    ∃ t, exec (.pfcRepeat p) s = .next t ∧ t.ports = s.ports
      ∧ (portFc s p = 1 → t.sent = s.sent ++ [.flowControl p (portMac s p) none [0xFFFF]])
      ∧ (portFc s p = 2 → t.sent = s.sent ++ [.flowControl p (portMac s p) (some (BitVec.ofNat 8 ((fcStays s p).map fun c => 2 ^ c).sum))
          ((List.range 8).map fun c => if (fcStays s p).contains c then 0xFFFF else 0)]) := by
  have hop : fcRepeat s p = sendFc s p (fcQuanta (fcStays s p) []) := by
    rw [fcRepeat_eq, if_neg (by simpa using hne), fcQuanta, List.map_nil, List.append_nil]
  obtain ⟨hports, hpause, hpfc, hkeep⟩ := sendFc_sent (s := s) (fcStays s p) [] (portFc_of_filter hne)
  refine ⟨_, exec_pfcRepeat hp ((if_pos hs).trans hop) hkeep, hports, fun h => ?_, fun h => ?_⟩
  · rw [hpause h, fcQuanta, List.map_nil, List.append_nil, fcStays_pause h hne]
  · simpa using hpfc h

end Commands

/-- Settles O40: each command's gates, then what its frame or its thresholds do. -/
theorem flowControlIsReceivedAndSent : Obligations.FlowControlIsReceivedAndSent := by
  unfold Obligations.FlowControlIsReceivedAndSent
  intro s p hp ho
  refine ⟨fun hloop => ?looped, fun h1 h2 hhold => ?counted, fun h1 h2 hheld hen hfold => ?obeyed, fun c hc => ?expire,
    fun hs => ?silent, fun hs stopped on off w hst hw hon hoff => ?send, fun hs cs hcs => ?again⟩
  case looped =>
    have hl := loopsNear_iff.2 hloop
    exact ⟨fun q => exec_pauseReceive hp q (macControl_looped _ hl) rfl, fun e _ hq => exec_pfcReceive hp e hq (macControl_looped _ hl) rfl⟩
  case counted =>
    have hl := loopsNear_eq_false h1 h2
    have hh := portHolds_iff.2 hhold
    exact ⟨fun q => exec_pauseReceive hp q (macControl_held _ ho hl hh) rfl, fun e _ hq => exec_pfcReceive hp e hq (macControl_held _ ho hl hh) rfl⟩
  case obeyed =>
    have hl := loopsNear_eq_false h1 h2
    have hh := portHolds_eq_false hheld hen hfold
    refine ⟨fun q u x hu hx => by subst hu hx; exact exec_pauseReceive_obeyed hp ho hl hh q, fun enable quanta hq => ?_⟩
    obtain ⟨t, ht, htaken⟩ := exec_pfcReceive_obeyed hp ho hl hh enable hq
    have hnth (c : Nat) : nth (quanta.map (·.toNat)) c 0 = (nth quanta c 0).toNat := nth_map BitVec.toNat 0 quanta c
    refine ⟨t, ht, htaken.frame, htaken.ports, fun h c hc => ?_, fun c hc => ?_⟩
    · have := htaken.paused h c
      simpa only [hnth, List.mem_range, hc, true_and] using this
    · have := htaken.counted c
      simpa only [List.mem_range, hc, true_and] using this
  case expire =>
    exact cmd_run (i := .pauseExpire p c) (f := fun s => setPort s p { portOf s p with paused := kdel (portOf s p).paused c })
      (Bool.and_eq_true_iff.2 ⟨decide_eq_true hp, decide_eq_true hc⟩) rfl rfl
  case silent => exact ⟨exec_flowControlSend hp (by rw [hs]; rfl) rfl, exec_pfcRepeat hp (by rw [hs]; rfl) rfl⟩
  case send =>
    subst hst hw
    obtain rfl : on = fcOn s p := hon
    obtain rfl : off = fcOff s p := hoff
    refine ⟨fun h1 h2 => exec_flowControlSend hp ?_ rfl, exec_flowControlSend_signals hp hs⟩
    rw [if_pos hs, flowControl_eq, h1, h2]
    rfl
  case again =>
    obtain rfl : cs = fcStays s p := hcs
    refine ⟨fun h => exec_pfcRepeat hp ?_ rfl, exec_pfcRepeat_repeats hp hs⟩
    rw [if_pos hs, fcRepeat_eq, h]
    rfl

end Sys2Proof.Machine
end

section
/-!
PROOFS. The receive MAC counts a frame and the rate buffer admits it (05_ports_and_lanes.md R106 to R110, R114, R116).
-/
namespace Sys2Proof.Machine

open Sys2Proof

/-! ## The gates -/

theorem macReceive_eq (s : State) (p : Nat) (f : List Byte) (fin : FrameEnd) :
    macReceive s p f fin = if (!portOpen s p || loopsNear s p) = true then s else if portHolds s p then
      (if (portLoops s p).all (· == 3) then { bump s (aPortCtr p 9) with sent := s.sent ++ [.frame p f (!fcsGood fin)] } else bump s (aPortCtr p 9))
    else macAccept s p f fin := rfl

theorem macReceive_shut {s : State} {p : Nat} (f : List Byte) (fin : FrameEnd) (h : portOpen s p = false ∨ loopsNear s p = true) :
    macReceive s p f fin = s := by
  rw [macReceive_eq, if_pos (by rcases h with h | h <;> simp [h])]

theorem macReceive_held {s : State} {p : Nat} (f : List Byte) (fin : FrameEnd) (ho : portOpen s p = true) (hl : loopsNear s p = false)
    (hh : portHolds s p = true) : macReceive s p f fin =
      if (portLoops s p).all (· == 3) then { bump s (aPortCtr p 9) with sent := s.sent ++ [.frame p f (!fcsGood fin)] } else bump s (aPortCtr p 9) := by
  rw [macReceive_eq, ho, hl, hh]; rfl

theorem macReceive_accepts {s : State} {p : Nat} (f : List Byte) (fin : FrameEnd) (ho : portOpen s p = true) (hl : loopsNear s p = false)
    (hh : portHolds s p = false) : macReceive s p f fin = macAccept s p f fin := by
  rw [macReceive_eq, ho, hl, hh]; rfl

/-! ## Past the gates (R106 to R108) -/

section Accept
variable {s : State} {p : Nat} {f : List Byte} {fin : FrameEnd}

theorem macAccept_runt (hfin : fin ≠ .aborted) (h : f.length + 4 < 64) : macAccept s p f fin = bump s (aPortCtr p 5) := by
  simp [macAccept, hfin, h]

theorem macAccept_gone (h : f.length + 4 < 128) (hmax : f.length + 4 ≤ maxFrame s p) : macAccept s p f .aborted = bump s (aPortCtr p 7) := by
  simp [macAccept, oversize, h, Nat.not_lt.2 hmax]

theorem macAccept_badControl (hbad : fcsGood fin = false) (hfin : fin ≠ .aborted) (hlen : 64 ≤ f.length + 4) (hmax : f.length + 4 ≤ maxFrame s p)
    (htype : etherType f = 0x8808) : macAccept s p f fin = bump s (aPortCtr p 4) := by
  simp [macAccept, oversize, hfin, Nat.not_lt.2 hlen, Nat.not_lt.2 hmax, htype, hbad]

theorem macAccept_badShort (hbad : fcsGood fin = false) (hfin : fin ≠ .aborted) (hlen : 64 ≤ f.length + 4) (hshort : f.length + 4 < 128)
    (hmax : f.length + 4 ≤ maxFrame s p) : macAccept s p f fin = bump s (aPortCtr p 4) := by
  by_cases htype : etherType f = 0x8808
  · exact macAccept_badControl hbad hfin hlen hmax htype
  · cases fin with
    | good | lateGood => exact absurd hbad (by decide)
    | aborted => exact absurd rfl hfin
    | bad | lateBad => simp [macAccept, oversize, Nat.not_lt.2 hlen, Nat.not_lt.2 hmax, htype, hshort]

theorem macAccept_good (hlen : 64 ≤ f.length + 4) (hmax : f.length + 4 ≤ maxFrame s p) (htype : etherType f ≠ 0x8808) :
    macAccept s p f .good = admitRb (countRx s p (f.length + 4)) p f .good := by
  simp [macAccept, oversize, Nat.not_lt.2 hlen, Nat.not_lt.2 hmax, htype]

end Accept

/-! ## The rate buffer (R110) -/

/-- A lossy frame of class `c` finds the port's lossy share used. -/
def lossyFull (s : State) (p c : Nat) : Bool := !lossless s p c && decide (lossyLane s p * portLanes s p ≤ lossyOcc s p)

/-- Entries of the port that are free. -/
def rbRoom (s : State) (p : Nat) : Nat := 256 * portLanes s p - portOcc s p

/-- What admission looks at is no register. -/
theorem SameButRegs.admission {s u : State} (h : SameButRegs s u) (p : Nat) (f : List Byte) (c : Nat) :
    frameClass u p f = frameClass s p f ∧ rbRoom u p = rbRoom s p ∧ lossyFull u p c = lossyFull s p c := by
  unfold SameButRegs at h
  rw [h]
  exact ⟨rfl, rfl, rfl⟩

theorem admitRb_refuses {s : State} {p : Nat} {f : List Byte} (h : rbRoom s p = 0 ∨ lossyFull s p (frameClass s p f) = true) :
    admitRb s p f .good = bump s (aPortCtr p 8) := by
  have hif : (!lossless s p (frameClass s p f) && decide (lossyLane s p * portLanes s p ≤ lossyOcc s p)
      || decide (256 * portLanes s p - portOcc s p = 0)) = true := by
    rw [Bool.or_eq_true, decide_eq_true_eq]
    exact h.symm
  exact if_pos hif

/-- A frame takes `n` entries and its place in its hand's rate buffer. -/
def rbEnter (s : State) (p c n : Nat) (f : List Byte) (fin : FrameEnd) : State :=
  let u := takeOcc s p c n
  pushRb u (p / 8) ⟨p, f, fin, c, n, stampNow u p false, none, u.clk⟩

section Admit
variable {s : State} {p : Nat} {f : List Byte} (hroom : rbRoom s p ≠ 0) (hfull : lossyFull s p (frameClass s p f) = false)
include hroom hfull

theorem admitRb_open : ¬ (!lossless s p (frameClass s p f) && decide (lossyLane s p * portLanes s p ≤ lossyOcc s p)
    || decide (256 * portLanes s p - portOcc s p = 0)) = true := by
  rw [Bool.or_eq_true, decide_eq_true_eq]
  rintro (h | h)
  · exact Bool.false_ne_true (hfull.symm.trans h)
  · exact hroom h

theorem admitRb_whole (hfit : cdiv (f.length + 4) 256 ≤ rbRoom s p) :
    admitRb s p f .good = rbEnter s p (frameClass s p f) (cdiv (f.length + 4) 256) f .good := by
  have hcut : (256 * portLanes s p - portOcc s p < cdiv (f.length + 4) 256) = False := eq_false (Nat.not_lt.2 hfit)
  have hmin : min (cdiv (f.length + 4) 256) (256 * portLanes s p - portOcc s p) = cdiv (f.length + 4) 256 := Nat.min_eq_left hfit
  unfold admitRb rbEnter
  dsimp only
  rw [if_neg (admitRb_open hroom hfull)]
  simp only [hcut, hmin, if_false]

/-- A frame that outgrows the room is truncated, marked bad and counted. -/
theorem admitRb_cut (hcut : rbRoom s p < cdiv (f.length + 4) 256) :
    admitRb s p f .good = rbEnter (bump s (aPortCtr p 8)) p (frameClass s p f) (rbRoom s p) (f.take (256 * rbRoom s p)) .bad := by
  have hcut' : (256 * portLanes s p - portOcc s p < cdiv (f.length + 4) 256) = True := eq_true hcut
  have hmin : min (cdiv (f.length + 4) 256) (256 * portLanes s p - portOcc s p) = rbRoom s p := Nat.min_eq_right (Nat.le_of_lt hcut)
  unfold admitRb rbEnter
  dsimp only
  rw [if_neg (admitRb_open hroom hfull)]
  simp only [hcut', hmin, if_true, countLate, rbRoom]

end Admit

/-- What a frame's entry changes: the entries of its class, and its place in its hand's rate buffer. -/
theorem rbEnter_frame (s : State) (p c : Nat) {n : Nat} (f : List Byte) (fin : FrameEnd) (hn : n ≠ 0) :
    (rbEnter s p c n f fin).regs = s.regs
    ∧ (∀ k, kget (rbEnter s p c n f fin).occ k = if k = 8 * p + c then some (occOf s p c + n) else kget s.occ k)
    ∧ (∀ h, kget (rbEnter s p c n f fin).rb h = if h = p / 8
        then some (placeRb (kgetD s.rb (p / 8) []) ⟨p, f, fin, c, n, stampNow s p false, none, s.clk⟩) else kget s.rb h)
    ∧ keepFixed s (rbEnter s p c n f fin) = rbEnter s p c n f fin := by
  obtain ⟨u, hu⟩ : ∃ u, u = setOcc s p c (occOf s p c + n) := ⟨_, rfl⟩
  have htake : takeOcc s p c n = raiseHigh u (p / 8) (octetOcc u (p / 8)) := by rw [hu]; rfl
  obtain ⟨hocc, hrb, hregs, hclk, htime, hcold⟩ := raiseHigh_frame u (p / 8) (octetOcc u (p / 8))
  have hkeep : keepFixed u (raiseHigh u (p / 8) (octetOcc u (p / 8))) = raiseHigh u (p / 8) (octetOcc u (p / 8)) :=
    keepFixed_hbm (SameButHbm.raiseHigh ..)
  rw [← htake] at hocc hrb hregs hclk htime hcold hkeep
  have hstamp : stampNow (takeOcc s p c n) p false = stampNow s p false :=
    stampNow_congr (hregs.trans (hu ▸ rfl)) (htime.trans (hu ▸ rfl)) (hcold.trans (hu ▸ rfl)) p false
  have hkeep' : keepFixed s (takeOcc s p c n) = takeOcc s p c n := keepFixed_trans (hu ▸ rfl) hkeep
  have hrb' : (takeOcc s p c n).rb = s.rb := hrb.trans (hu ▸ rfl)
  have hclk' : (takeOcc s p c n).clk = s.clk := hclk.trans (hu ▸ rfl)
  have hregs' : (takeOcc s p c n).regs = s.regs := hregs.trans (hu ▸ rfl)
  have hocc' (k : Nat) : kget (takeOcc s p c n).occ k = if k = 8 * p + c then some (occOf s p c + n) else kget s.occ k := by
    rw [hocc, hu, setOcc_occ _ _ _ _ _ (by omega)]
  unfold rbEnter pushRb
  generalize takeOcc s p c n = v at *
  refine ⟨hregs', hocc', fun h => ?_, keepFixed_trans hkeep' rfl⟩
  dsimp only
  rw [kget_kset, hrb', hclk', hstamp]

/-! ## The command -/

theorem exec_macFrameReceive {s : State} {p : Nat} (hp : p < 256) (f : List Byte) (fin : FrameEnd) {t : State}
    (h : macReceive s p f fin = t) (k : keepFixed s t = t) : exec (.macFrameReceive p f fin) s = .next t := by
  dsimp only [exec, execMacFrameReceive]
  exact cmd_run (decide_eq_true hp) h k

/-- A good frame that the gates let pass and the port's share has room for. -/
theorem exec_macFrameReceive_admits {s : State} {p : Nat} {f : List Byte} {u : State} {c room need : Nat} (hp : p < 256)
    (hgates : macReceive s p f .good = admitRb u p f .good) (hu : SameButRegs s u) (hc : c = frameClass u p f)
    (hr : room = rbRoom u p) (hneed : need = cdiv (f.length + 4) 256) (hroom : room ≠ 0) (hfull : lossyFull u p c = false) :
    ∃ t, exec (.macFrameReceive p f .good) s = .next t
      ∧ kget t.occ (8 * p + c) = some (occOf s p c + min need room)
      ∧ (∀ k, k ≠ 8 * p + c → kget t.occ k = kget s.occ k)
      ∧ (∀ h, h ≠ p / 8 → kget t.rb h = kget s.rb h)
      ∧ (need ≤ room → t.regs = u.regs ∧ kget t.rb (p / 8) = some (placeRb (kgetD s.rb (p / 8) [])
          ⟨p, f, .good, c, need, stampNow u p false, none, s.clk⟩))
      ∧ (room < need → t.regs = (bump u (aPortCtr p 8)).regs ∧ kget t.rb (p / 8) = some (placeRb (kgetD s.rb (p / 8) [])
          ⟨p, f.take (256 * room), .bad, c, room, stampNow (bump u (aPortCtr p 8)) p false, none, s.clk⟩)) := by
  subst hr hc
  have hrb : u.rb = s.rb ∧ u.occ = s.occ ∧ u.clk = s.clk ∧ keepFixed s u = u := by
    unfold SameButRegs at hu
    exact ⟨by rw [hu], by rw [hu], by rw [hu], by rw [hu]; rfl⟩
  obtain ⟨hrb, hocc, hclk, hkeep⟩ := hrb
  have hof : occOf u p (frameClass u p f) = occOf s p (frameClass u p f) := by rw [occOf, hocc, occOf]
  by_cases hfit : need ≤ rbRoom u p
  · have hn : need ≠ 0 := by rw [hneed, cdiv]; omega
    have hop := admitRb_whole hroom hfull (hneed ▸ hfit)
    rw [← hneed] at hop
    obtain ⟨eregs, eocc, erb, ekeep⟩ := rbEnter_frame u p (frameClass u p f) f .good hn
    refine ⟨_, exec_macFrameReceive hp f .good (hgates.trans hop) (keepFixed_trans hkeep ekeep), ?_, fun k hk => ?_, fun h hh => ?_,
      fun _ => ⟨eregs, ?_⟩, fun h => absurd h (Nat.not_lt.2 hfit)⟩
    · rw [eocc, if_pos rfl, hof, Nat.min_eq_left hfit]
    · rw [eocc, if_neg hk, hocc]
    · rw [erb, if_neg hh, hrb]
    · rw [erb, if_pos rfl, hrb, hclk]
  · have hcut := Nat.not_le.1 hfit
    have hop := admitRb_cut hroom hfull (hneed ▸ hcut)
    obtain ⟨eregs, eocc, erb, ekeep⟩ := rbEnter_frame (bump u (aPortCtr p 8)) p (frameClass u p f) (f.take (256 * rbRoom u p)) .bad hroom
    refine ⟨_, exec_macFrameReceive hp f .good (hgates.trans hop) (keepFixed_trans (keepFixed_bump hkeep _) ekeep), ?_, fun k hk => ?_, fun h hh => ?_,
      fun h => absurd h hfit, fun _ => ⟨eregs, ?_⟩⟩
    · rw [eocc, if_pos rfl, Nat.min_eq_right (Nat.le_of_lt hcut), ← hof]; rfl
    · rw [eocc, if_neg hk, ← hocc]; rfl
    · rw [erb, if_neg hh, ← hrb]; rfl
    · rw [erb, if_pos rfl, ← hrb, ← hclk]; rfl

/-- Settles O39: the gates in their order, then each kind of frame, and the room that a good one finds. -/
theorem receivedFramesAreCountedAndAdmitted : Obligations.ReceivedFramesAreCountedAndAdmitted := by
  unfold Obligations.ReceivedFramesAreCountedAndAdmitted
  intro s p f fin hp
  refine ⟨fun h => exec_macFrameReceive hp f fin (macReceive_shut f fin (h.imp_right loopsNear_iff.2)) rfl,
    fun ho h1 h2 hh => exec_macFrameReceive hp f fin (macReceive_held f fin ho (loopsNear_eq_false h1 h2) (portHolds_iff.2 hh)) (by split <;> rfl),
    fun ho h1 h2 hheld hen hfold => ?_⟩
  have hgates := fun fin => macReceive_accepts f fin ho (loopsNear_eq_false h1 h2) (portHolds_eq_false hheld hen hfold)
  refine ⟨fun hfin hlen hmax => ?gone, fun hbad hfin hlen hmax htype => ?control, fun hfin hlen => ?runt,
    fun hbad hfin hlen hshort hmax => ?short, fun hfin hlen hmax htype u c room need hu hc hroom hneed => ?good⟩
  case gone =>
    subst hfin
    exact exec_macFrameReceive hp f _ ((hgates _).trans (macAccept_gone hlen hmax)) rfl
  case control => exact exec_macFrameReceive hp f fin ((hgates _).trans (macAccept_badControl hbad hfin hlen hmax htype)) rfl
  case runt => exact exec_macFrameReceive hp f fin ((hgates _).trans (macAccept_runt hfin hlen)) rfl
  case short => exact exec_macFrameReceive hp f fin ((hgates _).trans (macAccept_badShort hbad hfin hlen hshort hmax)) rfl
  case good =>
    subst hfin
    have hop : macReceive s p f .good = admitRb u p f .good := by
      rw [hgates, macAccept_good hlen hmax htype, hu]; rfl
    have hsame : SameButRegs s u := by rw [hu]; rfl
    obtain ⟨hclass', hr', hfull⟩ := SameButRegs.admission hsame p f c
    have hclass : c = frameClass u p f := hc.trans hclass'.symm
    have hr : room = rbRoom u p := hroom.trans hr'.symm
    refine ⟨fun h => ?refused, fun hfits hpos => ?taken⟩
    case refused =>
      refine exec_macFrameReceive hp f _ (hop.trans (admitRb_refuses ?_)) (keepFixed_bump (keepFixed_hbm hsame.hbm) _)
      rw [← hclass, ← hr, hfull, lossyFull]
      simpa using h
    case taken =>
      refine exec_macFrameReceive_admits hp hop hsame hclass hr hneed (Nat.pos_iff_ne_zero.1 hpos) ?_
      rw [hfull, lossyFull]
      rcases hfits with h | h
      · simp [h]
      · simp [Nat.not_le.2 h]

end Sys2Proof.Machine
end

section
/-!
PROOFS. Lane tests, eye scans, lane groups and port control (05_ports_and_lanes.md R114 to R118; Table 17.4).
-/
namespace Sys2Proof.Machine

open Sys2Proof

/-! ## Lane tests (R116) -/

section LaneTest
variable {s t : State} {n l : Nat} (h : ready s n 2) (hl : l < 256)
include h hl

/-- A session's WRITE of LANE.TEST. -/
theorem writeCmd_laneTest {v : Nat} (hv : v < 2 ^ 64) (he : wrLaneTest s l v = t) (hz : t.zat.sessions = s.zat.sessions) :
    writeCmd s n (aLane l + 8) v = answer t n 0x09 (aLane l + 8) stOk [] :=
  writeReg_run h (regPlace_lane (w := 8) (by omega) (.inl ⟨rfl, rfl⟩)) h.2.2 hv
    ((congrArg (Prod.mk stOk) (if_pos hl)).trans (congrArg (Prod.mk stOk) he)) hz

theorem exec_laneTestWrite (value : W64) (he : wrLaneTest s l value.toNat = t) (hk : keepFixed s t = t) (hz : t.zat.sessions = s.zat.sessions) :
    exec (.laneTestWrite n l value) s = .next (answer t n 0x09 (aLane l + 8) stOk []) := by
  dsimp only [exec, execLaneTestWrite]
  exact cmd_run (Bool.and_eq_true_iff.2 ⟨h.1, decide_eq_true hl⟩) (writeCmd_laneTest h hl value.isLt he hz) (keepFixed_answer hk ..)

theorem exec_prbsInject (he : wrLaneTest s l (2 ^ 10 + regRaw s (aLane l + 8) 0 % 2 ^ 10) = t) (hk : keepFixed s t = t)
    (hz : t.zat.sessions = s.zat.sessions) : exec (.prbsInject n l) s = .next (answer t n 0x09 (aLane l + 8) stOk []) := by
  dsimp only [exec, execPrbsInject]
  exact cmd_run (Bool.and_eq_true_iff.2 ⟨h.1, decide_eq_true hl⟩) (writeCmd_laneTest h hl (by omega) he hz) (keepFixed_answer hk ..)

end LaneTest

/-- INJECT written over the test word that stands. -/
theorem bits_inject (v : Nat) : bits (2 ^ 10 + v % 2 ^ 10) 9 0 = v % 2 ^ 10 ∧ bits v 9 0 = v % 2 ^ 10 := by
  simp only [bits]
  omega

theorem bit_inject (v : Nat) : bit (2 ^ 10 + v % 2 ^ 10) 10 = true :=
  beq_iff_eq.2 (by omega)

theorem testWord_inject (s : State) (l v : Nat) : testWord s l (2 ^ 10 + v % 2 ^ 10) = testWord s l v := by
  rw [← testWord_low s l (2 ^ 10 + v % 2 ^ 10), ← testWord_low s l v, (bits_inject v).1, (bits_inject v).2]

/-! ## Eye scans (R117) -/

theorem exec_eyeScanStart {s t : State} {n l : Nat} {value : W64} (h : ready s n 2) (hl : l < 258) (he : wrEyeCtl s l value.toNat = t)
    (hk : keepFixed s t = t) (hz : t.zat.sessions = s.zat.sessions) :
    exec (.eyeScanStart n l value) s = .next (answer t n 0x09 (aLane l + 0x18) stOk []) := by
  dsimp only [exec, execEyeScanStart]
  exact cmd_writeReg (Bool.and_eq_true_iff.2 ⟨h.1, decide_eq_true hl⟩) h (regPlace_lane hl (.inr ⟨rfl, rfl⟩)) h.2.2 value.isLt
    (congrArg (Prod.mk stOk) he) hk hz

theorem exec_eyeScanDone {s : State} {l e : Nat} (hl : l < 258) (he : e < 2 ^ 41) : exec (.eyeScanDone l e) s = .next (eyeDone s l e) := by
  dsimp only [exec, execEyeScanDone]
  exact cmd_run (Bool.and_eq_true_iff.2 ⟨decide_eq_true hl, decide_eq_true he⟩) rfl rfl

/-! ## Lane groups (R115) -/

theorem exec_bringupGo {s : State} {n : Nat} (h : ready s n 2) :
    exec (.bringupGo n) s = .next (answer { s with rst := { s.rst with goHeld := false } } n 0x09 0x080000000000 stOk []) := by
  dsimp only [exec, execBringupGo]
  have hwrite : regWrite s (actRow .bringup 0x080000000000) [] 0x080000000000 1 (levelOf s n) = (stOk, bringGo s) := by
    rw [regWrite_act rfl rfl]
    exact congrArg (Prod.mk stOk) (if_pos (by decide))
  exact cmd_writeReg h.1 h rfl h.2.2 (by decide) hwrite rfl rfl

/-- Negotiation settles on the sixteen ports of a group. -/
theorem settleAn_group (s : State) (g : Nat) : ∃ P, (List.range 16).foldl (fun s i => settleAn s (16 * g + i)) s = { s with ports := P }
    ∧ ∀ p, portOf { s with ports := P } p = if p / 16 = g then anSettled s p else portOf s p := by
  obtain ⟨P, hP, hp⟩ := settleAn_fold (16 * g) (List.range 16) s
  have hgroup (p : Nat) : (∃ i ∈ List.range 16, p = 16 * g + i) ↔ p / 16 = g :=
    ⟨fun ⟨i, hi, h⟩ => by have := List.mem_range.1 hi; omega, fun h => ⟨p % 16, List.mem_range.2 (by omega), by omega⟩⟩
  refine ⟨P, hP, fun p => ?_⟩
  rw [hp]
  simp only [hgroup]

theorem groupStart_eq {s u : State} {g : Nat} (hd : hasDeck s = true) (hgo : s.rst.goHeld = false) (hg : s.rst.groupsDue.contains g = true)
    (hu : u = { s with rst := { s.rst with groupsDue := s.rst.groupsDue.filter (· != g),
                                           groups := 16 - (s.rst.groupsDue.filter (· != g)).length } }) :
    groupStart s g = groupsEnd ((List.range 16).foldl (fun s i => settleAn s (16 * g + i)) u) := by
  subst hu
  exact if_pos (by simp only [hd, hgo, hg]; rfl)

theorem exec_laneGroupStart {s t : State} {g : Nat} (hg : g < 16) (h : groupStart s g = t) (k : keepFixed s t = t) :
    exec (.laneGroupStart g) s = .next t := by
  dsimp only [exec, execLaneGroupStart]
  exact cmd_run (decide_eq_true hg) h k

/-! ## PORT.CTL (R114) -/

section PortCtl
variable {s t : State} {n p : Nat} {value : W64} (h : ready s n 2) (hp : p < 256)
include h hp

theorem exec_portCtlWrite (he : wrPortCtl s p value.toNat = t) (hk : keepFixed s t = t) (hz : t.zat.sessions = s.zat.sessions) :
    exec (.portCtlWrite n p value) s = .next (answer t n 0x09 (aPort p) stOk []) := by
  dsimp only [exec, execPortCtlWrite]
  exact cmd_writeReg (Bool.and_eq_true_iff.2 ⟨h.1, decide_eq_true hp⟩) h (regPlace_portCtl hp) h.2.2 value.isLt
    (congrArg (Prod.mk stOk) he) hk hz

end PortCtl

/-- The port as SHUT in the write says, its negotiation settled, before the lane tests of its octet settle. -/
theorem wrPortCtl_port {s : State} {p v : Nat} (h : isPort s p = true) :
    ∃ m, wrPortCtl s p v = { settleAn (shutLink (setReg s (aPort p) (v % 4)) p) p with laneTest := m }
      ∧ ∀ l, kget m l = if l / 8 = p / 8 then settled (settleAn (shutLink (setReg s (aPort p) (v % 4)) p) p) l
          else kget (settleAn (shutLink (setReg s (aPort p) (v % 4)) p) p).laneTest l := by
  obtain ⟨m, hm, hl⟩ := settle_octet (settleAn (shutLink (setReg s (aPort p) (v % 4)) p) p) p
  refine ⟨m, ?_, hl⟩
  have hv : bits v 1 0 = v % 4 := by simp only [bits]; omega
  rw [wrPortCtl, if_pos h, hv]
  exact hm

theorem portShut_setCtl (s : State) (p v : Nat) : portShut (setReg s (aPort p) (v % 4)) p = bit v 1 := by
  unfold portShut portCtl
  rw [regRaw_setReg_same]
  have : v % 4 % 2 ^ 64 / 2 ^ 1 % 2 = v / 2 ^ 1 % 2 := by omega
  exact congrArg (· == 1) this

/-- A port that is shut and has no link has nothing to negotiate. -/
theorem settleAn_shut {s : State} {p : Nat} (hs : portShut s p = true) (h0 : (portOf s p).anState = 0) : settleAn s p = s := by
  have hst : portStarted s p = false := by simp [portStarted, hs]
  unfold settleAn
  simp [hst, h0]

theorem portShut_setPort_bump (s : State) (p : Nat) (x : PortState) : portShut (setPort (bump s (aPortCtr p 34)) p x) p = portShut s p := by
  have : regRaw (setPort (bump s (aPortCtr p 34)) p x) (aPort p) 1 = regRaw s (aPort p) 1 :=
    regRaw_bump_ne (s := s) (a := aPortCtr p 34) 1 (by unfold aPortCtr aPort; omega)
  rw [portShut, portCtl, this, portShut, portCtl]

section Shut
variable {s : State} {p : Nat} (hs : portShut s p = true) (hup : (portOf s p).up = true) (hq : (portOf s p).txq = [])
include hs hup hq

/-- A port with a link and nothing to send, when it is shut. -/
theorem shutLink_down :
    shutLink s p = setPort (bump s (aPortCtr p 34)) p { portOf s p with up := false, anState := 0, xoff := 0, paused := [] } := by
  have hst : portStarted s p = false := by simp [portStarted, hs]
  have hdown := linkDownOp_up hup
  rw [hst] at hdown
  have hempty : (portOf (linkDownOp s p) p).txq = [] := by rw [portOf_linkDownOp hup]; exact hq
  rw [shutLink, if_pos hs, linkLost, if_pos hup, abortHead_nil hempty, hdown]
  rfl

theorem settleAn_shutLink : settleAn (shutLink s p) p = shutLink s p := by
  rw [shutLink_down hs hup hq]
  exact settleAn_shut ((portShut_setPort_bump ..).trans hs) (congrArg PortState.anState (setPort_portOf' ..))

end Shut

/-- Settles O14: each write by what it stores and settles, and each event by its operation. -/
theorem lanesGroupsAndPortControl : Obligations.LanesGroupsAndPortControl := by
  unfold Obligations.LanesGroupsAndPortControl
  refine ⟨?tests, ?eyes, ?groups, ?control⟩
  case tests =>
    intro s n l v w value h hl on loop hw u hu
    have hset : u = { setReg s (aLane l + 8) (bits v 9 0) with
        laneTest := if on then kset s.laneTest l (BitVec.ofNat 64 w) else kdel s.laneTest l } := (bits_inject v).2.symm ▸ hu
    have hkeep : ∀ b : Bool, keepFixed s (if b then bump u (aLane l + 0x10) else u) = if b then bump u (aLane l + 0x10) else u := by
      intro b; rw [hu]; cases b <;> rfl
    have hzat : ∀ b : Bool, (if b then bump u (aLane l + 0x10) else u).zat.sessions = s.zat.sessions := by
      intro b; rw [hu]; cases b <;> rfl
    refine ⟨fun hv => ?_, fun hv => ?_⟩
    · exact exec_laneTestWrite h hl value (hv ▸ wrLane_eq hl hw hset) (hkeep _) (hzat _)
    · have hop := wrLane_eq (v := 2 ^ 10 + v % 2 ^ 10) hl (hw.trans (testWord_inject s l v).symm)
        (u := u) ((bits_inject v).1.symm ▸ hu)
      rw [bit_inject, Bool.true_and] at hop
      exact exec_prbsInject h hl (hv ▸ hop) (hkeep _) (hzat _)
  case eyes =>
    intro s n l e value hl
    have hv : wrEyeCtl s l value.toNat = if bit value.toNat 20 then setReg (setReg s (aLane l + 0x18) (bits value.toNat 19 0)) (aLane l + 0x20) 0
      else setReg s (aLane l + 0x18) (bits value.toNat 19 0) := rfl
    refine ⟨fun h hb => exec_eyeScanStart h hl (hv.trans (if_pos hb)) rfl rfl,
      fun h hb => exec_eyeScanStart h hl (hv.trans (if_neg (by simp [hb]))) rfl rfl, fun he => ?_, fun hlo hhi => ?_⟩
    · rw [exec_eyeScanDone hl (by omega), eyeDone, if_pos he, decide_eq_false (Nat.not_le.2 he), Nat.add_comm]
      simp [b2n, Nat.add_comm]
    · rw [exec_eyeScanDone hl hhi, eyeDone, if_neg (Nat.not_lt.2 hlo), decide_eq_true hlo]
      rfl
  case groups =>
    refine fun s n g => ⟨fun h => exec_bringupGo h, fun hd hgo hg hdue due u hdu hu => ?_⟩
    obtain ⟨P, hP, hp⟩ := settleAn_group u g
    have hop := groupStart_eq (u := u) hd hgo hdue (by rw [hu, hdu])
    rw [hP] at hop
    refine ⟨P, fun p => by rw [← show portOf u p = portOf s p by rw [hu]; rfl]; exact hp p, fun hmore => ?_, fun h9 h0 => ?_⟩
    · refine exec_laneGroupStart hg (hop.trans (if_neg ?_)) (by rw [hu]; rfl)
      rw [hu]
      rcases hmore with h | h <;> simp [h]
    · refine exec_laneGroupStart hg (hop.trans ((if_pos ?_).trans ?_)) rfl
      · rw [hu]; simp [h9, h0]
      · rw [hu, h0]; rfl
  case control =>
    intro s n p value h hp settles
    refine ⟨fun hno => exec_portCtlWrite h hp (if_neg (by simp [hno])) rfl rfl, fun hport hb => ?open_, fun hport hb hup hq => ?shut⟩
    case open_ =>
      obtain ⟨m, hm, htests⟩ := wrPortCtl_port (v := value.toNat) hport
      obtain ⟨P, hP, hports⟩ := settleAn_port (setReg s (aPort p) (value.toNat % 4)) p
      have hlink : shutLink (setReg s (aPort p) (value.toNat % 4)) p = setReg s (aPort p) (value.toNat % 4) :=
        if_neg (by rw [portShut_setCtl, hb]; exact Bool.false_ne_true)
      rw [hlink, hP] at hm htests
      exact ⟨_, m, P, rfl, htests, hports, exec_portCtlWrite h hp hm rfl rfl⟩
    case shut =>
      obtain ⟨m, hm, htests⟩ := wrPortCtl_port (v := value.toNat) hport
      have hshut : portShut (setReg s (aPort p) (value.toNat % 4)) p = true := (portShut_setCtl ..).trans hb
      rw [settleAn_shutLink hshut hup hq, shutLink_down hshut hup hq] at hm htests
      exact ⟨_, m, _, rfl, rfl, htests, exec_portCtlWrite h hp hm rfl rfl⟩

end Sys2Proof.Machine
end

section
/-!
PROOFS. Lane PLLs, the time reference, temperatures, the error log and the control links (05_ports_and_lanes.md R102, R105, R118;
17_reset_power_and_kitty.md R392, R393, R402, R421).
-/
namespace Sys2Proof.Machine

open Sys2Proof

/-! ## Temperatures (R421) -/

/-- CORE_MAX at 125 °C or a stack at 105 °C is too hot. -/
theorem tooHot_of_reading {s : State} {c h0 h1 h2 h3 : Byte} (htemps : s.temps = [c, h0, h1, h2, h3])
    (h : 125 ≤ sint 8 c.toNat ∨ 105 ≤ sint 8 h0.toNat ∨ 105 ≤ sint 8 h1.toNat ∨ 105 ≤ sint 8 h2.toNat ∨ 105 ≤ sint 8 h3.toNat) :
    tooHot s = true := by
  simpa [tooHot, htemps, enum] using h

theorem exec_tempSample (s : State) (c h0 h1 h2 h3 : Byte) : exec (.tempSample c h0 h1 h2 h3) s = .next { s with
    temps := [c, h0, h1, h2, h3], tempOk := true, peak := if sint 8 s.peak.toNat < sint 8 c.toNat then c else s.peak } := by
  dsimp only [exec, execTempSample]
  exact cmd_run (by rw [Instr.wellFormed]) rfl rfl

/-! ## The error log (R402, Table 17.9) -/

/-- The 32 bytes of an error record. -/
def errLogBytes (s : State) (l : ErrLog) : List Byte :=
  toBytes 5 (now40 s) ++ toBytes 1 (errRecord s l).1 ++ toBytes 2 0 ++ toBytes 8 (errRecord s l).2 ++ toBytes 16 0

theorem errLogBytes_length (s : State) (l : ErrLog) : (errLogBytes s l).length = 32 := by
  simp only [errLogBytes, List.length_append, toBytes_length]

/-- The kitty with a record at place `k` and ERRLOG_NEXT past it. -/
def errLogged (s : State) (l : ErrLog) (k : Nat) : Mem :=
  memWrite (memWrite s.kitty (kLog + 32 * k) (errLogBytes s l)) (kCause + 28) (toBytes 4 ((k + 1) % kLogEntries))

theorem errLogOp_present {s : State} {l : ErrLog} (hk : keepUp s = true) (hp : errPresent s l = true) :
    errLogOp s l = { s with kitty := errLogged s l (errLogNext s) } := by
  unfold errLogOp errLogged errLogBytes
  dsimp only [kittyPut]
  rw [if_pos (by rw [hk, hp]; rfl)]

/-- ERRLOG_NEXT stands below the log. -/
theorem kCause_below_kLog (k : Nat) : kCause + 28 + 4 ≤ kLog + 32 * k := by
  unfold kCause kLog
  omega

section Logged
variable (s : State) (l : ErrLog) (k : Nat)

theorem memRead_errLogged : memRead (errLogged s l k) (kLog + 32 * k) 32 = errLogBytes s l := by
  have h := memRead_memWrite s.kitty (kLog + 32 * k) (errLogBytes s l)
  rw [errLogBytes_length] at h
  rw [errLogged, memRead_memWrite_out _ _ _ _ _ (.inr (by rw [toBytes_length]; exact kCause_below_kLog k)), h]

theorem memNat_errLogged : memNat (errLogged s l k) (kCause + 28) 4 = (k + 1) % 12288 := by
  have h := memRead_memWrite (memWrite s.kitty (kLog + 32 * k) (errLogBytes s l)) (kCause + 28) (toBytes 4 ((k + 1) % kLogEntries))
  rw [toBytes_length] at h
  rw [memNat, errLogged, h, ofBytes_toBytes, kLogEntries]
  omega

theorem memGet_errLogged {a : Nat} (ha : a < kLog + 32 * k ∨ kLog + 32 * k + 32 ≤ a) (hn : a < kCause + 28 ∨ kCause + 32 ≤ a) :
    memGet (errLogged s l k) a = memGet s.kitty a := by
  rw [errLogged, memGet_memWrite_out _ _ _ (by rw [toBytes_length]; exact hn), memGet_memWrite_out _ _ _ (by rw [errLogBytes_length]; exact ha)]

end Logged

/-! ## Control links (R105, R118) -/

theorem ctlDown_up {s : State} {cp : Nat} (h : ctlLink s cp = true) : ctlDown s cp = bump
    { s with zat := if cp = 0 then { s.zat with link0 := false } else { s.zat with link1 := false } } (aZatCtr cp 13) :=
  if_pos h

theorem ctlDown_down {s : State} {cp : Nat} (h : ctlLink s cp = false) : ctlDown s cp = s :=
  if_neg (Bool.eq_false_iff.1 h)

/-- Settles O36: each event by its operation. -/
theorem pllReferenceTemperatureErrorsAndControlLinks : Obligations.PllReferenceTemperatureErrorsAndControlLinks := by
  unfold Obligations.PllReferenceTemperatureErrorsAndControlLinks
  refine ⟨?pll, ?reference, ?temperature, ?log, ?links⟩
  case pll =>
    intro s h hh
    have hrun := cmd_ok (i := .lanePllUnlock h) (f := fun s => pllOp s h) s (decide_eq_true hh)
    have hlinks (p : Nat) : (portOf (pllOp s h) p).up = (if isPort s p && inHalf s h p then false else (portOf s p).up)
        ∧ (pllOp s h).rst = s.rst := by rw [pllOp]; exact dropLinks_up s (inHalf s h) p
    generalize pllOp s h = u at hrun hlinks
    exact ⟨_, hrun, (hlinks 0).2, fun p => (hlinks p).1⟩
  case reference =>
    refine fun s => ⟨cmd_run (i := .timeRefLoss) (f := fun s => setRef s false) rfl rfl rfl, fun hg => ?_⟩
    exact cmd_run (i := .timeRefReturn) (f := fun s => if bit s.rst.good 6 then setRef s true else s) rfl (if_pos hg) rfl
  case temperature =>
    intro s c h0 h1 h2 h3
    refine ⟨exec_tempSample s c h0 h1 h2 h3, fun hok htemps htrip hhot => ?_⟩
    refine cmd_run (i := .thermtrip) (f := tripOp) rfl (if_pos ?_) rfl
    rw [hok, htrip, tooHot_of_reading htemps hhot]
    rfl
  case log =>
    rintro s log _ hk hp rfl
    exact ⟨errLogged s log (errLogNext s), cmd_run (i := .errorLogWrite log) (f := fun s => errLogOp s log) rfl (errLogOp_present hk hp) rfl,
      memRead_errLogged .., memNat_errLogged .., fun a ha hn => memGet_errLogged s log _ ha hn⟩
  case links =>
    intro s cp hcp
    refine ⟨fun h5 h24 => ?_, fun h => ?_, fun h => ?_⟩
    · exact cmd_run (i := .controlLinkUp cp) (f := fun s => if bit s.rst.good 5 && bit s.rst.good 24 then
        { s with zat := if cp = 0 then { s.zat with link0 := true } else { s.zat with link1 := true } } else s)
        (decide_eq_true hcp) (if_pos (by rw [h5, h24]; rfl)) rfl
    · exact cmd_run (i := .controlLinkDown cp) (f := fun s => ctlDown s cp) (decide_eq_true hcp) (ctlDown_up h) rfl
    · exact cmd_run (i := .controlLinkDown cp) (f := fun s => ctlDown s cp) (decide_eq_true hcp) (ctlDown_down h) rfl

end Sys2Proof.Machine
end

section
/-!
PROOFS. An L3 from each of its sources, one that joins another, and RESET_REQ (17_reset_power_and_kitty.md R383, R384, R388;
03_deck.md R60; 15_zatas_control_protocol.md R356).
-/
namespace Sys2Proof.Machine

open Sys2Proof

/-- What an L3 of source `src`, run in `u`, leaves in `t`. -/
def L3Ends (src : Nat) (u t : State) : Prop :=
  t.rst.lastLevel = 3 ∧ t.rst.lastSrc = src ∧ t.rst.lastTime = now40 u ∧ t.rst.cause = u.rst.cause ||| BitVec.ofNat 8 (2 ^ src)
  ∧ t.tricks = [] ∧ t.pkts = [] ∧ t.stock = [] ∧ t.tasks = [] ∧ t.suits = [] ∧ t.rb = []
  ∧ t.pending = u.pending ∧ t.clk = u.clk ∧ t.fuses = u.fuses ∧ t.mram = u.mram ∧ t.flash = u.flash

/-- What an L3 of source `src` that arrives in `s` while one runs leaves in `t`. -/
def L3Joins (s : State) (src : Nat) (t : State) : Prop :=
  t.rst.cause = s.rst.cause ||| BitVec.ofNat 8 (2 ^ src) ∧ t.rst.heldTill = s.rst.heldTill
  ∧ (s.deck.phase = .redealing → t.rst.lastLevel = 3 ∧ t.rst.lastSrc = src ∧ t.rst.lastTime = now40 s)
  ∧ (s.deck.phase ≠ .redealing → t.rst.lastLevel = 3 ∧ t.rst.lastSrc = min s.rst.lastSrc src ∧ t.rst.lastTime = s.rst.lastTime)
  ∧ t.deck = s.deck ∧ t.cold = s.cold ∧ t.tasks = s.tasks ∧ t.tricks = s.tricks ∧ t.lines = s.lines ∧ t.hbm = s.hbm

/-- The source that an unnamed L3 takes is one of those that lead to it. -/
theorem anySource_l3 (s : State) : (anySource s [3, 4, 5, 7]).1 = 3 ∨ (anySource s [3, 4, 5, 7]).1 = 4
    ∨ (anySource s [3, 4, 5, 7]).1 = 5 ∨ (anySource s [3, 4, 5, 7]).1 = 7 := by
  have hpick : (anySource s [3, 4, 5, 7]).1 = nth [3, 4, 5, 7] ((draw s).1 % 4) 0 := rfl
  rw [hpick]
  match (draw s).1 % 4, Nat.mod_lt (draw s).1 (by decide : 0 < 4) with
  | 0, _ => exact .inl rfl
  | 1, _ => exact .inr (.inl rfl)
  | 2, _ => exact .inr (.inr (.inl rfl))
  | 3, _ => exact .inr (.inr (.inr rfl))

/-! ## An L3 that runs -/

/-- An L3 begun in `u`, which has the time and the causes of `s`, ends as one of `s` in `v`, which keeps the stores of `s`. -/
theorem l3_ends {s u v w : State} {src : Nat} {f : State → State} (hw : l3From u src f = w) (he : earlyStep u = false) (hh : held u = false)
    (hnow : now40 u = now40 s) (hcause : u.rst.cause = s.rst.cause) (hreset : v.rst = w.rst) (hcore : coreOf v = coreOf w)
    (hstores : v.pending = s.pending ∧ v.clk = s.clk ∧ v.fuses = s.fuses ∧ v.mram = s.mram ∧ v.flash = s.flash) : L3Ends src s v := by
  obtain ⟨_, rfl, hlevel, hsrc, htime, hc, hempty⟩ := l3From_facts u src f he hh
  rw [hw] at hlevel hsrc htime hc hempty
  rw [hempty] at hcore
  simp only [coreOf, Prod.mk.injEq] at hcore
  obtain ⟨htricks, hpkts, hstock, htasks, hsuits, hrb⟩ := hcore
  rw [hcause] at hc
  exact ⟨hreset ▸ hlevel, hreset ▸ hsrc, hreset ▸ htime.trans hnow, hreset ▸ hc, htricks, hpkts, hstock, htasks, hsuits, hrb, hstores⟩

/-- A command of the deck's form that runs an L3. -/
theorem cmdDeck_l3 {i : Instr} {s u s' : State} {src : Nat} {f g : State → State} (hi : i.wellFormed = true) (hop : f s = l3From u src g)
    (he : earlyStep u = false) (hh : held u = false) (hnow : now40 u = now40 s') (hcause : u.rst.cause = s'.rst.cause)
    (hstores : s'.pending = s.pending ∧ s'.clk = s.clk ∧ s'.fuses = s.fuses ∧ s'.mram = s.mram ∧ s'.flash = s.flash) :
    ∃ t, cmdDeck i s f = .next t ∧ L3Ends src s' t := by
  obtain ⟨h1, h2, h3, h4, h5⟩ := hstores
  refine ⟨_, cmdDeck_ok s hi, ?_⟩
  rw [hop]
  generalize hv : l3From u src g = v
  exact l3_ends hv he hh hnow hcause rfl rfl ⟨h1.symm, h2.symm, h3.symm, h4.symm, h5.symm⟩

/-- A command of the big form that runs an L3 with the stores kept. -/
theorem cmdBig_l3 {i : Instr} {s u : State} {src : Nat} {f g : State → State} (hi : i.wellFormed = true) (hop : f s = keepStores s (l3From u src g))
    (he : earlyStep u = false) (hh : held u = false) (hnow : now40 u = now40 s) (hcause : u.rst.cause = s.rst.cause) :
    ∃ t, cmdBig i s f = .next t ∧ L3Ends src s t := by
  refine ⟨_, cmdBig_ok s hi, ?_⟩
  rw [hop]
  generalize hv : l3From u src g = v
  exact l3_ends hv he hh hnow hcause rfl rfl ⟨rfl, rfl, rfl, rfl, rfl⟩

/-! ## An L3 that joins one -/

theorem l3From_held {s : State} (he : earlyStep s = false) (hh : held s = true) (src : Nat) (f : State → State) : l3From s src f = joinL3 s src := by
  unfold l3From
  rw [if_neg (by rw [he]; exact Bool.false_ne_true), if_pos hh]

/-- A source that joins records itself; `u` has the time, the reset block and the pipeline of `s`. -/
theorem joinL3_joins {s u : State} {src : Nat} (hnow : now40 u = now40 s) (hrst : u.rst = s.rst) (hdeck : u.deck = s.deck)
    (hkept : u.cold = s.cold ∧ u.tasks = s.tasks ∧ u.tricks = s.tricks ∧ u.lines = s.lines ∧ u.hbm = s.hbm) :
    L3Joins s src (joinL3 u src) ∧ (joinL3 u src).zat = u.zat := by
  have hjoin : joinL3 u src = kittyCause (if u.deck.phase = .redealing then noteLast (noteCause u src) 3 src (now40 u)
    else noteLast (noteCause u src) 3 (min u.rst.lastSrc src) u.rst.lastTime) := rfl
  by_cases hp : s.deck.phase = .redealing
  · rw [hjoin, if_pos (hdeck ▸ hp), hnow]
    exact ⟨⟨hrst ▸ rfl, hrst ▸ rfl, fun _ => ⟨rfl, rfl, rfl⟩, fun h => absurd hp h, hdeck, hkept⟩, rfl⟩
  · rw [hjoin, if_neg (hdeck ▸ hp), hrst]
    exact ⟨⟨hrst ▸ rfl, hrst ▸ rfl, fun h => absurd h hp, fun _ => ⟨rfl, rfl, rfl⟩, hdeck, hkept⟩, rfl⟩

/-- What the command keeps besides is none of what the join records. -/
theorem L3Joins.congr {s t v : State} {src : Nat} (h : L3Joins s src t) (hrst : v.rst = t.rst) (hdeck : v.deck = t.deck)
    (hkept : v.cold = t.cold ∧ v.tasks = t.tasks ∧ v.tricks = t.tricks ∧ v.lines = t.lines ∧ v.hbm = t.hbm) : L3Joins s src v := by
  obtain ⟨hcold, htasks, htricks, hlines, hhbm⟩ := hkept
  unfold L3Joins
  rw [hrst, hdeck, hcold, htasks, htricks, hlines, hhbm]
  exact h

/-! ## RESET_REQ (R356) -/

/-- The transaction of a RESET_REQ for an L3. -/
def l3Txn : Txn := ⟨0x48, 0, 3, []⟩

theorem opResetReq_l3 {s : State} {n : Nat} (h : ready s n 3) : opResetReq s n l3Txn = untilRelease (l3From s 4 (l1 4)) n l3Txn := by
  unfold opResetReq gate
  rw [if_neg (Nat.not_lt.2 h.2.2)]
  exact (if_pos rfl).trans (if_pos rfl)

/-- A RESET_REQ for an L3 waits for the release, where its session is still open; nothing else of it is left. -/
theorem direct_l3 {s v : State} {n : Nat} (h : ready s n 3) (hv : v = l3From s 4 (l1 4)) :
    (isOpen v n = true → direct s n l3Txn opResetReq = { v with zat := { v.zat with
        waits := kset v.zat.waits v.zat.nextWait ⟨n, true, l3Txn, .release⟩, nextWait := v.zat.nextWait + 1 } })
    ∧ (isOpen v n = false → direct s n l3Txn opResetReq = v) := by
  have hop := opResetReq_l3 h
  rw [← hv, untilRelease] at hop
  exact ⟨fun ho => direct_waits h.2.1 (hop.trans (if_pos ho)),
    fun hc => direct_closed h.2.1 (hop.trans (if_neg (Bool.eq_false_iff.1 hc))) hc⟩

/-- A session's RESET_REQ for an L3 when none runs. -/
theorem exec_resetReqL3_runs {s : State} {n : Nat} (h : ready s n 3) (he : earlyStep s = false) (hh : held s = false) :
    ∃ t, exec (.resetReqL3 n) s = .next t ∧ L3Ends 4 s t
      ∧ ((∃ w, kget t.zat.waits w = some ⟨n, true, l3Txn, .release⟩) ∨ isOpen t n = false) := by
  obtain ⟨v, hv⟩ : ∃ v, v = l3From s 4 (l1 4) := ⟨_, rfl⟩
  obtain ⟨hopen, hclosed⟩ := direct_l3 h hv
  refine ⟨_, cmdDeck_ok (i := .resetReqL3 n) (f := fun s => direct s n l3Txn opResetReq) s h.1, ?_⟩
  cases ho : isOpen v n with
  | true =>
    rw [hopen ho]
    exact ⟨l3_ends hv.symm he hh rfl rfl rfl rfl ⟨rfl, rfl, rfl, rfl, rfl⟩, .inl ⟨v.zat.nextWait, kget_kset_same _ _ _⟩⟩
  | false =>
    rw [hclosed ho]
    exact ⟨l3_ends hv.symm he hh rfl rfl rfl rfl ⟨rfl, rfl, rfl, rfl, rfl⟩, .inr ho⟩

/-- A session's RESET_REQ for an L3 that joins the one that runs. -/
theorem exec_resetReqL3_joins {s : State} {n : Nat} (h : ready s n 3) (he : earlyStep s = false) (hh : held s = true) :
    ∃ t, exec (.resetReqL3 n) s = .next t ∧ L3Joins s 4 t ∧ kget t.zat.waits s.zat.nextWait = some ⟨n, true, l3Txn, .release⟩ := by
  obtain ⟨v, hv⟩ : ∃ v, v = l3From s 4 (l1 4) := ⟨_, rfl⟩
  obtain ⟨hjoins, hzat⟩ := joinL3_joins (s := s) (u := s) (src := 4) rfl rfl rfl ⟨rfl, rfl, rfl, rfl, rfl⟩
  rw [← l3From_held he hh 4 (l1 4), ← hv] at hjoins hzat
  have hopen : isOpen v n = true := by rw [isOpen, sessOf, hzat]; exact h.2.1
  refine ⟨_, cmdDeck_ok (i := .resetReqL3 n) (f := fun s => direct s n l3Txn opResetReq) s h.1, ?_⟩
  rw [(direct_l3 h hv).1 hopen]
  refine ⟨hjoins.congr rfl rfl ⟨rfl, rfl, rfl, rfl, rfl⟩, ?_⟩
  show kget (kset v.zat.waits v.zat.nextWait _) _ = _
  rw [hzat, kget_kset_same]

/-- A RESET_REQ for an L2 is answered, and the L2 is due. -/
theorem exec_resetReqL2 {s : State} {n : Nat} (h : ready s n 3) : exec (.resetReqL2 n) s = .next (answer
    (markSet { s with rst := { s.rst with cause := s.rst.cause ||| 0x10, l2Due := true } } aCause 0x10) n 0x48 2 stOk []) := by
  have hop : opResetReq s n ⟨0x48, 0, 2, []⟩ = .ok ⟨0x48, 0, 2, []⟩ []
      (markSet { s with rst := { s.rst with cause := s.rst.cause ||| 0x10, l2Due := true } } aCause 0x10) := by
    unfold opResetReq gate
    rw [if_neg (Nat.not_lt.2 h.2.2)]
    exact (if_pos rfl).trans (if_neg (by decide))
  dsimp only [exec, execResetReqL2]
  exact cmd_run h.1 (direct_done h.2.1 hop rfl) rfl

/-! ## The other sources -/

theorem l3Op_eq (s : State) : l3Op s = l3From (anySource s [3, 4, 5, 7]).2 (anySource s [3, 4, 5, 7]).1 (l1 (anySource s [3, 4, 5, 7]).1) := rfl

theorem debugOp_l3 (s : State) (f : PowerOnFacts) : debugOp s false f = keepStores s (l3From s 5 (l1 5)) := if_neg Bool.false_ne_true

theorem l3Op_held {s : State} (he : earlyStep s = false) (hh : held s = true) :
    l3Op s = joinL3 (anySource s [3, 4, 5, 7]).2 (anySource s [3, 4, 5, 7]).1 :=
  l3From_held (s := (anySource s [3, 4, 5, 7]).2) he hh (anySource s [3, 4, 5, 7]).1 (l1 (anySource s [3, 4, 5, 7]).1)

theorem wdogOp_l3 {s : State} (hd : wdogDue s = true) (hw : bit (regRaw s aRstCtl 0) 0 = true) (f : PowerOnFacts) :
    wdogOp s f = keepStores s (l3From { s with rst := { s.rst with wdogClk := s.clk } } 3 (l1 3)) := by
  unfold wdogOp
  rw [hd, if_neg (by decide), if_pos hw]

theorem lockupOp_due {s : State} {d c : Nat} {k : Trick} (ht : trickAt s d c = some k) (hd : trickDue s k = true) :
    lockupOp s d c = l3From (setLog s aWdogLog (wdogRecord d c k)) 7 (l1 7) := by
  unfold lockupOp
  rw [ht]
  exact if_pos hd

theorem exec_l3Reset_runs {s : State} (he : earlyStep s = false) (hh : held s = false) :
    ∃ t src, exec .l3Reset s = .next t ∧ (src = 3 ∨ src = 4 ∨ src = 5 ∨ src = 7) ∧ L3Ends src s t := by
  obtain ⟨t, hrun, hends⟩ := cmdDeck_l3 (i := .l3Reset) (s' := s) (f := l3Op) rfl (l3Op_eq s) he hh rfl rfl ⟨rfl, rfl, rfl, rfl, rfl⟩
  exact ⟨t, _, hrun, anySource_l3 s, hends⟩

theorem exec_debugReset_runs {s : State} (he : earlyStep s = false) (hh : held s = false) {facts : PowerOnFacts} (hf : okFacts facts = true) :
    ∃ t, exec (.debugReset false facts) s = .next t ∧ L3Ends 5 s t :=
  cmdBig_l3 (i := .debugReset false facts) (f := fun s => debugOp s false facts) hf (debugOp_l3 s facts) he hh rfl rfl

theorem exec_hostWdogExpire_runs {s : State} (he : earlyStep s = false) (hh : held s = false) {facts : PowerOnFacts} (hf : okFacts facts = true)
    (hdue : wdogDue s = true) (hw : bit (regRaw s aRstCtl 0) 0 = true) : ∃ t, exec (.hostWdogExpire facts) s = .next t ∧ L3Ends 3 s t :=
  cmdBig_l3 (i := .hostWdogExpire facts) (f := fun s => wdogOp s facts) hf (wdogOp_l3 hdue hw facts) he hh rfl rfl

theorem exec_watchdogFire_runs {s : State} {d c : Nat} {k : Trick} (he : earlyStep s = false) (hh : held s = false) (hd : d < 288) (hc : c < 256)
    (ht : trickAt s d c = some k) (hdue : trickDue s k = true) :
    ∃ t, exec (.watchdogFire d c) s = .next t ∧ L3Ends 7 (setLog s aWdogLog (wdogRecord d c k)) t :=
  cmdDeck_l3 (i := .watchdogFire d c) (f := fun s => lockupOp s d c) (Bool.and_eq_true_iff.2 ⟨decide_eq_true hd, decide_eq_true hc⟩)
    (lockupOp_due ht hdue) he hh rfl rfl ⟨rfl, rfl, rfl, rfl, rfl⟩

/-- A command of the deck's form whose L3 joins the one that runs. -/
theorem cmdDeck_joins {i : Instr} {s v : State} {src : Nat} {f : State → State} (hi : i.wellFormed = true) (hop : f s = v)
    (hj : L3Joins s src v) (hz : v.zat = s.zat) : ∃ t, cmdDeck i s f = .next t ∧ L3Joins s src t ∧ t.zat = s.zat := by
  refine ⟨_, cmdDeck_ok s hi, ?_⟩
  rw [hop]
  exact ⟨hj.congr rfl rfl ⟨rfl, rfl, rfl, rfl, rfl⟩, hz⟩

/-- The same of a command of the big form. -/
theorem cmdBig_joins {i : Instr} {s v : State} {src : Nat} {f : State → State} (hi : i.wellFormed = true) (hop : f s = keepStores s v)
    (hj : L3Joins s src v) (hz : v.zat = s.zat) : ∃ t, cmdBig i s f = .next t ∧ L3Joins s src t ∧ t.zat = s.zat := by
  refine ⟨_, cmdBig_ok s hi, ?_⟩
  rw [hop]
  exact ⟨hj.congr rfl rfl ⟨rfl, rfl, rfl, rfl, rfl⟩, hz⟩

theorem exec_l3Reset_joins {s : State} (he : earlyStep s = false) (hh : held s = true) :
    ∃ t src, exec .l3Reset s = .next t ∧ (src = 3 ∨ src = 4 ∨ src = 5 ∨ src = 7) ∧ L3Joins s src t ∧ t.zat = s.zat := by
  obtain ⟨hj, hz⟩ := joinL3_joins (s := s) (u := (anySource s [3, 4, 5, 7]).2) (src := (anySource s [3, 4, 5, 7]).1) rfl rfl rfl
    ⟨rfl, rfl, rfl, rfl, rfl⟩
  obtain ⟨t, hrun, hjoins⟩ := cmdDeck_joins (i := .l3Reset) (f := l3Op) rfl (l3Op_held he hh) hj hz
  exact ⟨t, _, hrun, anySource_l3 s, hjoins⟩

theorem exec_debugReset_joins {s : State} (he : earlyStep s = false) (hh : held s = true) {facts : PowerOnFacts} (hf : okFacts facts = true) :
    ∃ t, exec (.debugReset false facts) s = .next t ∧ L3Joins s 5 t ∧ t.zat = s.zat := by
  obtain ⟨hj, hz⟩ := joinL3_joins (s := s) (u := s) (src := 5) rfl rfl rfl ⟨rfl, rfl, rfl, rfl, rfl⟩
  exact cmdBig_joins (i := .debugReset false facts) (f := fun s => debugOp s false facts) hf
    ((debugOp_l3 s facts).trans (congrArg (keepStores s) (l3From_held he hh 5 (l1 5)))) hj hz

/-- Settles O37: each source by the L3 that it runs or joins. -/
theorem resetsOfLevel3AndResetRequests : Obligations.ResetsOfLevel3AndResetRequests := by
  unfold Obligations.ResetsOfLevel3AndResetRequests
  refine ⟨fun s h1 h2 hh after hafter => ?runs, fun s h1 h2 hh joins hjoins => ?joins, fun s n h => exec_resetReqL2 h⟩
  case runs =>
    obtain rfl : after = L3Ends := funext fun src => funext fun u => funext fun t => propext (hafter src u t)
    have he := earlyStep_false h1 h2
    exact ⟨exec_l3Reset_runs he hh, fun facts hf => exec_debugReset_runs he hh hf, fun facts hf hdue hw => exec_hostWdogExpire_runs he hh hf hdue hw,
      fun n h => exec_resetReqL3_runs h he hh, fun d c k hd hc ht hdue => exec_watchdogFire_runs he hh hd hc ht hdue⟩
  case joins =>
    obtain rfl : joins = L3Joins s := funext fun src => funext fun t => propext (hjoins src t)
    have he := earlyStep_false h1 h2
    exact ⟨exec_l3Reset_joins he hh, fun facts hf => exec_debugReset_joins he hh hf, fun n h => exec_resetReqL3_joins h he hh⟩

end Sys2Proof.Machine
end

section
/-!
PROOFS. Lookups: what a match, pool or shuffle lookup finds, and how its result or its time-out comes back to the trick
(04_dealers_and_microcode.md R74, R76, R87; 07_match_and_shuffle.md R146 to R150, R160, R161, R166, R167).
-/
namespace Sys2Proof.Machine

open Sys2Proof

/-! ## The result of a lookup waits in its slot -/

/-- Trick `t` once its lookup `l` of slot `k` has found `v`. -/
def foundAs (t : Trick) (k : Nat) (l : Look) (v : Nat) : Trick :=
  { t with pend := kset t.pend k { l with result := some (BitVec.ofNat 64 v, false) } }

theorem setResult_found {s : State} {d c : Nat} {t : Trick} (ht : trickAt s d c = some t) (k : Nat) (l : Look) (v : Nat) :
    setResult s d c k l (BitVec.ofNat 64 v) = setTrick s d c (foundAs t k l v) :=
  modTrick_some ht _

theorem pendAt_some {s : State} {d c : Nat} {t : Trick} (ht : trickAt s d c = some t) (k : Nat) : pendAt s d c k = kget t.pend k := by
  rw [pendAt, ht]
  rfl

/-! ## The search of a match table (R147 to R150) -/

/-- The blocks of a table that its pre-filter opens to key `k` (R149). -/
def openBlocks (s : State) (tab k : Nat) : List Nat :=
  (tableBlocks s tab).filter fun b => ((k / 2 ^ (8 * (39 - blockF s b 4 1 % 40)) % 256) &&& blockF s b 3 1) == blockF s b 2 1

/-- The rows of the open blocks that match key `k` in slot `e`. -/
def candidates (s : State) (tab : Nat) (e : Bool) (k : Nat) : List (Nat × Row) :=
  s.rows.filter fun x => (openBlocks s tab k).contains (x.1 / 2048) && rowMatches x.2 e k

/-- What a search counts. -/
def searchCounted (s : State) (tab k : Nat) : State :=
  bumpBy (bumpBy (bump s aSearches) aBlockSearches (openBlocks s tab k).length) aBlockSkips ((tableBlocks s tab).length - (openBlocks s tab k).length)

/-- A shared top TRUMP is counted and recorded. -/
def tieCounted (s : State) (tab i hand : Nat) (tie : Bool) : State :=
  if tie then setLog (bump s aTieCount) aTieLast (tab % 128 + i * 2 ^ 7 + hand % 32 * 2 ^ 24 + 2 ^ 63) else s

theorem tieCounted_frame (s : State) (tab i hand : Nat) (tie : Bool) :
    (tieCounted s tab i hand tie).rows = s.rows ∧ (tieCounted s tab i hand tie).tricks = s.tricks := by
  unfold tieCounted
  split <;> exact ⟨rfl, rfl⟩

/-- The miss word of a table: that of its first block. -/
def missWord (s : State) : List Nat → Nat
  | b :: _ => blockF s b 5 3 % 2 ^ 20
  | [] => 0

/-- The result word of a search's best row, and what its tie counts. -/
def searchEnd (s : State) (tab hand : Nat) (bs : List Nat) : Option (Nat × Row × Bool) → W64 × State
  | none => (BitVec.ofNat 64 (missWord s bs), s)
  | some (i, r, tie) => (BitVec.ofNat 64 (2 ^ 63 + b2n tie * 2 ^ 62 + i * 2 ^ 39 + r.result % 2 ^ 20), tieCounted s tab i hand tie)

section Search
variable (s : State) (tab : Nat) (e : Bool) (key : List Byte) (hand : Nat)

/-- A search is its count and what its best row makes of it. -/
theorem matchSearch_eq : matchSearch s tab e key hand = searchEnd (searchCounted s tab (keyNat key)) tab hand (tableBlocks s tab)
    (bestRow (candidates s tab e (keyNat key)) none) := by
  unfold matchSearch searchEnd
  rfl

/-- With no candidate the search answers the miss word of the table's first block. -/
theorem matchSearch_miss (h : candidates s tab e (keyNat key) = []) {b : Nat} {rest : List Nat} (hb : tableBlocks s tab = b :: rest) :
    matchSearch s tab e key hand = (BitVec.ofNat 64 (blockF s b 5 3 % 2 ^ 20), searchCounted s tab (keyNat key)) := by
  rw [matchSearch_eq, h, hb]
  rfl

theorem matchSearch_noBlock (h : candidates s tab e (keyNat key) = []) (hb : tableBlocks s tab = []) :
    matchSearch s tab e key hand = (BitVec.ofNat 64 0, searchCounted s tab (keyNat key)) := by
  rw [matchSearch_eq, h, hb]
  rfl

theorem matchSearch_best {i : Nat} {r : Row} {tie : Bool} (h : bestRow (candidates s tab e (keyNat key)) none = some (i, r, tie)) :
    matchSearch s tab e key hand = (BitVec.ofNat 64 (2 ^ 63 + b2n tie * 2 ^ 62 + i * 2 ^ 39 + r.result % 2 ^ 20),
      tieCounted (searchCounted s tab (keyNat key)) tab i hand tie) := by
  rw [matchSearch_eq, h]
  rfl

end Search

/-- The best of some candidates: the highest TRUMP, the lowest position among equals, and whether it is shared. -/
theorem bestRow_of_ne_nil {cs : List (Nat × Row)} (hs : ksorted cs = true) (hne : cs ≠ []) :
    ∃ i r tie, bestRow cs none = some (i, r, tie) ∧ (i, r) ∈ cs ∧ (∀ j q, (j, q) ∈ cs → q.trump < r.trump ∨ (q.trump = r.trump ∧ i ≤ j))
      ∧ (tie = true ↔ ∃ j q, (j, q) ∈ cs ∧ j ≠ i ∧ q.trump = r.trump) := by
  cases cs with
  | nil => exact absurd rfl hne
  | cons x rest =>
    obtain ⟨j, q⟩ := x
    obtain ⟨habove, hrest⟩ := ksorted_cons.mp hs
    obtain ⟨i, r, tie, hbest, hmem, hmax, htie⟩ := bestRow_spec rest j q false habove hrest
    refine ⟨i, r, tie, hbest, List.mem_cons.2 hmem, fun k w hk => hmax (k, w) (List.mem_cons.1 hk), htie.trans ?_⟩
    constructor
    · rintro (⟨h, -⟩ | ⟨⟨k, w⟩, hk, hki, hw⟩)
      · exact absurd h Bool.false_ne_true
      · exact ⟨k, w, List.mem_cons.2 hk, hki, hw⟩
    · rintro ⟨k, w, hk, hki, hw⟩
      exact .inr ⟨(k, w), List.mem_cons.1 hk, hki, hw⟩

section Lookup
variable {s : State} {d c slot : Nat} {t : Trick} {l : Look} (hd : okDealer d = true) (hc : okCtx c = true) (hslot : slot < 4)
  (ht : trickAt s d c = some t)
include hd hc ht

section Match
variable (hl : kget t.pend slot = some l) (hn : l.result = none)
include hslot hl hn

theorem exec_matchLookup (hk : l.kind = 0) {v : Nat} {u : State} (hv : matchSearch s l.table t.slot l.key (handOf d) = (BitVec.ofNat 64 v, u))
    (hr : u.rows = s.rows) (htr : u.tricks = s.tricks) :
    ∃ t', exec (.matchLookup d c slot) s = .next t' ∧ t'.rows = s.rows ∧ trickAt t' d c = some (foundAs t slot l v) := by
  have hop : matchLookupOp s d c slot = setTrick u d c (foundAs t slot l v) := by
    unfold matchLookupOp
    rw [pendAt_some ht, ht, hl]
    dsimp only
    rw [hk, hn, if_pos (by rfl), hv]
    exact setResult_found ((congrArg (kget · _) htr).trans ht) ..
  refine ⟨_, cmd_ok (i := .matchLookup d c slot) (f := fun s => matchLookupOp s d c slot) s (by rw [Instr.wellFormed, hd, hc, okSlot, decide_eq_true hslot]; rfl), ?_⟩
  rw [hop]
  exact ⟨hr, trickAt_setTrick ..⟩

theorem exec_poolLookup (hk : l.kind = 1) {v : Nat} (hv : poolLookupRes s l.table l.key = BitVec.ofNat 64 v) :
    exec (.poolLookup d c slot) s = .next (setTrick s d c (foundAs t slot l v)) := by
  refine cmd_run (i := .poolLookup d c slot) (f := fun s => poolLookupOp s d c slot) (by rw [Instr.wellFormed, hd, hc, okSlot, decide_eq_true hslot]; rfl) ?_ rfl
  unfold poolLookupOp
  rw [pendAt_some ht, hl]
  dsimp only
  rw [hk, hn, if_pos (by rfl), hv]
  exact setResult_found ht ..

end Match

theorem exec_shuffleLookup (hl : kget t.pend 3 = some l) (hn : l.result = none) (hk : l.kind = 2) {r : List Byte} {i v : Nat}
    (hr : r = shufRec s t.slot l.table) (hi : i = shufIndex r l.key) (hv : v = shufEntry r i) :
    exec (.shuffleLookup d c) s = .next (setTrick s d c (foundAs t 3 l
      (b2n (bit v 31) * 2 ^ 63 + l.table % 64 * 2 ^ 56 + i % 4096 * 2 ^ 44 + b2n false * 2 ^ 32 + v % 2 ^ 32))) := by
  refine cmd_run (i := .shuffleLookup d c) (f := fun s => shuffleLookupOp s d c) (by rw [Instr.wellFormed, hd, hc]; rfl) ?_ rfl
  unfold shuffleLookupOp
  rw [pendAt_some ht, ht, hl]
  dsimp only
  rw [hk, hn, if_pos (by rfl), ← hr, ← hi, ← hv]
  exact setResult_found ht ..

end Lookup

/-! ## The pool (R160, R161) -/

section Pool
variable {s : State} {tab : Nat} {key k : List Byte} {p : PoolTab} (hp : poolTab s tab = some p) (hkey : k = slice key 0 p.keyLen)
include hp hkey

theorem poolLookupRes_exact_miss (hk : p.kind = 0) (h : poolFind s p k 0 = none) : poolLookupRes s tab key = BitVec.ofNat 64 p.missData := by
  unfold poolLookupRes
  rw [hp]
  dsimp only
  rw [hk, ← hkey, h]
  rfl

theorem poolLookupRes_exact {b i : Nat} (hk : p.kind = 0) (h : poolFind s p k 0 = some (b, i)) :
    poolLookupRes s tab key = BitVec.ofNat 64 (2 ^ 63 + poolData s p b i) := by
  unfold poolLookupRes
  rw [hp]
  dsimp only
  rw [hk, ← hkey, h]
  rfl

theorem poolLookupRes_prefix {n b i : Nat} (hk : p.kind = 1) (h : prefixFind s p k p.lengths none = some (n, b, i)) :
    poolLookupRes s tab key = BitVec.ofNat 64 (2 ^ 63 + n * 2 ^ 48 + poolData s p b i) := by
  unfold poolLookupRes
  rw [hp]
  dsimp only
  rw [hk, ← hkey, h]
  rfl

theorem poolLookupRes_index (hk : p.kind = 2) (hlt : ofBytes k < p.pages * 16384) (hmem : p.first * 65536 + 4 * ofBytes k ∈ s.poolSet) :
    poolLookupRes s tab key = BitVec.ofNat 64 (2 ^ 63 + memNat s.pool (p.first * 65536 + 4 * ofBytes k) 4) := by
  unfold poolLookupRes
  rw [hp]
  dsimp only
  rw [hk, ← hkey, if_pos (by simpa using ⟨hlt, hmem⟩)]
  rfl

end Pool

/-! ## Results and time-outs (R74, R76, R87, R148) -/

/-- Trick `t` once slot `k` has taken the value `v`. -/
def tookResult (t : Trick) (k : Nat) (v : W64) : Trick :=
  { t with ls := setNth t.ls k v, pend := kdel t.pend k, mwait := if t.mwait = some k then none else t.mwait,
           log := if k = 3 then t.log.map (fillChoice (v.truncate 32)) else t.log }

theorem takeResult_eq (t : Trick) (k : Nat) (v : W64) : takeResult t k v = tookResult t k v := by
  unfold takeResult tookResult unslot
  dsimp only
  obtain ⟨w, hw⟩ : ∃ w, w = t.mwait := ⟨_, rfl⟩
  rw [← hw]
  by_cases hwait : w = some k
  · rw [if_pos hwait, if_pos (beq_iff_eq.2 hwait)]
    split <;> rfl
  · rw [if_neg hwait, if_neg (fun h => hwait (beq_iff_eq.1 h)), hw]
    split <;> rfl

theorem lateChoice_open {s : State} {d c : Nat} {t : Trick} (h : t.committed = false) :
    lateChoice (setTrick s d c t) d c = setTrick s d c t := by
  unfold lateChoice
  rw [trickAt_setTrick]
  dsimp only
  rw [h]
  exact if_neg Bool.false_ne_true

theorem lateChoice_noLog {s : State} {d c : Nat} {t : Trick} (h : t.log = []) : lateChoice (setTrick s d c t) d c = setTrick s d c t := by
  have hout : choiceOut t.log = t.log := by
    rw [h]
    rfl
  unfold lateChoice
  rw [trickAt_setTrick]
  dsimp only
  split
  · rw [setTrick_setTrick, hout, show (t.log.filter fun x => !isOut x.eff) = [] by rw [h]; rfl]
    rfl
  · rfl

/-- A queue choice that has its result is applied once the routine has committed (R76). -/
theorem lateChoice_qsel {s : State} {d c : Nat} {t : Trick} {v : W32} {q pt : Bool} {r : Option RecAt} (hc : t.committed = true)
    (h : t.log = [⟨.qsel (some v) q pt, r⟩]) :
    lateChoice (setTrick s d c t) d c = applyEffect (setTrick s d c { t with log := [] }) d c (.qsel (some v) q pt) := by
  unfold lateChoice
  rw [trickAt_setTrick]
  dsimp only
  rw [hc, h, if_pos rfl, setTrick_setTrick]
  rfl

/-- A fault before COMMIT restarts the routine while restarts are left (R88, R89). -/
theorem faultTrick_restarts {s : State} {d c : Nat} {t : Trick} (ht : trickAt s d c = some t) (kind : Nat) (hcom : t.committed = false) (hmore : t.restarts < restartMax s) :
    ∃ u : State, trickAt (faultTrick s d c kind none) d c = some (reload u (stageOf d) { t with restarts := t.restarts + 1 }) := by
  unfold faultTrick
  rw [ht]
  dsimp only
  rw [hcom, if_neg Bool.false_ne_true, if_neg (Nat.not_le.2 hmore), if_neg (by simp)]
  exact ⟨_, trickAt_setTrick ..⟩

section Return
variable {s : State} {d c slot : Nat} {t : Trick} (hd : okDealer d = true) (hc : okCtx c = true) (ht : trickAt s d c = some t)
include hd hc ht

section Slot
variable {l : Look} (hslot : slot < 4) (hl : kget t.pend slot = some l)
include hslot hl

section Result
variable {v : W64} {b : Bool} (hv : l.result = some (v, b)) (hk : l.kind < 2)
include hv hk

theorem exec_lookupResult (poison : Bool) (hp : poison = true → t.committed = true) : exec (.lookupResult d c slot poison) s
    = .next (keepFixed s (lateChoice (setTrick s d c { tookResult t slot v with poison := t.poison || poison }) d c)) := by
  have hfault : (poison && !t.committed) = false := by
    cases poison
    · rfl
    · rw [hp rfl]
      rfl
  have hop : lookupResultOp s d c slot poison = lateChoice (setTrick s d c { tookResult t slot v with poison := t.poison || poison }) d c := by
    unfold lookupResultOp
    rw [pendAt_some ht, ht, hl]
    dsimp only
    rw [hv]
    dsimp only
    rw [hfault, if_neg Bool.false_ne_true, if_neg (Nat.not_le.2 hk), takeResult_eq]
  refine (cmd_ok (i := .lookupResult d c slot poison) (f := fun s => lookupResultOp s d c slot poison) s (by rw [Instr.wellFormed, hd, hc, okSlot, decide_eq_true hslot]; rfl)).trans ?_
  rw [hop]

end Result

theorem exec_lookupTimeout_committed (hcom : t.committed = true) (hlog : t.log = []) :
    exec (.lookupTimeout d c slot) s = .next (setTrick s d c (tookResult t slot 0)) := by
  refine cmd_run (i := .lookupTimeout d c slot) (f := fun s => lookupTimeoutOp s d c slot) (by rw [Instr.wellFormed, hd, hc, decide_eq_true (Nat.le_of_lt hslot)]; rfl) ?_ rfl
  unfold lookupTimeoutOp
  rw [if_neg (Nat.ne_of_lt hslot), pendAt_some ht, ht, hl]
  dsimp only
  rw [hcom, if_pos rfl, takeResult_eq]
  refine lateChoice_noLog ?_
  rw [tookResult, hlog]
  exact ite_self _

end Slot

/-- A time-out before COMMIT is a fault. -/
theorem exec_lookupTimeout_open (hslot : slot < 4) {k : Nat} (hk : (k = slot ∧ kget t.pend slot ≠ none) ∨ (k = 4 ∧ ∃ ln op o, t.wait = some (.fetch ln op o)))
    (hcom : t.committed = false) : exec (.lookupTimeout d c k) s = .next (keepFixed s (faultTrick s d c 1 none)) := by
  obtain ⟨hk4, hop⟩ : k ≤ 4 ∧ lookupTimeoutOp s d c k = faultTrick s d c 1 none := by
    unfold lookupTimeoutOp
    rcases hk with ⟨rfl, hpend⟩ | ⟨rfl, ln, op, o, hw⟩
    · obtain ⟨l, hl⟩ := Option.ne_none_iff_exists'.1 hpend
      refine ⟨Nat.le_of_lt hslot, ?_⟩
      rw [if_neg (Nat.ne_of_lt hslot), pendAt_some ht, ht, hl]
      dsimp only
      rw [hcom, if_neg Bool.false_ne_true]
    · refine ⟨Nat.le_refl 4, ?_⟩
      unfold fetchTimeout
      rw [if_pos rfl, ht]
      dsimp only
      rw [hw]
      dsimp only
      rw [hcom, if_neg Bool.false_ne_true]
  refine (cmd_ok (i := .lookupTimeout d c k) (f := fun s => lookupTimeoutOp s d c k) s (by rw [Instr.wellFormed, hd, hc, decide_eq_true hk4]; rfl)).trans ?_
  rw [hop]

theorem exec_lookupTimeout_fetch {ln op : Nat} {o : W32} (hw : t.wait = some (.fetch ln op o)) (hcom : t.committed = true) :
    exec (.lookupTimeout d c 4) s = .next (setTrick s d c { t with wait := none, image := none, recAt := none, flowNew := false, created := none }) := by
  refine cmd_run (i := .lookupTimeout d c 4) (f := fun s => lookupTimeoutOp s d c 4) (by rw [Instr.wellFormed, hd, hc]; rfl) ?_ rfl
  unfold lookupTimeoutOp fetchTimeout
  rw [if_pos rfl, ht]
  dsimp only
  rw [hw]
  dsimp only
  rw [hcom, if_pos rfl, lookupEmpty, modTrick_some (trickAt_setTrick ..), setTrick_setTrick]
  rfl

end Return

/-- Settles O45: lookups by their searches, results and time-outs by what the trick takes back. -/
theorem lookupsFindTheirEntriesAndReturn : Obligations.LookupsFindTheirEntriesAndReturn := by
  unfold Obligations.LookupsFindTheirEntriesAndReturn
  refine ⟨fun s d c slot t l found hd hc hslot ht hl hn hfound => ?finds, fun s d c slot t back hd hc hslot ht hback => ?returns⟩
  case finds =>
    obtain rfl : found = foundAs t slot l := hfound
    refine ⟨fun hk hsorted k bs live cands hkey hbs hlive hcands => ?search, fun hk pt key hpt hkey => ?pool, fun hk hs r i v hr hi hv => ?shuffle⟩
    case search =>
      subst hkey hbs hlive
      obtain rfl : cands = candidates s l.table t.slot (keyNat l.key) := hcands
      have hfr := fun i tie => tieCounted_frame (searchCounted s l.table (keyNat l.key)) l.table i (handOf d) tie
      by_cases hne : candidates s l.table t.slot (keyNat l.key) = []
      · cases hb : tableBlocks s l.table with
        | nil =>
          obtain ⟨t', hrun, hrows, -⟩ := exec_matchLookup hd hc hslot ht hl hn hk (matchSearch_noBlock s l.table t.slot l.key (handOf d) hne hb) rfl rfl
          exact ⟨t', hrun, hrows, fun _ b rest h => absurd h (List.cons_ne_nil b rest).symm, fun h => absurd hne h⟩
        | cons b rest =>
          obtain ⟨t', hrun, hrows, htrick⟩ := exec_matchLookup hd hc hslot ht hl hn hk (matchSearch_miss s l.table t.slot l.key (handOf d) hne hb) rfl rfl
          refine ⟨t', hrun, hrows, fun _ b' rest' h => ?_, fun h => absurd hne h⟩
          obtain ⟨rfl, -⟩ := List.cons.inj h
          exact htrick
      · obtain ⟨i, r, tie, hbest, hmem, hmax, htie⟩ := bestRow_of_ne_nil (ksorted_filter _ hsorted) hne
        obtain ⟨t', hrun, hrows, htrick⟩ := exec_matchLookup hd hc hslot ht hl hn hk (matchSearch_best s l.table t.slot l.key (handOf d) hbest)
          (hfr i tie).1 (hfr i tie).2
        exact ⟨t', hrun, hrows, fun h => absurd h hne, fun _ => ⟨i, r, tie, hmem, hmax, htie, htrick⟩⟩
    case pool =>
      refine ⟨fun h0 hf => ?_, fun h0 b i hf => ?_, fun h1 n b i hf => ?_, fun h2 hlt hmem => ?_⟩
      · exact exec_poolLookup hd hc hslot ht hl hn hk (poolLookupRes_exact_miss hpt hkey h0 hf)
      · exact exec_poolLookup hd hc hslot ht hl hn hk (poolLookupRes_exact hpt hkey h0 hf)
      · exact exec_poolLookup hd hc hslot ht hl hn hk (poolLookupRes_prefix hpt hkey h1 hf)
      · exact exec_poolLookup hd hc hslot ht hl hn hk (poolLookupRes_index hpt hkey h2 hlt hmem)
    case shuffle =>
      subst hs
      exact exec_shuffleLookup hd hc ht hl hn hk hr hi hv
  case returns =>
    obtain rfl : back = tookResult t slot := hback
    refine ⟨fun l hl => ⟨fun v b hv hk hlog => ?result, fun v b q pt r hv hk hcom hs hlog => ?choice, fun hcom hlog => ?timeout⟩,
      fun sl hsl hcom hmore => ?restart, fun ln op o hw hcom => exec_lookupTimeout_fetch hd hc ht hw hcom⟩
    case result =>
      have hlate : ∀ p, lateChoice (setTrick s d c { tookResult t slot v with poison := p }) d c = setTrick s d c { tookResult t slot v with poison := p } := by
        intro p
        cases hcom : t.committed with
        | false => exact lateChoice_open hcom
        | true =>
          refine lateChoice_noLog ?_
          rw [tookResult, hlog hcom]
          exact ite_self _
      refine ⟨?_, fun hcom => ?_⟩
      · rw [exec_lookupResult hd hc ht hslot hl hv hk false (fun h => absurd h Bool.false_ne_true), hlate, Bool.or_false]
        rfl
      · rw [exec_lookupResult hd hc ht hslot hl hv hk true (fun _ => hcom), hlate, Bool.or_true]
        rfl
    case choice =>
      have hlog' : (tookResult t slot v).log = [⟨.qsel (some (v.truncate 32)) q pt, r⟩] := by
        rw [tookResult, hs, hlog]
        rfl
      rw [exec_lookupResult hd hc ht hslot hl hv hk false (fun h => absurd h Bool.false_ne_true), Bool.or_false]
      exact congrArg (fun u => Host.Outcome.next (keepFixed s u)) (lateChoice_qsel (t := tookResult t slot v) hcom hlog')
    case timeout => exact exec_lookupTimeout_committed hd hc ht hslot hl hcom hlog
    case restart =>
      obtain ⟨u, hu⟩ := faultTrick_restarts ht 1 hcom hmore
      exact ⟨_, _, exec_lookupTimeout_open hd hc ht hslot hsl hcom, hu, rfl, rfl, rfl, rfl, rfl, rfl, rfl⟩

end Sys2Proof.Machine
end

section
/-!
PROOFS. The operations of a FLOW trick: record effects held in the log, and lookups by a packet's key (04_dealers_and_microcode.md R75,
R84; 08_flow_records.md R168, R174, R175, R180, R184, R185, R188, R194; 09_flow_actions.md R220).
-/
namespace Sys2Proof.Machine

open Sys2Proof

/-! ## The form of a flow operation -/

/-- Without RELEASE an operation is all that its row does. -/
theorem withMode_keeps {mode : Nat} (h : mode ≠ suitRelease) (s : State) (d c : Nat) (f : State → State) : withMode s d c mode f = f s := by
  unfold withMode afterOp
  rw [if_neg h]
  exact ite_self _

theorem okSuitSel_of {su : Nat} (h : su < 4) : okSuitSel su = true := decide_eq_true h

theorem flow_wf {s : State} {d c su : Nat} {t : Trick} (hr : running s d c t) (hsu : su < 4) : (okDealer d && okCtx c && okSuitSel su) = true := by
  rw [hr.1, hr.2.1, okSuitSel_of hsu]
  rfl

/-- The state in which a trick's log holds one more effect, with the record latched (R84). -/
def effectHeld (s : State) (d c su : Nat) (t : Trick) (e : Effect) : State :=
  setTrick s d c { t with log := t.log ++ [⟨e, t.recAt⟩], releaseAt := t.releaseAt || su == suitRelease }

/-- PIN writes the shuffle result that the routine holds. -/
theorem flowPin_shuf {s : State} {d c su : Nat} {t : Trick} (ht : trickAt s d c = some t) {tb i : Nat} {v : W32} (hshuf : t.shuf = some (tb, i, v)) : flowPin s d c su = flowWrite s d c su (.pin tb i v) := by
  unfold flowPin flowWrite
  rw [ht]
  dsimp only
  rw [hshuf]

/-- An effect of a trick that has just been written is logged with its record. -/
theorem logEffect_setTrick {s u : State} {d c : Nat} {t : Trick} (hu : u = setTrick s d c t) (hcom : t.committed = false) (hlog : t.log.length < 32)
    (e : Effect) : logEffect u d c e = setTrick s d c { t with log := t.log ++ [⟨e, t.recAt⟩] } := by
  rw [hu, logEffect_held (trickAt_setTrick ..) hcom hlog, setTrick_setTrick]

/-! ## Effects held until COMMIT (R75, R84) -/

section Effects
variable {s : State} {d c su f : Nat} {out : W32} {t : Trick} (hr : running s d c t) (hcom : t.committed = false) (hlog : t.log.length < 32)
include hr hcom hlog

theorem exec_taskCancel (hst : stageOf d = 7) : exec (.taskCancel d c out) s
    = .next (setTrick s d c { t with log := t.log ++ [⟨.cancel (out.toNat % 2 ^ 18), t.recAt⟩] }) := by
  refine cmd_run (i := .taskCancel d c out) (f := fun s => flowRow s d c 25 0 0 out) ?_ ?_ rfl
  · rw [Instr.wellFormed, hr.1, hr.2.1]
    rfl
  · exact (flowRow_run hr 25 0 0 out (.inl hst)).trans (logEffect_held hr.2.2.1 hcom hlog _)

variable (hsuit : (su ≠ suitNone ∧ t.suit ≠ none) ∨ gathers t = true)
include hsuit

/-- A write row of a FLOW or service dealer is held. -/
theorem flowRow_held {op : Nat} {e : Effect} (hst : stageOf d = 7 ∨ (stageOf d = 2 ∧ op ≤ 13))
    (hop : flowOp s d c op f su out = flowWrite s d c su e) : flowRow s d c op f su out = effectHeld s d c su t e :=
  (flowRow_run hr op f su out hst).trans (hop.trans (flowWrite_held hr.2.2.1 hcom hlog hsuit e))

/-- A command whose row is held. -/
theorem cmd_held {i : Instr} {op : Nat} {e : Effect} (hwf : i.wellFormed = true) (hst : stageOf d = 7 ∨ (stageOf d = 2 ∧ op ≤ 13))
    (hop : flowOp s d c op f su out = flowWrite s d c su e) : cmd i s (fun s => flowRow s d c op f su out) = .next (effectHeld s d c su t e) :=
  cmd_run hwf (flowRow_held hr hcom hlog hsuit hst hop) rfl

variable (hsu : su < 4)
include hsu

theorem exec_pin (hst : stageOf d = 2 ∨ stageOf d = 7) {tb i : Nat} {v : W32} (hshuf : t.shuf = some (tb, i, v)) (hpend : kget t.pend 3 = none) :
    exec (.pin d c su) s = .next (effectHeld s d c su t (.pin tb i v)) := by
  refine cmd_run (i := .pin d c su) (f := fun s => if (pendAt s d c 3).isSome then s else flowRow s d c 11 0 su 0) (flow_wf hr hsu) ?_ rfl
  rw [pendAt_some hr.2.2.1, hpend, if_neg (by simp)]
  exact flowRow_held hr hcom hlog hsuit (hst.symm.imp_right fun h => ⟨h, by decide⟩) (flowPin_shuf hr.2.2.1 hshuf)

end Effects

/-! ## Lookups by key (R180, R188) -/

/-- The trick once a lookup has found no record. -/
def latchedNone (t : Trick) : Trick := { t with image := none, recAt := none, flowNew := false, created := none }

/-- The trick once a lookup has latched the hot words of line `n`. -/
def latchedLine (s : State) (t : Trick) (n : Nat) : Trick :=
  { t with image := some (hotImage s (lineOf s n).words), recAt := some (.line n), flowNew := false, created := none }

theorem lookupEmpty_latched {s : State} {d c : Nat} {t : Trick} (ht : trickAt s d c = some t) : lookupEmpty s d c false = setTrick s d c (latchedNone t) :=
  modTrick_some ht _

theorem lookupEmpty_tf5 {s : State} {d c : Nat} {t : Trick} (ht : trickAt s d c = some t) :
    lookupEmpty s d c true = setTrick s d c { latchedNone t with tf := t.tf ||| 0x20#8 } :=
  modTrick_some ht _

section Rows
variable {s : State} {d c su : Nat} {out : W32} {t : Trick} (hr : running s d c t) (hst : stageOf d = 2 ∨ stageOf d = 7)
  (hsu : su < 4) (hrel : su ≠ suitRelease)
include hr hst hsu hrel

theorem exec_lookup : exec (.lookup d c su) s = .next (keepFixed s (flowLookup s d c 1 su 0)) := by
  refine (cmd_ok (i := .lookup d c su) (f := fun s => flowRow s d c 1 0 su 0) s (flow_wf hr hsu)).trans ?_
  rw [flowRow_run hr 1 0 su 0 (hst.symm.imp_right fun h => ⟨h, by decide⟩)]
  exact congrArg (fun u => Host.Outcome.next (keepFixed s u)) (withMode_keeps hrel s d c fun s => flowLookup s d c 1 su 0)

theorem exec_lookupCreate : exec (.lookupCreate d c su out) s = .next (keepFixed s (flowLookup s d c 2 su out)) := by
  refine (cmd_ok (i := .lookupCreate d c su out) (f := fun s => flowRow s d c 2 0 su out) s (flow_wf hr hsu)).trans ?_
  rw [flowRow_run hr 2 0 su out (hst.symm.imp_right fun h => ⟨h, by decide⟩)]
  exact congrArg (fun u => Host.Outcome.next (keepFixed s u)) (withMode_keeps hrel s d c fun s => flowLookup s d c 2 su out)

theorem exec_lookupCreateSyn : exec (.lookupCreateSyn d c su out) s = .next (keepFixed s (flowLookup s d c 3 su out)) := by
  refine (cmd_ok (i := .lookupCreateSyn d c su out) (f := fun s => flowRow s d c 3 0 su out) s (flow_wf hr hsu)).trans ?_
  rw [flowRow_run hr 3 0 su out (hst.symm.imp_right fun h => ⟨h, by decide⟩)]
  exact congrArg (fun u => Host.Outcome.next (keepFixed s u)) (withMode_keeps hrel s d c fun s => flowLookup s d c 3 su out)

/-- Each of the three lookups is a lookup of its number. -/
theorem exec_anyLookup {i : Instr} (hi : i ∈ [Instr.lookup d c su, .lookupCreate d c su out, .lookupCreateSyn d c su out]) :
    ∃ op v, exec i s = .next (keepFixed s (flowLookup s d c op su v)) := by
  simp only [List.mem_cons, List.mem_nil_iff, or_false] at hi
  rcases hi with rfl | rfl | rfl
  · exact ⟨1, 0, exec_lookup hr hst hsu hrel⟩
  · exact ⟨2, out, exec_lookupCreate hr hst hsu hrel⟩
  · exact ⟨3, out, exec_lookupCreateSyn hr hst hsu hrel⟩

end Rows

theorem keepFixed_confMiss (s : State) (d c : Nat) (t : Trick) : keepFixed s (setTrick (confMiss s) d c t) = setTrick (confMiss s) d c t := by
  unfold confMiss
  split <;> rfl

section Lookup
variable {s : State} {d c n : Nat} {t : Trick} {key : List Byte} {l : Line} (ht : trickAt s d c = some t)
  (hkey : key = trickKeyOf s t) (hl : l = lineOf s n) (op : Nat) (out : W32)
include ht hkey

/-- A lookup without a suit that finds no line counts a miss. -/
theorem flowLookup_none (hfind : findLine s (setOf s key) (digestOf s key) = none) :
    flowLookup s d c op suitNone out = setTrick (confMiss s) d c { latchedNone t with tf := t.tf ||| 0x20#8 } := by
  unfold flowLookup
  rw [ht]
  dsimp only
  rw [← hkey, hfind]
  dsimp only
  rw [if_pos rfl]
  refine lookupEmpty_tf5 ?_
  unfold confMiss
  split <;> exact ht

variable (hfind : findLine s (setOf s key) (digestOf s key) = some n)
include hl hfind

/-- A lookup without a suit that finds a cached record hits it. -/
theorem flowLookup_record (hrec : l.lstate = .record) : flowLookup s d c op suitNone out = lookupHit s d c n := by
  unfold flowLookup
  rw [ht]
  dsimp only
  rw [← hkey, hfind]
  dsimp only
  rw [if_pos rfl, ← hl, hrec]
  exact if_pos rfl

/-- A lookup with a suit goes by the suit of the line that it finds, where that line is not awaited. -/
theorem flowLookup_suit {mode m : Nat} (hmode : mode ≠ suitNone) (hp : l.lstate ≠ .pending) (hm : suitOf n l = m) :
    ((suitAt s m).holder = some (.trick d c) → flowLookup s d c op mode out = lookupHeld (holdSuit s d c m) d c n op out)
    ∧ ((suitAt s m).holder = none → flowLookup s d c op mode out = lookupHeld (acquire s d c m) d c n op out) := by
  have hpend : (l.lstate == .pending) = false := by simpa using hp
  have hrow : flowLookup s d c op mode out =
      (if (suitAt s m).holder == some (.trick d c) then lookupHeld (holdSuit s d c m) d c n op out
       else if (suitAt s m).holder.isNone && !(l.lstate == .pending && canPark s t) then lookupHeld (acquire s d c m) d c n op out
       else if canPark s t && ((suitAt s m).holder.isNone || (suitAt s m).holder == some .chain || !(suitAt s m).chain.isEmpty) then parkTail s d c m
       else modTrick (waitSuit s m (.trick d c)) d c fun t => { t with wait := some (.suit m op out) }) := by
    unfold flowLookup
    rw [ht]
    dsimp only
    rw [← hkey, hfind]
    dsimp only
    rw [if_neg hmode, ← hl, hpend, Bool.and_false, if_neg Bool.false_ne_true, hm]
  refine ⟨fun h => ?_, fun h => ?_⟩
  · rw [hrow, h, if_pos (beq_self_eq_true _)]
  · rw [hrow, h, hpend, if_neg (by simp), if_pos (by simp)]

end Lookup

/-! ## A record's free suit is taken (R188) -/

/-- A free suit is taken, and what the trick held before stays held. -/
theorem acquire_free {s : State} {d c m : Nat} {t : Trick} (ht : trickAt s d c = some t) (hne : t.suit ≠ some m) :
    acquire s d c m = setTrick (takeSuit s m (.trick d c)) d c { t with suit := some m, more := (t.suit.toList ++ t.more).filter (· != m) } := by
  have hu : trickAt (takeSuit s m (.trick d c)) d c = some t := ht
  unfold acquire holdSuit
  rw [hu]
  exact if_neg (by simpa using hne)

theorem lookupHeld_record {s : State} {d c n : Nat} (hrec : (lineOf s n).lstate = .record) (op : Nat) (out : W32) :
    lookupHeld s d c n op out = lookupHit s d c n := by
  unfold lookupHeld
  rw [hrec]

/-- A hit under a suit taken for it. -/
theorem lookupHit_acquired {s : State} {d c n m : Nat} {t : Trick} (ht : trickAt s d c = some t) (hne : t.suit ≠ some m) :
    trickAt (lookupHit (acquire s d c m) d c n) d c = some (latchedLine s { t with suit := some m, more := (t.suit.toList ++ t.more).filter (· != m) } n)
    ∧ suitAt (lookupHit (acquire s d c m) d c n) m = { suitAt s m with holder := some (.trick d c) } := by
  rw [acquire_free ht hne]
  refine ⟨lookupHit_trick (trickAt_setTrick ..) n, ?_⟩
  unfold suitAt
  rw [lookupHit_suits]
  exact kgetD_kset_same ..

/-! ## A line known to be absent (R184, R185, R193) -/

section Absent
variable {s : State} {d c n : Nat} {t : Trick} (ht : trickAt s d c = some t) (habs : (lineOf s n).lstate = .absent)
include ht habs

theorem lookupHeld_absent (hsuit : t.suit = some (lineSuit n)) (op : Nat) (out : W32) :
    lookupHeld (holdSuit s d c (lineSuit n)) d c n op out = lookupCreateAt s d c n op out := by
  have hold : holdSuit s d c (lineSuit n) = s := by
    unfold holdSuit
    rw [ht]
    dsimp only
    rw [hsuit, if_pos (beq_self_eq_true _)]
  rw [hold]
  unfold lookupHeld
  rw [habs]

omit habs

theorem lookupCreateAt_misses {op : Nat} (hop : creates s t op = false) (out : W32) :
    lookupCreateAt s d c n op out = setTrick s d c (latchedNone t) := by
  unfold lookupCreateAt
  rw [ht]
  dsimp only
  rw [hop, if_neg Bool.false_ne_true]
  exact lookupEmpty_latched ht

theorem lookupCreateAt_creates {op : Nat} (hop : creates s t op = true) (hok : createOk s n = true) (hcom : t.committed = false)
    (hlog : t.log.length < 32) (out : W32) :
    lookupCreateAt s d c n op out = setTrick s d c { t with
      image := none, recAt := some (.line n), flowNew := true, created := some (bits out.toNat 7 4, bits out.toNat 3 0),
      log := t.log ++ [⟨.create (op == 3) (bits out.toNat 7 4) (bits out.toNat 3 0), some (.line n)⟩] } := by
  unfold lookupCreateAt
  rw [ht]
  dsimp only
  rw [hop, hok, if_pos rfl, if_pos rfl, modTrick_some ht, logCreate]
  refine logEffect_setTrick rfl ?_ ?_ _
  · exact hcom
  · exact hlog

theorem lookupCreateAt_limited {op : Nat} (hop : creates s t op = true) (hok : createOk s n = false) (out : W32) :
    lookupCreateAt s d c n op out = setTrick (bump s aInsertLimited) d c { latchedNone t with tf := t.tf ||| 0x20#8 } := by
  unfold lookupCreateAt
  rw [ht]
  dsimp only
  rw [hop, hok, if_pos rfl, if_neg Bool.false_ne_true]
  exact lookupEmpty_tf5 ht

end Absent

section Create
variable {s : State} {t : Trick} {p : Pkt} (hp : trickPkt s t = some p)

theorem creates_lookup : creates s t 1 = false := rfl

theorem creates_create : creates s t 2 = true := rfl

include hp

theorem creates_syn (hsyn : synOnly p = true) : creates s t 3 = true := by
  unfold creates
  rw [hp]
  exact hsyn

end Create

/-- Settles O47: effects by the log that holds them, lookups by the line that they find. -/
theorem flowEffectsAndLookups : Obligations.FlowEffectsAndLookups := by
  unfold Obligations.FlowEffectsAndLookups
  refine ⟨fun s d c su f out t held hr hcom hlog hsu hf hheld => ?effects, fun s d c su n out t key l hr hst hcom hkey hl => ?lookups⟩
  case effects =>
    obtain rfl : held = fun e => .next (effectHeld s d c su t e) := hheld
    have hwf := flow_wf hr hsu
    have hwf' : (okDealer d && okCtx c && okSuitSel su && okField f) = true := by
      rw [hwf, okField, decide_eq_true hf]
      rfl
    refine ⟨fun hst hsuit => ?_, fun hst hsuit => ?_, fun hst => exec_taskCancel hr hcom hlog hst⟩
    · have hrow : ∀ op, op ≤ 13 → stageOf d = 7 ∨ (stageOf d = 2 ∧ op ≤ 13) := fun op hop => hst.symm.imp_right fun h => ⟨h, hop⟩
      exact ⟨cmd_held (i := .flowOpWrite d c su f out) (op := 5) (f := f) (out := out) hr hcom hlog hsuit hwf' (hrow 5 (by decide)) rfl,
        cmd_held (i := .flowOpAdd d c su f out) (op := 6) (f := f) (out := out) hr hcom hlog hsuit hwf' (hrow 6 (by decide)) rfl,
        cmd_held (i := .flowOpOr d c su f out) (op := 7) (f := f) (out := out) hr hcom hlog hsuit hwf' (hrow 7 (by decide)) rfl,
        cmd_held (i := .touch d c su) (op := 9) (f := 0) (out := 0) hr hcom hlog hsuit hwf (hrow 9 (by decide)) rfl,
        cmd_held (i := .flowOpDelete d c su) (op := 10) (f := 0) (out := 0) hr hcom hlog hsuit hwf (hrow 10 (by decide)) rfl,
        cmd_held (i := .keepSet d c su) (op := 12) (f := 0) (out := 0) hr hcom hlog hsuit hwf (hrow 12 (by decide)) rfl,
        cmd_held (i := .keepClear d c su) (op := 13) (f := 0) (out := 0) hr hcom hlog hsuit hwf (hrow 13 (by decide)) rfl,
        fun tb i v hshuf hpend => exec_pin hr hcom hlog hsuit hsu hst hshuf hpend⟩
    · exact ⟨cmd_held (i := .flowOpInsert d c su) (op := 16) (f := 0) (out := 0) hr hcom hlog hsuit hwf (.inl hst) rfl,
        cmd_held (i := .writeback d c su) (op := 18) (f := 0) (out := 0) hr hcom hlog hsuit hwf (.inl hst) rfl,
        cmd_held (i := .relocate d c su) (op := 17) (f := 0) (out := 0) hr hcom hlog hsuit hwf (.inl hst) rfl⟩
  case lookups =>
    have ht := hr.2.2.1
    refine ⟨fun i hi => ⟨fun hnone => ?_, fun hfind hrec => ?_⟩, fun i hi hfind hrec hfree hne => ?_, fun hsu hfind habs hheld hsuit => ?_⟩
    · obtain ⟨op, v, hrun⟩ := exec_anyLookup hr hst (by decide) (by decide) hi
      rw [hrun, flowLookup_none ht hkey op v hnone, keepFixed_confMiss]
      rfl
    · obtain ⟨op, v, hrun⟩ := exec_anyLookup hr hst (by decide) (by decide) hi
      rw [flowLookup_record ht hkey hl op v hfind hrec] at hrun
      subst hl
      exact ⟨_, hrun, lookupHit_trick ht n, lookupHit_hits s d c n, lookupHit_suits s d c n⟩
    · obtain ⟨op, v, hrun⟩ := exec_anyLookup hr hst (by decide) (by decide) hi
      have hgo := (flowLookup_suit ht hkey hl op v hfind (mode := suitAcquire) (by decide) (by rw [hrec]; decide) rfl).2 hfree
      have hline : (lineOf (acquire s d c (suitOf n l)) n).lstate = .record := by
        rw [acquire_free ht hne, ← hrec, hl]
        rfl
      rw [hgo, lookupHeld_record hline] at hrun
      obtain ⟨htrick, hsuits⟩ := lookupHit_acquired (n := n) ht hne
      refine ⟨_, hrun, htrick.trans ?_, hsuits⟩
      rw [hl]
      rfl
    · have hrel : su ≠ suitRelease ∧ su ≠ suitNone ∧ su < 4 := by
        rcases hsu with rfl | rfl <;> decide
      obtain ⟨hrel, hmode, hlt⟩ := hrel
      have hm : suitOf n l = lineSuit n := by
        rw [suitOf, habs]
        rfl
      have hgo : ∀ op v, flowLookup s d c op su v = lookupCreateAt s d c n op v := fun op v =>
        ((flowLookup_suit ht hkey hl op v hfind hmode (by rw [habs]; decide) hm).1 hheld).trans (lookupHeld_absent ht (hl ▸ habs) hsuit op v)
      refine ⟨?_, fun p hp hlog i syn hi => ?_⟩
      · rw [exec_lookup hr hst hlt hrel, hgo, lookupCreateAt_misses ht creates_lookup]
        rfl
      · obtain ⟨op, hrun, hcr, hsyn⟩ : ∃ op, exec i s = .next (keepFixed s (lookupCreateAt s d c n op out)) ∧ creates s t op = true ∧ (op == 3) = syn := by
          rcases hi with ⟨rfl, rfl⟩ | ⟨rfl, rfl, hsyn⟩
          · exact ⟨2, hgo 2 out ▸ exec_lookupCreate hr hst hlt hrel, creates_create, rfl⟩
          · exact ⟨3, hgo 3 out ▸ exec_lookupCreateSyn hr hst hlt hrel, creates_syn hp hsyn, rfl⟩
        subst hsyn
        refine ⟨fun hok => ?_, fun hok => ?_⟩
        · rw [hrun, lookupCreateAt_creates ht hcr hok hcom hlog]
          rfl
        · rw [hrun, lookupCreateAt_limited ht hcr hok]
          rfl

end Sys2Proof.Machine
end

section
/-!
PROOFS. READ, FSM_STEP, LOOKUP_INDEX, SCAN and TASK_POST (04_dealers_and_microcode.md R75; 08_flow_records.md R175, R188, R194;
09_flow_actions.md R200, R201; 10_task_scheduler_and_suits.md R227, R228, R230).
-/
namespace Sys2Proof.Machine

open Sys2Proof

/-! ## A read of a record in HBM (R175) -/

theorem restartMax_congr {s u : State} (h : SameRegsButHbm s u) : restartMax u = restartMax s := by
  have hctl := h aDlrCtl (fun st k _ _ => by unfold aDlrCtl aHbmCtr; omega) dlrCtlReset
  unfold restartMax dlrCtl
  rw [hctl]

/-- The read of record `i` by service dealer `d`. -/
def recordRead (s : State) (d i : Nat) : State × List Byte × Bool :=
  hbmRead s (recSource d) (recWordOff s i 0) (recBytes s - 4)

theorem recordRead_hbm (s : State) (d i : Nat) : SameButHbm s (recordRead s d i).1 := .hbmRead ..

theorem SameButHbm.trickAt {s u : State} (h : SameButHbm s u) (d c : Nat) : trickAt u d c = trickAt s d c := by
  unfold SameButHbm at h
  rw [h]
  rfl

theorem SameButHbm.fullRecord {s u : State} (h : SameButHbm s u) (i : Nat) : fullRecord u i = fullRecord s i := by
  unfold SameButHbm at h
  rw [h]
  exact fullRecord_congr rfl rfl rfl rfl i

/-- The trick once it has latched record `i` whole. -/
def latchedIndex (s : State) (t : Trick) (i : Nat) : Trick :=
  { t with image := some (fullRecord s i), recAt := some (.index i), flowNew := false, created := none }

section Read
variable {s : State} {d c i : Nat} {t : Trick} (ht : trickAt s d c = some t)
include ht

theorem readIndex_clean (hok : (recordRead s d i).2.2 = false) : readIndex s d c i = (true, (recordRead s d i).1) := by
  unfold readIndex
  dsimp only
  rw [show trickAt (hbmRead s (recSource d) (recWordOff s i 0) (recBytes s - 4)).1 d c = some t from ((recordRead_hbm s d i).trickAt d c).trans ht]
  dsimp only
  rw [show (hbmRead s (recSource d) (recWordOff s i 0) (recBytes s - 4)).2.2 = false from hok]
  rfl

theorem readIndex_poisoned (hbad : (recordRead s d i).2.2 = true) (hcom : t.committed = false) :
    readIndex s d c i = (false, faultTrick (recordRead s d i).1 d c 0 none) := by
  unfold readIndex
  dsimp only
  rw [show trickAt (hbmRead s (recSource d) (recWordOff s i 0) (recBytes s - 4)).1 d c = some t from ((recordRead_hbm s d i).trickAt d c).trans ht]
  dsimp only
  rw [show (hbmRead s (recSource d) (recWordOff s i 0) (recBytes s - 4)).2.2 = true from hbad, hcom]
  rfl

/-- A clean read latches the whole record. -/
theorem latchIndex_clean (hok : (recordRead s d i).2.2 = false) :
    latchIndex s d c i = setTrick (recordRead s d i).1 d c (latchedIndex s t i) := by
  have hsame := recordRead_hbm s d i
  unfold latchIndex
  dsimp only
  rw [readIndex_clean ht hok]
  dsimp only
  rw [if_pos rfl, modTrick_some ((hsame.trickAt d c).trans ht), hsame.fullRecord]
  rfl

/-- A poisoned one restarts the routine. -/
theorem latchIndex_poisoned (hbad : (recordRead s d i).2.2 = true) (hcom : t.committed = false) (hmore : t.restarts < restartMax s) :
    ∃ u : State, trickAt (latchIndex s d c i) d c = some (reload u (stageOf d) { t with restarts := t.restarts + 1 }) := by
  have hmax : t.restarts < restartMax (recordRead s d i).1 := by
    rw [show restartMax (recordRead s d i).1 = restartMax s from restartMax_congr (SameRegsButHbm.hbmRead _ _ _ _)]
    exact hmore
  obtain ⟨u, hu⟩ := faultTrick_restarts (((recordRead_hbm s d i).trickAt d c).trans ht) 0 hcom hmax
  refine ⟨u, ?_⟩
  unfold latchIndex
  dsimp only
  rw [readIndex_poisoned ht hbad hcom]
  exact hu

end Read

/-- Latching a record leaves alone what no command of the running part writes. -/
theorem keepFixed_recordRead {s u : State} (d c i : Nat) (x : Trick) (h : keepFixed s u = u) :
    keepFixed s (setTrick (recordRead u d i).1 d c x) = setTrick (recordRead u d i).1 d c x := by
  have hsame := recordRead_hbm u d i
  have hfix := keepFixed_fields h
  unfold SameButHbm at hsame
  refine keepFixed_of ?_
  rw [hsame]
  exact hfix

/-! ## The form of the commands -/

section Rows
variable {s : State} {d c su f : Nat} {out : W32} {t : Trick} (hr : running s d c t)
include hr

theorem exec_flowOpRead (hst : stageOf d = 2 ∨ stageOf d = 7) : exec (.flowOpRead d c) s = .next (keepFixed s (flowReread s d c)) := by
  refine (cmd_ok (i := .flowOpRead d c) (f := fun s => flowRow s d c 4 0 0 0) s ?_).trans ?_
  · rw [Instr.wellFormed, hr.1, hr.2.1]
    rfl
  · rw [flowRow_run hr 4 0 0 0 (hst.symm.imp_right fun h => ⟨h, by decide⟩)]
    exact congrArg (fun u => Host.Outcome.next (keepFixed s u)) (withMode_keeps (by decide) s d c fun s => flowReread s d c)

variable (hsu : su < 4)
include hsu

theorem exec_fsmStep (hst : stageOf d = 2 ∨ stageOf d = 7) : exec (.fsmStep d c su out) s = .next (keepFixed s (flowFsm s d c su out)) := by
  refine (cmd_ok (i := .fsmStep d c su out) (f := fun s => flowRow s d c 8 0 su out) s (flow_wf hr hsu)).trans ?_
  rw [flowRow_run hr 8 0 su out (hst.symm.imp_right fun h => ⟨h, by decide⟩)]
  rfl

theorem exec_lookupIndex (hst : stageOf d = 7) (hrel : su ≠ suitRelease) :
    exec (.lookupIndex d c su out) s = .next (keepFixed s (lookupIndexOp s d c su out)) := by
  refine (cmd_ok (i := .lookupIndex d c su out) (f := fun s => flowRow s d c 14 0 su out) s (flow_wf hr hsu)).trans ?_
  rw [flowRow_run hr 14 0 su out (.inl hst)]
  exact congrArg (fun u => Host.Outcome.next (keepFixed s u)) (withMode_keeps hrel s d c fun s => lookupIndexOp s d c su out)

theorem exec_scan (hst : stageOf d = 7) (hrel : su ≠ suitRelease) : exec (.scan d c su) s = .next (keepFixed s (scanOp 4100 s d c 0)) := by
  refine (cmd_ok (i := .scan d c su) (f := fun s => flowRow s d c 15 0 su 0) s (flow_wf hr hsu)).trans ?_
  rw [flowRow_run hr 15 0 su 0 (.inl hst)]
  exact congrArg (fun u => Host.Outcome.next (keepFixed s u)) (withMode_keeps hrel s d c fun s => scanOp 4100 s d c 0)

theorem exec_taskPost (hst : stageOf d = 7) (hf : f < 64) : exec (.taskPost d c su f out) s = .next (keepFixed s (taskPostOp s d c su f out)) := by
  refine (cmd_ok (i := .taskPost d c su f out) (f := fun s => flowRow s d c 24 f su out) s ?_).trans ?_
  · rw [Instr.wellFormed, flow_wf hr hsu, okField, decide_eq_true hf]
    rfl
  · rw [flowRow_run hr 24 f su out (.inl hst)]
    rfl

end Rows

/-! ## FSM_STEP (R200, R201) -/

/-- The RELEASE of an operation that leaves its trick in the same attempt waits for COMMIT. -/
theorem withMode_held {s u : State} {d c su : Nat} {t x : Trick} {f : State → State} (ht : trickAt s d c = some t) (hf : f s = setTrick u d c x)
    (hage : x.age = t.age ∧ x.attempt = t.attempt) (hcom : x.committed = false) :
    withMode s d c su f = setTrick u d c { x with releaseAt := x.releaseAt || su == suitRelease } := by
  have hrun : sameRun s (setTrick u d c x) d c = true := by
    unfold sameRun
    rw [ht, trickAt_setTrick, Option.map_some, Option.map_some, hage.1, hage.2]
    exact beq_self_eq_true _
  unfold withMode
  rw [hf, hrun, if_pos rfl]
  exact afterOp_held hcom su

/-- The trick after a step that its machine does not define. -/
def fsmUndefined (t : Trick) (st age : Nat) : Trick :=
  { t with fsmRes := BitVec.ofNat 32 (st % 256 * 2 ^ 8 + st % 256 * 2 ^ 16 + age % 16 * 2 ^ 24 + 2 ^ 30), tf := t.tf ||| 0x10#8 }

/-- The result of a step from `st` and `age` by cell word `w` (Table 9.2). -/
def fsmResult (w st age : Nat) : W32 :=
  BitVec.ofNat 32 (bits w 23 16 + (if bits w 31 24 = 0xFF then st else bits w 31 24) * 2 ^ 8 + st * 2 ^ 16
    + (if bit w 15 then bits w 11 8 else age) * 2 ^ 24 + b2n (bit w 15) * 2 ^ 28 + b2n (bits w 31 24 != 0xFF) * 2 ^ 29)

/-- The log after that step: the state and age class that it writes, if any. -/
def fsmLog (t : Trick) (w : Nat) : List Logged :=
  if bits w 31 24 = 0xFF && !bit w 15 then t.log
  else t.log ++ [⟨.fsm (if bits w 31 24 = 0xFF then none else some (bits w 31 24)) (if bit w 15 then some (bits w 11 8) else none), t.recAt⟩]

/-- The trick after a step that its machine defines. -/
def fsmStepped (t : Trick) (w st age : Nat) : Trick := { t with fsmRes := fsmResult w st age, log := fsmLog t w }

section Fsm
variable {s : State} {d c su : Nat} {out : W32} {t : Trick} {ws : List W32} {st k age : Nat} (ht : trickAt s d c = some t)
  (hcom : t.committed = false) (hlog : t.log.length < 32) (hnew : t.flowNew = false) (himg : t.image = some ws)
  (hsuit : (su ≠ suitNone ∧ t.suit ≠ none) ∨ gathers t = true)
  (hst : st = bits (wordOf ws (coreW s)) 31 24) (hk : k = bits (wordOf ws (coreW s)) 23 20) (hage : age = bits (wordOf ws (coreW s)) 19 16)

theorem suitError_false (hsuit : (su ≠ suitNone ∧ t.suit ≠ none) ∨ gathers t = true) : suitError t su = false := by
  unfold suitError
  rcases hsuit with ⟨hmode, hheld⟩ | hg
  · obtain ⟨m, hm⟩ := Option.ne_none_iff_exists'.1 hheld
    rw [hm, beq_false_of_ne hmode]
    rfl
  · rw [hg]
    exact Bool.and_false _

include ht hsuit in
theorem flowFsm_step : flowFsm s d c su out = withMode s d c su fun s => fsmStepOp s d c out := by
  unfold flowFsm
  rw [ht]
  dsimp only
  rw [suitError_false hsuit, Bool.and_false, if_neg Bool.false_ne_true]

include ht hnew himg hst hk hage

theorem fsmStepOp_undefined (hun : fsmCount s t.slot ≤ k ∨ 32 ≤ st) :
    fsmStepOp s d c out = setTrick (bump s aFsmUndef) d c (fsmUndefined t st age) := by
  unfold fsmStepOp
  rw [ht]
  dsimp only
  rw [hnew, if_neg Bool.false_ne_true]
  dsimp only
  rw [himg]
  dsimp only
  rw [← hst, ← hk, ← hage, if_pos (by simpa using hun)]
  exact modTrick_some (show trickAt (bump s aFsmUndef) d c = some t from ht) _

include hcom hlog

theorem fsmStepOp_defined (hm : k < fsmCount s t.slot) (hlt : st < 32) {w : Nat} (hw : w = fsmCell s t.slot k st (out.toNat % 32)) :
    fsmStepOp s d c out = setTrick s d c (fsmStepped t w st age) := by
  unfold fsmStepOp
  rw [ht]
  dsimp only
  rw [hnew, if_neg Bool.false_ne_true]
  dsimp only
  rw [himg]
  dsimp only
  rw [← hst, ← hk, ← hage, if_neg (by simp [hm, hlt]), ← hw, modTrick_some ht]
  unfold fsmStepped fsmLog
  split
  · rfl
  · refine logEffect_setTrick rfl ?_ ?_ _
    · exact hcom
    · exact hlog

end Fsm

/-! ## Suits of an index (R188) -/

/-- The trick once it has taken suit `m` beside those it held. -/
def withSuit (t : Trick) (m : Nat) : Trick := { t with suit := some m, more := (t.suit.toList ++ t.more).filter (· != m) }

section Take
variable {s : State} {d c m op : Nat} {t : Trick} {out : W32} (ht : trickAt s d c = some t)
include ht

theorem takeIndex_free (hne : t.suit ≠ some m) (hfree : (suitAt s m).holder = none) :
    takeIndex s d c m op out = (true, setTrick (takeSuit s m (.trick d c)) d c (withSuit t m)) := by
  unfold takeIndex
  dsimp only
  rw [hfree, if_neg (by simp), if_pos (by rfl), acquire_free ht hne]
  rfl

theorem takeIndex_held {h : Holder} (hheld : (suitAt s m).holder = some h) (hne : h ≠ .trick d c) :
    takeIndex s d c m op out = (false, setTrick (waitSuit s m (.trick d c)) d c { t with wait := some (.suit m op out) }) := by
  unfold takeIndex
  dsimp only
  rw [hheld, if_neg (by simpa using hne), if_neg (by simp), modTrick_some (show trickAt (waitSuit s m (.trick d c)) d c = some t from ht)]

end Take

theorem holder_taken (s : State) (d c m : Nat) (x : Trick) (h : Holder) : (suitAt (setTrick (takeSuit s m h) d c x) m).holder = some h :=
  congrArg Suit.holder (kgetD_kset_same ..)

theorem takeSuit_setTrick (s : State) (d c m : Nat) (x : Trick) (h : Holder) : takeSuit (setTrick s d c x) m h = setTrick (takeSuit s m h) d c x := rfl

theorem waitSuit_setTrick (s : State) (d c m : Nat) (x : Trick) (h : Holder) : waitSuit (setTrick s d c x) m h = setTrick (waitSuit s m h) d c x := rfl

/-! ## LOOKUP_INDEX (R175) -/

section Index
variable {s : State} {d c i : Nat} {t : Trick} {out : W32} (ht : trickAt s d c = some t) (hi : i = out.toNat % 2 ^ 28)
include ht hi

theorem lookupIndexOp_invalid (su : Nat) (hv : indexValid s i = false) : lookupIndexOp s d c su out = setTrick s d c (latchedNone t) := by
  unfold lookupIndexOp
  dsimp only
  rw [← hi, hv, if_pos (by rfl)]
  exact lookupEmpty_latched ht

omit ht in
theorem lookupIndexOp_plain (hv : indexValid s i = true) : lookupIndexOp s d c suitNone out = latchIndex s d c i := by
  unfold lookupIndexOp
  dsimp only
  rw [← hi, hv, if_neg (by decide), if_pos rfl]

theorem lookupIndexOp_acquire (hv : indexValid s i = true) (hne : t.suit ≠ some i) (hfree : (suitAt s i).holder = none) :
    lookupIndexOp s d c suitAcquire out = latchIndex (setTrick (takeSuit s i (.trick d c)) d c (withSuit t i)) d c i := by
  unfold lookupIndexOp
  dsimp only
  rw [← hi, hv, if_neg (by decide), if_neg (by decide), takeIndex_free ht hne hfree]
  exact if_pos rfl

end Index

/-! ## SCAN (R194) -/

/-- The trick with its scan cursor at `i`. -/
def atCursor (t : Trick) (i : Nat) : Trick := { t with scanPos := some i }

section Scan
variable {s : State} {d c a b : Nat} {t : Trick} {out : W32} (k : Nat) (ht : trickAt s d c = some t) (hcur : scanCursor s t = some (a, b))
  (hnew : ¬ (t.suit = some a ∧ t.recAt = none))
include ht hcur hnew

theorem scanOp_end (hnext : nextExpired s a (b - a) = none) :
    scanOp (k + 1) s d c out = setTrick s d c { latchedNone t with scanPos := some b } := by
  unfold scanOp
  rw [ht]
  dsimp only
  rw [hcur]
  dsimp only
  rw [if_neg (by simpa using hnew), hnext]
  dsimp only
  rw [lookupEmpty_latched ht, setCursor, modTrick_some (trickAt_setTrick ..), setTrick_setTrick]

variable {i : Nat} (hnext : nextExpired s a (b - a) = some i)
include hnext

theorem scanOp_takes (hne : t.suit ≠ some i) (hfree : (suitAt s i).holder = none) :
    scanOp (k + 1) s d c out = latchIndex (setTrick (takeSuit s i (.trick d c)) d c { withSuit t i with scanPos := some (i + 1) }) d c i := by
  unfold scanOp
  rw [ht]
  dsimp only
  rw [hcur]
  dsimp only
  rw [if_neg (by simpa using hnew), hnext]
  dsimp only
  rw [show setCursor s d c i = setTrick s d c (atCursor t i) from modTrick_some ht _, takeIndex_free (t := atCursor t i) (trickAt_setTrick s d c (atCursor t i)) hne hfree]
  dsimp only
  rw [if_pos rfl, setCursor, modTrick_some (trickAt_setTrick ..), takeSuit_setTrick, setTrick_setTrick, setTrick_setTrick]
  rfl

theorem scanOp_waits {h : Holder} (hheld : (suitAt s i).holder = some h) (hne : h ≠ .trick d c) :
    scanOp (k + 1) s d c out = setTrick (waitSuit s i (.trick d c)) d c
      { t with scanPos := some i, wait := some (.suit i 15 out), recAt := none, image := none, flowNew := false } := by
  unfold scanOp
  rw [ht]
  dsimp only
  rw [hcur]
  dsimp only
  rw [if_neg (by simpa using hnew), hnext]
  dsimp only
  rw [show setCursor s d c i = setTrick s d c (atCursor t i) from modTrick_some ht _, takeIndex_held (t := atCursor t i) (trickAt_setTrick s d c (atCursor t i)) hheld hne]
  dsimp only
  rw [if_neg Bool.false_ne_true, modTrick_some (trickAt_setTrick ..), waitSuit_setTrick, setTrick_setTrick, setTrick_setTrick]
  rfl

end Scan

/-! ## TASK_POST (R227, R228, R230) -/

/-- The body of a post by a routine. -/
def postBody (s : State) (t : Trick) (su f : Nat) (out : W32) : TaskBody :=
  { args := t.g.take 4, suit := postSuit s t su, succ := if bit f 5 then t.posted.head? else none, routine := bits out.toNat 7 0,
    list := bits out.toNat 15 12, urgent := bit out.toNat 11, level := bits out.toNat 10 8, delay := bits out.toNat 31 16, origin := 0 }

/-- The entry that it reserves. -/
def postEntry (s : State) (t : Trick) (su f : Nat) (out : W32) : Task :=
  { state := .reserved, count := f % 32, level := bits out.toNat 10 8, list := bits out.toNat 15 12, urgent := bit out.toNat 11,
    hand := 0, stock := 0, expiry := 0, delayed := false, order := s.order, readyClk := 0, via := 17, body := postBody s t su f out,
    kind := .micro }

section Post
variable {s : State} {d c su f : Nat} {t : Trick} {out : W32} (ht : trickAt s d c = some t)
include ht

theorem taskPostOp_fails (hfull : freeHandles s ≤ 4097) :
    taskPostOp s d c su f out = setTrick (bump s aPostFail) d c { t with fsmRes := 0x80000000#32 } := by
  unfold taskPostOp
  rw [ht]
  dsimp only
  rw [if_pos hfull]
  exact modTrick_some (show trickAt (bump s aPostFail) d c = some t from ht) _

theorem taskPostOp_reserves (hcom : t.committed = false) (hlog : t.log.length < 32) (hs : ksorted s.tasks = true) (hroom : 4097 < freeHandles s) :
    ∃ u h e, taskPostOp s d c su f out = setTrick u d c { t with fsmRes := BitVec.ofNat 32 h, posted := t.posted ++ [h], log := t.log ++ [⟨.post h e.body, t.recAt⟩] }
      ∧ h < poolHandles ∧ kget s.tasks h = none ∧ kget u.tasks h = some e ∧ e.state = .reserved ∧ e.count = f % 32 ∧ e.body = postBody s t su f out := by
  obtain ⟨h, hpick, -, hlt, hfree⟩ := chooseFree_some s (lo := 0) (hi := poolHandles) hs (by
    unfold freeHandles at hroom
    omega)
  obtain ⟨e, he⟩ : ∃ e, e = postEntry s t su f out := ⟨_, rfl⟩
  obtain ⟨u, hu⟩ : ∃ u : State, u = { s with fresh := s.fresh + 1, tasks := kset s.tasks h e } := ⟨_, rfl⟩
  have htu : trickAt u d c = some t := by
    rw [hu]
    exact ht
  refine ⟨u, h, e, ?_, hlt, hfree, ?_, ?_⟩
  · have hop : taskPostOp s d c su f out
        = logEffect (modTrick u d c fun t => { t with fsmRes := BitVec.ofNat 32 h, posted := t.posted ++ [h] }) d c (.post h e.body) := by
      unfold taskPostOp
      rw [ht]
      dsimp only
      rw [if_neg (Nat.not_le.2 hroom), hpick, hu, he]
      rfl
    rw [hop, modTrick_some htu]
    refine logEffect_setTrick rfl ?_ ?_ _
    · exact hcom
    · exact hlog
  · rw [hu]
    exact kget_kset_same ..
  · rw [he]
    exact ⟨rfl, rfl, rfl⟩

end Post

/-- Settles O48: each operation by what it does to its trick. -/
theorem recordsAreSteppedScannedAndTasksPosted : Obligations.RecordsAreSteppedScannedAndTasksPosted := by
  unfold Obligations.RecordsAreSteppedScannedAndTasksPosted
  refine ⟨fun s d c su f out t hr hcom hlog hsu hf rd hrd => ⟨fun hst => ⟨fun hno => ?noRead, fun i hi hok => ?read, fun ws st k age w next on hnew himg hsuit
      hst' hk hage hw hnext hon => ?fsm⟩, fun hst i hi => ?index⟩, fun s d c su f out t hr hcom hlog hsu hf hst => ⟨fun a b hcur hnew => ?scan, fun hs => ?post⟩⟩
  case noRead =>
    have hop : flowReread s d c = s := by
      unfold flowReread
      rw [hr.2.2.1, Option.bind_some]
      cases hrec : t.recAt with
      | none => rfl
      | some r =>
        cases r with
        | index i => exact absurd hrec (hno i)
        | _ => rfl
    rw [exec_flowOpRead hr hst, hop]
    rfl
  case read =>
    subst hrd
    have hop : flowReread s d c = (recordRead s d i).1 := by
      unfold flowReread
      rw [hr.2.2.1, Option.bind_some, hi]
      exact congrArg Prod.snd (readIndex_clean hr.2.2.1 hok)
    rw [exec_flowOpRead hr hst, hop, keepFixed_hbm (recordRead_hbm s d i)]
    rfl
  case fsm =>
    subst hw hnext hon
    have ht := hr.2.2.1
    refine ⟨fun hun => ?_, fun hm hlt => ?_⟩
    · rw [exec_fsmStep hr hsu hst, flowFsm_step ht hsuit,
        withMode_held (f := fun s => fsmStepOp s d c out) ht (fsmStepOp_undefined ht hnew himg hst' hk hage hun) ⟨rfl, rfl⟩ hcom]
      rfl
    · rw [exec_fsmStep hr hsu hst, flowFsm_step ht hsuit,
        withMode_held (f := fun s => fsmStepOp s d c out) ht (fsmStepOp_defined ht hcom hlog hnew himg hst' hk hage hm hlt rfl) ⟨rfl, rfl⟩ hcom]
      rfl
  case index =>
    subst hrd
    have ht := hr.2.2.1
    have hrun := fun m hm hrel => exec_lookupIndex (su := m) (out := out) hr hm hst hrel
    refine ⟨fun hv => ?_, fun hv hok => ?_, fun hv hbad hmore => ?_, fun hv hne hfree x u hx hu hok => ?_⟩
    · rw [hrun suitNone (by decide) (by decide), lookupIndexOp_invalid ht hi suitNone hv]
      rfl
    · rw [hrun suitNone (by decide) (by decide), lookupIndexOp_plain hi hv, latchIndex_clean ht hok, keepFixed_recordRead d c i _ rfl]
      rfl
    · obtain ⟨u, hu⟩ := latchIndex_poisoned ht hbad hcom hmore
      refine ⟨_, reload u (stageOf d) { t with restarts := t.restarts + 1 }, hrun suitNone (by decide) (by decide), ?_, rfl, rfl, rfl, rfl, rfl⟩
      rw [lookupIndexOp_plain hi hv]
      exact hu
    · obtain rfl : x = withSuit t i := hx
      subst hu
      refine ⟨?_, holder_taken ..⟩
      rw [hrun suitAcquire (by decide) (by decide), lookupIndexOp_acquire ht hi hv hne hfree, latchIndex_clean (trickAt_setTrick ..) hok,
        keepFixed_recordRead d c i _ rfl, latchedIndex,
        show fullRecord (setTrick (takeSuit s i (.trick d c)) d c _) i = fullRecord s i from fullRecord_congr rfl rfl rfl rfl i]
      rfl
  case scan =>
    have ht := hr.2.2.1
    have hrun := exec_scan (su := suitAcquire) hr (by decide) hst (by decide)
    refine ⟨fun hnext => ?_, fun i hnext hne hfree x u rd hx hu hrd hok => ?_, fun i h hnext hheld hne => ?_⟩
    · rw [hrun, scanOp_end 4099 ht hcur hnew hnext]
      rfl
    · subst hu hrd
      obtain rfl : x = { withSuit t i with scanPos := some (i + 1) } := hx
      refine ⟨?_, holder_taken ..⟩
      rw [hrun, scanOp_takes 4099 ht hcur hnew hnext hne hfree, latchIndex_clean (trickAt_setTrick ..) hok, keepFixed_recordRead d c i _ rfl, latchedIndex,
        show fullRecord (setTrick (takeSuit s i (.trick d c)) d c _) i = fullRecord s i from fullRecord_congr rfl rfl rfl rfl i]
      rfl
    · rw [hrun, scanOp_waits 4099 ht hcur hnew hnext hheld hne]
      rfl
  case post =>
    have ht := hr.2.2.1
    refine ⟨fun hfull => ?_, fun hroom => ?_⟩
    · rw [exec_taskPost hr hsu hst hf, taskPostOp_fails ht hfull]
      rfl
    · obtain ⟨u, h, e, hop, hlt, hfree, hget, hstate, hcount, hbody⟩ := taskPostOp_reserves (su := su) (f := f) (out := out) ht hcom hlog hs hroom
      have hrun := exec_taskPost (out := out) hr hsu hst hf
      rw [hop] at hrun
      exact ⟨_, h, e, hrun, hlt, hfree, hget, hstate, hcount, congrArg TaskBody.args hbody, congrArg TaskBody.suit hbody, congrArg TaskBody.succ hbody,
        congrArg TaskBody.routine hbody, congrArg TaskBody.level hbody, congrArg TaskBody.urgent hbody, congrArg TaskBody.list hbody,
        congrArg TaskBody.delay hbody, trickAt_setTrick u d c _⟩

end Sys2Proof.Machine
end

section
/-!
PROOFS. The parse walk, the checks deferred to a frame's end, and the items that a ring takes late (05_ports_and_lanes.md R106;
06_intake_parser.md R122, R125 to R127, R130, R131, R136; 11_fabric_and_pots.md R261; 16_observability.md R372).
-/
namespace Sys2Proof.Machine

open Sys2Proof

/-! ## One state of a walk (R122) -/

/-- The reason that a state raises, if any, is counted. -/
def reasonHit (s : State) : Option Nat → State
  | some r => hitReason s r
  | none => s

/-- What a routine committed in the same clk prevails over the walk's write (R125). -/
def prevails (x : Trick) (p q : Pkt) : Pkt :=
  { q with cv := x.undo.foldl (fun cv e =>
      setNth cv e.1 (BitVec.ofNat 8 (((nth cv e.1 0).toNat &&& (255 - e.2.1)) ||| (cvF p e.1 1 &&& e.2.1)))) q.cv }

theorem getPkt_setPkt (s : State) (k : Nat) (p : Pkt) : getPkt (setPkt s k p) k = some p := kget_kset_same ..

theorem getPkt_setPkt_ne (s : State) {j k : Nat} (p : Pkt) (h : j ≠ k) : getPkt (setPkt s k p) j = getPkt s j :=
  kget_kset_ne _ _ h

theorem modPkt_setPkt (s : State) (k : Nat) (p : Pkt) (f : Pkt → Pkt) : modPkt (setPkt s k p) k f = setPkt s k (f p) := by
  unfold modPkt setPkt
  dsimp only
  rw [kadj_some (kget_kset_same ..), kset_kset]

theorem reasonHit_pkts (s : State) (r : Option Nat) : (reasonHit s r).pkts = s.pkts := by
  cases r <;> rfl

section Walk
variable {s : State} {k : Nat} {p : Pkt} (hp : getPkt s k = some p) (hunit : p.walk.unit = true) (hdone : p.walk.done = false)
include hp hunit hdone

theorem walkOp_run : walkOp s k = setPkt (reasonHit s (walkStep s p).2) k (walkStep s p).1 := by
  unfold walkOp
  rw [hp]
  dsimp only
  rw [hunit, hdone, if_pos (by rfl)]
  cases (walkStep s p).2 <;> rfl

/-- A walk state leaves its packet as the walk has it, but for what a routine has committed in the same clk. -/
theorem walkStateOp_run : ∃ q, walkStateOp s k = setPkt (reasonHit s (walkStep s p).2) k q
    ∧ q.frame = (walkStep s p).1.frame ∧ q.walk = (walkStep s p).1.walk
    ∧ (kfind s.tricks (fun _ x => x.pkt == k && x.committed && x.commitClk == s.clk) = none → q = (walkStep s p).1)
    ∧ ∀ c x, kfind s.tricks (fun _ x => x.pkt == k && x.committed && x.commitClk == s.clk) = some (c, x) → q = prevails x p (walkStep s p).1 := by
  cases hfind : kfind s.tricks (fun _ x => x.pkt == k && x.committed && x.commitClk == s.clk) with
  | none =>
    refine ⟨(walkStep s p).1, ?_, rfl, rfl, fun _ => rfl, fun c x h => absurd h (by simp)⟩
    unfold walkStateOp
    dsimp only
    rw [hfind, walkOp_run hp hunit hdone]
  | some e =>
    obtain ⟨c, x⟩ := e
    refine ⟨prevails x p (walkStep s p).1, ?_, rfl, rfl, fun h => absurd h (by simp), fun c' x' h => ?_⟩
    · unfold walkStateOp
      dsimp only
      rw [hfind, hp, walkOp_run hp hunit hdone]
      exact modPkt_setPkt ..
    · obtain ⟨-, rfl⟩ := Prod.mk.inj (Option.some.inj h)
      rfl

variable {h v : Nat} (hh : h < 32) (hv : v < 256) (hk : k = vecKey h v)
include hh hv hk

/-- WALK_STATE: its packet, the others and the reason that it counts. -/
theorem exec_walkState : ∃ u q, exec (.walkState h v) s = .next u ∧ getPkt u k = some q ∧ (∀ j, j ≠ k → getPkt u j = getPkt s j)
    ∧ q.frame = (walkStep s p).1.frame ∧ q.walk = (walkStep s p).1.walk ∧ u.regs = (reasonHit s (walkStep s p).2).regs
    ∧ (kfind s.tricks (fun _ x => x.pkt == k && x.committed && x.commitClk == s.clk) = none → q = (walkStep s p).1)
    ∧ ∀ c x, kfind s.tricks (fun _ x => x.pkt == k && x.committed && x.commitClk == s.clk) = some (c, x) → q = prevails x p (walkStep s p).1 := by
  obtain ⟨q, hop, hframe, hwalk, hnone, hsome⟩ := walkStateOp_run hp hunit hdone
  have hrun : exec (.walkState h v) s = .next (keepFixed s (walkStateOp s (vecKey h v))) :=
    cmd_ok (i := .walkState h v) (f := fun s => walkStateOp s (vecKey h v)) s (Bool.and_eq_true_iff.2 ⟨decide_eq_true hh, decide_eq_true hv⟩)
  rw [← hk, hop] at hrun
  refine ⟨_, q, hrun, getPkt_setPkt _ k q, fun j hj => (getPkt_setPkt_ne _ q hj).trans ?_, hframe, hwalk, rfl, hnone, hsome⟩
  exact congrArg (kget · j) (reasonHit_pkts s _)

end Walk

theorem walkStep_badStart {s : State} {p : Pkt} (h : stateOff s (pktEpoch p) p.walk.state = none) : walkStep s p = (walkExcept p 14, some 14) := by
  unfold walkStep
  dsimp only
  rw [h]

/-- What a state does once its header has been read and its target chosen: it accepts, raises a reason, or goes on. -/
def goesTo (p : Pkt) (w : Walk) (len t : Nat) : Pkt × Option Nat :=
  if t = 0x4000 then ({ p with walk := { p.walk with unit := false, done := true, accepted := true } }, none)
  else if 0x8000 ≤ t then (walkExcept p (t % 64), some (t % 64))
  else if w.trans = 24 then (walkExcept p 4, some 4)
  else (cwBits { p with walk := { p.walk with state := t, p := w.p + len, trans := w.trans + 1 } } 2 15 11 (w.trans + 1), none)

/-- `q` is packet `p` in the header where its walk stands: the header's start has joined the path. -/
def EntersHeader (p q : Pkt) : Prop :=
  q.frame = p.frame ∧ q.walk.heads = p.walk.heads ++ [p.walk.p] ∧ q.walk.unit = p.walk.unit ∧ q.walk.done = p.walk.done
  ∧ q.walk.base = p.walk.base ∧ q.walk.lastIp = p.walk.lastIp

/-- A target takes the frame and the path as they are. -/
theorem goesTo_keeps (q : Pkt) (w : Walk) (len t : Nat) : (goesTo q w len t).1.frame = q.frame ∧ (goesTo q w len t).1.walk.heads = q.walk.heads := by
  unfold goesTo
  repeat' split
  all_goals exact ⟨rfl, rfl⟩

section Target
variable (q : Pkt) (w : Walk) (len : Nat) {t : Nat}

theorem goesTo_accept (h : t = 0x4000) : goesTo q w len t = ({ q with walk := { q.walk with unit := false, done := true, accepted := true } }, none) :=
  if_pos h

variable (h : t ≠ 0x4000)
include h

theorem goesTo_except (hr : 0x8000 ≤ t) : goesTo q w len t = (walkExcept q (t % 64), some (t % 64)) := by
  rw [goesTo, if_neg h, if_pos hr]

variable (hr : t < 0x8000)
include hr

theorem goesTo_tooLong (hw : w.trans = 24) : goesTo q w len t = (walkExcept q 4, some 4) := by
  rw [goesTo, if_neg h, if_neg (Nat.not_le.2 hr), if_pos hw]

theorem goesTo_next (hw : w.trans ≠ 24) : goesTo q w len t
    = (cwBits { q with walk := { q.walk with state := t, p := w.p + len, trans := w.trans + 1 } } 2 15 11 (w.trans + 1), none) := by
  rw [goesTo, if_neg h, if_neg (Nat.not_le.2 hr), if_neg hw]

end Target

theorem EntersHeader.congr {p q r : Pkt} (h : EntersHeader p q) (hw : r.walk = q.walk) (hf : r.frame = q.frame) : EntersHeader p r := by
  unfold EntersHeader
  rw [hw, hf]
  exact h

theorem enterHeader_enters (p : Pkt) : EntersHeader p (enterHeader p) := by
  unfold enterHeader
  dsimp only
  split <;> exact ⟨rfl, rfl, rfl, rfl, rfl, rfl⟩

/-- A header of no checked kind passes as it is. -/
theorem kindChecks_plain (s : State) (p : Pkt) (h len : Nat) : kindChecks s p 0 h len = .pass p := rfl

theorem runOut_congr {p q : Pkt} (hf : q.frame = p.frame) (hb : q.walk.base = p.walk.base) (hl : q.walk.lastIp = p.walk.lastIp) (e : Nat) :
    runOut q e = runOut p e := by
  unfold runOut walkEnd l3End
  rw [hf, hb, hl]

section Step
variable {s : State} {p : Pkt} {so fo len t : Nat} {st f : List Byte} (hso : stateOff s (pktEpoch p) p.walk.state = some so)
  (hst : st = slice (hotBody s (pktEpoch p) tyParse) so 320) (hfo : formatOff s (pktEpoch p) (fld st 1 1 % 128) = some fo)
  (hf : f = slice (hotBody s (pktEpoch p) tyFormats) fo 32) (hwidth : bits (fld f 5 1) 3 0 = 0) (hlen : len = fld f 3 1)
  (hkind : fld f 1 1 = 0) (hroom : runOut p (p.walk.p + len) = none) (hrows : fld st 2 1 = 0) (ht : t = fld st 6 2)
include hso hst hfo hf hwidth hlen hkind hroom hrows ht

/-- A header of fixed length and of no checked kind, in a state without rows, goes to the state's default target. -/
theorem walkStep_default : ∃ q, walkStep s p = goesTo q p.walk len t ∧ EntersHeader p q := by
  have henter := enterHeader_enters p
  have hout : runOut (enterHeader p) (p.walk.p + len) = none := by
    obtain ⟨hframe, -, -, -, hbase, hip⟩ := henter
    rw [runOut_congr hframe hbase hip]
    exact hroom
  have hhead : headerLen (enterHeader p) f p.walk.p = .ok len := by
    unfold headerLen
    dsimp only
    rw [hwidth, if_pos rfl, hlen]
  have htarget : ∀ q, chooseTarget q st p.walk.p = .ok t := fun q => by
    unfold chooseTarget
    dsimp only
    rw [hrows, if_pos rfl, ht]
  obtain ⟨q0, hq0⟩ : ∃ q0, q0 = cwBits (cvSet (enterHeader p) (0x30 + 2 * (fld f 2 1 % 8)) 2 p.walk.p) 3 31 16
      (bits (cw (cvSet (enterHeader p) (0x30 + 2 * (fld f 2 1 % 8)) 2 p.walk.p) 3) 31 16 ||| fld st 0x30 2) := ⟨_, rfl⟩
  refine ⟨autoExtract (autoExtract (autoExtract (autoExtract q0 st f p.walk.p 0) st f p.walk.p 1) st f p.walk.p 2) st f p.walk.p 3, ?_, ?_⟩
  · unfold walkStep
    dsimp only
    rw [hso]
    dsimp only
    rw [← hst, hfo]
    dsimp only
    rw [← hf, hhead]
    dsimp only
    rw [if_neg (by omega), hout]
    dsimp only
    rw [hkind, kindChecks_plain]
    dsimp only
    rw [← hq0, htarget]
    rfl
  · have hx := fun (q : Pkt) i => autoExtract_walk q st f p.walk.p i
    refine henter.congr ?_ ?_
    · rw [(hx _ 3).1, (hx _ 2).1, (hx _ 1).1, (hx _ 0).1, hq0]
      rfl
    · rw [(hx _ 3).2, (hx _ 2).2, (hx _ 1).2, (hx _ 0).2, hq0]
      rfl

end Step

/-! ## Checks at the end of a frame (R130, R131) -/

theorem endAtMac_regs (s : State) (p : Pkt) : SameButRegs s (endAtMac s p) := by
  unfold endAtMac
  repeat' split
  · exact .refl s
  · exact .bump ..
  · exact (SameButRegs.bump ..).trans (.bumpBy ..)

/-- The packet once its frame's length is known. -/
def lengthKnown (p : Pkt) : Pkt := cwBits (cwBits { p with ended := true } 0 13 0 p.frame.length) 0 15 15 (b2n p.bad)

/-- The packet in which every deferred check has been made. -/
def checked (p : Pkt) : Pkt := { lengthKnown p with walk := { p.walk with deferred := [] } }

/-- The same where every check has passed: TRAILING stands where the frame runs past the end of an IP packet. -/
def passed (p : Pkt) : Pkt :=
  if p.walk.deferred.any (defTrailing p.frame.length) then cwBits (lengthKnown p) 3 3 3 1 else lengthKnown p

/-- The end of a frame whose deferred checks pass, or fail with a reason, in PARSE or after it. -/
def deferredEnd (s : State) (k : Nat) (inp : Bool) (p : Pkt) : Option Nat → State
  | none => setPkt s k { passed p with walk := { (passed p).walk with deferred := [] } }
  | some r =>
    if inp then
      hitReason { setPkt s k (walkExcept (checked p) r) with
        tricks := kmap s.tricks fun _ t => if t.pkt = k && t.settled == some 0 then { t with settled := none } else t } r
    else bump (setPkt s k (cwBits { checked p with bad := true } 0 15 15 1)) aLateLen

theorem deferredOp_eq {s : State} {k : Nat} {p : Pkt} (hp : getPkt s k = some p) (hend : p.ended = false) (inp : Bool) :
    deferredOp s k inp = deferredEnd (endAtMac s p) k inp p (p.walk.deferred.findSome? (defFails p.frame.length)) := by
  unfold deferredOp
  rw [hp]
  dsimp only
  rw [hend, if_neg Bool.false_ne_true]
  rfl

/-- The packet after its deferred checks have had outcome `o`. -/
def afterChecks (inp : Bool) (p : Pkt) : Option Nat → Pkt
  | none => { passed p with walk := { (passed p).walk with deferred := [] } }
  | some r => if inp then walkExcept (checked p) r else cwBits { checked p with bad := true } 0 15 15 1

theorem deferredEnd_pkts (s : State) (k : Nat) (inp : Bool) (p : Pkt) (o : Option Nat) :
    (deferredEnd s k inp p o).pkts = kset s.pkts k (afterChecks inp p o) := by
  cases o with
  | none => rfl
  | some r => cases inp <;> rfl

/-- Once its end has arrived, a packet's checks are made and its frame is as it was. -/
theorem afterChecks_ended (inp : Bool) (p : Pkt) (o : Option Nat) : (afterChecks inp p o).ended = true
    ∧ (afterChecks inp p o).walk.deferred = [] ∧ (afterChecks inp p o).frame = p.frame := by
  cases o with
  | none =>
    unfold afterChecks passed
    dsimp only
    split <;> exact ⟨rfl, rfl, rfl⟩
  | some r => cases inp <;> exact ⟨rfl, rfl, rfl⟩

theorem afterChecks_pass (inp : Bool) (p : Pkt) : (afterChecks inp p none).bad = p.bad ∧ (afterChecks inp p none).walk.excepted = p.walk.excepted := by
  unfold afterChecks passed
  dsimp only
  split <;> exact ⟨rfl, rfl⟩

theorem exec_deferredCheck {s : State} {h v k : Nat} {p : Pkt} (hh : h < 32) (hv : v < 256) (hk : k = vecKey h v) (hp : getPkt s k = some p)
    (hend : p.ended = false) : ∃ t, exec (.deferredCheck h v) s = .next t
      ∧ t.pkts = kset s.pkts k (afterChecks (inParse s h k) p (p.walk.deferred.findSome? (defFails p.frame.length))) := by
  have hrun : exec (.deferredCheck h v) s = .next (keepFixed s (deferredOp s (vecKey h v) (inParse s h (vecKey h v)))) :=
    cmd_ok (i := .deferredCheck h v) (f := fun s => deferredOp s (vecKey h v) (inParse s h (vecKey h v))) s
      (Bool.and_eq_true_iff.2 ⟨decide_eq_true hh, decide_eq_true hv⟩)
  rw [← hk, deferredOp_eq hp hend] at hrun
  refine ⟨_, hrun, (deferredEnd_pkts ..).trans ?_⟩
  have hregs := endAtMac_regs s p
  unfold SameButRegs at hregs
  rw [hregs]

/-! ## Items that a ring takes late (R260, R261) -/

/-- Room once made for an item is there. -/
theorem freeItems_again {room need : Nat} {items kept : List (List Byte × Bool)} {part lost : Nat}
    (h : freeItems items part room need = some (kept, lost)) : freeItems kept part room need = some (kept, 0) := by
  induction items generalizing part kept lost with
  | nil =>
    unfold freeItems at h
    split at h
    · next hfit =>
      obtain ⟨rfl, -⟩ := Prod.mk.inj (Option.some.inj h)
      unfold freeItems
      exact if_pos hfit
    · cases h
  | cons i r ih =>
    unfold freeItems at h
    split at h
    · next hfit =>
      obtain ⟨rfl, -⟩ := Prod.mk.inj (Option.some.inj h)
      unfold freeItems
      exact if_pos hfit
    · split at h
      · cases h
      · next hpart =>
        obtain rfl : part = 0 := by omega
        obtain ⟨e, he, hk⟩ := Option.map_eq_some_iff.1 h
        obtain ⟨hkept, -⟩ := Prod.mk.inj hk
        rw [← hkept]
        exact ih he

theorem ringPut_open {s : State} {r : Nat} (ho : openRing s r = true) (item : List Byte) (p : Bool) : ringPut s r item p = ringWrite s r item p := by
  unfold openRing at ho
  unfold ringWrite
  rw [if_neg (by rw [Bool.not_eq_true'] at ho; simp [ho])]

/-- Where room can be made for an item, its ring keeps what needs not go. -/
theorem ringFree_some {s : State} {r n lost : Nat} {kept : List (List Byte × Bool)}
    (h : freeItems (ringOf s r).items (ringOf s r).part (ringRoom s r) n = some (kept, lost)) :
    ∃ u hd, ringFree s r n = some u ∧ ringOf u r = { ringOf s r with items := kept, head := hd } := by
  rw [ringFree, h]
  exact ⟨_, _, rfl, ringOf_setRing ..⟩

theorem ringCfg_obs {s u : State} (h : SameButObs s u) (r : Nat) : ringCfg u r = ringCfg s r := by
  unfold SameButObs at h
  rw [h]
  rfl

/-- A ring's last slot becomes visible when it has its item. -/
theorem flushSlots_last (s : State) (r : Nat) (x : RingSlot) (i : List Byte × Bool) : ∃ v,
    v = ringPut (setRing s r { ringOf s r with slots := [] }) r i.1 i.2
    ∧ flushSlots s r [{ x with item := some i }] = setRing v r { ringOf v r with slots := [] } :=
  ⟨_, rfl, rfl⟩

section Late
variable {s : State} {r room lost : Nat} {item : List Byte} {kept : List (List Byte × Bool)} {ticket : Option Nat}
  (hfit : freeItems (ringOf s r).items (ringOf s r).part room item.length = some (kept, lost))
include hfit

theorem ringEnd_commit (hb : (ringCfg s r).byLength = false) (hroom : room = 2 ^ (ringCfg s r).log2 - (ringOf s r).waiting) :
    ∃ u, ringEnd s r ticket item = (true, u) ∧ SameButObs s u ∧ (ringOf u r).items = kept ++ [(item, false)] := by
  have ho : openRing s r = true := by
    unfold openRing
    rw [hb]
    rfl
  have hfit' : freeItems (ringOf s r).items (ringOf s r).part (ringRoom s r) item.length = some (kept, lost) := by
    rw [ringRoom, ← hroom]
    exact hfit
  refine ⟨ringPut s r item false, ?_, .ringPut .., ?_⟩
  · unfold ringEnd ringTakes
    rw [hb, if_neg Bool.false_ne_true, hfit']
    rfl
  · rw [ringPut_open ho]
    exact ringWrite_items false ho hfit'

theorem ringEnd_slot {x : RingSlot} (hb : (ringCfg s r).byLength = true) (hroom : room = 2 ^ (ringCfg s r).log2)
    (hslots : (ringOf s r).slots = [x]) (hticket : ticket = some x.ticket) :
    ∃ u, ringEnd s r ticket item = (true, u) ∧ SameButObs s u ∧ (ringOf u r).items = kept ++ [(item, false)] := by
  obtain ⟨w, hw⟩ : ∃ w, w = setRing s r { ringOf s r with slots := [] } := ⟨_, rfl⟩
  have hsw : SameButObs s w := hw ▸ rfl
  have hwring : ringOf w r = { ringOf s r with slots := [] } := hw ▸ ringOf_setRing ..
  have hwroom : ringRoom w r = room := by
    rw [ringRoom, ringCfg_obs hsw, hwring, hroom]
    rfl
  obtain ⟨t, hd, hfree, htring⟩ := ringFree_some (s := w) (r := r) (n := item.length) (by rw [hwring, hwroom]; exact hfit)
  have hst := hsw.trans (SameButObs.ringFree hfree)
  obtain ⟨v, hv, hflush⟩ := flushSlots_last t r x (item, false)
  obtain ⟨y, hy⟩ : ∃ y, y = setRing t r { ringOf t r with slots := [] } := ⟨_, rfl⟩
  have hsy : SameButObs s y := hst.trans (hy ▸ rfl)
  have hyring : ringOf y r = { ringOf s r with slots := [], items := kept, head := hd } := by
    rw [hy, ringOf_setRing, htring, hwring]
  have hyroom : ringRoom y r = room := by
    rw [ringRoom, ringCfg_obs hsy, hyring, hroom]
    rfl
  have hopen : openRing y r = true := by
    unfold openRing
    rw [hyring]
    simp
  rw [← hy] at hv
  refine ⟨setRing v r { ringOf v r with slots := [] }, ?_, ?_, ?_⟩
  · have hfind : (ringOf s r).slots.find? (fun y => some y.ticket == ticket) = some x := by
      rw [hslots, hticket]
      simp
    have herase : { s with rings := kset s.rings r { ringOf s r with slots := (ringOf s r).slots.erase x } } = w := by
      rw [hslots, List.erase_cons_head, hw]
      rfl
    unfold ringEnd
    dsimp only
    rw [hb, if_pos rfl, hfind]
    dsimp only
    rw [herase, hfree]
    dsimp only
    rw [hslots, List.map_cons, List.map_nil, if_pos rfl, hflush]
  · rw [hv]
    exact (hsy.trans (.ringPut ..)).trans rfl
  · rw [ringOf_setRing, hv, ringPut_open hopen]
    refine ringWrite_items (lost := 0) false hopen ?_
    rw [hyroom, hyring]
    exact freeItems_again hfit

end Late

/-- A hand's late item ends in its ring. -/
theorem writeLate_ends {s u : State} {h : Nat} {slowp : Bool} {i : LateItem} (hfind : s.late.find? (fun x => x.hand == h && x.slowp == slowp) = some i)
    (hend : ringEnd { s with late := s.late.erase i } i.ring i.ticket
      (if slowp then slowItem i.pkt i.source i.reason i.snap else sampleItem s i.pkt i.source i.hand i.snap) = (true, u)) :
    writeLate s h slowp = if slowp then bump u (aReason i.reason 2) else u := by
  unfold writeLate
  rw [hfind]
  dsimp only
  cases slowp with
  | true =>
    rw [if_pos rfl] at hend
    rw [if_pos rfl, hend]
  | false => exact congrArg Prod.snd hend

section Items
variable {s : State} {h room lost : Nat} {i : LateItem} {kept : List (List Byte × Bool)} {item : List Byte} (hh : h < 32)
  (hring : (ringCfg s i.ring).byLength = false ∧ room = 2 ^ (ringCfg s i.ring).log2 - (ringOf s i.ring).waiting
    ∨ (ringCfg s i.ring).byLength = true ∧ room = 2 ^ (ringCfg s i.ring).log2
      ∧ ∃ x, (ringOf s i.ring).slots = [x] ∧ i.ticket = some x.ticket)
  (hfit : freeItems (ringOf s i.ring).items (ringOf s i.ring).part room item.length = some (kept, lost))
include hring hfit

/-- The item of a hand's oldest late entry joins its ring. -/
theorem ringEnd_late : ∃ u, ringEnd { s with late := s.late.erase i } i.ring i.ticket item = (true, u) ∧ u.late = s.late.erase i ∧ u.pkts = s.pkts
    ∧ (ringOf u i.ring).items = kept ++ [(item, false)] := by
  obtain ⟨w, hw⟩ : ∃ w, w = { s with late := s.late.erase i } := ⟨_, rfl⟩
  have hend : ∃ u, ringEnd w i.ring i.ticket item = (true, u) ∧ SameButObs w u ∧ (ringOf u i.ring).items = kept ++ [(item, false)] := by
    rcases hring with ⟨hb, hroom⟩ | ⟨hb, hroom, x, hslots, hticket⟩
    · exact ringEnd_commit (room := room) (by rw [hw]; exact hfit) (by rw [hw]; exact hb) (by rw [hw]; exact hroom)
    · exact ringEnd_slot (room := room) (by rw [hw]; exact hfit) (by rw [hw]; exact hb) (by rw [hw]; exact hroom) (by rw [hw]; exact hslots) hticket
  obtain ⟨u, hu, hobs, hitems⟩ := hend
  unfold SameButObs at hobs
  refine ⟨u, hw ▸ hu, ?_, ?_, hitems⟩
  · rw [hobs, hw]
  · rw [hobs, hw]

include hh

theorem exec_slowPathItem (hfind : s.late.find? (fun x => x.hand == h && x.slowp == true) = some i)
    (hitem : item = slowItem i.pkt i.source i.reason i.snap) :
    ∃ t, exec (.slowPathItem h) s = .next t ∧ t.late = s.late.erase i ∧ (ringOf t i.ring).items = kept ++ [(item, false)] ∧ t.pkts = s.pkts := by
  obtain ⟨u, hend, hlate, hpkts, hitems⟩ := ringEnd_late hring hfit
  have hrun : exec (.slowPathItem h) s = .next (keepFixed s (writeLate s h true)) :=
    cmd_ok (i := .slowPathItem h) (f := fun s => writeLate s h true) s (decide_eq_true hh)
  rw [writeLate_ends hfind (by rw [if_pos rfl, ← hitem]; exact hend), if_pos rfl] at hrun
  exact ⟨_, hrun, hlate, hitems, hpkts⟩

theorem exec_packetSample (hfind : s.late.find? (fun x => x.hand == h && x.slowp == false) = some i)
    (hitem : item = sampleItem s i.pkt i.source i.hand i.snap) :
    ∃ t, exec (.packetSample h) s = .next t ∧ t.late = s.late.erase i ∧ (ringOf t i.ring).items = kept ++ [(item, false)] ∧ t.pkts = s.pkts := by
  obtain ⟨u, hend, hlate, hpkts, hitems⟩ := ringEnd_late hring hfit
  have hrun : exec (.packetSample h) s = .next (keepFixed s (writeLate s h false)) :=
    cmd_ok (i := .packetSample h) (f := fun s => writeLate s h false) s (decide_eq_true hh)
  rw [writeLate_ends hfind (by rw [if_neg Bool.false_ne_true, ← hitem]; exact hend), if_neg Bool.false_ne_true] at hrun
  exact ⟨_, hrun, hlate, hitems, hpkts⟩

end Items

/-- Settles O44: walk states by the step that they make, deferred checks by their outcome, late items by their ring. -/
theorem walksChecksAndLateItems : Obligations.WalksChecksAndLateItems := by
  unfold Obligations.WalksChecksAndLateItems
  refine ⟨fun s h v k p hh hv hk hp hunit hdone => ?walks, fun s h v k p hh hv hk hp hend => ?checks,
    fun s h i kept lost room item hh hring hfit => ⟨exec_slowPathItem hh hring hfit, exec_packetSample hh hring hfit⟩⟩
  case walks =>
    obtain ⟨u, q, hrun, hget, hothers, hframe, hwalk, hregs, hnone, hsome⟩ := exec_walkState hp hunit hdone hh hv hk
    refine ⟨fun hbad => ?_, ⟨u, hrun, fun hfind => ?_, fun c x hfind => ?_⟩, fun so fo st f len t hso hst hfo hf hwidth hlen hkind hroom hrows ht => ?_⟩
    · rw [walkStep_badStart hbad] at hframe hwalk hregs
      exact ⟨u, q, hrun, hget, hothers, hframe, hwalk, hregs⟩
    · rw [hget, hnone hfind]
    · rw [hget, hsome c x hfind]
      rfl
    · obtain ⟨q0, hstep, hframe0, hheads, hunit0, hdone0, -, -⟩ := walkStep_default hso hst hfo hf hwidth hlen hkind hroom hrows ht
      rw [hstep] at hframe hwalk hregs
      obtain ⟨hkeep, hpath⟩ := goesTo_keeps q0 p.walk len t
      refine ⟨u, q, hrun, hget, hothers, (hframe.trans hkeep).trans hframe0, (congrArg Walk.heads hwalk).trans (hpath.trans hheads), fun h => ?_,
        fun h hr => ?_, fun h hr hw => ?_, fun h hr hw => ?_⟩
      · rw [goesTo_accept q0 p.walk len h] at hwalk hregs
        rw [hwalk]
        exact ⟨rfl, rfl, rfl, hregs⟩
      · rw [goesTo_except q0 p.walk len h hr] at hwalk hregs
        rw [hwalk]
        exact ⟨rfl, rfl, rfl, rfl, hregs⟩
      · rw [goesTo_tooLong q0 p.walk len h hr hw] at hwalk hregs
        rw [hwalk]
        exact ⟨rfl, rfl, rfl, hregs⟩
      · rw [goesTo_next q0 p.walk len h hr hw] at hwalk hregs
        rw [hwalk]
        exact ⟨rfl, rfl, rfl, hdone0.trans hdone, hunit0.trans hunit, hregs⟩
  case checks =>
    obtain ⟨t, hrun, hpkts⟩ := exec_deferredCheck hh hv hk hp hend
    obtain ⟨hended, hdeferred, hframe⟩ := afterChecks_ended (inParse s h k) p (p.walk.deferred.findSome? (defFails p.frame.length))
    refine ⟨t, _, hrun, (congrArg (kget · k) hpkts).trans (kget_kset_same ..), hended, hdeferred, hframe,
      fun j hj => (congrArg (kget · j) hpkts).trans (kget_kset_ne _ _ hj), fun hpass => ?_, fun r hr => ⟨fun hin => ?_, fun hin => ?_⟩⟩
    · rw [hpass]
      exact afterChecks_pass ..
    · rw [hr, hin]
      exact ⟨rfl, rfl, rfl, rfl⟩
    · rw [hr, hin]
      exact ⟨rfl, rfl⟩

end Sys2Proof.Machine
end

section
/-!
PROOFS. The match unit's moves and scrubber, and the dispatcher (04_dealers_and_microcode.md R93; 07_match_and_shuffle.md R149, R152,
R153, R155; 10_task_scheduler_and_suits.md R234, R237).
-/
namespace Sys2Proof.Machine

open Sys2Proof

/-! ## The end of a move (R152, R22) -/

/-- The contexts once the host task of transaction `w` has left its own. -/
def contextsLeft (s : State) (w : Nat) : KMap Trick :=
  match (moveTask s w).bind fun x => hostAt s x.1 with
  | some x => kdel s.tricks x
  | none => s.tricks

/-- The host task of transaction `w` ends with nothing else: it has no successor, holds no suit, and no displaced trick waits
for its context. -/
def LeavesAlone (s : State) (w : Nat) : Prop :=
  ∀ h k, moveTask s w = some (h, k) → kget s.tasks h = some k ∧ k.body.succ = none ∧ (∀ e ∈ s.suits, e.2.holder ≠ some (.task h))
    ∧ ∀ x, hostAt s h = some x → kget s.displaced (x / 256) = none

theorem trickKey_div_mod (x : Nat) : trickKey (x / 256) (x % 256) = x := by
  unfold trickKey
  omega

/-- Without a displaced trick of the dealer, a context that leaves is free. -/
theorem freeCtx_plain {s : State} {d : Nat} (c : Nat) (h : kget s.displaced d = none) :
    freeCtx s d c = { s with tricks := kdel s.tricks (trickKey d c) } := by
  unfold freeCtx
  dsimp only
  rw [h]

section Leave
variable {s : State} {h : Nat} {k : Task} (hk : kget s.tasks h = some k) (hsucc : k.body.succ = none)
  (hsuits : ∀ e ∈ s.suits, e.2.holder ≠ some (.task h))
include hk hsucc hsuits

/-- A host task leaves its context, and only observation sees it go. -/
theorem hostLeave_context {x : Nat} (hx : hostAt s h = some x) (hdisp : kget s.displaced (x / 256) = none) :
    SameButObs { s with tricks := kdel s.tricks x } (hostLeave s h) := by
  obtain ⟨e, he⟩ : ∃ e, e = endTask s h := ⟨_, rfl⟩
  have hend : SameButObs s e := he ▸ SameButObs.endTask_plain hk hsucc
  have hat : hostAt e h = some x := by
    rw [← hx, hostAt, hend.fields.1, hostAt]
  obtain ⟨u, hu⟩ : ∃ u, u = traceTask e 2 false h ((kget s.tasks h).map (·.body)) (x / 256) (x % 256) := ⟨_, rfl⟩
  have hsu : SameButObs s u := hu ▸ hend.trans (.traceTask ..)
  have hud : kget u.displaced (x / 256) = none := by
    unfold SameButObs at hsu
    rw [hsu]
    exact hdisp
  have hleave : hostLeave s h = { u with tricks := kdel u.tricks x } := by
    unfold hostLeave
    dsimp only
    rw [releaseTask_none hsuits, ← he, hat]
    dsimp only
    rw [← hu, freeCtx_plain _ hud, trickKey_div_mod]
  rw [hleave]
  unfold SameButObs at hsu ⊢
  rw [hsu]

theorem hostLeave_none (hx : hostAt s h = none) : SameButObs s (hostLeave s h) := by
  obtain ⟨e, he⟩ : ∃ e, e = endTask s h := ⟨_, rfl⟩
  have hend : SameButObs s e := he ▸ SameButObs.endTask_plain hk hsucc
  have hleave : hostLeave s h = e := by
    have hat : hostAt e h = none := by
      rw [← hx, hostAt, hend.fields.1, hostAt]
    unfold hostLeave
    dsimp only
    rw [releaseTask_none hsuits, ← he, hat]
  rw [hleave]
  exact hend

end Leave

/-- A waiting transaction given as a command answers and waits no more. -/
def answered (s : State) (w : Nat) (x : Waiting) (st : Nat) : State :=
  { s with zat := { s.zat with waits := kdel s.zat.waits w }, sent := s.sent ++ [.response x.session ⟨x.txn.op, x.txn.tag, st, x.txn.addr, []⟩] }

theorem finishWait_answered {s : State} {w : Nat} {x : Waiting} (hw : kget s.zat.waits w = some x) (hd : x.direct = true) (st : Nat) :
    finishWait s w st x.txn.addr [] = answered s w x st := by
  obtain ⟨n, direct, txn, what⟩ := x
  obtain rfl : direct = true := hd
  exact finishWait_direct hw ..

/-- An INSERT ends: its task leaves its context and its transaction answers. -/
theorem endMove_ends {s : State} {w : Nat} {x : Waiting} (h : LeavesAlone s w) (hw : kget s.zat.waits w = some x) (hd : x.direct = true) (st : Nat) :
    SameButObs (answered { s with tricks := contextsLeft s w } w x st) (endMove s w st) := by
  obtain ⟨u, hu, hend⟩ : ∃ u, SameButObs { s with tricks := contextsLeft s w } u
      ∧ endMove s w st = finishWait u w st ((kget u.zat.waits w).elim 0 fun y => y.txn.addr) [] := by
    unfold endMove contextsLeft
    cases hm : moveTask s w with
    | none =>
      refine ⟨s, rfl, ?_⟩
      dsimp only
      cases kget s.zat.waits w <;> rfl
    | some e =>
      obtain ⟨j, k⟩ := e
      obtain ⟨hk, hsucc, hsuits, hdisp⟩ := h j k hm
      rw [Option.bind_some]
      dsimp only
      cases hx : hostAt s j with
      | none =>
        refine ⟨_, hostLeave_none hk hsucc hsuits hx, ?_⟩
        cases kget (hostLeave s j).zat.waits w <;> rfl
      | some c =>
        refine ⟨_, hostLeave_context hk hsucc hsuits hx (hdisp c hx), ?_⟩
        cases kget (hostLeave s j).zat.waits w <;> rfl
  unfold SameButObs at hu
  have hwait : kget u.zat.waits w = some x := by
    rw [hu]
    exact hw
  rw [hend, hwait, Option.elim_some, finishWait_answered hwait hd]
  unfold SameButObs answered
  rw [hu]

/-! ## One clk of the match unit (R152, R153) -/

section Move
variable {s : State} {m : Move} {rest : List Move} (hm : s.moves = m :: rest)
include hm

theorem matchMoveOp_busy (hb : hotBusy s = true) : matchMoveOp s = endMove { s with moves := rest } m.wait stBusy := by
  unfold matchMoveOp
  rw [hm]
  dsimp only
  rw [hb, if_pos rfl]

variable (hb : hotBusy s = false)
include hb

section Search
variable {span : Nat × Nat} (hspan : span = (insertSpan s m.table m.at_).getD (0, 0)) (hh : m.hole = none)
include hspan hh

theorem matchMoveOp_full (hn : nearFree s span.1 span.2 m.at_ = none) :
    matchMoveOp s = endMove { s with moves := rest } m.wait (if blockGap s (m.at_ / 2048) = 0 then stNoRoom else stGroupFull) := by
  unfold matchMoveOp
  rw [hm]
  dsimp only
  rw [hb, if_neg Bool.false_ne_true, hh]
  dsimp only
  rw [← hspan, hn]

variable {f : Nat} (hn : nearFree s span.1 span.2 m.at_ = some f)
include hn

theorem matchMoveOp_found (hok : moveOk s f m.at_ m.row.value m.row.mask = true) :
    matchMoveOp s = { s with moves := { m with hole := some f } :: rest } := by
  unfold matchMoveOp
  rw [hm]
  dsimp only
  rw [hb, if_neg Bool.false_ne_true, hh]
  dsimp only
  rw [← hspan, hn]
  dsimp only
  rw [hok, if_pos rfl]

theorem matchMoveOp_prefilter (hok : moveOk s f m.at_ m.row.value m.row.mask = false) :
    matchMoveOp s = endMove { s with moves := rest } m.wait stPrefilter := by
  unfold matchMoveOp
  rw [hm]
  dsimp only
  rw [hb, if_neg Bool.false_ne_true, hh]
  dsimp only
  rw [← hspan, hn]
  dsimp only
  rw [hok, if_neg Bool.false_ne_true]

end Search

variable {f : Nat} (hh : m.hole = some f)
include hh

theorem matchMoveOp_lands (hf : f = if m.at_ ≤ f then m.at_ else m.at_ - 1) :
    matchMoveOp s = endMove (putRow { s with moves := rest } f m.row) m.wait stOk := by
  unfold matchMoveOp
  rw [hm]
  dsimp only
  rw [hb, if_neg Bool.false_ne_true, hh]
  dsimp only
  rw [if_pos hf, ← hf]

theorem matchMoveOp_moves (hf : f ≠ if m.at_ ≤ f then m.at_ else m.at_ - 1) {src : Nat} (hsrc : src = if m.at_ ≤ f then f - 1 else f + 1) :
    matchMoveOp s = { s with rows := (moveRow s src f).rows, moves := { m with hole := some src } :: rest } := by
  unfold matchMoveOp
  rw [hm]
  dsimp only
  rw [hb, if_neg Bool.false_ne_true, hh]
  dsimp only
  rw [if_neg hf, ← hsrc]
  unfold moveRow
  cases kget s.rows src <;> rfl

end Move

/-- MATCH_MOVE where the INSERT ends with status `st` and leaves rows `rows`. -/
theorem exec_matchMove_ends {s v : State} {m : Move} {rest : List Move} {x : Waiting} {st : Nat} {rows : KMap Row}
    (halone : LeavesAlone s m.wait) (hw : kget s.zat.waits m.wait = some x) (hd : x.direct = true)
    (hv : v = { s with rows := rows, moves := rest }) (hop : matchMoveOp s = endMove v m.wait st) :
    ∃ t, exec .matchMove s = .next t ∧ t.rows = rows ∧ t.moves = rest ∧ t.tricks = contextsLeft s m.wait
      ∧ t.zat = { s.zat with waits := kdel s.zat.waits m.wait }
      ∧ t.sent = s.sent ++ [.response x.session ⟨x.txn.op, x.txn.tag, st, x.txn.addr, []⟩] := by
  have hrun : exec .matchMove s = .next (keepFixed s (matchMoveOp s)) := cmd_ok (i := .matchMove) (f := matchMoveOp) s rfl
  have hend : SameButObs (answered { v with tricks := contextsLeft v m.wait } m.wait x st) (endMove v m.wait st) :=
    endMove_ends (hv ▸ halone) (hv ▸ hw) hd st
  rw [hop] at hrun
  refine ⟨_, hrun, ?_⟩
  generalize endMove v m.wait st = u at hend ⊢
  unfold SameButObs at hend
  rw [hend, hv]
  exact ⟨rfl, rfl, rfl, rfl, rfl⟩

theorem exec_matchMove_goes {s t : State} (hop : matchMoveOp s = t) (hk : keepFixed s t = t) : exec .matchMove s = .next t :=
  cmd_run (i := .matchMove) (f := matchMoveOp) rfl hop hk

/-! ## The scrubber (R155) -/

theorem exec_matchScrub_good (s : State) : exec (.matchScrub false) s = .next { s with scrubRow := (s.scrubRow + 1) % 131072 } :=
  cmd_run (i := .matchScrub false) (f := fun s => matchScrubOp s false) rfl rfl rfl

theorem exec_matchScrub_bad (s : State) : ∃ t, exec (.matchScrub true) s = .next t ∧ t.scrubRow = (s.scrubRow + 1) % 131072
    ∧ t.rows = kdel s.rows s.scrubRow
    ∧ regRaw t aRowErrLast 0 = ((rowTable s s.scrubRow).getD 0 % 128 + s.scrubRow * 2 ^ 7 + 2 ^ 63) % 2 ^ 64
    ∧ regRaw t aRowErr 0 % 2 ^ 48 = (regRaw s aRowErr 0 % 2 ^ 48 + 1) % 2 ^ 48 := by
  obtain ⟨v, hv⟩ : ∃ v : State, v = { s with scrubRow := (s.scrubRow + 1) % 131072, rows := kdel s.rows s.scrubRow } := ⟨_, rfl⟩
  have hrun : exec (.matchScrub true) s = .next (keepFixed s (setLog (bump v aRowErr) aRowErrLast
      ((rowTable s s.scrubRow).getD 0 % 128 + s.scrubRow * 2 ^ 7 + 2 ^ 63))) :=
    hv ▸ cmd_ok (i := .matchScrub true) (f := fun s => matchScrubOp s true) s rfl
  refine ⟨_, hrun, ?_, ?_, regRaw_setReg_same .., ?_⟩
  · exact congrArg State.scrubRow hv
  · exact congrArg State.rows hv
  · have hreg : regRaw v aRowErr 0 = regRaw s aRowErr 0 := by
      rw [hv]
      rfl
    have hbump := bump_low48 v aRowErr
    rw [hreg, ← regRaw_setReg_ne (s := bump v aRowErr) (a := aRowErrLast) ((rowTable s s.scrubRow).getD 0 % 128 + s.scrubRow * 2 ^ 7 + 2 ^ 63) 0
      (show aRowErr ≠ aRowErrLast by decide)] at hbump
    exact hbump

/-! ## The dispatcher (R234, R237) -/

theorem takeDealer_service (s : State) : 224 ≤ takeDealer s ∧ takeDealer s < 288 := by
  have hfold : ∀ (l : List Nat) (b : Nat), (∀ i ∈ l, i < 64) → 224 ≤ b ∧ b < 288 →
      224 ≤ l.foldl (fun b i => if inTake s b < inTake s (224 + i) then 224 + i else b) b
      ∧ l.foldl (fun b i => if inTake s b < inTake s (224 + i) then 224 + i else b) b < 288 := by
    intro l
    induction l with
    | nil => exact fun b _ hb => hb
    | cons i rest ih =>
      intro b hl hb
      have hi := hl i (List.mem_cons_self ..)
      refine ih _ (fun j hj => hl j (List.mem_cons_of_mem _ hj)) ?_
      dsimp only
      split
      · omega
      · exact hb
  exact hfold (List.range 64) 224 (fun i hi => List.mem_range.1 hi) (by decide)

theorem stageOf_takeDealer (s : State) : stageOf (takeDealer s) = 7 :=
  if_neg (Nat.not_lt.2 (takeDealer_service s).1)

theorem dispatchOp_idle {s : State} (h : nextTask s = none ∨ s.lastDisp = some s.clk ∨ held s = true) : dispatchOp s = s := by
  have hgo : nextTask s = none → dispatchGo (s.tasks.length + 1) s = s := fun hn => by
    unfold dispatchGo
    rw [hn]
  unfold dispatchOp
  split
  · next hfree =>
    simp only [Bool.and_eq_true, Bool.not_eq_true', bne_iff_ne] at hfree
    obtain ⟨⟨-, hheld⟩, hlast⟩ := hfree
    rcases h with h | h | h
    · exact hgo h
    · exact absurd h hlast
    · rw [hheld] at h
      exact absurd h Bool.false_ne_true
  · rfl

/-- The task that comes next needs no context that preempts, and has a routine of its own and no suit. -/
def PlainNext (s : State) (h : Nat) (x : Task) : Prop :=
  nextTask s = some (h, x) ∧ urgentDue (h, x) = false ∧ (∀ n, x.kind ≠ .insert n) ∧ (∀ n, x.kind ≠ .host n) ∧ x.body.suit = none

section Next
variable {s : State} {h : Nat} {x : Task} (hx : PlainNext s h x)
include hx

theorem dispatchOp_full (hfull : inTake s (takeDealer s) = 0) : dispatchOp s = s := by
  obtain ⟨hnext, hurg, -⟩ := hx
  have hgo : dispatchGo (s.tasks.length + 1) s = s := by
    unfold dispatchGo
    rw [hnext]
    dsimp only
    rw [hurg, hfull]
    rfl
  unfold dispatchOp
  rw [hgo]
  exact ite_self _

theorem dispatchGo_runs (k : Nat) {key : Nat} (hroom : inTake s (takeDealer s) ≠ 0)
    (hkey : kfree s.tricks (256 * takeDealer s) (256 * takeDealer s + 256) = some key) :
    dispatchGo (k + 1) s = runTask { s with lastDisp := some s.clk } (takeDealer s) (key % 256) h x 2 := by
  obtain ⟨hnext, hurg, hins, hhost, hsuit⟩ := hx
  have htake : takeTaskSuit s h x = (true, s) := by
    unfold takeTaskSuit
    rw [hsuit]
    cases x.state <;> rfl
  unfold dispatchGo
  rw [hnext]
  dsimp only
  rw [hurg, if_neg (by simpa using hroom), htake]
  dsimp only
  rw [if_neg (by simp), if_neg Bool.false_ne_true, hkey]
  dsimp only [Option.map_some]
  cases hkind : x.kind with
  | insert n => exact absurd hkind (hins n)
  | host w => exact absurd hkind (hhost w)
  | _ => rfl

end Next

theorem servicePkt_state (s : State) : ∃ n, (servicePkt s).2 = { s with fresh := n } := by
  unfold servicePkt
  exact ⟨_, drawN_frame 32 s⟩

/-- The state in which a task has become the trick of a context, before the trick starts. -/
def taskBegun (s : State) (d c h : Nat) (x : Task) : State :=
  renameHolder (bump { s with tasks := kset s.tasks h { x with state := .running } } aDispatched) (.task h) (.trick d c)

theorem taskBegun_fields (s : State) (d c h : Nat) (x : Task) : (taskBegun s d c h x).tasks = kset s.tasks h { x with state := .running }
    ∧ (taskBegun s d c h x).deck = s.deck ∧ (taskBegun s d c h x).hot0 = s.hot0 ∧ (taskBegun s d c h x).hot1 = s.hot1 := by
  unfold taskBegun
  obtain ⟨a, ha⟩ : ∃ a : State, a = { s with tasks := kset s.tasks h { x with state := .running } } := ⟨_, rfl⟩
  have hbump : SameButRegs a (bump a aDispatched) := .bump ..
  rw [← ha, show bump a aDispatched = { a with regs := (bump a aDispatched).regs } from hbump, ha]
  exact ⟨rfl, rfl, rfl, rfl⟩

/-- A task runs its routine in a context: its entry, and the trick that starts (R93, R237). -/
theorem runTask_starts {s : State} {d c h o rank : Nat} {x : Task} (hs : ksorted s.tasks = true) (hsuit : x.body.suit = none) (hd : stageOf d = 7)
    (ho : routineOff s (curSlot s) 7 x.body.routine = some o) : ∃ y, kget (runTask s d c h x rank).tasks h = some { x with state := .running }
      ∧ trickAt (runTask s d c h x rank) d c = some y ∧ y.task = some h ∧ y.routine = x.body.routine ∧ y.slot = curSlot s ∧ y.ended = false
      ∧ y.pkt = svcKey d c := by
  obtain ⟨u, hu⟩ : ∃ u, u = taskBegun s d c h x := ⟨_, rfl⟩
  obtain ⟨htasks, hdeck', hhot0', hhot1'⟩ := hu ▸ taskBegun_fields s d c h x
  obtain ⟨v, hv⟩ : ∃ v, v = traceTask u 1 false h (some x.body) d c := ⟨_, rfl⟩
  obtain ⟨w, hw⟩ : ∃ w, w = setPkt (servicePkt v).2 (svcKey d c) (servicePkt v).1 := ⟨_, rfl⟩
  obtain ⟨b, hb⟩ : ∃ b : Trick, b = { Trick.blank with pkt := svcKey d c, task := some h, slot := curSlot w, routine := x.body.routine, suit := none, rank := rank } := ⟨_, rfl⟩
  have hku : TaskKept h { x with state := .running } u := by
    unfold TaskKept
    rw [htasks]
    exact ⟨ksorted_kset _ _ hs, kget_kset_same ..⟩
  have hkv : TaskKept h { x with state := .running } v := hv ▸ traceTask_kept hku ..
  obtain ⟨n, hfresh⟩ := servicePkt_state v
  have hkw : TaskKept h { x with state := .running } w := by
    rw [hw, hfresh]
    exact hkv
  have hframe : w.deck = s.deck ∧ w.hot0 = s.hot0 ∧ w.hot1 = s.hot1 := by
    have hobs : SameButObs u v := hv ▸ .traceTask ..
    obtain ⟨-, -, -, -, hdeck, -, hhot0, hhot1, -⟩ := hobs.fields
    rw [hw, hfresh]
    exact ⟨hdeck.trans hdeck', hhot0.trans hhot0', hhot1.trans hhot1'⟩
  have hslot : curSlot w = curSlot s := by
    unfold curSlot
    rw [hframe.1]
  have hro : routineOff w b.slot (stageOf d) b.routine = some o := by
    rw [hb, hd, ← ho, ← hslot]
    exact routineOff_congr hframe.2.1 hframe.2.2 ..
  have hrun : runTask s d c h x rank = startTrick w d c b := by
    unfold runTask
    dsimp only
    rw [hsuit, ho]
    dsimp only
    rw [hb, hw, hv, hu]
    rfl
  obtain ⟨y, hstart, hpkt, hyslot, hroutine, hended, htask, -⟩ := startTrick_starts hro
  rw [hrun]
  refine ⟨y, (startTrick_kept hkw hro).2, ?_, ?_⟩
  · unfold trickAt
    rw [hstart.fields.1]
    exact kget_kset_same ..
  · rw [htask, hroutine, hyslot, hended, hpkt, hb, ← hslot]
    exact ⟨rfl, rfl, rfl, rfl, rfl⟩

theorem exec_taskDispatch (s : State) : exec .taskDispatch s = .next (keepFixed s (dispatchOp s)) :=
  cmd_ok (i := .taskDispatch) (f := dispatchOp) s rfl

theorem exec_taskDispatch_same {s : State} (h : dispatchOp s = s) : exec .taskDispatch s = .next s :=
  cmd_run (i := .taskDispatch) (f := dispatchOp) rfl h rfl

/-- TASK_DISPATCH of a plain task while its dealer has a free context. -/
theorem exec_taskDispatch_starts {s : State} {h o : Nat} {x : Task} (hx : PlainNext s h x) (hdeck : hasDeck s = true) (hheld : held s = false)
    (hlast : s.lastDisp ≠ some s.clk) (hroom : (tricksOf s (takeDealer s)).length < 256) (htricks : ksorted s.tricks = true)
    (htasks : ksorted s.tasks = true) (ho : routineOff s (curSlot s) 7 x.body.routine = some o) :
    ∃ t c y, exec .taskDispatch s = .next t ∧ kget t.tasks h = some { x with state := .running } ∧ trickAt s (takeDealer s) c = none ∧ c < 256
      ∧ trickAt t (takeDealer s) c = some y ∧ y.task = some h ∧ y.routine = x.body.routine ∧ y.slot = curSlot s ∧ y.ended = false
      ∧ y.pkt = svcKey (takeDealer s) c := by
  obtain ⟨d, hd⟩ : ∃ d, d = takeDealer s := ⟨_, rfl⟩
  have hrun : dispatchOp s = dispatchGo (s.tasks.length + 1) s := by
    unfold dispatchOp
    rw [hdeck, hheld, if_pos (by simpa using hlast)]
  obtain ⟨key, hkey, hlo, hhi, hnone⟩ := kfree_some s.tricks (256 * d) (256 * d + 256) htricks (by rw [kcount_room, hd]; omega)
  have hc : trickKey d (key % 256) = key := by
    unfold trickKey
    omega
  have hgo : dispatchOp s = runTask { s with lastDisp := some s.clk } d (key % 256) h x 2 := by
    rw [hrun, hd]
    refine dispatchGo_runs hx _ ?_ (hd ▸ hkey)
    unfold inTake
    omega
  obtain ⟨y, hy⟩ := runTask_starts (s := { s with lastDisp := some s.clk }) (d := d) (c := key % 256) (h := h) (rank := 2) htasks hx.2.2.2.2
    (hd ▸ stageOf_takeDealer s) ho
  rw [← hgo] at hy
  refine ⟨_, key % 256, y, exec_taskDispatch s, hy.1, ?_, Nat.mod_lt _ (by decide), hd ▸ hy.2⟩
  unfold trickAt
  rw [← hd, hc]
  exact hnone

/-- Settles O22: the match unit's clk by the head of its moves, the scrubber's row, and the dispatcher's context. -/
theorem matchInsertsScrubberAndDispatcher : Obligations.MatchInsertsScrubberAndDispatcher := by
  unfold Obligations.MatchInsertsScrubberAndDispatcher
  refine ⟨fun s => ⟨fun hnil => exec_matchMove_goes (by unfold matchMoveOp; rw [hnil]) rfl, ?_, exec_matchScrub_good s, exec_matchScrub_bad s⟩,
    fun s h d o x hdeck => ⟨fun hidle => exec_taskDispatch_same (dispatchOp_idle hidle), ?_, ?_⟩⟩
  · intro m rest w span hm hw hd hspan halone left ends
    have hends : ∀ {v : State} {st : Nat} (rows : KMap Row), v = { s with rows := rows, moves := rest } → matchMoveOp s = endMove v m.wait st →
        ends rows st := fun rows hv hop => exec_matchMove_ends halone hw hd hv hop
    refine ⟨fun hb => hends s.rows rfl (matchMoveOp_busy hm hb), fun hb => ⟨fun hh hn => hends s.rows rfl (matchMoveOp_full hm hb hspan hh hn),
      fun f hh hn => ⟨fun hok => exec_matchMove_goes (matchMoveOp_found hm hb hspan hh hn hok) rfl,
        fun hok => hends s.rows rfl (matchMoveOp_prefilter hm hb hspan hh hn hok)⟩,
      fun f hh hf => hends (putRow s f m.row).rows rfl (matchMoveOp_lands hm hb hh hf),
      fun f src hh hf hsrc => exec_matchMove_goes (matchMoveOp_moves hm hb hh hf hsrc) rfl⟩⟩
  · rintro hnext - hurg hins hhost hsuit rfl hfull
    exact exec_taskDispatch_same (dispatchOp_full ⟨hnext, hurg, hins, hhost, hsuit⟩ hfull)
  · rintro hnext - hurg hins hhost hsuit rfl hheld hlast hroom htricks htasks ho
    exact exec_taskDispatch_starts ⟨hnext, hurg, hins, hhost, hsuit⟩ hdeck hheld hlast hroom htricks htasks ho

end Sys2Proof.Machine
end
